-- ==== Sys2Proof/Word.lean ====
section
/-! DEFINITION. The word types of the machine and nothing else: bytes, 32-bit lane values, 64-bit scalars and
instruction words. Helpers over them (bit fields, sign extension, byte order) live in Machine/Bits.lean. -/

namespace Sys2Proof

/-- One byte of memory (R4). -/
abbrev Byte := BitVec 8

/-- One lane of a vector register (R54). -/
abbrev W32 := BitVec 32

/-- A scalar register, a lane mask, an instruction word or an address image (R54, R163). -/
abbrev W64 := BitVec 64

/-- An 8-bit operand field: a vector index or a scalar-class selector (R58, R166). -/
abbrev Sel := BitVec 8

end Sys2Proof
end

