-- ==== Sys2Proof/Machine/Bits.lean ====
section
/-! DEFINITION. Bit fields, sign extension, counting of bits and byte order (R4, R5, R10): the helpers that every
later file uses. All of them reduce on numerals. -/

namespace Sys2Proof.Machine

/-- bits(x, hi, lo) of R10 on a natural number, given as a low bit and a width. -/
def fldN (x lo n : Nat) : Nat := (x >>> lo) % 2 ^ n

/-- Bit i of a natural number. -/
def bitN (x i : Nat) : Bool := fldN x i 1 == 1

/-- zext(x, n): the low n bits of a 64-bit value as a number (R10). -/
def zextN (n : Nat) (x : Nat) : Nat := x % 2 ^ n

/-- sext(x, n): the low n bits of a value read as two's complement (R10). -/
def sextN (n : Nat) (x : Nat) : Int :=
  let r := x % 2 ^ n
  if n = 0 then 0 else if r < 2 ^ (n - 1) then (r : Int) else (r : Int) - (2 ^ n : Nat)

/-- wrap(x, n): x mod 2^n as a number (R10). -/
def wrapI (n : Nat) (x : Int) : Nat := (x % ((2 ^ n : Nat) : Int)).toNat

/-- A number as a 64-bit field. -/
def w64 (x : Nat) : W64 := BitVec.ofNat 64 x

/-- A number as a 32-bit field. -/
def w32 (x : Nat) : W32 := BitVec.ofNat 32 x

/-- The 64-bit field of an integer. -/
def w64I (x : Int) : W64 := w64 (wrapI 64 x)

/-- Whether bit i of a 64-bit mask is 1. -/
def bit (m : W64) (i : Nat) : Bool := m.getLsbD i

/-- The numbers 0 to n - 1 whose bit of m is 1, ascending. -/
def lanesOf (m : W64) (n : Nat) : List Nat := (List.range n).filter (fun i => bit m i)

/-- The mask with exactly the listed bits. -/
def maskOf (l : List Nat) : W64 := l.foldl (fun m i => m ||| w64 (2 ^ i)) 0#64

/-- The mask of all lanes below width (R15). -/
def fullMask (w : Nat) : W64 := w64 (2 ^ w - 1)

/-- Number of 1 bits among the low n bits. -/
def popN : Nat → Nat → Nat
  | 0, _ => 0
  | n + 1, x => x % 2 + popN n (x / 2)

/-- Trailing zeros of the n-bit field, n when it is zero (R190). -/
def ctzN : Nat → Nat → Nat
  | 0, _ => 0
  | n + 1, x => if x % 2 = 1 then 0 else ctzN n (x / 2) + 1

/-- The n-bit field with its bits in reverse order (R190). -/
def revN : Nat → Nat → Nat
  | 0, _ => 0
  | n + 1, x => (x % 2) * 2 ^ n + revN n (x / 2)

/-- Leading zeros of the n-bit field, n when it is zero (R190). -/
def clzN (n x : Nat) : Nat := ctzN n (revN n x)

/-- x with its field of width n at lo replaced by the low n bits of y (R9). -/
def setFld (x lo n y : Nat) : Nat := x - (fldN x lo n) * 2 ^ lo + (y % 2 ^ n) * 2 ^ lo

/-- The little-endian bytes of a number, n of them (R4). -/
def leBytes : Nat → Nat → List Byte
  | 0, _ => []
  | n + 1, x => BitVec.ofNat 8 x :: leBytes n (x / 256)

/-- The number that a list of bytes holds, little-endian (R4). -/
def leNat : List Byte → Nat
  | [] => 0
  | b :: t => b.toNat + 256 * leNat t

/-- The field of width n at lo of a word, as a bit vector. -/
def fld (w : W64) (lo n : Nat) : BitVec n := w.extractLsb' lo n

/-- Rounds x up to a multiple of m. -/
def roundUp (x m : Nat) : Nat := if m = 0 then x else (x + m - 1) / m * m

/-- Number of 1 bits of a 64-bit mask. -/
def pop64 (m : W64) : Nat := popN 64 m.toNat

/-- Lowest set bit of m below n, or n. -/
def lowest (m : W64) (n : Nat) : Nat := ctzN n m.toNat

/-- Replaces element i of a list. -/
def setAt {α : Type} : List α → Nat → α → List α
  | [], _, _ => []
  | _ :: t, 0, y => y :: t
  | x :: t, n + 1, y => x :: setAt t n y

/-- n bytes of a byte list from an offset. -/
def part (l : List Byte) (off n : Nat) : List Byte := (l.drop off).take n

/-- The doubleword at an offset of a byte list, as a number and as a bit vector (R4). -/
def imgW (l : List Byte) (off : Nat) : Nat := leNat (part l off 8)
def le64 (l : List Byte) (off : Nat) : W64 := w64 (leNat (part l off 8))

/-- Whether every byte of a part of a byte list is zero. -/
def zeroPart (l : List Byte) (off n : Nat) : Bool := (part l off n).all (· == 0)

end Sys2Proof.Machine
end

