-- ==== Sys2Proof/Syntax.lean ====
section
/-! DEFINITION. The syntax of Falger and of the module's events: one constructor of Instr for each row of
spec/opcode_table.json, 322 in all. The first group of rows are instruction words (book one and chapter 15); the
rest are the system events that the same table lists as steps of the machine, with the operands that say which
queue, copy, group or register the event concerns. -/

namespace Sys2Proof

/-- stype of the scalar arithmetic words (R168). -/
inductive SType | i64 | n64 | i32 | n32 | b64
  deriving DecidableEq, Repr

/-- Second source of a scalar word: imm32 when i = 1, the selector imm32[7:0] when i = 0 (R188). -/
inductive SSrc | imm (v : W32) | reg (b : Sel)
  deriving DecidableEq, Repr

/-- The hint field of form B (R172). -/
inductive Hint | none | likely | unlikely
  deriving DecidableEq, Repr

/-- Conditions of bc (R197). -/
inductive Cond | eqz | nez | ltz | gez | gtz | lez | any | all | none
  deriving DecidableEq, Repr

/-- Types of form V (R169). -/
inductive VTy
  | b32 | b64 | i8 | i16 | i32 | i64 | n8 | n16 | n32 | n64
  | f32 | f16 | bf16 | e4m3 | e5m2 | fp4 | dl8 | e8m0
  deriving DecidableEq, Repr

/-- Rounding modes (R66, R169). -/
inductive RMode | rne | rtz | rup | rdn
  deriving DecidableEq, Repr

/-- Operands of a form V word (R165, R167, R169); rm is none when mod[14:12] is 0, so that FMT.rm rules. -/
structure VOp where
  d : Sel
  a : Sel
  b : Sel
  c : Sel
  bs : Bool
  ty : VTy
  sat : Bool
  rm : Option RMode
  k : BitVec 4
  deriving DecidableEq, Repr

/-- Conditions of vcmp (R222). -/
inductive ICond | eq | ne | lt | le | gt | ge
  deriving DecidableEq, Repr

/-- Conditions of fcmp (R228). -/
inductive FCond | eq | ne | lt | le | gt | ge | uo | ord
  deriving DecidableEq, Repr

/-- The six conversion pairs of the half operation cvt (R174), named source then destination. -/
inductive HalfCvt | f32bf16 | f32f16 | bf16f32 | f16f32 | bf16f16 | f16bf16
  deriving DecidableEq, Repr

/-- Binary half operations d := d op a (R174). -/
inductive HOp2
  | vadd | vsub | vmul | vand | vor | vxor | vandn | vshl | vshr | vsra
  | vminI | vminN | vmaxI | vmaxN | fadd | fsub | fmul | fmin | fmax
  deriving DecidableEq, Repr

/-- Unary half operations d := op a (R174). -/
inductive HOp1 | vmov | vabs | vneg | fabs | fneg
  deriving DecidableEq, Repr

/-- One half of a dual word (R174). A dual word is the constructor of Instr named by its half A, which carries
half B as an argument. -/
inductive Half
  | nop
  | two (op : HOp2) (d a : Sel)
  | one (op : HOp1) (d a : Sel)
  | ffma (d a c : Sel)
  | vli (d : Sel) (imm : BitVec 8)
  | cvt (c : HalfCvt) (d a : Sel)
  | shflx (m : BitVec 6) (d a : Sel)
  deriving DecidableEq, Repr

/-- Width codes wt of form M (R170). -/
inductive MWidth | n8 | i8 | n16 | i16 | b32 | b64 | b128 | fragShared | fragScratch
  deriving DecidableEq, Repr

/-- The sv field of form M: contiguous, indexed, uniform; on mfrag it selects the transpose none, .t8, .t16 (R170). -/
inductive SV | s0 | s1 | s2
  deriving DecidableEq, Repr

/-- Operands of a form M word (R165, R170). -/
structure MOp where
  data : Sel
  base : Sel
  index : Sel
  off : BitVec 20
  wt : MWidth
  sv : SV
  k : BitVec 4
  deriving DecidableEq, Repr

/-- Operations of atom (R171). -/
inductive AtomOp | add | and | or | xor | minS | maxS | minN | maxN | xchg
  deriving DecidableEq, Repr

/-- Memory orders (R171, R140). -/
inductive Order | rlx | acq | rel | acqrel | seq
  deriving DecidableEq, Repr

/-- Scopes (R171, R137). -/
inductive Scope | grp | team | die | dev | sys
  deriving DecidableEq, Repr

/-- Declared uses of a relaxed atomic (R171, R150); none with every other order. -/
inductive Use | none | unpaired | commutative | nonordering | quantum | speculative
  deriving DecidableEq, Repr

/-- Operands of a form A word (R165, R171). -/
structure AOp where
  d : Sel
  base : Sel
  index : Sel
  data : Sel
  op : AtomOp
  order : Order
  scope : Scope
  use : Use
  w64 : Bool
  scr : Bool
  k : BitVec 4
  uni : Bool
  deriving DecidableEq, Repr

/-- Matrix element formats (R67). -/
inductive EFmt | bf16 | fp16 | e4m3 | e5m2 | dl8 | fp4
  deriving DecidableEq, Repr

/-- Operations of coll, redi, redf and scan (R173, R240). -/
inductive RedOp | add | min | max | and | or | xor
  deriving DecidableEq, Repr

/-- The in-flight counter paths (R134). -/
inductive Path | spill | shared | scratch | copy | engine | syscall
  deriving DecidableEq, Repr

/-- Who issues a word: slot of a group (the group named by its location, coded as for dbgrd, R367), a Quartz,
service or Basalt core by its sid number (R354), or the prologue engine of a front end. -/
inductive Agent
  | group (loc : Nat) (slot : Bool)
  | quartz (n : Nat)
  | prologue (fe : Nat)
  deriving DecidableEq, Repr

/-- Access classes of a translation (R377, R391). -/
inductive Acc | read | write | atomic | fetch
  deriving DecidableEq, Repr

/-- What an SPDM request carries besides its code (R458 to R462): the requester endpoint, the session it is sent in, its bytes,
whether it asks for a signature of its measurements, and whether its header version, its form and its decryption are good. -/
structure SpdmMsg where
  ep : Nat
  session : Option Nat
  bytes : List Byte
  sign : Bool
  versionOk : Bool
  formOk : Bool
  decryptOk : Bool
  deriving DecidableEq, Repr

/-- The instructions and events of the machine, one constructor for each row of spec/opcode_table.json. -/
inductive Instr
  /-- R190: Scalar add of a and b at the stype width. -/
  | sadd (t : SType) (d a : Sel) (b : SSrc)
  /-- R190: Scalar subtract. -/
  | ssub (t : SType) (d a : Sel) (b : SSrc)
  /-- R190: Scalar multiply that keeps the low n bits. -/
  | smul (t : SType) (d a : Sel) (b : SSrc)
  /-- R190: High half of the exact scalar product. -/
  | smulh (t : SType) (d a : Sel) (b : SSrc)
  /-- R190: Scalar quotient under R82; division by zero sets divzero. -/
  | sdiv (t : SType) (d a : Sel) (b : SSrc)
  /-- R190: Scalar remainder under R82. -/
  | srem (t : SType) (d a : Sel) (b : SSrc)
  /-- R190: Scalar bitwise and. -/
  | sand (t : SType) (d a : Sel) (b : SSrc)
  /-- R190: Scalar bitwise or. -/
  | sor (t : SType) (d a : Sel) (b : SSrc)
  /-- R190: Scalar bitwise xor. -/
  | sxor (t : SType) (d a : Sel) (b : SSrc)
  /-- R190: Scalar a and not b. -/
  | sandn (t : SType) (d a : Sel) (b : SSrc)
  /-- R191: Scalar shift left by an amount taken from b[7:0]. -/
  | sshl (t : SType) (d a : Sel) (b : SSrc)
  /-- R191: Scalar logical shift right. -/
  | sshr (t : SType) (d a : Sel) (b : SSrc)
  /-- R191: Scalar arithmetic shift right. -/
  | ssra (t : SType) (d a : Sel) (b : SSrc)
  /-- R191: Scalar rotate right of the n-bit field. -/
  | srot (t : SType) (d a : Sel) (b : SSrc)
  /-- R190: Scalar minimum, signed or natural by type. -/
  | smin (t : SType) (d a : Sel) (b : SSrc)
  /-- R190: Scalar maximum, signed or natural by type. -/
  | smax (t : SType) (d a : Sel) (b : SSrc)
  /-- R190: Scalar absolute value. -/
  | sabs (t : SType) (d a : Sel)
  /-- R190: Count of leading zeros of the n-bit field. -/
  | sclz (t : SType) (d a : Sel)
  /-- R190: Count of trailing zeros of the n-bit field. -/
  | sctz (t : SType) (d a : Sel)
  /-- R190: Count of 1 bits of the n-bit field. -/
  | spop (t : SType) (d a : Sel)
  /-- R192: Scalar bit-field extract. -/
  | sbfx (t : SType) (d a : Sel) (b : SSrc)
  /-- R192: Scalar bit-field insert into the destination. -/
  | sbfi (t : SType) (d a : Sel) (b : SSrc)
  /-- R190: Scalar bit reversal of the n-bit field. -/
  | sbrev (t : SType) (d a : Sel)
  /-- R190: Three-way scalar compare, giving -1, 0 or +1. -/
  | scmp (t : SType) (d a : Sel) (b : SSrc)
  /-- R190: Scalar select of a or b, on whether c is nonzero. -/
  | ssel (t : SType) (d a b c : Sel)
  /-- R194: Scalar move; with a queue source it pops one element as a deferred result. -/
  | smov (t : SType) (d a : Sel)
  /-- R190: Scalar load of an immediate. -/
  | sli (t : SType) (d : Sel) (imm : W32)
  /-- R193: Replaces bits [63:32] of the destination with imm32. -/
  | slih (d : Sel) (imm : W32)
  /-- R195: Forms the address x + (y << sh). -/
  | slea (t : SType) (d a b : Sel) (sh : BitVec 6)
  /-- R197: Unconditional branch of the issuing slot. -/
  | br (hint : Hint) (off : W32)
  /-- R197: Conditional branch on a scalar or mask condition. -/
  | bc (cc : Cond) (creg : Sel) (hint : Hint) (off : W32)
  /-- R38: Splits the path by a lane-mask condition and pushes divergence-stack entries. -/
  | bv (k : Sel) (off : W32) (jd : BitVec 14)
  /-- R199: Register-indirect branch with an optional link. -/
  | bx (d a : Sel) (imm : W32)
  /-- R199: Writes the link into s63 and branches. -/
  | call (hint : Hint) (off : W32)
  /-- R199: Returns to the address held in a scalar register. -/
  | ret (a : Sel)
  /-- R39: Reconverges paths, resumes stack entries and returns lent lanes. -/
  | join
  /-- R198: Decrements a counter and branches while it is nonzero. -/
  | loop (creg : Sel) (hint : Hint) (off : W32)
  /-- R202: Ends the live lanes of the issuing slot. -/
  | exit (imm : W32)
  /-- R205: Prefetches instruction lines into the instruction cache. -/
  | ipf (n : Sel) (off : W32)
  /-- R206: No effect. -/
  | nop
  /-- R207: Writes FMT of the issuing slot and returns its old value. -/
  | setfmt (d a : Sel) (imm : W32)
  /-- R208: Reads a special register. -/
  | mfs (d : Sel) (num : BitVec 8)
  /-- R208: Writes a special register. -/
  | mts (num : BitVec 8) (a : Sel)
  /-- R209: Reads the identity value named by a selector. -/
  | sid (d : Sel) (num : BitVec 8)
  /-- R210: Reads the timestamp or a clock value. -/
  | clk (d : Sel) (num : BitVec 8)
  /-- R218: Vector integer add, optionally saturating. -/
  | vadd (o : VOp)
  /-- R218: Vector integer subtract. -/
  | vsub (o : VOp)
  /-- R218: Vector multiply that keeps the low bits. -/
  | vmul (o : VOp)
  /-- R218: High half of the exact vector product. -/
  | vmulh (o : VOp)
  /-- R218: Vector multiply-add that keeps the low bits. -/
  | vmad (o : VOp)
  /-- R218: Vector quotient under R82. -/
  | vdiv (o : VOp)
  /-- R218: Vector remainder under R82. -/
  | vrem (o : VOp)
  /-- R218: Vector bitwise and. -/
  | vand (o : VOp)
  /-- R218: Vector bitwise or. -/
  | vor (o : VOp)
  /-- R218: Vector bitwise xor. -/
  | vxor (o : VOp)
  /-- R218: Vector a and not b. -/
  | vandn (o : VOp)
  /-- R218: Vector bitwise not. -/
  | vnot (o : VOp)
  /-- R219: Vector shift left. -/
  | vshl (o : VOp)
  /-- R219: Vector logical shift right. -/
  | vshr (o : VOp)
  /-- R219: Vector arithmetic shift right. -/
  | vsra (o : VOp)
  /-- R218: Vector integer minimum. -/
  | vmin (o : VOp)
  /-- R218: Vector integer maximum. -/
  | vmax (o : VOp)
  /-- R218: Vector absolute value. -/
  | vabs (o : VOp)
  /-- R218: Vector negation. -/
  | vneg (o : VOp)
  /-- R218: Count of leading zeros per lane. -/
  | vclz (o : VOp)
  /-- R218: Count of 1 bits per lane. -/
  | vpop (o : VOp)
  /-- R220: Vector bit-field extract. -/
  | vbfx (o : VOp)
  /-- R220: Vector bit-field insert. -/
  | vbfi (o : VOp)
  /-- R222: Integer compare of each lane into a mask register. -/
  | vcmp (c : ICond) (o : VOp)
  /-- R223: Per-lane select by a mask. -/
  | vsel (o : VOp)
  /-- R224: Vector move, or broadcast of a scalar. -/
  | vmov (o : VOp)
  /-- R224: Writes a 32-bit immediate into the masked lanes. -/
  | vli (d m : Sel) (imm : W32)
  /-- R224: Moves one lane of a vector register into a scalar. -/
  | vmovs (o : VOp)
  /-- R221: Four-way 8-bit dot product accumulated per lane. -/
  | vdot4 (o : VOp)
  /-- R221: Two-way 16-bit dot product accumulated per lane. -/
  | vdot2 (o : VOp)
  /-- R226: Floating-point add. -/
  | fadd (o : VOp)
  /-- R226: Floating-point subtract. -/
  | fsub (o : VOp)
  /-- R226: Floating-point multiply. -/
  | fmul (o : VOp)
  /-- R226: Fused multiply-add with one rounding. -/
  | ffma (o : VOp)
  /-- R227: Floating-point minimum. -/
  | fmin (o : VOp)
  /-- R227: Floating-point maximum. -/
  | fmax (o : VOp)
  /-- R226: Clears the sign bit. -/
  | fabs (o : VOp)
  /-- R226: Inverts the sign bit. -/
  | fneg (o : VOp)
  /-- R228: Floating-point compare into a mask register. -/
  | fcmp (c : FCond) (o : VOp)
  /-- R229: Writes a one-hot class of the encoding. -/
  | fclass (o : VOp)
  /-- R226: Correctly rounded division. -/
  | fdiv (o : VOp)
  /-- R226: Correctly rounded reciprocal. -/
  | frcp (o : VOp)
  /-- R226: Correctly rounded reciprocal square root. -/
  | frsq (o : VOp)
  /-- R226: Correctly rounded square root. -/
  | fsqrt (o : VOp)
  /-- R226: Correctly rounded 2^x. -/
  | fexp2 (o : VOp)
  /-- R226: Correctly rounded log2 x. -/
  | flog2 (o : VOp)
  /-- R226: Correctly rounded sine. -/
  | fsin (o : VOp)
  /-- R226: Correctly rounded cosine. -/
  | fcos (o : VOp)
  /-- R230: Rounds to an integral value in the same format. -/
  | fround (o : VOp)
  /-- R231: Converts one value per lane under R97. -/
  | cvt (o : VOp)
  /-- R232: Converts two values and packs them into one lane. -/
  | pack (o : VOp)
  /-- R233: Extracts element p and widens it. -/
  | unpk (o : VOp)
  /-- R242: Lane shuffle by an index. -/
  | shfl (o : VOp)
  /-- R242: Butterfly exchange by an xor mask. -/
  | shflx (o : VOp)
  /-- R242: Shift of values up or down the lanes. -/
  | shfld (o : VOp)
  /-- R243: Any, all or uniform vote into a scalar. -/
  | vote (o : VOp)
  /-- R244: Mask of the present lanes holding nonzero values. -/
  | ballot (o : VOp)
  /-- R245: Per-lane mask of the lanes holding equal values. -/
  | matchLanes (o : VOp)
  /-- R247: Exact integer reduction over the present lanes. -/
  | redi (o : VOp)
  /-- R248: FP32 reduction over a fixed tree. -/
  | redf (o : VOp)
  /-- R249: Inclusive or exclusive prefix over the present lanes. -/
  | scan (o : VOp)
  /-- R242: Broadcasts one lane's value to every present lane. -/
  | bcast (o : VOp)
  /-- R250: Lowest present lane whose mask bit is set. -/
  | firstl (o : VOp)
  /-- R250: Count or rank of the lanes of a mask. -/
  | lanes (o : VOp)
  /-- R174: Half operation with no effect. -/
  | halfNop (b : Half)
  /-- R234: Half: d := d + a. -/
  | halfVadd (d a : Sel) (b : Half)
  /-- R234: Half: d := d - a. -/
  | halfVsub (d a : Sel) (b : Half)
  /-- R234: Half: low 32 bits of d × a. -/
  | halfVmul (d a : Sel) (b : Half)
  /-- R234: Half: bitwise and. -/
  | halfVand (d a : Sel) (b : Half)
  /-- R234: Half: bitwise or. -/
  | halfVor (d a : Sel) (b : Half)
  /-- R234: Half: bitwise xor. -/
  | halfVxor (d a : Sel) (b : Half)
  /-- R234: Half: d and not a. -/
  | halfVandn (d a : Sel) (b : Half)
  /-- R234: Half: shift left. -/
  | halfVshl (d a : Sel) (b : Half)
  /-- R234: Half: logical shift right. -/
  | halfVshr (d a : Sel) (b : Half)
  /-- R234: Half: arithmetic shift right. -/
  | halfVsra (d a : Sel) (b : Half)
  /-- R234: Half: integer minimum. -/
  | halfVmin (nat : Bool) (d a : Sel) (b : Half)
  /-- R234: Half: integer maximum. -/
  | halfVmax (nat : Bool) (d a : Sel) (b : Half)
  /-- R234: Half: register move. -/
  | halfVmov (d a : Sel) (b : Half)
  /-- R234: Half: absolute value. -/
  | halfVabs (d a : Sel) (b : Half)
  /-- R234: Half: negation. -/
  | halfVneg (d a : Sel) (b : Half)
  /-- R234: Half: FP32 add. -/
  | halfFadd (d a : Sel) (b : Half)
  /-- R234: Half: FP32 subtract. -/
  | halfFsub (d a : Sel) (b : Half)
  /-- R234: Half: FP32 multiply. -/
  | halfFmul (d a : Sel) (b : Half)
  /-- R234: Half: FP32 minimum. -/
  | halfFmin (d a : Sel) (b : Half)
  /-- R234: Half: FP32 maximum. -/
  | halfFmax (d a : Sel) (b : Half)
  /-- R234: Half: clears the sign bit. -/
  | halfFabs (d a : Sel) (b : Half)
  /-- R234: Half: inverts the sign bit. -/
  | halfFneg (d a : Sel) (b : Half)
  /-- R234: Half: fused multiply-add into d. -/
  | halfFfma (d a c : Sel) (b : Half)
  /-- R234: Half: sign-extended 8-bit immediate into d. -/
  | halfVli (d : Sel) (imm : BitVec 8) (b : Half)
  /-- R234: Half: one of six 16/32-bit conversions. -/
  | halfCvt (c : HalfCvt) (d a : Sel) (b : Half)
  /-- R174: Half: butterfly exchange with member mask k0. -/
  | halfShflx (m : BitVec 6) (d a : Sel) (b : Half)
  /-- R254: Load from the lane's own spill area. -/
  | ldp (o : MOp)
  /-- R254: Store into the lane's own spill area. -/
  | stp (o : MOp)
  /-- R254: Load from team shared memory. -/
  | lds (o : MOp)
  /-- R254: Store into team shared memory. -/
  | sts (o : MOp)
  /-- R254: Load from scratch. -/
  | ldx (o : MOp)
  /-- R254: Store into scratch; in the aperture window it starts copies. -/
  | stx (o : MOp)
  /-- R258: Reads counted lines and decrements their counts. -/
  | ldt (o : MOp)
  /-- R260: Loads a 1 KiB block, optionally transposed, across the lanes. -/
  | mfrag (o : MOp)
  /-- R262: Stages scratch lines towards the core. -/
  | prefx (o : MOp)
  /-- R264: Per-lane or uniform atomic read-modify-write. -/
  | atom (o : AOp)
  /-- R266: Compare-and-swap. -/
  | cas (o : AOp)
  /-- R270: Parks until the covered counters reach zero. -/
  | fence (order : Order) (scope : Scope) (hs : BitVec 8)
  /-- R271: Defines a range handle. -/
  | hdef (d a b : Sel)
  /-- R272: Defines or invalidates an alias entry of the team. -/
  | hdefAlias (e : BitVec 4) (a b c : Sel)
  /-- R273: Parks while a path counter exceeds a threshold. -/
  | waitc (p : Path) (a : Sel) (t : BitVec 8)
  /-- R274: Requests a new scratch way count for the partition. -/
  | scrsz (d a : Sel) (n : BitVec 5)
  /-- R284: Starts a copy on a channel from a template slot. -/
  | cpy (d ch tmpl arg : Sel)
  /-- R293: Requests a swap of an alias entry's front. -/
  | pub (scope : Scope) (h : Sel)
  /-- R295: Requests a matrix tile configuration. -/
  | shape (d m n k : Sel) (af bf : EFmt) (sp : Bool)
  /-- R298: Sets a tile to +0. -/
  | mzero (t : Sel)
  /-- R299: Queues K-steps on a tile. -/
  | mloop (hMeta t a b cnt inc : Sel) (sp : Bool)
  /-- R302: Converts a tile and pushes its rows into q0. -/
  | mdrain (t hRow hCol : Sel) (o : VTy) (sat : Bool)
  /-- R303: Starts a near-memory matrix-vector product. -/
  | mvn (d hB hX hY rows cols : Sel) (bf : EFmt) (x8 : Bool)
  /-- R305: Gathers one sector per lane into q2. -/
  | gath (h v : Sel)
  /-- R306: Contributes lane values to a collective. -/
  | coll (op : RedOp) (ty : VTy) (v desc : Sel)
  /-- R294: Drops the counted lines of a handle's range. -/
  | rcrel (h : Sel)
  /-- R292: Reads a channel's last copy status. -/
  | qstat (d ch : Sel)
  /-- R310: Arrives at a team barrier and waits for the phase. -/
  | bar (b : BitVec 4) (cnt : BitVec 6)
  /-- R310: Arrives at a barrier and returns a phase token. -/
  | arrive (d : Sel) (b : BitVec 4) (cnt : BitVec 6)
  /-- R310: Waits for the phase of a token. -/
  | await (a : Sel) (b : BitVec 4)
  /-- R319: Saves the group if pre-emption is requested. -/
  | yield (a : Sel) (n : BitVec 9)
  /-- R313: Parks while a location equals a value. -/
  | mwait (d base c : Sel) (w64 scr : Bool) (off : BitVec 10) (timeout : BitVec 12)
  /-- R316: Changes allotment and priority class and jumps to a role entry. -/
  | role (a : Sel) (n : BitVec 4)
  /-- R315: Claims vector register units from the pool. -/
  | regclm (n : BitVec 6)
  /-- R315: Releases vector register units. -/
  | regrel (n : BitVec 6)
  /-- R318: Waits for the team and then merges paths that share a target. -/
  | regroup (off : W32)
  /-- R322: Traps on the enabled sticky flags. -/
  | tfence
  /-- R323: Raises SOFTTRAP with n. -/
  | trap (n : BitVec 16)
  /-- R327: Returns from the in-enclave handler. -/
  | trapRet
  /-- R323: Raises BREAK with n. -/
  | brk (n : BitVec 16)
  /-- R328: Posts a system-call entry to the partition's ring. -/
  | sysc (d a : Sel) (svc : BitVec 8) (wait : Bool) (t : BitVec 16)
  /-- R368: Quartz load from device memory. -/
  | ldm (o : MOp)
  /-- R368: Quartz store to device memory. -/
  | stm (o : MOp)
  /-- R368: Quartz atomic on device memory. -/
  | atomm (o : AOp)
  /-- R360: Reads a platform register. -/
  | mfp (d : Sel) (block : BitVec 8) (off : BitVec 24)
  /-- R360: Writes a platform register. -/
  | mtp (block : BitVec 8) (off : BitVec 24) (a : Sel)
  /-- R359: Returns from a trap, resuming a sealed enclave thread when ETHR is valid. -/
  | eret
  /-- R359: Parks the core until an interrupt is pending. -/
  | wfi
  /-- R359: Stops the core. -/
  | halt
  /-- R362: Invalidates every stage-one entry of an ASID. -/
  | tlbinvAsid (a b : Sel)
  /-- R362: Invalidates stage-one entries for one VA in an ASID. -/
  | tlbinvVa (a b : Sel)
  /-- R362: Invalidates every entry of a VMID. -/
  | tlbinvVmid (a b : Sel)
  /-- R362: Invalidates stage-two entries for one IPA. -/
  | tlbinvIpa (a b : Sel)
  /-- R362: Invalidates every translation on the package. -/
  | tlbinvAll (a b : Sel)
  /-- R364: Basalt creates an enclave from a descriptor. -/
  | encmk (d a : Sel)
  /-- R365: Basalt ends an enclave. -/
  | enckill (d a : Sel)
  /-- R381: potreq gives free zeroed frames to an enclave or OS. -/
  | assign (d a : Sel)
  /-- R381: potreq returns frames to the free class for scrubbing. -/
  | reclaim (d a : Sel)
  /-- R386: potreq seals pages into the far tier and reclaims their frames. -/
  | evict (d a : Sel)
  /-- R387: potreq loads sealed page images into frames. -/
  | restoreFrames (d a : Sel)
  /-- R367: Reads a doubleword of a halted group's state. -/
  | dbgrd (d a : Sel)
  /-- R179: A word with a reserved or out-of-profile opcode, hop or function code is issued and faults with ILLEGAL_OPCODE. -/
  | illegalOpcode (w : W64)
  /-- R119: The carve-out change completes or fails after its waits. -/
  | scrszComplete (part : Nat)
  /-- R289: A copy ends; its status is recorded and its signal added. -/
  | copyCompletion (id : Nat)
  /-- R130: A counted line's fill completes or is poisoned. -/
  | countedFillComplete (die id : Nat)
  /-- R158: The front swaps once earlier writes to the buffers have returned. -/
  | pubSwap (id : Nat)
  /-- R300: The matrix engine completes one K-step of an mloop. -/
  | mloopKStep (core id : Nat)
  /-- R302: The engine pushes a drained row's pieces into q0 when room allows. -/
  | mdrainRowPush (core id : Nat)
  /-- R304: A near-memory product completes and delivers its status. -/
  | mvnCompletion (id : Nat)
  /-- R305: A gather's sectors arrive in q2. -/
  | gatherCompletion (id : Nat)
  /-- R306: A collective completes and its result enters each group's q3. -/
  | collectiveCompletion (id : Nat)
  /-- R313: The mwait timeout expires and the group wakes. -/
  | mwaitTimeout (loc : Nat) (slot : Bool)
  /-- R314: The oldest listed claim is granted when blocks are freed. -/
  | claimGrant (core : Nat)
  /-- R325: Writes the trap frame and enters the handler in handler mode. -/
  | handlerEntry (loc : Nat)
  /-- R329: Service cores serve a lane's buddy allocation. -/
  | alloc (fe seq lane : Nat)
  /-- R329: Service cores return a block to the enclave heap. -/
  | free (fe seq lane : Nat)
  /-- R330: An unmet wait request is answered EXHAUSTED at its deadline. -/
  | syscDeadlineExpiry (fe seq : Nat)
  /-- R76: A deferred result lands and clears its pending mark. -/
  | deferredResultReturn (ag : Agent) (id : Nat)
  /-- R420: The front end places a team on the next core where resources are free. -/
  | teamPlacement (launch : Nat)
  /-- R203: A group whose lanes have all exited retires once its counters are zero. -/
  | groupRetirement (loc : Nat)
  /-- R27: After 4,096 cycles the oldest ready pending group displaces an active one. -/
  | pendingPromotion (core sq : Nat)
  /-- R28: A ready group unissued for 256 cycles gains one priority class. -/
  | priorityAging (core sq : Nat)
  /-- R30: A missed instruction line arrives and unfreezes the sequencer. -/
  | icacheLineArrival (core sq : Nat)
  /-- R320: An uncorrectable error in a core or its state raises MACHINE_CHECK. -/
  | machineCheck (ag : Agent)
  /-- R359: A parked core continues once an IPEND bit is 1. -/
  | wfiWake (q : Nat)
  /-- R357: A cause on a Quartz core is taken at its target level. -/
  | quartzTrapEntry (q : Nat) (code : BitVec 8) (n : BitVec 16) (addr : W64)
  /-- R358: A pending, enabled interrupt source is taken between words. -/
  | interruptEntry (q : Nat)
  /-- R358: The timestamp reaches TCMP and the timer interrupt becomes pending. -/
  | timerExpiry (q : Nat)
  /-- R352: An enclave thread's write hands a packet to a queue. -/
  | kick (q : Nat) (v : W64)
  /-- R358: Writing TCMP sets the timer compare and clears the timer source. -/
  | tcmpWrite (q : Nat) (v : W64)
  /-- R361: A write to DBSET rings a Quartz core's doorbell. -/
  | doorbellRing (c : Nat)
  /-- R361: A write to DBCLR clears the executing core's doorbell. -/
  | doorbellClear (q : Nat)
  /-- R361: Reading BMREP consumes the oldest unread Basalt report. -/
  | bmrepRead (q : Nat)
  /-- R377: A walker translates an address through both stages and checks ownership. -/
  | translationWalk (ag : Agent) (va : W64) (acc : Acc)
  /-- R392: A translation fault is written to the page-request queue when a position is free. -/
  | pageRequestEntry (id : Nat)
  /-- R393: Consumes page-request entries up to the written count. -/
  | prqheadWrite (v : W64)
  /-- R393: Resolves a page-request entry, and its waiters retry or fail. -/
  | prqdone (v : W64)
  /-- R397: A front-end command requests pre-emption of a team. -/
  | preempt (fe launch team deadline : Nat) (area : W64)
  /-- R398: PDL reaches zero and the unyielded groups are forced to save. -/
  | forcedSave (tid : Nat)
  /-- R509: After the drain the team's sealed image is checked and written. -/
  | imageTaken (tid : Nat)
  /-- R402: A late result reaches a forwarding entry and is stored or forwarded. -/
  | lateResultArrival (id : Nat)
  /-- R407: A front-end command checks a save image and restores the team. -/
  | restore (fe launch team : Nat) (area : W64) (core : Nat)
  /-- R407: A checked restore is placed once resources are free. -/
  | restorePlacement (id : Nat)
  /-- R438: A front-end command restarts a group stopped for system software. -/
  | feResume (fe launch team group : Nat)
  /-- R440: A stop record is written to the stop ring once room exists. -/
  | stopRecordWrite (fe : Nat)
  /-- R440: Consumes stop records. -/
  | festrdWrite (fe : Nat) (v : W64)
  /-- R412: Writing 1s acknowledges completion and system-call interrupts. -/
  | feirqAck (fe : Nat) (v : W64)
  /-- R414: Setting en starts a queue running. -/
  | queueEnable (fe q : Nat)
  /-- R414: Clearing en makes a queue Idle. -/
  | queueDisable (fe q : Nat)
  /-- R414: Freezes a queue at the next packet boundary. -/
  | queueFreeze (fe q : Nat)
  /-- R414: Clears freeze and lets a frozen queue run. -/
  | queueUnfreeze (fe q : Nat)
  /-- R414: Restarts a queue in Error at the first uncancelled packet. -/
  | queueResume (fe q : Nat)
  /-- R415: Writing QWR makes packets valid for issue. -/
  | queueDoorbell (fe q : Nat) (v : W64)
  /-- R419: Issues a grid launch. -/
  | launchPacket (fe q : Nat)
  /-- R429: Runs a prologue routine before its LAUNCH. -/
  | prologuePacket (fe q : Nat)
  /-- R430: The prologue routine exits with a code that decides the launch. -/
  | prologueExit (fe : Nat)
  /-- R430: A routine running beyond 2^20 words gives the PROLOGUE error. -/
  | prologueRunLimit (fe : Nat)
  /-- R423: Issues when every listed signal reads zero. -/
  | barrierPacket (fe q : Nat)
  /-- R423: A write to a listed signal re-evaluates a waiting barrier. -/
  | barrierEvaluation (fe q : Nat)
  /-- R422: Stores or adds to a signal. -/
  | signalPacket (fe q : Nat)
  /-- R425: Starts one copy on behalf of the queue. -/
  | copyPacket (fe q : Nat)
  /-- R426: Tests a word and issues only the chosen arm. -/
  | predPacket (fe q : Nat)
  /-- R427: Issues a chained buffer of packets. -/
  | callPacket (fe q : Nat)
  /-- R428: Stops look-ahead until issue reaches it. -/
  | joinPacket (fe q : Nat)
  /-- R431: Starts an Agate graph walk. -/
  | graphPacket (fe q : Nat)
  /-- R434: Aborts a named queue. -/
  | abortPacket (fe q : Nat)
  /-- R421: The last team retires and the grid's completion signal is decremented. -/
  | gridCompletion (launch : Nat)
  /-- R436: A launch waiting for residency proceeds when the resident fraction reaches thr/255. -/
  | residencyGate (fe q : Nat)
  /-- R433: A graph node processes a LAUNCH and starts its successors on completion. -/
  | kernelNode (fe i : Nat)
  /-- R433: A graph node processes a COPY. -/
  | copyNode (fe i : Nat)
  /-- R433: A graph node branches on a condition word. -/
  | condNode (fe i : Nat)
  /-- R433: A graph node loops up to maxiter. -/
  | whileNode (fe i : Nat)
  /-- R433: A graph node counts arrivals and starts its successor at npred. -/
  | graphJoinNode (fe i : Nat)
  /-- R433: A graph node marks the graph as ending. -/
  | endNode (fe i : Nat)
  /-- R441: Sets a partition's cluster range unless it conflicts or is busy. -/
  | fepartWrite (fe : Nat) (v : W64)
  /-- R443: Changes a partition's colour set on a die. -/
  | colsetWrite (die part : Nat) (v : W64)
  /-- R445: Resets a partition in four steps. -/
  | partitionReset (part : Nat)
  /-- R459: SPDM request that restarts the connection. -/
  | getVersion (m : SpdmMsg)
  /-- R459: SPDM capabilities request. -/
  | getCapabilities (m : SpdmMsg)
  /-- R459: SPDM algorithm negotiation. -/
  | negotiateAlgorithms (m : SpdmMsg) (offered : Bool)
  /-- R459: SPDM digests request. -/
  | getDigests (m : SpdmMsg)
  /-- R459: SPDM certificate request. -/
  | getCertificate (m : SpdmMsg) (slot : Nat)
  /-- R459: SPDM signed challenge. -/
  | challenge (m : SpdmMsg)
  /-- R459: SPDM measurement report, including the bound enclave. -/
  | getMeasurements (m : SpdmMsg) (index : BitVec 8)
  /-- R462: Opens an SPDM session, optionally bound to an enclave. -/
  | keyExchange (m : SpdmMsg) (eid : Option Nat)
  /-- R459: Establishes an SPDM session. -/
  | finish (m : SpdmMsg)
  /-- R459: Ends an SPDM session. -/
  | endSession (m : SpdmMsg)
  /-- R464: The hypervisor requests a TDISP binding, and Basalt locks and keys the interface. -/
  | bindRequest (r i : Nat) (lo hi : W64)
  /-- R464: The hypervisor frees a binding in error. -/
  | bindFree (r i : Nat)
  /-- R464: An enclave end, TDISP ERROR or STOP, or an integrity limit puts a binding in error. -/
  | tdispStop (r i : Nat)
  /-- R465: The root port accepts or discards an inbound device request. -/
  | deviceRequest (r rid : Nat) (onStream ideOk write : Bool) (va : W64) (data : List Byte)
  /-- R162: A device or peer write lands in HBM. -/
  | inboundWrite (eid : Nat) (va : W64) (data : List Byte)
  /-- R467: The hypervisor requests a stream, and Basalt keys it with the peer. -/
  | streamRequest (port i : Nat) (lo hi : W64) (peerHolds sameMeas peerLive : Bool)
  /-- R468: A stream message is received, checked for replay and authenticated. -/
  | streamMessage (port i : Nat) (sq : Nat) (oldKey authentic : Bool)
  /-- R468: Basalt rekeys a stream before the 2^32nd message. -/
  | streamRekey (port i : Nat)
  /-- R468: Messages under the old key stop being accepted 1 ms after a switch. -/
  | oldKeyExpiry (port i : Nat)
  /-- R470: MIGREQ starts live migration of an enclave. -/
  | migrationRequest (port : Nat) (v : W64) (destLive session : Bool)
  /-- R410: A peer's atomic is performed, or answered as moved. -/
  | remoteAtomic (eid : Nat) (va : W64) (w64 : Bool) (op : AtomOp) (v : W64)
  /-- R487: Arms or disarms groups for the debugger. -/
  | dbgArm (q : Nat) (va : W64)
  /-- R487: Replaces a code word atomically. -/
  | dbgPatch (q : Nat) (va : W64)
  /-- R487: Arms a scratch watchpoint of a team. -/
  | dbgWatch (q : Nat) (va : W64)
  /-- R487: Runs or steps a halted group. -/
  | dbgResume (q : Nat) (va : W64)
  /-- R485: Writing DBGRD consumes event records. -/
  | dbgEventConsume (v : W64)
  /-- R499: A block silent for 100 ms is reloaded, or held after three failures. -/
  | watchdogExpiry (block : Nat)
  /-- R501: Basalt fetches an image over Ultra Ethernet and writes it to flash. -/
  | recovery (block : Nat) (img : List Byte)
  /-- R503: Retires a core and substitutes a spare. -/
  | coreRetire (die core : Nat)
  /-- R504: A pseudo-channel is recalibrated while its accesses are held. -/
  | phyRecalibration (channel : Nat)
  /-- R506: At 105 °C clusters drop to 1,200 MHz; at 115 °C the module freezes. -/
  | thermalLimit (celsius : Nat)
  /-- R360: A write to a platform register with no behaviour of its own. -/
  | platformRegisterWrite (q : Nat) (block : BitVec 8) (off : BitVec 24) (v : W64)
  /-- R134: A store, or a prefx staging, returns: it is performed at its scope and its in-flight and range counters fall. -/
  | accessReturn (ag : Agent) (id : Nat)
  /-- R447: Shale finishes scrubbing a released frame, sets zeroed, and frees the EID once the last frame of an ending enclave is done. -/
  | frameScrubComplete (frame : Nat)
  /-- R291: A peer module, endpoint or storage namespace fails or becomes unreachable, so copies end with REMOTE, collectives end with err 0x07 and streams enter error. -/
  | peerUnreachable (tier target : Nat)
  /-- R470: The destination reports the restore, and the source ends the enclave and puts its stream entries in error. -/
  | migrationRestoreReport (port : Nat)
  /-- R470: A destination Basalt loads a migrating enclave's key slot under the same EID, with its measurement and debug bit. -/
  | migrationKeyImport (eid part : Nat) (dbg : Bool) (meas : BitVec 384)
  /-- R452: Starts working-set recording for an enclave. -/
  | shaleRecord
  /-- R452: Stops working-set recording. -/
  | shaleStop
  /-- R454: Shale evicts and restores pages from an entry list. -/
  | move
  /-- R488: A halt's event record is written once the ring has room. -/
  | debugEventWrite
  /-- R498: At power-on Basalt checks, measures and releases blocks in id order. -/
  | boot
  /-- R500: Basalt checks, loads and flashes a staged image. -/
  | liveUpdate
  /-- R505: FREEZE_N stops the clocks and debug=0 enclaves are scrubbed. -/
  | freezePin
  /-- R505: A FRZCTL write asks Basalt to freeze the module. -/
  | freezeRequest
  /-- R390: A fetcher translation request still counted 64 µs after a context teardown began is forced stale. -/
  | fetcherStaleTimeout
  /-- R500: The module loses power, which ends a freeze and can interrupt a flash write. -/
  | powerLoss
  /-- R358: An acknowledgement at the debug port clears IPEND[6]. -/
  | debugPortAck
  /-- R505: A scan read-out through the debug port, refused until FRZST bit [0] is set. -/
  | scanReadOut
  deriving DecidableEq, Repr

end Sys2Proof
end

