-- ==== Sys2Proof/Machine/Check.lean ====
section
/-! DEFINITION. The checks that decoding makes on an instruction word (R166, R178 to R180), apart from the state:
which register operands a word names and of which class (R58, R166), its reserved bits and codes, the bank rule of
dual words (R175), the profile of each engine and the privileged opcodes. -/

namespace Sys2Proof.Machine

/-- Classes that a scalar-class selector field may be asked for (R58, R166, R186, R279). -/
inductive SCls
  | src    -- s, k or h
  | srcQ   -- s, k, h, or q as the source of smov
  | dst    -- s or k
  | s      -- s0 to s63
  | s1     -- s1 to s63
  | k      -- k0 to k15
  | h      -- h0 to h7
  | base   -- s or h
  | sk     -- s or k
  | q      -- q0 to q3
  deriving DecidableEq, Repr

def selIsS (a : Sel) : Bool := a.toNat < 0x40
def selIsK (a : Sel) : Bool := 0x40 ≤ a.toNat && a.toNat < 0x50
def selIsQ (a : Sel) : Bool := 0x50 ≤ a.toNat && a.toNat < 0x54
def selIsH (a : Sel) : Bool := 0x58 ≤ a.toNat && a.toNat < 0x60

/-- Whether a selector is of a class (R58). -/
def SCls.admits (c : SCls) (a : Sel) : Bool :=
  match c with
  | .src => selIsS a || selIsK a || selIsH a
  | .srcQ => selIsS a || selIsK a || selIsH a || selIsQ a
  | .dst | .sk => selIsS a || selIsK a
  | .s => selIsS a
  | .s1 => selIsS a && a.toNat != 0
  | .k => selIsK a
  | .h => selIsH a
  | .base => selIsS a || selIsH a
  | .q => selIsQ a

/-- One register operand of a word: a run of n vector registers whose first must be a multiple of al, a
scalar-class selector of a class, a tile number or a channel number (R55, R56, R58, R166). -/
inductive RUse
  | vec (r : Sel) (n al : Nat)
  | sc (a : Sel) (c : SCls)
  | tile (t : Sel)
  | chan (c : Sel)
  deriving DecidableEq, Repr

/-- Whether an operand passes step 4 of R180 under a vector allotment A (R55, R56, R58, R166). -/
def RUse.ok (A : Nat) : RUse → Bool
  | .vec r n al => r.toNat % al == 0 && r.toNat + n ≤ A
  | .sc a c => c.admits a
  | .tile t => t.toNat < 32
  | .chan c => c.toNat < 16

/-- Whether a type is 64 bits wide (R213). -/
def VTy.wide : VTy → Bool
  | .b64 | .i64 | .n64 => true
  | _ => false

/-- Registers of one value of a type: a pair for 64-bit types (R56, R213). -/
def VTy.regs (t : VTy) : Nat := if VTy.wide t then 2 else 1

def VTy.isAll : VTy → Bool
  | .i32 | .n32 | .b32 | .i64 | .n64 | .b64 => true
  | _ => false
def VTy.isNum : VTy → Bool
  | .i32 | .n32 | .i64 | .n64 => true
  | _ => false
def VTy.isSgn : VTy → Bool
  | .i32 | .i64 => true
  | _ => false
/-- The signed integer types of every width (R81). -/
def VTy.isSigned : VTy → Bool
  | .i8 | .i16 | .i32 | .i64 => true
  | _ => false
/-- The integer types of every width (R81). -/
def VTy.isInt : VTy → Bool
  | .i8 | .i16 | .i32 | .i64 | .n8 | .n16 | .n32 | .n64 => true
  | _ => false
def VTy.isB : VTy → Bool
  | .b32 | .b64 => true
  | _ => false
def VTy.isF : VTy → Bool
  | .f32 | .f16 | .bf16 => true
  | _ => false

/-- The type code of R169 as a type; none for a reserved code. -/
def vtyOf : Nat → Option VTy
  | 0x00 => some .b32 | 0x01 => some .b64
  | 0x02 => some .i8 | 0x03 => some .i16 | 0x04 => some .i32 | 0x05 => some .i64
  | 0x06 => some .n8 | 0x07 => some .n16 | 0x08 => some .n32 | 0x09 => some .n64
  | 0x10 => some .f32 | 0x11 => some .f16 | 0x12 => some .bf16 | 0x13 => some .e4m3
  | 0x14 => some .e5m2 | 0x15 => some .fp4 | 0x16 => some .dl8 | 0x17 => some .e8m0
  | _ => none

/-- Codes of R169. -/
def VTy.code : VTy → Nat
  | .b32 => 0x00 | .b64 => 0x01 | .i8 => 0x02 | .i16 => 0x03 | .i32 => 0x04 | .i64 => 0x05
  | .n8 => 0x06 | .n16 => 0x07 | .n32 => 0x08 | .n64 => 0x09
  | .f32 => 0x10 | .f16 => 0x11 | .bf16 => 0x12 | .e4m3 => 0x13
  | .e5m2 => 0x14 | .fp4 => 0x15 | .dl8 => 0x16 | .e8m0 => 0x17

/-- The pairs of cvt (R96), named destination and source. -/
def cvtPair (dest fr : VTy) : Bool :=
  match dest, fr with
  | .f32, .f16 | .f32, .bf16 | .f32, .e4m3 | .f32, .e5m2 | .f32, .fp4 | .f32, .dl8 | .f32, .e8m0 => true
  | .f16, .f32 | .bf16, .f32 | .e4m3, .f32 | .e5m2, .f32 | .fp4, .f32 | .dl8, .f32 | .e8m0, .f32 => true
  | .f16, .bf16 | .bf16, .f16 => true
  | .f32, .i32 | .f32, .n32 | .f32, .i64 | .f32, .n64 => true
  | .i32, .f32 | .n32, .f32 | .i64, .f32 | .n64, .f32 => true
  | _, _ => false

/-- The K-step of a pair of matrix formats with or without .sp24 (R295); none when the table has none. -/
def kStep (a b : EFmt) (sp : Bool) : Option Nat :=
  let c : EFmt → Nat := fun f => match f with
    | .bf16 | .fp16 => 0 | .e4m3 | .e5m2 | .dl8 => 1 | .fp4 => 2
  if c a != c b then none
  else match c a, sp with
    | 0, false => some 32 | 0, true => some 64
    | 1, false => some 64 | 1, true => some 128
    | 2, false => some 128
    | _, _ => none

/-- Use that an opcode of form V makes of its b and c fields. -/
inductive BUse | none | any | vec | sc deriving DecidableEq, Repr
inductive CUse | zero | vec | mask | imm deriving DecidableEq, Repr

/-- What an opcode of form V accepts: its types, whether .sat and a rounding mode are accepted for a type, and its
use of b and c (R214, R215, R218, R225, R240). -/
structure VSpec where
  ty : VTy → Bool
  b : BUse
  c : CUse
  sat : VTy → Bool
  rnd : VTy → Bool

/-- The reserved check of a form V word against its opcode's line (R169, R214, R215). -/
def VSpec.ok (p : VSpec) (o : VOp) : Bool :=
  p.ty o.ty && (!o.sat || p.sat o.ty) && (o.rm.isNone || p.rnd o.ty)
  && (match p.b with
      | .none => o.b == 0 && !o.bs
      | .any => true
      | .vec => !o.bs
      | .sc => o.bs)
  && (match p.c with | .zero => o.c == 0 | _ => true)

def never (_ : VTy) : Bool := false

/-- Integer binary opcodes. -/
def vsBin (ty : VTy → Bool) : VSpec := { ty := ty, b := .any, c := .zero, sat := never, rnd := never }
/-- Integer unary opcodes. -/
def vsUn (ty : VTy → Bool) : VSpec := { ty := ty, b := .none, c := .zero, sat := never, rnd := never }
/-- Rounded floating-point opcodes. -/
def vsFlt (b : BUse) (c : CUse) : VSpec :=
  { ty := VTy.isF, b := b, c := c, sat := VTy.isF, rnd := VTy.isF }
/-- Unrounded floating-point opcodes. -/
def vsFlt0 (b : BUse) : VSpec := { ty := VTy.isF, b := b, c := .zero, sat := never, rnd := never }
/-- Lane-exchange opcodes on bit patterns. -/
def vsLane (b : BUse) (c : CUse) : VSpec := { ty := VTy.isB, b := b, c := c, sat := never, rnd := never }

/-- Types of pack and unpk (R232). -/
def isPack : VTy → Bool
  | .f16 | .bf16 | .e4m3 | .e5m2 | .dl8 | .fp4 | .i8 | .n8 | .i16 | .n16 => true
  | _ => false

/-- Largest p of pack (R232). -/
def packMax : VTy → Nat
  | .e4m3 | .e5m2 | .dl8 | .i8 | .n8 => 1
  | .fp4 => 3
  | _ => 0

/-- Largest p of unpk (R233). -/
def unpkMax : VTy → Nat
  | .e4m3 | .e5m2 | .dl8 | .i8 | .n8 => 3
  | .fp4 => 7
  | _ => 1

/-- op of redi, redf and scan: c[2:0], none for 6 and 7 (R240). -/
def redOpOf : Nat → Option RedOp
  | 0 => some .add | 1 => some .min | 2 => some .max | 3 => some .and | 4 => some .or | 5 => some .xor
  | _ => none

/-- The op, type and .sat combinations of redi and scan that are accepted (R240). -/
def redOk (op : Option RedOp) (t : VTy) (sat : Bool) : Bool :=
  match op with
  | none => false
  | some op =>
    (match op with
     | .min | .max => !VTy.isB t
     | .and | .or | .xor => t != .f32
     | .add => true)
    && (!sat || (op == .add && VTy.isNum t))

/-- Type and op combinations of coll (R306). -/
def collOk (op : RedOp) (t : VTy) : Bool :=
  match op with
  | .add | .min | .max => t == .f32 || VTy.isNum t
  | .and | .or | .xor => VTy.isB t

/-- Reserved combinations of order and use (R171). -/
def useOk (o : Order) (u : Use) : Bool := if o == .rlx then u != .none else u == .none

/-- Reserved checks of atom and atomm (R171, R267). -/
def aOk (o : AOp) : Bool :=
  useOk o.order o.use && !((o.use == .commutative || o.use == .quantum) && o.op == .xchg)

/-- Reserved checks of a memory width for a load, a store and a uniform word (R170, R253). -/
def mwOk (store : Bool) (o : MOp) : Bool :=
  match o.wt with
  | .i8 | .i16 => !store
  | .b128 => o.sv != .s2
  | .fragShared | .fragScratch => false
  | _ => true

/-- The control immediate of a bit-field word has no bit outside [14:8] and [5:0] (R192). -/
def bfOk : SSrc → Bool
  | .imm v => v &&& 0xFFFF80C0#32 == 0
  | .reg _ => true

/-- The immediate of a shift has no bit above [7] (R191). -/
def shOk : SSrc → Bool
  | .imm v => v &&& 0xFFFFFF00#32 == 0
  | .reg _ => true

/-- Stypes of the num column of R190. -/
def SType.isNum (t : SType) : Bool := t != .b64

/-- Step 3 of R180 as far as the word alone decides it: reserved types, modifiers and combinations (R166 to R173,
R190 to R195, R218 to R233, R240, R251 to R274, R295, R307, R359 to R362). System events are no words. -/
def reservedOk : Instr → Bool
  | .sadd _ _ _ _ | .ssub _ _ _ _ | .smul _ _ _ _ => true
  | .smulh t _ _ _ | .sdiv t _ _ _ | .srem t _ _ _ => SType.isNum t
  | .sand _ _ _ _ | .sor _ _ _ _ | .sxor _ _ _ _ | .sandn _ _ _ _ => true
  | .sshl _ _ _ b | .sshr _ _ _ b | .ssra _ _ _ b | .srot _ _ _ b => shOk b
  | .smin t _ _ _ | .smax t _ _ _ => SType.isNum t
  | .sabs t _ _ => t == .i64 || t == .i32
  | .sclz _ _ _ | .sctz _ _ _ | .spop _ _ _ | .sbrev _ _ _ => true
  | .sbfx _ _ _ b | .sbfi _ _ _ b => bfOk b
  | .scmp t _ _ _ => SType.isNum t
  | .ssel _ _ _ _ _ | .sli _ _ _ | .slih _ _ => true
  | .smov t _ a => !selIsQ a || t == .b64
  | .slea t _ _ _ _ => t == .b64 || t == .n32
  | .br _ _ | .bc _ _ _ _ | .bx _ _ _ | .call _ _ | .ret _ | .join | .loop _ _ _ | .exit _ => true
  | .bv _ _ jd => jd != 0
  | .ipf n _ => n != 0 && n.toNat ≤ 16
  | .nop | .setfmt _ _ _ | .mfs _ _ | .mts _ _ | .sid _ _ | .clk _ _ => true
  | .vadd o | .vsub o =>
    VSpec.ok { ty := VTy.isAll, b := .any, c := .zero, sat := VTy.isNum, rnd := never } o
  | .vmul o => (vsBin VTy.isAll).ok o
  | .vmulh o => (vsBin VTy.isNum).ok o
  | .vmad o => VSpec.ok { ty := VTy.isAll, b := .any, c := .vec, sat := never, rnd := never } o
  | .vdiv o | .vrem o => (vsBin VTy.isNum).ok o
  | .vand o | .vor o | .vxor o | .vandn o => (vsBin VTy.isAll).ok o
  | .vnot o => (vsUn VTy.isAll).ok o
  | .vshl o | .vshr o | .vsra o => (vsBin VTy.isAll).ok o
  | .vmin o | .vmax o => (vsBin VTy.isNum).ok o
  | .vabs o | .vneg o => VSpec.ok { ty := VTy.isSgn, b := .none, c := .zero, sat := VTy.isSgn, rnd := never } o
  | .vclz o | .vpop o => (vsUn VTy.isAll).ok o
  | .vbfx o | .vbfi o => (vsBin VTy.isAll).ok o
  | .vcmp _ o => (vsBin VTy.isNum).ok o
  | .vsel o => (vsLane .any .mask).ok o
  | .vmov o => (vsLane .any .zero).ok o && (if o.bs then o.a == 0 else o.b == 0)
  | .vli _ _ _ => true
  | .vmovs o =>
    VSpec.ok { ty := fun t => t == .b32 || t == .i32 || t == .n32 || t == .b64, b := .sc, c := .zero,
               sat := never, rnd := never } o && o.k == 0
  | .vdot4 o => VSpec.ok { ty := fun t => t == .i8 || t == .n8, b := .any, c := .vec, sat := fun _ => true, rnd := never } o
  | .vdot2 o => VSpec.ok { ty := fun t => t == .i16 || t == .n16, b := .any, c := .vec, sat := fun _ => true, rnd := never } o
  | .fadd o | .fsub o | .fmul o | .fdiv o => (vsFlt .any .zero).ok o
  | .ffma o => (vsFlt .any .vec).ok o
  | .fmin o | .fmax o | .fcmp _ o => (vsFlt0 .any).ok o
  | .fabs o | .fneg o | .fclass o => (vsFlt0 .none).ok o
  | .frcp o | .frsq o | .fsqrt o | .fexp2 o | .flog2 o | .fsin o | .fcos o => (vsFlt .none .zero).ok o
  | .fround o => VSpec.ok { ty := VTy.isF, b := .none, c := .zero, sat := never, rnd := VTy.isF } o
  | .cvt o =>
    o.b == 0 && !o.bs && o.c.toNat < 64
    && (match vtyOf o.c.toNat with | some f => cvtPair o.ty f | none => false)
    && (!o.sat || !(o.ty == .f32 || VTy.isNum o.ty))
  | .pack o =>
    isPack o.ty && o.c.toNat ≤ packMax o.ty
    && (o.rm.isNone || !(o.ty == .i8 || o.ty == .n8 || o.ty == .i16 || o.ty == .n16))
  | .unpk o =>
    isPack o.ty && o.c.toNat ≤ unpkMax o.ty && o.b == 0 && !o.bs && !o.sat && (o.rm.isNone || o.ty == .dl8)
  | .shfl o => (vsLane .any .zero).ok o
  | .shflx o => (vsLane .none .imm).ok o && o.c.toNat < 64
  | .shfld o => (vsLane .none .imm).ok o && !bitN o.c.toNat 6 && fldN o.c.toNat 0 6 != 0
  | .vote o => (vsLane .none .imm).ok o && o.c.toNat < 3
  | .ballot o | .matchLanes o => (vsLane .none .zero).ok o
  | .redi o =>
    VSpec.ok { ty := VTy.isAll, b := .none, c := .imm, sat := VTy.isNum, rnd := never } o
    && fldN o.c.toNat 3 4 == 0 && redOk (redOpOf (fldN o.c.toNat 0 3)) o.ty o.sat
  | .redf o =>
    VSpec.ok { ty := fun t => t == .f32, b := .none, c := .imm, sat := never, rnd := never } o
    && fldN o.c.toNat 3 4 == 0 && redOk (redOpOf (fldN o.c.toNat 0 3)) o.ty o.sat
  | .scan o =>
    VSpec.ok { ty := fun t => VTy.isAll t || t == .f32, b := .none, c := .imm, sat := VTy.isNum, rnd := never } o
    && fldN o.c.toNat 3 3 == 0 && !bitN o.c.toNat 7 && redOk (redOpOf (fldN o.c.toNat 0 3)) o.ty o.sat
  | .bcast o => (vsLane .sc .zero).ok o
  | .firstl o =>
    VSpec.ok { ty := fun t => t == .b32, b := .none, c := .zero, sat := never, rnd := never } o
  | .lanes o =>
    VSpec.ok { ty := fun t => t == .b32, b := .none, c := .imm, sat := never, rnd := never } o
    && fldN o.c.toNat 0 7 == 0
  | .halfNop _ | .halfVadd _ _ _ | .halfVsub _ _ _ | .halfVmul _ _ _ | .halfVand _ _ _ | .halfVor _ _ _
  | .halfVxor _ _ _ | .halfVandn _ _ _ | .halfVshl _ _ _ | .halfVshr _ _ _ | .halfVsra _ _ _
  | .halfVmin _ _ _ _ | .halfVmax _ _ _ _ | .halfVmov _ _ _ | .halfVabs _ _ _ | .halfVneg _ _ _
  | .halfFadd _ _ _ | .halfFsub _ _ _ | .halfFmul _ _ _ | .halfFmin _ _ _ | .halfFmax _ _ _
  | .halfFabs _ _ _ | .halfFneg _ _ _ | .halfFfma _ _ _ _ | .halfVli _ _ _ | .halfCvt _ _ _ _
  | .halfShflx _ _ _ _ => true
  | .ldp o => mwOk false o && o.sv != .s2
  | .stp o => mwOk true o && o.sv != .s2
  | .lds o | .ldx o | .ldt o => mwOk false o
  | .sts o | .stx o => mwOk true o
  | .mfrag o => o.wt == .fragShared || o.wt == .fragScratch
  | .prefx o => o.data == 0 && (o.wt == .n8 || o.wt == .n16 || o.wt == .b32 || o.wt == .b64 || o.wt == .b128)
  | .atom o => aOk o
  | .cas o => useOk o.order o.use && o.op == .add && !(o.use == .commutative || o.use == .quantum)
  | .fence o _ hs => o != .rlx && popN 8 hs.toNat ≤ 4
  | .hdef _ _ _ | .hdefAlias _ _ _ _ => true
  | .waitc _ a t => a == 0 || t == 0
  | .scrsz _ a n => a == 0 || n == 0
  | .cpy _ _ _ _ | .pub _ _ | .mzero _ | .gath _ _ | .rcrel _ | .qstat _ _ => true
  | .shape _ _ _ _ a b sp => (kStep a b sp).isSome
  | .mloop hM _ _ _ _ _ sp => sp || hM == 0
  | .mdrain _ _ _ o _ => 0x10 ≤ VTy.code o && VTy.code o ≤ 0x16
  | .mvn _ _ _ _ _ _ bf _ => bf == .bf16 || bf == .e4m3 || bf == .dl8 || bf == .fp4
  | .coll op t _ _ => collOk op t
  | .bar _ c | .arrive _ _ c => c.toNat ≤ 32
  | .await _ _ => true
  | .yield a n => (a == 0 || n == 0) && n.toNat ≤ 256
  | .mwait _ _ _ _ _ _ _ => true
  | .role a n => a == 0 || n == 0
  | .regclm n | .regrel n => n != 0 && n.toNat ≤ 32
  | .regroup _ | .tfence | .trap _ | .trapRet | .brk _ => true
  | .sysc _ _ _ w t => w == (t != 0)
  | .ldm o => o.sv == .s2 && o.k == 0 && mwOk false o
  | .stm o => o.sv == .s2 && o.k == 0 && mwOk true o
  | .atomm o => aOk o && o.uni && !o.scr && o.k == 0
  | .mfp _ _ off | .mtp _ off _ => off.toNat % 8 == 0
  | _ => true

/-- Register operands of a half (R175, R234). -/
def halfRegs : Half → List RUse
  | .nop => []
  | .two _ d a | .one _ d a | .cvt _ d a | .shflx _ d a => [.vec d 1 1, .vec a 1 1]
  | .ffma d a c => [.vec d 1 1, .vec a 1 1, .vec c 1 1]
  | .vli d _ => [.vec d 1 1]

/-- Registers that a half reads (R175). -/
def halfReads : Half → List Sel
  | .nop | .vli _ _ => []
  | .two _ d a => [d, a]
  | .one _ _ a | .cvt _ _ a | .shflx _ _ a => [a]
  | .ffma d a c => [d, a, c]

/-- The destination of a half (R175). -/
def halfDest : Half → Option Sel
  | .nop => none
  | .two _ d _ | .one _ d _ | .cvt _ d _ | .shflx _ d _ | .ffma d _ _ | .vli d _ => some d

/-- The two halves of a dual word. -/
def halves : Instr → Option (Half × Half)
  | .halfNop b => some (.nop, b)
  | .halfVadd d a b => some (.two .vadd d a, b) | .halfVsub d a b => some (.two .vsub d a, b)
  | .halfVmul d a b => some (.two .vmul d a, b) | .halfVand d a b => some (.two .vand d a, b)
  | .halfVor d a b => some (.two .vor d a, b) | .halfVxor d a b => some (.two .vxor d a, b)
  | .halfVandn d a b => some (.two .vandn d a, b) | .halfVshl d a b => some (.two .vshl d a, b)
  | .halfVshr d a b => some (.two .vshr d a, b) | .halfVsra d a b => some (.two .vsra d a, b)
  | .halfVmin n d a b => some (.two (if n then .vminN else .vminI) d a, b)
  | .halfVmax n d a b => some (.two (if n then .vmaxN else .vmaxI) d a, b)
  | .halfVmov d a b => some (.one .vmov d a, b) | .halfVabs d a b => some (.one .vabs d a, b)
  | .halfVneg d a b => some (.one .vneg d a, b)
  | .halfFadd d a b => some (.two .fadd d a, b) | .halfFsub d a b => some (.two .fsub d a, b)
  | .halfFmul d a b => some (.two .fmul d a, b) | .halfFmin d a b => some (.two .fmin d a, b)
  | .halfFmax d a b => some (.two .fmax d a, b)
  | .halfFabs d a b => some (.one .fabs d a, b) | .halfFneg d a b => some (.one .fneg d a, b)
  | .halfFfma d a c b => some (.ffma d a c, b)
  | .halfVli d i b => some (.vli d i, b)
  | .halfCvt c d a b => some (.cvt c d a, b)
  | .halfShflx m d a b => some (.shflx m d a, b)
  | _ => none

/-- The register sets of R175 lie in different banks: the distinct registers, and at most one per bank. -/
def banksOk (l : List Sel) : Bool :=
  let l := l.eraseDups
  (l.map (fun r => r.toNat % 4)).eraseDups.length == l.length

/-- Step 5 of R180 for a dual word (R175). -/
def pairOk (i : Instr) : Bool :=
  match halves i with
  | none => true
  | some (x, y) =>
    (match halfDest x, halfDest y with
     | some d, some e => d.toNat % 4 != e.toNat % 4
     | _, _ => true)
    && banksOk (halfReads x ++ halfReads y)

/-- The b operand of a form V word: a broadcast scalar class or a vector field of n registers (R167, R214). -/
def bRegs (o : VOp) (n : Nat) : List RUse := if o.bs then [.sc o.b .src] else [.vec o.b n n]

def vBin (o : VOp) : List RUse :=
  let n := VTy.regs o.ty
  .vec o.d n n :: .vec o.a n n :: bRegs o n
def vUn (o : VOp) : List RUse := let n := VTy.regs o.ty; [.vec o.d n n, .vec o.a n n]

/-- A destination that the word's c[7] makes a vector register or a scalar (R240). -/
def sdReg (o : VOp) (n : Nat) : RUse := if bitN o.c.toNat 7 then .sc o.d .s else .vec o.d n n

/-- Registers of the data of a memory width (R170, R253). -/
def MWidth.regs : MWidth → Nat
  | .b64 => 2 | .b128 => 4 | _ => 1

/-- Operands of a load or store (R251). -/
def mRegs (o : MOp) (bc : SCls) : List RUse :=
  let n := MWidth.regs o.wt
  match o.sv with
  | .s0 => [.vec o.data n n, .sc o.base bc, .sc o.index .s]
  | .s1 => [.vec o.data n n, .sc o.base bc, .vec o.index 1 1]
  | .s2 => [.sc o.data .s, .sc o.base bc, .sc o.index .s]

/-- Operands of atom and cas (R263). -/
def aRegs (o : AOp) : List RUse :=
  let n := if o.w64 then 2 else 1
  if o.uni then [.sc o.d .s, .sc o.base .base, .sc o.index .s, .sc o.data .s]
  else [.vec o.d n n, .sc o.base .base, .vec o.index 1 1, .vec o.data n n]

def bSc : SSrc → List RUse
  | .imm _ => []
  | .reg b => [.sc b .src]

/-- A selector that may be 0 for absent, else of a class. -/
def optReg (a : Sel) (c : SCls) : List RUse := if a == 0 then [] else [.sc a c]

/-- Every register operand that a word names, with its class (R58, R166, R186 to R310), for a group of a width. -/
def regsOf (width : Nat) : Instr → List RUse
  | .sadd _ d a b | .ssub _ d a b | .smul _ d a b | .smulh _ d a b | .sdiv _ d a b | .srem _ d a b
  | .sand _ d a b | .sor _ d a b | .sxor _ d a b | .sandn _ d a b | .sshl _ d a b | .sshr _ d a b
  | .ssra _ d a b | .srot _ d a b | .smin _ d a b | .smax _ d a b | .sbfx _ d a b | .sbfi _ d a b
  | .scmp _ d a b => .sc d .dst :: .sc a .src :: bSc b
  | .sabs _ d a | .sclz _ d a | .sctz _ d a | .spop _ d a | .sbrev _ d a => [.sc d .dst, .sc a .src]
  | .ssel _ d a b c => [.sc d .dst, .sc a .src, .sc b .src, .sc c .src]
  | .smov _ d a => [.sc d .dst, .sc a .srcQ]
  | .sli _ d _ | .slih d _ => [.sc d .dst]
  | .slea _ d a b _ => [.sc d .dst, .sc a .src, .sc b .src]
  | .br _ _ | .join | .exit _ | .ipf _ _ | .nop => []
  | .bc cc c _ _ =>
    match cc with
    | .any | .all | .none => [.sc c .k]
    | _ => [.sc c .s]
  | .bv k _ _ => [.sc k .k]
  | .bx d a _ => [.sc d .s, .sc a .s]
  | .call _ _ => [.sc 0x3F .s]
  | .ret a => [.sc a .s]
  | .loop c _ _ => [.sc c .s1]
  | .setfmt d a _ => [.sc d .s, .sc a .s]
  | .mfs d _ => [.sc d .sk]
  | .mts _ a => [.sc a .sk]
  | .sid d _ | .clk d _ => [.sc d .s]
  | .vadd o | .vsub o | .vmul o | .vmulh o | .vdiv o | .vrem o | .vand o | .vor o | .vxor o | .vandn o
  | .vshl o | .vshr o | .vsra o | .vmin o | .vmax o | .vbfx o | .vbfi o
  | .fadd o | .fsub o | .fmul o | .fdiv o | .fmin o | .fmax o => .sc (0x40 + o.k.zeroExtend 8) .k :: vBin o
  | .vmad o | .ffma o | .vdot4 o | .vdot2 o =>
    let n := VTy.regs o.ty; .sc (0x40 + o.k.zeroExtend 8) .k :: .vec o.c n n :: vBin o
  | .vnot o | .vabs o | .vneg o | .vclz o | .vpop o | .fabs o | .fneg o | .fclass o | .frcp o | .frsq o
  | .fsqrt o | .fexp2 o | .flog2 o | .fsin o | .fcos o | .fround o => .sc (0x40 + o.k.zeroExtend 8) .k :: vUn o
  | .vcmp _ o | .fcmp _ o =>
    let n := VTy.regs o.ty; .sc (0x40 + o.k.zeroExtend 8) .k :: .sc o.d .k :: .vec o.a n n :: bRegs o n
  | .vsel o => .sc (0x40 + o.k.zeroExtend 8) .k :: .sc o.c .k :: vBin o
  | .vmov o =>
    let n := VTy.regs o.ty
    .sc (0x40 + o.k.zeroExtend 8) .k :: .vec o.d n n :: (if o.bs then [.sc o.b .src] else [.vec o.a n n])
  | .vli d m _ => [.vec d 1 1, .sc m .k]
  | .vmovs o => let n := VTy.regs o.ty; [.sc o.d .s, .vec o.a n n, .sc o.b .src]
  | .cvt o =>
    let n := VTy.regs o.ty
    let m := match vtyOf o.c.toNat with | some f => VTy.regs f | none => 1
    [.sc (0x40 + o.k.zeroExtend 8) .k, .vec o.d n n, .vec o.a m m]
  | .pack o => .sc (0x40 + o.k.zeroExtend 8) .k :: .vec o.d 1 1 :: .vec o.a 1 1 :: bRegs o 1
  | .unpk o => [.sc (0x40 + o.k.zeroExtend 8) .k, .vec o.d 1 1, .vec o.a 1 1]
  | .shfl o =>
    let n := VTy.regs o.ty; .sc (0x40 + o.k.zeroExtend 8) .k :: .vec o.d n n :: .vec o.a n n :: bRegs o 1
  | .bcast o =>
    let n := VTy.regs o.ty
    [.sc (0x40 + o.k.zeroExtend 8) .k, .vec o.d n n, .vec o.a n n, .sc o.b .src]
  | .shflx o | .shfld o | .scan o => .sc (0x40 + o.k.zeroExtend 8) .k :: vUn o
  | .vote o => let n := VTy.regs o.ty; [.sc (0x40 + o.k.zeroExtend 8) .k, .sc o.d .s, .vec o.a n n]
  | .ballot o => let n := VTy.regs o.ty; [.sc (0x40 + o.k.zeroExtend 8) .k, .sc o.d .k, .vec o.a n n]
  | .matchLanes o => let n := VTy.regs o.ty; [.sc (0x40 + o.k.zeroExtend 8) .k, .vec o.d 2 2, .vec o.a n n]
  | .redi o | .redf o =>
    let n := VTy.regs o.ty; [.sc (0x40 + o.k.zeroExtend 8) .k, sdReg o n, .vec o.a n n]
  | .firstl o => [.sc (0x40 + o.k.zeroExtend 8) .k, .sc o.d .s, .sc o.a .k]
  | .lanes o => [.sc (0x40 + o.k.zeroExtend 8) .k, sdReg o 1, .sc o.a .k]
  | .ldp o | .stp o | .lds o | .sts o | .ldx o | .stx o =>
    .sc (0x40 + o.k.zeroExtend 8) .k :: mRegs o .base
  | .ldt o => .sc (0x40 + o.k.zeroExtend 8) .k :: mRegs o .h
  | .mfrag o =>
    [.sc (0x40 + o.k.zeroExtend 8) .k, .vec o.data (256 / width) 4, .sc o.base .base, .sc o.index .s]
  | .prefx o =>
    [.sc (0x40 + o.k.zeroExtend 8) .k, .sc o.base .base,
     if o.sv == .s1 then .vec o.index 1 1 else .sc o.index .s]
  | .atom o | .cas o => .sc (0x40 + o.k.zeroExtend 8) .k :: aRegs o
  | .fence _ _ _ => []
  | .hdef d a b => [.sc d .h, .sc a .s, .sc b .s]
  | .hdefAlias _ a b c => [.sc a .s, .sc b .s, .sc c .s]
  | .waitc _ a _ => [.sc a .s]
  | .scrsz d a _ => [.sc d .s, .sc a .s]
  | .cpy d ch _ a => [.sc d .s, .chan ch, .sc a .s1]
  | .pub _ h | .rcrel h => [.sc h .h]
  | .shape d m n k _ _ _ => [.sc d .s, .sc m .s1, .sc n .s1, .sc k .s1]
  | .mzero t => [.tile t]
  | .mloop hM t a b c i sp =>
    (if sp then [.sc hM .h] else []) ++ [.tile t, .sc a .s1, .sc b .s1, .sc c .s1, .sc i .s1]
  | .mdrain t r c _ _ => .tile t :: (optReg r .h ++ optReg c .h)
  | .mvn d hB hX hY r c _ _ => [.sc d .s, .sc hB .h, .sc hX .h, .sc hY .h, .sc r .s1, .sc c .s1]
  | .gath h v => [.sc h .h, .vec v 1 1]
  | .coll _ t v d => let n := VTy.regs t; [.vec v n n, .sc d .s1]
  | .qstat d ch => [.sc d .s, .chan ch]
  | .bar _ _ | .regclm _ | .regrel _ | .regroup _ | .tfence | .trap _ | .trapRet | .brk _ => []
  | .arrive d _ _ => [.sc d .s]
  | .await a _ | .yield a _ | .role a _ => [.sc a .s]
  | .mwait d b c _ _ _ _ => [.sc d .s, .sc b .base, .sc c .s]
  | .sysc d a _ _ _ => [.vec d 2 2, .vec a 2 2]
  | .ldm o | .stm o => [.sc o.data .s, .sc o.base .s, .sc o.index .s]
  | .atomm o => [.sc o.d .s, .sc o.base .s, .sc o.index .s, .sc o.data .s]
  | .mfp d _ _ => [.sc d .s]
  | .mtp _ _ a => [.sc a .s]
  | .tlbinvAsid a b | .tlbinvVa a b | .tlbinvVmid a b | .tlbinvIpa a b | .tlbinvAll a b => [.sc a .s, .sc b .s]
  | .encmk d a | .enckill d a | .assign d a | .reclaim d a | .evict d a | .restoreFrames d a | .dbgrd d a =>
    [.sc d .s, .sc a .s]
  | i =>
    match halves i with
    | some (x, y) => halfRegs x ++ halfRegs y
    | none => []

/-- The major opcode of a word (R176); 0x100 for a dual word, none for a system event. -/
def opcodeOf : Instr → Option Nat
  | .sadd .. => some 0x01 | .ssub .. => some 0x02 | .smul .. => some 0x03 | .smulh .. => some 0x04
  | .sdiv .. => some 0x05 | .srem .. => some 0x06 | .sand .. => some 0x07 | .sor .. => some 0x08
  | .sxor .. => some 0x09 | .sandn .. => some 0x0A | .sshl .. => some 0x0B | .sshr .. => some 0x0C
  | .ssra .. => some 0x0D | .srot .. => some 0x0E | .smin .. => some 0x0F | .smax .. => some 0x10
  | .sabs .. => some 0x11 | .sclz .. => some 0x12 | .sctz .. => some 0x13 | .spop .. => some 0x14
  | .sbfx .. => some 0x15 | .sbfi .. => some 0x16 | .sbrev .. => some 0x17 | .scmp .. => some 0x18
  | .ssel .. => some 0x19 | .smov .. => some 0x1A | .sli .. => some 0x1B | .slih .. => some 0x1C
  | .slea .. => some 0x1D
  | .br .. => some 0x20 | .bc .. => some 0x21 | .bv .. => some 0x22 | .bx .. => some 0x23 | .call .. => some 0x24
  | .ret .. => some 0x25 | .join => some 0x26 | .loop .. => some 0x27 | .exit .. => some 0x28 | .ipf .. => some 0x29
  | .nop => some 0x2A | .setfmt .. => some 0x2B | .mfs .. => some 0x2C | .mts .. => some 0x2D
  | .sid .. => some 0x2E | .clk .. => some 0x2F
  | .vadd .. => some 0x30 | .vsub .. => some 0x31 | .vmul .. => some 0x32 | .vmulh .. => some 0x33
  | .vmad .. => some 0x34 | .vdiv .. => some 0x35 | .vrem .. => some 0x36
  | .vand .. | .vor .. | .vxor .. | .vandn .. | .vnot .. => some 0x37
  | .vshl .. => some 0x38 | .vshr .. => some 0x39 | .vsra .. => some 0x3A | .vmin .. => some 0x3B
  | .vmax .. => some 0x3C | .vabs .. => some 0x3D | .vneg .. => some 0x3E | .vclz .. | .vpop .. => some 0x3F
  | .vbfx .. => some 0x40 | .vbfi .. => some 0x41 | .vcmp .. => some 0x42 | .vsel .. => some 0x43
  | .vmov .. => some 0x44 | .vli .. => some 0x45 | .vmovs .. => some 0x46 | .vdot4 .. | .vdot2 .. => some 0x47
  | .fadd .. => some 0x48 | .fsub .. => some 0x49 | .fmul .. => some 0x4A | .ffma .. => some 0x4B
  | .fmin .. => some 0x4C | .fmax .. => some 0x4D | .fabs .. => some 0x4E | .fneg .. => some 0x4F
  | .fcmp .. => some 0x50 | .fclass .. => some 0x51 | .fdiv .. => some 0x52
  | .frcp .. | .frsq .. | .fsqrt .. | .fexp2 .. | .flog2 .. | .fsin .. | .fcos .. => some 0x53
  | .fround .. => some 0x54 | .cvt .. => some 0x60 | .pack .. => some 0x61 | .unpk .. => some 0x62
  | .shfl .. => some 0x70 | .shflx .. => some 0x71 | .shfld .. => some 0x72 | .vote .. => some 0x73
  | .ballot .. => some 0x74 | .matchLanes .. => some 0x75 | .redi .. => some 0x76 | .redf .. => some 0x77
  | .scan .. => some 0x78 | .bcast .. => some 0x79 | .firstl .. => some 0x7A | .lanes .. => some 0x7B
  | .ldp .. => some 0x80 | .stp .. => some 0x81 | .lds .. => some 0x82 | .sts .. => some 0x83
  | .ldx .. => some 0x84 | .stx .. => some 0x85 | .ldt .. => some 0x86 | .mfrag .. => some 0x87
  | .waitc .. => some 0x88 | .hdef .. | .hdefAlias .. => some 0x89 | .scrsz .. => some 0x8A | .prefx .. => some 0x8B
  | .ldm .. => some 0x8C | .stm .. => some 0x8D
  | .atom .. => some 0xA0 | .cas .. => some 0xA1 | .fence .. => some 0xA2 | .atomm .. => some 0xA3
  | .cpy .. => some 0xB0 | .pub .. => some 0xB1 | .shape .. => some 0xB2 | .mzero .. => some 0xB3
  | .mloop .. => some 0xB4 | .mdrain .. => some 0xB5 | .mvn .. => some 0xB6 | .gath .. => some 0xB7
  | .coll .. => some 0xB8 | .rcrel .. => some 0xB9 | .qstat .. => some 0xBA
  | .bar .. => some 0xD0 | .arrive .. => some 0xD1 | .await .. => some 0xD2 | .yield .. => some 0xD3
  | .mwait .. => some 0xD4 | .role .. => some 0xD5 | .regclm .. => some 0xD6 | .regrel .. => some 0xD7
  | .regroup .. => some 0xD8
  | .tfence => some 0xE0 | .trap .. | .trapRet => some 0xE1 | .brk .. => some 0xE2 | .sysc .. => some 0xE3
  | .dbgrd .. => some 0xE4
  | .mfp .. => some 0xF0 | .mtp .. => some 0xF1 | .eret => some 0xF2 | .wfi | .halt => some 0xF3
  | .tlbinvAsid .. | .tlbinvVa .. | .tlbinvVmid .. | .tlbinvIpa .. | .tlbinvAll .. => some 0xF4
  | .encmk .. => some 0xF5 | .enckill .. => some 0xF6
  | .assign .. | .reclaim .. | .evict .. | .restoreFrames .. => some 0xF7
  | i => if (halves i).isSome then some 0x100 else none

/-- Whether a constructor is an instruction word rather than a system event. -/
def isWord (i : Instr) : Bool := (opcodeOf i).isSome

/-- The kinds of core that execute words (R178). -/
inductive Engine | array | quartz | prologue
  deriving DecidableEq, Repr

/-- Whether an opcode lies in an engine's profile (R178). A dual word, which has no major opcode, is in every one: outside the array
cores its vector fields are what R346 refuses (R179; DEDUCED, log 63). -/
def inProfile (e : Engine) (op : Nat) : Bool :=
  let arith := 0x01 ≤ op && op ≤ 0x1D
  match e with
  | .array => op != 0x8C && op != 0x8D && op != 0xA3
  | .quartz =>
    arith || op == 0x20 || op == 0x21 || (0x23 ≤ op && op ≤ 0x25) || (0x27 ≤ op && op ≤ 0x2A)
    || (0x2C ≤ op && op ≤ 0x2F) || op == 0x8C || op == 0x8D || op == 0xA2 || op == 0xA3
    || op == 0xE1 || op == 0xE2 || op == 0xE4 || (0xF0 ≤ op && op ≤ 0xF7) || op == 0x100
  | .prologue =>
    arith || op == 0x20 || op == 0x21 || op == 0x27 || op == 0x28 || op == 0x2A || op == 0x2C || op == 0x2D
    || op == 0x2E || op == 0x8C || op == 0x100

/-- Opcodes that fault with PRIVILEGE at L0 (R178, R359). -/
def isPrivileged (op : Nat) : Bool := op == 0xE4 || (0xF0 ≤ op && op ≤ 0xF7)

/-- Opcodes of which only step 1 of R180 is made while EXEC is empty (R181): 0x30 to 0x62 and dual words. -/
def vecOpcode (op : Nat) : Bool := (0x30 ≤ op && op ≤ 0x62) || op == 0x100

/-- Whether a word is a vector memory word of sv 0 or 1, or an mfrag, of which only steps 1 and 2 are made while
EXEC is empty (R181). -/
def vecMemory : Instr → Bool
  | .ldp o | .stp o | .lds o | .sts o | .ldx o | .stx o | .ldt o | .prefx o => o.sv != .s2
  | .mfrag _ => true
  | _ => false

/-! ### Platform registers (R360, and the maps of R393, R412, R413, R438 to R442, R445, R450, R463, R466, R470, R485, R500, R503, R505) -/

inductive Access | rw | ro | wo
  deriving DecidableEq, Repr

/-- Minimum level and access of a front end's register (R412, R413, R438, R440, R445). -/
def feMap (off : Nat) : Option (Nat × Access) :=
  if off = 0x000 || off = 0x008 then some (2, .rw)
  else if off = 0x010 || off = 0x018 || off = 0x038 || off = 0x048 then some (1, .rw)
  else if off = 0x020 then some (1, .wo)
  else if off = 0x028 || off = 0x040 then some (1, .ro)
  else if off = 0x030 then some (2, .rw)
  else if 0x100 ≤ off && off < 0x500 then
    let r := off % 64
    some (1, if r = 0x20 || r = 0x28 then .ro else .rw)
  else none

/-- The same for every block (R360). -/
def platMap (block off : Nat) : Option (Nat × Access) :=
  if block < 0x10 then feMap off
  else if block = 0x10 then
    if off = 0x000 || off = 0x008 then some (2, .rw)
    else if off = 0x010 then some (2, .ro)
    else if off = 0x018 then some (2, .wo)
    else if off = 0x100 then some (1, .wo)
    else if off = 0x108 then some (1, .ro) else none
  else if block = 0x11 then if off = 0x000 || off = 0x008 then some (2, .ro) else none
  else if block = 0x12 then
    if off = 0x000 then some (2, .rw)
    else if off = 0x008 || off = 0x108 then some (2, .ro)
    else if off = 0x100 then some (2, .wo) else none
  else if block = 0x13 then
    if off < 0x100 then some (1, .wo)
    else if off = 0x100 then some (1, .wo)
    else if off = 0x108 then some (1, .ro) else none
  else if 0x20 ≤ block && block < 0x28 then
    if off < 0x080 then some (2, .rw)
    else if off = 0x080 || (0x100 ≤ off && off < 0x130) || off = 0x208 then some (2, .ro)
    else if off = 0x200 then some (2, .wo) else none
  else if 0x30 ≤ block && block < 0x40 then
    if off = 0x080 then some (2, .rw)
    else if off = 0x088 then some (2, .ro)
    else if 0x100 ≤ off && off < 0x500 then some (2, .rw) else none
  else if 0x40 ≤ block && block < 0x44 then
    if off = 0x000 || (0x100 ≤ off && off < 0x180) then some (2, .rw) else none
  else if block = 0x50 then
    if off = 0x000 then some (1, .wo)
    else if off = 0x008 || off = 0x018 then some (1, .ro)
    else if off = 0x010 || off = 0x020 then some (1, .rw)
    else if off = 0x100 then some (2, .wo)
    else if off = 0x108 then some (2, .ro) else none
  else none

/-- Minimum level of a word that names a platform register: the register's, 1 where there is none (R178, R360). -/
def platLevel (block off : Nat) : Nat :=
  max 1 (if off % 8 = 0 then (match platMap block off with | some x => x.1 | none => 1) else 1)

/-- Every check that the word alone decides: reserved codes, register classes with the whole register file in
bounds, and the bank rule. -/
def staticOk (i : Instr) : Bool := reservedOk i && (regsOf 64 i).all (RUse.ok 256) && pairOk i

end Sys2Proof.Machine
end

