-- ==== Sys2Proof/WellFormed.lean ====
section
/-! DEFINITION. Which terms of Instr are encodable words that pass every static check of decoding (R166 to R179):
the checks themselves stand in Machine/Check.lean. -/

namespace Sys2Proof

/-- A word whose reserved bits and codes are good: what the encoder is asked for (R166 to R173). -/
def Encodable (i : Instr) : Prop := Machine.isWord i = true ∧ Machine.reservedOk i = true

/-- A word that also names registers of the right classes (R58) and keeps the banks of R175. -/
def WellFormed (i : Instr) : Prop := Machine.isWord i = true ∧ Machine.staticOk i = true

/-- The decidable form of WellFormed. -/
def wellFormed (i : Instr) : Bool := Machine.isWord i && Machine.staticOk i

end Sys2Proof
end

