-- ==== Sys2Proof/Decode.lean ====
section
/-! DEFINITION. Decoding a 64-bit word into an instruction (R163 to R180), total, with a name for every refusal, and
the encoder written from the same tables. Register classes, pairing, profile and privilege are not refused here:
they are checked when the word issues, in the order of R180. -/

namespace Sys2Proof

/-- Why a word is no instruction: an unassigned opcode, function code or hop (step 1 of R180), or a reserved or
unused bit or code (step 3), with the major opcode so that the profile and privilege steps still come first. -/
inductive DecodeError
  | illegal
  | reserved (op : Nat)
  deriving DecidableEq, Repr

/-- A decoded word: its settle bit (R164) and its instruction. -/
structure Decoded where
  settle : Bool
  instr : Instr
  deriving DecidableEq, Repr

namespace Machine

/-- A decoded body, none for a reserved bit or code. -/
abbrev DBody := Option Instr

def stypeOf : Nat → Option SType
  | 0 => some .i64 | 1 => some .n64 | 2 => some .i32 | 3 => some .n32 | 4 => some .b64 | _ => none

def stypeCode : SType → Nat
  | .i64 => 0 | .n64 => 1 | .i32 => 2 | .n32 => 3 | .b64 => 4

def hintOf : Nat → Option Hint
  | 0 => some .none | 1 => some .likely | 2 => some .unlikely | _ => none

def hintCode : Hint → Nat
  | .none => 0 | .likely => 1 | .unlikely => 2

def condOf : Nat → Option Cond
  | 0 => some .eqz | 1 => some .nez | 2 => some .ltz | 3 => some .gez | 4 => some .gtz | 5 => some .lez
  | 8 => some .any | 9 => some .all | 10 => some .none | _ => none

def condCode : Cond → Nat
  | .eqz => 0 | .nez => 1 | .ltz => 2 | .gez => 3 | .gtz => 4 | .lez => 5
  | .any => 8 | .all => 9 | .none => 10

/-- mod[14:12] (R169): outer none is a reserved code, inner none means FMT.rm. -/
def rmOf : Nat → Option (Option RMode)
  | 0 => some none | 1 => some (some .rne) | 2 => some (some .rtz) | 3 => some (some .rup) | 4 => some (some .rdn)
  | _ => none

def rmCode : Option RMode → Nat
  | none => 0 | some .rne => 1 | some .rtz => 2 | some .rup => 3 | some .rdn => 4

def wtOf : Nat → Option MWidth
  | 0 => some .n8 | 1 => some .i8 | 2 => some .n16 | 3 => some .i16 | 4 => some .b32 | 5 => some .b64
  | 6 => some .b128 | 8 => some .fragShared | 9 => some .fragScratch | _ => none

def wtCode : MWidth → Nat
  | .n8 => 0 | .i8 => 1 | .n16 => 2 | .i16 => 3 | .b32 => 4 | .b64 => 5 | .b128 => 6
  | .fragShared => 8 | .fragScratch => 9

def svOf : Nat → Option SV
  | 0 => some .s0 | 1 => some .s1 | 2 => some .s2 | _ => none

def svCode : SV → Nat
  | .s0 => 0 | .s1 => 1 | .s2 => 2

def atomOpOf : Nat → Option AtomOp
  | 0 => some .add | 1 => some .and | 2 => some .or | 3 => some .xor | 4 => some .minS | 5 => some .maxS
  | 6 => some .minN | 7 => some .maxN | 8 => some .xchg | _ => none

def atomOpCode : AtomOp → Nat
  | .add => 0 | .and => 1 | .or => 2 | .xor => 3 | .minS => 4 | .maxS => 5 | .minN => 6 | .maxN => 7 | .xchg => 8

def orderOf : Nat → Option Order
  | 0 => some .rlx | 1 => some .acq | 2 => some .rel | 3 => some .acqrel | 4 => some .seq | _ => none

def orderCode : Order → Nat
  | .rlx => 0 | .acq => 1 | .rel => 2 | .acqrel => 3 | .seq => 4

def scopeOf : Nat → Option Scope
  | 0 => some .grp | 1 => some .team | 2 => some .die | 3 => some .dev | 4 => some .sys | _ => none

def scopeCode : Scope → Nat
  | .grp => 0 | .team => 1 | .die => 2 | .dev => 3 | .sys => 4

def useOf : Nat → Option Use
  | 0 => some .none | 1 => some .unpaired | 2 => some .commutative | 3 => some .nonordering | 4 => some .quantum
  | 5 => some .speculative | _ => none

def useCode : Use → Nat
  | .none => 0 | .unpaired => 1 | .commutative => 2 | .nonordering => 3 | .quantum => 4 | .speculative => 5

def efmtOf : Nat → Option EFmt
  | 0 => some .bf16 | 1 => some .fp16 | 2 => some .e4m3 | 3 => some .e5m2 | 4 => some .dl8 | 5 => some .fp4
  | _ => none

def efmtCode : EFmt → Nat
  | .bf16 => 0 | .fp16 => 1 | .e4m3 => 2 | .e5m2 => 3 | .dl8 => 4 | .fp4 => 5

def redOpCode : RedOp → Nat
  | .add => 0 | .min => 1 | .max => 2 | .and => 3 | .or => 4 | .xor => 5

def pathOf : Nat → Option Path
  | 0 => some .spill | 1 => some .shared | 2 => some .scratch | 3 => some .copy | 4 => some .engine
  | 5 => some .syscall | _ => none

def pathCode : Path → Nat
  | .spill => 0 | .shared => 1 | .scratch => 2 | .copy => 3 | .engine => 4 | .syscall => 5

def icondOf : Nat → Option ICond
  | 0 => some .eq | 1 => some .ne | 2 => some .lt | 3 => some .le | 4 => some .gt | 5 => some .ge | _ => none

def icondCode : ICond → Nat
  | .eq => 0 | .ne => 1 | .lt => 2 | .le => 3 | .gt => 4 | .ge => 5

def fcondOf : Nat → Option FCond
  | 0 => some .eq | 1 => some .ne | 2 => some .lt | 3 => some .le | 4 => some .gt | 5 => some .ge
  | 6 => some .uo | 7 => some .ord | _ => none

def fcondCode : FCond → Nat
  | .eq => 0 | .ne => 1 | .lt => 2 | .le => 3 | .gt => 4 | .ge => 5 | .uo => 6 | .ord => 7

def halfCvtOf : Nat → Option HalfCvt
  | 0 => some .f32bf16 | 1 => some .f32f16 | 2 => some .bf16f32 | 3 => some .f16f32 | 4 => some .bf16f16
  | 5 => some .f16bf16 | _ => none

def halfCvtCode : HalfCvt → Nat
  | .f32bf16 => 0 | .f32f16 => 1 | .bf16f32 => 2 | .f16f32 => 3 | .bf16f16 => 4 | .f16bf16 => 5

/-! ### Fields (R165) -/

def fD (w : W64) : Sel := fld w 46 8
def fA (w : W64) : Sel := fld w 38 8
def fB (w : W64) : Sel := fld w 30 8
def fC (w : W64) : Sel := fld w 22 8
def fImm (w : W64) : W32 := fld w 6 32
def fFn6 (w : W64) : Nat := (fld w 0 6).toNat
def fFn7 (w : W64) : Nat := (fld w 0 7).toNat

/-- The operands of a form V word (R165, R167, R169); none for a reserved type or rounding code. -/
def vopOf (w : W64) : Option VOp :=
  match vtyOf (fld w 16 6).toNat, rmOf (fld w 12 3).toNat with
  | some ty, some rm =>
    some { d := fD w, a := fA w, b := fB w, c := fC w, bs := bit w 7, ty := ty, sat := bit w 15, rm := rm,
           k := fld w 8 4 }
  | _, _ => none

/-- The operands of a form M word (R165, R170). -/
def mopOf (w : W64) : Option MOp :=
  match wtOf (fld w 6 4).toNat, svOf (fld w 4 2).toNat with
  | some wt, some sv =>
    some { data := fD w, base := fA w, index := fB w, off := fld w 10 20, wt := wt, sv := sv, k := fld w 0 4 }
  | _, _ => none

/-- The operands of a form A word (R165, R171). -/
def aopOf (w : W64) : Option AOp :=
  match atomOpOf (fld w 18 4).toNat, orderOf (fld w 15 3).toNat, scopeOf (fld w 12 3).toNat,
        useOf (fld w 9 3).toNat with
  | some op, some order, some scope, some use =>
    if fld w 8 1 == 0 && !bit w 0 then
      some { d := fD w, base := fA w, index := fB w, data := fC w, op := op, order := order, scope := scope,
             use := use, w64 := bit w 7, scr := bit w 6, k := fld w 2 4, uni := bit w 1 }
    else none
  | _, _, _, _ => none

/-- The second source of a scalar word (R168, R188): with i = 0 the unused subfields of imm32 must be zero. -/
def ssrcOf (w : W64) : Option SSrc :=
  if bit w 5 then some (.imm (fImm w))
  else if (fImm w) &&& 0xFFFFFF00#32 == 0 then some (.reg ((fImm w).extractLsb' 0 8))
  else none

/-- stype with the reserved bits [4:3] of the function field (R168). -/
def fStype (w : W64) : Option SType := if fld w 3 2 == 0 then stypeOf (fld w 0 3).toNat else none

/-- A scalar word with two sources. -/
def sBin (w : W64) (f : SType → Sel → Sel → SSrc → Instr) : DBody :=
  match fStype w, ssrcOf w with
  | some t, some b => some (f t (fD w) (fA w) b)
  | _, _ => none

/-- A scalar word with one source: i = 0 and imm32 zero (R188). -/
def sUn (w : W64) (f : SType → Sel → Sel → Instr) : DBody :=
  match fStype w with
  | some t => if !bit w 5 && fImm w == 0 then some (f t (fD w) (fA w)) else none
  | none => none

/-- guard for unused fields. -/
def only (c : Bool) (i : Instr) : DBody := if c then some i else none

/-- A half (R174): none for a reserved hop; inner none for a reserved sub field. -/
def halfOf (h : BitVec 31) : Option (Option Half) :=
  let d : Sel := h.extractLsb' 18 8
  let a : Sel := h.extractLsb' 10 8
  let sub : BitVec 10 := h.extractLsb' 0 10
  let z (x : Half) : Option (Option Half) := some (if sub == 0 then some x else none)
  match (h.extractLsb' 26 5 : BitVec 5).toNat with
  | 0x00 => some (if sub == 0 && d == 0 && a == 0 then some .nop else none)
  | 0x01 => z (.two .vadd d a) | 0x02 => z (.two .vsub d a) | 0x03 => z (.two .vmul d a)
  | 0x04 => z (.two .vand d a) | 0x05 => z (.two .vor d a) | 0x06 => z (.two .vxor d a) | 0x07 => z (.two .vandn d a)
  | 0x08 => z (.two .vshl d a) | 0x09 => z (.two .vshr d a) | 0x0A => z (.two .vsra d a)
  | 0x0B => some (if sub == 0 then some (.two .vminI d a) else if sub == 1 then some (.two .vminN d a) else none)
  | 0x0C => some (if sub == 0 then some (.two .vmaxI d a) else if sub == 1 then some (.two .vmaxN d a) else none)
  | 0x0D => z (.one .vmov d a) | 0x0E => z (.one .vabs d a) | 0x0F => z (.one .vneg d a)
  | 0x10 => z (.two .fadd d a) | 0x11 => z (.two .fsub d a) | 0x12 => z (.two .fmul d a)
  | 0x13 => z (.two .fmin d a) | 0x14 => z (.two .fmax d a)
  | 0x15 => z (.one .fabs d a) | 0x16 => z (.one .fneg d a)
  | 0x17 => some (if sub.extractLsb' 8 2 == 0#2 then some (.ffma d a (sub.extractLsb' 0 8)) else none)
  | 0x18 => some (if sub.extractLsb' 8 2 == 0#2 && a == 0 then some (.vli d (sub.extractLsb' 0 8)) else none)
  | 0x19 =>
    some (if sub.extractLsb' 3 7 == 0#7 then (halfCvtOf (sub.extractLsb' 0 3).toNat).map (fun c => .cvt c d a)
          else none)
  | 0x1A => some (if sub.extractLsb' 6 4 == 0#4 then some (.shflx (sub.extractLsb' 0 6) d a) else none)
  | _ => none

/-- The constructor of a dual word, named by its half A. -/
def dualOf (x y : Half) : Instr :=
  match x with
  | .nop => .halfNop y
  | .two op d a =>
    match op with
    | .vadd => .halfVadd d a y | .vsub => .halfVsub d a y | .vmul => .halfVmul d a y
    | .vand => .halfVand d a y | .vor => .halfVor d a y | .vxor => .halfVxor d a y | .vandn => .halfVandn d a y
    | .vshl => .halfVshl d a y | .vshr => .halfVshr d a y | .vsra => .halfVsra d a y
    | .vminI => .halfVmin false d a y | .vminN => .halfVmin true d a y
    | .vmaxI => .halfVmax false d a y | .vmaxN => .halfVmax true d a y
    | .fadd => .halfFadd d a y | .fsub => .halfFsub d a y | .fmul => .halfFmul d a y
    | .fmin => .halfFmin d a y | .fmax => .halfFmax d a y
  | .one op d a =>
    match op with
    | .vmov => .halfVmov d a y | .vabs => .halfVabs d a y | .vneg => .halfVneg d a y
    | .fabs => .halfFabs d a y | .fneg => .halfFneg d a y
  | .ffma d a c => .halfFfma d a c y
  | .vli d i => .halfVli d i y
  | .cvt c d a => .halfCvt c d a y
  | .shflx m d a => .halfShflx m d a y

/-- Form V opcodes by opcode and function code: none is an unassigned code (R176, R177). The lane exchanges have function code 0
alone; their other codes are reserved ones (fullDec). -/
def vDec (op fn : Nat) : Option (VOp → Instr) :=
  match op, fn with
  | 0x30, 0 => some .vadd | 0x31, 0 => some .vsub | 0x32, 0 => some .vmul | 0x33, 0 => some .vmulh
  | 0x34, 0 => some .vmad | 0x35, 0 => some .vdiv | 0x36, 0 => some .vrem
  | 0x37, 0 => some .vand | 0x37, 1 => some .vor | 0x37, 2 => some .vxor | 0x37, 3 => some .vandn
  | 0x37, 4 => some .vnot
  | 0x38, 0 => some .vshl | 0x39, 0 => some .vshr | 0x3A, 0 => some .vsra
  | 0x3B, 0 => some .vmin | 0x3C, 0 => some .vmax | 0x3D, 0 => some .vabs | 0x3E, 0 => some .vneg
  | 0x3F, 0 => some .vclz | 0x3F, 1 => some .vpop
  | 0x40, 0 => some .vbfx | 0x41, 0 => some .vbfi
  | 0x42, f => (icondOf f).map Instr.vcmp
  | 0x43, 0 => some .vsel | 0x44, 0 => some .vmov | 0x46, 0 => some .vmovs
  | 0x47, 0 => some .vdot4 | 0x47, 1 => some .vdot2
  | 0x48, 0 => some .fadd | 0x49, 0 => some .fsub | 0x4A, 0 => some .fmul | 0x4B, 0 => some .ffma
  | 0x4C, 0 => some .fmin | 0x4D, 0 => some .fmax | 0x4E, 0 => some .fabs | 0x4F, 0 => some .fneg
  | 0x50, f => (fcondOf f).map Instr.fcmp
  | 0x51, 0 => some .fclass | 0x52, 0 => some .fdiv
  | 0x53, 0 => some .frcp | 0x53, 1 => some .frsq | 0x53, 2 => some .fsqrt | 0x53, 3 => some .fexp2
  | 0x53, 4 => some .flog2 | 0x53, 5 => some .fsin | 0x53, 6 => some .fcos
  | 0x54, 0 => some .fround
  | 0x60, 0 => some .cvt | 0x61, 0 => some .pack | 0x62, 0 => some .unpk
  | 0x70, 0 => some .shfl | 0x71, 0 => some .shflx | 0x72, 0 => some .shfld | 0x73, 0 => some .vote
  | 0x74, 0 => some .ballot | 0x75, 0 => some .matchLanes | 0x76, 0 => some .redi | 0x77, 0 => some .redf
  | 0x78, 0 => some .scan | 0x79, 0 => some .bcast | 0x7A, 0 => some .firstl | 0x7B, 0 => some .lanes
  | _, _ => none

/-- Form M opcodes (R176). -/
def mDec : Nat → Option (MOp → Instr)
  | 0x80 => some .ldp | 0x81 => some .stp | 0x82 => some .lds | 0x83 => some .sts | 0x84 => some .ldx
  | 0x85 => some .stx | 0x86 => some .ldt | 0x87 => some .mfrag | 0x8B => some .prefx | 0x8C => some .ldm
  | 0x8D => some .stm | _ => none

/-- Scalar arithmetic words 0x01 to 0x1D (R168, R188, R190). -/
def sDec (op : Nat) (w : W64) : DBody :=
  match op with
  | 0x01 => sBin w .sadd | 0x02 => sBin w .ssub | 0x03 => sBin w .smul | 0x04 => sBin w .smulh
  | 0x05 => sBin w .sdiv | 0x06 => sBin w .srem | 0x07 => sBin w .sand | 0x08 => sBin w .sor
  | 0x09 => sBin w .sxor | 0x0A => sBin w .sandn | 0x0B => sBin w .sshl | 0x0C => sBin w .sshr
  | 0x0D => sBin w .ssra | 0x0E => sBin w .srot | 0x0F => sBin w .smin | 0x10 => sBin w .smax
  | 0x11 => sUn w .sabs | 0x12 => sUn w .sclz | 0x13 => sUn w .sctz | 0x14 => sUn w .spop
  | 0x15 => sBin w .sbfx | 0x16 => sBin w .sbfi | 0x17 => sUn w .sbrev | 0x18 => sBin w .scmp
  | 0x19 =>
    match fStype w with
    | some t =>
      if !bit w 5 && (fImm w).extractLsb' 16 16 == 0#16
      then some (.ssel t (fD w) (fA w) ((fImm w).extractLsb' 0 8) ((fImm w).extractLsb' 8 8)) else none
    | none => none
  | 0x1A => sUn w .smov
  | 0x1B =>
    match fStype w with
    | some t => only (bit w 5 && fA w == 0) (.sli t (fD w) (fImm w))
    | none => none
  | 0x1C => only (fStype w == some .b64 && bit w 5 && fA w == 0) (.slih (fD w) (fImm w))
  | _ =>
    match fStype w with
    | some t =>
      if !bit w 5 && (fImm w).extractLsb' 8 8 == 0#8 && (fImm w).extractLsb' 22 10 == 0#10
      then some (.slea t (fD w) (fA w) ((fImm w).extractLsb' 0 8) ((fImm w).extractLsb' 16 6)) else none
    | none => none

/-- Form B words (R165, R172, R197 to R200). -/
def bDec (op : Nat) (w : W64) : DBody :=
  let creg := fD w
  let cc := (fld w 42 4).toNat
  let off : W32 := fld w 8 32
  let aux0 := fld w 0 8 == 0
  match op with
  | 0x22 => some (.bv creg off (fld w 40 6 ++ fld w 0 8))
  | 0x20 => (hintOf (fld w 40 2).toNat).bind fun h => only (creg == 0 && cc == 0 && aux0) (.br h off)
  | 0x21 =>
    match hintOf (fld w 40 2).toNat, condOf cc with
    | some h, some c => only aux0 (.bc c creg h off)
    | _, _ => none
  | 0x24 => (hintOf (fld w 40 2).toNat).bind fun h => only (creg == 0 && cc == 0 && aux0) (.call h off)
  | _ => (hintOf (fld w 40 2).toNat).bind fun h => only (cc == 0 && aux0) (.loop creg h off)

/-- Form I words other than the scalar arithmetic, with function code fn (R176, R199 to R210, R271 to R274, R307,
R323, R328, R359 to R363): none is an unassigned opcode or function code. A nonzero function code of ipf is a reserved bit, as
R205 has it, where R177 has ILLEGAL_OPCODE for every opcode (DEDUCED, log 76). -/
def iDec (op fn : Nat) (w : W64) : Option DBody :=
  let d := fD w
  let a := fA w
  let m := fImm w
  let d0 := d == 0
  let a0 := a == 0
  let m0 := m == 0
  let b : Sel := m.extractLsb' 0 8
  match op, fn with
  | 0x23, 0 => some (some (.bx d a m))
  | 0x25, 0 => some (only (d0 && m0) (.ret a))
  | 0x26, 0 => some (only (d0 && a0 && m0) .join)
  | 0x28, 0 => some (only (d0 && a0) (.exit m))
  | 0x29, f => some (only (a0 && f == 0) (.ipf d m))
  | 0x2A, 0 => some (only (d0 && a0 && m0) .nop)
  | 0x2B, 0 => some (some (.setfmt d a m))
  | 0x2C, 0 => some (only (a0 && m.extractLsb' 8 24 == 0#24) (.mfs d b))
  | 0x2D, 0 => some (only (d0 && m.extractLsb' 8 24 == 0#24) (.mts b a))
  | 0x2E, 0 => some (only (a0 && m.extractLsb' 8 24 == 0#24) (.sid d b))
  | 0x2F, 0 => some (only (a0 && m.extractLsb' 8 24 == 0#24) (.clk d b))
  | 0x45, 0 => some (some (.vli d a m))
  | 0x88, 0 =>
    some (if d0 && m.extractLsb' 16 16 == 0#16 && m.extractLsb' 3 5 == 0#5
          then (pathOf (m.extractLsb' 0 3).toNat).map (fun p => .waitc p a (m.extractLsb' 8 8)) else none)
  | 0x89, 0 =>
    some (if m.getLsbD 31
          then only (d0 && m.extractLsb' 20 11 == 0#11) (.hdefAlias (m.extractLsb' 16 4) a b (m.extractLsb' 8 8))
          else only (m.extractLsb' 8 24 == 0#24) (.hdef d a b))
  | 0x8A, 0 => some (only (m.extractLsb' 5 27 == 0#27) (.scrsz d a (m.extractLsb' 0 5)))
  | 0xD0, 0 =>
    some (only (d0 && a0 && m.extractLsb' 4 4 == 0#4 && m.extractLsb' 14 18 == 0#18)
      (.bar (m.extractLsb' 0 4) (m.extractLsb' 8 6)))
  | 0xD1, 0 =>
    some (only (a0 && m.extractLsb' 4 4 == 0#4 && m.extractLsb' 14 18 == 0#18)
      (.arrive d (m.extractLsb' 0 4) (m.extractLsb' 8 6)))
  | 0xD2, 0 => some (only (d0 && m.extractLsb' 4 28 == 0#28) (.await a (m.extractLsb' 0 4)))
  | 0xD3, 0 => some (only (d0 && m.extractLsb' 9 23 == 0#23) (.yield a (m.extractLsb' 0 9)))
  | 0xD4, 0 =>
    some (some (.mwait d a b (m.getLsbD 8) (m.getLsbD 9) (m.extractLsb' 10 10) (m.extractLsb' 20 12)))
  | 0xD5, 0 => some (only (d0 && m.extractLsb' 4 28 == 0#28) (.role a (m.extractLsb' 0 4)))
  | 0xD6, 0 => some (only (d0 && a0 && m.extractLsb' 6 26 == 0#26) (.regclm (m.extractLsb' 0 6)))
  | 0xD7, 0 => some (only (d0 && a0 && m.extractLsb' 6 26 == 0#26) (.regrel (m.extractLsb' 0 6)))
  | 0xD8, 0 => some (only (d0 && a0) (.regroup m))
  | 0xE0, 0 => some (only (d0 && a0 && m0) .tfence)
  | 0xE1, 0 =>
    some (if m.getLsbD 31 then only (d0 && a0 && m.extractLsb' 0 31 == 0#31) .trapRet
          else only (d0 && a0 && m.extractLsb' 16 16 == 0#16) (.trap (m.extractLsb' 0 16)))
  | 0xE2, 0 => some (only (d0 && a0 && m.extractLsb' 16 16 == 0#16) (.brk (m.extractLsb' 0 16)))
  | 0xE3, 0 =>
    some (only (m.extractLsb' 9 7 == 0#7) (.sysc d a b (m.getLsbD 8) (m.extractLsb' 16 16)))
  | 0xE4, 0 => some (only m0 (.dbgrd d a))
  | 0xF0, 0 => some (only a0 (.mfp d (m.extractLsb' 24 8) (m.extractLsb' 0 24)))
  | 0xF1, 0 => some (only d0 (.mtp (m.extractLsb' 24 8) (m.extractLsb' 0 24) a))
  | 0xF2, 0 => some (only (d0 && a0 && m0) .eret)
  | 0xF3, 0 => some (only (d0 && a0 && m0) .wfi)
  | 0xF3, 1 => some (only (d0 && a0 && m0) .halt)
  | 0xF4, 0 =>
    some (if d0 && m.extractLsb' 12 20 == 0#20 then
      match (m.extractLsb' 8 4).toNat with
      | 0 => some (.tlbinvAsid a b) | 1 => some (.tlbinvVa a b) | 2 => some (.tlbinvVmid a b)
      | 3 => some (.tlbinvIpa a b) | 4 => some (.tlbinvAll a b) | _ => none
      else none)
  | 0xF5, 0 => some (only m0 (.encmk d a))
  | 0xF6, 0 => some (only m0 (.enckill d a))
  | 0xF7, 0 => some (only m0 (.assign d a))
  | _, _ => none

/-- Form E words (R165, R173). -/
def eDec (op : Nat) (w : W64) : Option DBody :=
  let d := fD w
  let e1 := fA w
  let e2 := fB w
  let e3 := fC w
  let e4 : Sel := fld w 14 8
  let e5 : Sel := fld w 6 8
  let fn : BitVec 6 := fld w 0 6
  let z (l : List Sel) : Bool := l.all (· == 0)
  match op with
  | 0xB0 => some (only (z [e4, e5] && fn == 0) (.cpy d e1 e2 e3))
  | 0xB1 =>
    some (if z [d, e2, e3, e4, e5] && fn.extractLsb' 3 3 == 0#3
          then (scopeOf (fn.extractLsb' 0 3).toNat).map (fun s => .pub s e1) else none)
  | 0xB2 =>
    some (if e5 == 0 && fn.extractLsb' 1 5 == 0#5 then
      match efmtOf (e4.extractLsb' 0 4).toNat, efmtOf (e4.extractLsb' 4 4).toNat with
      | some af, some bf => some (.shape d e1 e2 e3 af bf (fn.getLsbD 0))
      | _, _ => none
      else none)
  | 0xB3 => some (only (z [d, e2, e3, e4, e5] && fn == 0) (.mzero e1))
  | 0xB4 => some (only (fn.extractLsb' 1 5 == 0#5) (.mloop d e1 e2 e3 e4 e5 (fn.getLsbD 0)))
  | 0xB5 =>
    some (if z [d, e5] && fn.extractLsb' 1 5 == 0#5
          then (vtyOf e4.toNat).map (fun o => .mdrain e1 e2 e3 o (fn.getLsbD 0)) else none)
  | 0xB6 =>
    some (if fn.extractLsb' 5 1 == 0#1
          then (efmtOf (fn.extractLsb' 0 4).toNat).map (fun bf => .mvn d e1 e2 e3 e4 e5 bf (fn.getLsbD 4)) else none)
  | 0xB7 => some (only (z [d, e3, e4, e5] && fn == 0) (.gath e1 e2))
  | 0xB8 =>
    some (if z [d, e3, e5] && fn.extractLsb' 3 3 == 0#3 then
      match redOpOf (fn.extractLsb' 0 3).toNat, vtyOf e4.toNat with
      | some o, some t => some (.coll o t e1 e2)
      | _, _ => none
      else none)
  | 0xB9 => some (only (z [d, e2, e3, e4, e5] && fn == 0) (.rcrel e1))
  | 0xBA => some (only (z [e2, e3, e4, e5] && fn == 0) (.qstat d e1))
  | _ => none

/-- The form of a major opcode (R165, R176). -/
inductive Form | scalar | formB | formI | formV | formM | formA | formE | none
  deriving DecidableEq, Repr

/-- Which form each major opcode has (R176). Form I also covers opcodes of chapter 15. -/
def formOf (op : Nat) : Form :=
  if 0x01 ≤ op && op ≤ 0x1D then .scalar
  else if op == 0x20 || op == 0x21 || op == 0x22 || op == 0x24 || op == 0x27 then .formB
  else if 0x20 ≤ op && op ≤ 0x2F then .formI
  else if op == 0x45 then .formI
  else if 0x30 ≤ op && op ≤ 0x7B then .formV
  else if 0x88 ≤ op && op ≤ 0x8A then .formI
  else if 0x80 ≤ op && op ≤ 0x8D then .formM
  else if 0xA0 ≤ op && op ≤ 0xA3 then .formA
  else if 0xB0 ≤ op && op ≤ 0xBA then .formE
  else if 0xD0 ≤ op then .formI
  else .none

/-- Form A words (R171, R263, R269). -/
def aDec (op : Nat) (w : W64) : DBody :=
  match op with
  | 0xA0 => (aopOf w).map Instr.atom
  | 0xA1 => (aopOf w).map Instr.cas
  | 0xA3 => (aopOf w).map Instr.atomm
  | _ =>
    if fld w 30 24 == 0#24 && fld w 18 4 == 0#4 && fld w 0 12 == 0#12 then
      match orderOf (fld w 15 3).toNat, scopeOf (fld w 12 3).toNat with
      | some o, some s => some (.fence o s (fC w))
      | _, _ => none
    else none

/-- The body of a full word: outer none is ILLEGAL_OPCODE, inner none RESERVED_BITS (R179). A nonzero function code of a lane exchange
is a reserved one, as R240 has it, where R177 has ILLEGAL_OPCODE for every opcode (DEDUCED, log 76). -/
def fullDec (op : Nat) (w : W64) : Option DBody :=
  match formOf op with
  | .scalar => some (sDec op w)
  | .formB => some (bDec op w)
  | .formI => iDec op (fFn6 w) w
  | .formV => if 0x70 ≤ op && fFn7 w != 0 then some none else (vDec op (fFn7 w)).map (fun f => (vopOf w).map f)
  | .formM => (mDec op).map (fun f => (mopOf w).map f)
  | .formA => some (aDec op w)
  | .formE => eDec op w
  | .none => none

end Machine

/-- The instruction that a word holds, or why it holds none (R163 to R180). -/
def decode (w : W64) : Except DecodeError Decoded :=
  let settle := Machine.bit w 63
  if Machine.bit w 62 then
    match Machine.halfOf (Machine.fld w 31 31), Machine.halfOf (Machine.fld w 0 31) with
    | some (some x), some (some y) => .ok { settle := settle, instr := Machine.dualOf x y }
    | some _, some _ => .error (.reserved 0x100)
    | _, _ => .error .illegal
  else
    let op := (Machine.fld w 54 8).toNat
    match Machine.fullDec op w with
    | none => .error .illegal
    | some none => .error (.reserved op)
    | some (some i) =>
      if Machine.reservedOk i then .ok { settle := settle, instr := i } else .error (.reserved op)

/-- The instruction of a table word (spec/opcode_table.json numbers bit 0 as the least significant bit of the word,
which is how a word lies in memory, R163). A word with an unassigned opcode is the row ILLEGAL_OPCODE; one with a
reserved field is refused. -/
def decodeTableWord (nbits w : Nat) : Option Instr :=
  if nbits ≤ 64 then
    match decode (BitVec.ofNat 64 (w % 2 ^ 64)) with
    | .ok d => some d.instr
    | .error .illegal => some (.illegalOpcode (BitVec.ofNat 64 w))
    | .error (.reserved _) => none
  else none

namespace Machine

/-! ### The encoder, from the same tables (R165 to R177) -/

def encV (op fn : Nat) (o : VOp) : W64 :=
  0#2 ++ BitVec.ofNat 8 op ++ o.d ++ o.a ++ o.b ++ o.c ++ BitVec.ofNat 6 (VTy.code o.ty) ++ BitVec.ofBool o.sat
    ++ BitVec.ofNat 3 (rmCode o.rm) ++ o.k ++ BitVec.ofBool o.bs ++ BitVec.ofNat 7 fn

def encI (op : Nat) (d a : Sel) (imm : W32) (fn : BitVec 6) : W64 :=
  0#2 ++ BitVec.ofNat 8 op ++ d ++ a ++ imm ++ fn

def encM (op : Nat) (o : MOp) : W64 :=
  0#2 ++ BitVec.ofNat 8 op ++ o.data ++ o.base ++ o.index ++ o.off ++ BitVec.ofNat 4 (wtCode o.wt)
    ++ BitVec.ofNat 2 (svCode o.sv) ++ o.k

def encA (op : Nat) (o : AOp) : W64 :=
  0#2 ++ BitVec.ofNat 8 op ++ o.d ++ o.base ++ o.index ++ o.data ++ BitVec.ofNat 4 (atomOpCode o.op)
    ++ BitVec.ofNat 3 (orderCode o.order) ++ BitVec.ofNat 3 (scopeCode o.scope) ++ BitVec.ofNat 3 (useCode o.use)
    ++ 0#1 ++ BitVec.ofBool o.w64 ++ BitVec.ofBool o.scr ++ o.k ++ BitVec.ofBool o.uni ++ 0#1

def encB (op : Nat) (c : Sel) (cc : Nat) (h : Hint) (off : W32) : W64 :=
  0#2 ++ BitVec.ofNat 8 op ++ c ++ BitVec.ofNat 4 cc ++ BitVec.ofNat 2 (hintCode h) ++ off ++ 0#8

def encE (op : Nat) (d e1 e2 e3 e4 e5 : Sel) (fn : BitVec 6) : W64 :=
  0#2 ++ BitVec.ofNat 8 op ++ d ++ e1 ++ e2 ++ e3 ++ e4 ++ e5 ++ fn

/-- Function field of the scalar arithmetic words (R168). -/
def encS (op : Nat) (t : SType) (d a : Sel) (b : SSrc) : W64 :=
  match b with
  | .imm v => encI op d a v (1#1 ++ 0#2 ++ BitVec.ofNat 3 (stypeCode t))
  | .reg r => encI op d a (0#24 ++ r) (0#3 ++ BitVec.ofNat 3 (stypeCode t))

def encHalf : Half → BitVec 31
  | .nop => 0
  | .two op d a =>
    let h : Nat × Nat := match op with
      | .vadd => (0x01, 0) | .vsub => (0x02, 0) | .vmul => (0x03, 0) | .vand => (0x04, 0) | .vor => (0x05, 0)
      | .vxor => (0x06, 0) | .vandn => (0x07, 0) | .vshl => (0x08, 0) | .vshr => (0x09, 0) | .vsra => (0x0A, 0)
      | .vminI => (0x0B, 0) | .vminN => (0x0B, 1) | .vmaxI => (0x0C, 0) | .vmaxN => (0x0C, 1)
      | .fadd => (0x10, 0) | .fsub => (0x11, 0) | .fmul => (0x12, 0) | .fmin => (0x13, 0) | .fmax => (0x14, 0)
    BitVec.ofNat 5 h.1 ++ d ++ a ++ BitVec.ofNat 10 h.2
  | .one op d a =>
    let h : Nat := match op with
      | .vmov => 0x0D | .vabs => 0x0E | .vneg => 0x0F | .fabs => 0x15 | .fneg => 0x16
    BitVec.ofNat 5 h ++ d ++ a ++ 0#10
  | .ffma d a c => 0x17#5 ++ d ++ a ++ 0#2 ++ c
  | .vli d i => 0x18#5 ++ d ++ 0#8 ++ 0#2 ++ i
  | .cvt c d a => 0x19#5 ++ d ++ a ++ 0#7 ++ BitVec.ofNat 3 (halfCvtCode c)
  | .shflx m d a => 0x1A#5 ++ d ++ a ++ 0#4 ++ m

def encTlb (a b : Sel) (kind : Nat) : W64 := encI 0xF4 0 a (0#20 ++ BitVec.ofNat 4 kind ++ b) 0

end Machine

open Machine in
/-- The word of an instruction with S = 0 (R163 to R177). A system event has no word and answers 0, which is never
an instruction (R176). The four requests of potreq share one word, 0xF7: which one it makes is read from the
operation structure in memory (R381). -/
def encode : Instr → W64
  | .sadd t d a b => encS 0x01 t d a b | .ssub t d a b => encS 0x02 t d a b | .smul t d a b => encS 0x03 t d a b
  | .smulh t d a b => encS 0x04 t d a b | .sdiv t d a b => encS 0x05 t d a b | .srem t d a b => encS 0x06 t d a b
  | .sand t d a b => encS 0x07 t d a b | .sor t d a b => encS 0x08 t d a b | .sxor t d a b => encS 0x09 t d a b
  | .sandn t d a b => encS 0x0A t d a b | .sshl t d a b => encS 0x0B t d a b | .sshr t d a b => encS 0x0C t d a b
  | .ssra t d a b => encS 0x0D t d a b | .srot t d a b => encS 0x0E t d a b | .smin t d a b => encS 0x0F t d a b
  | .smax t d a b => encS 0x10 t d a b
  | .sabs t d a => encS 0x11 t d a (.reg 0) | .sclz t d a => encS 0x12 t d a (.reg 0)
  | .sctz t d a => encS 0x13 t d a (.reg 0) | .spop t d a => encS 0x14 t d a (.reg 0)
  | .sbfx t d a b => encS 0x15 t d a b | .sbfi t d a b => encS 0x16 t d a b
  | .sbrev t d a => encS 0x17 t d a (.reg 0) | .scmp t d a b => encS 0x18 t d a b
  | .ssel t d a b c => encI 0x19 d a (0#16 ++ c ++ b) (0#3 ++ BitVec.ofNat 3 (stypeCode t))
  | .smov t d a => encS 0x1A t d a (.reg 0)
  | .sli t d v => encS 0x1B t d 0 (.imm v)
  | .slih d v => encS 0x1C .b64 d 0 (.imm v)
  | .slea t d a b sh => encI 0x1D d a (0#10 ++ sh ++ 0#8 ++ b) (0#3 ++ BitVec.ofNat 3 (stypeCode t))
  | .br h off => encB 0x20 0 0 h off
  | .bc cc c h off => encB 0x21 c (condCode cc) h off
  | .bv k off jd => 0#2 ++ 0x22#8 ++ k ++ (jd.extractLsb' 8 6) ++ off ++ (jd.extractLsb' 0 8)
  | .bx d a m => encI 0x23 d a m 0
  | .call h off => encB 0x24 0 0 h off
  | .ret a => encI 0x25 0 a 0 0
  | .join => encI 0x26 0 0 0 0
  | .loop c h off => encB 0x27 c 0 h off
  | .exit m => encI 0x28 0 0 m 0
  | .ipf n off => encI 0x29 n 0 off 0
  | .nop => encI 0x2A 0 0 0 0
  | .setfmt d a m => encI 0x2B d a m 0
  | .mfs d n => encI 0x2C d 0 (0#24 ++ n) 0
  | .mts n a => encI 0x2D 0 a (0#24 ++ n) 0
  | .sid d n => encI 0x2E d 0 (0#24 ++ n) 0
  | .clk d n => encI 0x2F d 0 (0#24 ++ n) 0
  | .vadd o => encV 0x30 0 o | .vsub o => encV 0x31 0 o | .vmul o => encV 0x32 0 o | .vmulh o => encV 0x33 0 o
  | .vmad o => encV 0x34 0 o | .vdiv o => encV 0x35 0 o | .vrem o => encV 0x36 0 o
  | .vand o => encV 0x37 0 o | .vor o => encV 0x37 1 o | .vxor o => encV 0x37 2 o | .vandn o => encV 0x37 3 o
  | .vnot o => encV 0x37 4 o
  | .vshl o => encV 0x38 0 o | .vshr o => encV 0x39 0 o | .vsra o => encV 0x3A 0 o
  | .vmin o => encV 0x3B 0 o | .vmax o => encV 0x3C 0 o | .vabs o => encV 0x3D 0 o | .vneg o => encV 0x3E 0 o
  | .vclz o => encV 0x3F 0 o | .vpop o => encV 0x3F 1 o | .vbfx o => encV 0x40 0 o | .vbfi o => encV 0x41 0 o
  | .vcmp c o => encV 0x42 (icondCode c) o
  | .vsel o => encV 0x43 0 o | .vmov o => encV 0x44 0 o
  | .vli d m v => encI 0x45 d m v 0
  | .vmovs o => encV 0x46 0 o | .vdot4 o => encV 0x47 0 o | .vdot2 o => encV 0x47 1 o
  | .fadd o => encV 0x48 0 o | .fsub o => encV 0x49 0 o | .fmul o => encV 0x4A 0 o | .ffma o => encV 0x4B 0 o
  | .fmin o => encV 0x4C 0 o | .fmax o => encV 0x4D 0 o | .fabs o => encV 0x4E 0 o | .fneg o => encV 0x4F 0 o
  | .fcmp c o => encV 0x50 (fcondCode c) o
  | .fclass o => encV 0x51 0 o | .fdiv o => encV 0x52 0 o
  | .frcp o => encV 0x53 0 o | .frsq o => encV 0x53 1 o | .fsqrt o => encV 0x53 2 o | .fexp2 o => encV 0x53 3 o
  | .flog2 o => encV 0x53 4 o | .fsin o => encV 0x53 5 o | .fcos o => encV 0x53 6 o
  | .fround o => encV 0x54 0 o | .cvt o => encV 0x60 0 o | .pack o => encV 0x61 0 o | .unpk o => encV 0x62 0 o
  | .shfl o => encV 0x70 0 o | .shflx o => encV 0x71 0 o | .shfld o => encV 0x72 0 o | .vote o => encV 0x73 0 o
  | .ballot o => encV 0x74 0 o | .matchLanes o => encV 0x75 0 o | .redi o => encV 0x76 0 o
  | .redf o => encV 0x77 0 o | .scan o => encV 0x78 0 o | .bcast o => encV 0x79 0 o
  | .firstl o => encV 0x7A 0 o | .lanes o => encV 0x7B 0 o
  | .ldp o => encM 0x80 o | .stp o => encM 0x81 o | .lds o => encM 0x82 o | .sts o => encM 0x83 o
  | .ldx o => encM 0x84 o | .stx o => encM 0x85 o | .ldt o => encM 0x86 o | .mfrag o => encM 0x87 o
  | .prefx o => encM 0x8B o | .ldm o => encM 0x8C o | .stm o => encM 0x8D o
  | .waitc p a t => encI 0x88 0 a (0#16 ++ t ++ 0#5 ++ BitVec.ofNat 3 (pathCode p)) 0
  | .hdef d a b => encI 0x89 d a (0#24 ++ b) 0
  | .hdefAlias e a b c => encI 0x89 0 a (1#1 ++ 0#11 ++ e ++ c ++ b) 0
  | .scrsz d a n => encI 0x8A d a (0#27 ++ n) 0
  | .atom o => encA 0xA0 o | .cas o => encA 0xA1 o | .atomm o => encA 0xA3 o
  | .fence o s hs =>
    0#2 ++ 0xA2#8 ++ 0#24 ++ hs ++ 0#4 ++ BitVec.ofNat 3 (orderCode o) ++ BitVec.ofNat 3 (scopeCode s) ++ 0#12
  | .cpy d ch t a => encE 0xB0 d ch t a 0 0 0
  | .pub s h => encE 0xB1 0 h 0 0 0 0 (0#3 ++ BitVec.ofNat 3 (scopeCode s))
  | .shape d m n k af bf sp =>
    encE 0xB2 d m n k (BitVec.ofNat 4 (efmtCode bf) ++ BitVec.ofNat 4 (efmtCode af)) 0 (0#5 ++ BitVec.ofBool sp)
  | .mzero t => encE 0xB3 0 t 0 0 0 0 0
  | .mloop h t a b c i sp => encE 0xB4 h t a b c i (0#5 ++ BitVec.ofBool sp)
  | .mdrain t r c o s => encE 0xB5 0 t r c (BitVec.ofNat 8 (VTy.code o)) 0 (0#5 ++ BitVec.ofBool s)
  | .mvn d b x y r c bf x8 =>
    encE 0xB6 d b x y r c (0#1 ++ BitVec.ofBool x8 ++ BitVec.ofNat 4 (efmtCode bf))
  | .gath h v => encE 0xB7 0 h v 0 0 0 0
  | .coll op t v dsc => encE 0xB8 0 v dsc 0 (BitVec.ofNat 8 (VTy.code t)) 0 (0#3 ++ BitVec.ofNat 3 (redOpCode op))
  | .rcrel h => encE 0xB9 0 h 0 0 0 0 0
  | .qstat d ch => encE 0xBA d ch 0 0 0 0 0
  | .bar b c => encI 0xD0 0 0 (0#18 ++ c ++ 0#4 ++ b) 0
  | .arrive d b c => encI 0xD1 d 0 (0#18 ++ c ++ 0#4 ++ b) 0
  | .await a b => encI 0xD2 0 a (0#28 ++ b) 0
  | .yield a n => encI 0xD3 0 a (0#23 ++ n) 0
  | .mwait d b c w s off t => encI 0xD4 d b (t ++ off ++ BitVec.ofBool s ++ BitVec.ofBool w ++ c) 0
  | .role a n => encI 0xD5 0 a (0#28 ++ n) 0
  | .regclm n => encI 0xD6 0 0 (0#26 ++ n) 0
  | .regrel n => encI 0xD7 0 0 (0#26 ++ n) 0
  | .regroup off => encI 0xD8 0 0 off 0
  | .tfence => encI 0xE0 0 0 0 0
  | .trap n => encI 0xE1 0 0 (0#16 ++ n) 0
  | .trapRet => encI 0xE1 0 0 0x80000000#32 0
  | .brk n => encI 0xE2 0 0 (0#16 ++ n) 0
  | .sysc d a v w t => encI 0xE3 d a (t ++ 0#7 ++ BitVec.ofBool w ++ v) 0
  | .dbgrd d a => encI 0xE4 d a 0 0
  | .mfp d b off => encI 0xF0 d 0 (b ++ off) 0
  | .mtp b off a => encI 0xF1 0 a (b ++ off) 0
  | .eret => encI 0xF2 0 0 0 0
  | .wfi => encI 0xF3 0 0 0 0
  | .halt => encI 0xF3 0 0 0 1
  | .tlbinvAsid a b => encTlb a b 0 | .tlbinvVa a b => encTlb a b 1 | .tlbinvVmid a b => encTlb a b 2
  | .tlbinvIpa a b => encTlb a b 3 | .tlbinvAll a b => encTlb a b 4
  | .encmk d a => encI 0xF5 d a 0 0 | .enckill d a => encI 0xF6 d a 0 0
  | .assign d a | .reclaim d a | .evict d a | .restoreFrames d a => encI 0xF7 d a 0 0
  | .illegalOpcode w => w
  | i =>
    match halves i with
    | some (x, y) => 0#1 ++ 1#1 ++ encHalf x ++ encHalf y
    | none => 0

end Sys2Proof
end

