-- ==== Sys2Proof/Machine/State.lean ====
section
/-! DEFINITION. The machine's state as plain data, the reasons a step can stop, and the state after reset. Sparse
tables are lists of (number, value) pairs with strictly rising numbers and no entry equal to the table's default;
the functions over them stand in Machine/Store.lean. -/

namespace Sys2Proof.Machine

/-- A sparse table: strictly rising keys, no default entry. -/
abbrev KMap (α : Type) := List (Nat × α)

/-- Bytes of a memory, in Host.Cell's form; an unlisted address reads as 0 (log 8). -/
abbrev Bytes := List Host.Cell

/-- A byte's home: a team's shared memory, a die's on-chip array, or HBM (R106, R116, R7). -/
inductive MLoc
  | shared (tid off : Nat)
  | array (die a : Nat)
  | hbm (pa : Nat)
  | counted (die eid a : Nat)   -- a byte of a counted line, noted for R47 alone: no memory holds it
  deriving DecidableEq, Repr

/-- A recorded cause: code, lane when valid, and CADDR (R70). -/
structure Trap where
  code : Nat
  lane : Option Nat
  space : Nat
  addr : Nat
  n : Nat          -- the immediate of a software cause (R323), else 0
  deriving DecidableEq, Repr

/-! ### Groups -/

/-- Slot states (R35). -/
inductive SlotState | free | running | joined | demoted | lent | regrouping
  deriving DecidableEq, Repr

/-- What keeps a slot from issuing (R25): nothing; a fence's covered counters (R270); a counter above a threshold
(R273); an empty queue (R281); a barrier phase, with the count when the word is a bar (R310), or the other slot's arrival,
with the register that takes an arrive's token (R309); an mwait with its location,
compared value and deadline (R313), woken or not; a claim in the core's list (R314); a page request that found no
position (R392). -/
inductive Wait
  | none
  | fence (cov : W64)
  | count (p : Path) (t : Nat)
  | pop (q : Nat)
  | barrier (b : Nat) (phase : Nat) (bar : Option Nat)
  | pair (b : Nat) (cnt : Nat) (d : Option Sel)
  | mwait (l : List MLoc) (v : Nat) (deadline : Option Nat) (woken : Bool)
  | claim
  | position
  deriving DecidableEq, Repr

/-- A program-counter slot and its path (R32, R46). -/
structure Slot where
  st : SlotState
  pc : W64
  pm : W64
  exec : W64
  rpc : Option W64
  fmt : W32
  spin : Nat
  back : Option W64
  counts : List Nat      -- in-flight counters when back was taken (R46)
  loaded : List MLoc     -- locations read since the last state change (R47)
  target : W64           -- regroup target
  wait : Wait
  held : Bool            -- the stall of its next word has been counted (R76)
  sbit : Bool            -- the S bit of the word that waits (R79)
  lent : KMap W64        -- lanes of other groups in this path, by home group number (R44)
  deriving DecidableEq, Repr

/-- A divergence-stack entry (R37). -/
structure SEntry where
  pc : W64
  tag : Nat              -- 0, 1: a slot; 2: shared; 3: corrupted
  frame : Bool
  mask : W64
  rpc : Option W64
  fmt : W32
  lent : KMap W64
  deriving DecidableEq, Repr

/-- A range handle (R62): base, and the doubleword with len, space, rd, wr and shadow. -/
structure Handle where
  base : W64
  desc : W64
  deriving DecidableEq, Repr

/-- Ordering kind of an access (R106, R147 to R149); spill is private. -/
inductive Kind | s | r | u | priv
  deriving DecidableEq, Repr

/-- Where a deferred result goes (R58, R76). -/
inductive Dst
  | none
  | scalar (a : Sel)
  | vec (r : Sel) (n : Nat)
  | pop (a : Sel) (n : Nat)      -- sN and the n landing registers from vN on (R281)
  deriving DecidableEq, Repr

/-- A lane's access: the lane whose registers it uses (R44) and the bytes, one location each, ascending. -/
structure LaneAcc where
  lane : Nat
  locs : List MLoc
  deriving DecidableEq, Repr

/-- What happens when an outstanding access or deferred result returns (R134, R139, R256, R264, R266). -/
inductive Act
  | load (wt : MWidth) (l : List LaneAcc)
  | frag (tr : SV) (sec : Nat) (l : List MLoc)       -- sector sec of a block (R260)
  | store (l : List (MLoc × Byte))
  | atomic (op : AtomOp) (w64 cas : Bool) (l : List (LaneAcc × W64 × W64))
  | value (l : List (Nat × List W32)) (s : W64)     -- per lane register values, or a scalar
  | wait                                             -- an engine or another agent delivers it
  | nothing
  deriving DecidableEq, Repr

/-- An outstanding access or deferred result of a group, in program order (R75, R127, R134). -/
structure Pend where
  id : Nat
  slot : Bool
  path : Option Path
  kind : Kind
  order : Order
  cov : W64              -- bit n: covered by hN; bit 8: untagged (R127)
  dst : Dst
  lanes : W64            -- active(k) at issue (R78)
  act : Act
  flags : Nat            -- flags ORed in when it is observed (R69)
  returned : Bool        -- performed, its counter held by an older access of the path (R134)
  aliased : List Nat       -- the alias entries it resolved through (R272)
  src : W64              -- counters that cover what an engine reads for it (R155)
  homes : KMap W64       -- home groups of lent lanes at issue (R78)
  comb : Option Nat      -- the word whose lanes share a byte's value (R144) or may be combined (R151, R265)
  quantum : Option (Nat × Nat)   -- a quantum atomic: space and address of its location (R152)
  deriving DecidableEq, Repr

/-- One element of an engine queue (R280 to R283): per-lane registers, header, flags; not ready while the engine
still works on it. -/
structure QElem where
  work : Nat
  ready : Bool
  last : Bool
  header : W64
  lanes : List (Nat × List W32)
  regs : Nat             -- registers per lane that it lands in (R282)
  flags : Nat
  deriving DecidableEq, Repr

/-- A donor record of regroup (R43). -/
structure Donor where
  g : Nat                -- donor's group number
  slot : Bool
  mask : W64
  rpc : Option W64
  homes : KMap W64       -- the home groups of its lanes (R44)
  deriving DecidableEq, Repr

/-- A replay record of a speculative atomic (R153). -/
structure Replay where
  pc : W64
  slot : Bool
  vals : List (Nat × List W32)
  sval : W64
  deriving DecidableEq, Repr

/-- Why a group issues nothing at all (R52, R320 to R326, R392, R397, R487). -/
inductive Stop
  | none
  | handler                  -- a cause waits for the entry to the in-enclave handler (R325)
  | system                   -- stopped for system software
  | page (id : Nat)          -- waits on a page request (R392)
  | frame (id : Nat)         -- the trap area waits on a page request (R325)
  | halted (restored : Bool) -- halted for the debugger (R488); whether it has been restored since
  | saving                   -- drains before its image is taken (R399)
  deriving DecidableEq, Repr

structure Group where
  team : Nat                 -- team id
  launch : Nat
  num : Nat
  width : Nat
  s : KMap W64
  k : KMap W64
  v : KMap W32               -- key 64 × register + lane
  h : KMap Handle
  allot : Nat
  keep : Nat                 -- registers kept by the yield in force (R319)
  slot0 : Slot
  slot1 : Slot
  stack : List SEntry        -- top first
  stackNewer : Bool          -- the stack in spill memory still lacks a change made here (the model's own, log 10)
  exited : W64
  flags : W64
  flagsen : W64
  cause : W64
  caddr : W64
  causeN : Nat
  preq : Bool
  pdlAt : Nat                -- timestamp at which PDL reaches zero (R71)
  yielding : Bool
  shape : W64
  region : Nat × Nat × Nat   -- requested M, N, K (R295)
  pend : List Pend
  queue : KMap (List QElem)
  chan : KMap W64
  base : Nat                 -- base priority class
  eff : Nat                  -- effective priority class
  active : Bool
  enteredAt : Nat            -- sequence number of entering the pending set
  parkedAt : Option Nat
  readyAt : Nat
  issuedAt : Nat
  agedAt : Nat
  lastSlot : Bool
  settle : Bool
  hazards : Nat
  handler : Bool
  stop : Stop
  stopSlot : Bool
  donors : List Donor
  replay : List Replay
  spill : W64                -- spill base VA
  coll : KMap Nat
  armed : Bool
  stepping : Bool            -- only the slot stopSlot issues, one word (R487)
  pass : Option Bool         -- the slot whose next word ignores every watchpoint (R487)
  deriving DecidableEq, Repr

/-! ### Teams, cores, dies, launches -/

/-- A team barrier (R308). -/
structure Bar where
  phase : Nat
  count : Nat
  arrived : W64
  deriving DecidableEq, Repr

/-- An alias entry (R132). -/
structure Alias where
  bufa : W64
  bufb : W64
  ctl : W64
  deriving DecidableEq, Repr

/-- A scratch watchpoint (R487). -/
structure Watch where
  lo : Nat
  hi : Nat
  rd : Bool
  wr : Bool
  deriving DecidableEq, Repr

structure Team where
  launch : Nat
  index : Nat
  core : Nat                 -- the core, or core 2n of a pair (sid 0x09 code)
  pair : Bool
  groups : List Nat          -- locations of its groups, by group number
  retired : W64              -- group numbers retired
  shared : Bytes
  bars : KMap Bar
  aliased : KMap Alias
  preempt : Option (Nat × W64)   -- deadline and save area (R397)
  seq : Nat                  -- saves so far (R403)
  imgFail : Bool             -- its image found a page beyond the shd section unready (R509)
  deriving DecidableEq, Repr

/-- One matrix operation in the core's queue (R297); the scales of a drain by space and address. -/
inductive MatOp
  | zero (t : Nat)
  | loop (t : Nat) (a b incA incB step cnt : Nat) (meta_ : Option Handle) (sp : Bool)
  | drain (t : Nat) (row col : Option (Nat × Nat)) (scales : Option (List Byte × List Byte)) (o : VTy) (sat : Bool) (next : Nat)
  deriving DecidableEq, Repr

structure MatWork where
  id : Nat
  loc : Nat                  -- the issuing group
  shape : W64
  region : Nat × Nat × Nat
  op : MatOp
  deriving DecidableEq, Repr

/-- A register claim waiting in the core's list (R314). -/
structure Claim where
  loc : Nat
  slot : Bool
  role : Option Nat
  dest : Nat
  deriving DecidableEq, Repr

/-- A sequencer (R24, R28, R30). -/
structure Seqr where
  pos : Nat                  -- position last issued
  cycle : Nat
  frozen : Option W64        -- the missed instruction line
  slips : Nat                -- schedule-slip events (R30)
  entered : Nat              -- counts entries to the pending set
  deriving DecidableEq, Repr

structure Core where
  free : Nat                 -- pool blocks of 512 bytes (R72)
  claims : List Claim
  tiles : KMap W32           -- key 4096 × tile + 64 × row + column, FP32
  mat : List MatWork
  sq : KMap Seqr
  ticks : Nat                -- arithmetic cycles since power-up (R210)
  retired : Bool             -- CORERET named it: no new team (R503)
  spare : Bool               -- a spare is set aside for it
  checks : List Nat          -- times of its MACHINE_CHECKs (R503)
  deriving DecidableEq, Repr

/-- State of a counted line (R130). -/
inductive LineSt | filling | counted | poisoned
  deriving DecidableEq, Repr

/-- A counted line: partition, enclave, device line number, launch and team of the filling copy, its template slot and
id, count, way (16 while it waits for one), data. -/
structure CLine where
  part : Nat
  eid : Nat
  line : Nat
  launch : Nat
  team : Nat
  tmpl : Nat
  copy : Nat
  st : LineSt
  count : Nat
  way : Nat
  data : List Byte
  deriving DecidableEq, Repr

structure Die where
  array : Bytes              -- on-chip array by physical place (R116, R118)
  lines : List CLine
  colset : KMap W64          -- COLSET p (R442)
  colst : Nat                -- COLST (R442)
  clpwr : KMap W64           -- CLPWR c (R442); unlisted: powered, no power cycle (log 6)
  spares : Nat               -- spare cores left (R503)
  coresp : Nat               -- code of the last CORERET write (R503)
  freq : KMap Nat            -- MHz of each cluster; unlisted: 1,400 (R437)
  deriving DecidableEq, Repr

/-! ### Quartz cores and front ends -/

/-- A Quartz, service or Basalt core (R345, R346, R355). -/
structure Quartz where
  s : KMap W64
  k : KMap W64
  pc : W64
  divzero : Bool
  level : Nat
  sr : KMap W64              -- special registers, key 256 × bank level + number (R355)
  halted : Bool
  parked : Bool
  pend : List Pend
  settle : Bool
  ticks : Nat
  deriving DecidableEq, Repr

/-- The prologue engine of a front end (R429). -/
structure Prologue where
  s : KMap W64
  k : KMap W64
  pc : W64
  divzero : Bool
  pend : List Pend
  settle : Bool
  words : Nat
  iter : Nat
  eid : Nat
  queue : Option Nat
  code : Option Nat          -- the routine has ended with this exit code (R430)
  page : Option Nat          -- the page request its word waits on (R391)
  deriving DecidableEq, Repr

/-- A page-ownership entry (R379). -/
structure Own where
  cls : Nat                  -- 0 free, 1 hypervisor, 2 OS, 3 enclave, 4 firmware
  part : Nat
  eid : Nat
  version : Nat
  zeroed : Bool
  rst : Bool
  deriving DecidableEq, Repr

/-- The holders of translations (R378): the TLB of an array core, of 1,024 entries; those of a Quartz core, of a front end's
fetcher and of the copy engine of a core; and that of every other unit. -/
inductive TUnit
  | core (n : Nat)
  | quartz (n : Nat)
  | fetcher (n : Nat)
  | copies (n : Nat)
  | other
  deriving DecidableEq, Repr

/-- A combined translation held by a TLB (R378): holder, context, page, frame, and the frames and IPA pages its walk used. -/
structure Tlb where
  unit : TUnit
  part : Nat
  tag : Nat                  -- ASID, 0xF000 + EID, or 0x10000 for the hypervisor context
  page : Nat
  frame : Nat
  kind : Nat
  w : Bool
  x : Bool
  u : Bool
  d : Bool
  frames : List Nat
  ipas : List Nat
  deriving DecidableEq, Repr

/-- A thread of an enclave as Basalt keeps it (R351). -/
structure EThread where
  expected : Nat
  soft : Bool                -- its last trap was a trap n
  deriving DecidableEq, Repr

/-- The four keys of an enclave's slot, each drawn anew: two XTS data keys, the integrity key, the seal key (R448), as the numbers of
their draws (log 9). -/
structure Keys where
  xts0 : Nat
  xts1 : Nat
  integ : Nat
  seals : Nat
  deriving DecidableEq, Repr

/-- A live enclave (R348, R364). -/
structure Enclave where
  part : Nat
  threads : Nat
  th : KMap EThread
  queues : W64
  root : Nat                 -- IPA of the stage-one root
  tsa : Nat
  entry : Nat
  debug : Bool
  meas : BitVec 384
  key : Option Keys          -- what its slot holds; none once it is erased (R448)
  ending : Bool
  tsaLeft : List Nat         -- threads whose save area is still to be written, its page not being mapped yet (R364; log 78)
  heap : KMap Nat            -- allocated blocks: base to size (R329)
  deriving DecidableEq, Repr

/-- An unresolved entry of the page-request queue (R391 to R393). -/
structure PageReq where
  seq : Nat
  idx : Nat                  -- its position
  enc : Bool
  eid : Nat
  part : Nat
  asid : Nat
  stage : Nat
  acc : Nat
  code : Nat
  page : Nat
  passed : Bool              -- the head has passed it (R392)
  deriving DecidableEq, Repr

/-- The page-request queue's registers (R393). -/
structure PrQueue where
  base : Nat
  head : Nat
  tail : Nat
  seq : Nat
  entries : List PageReq
  deriving DecidableEq, Repr

/-- A block that Basalt boots (R495 to R499): whether it is released, held after three failures, its fused counter,
the times of its failures, and whether a live update holds it (R502). -/
structure Block where
  released : Bool
  held : Bool
  svn : Nat
  fails : List Nat
  quiet : Bool
  deriving DecidableEq, Repr

/-- A recovery request: the block id, the port it went out on, and the block's fused counter (R501). -/
structure RecReq where
  block : Nat
  port : Option Nat          -- none while no port is reachable
  svn : Nat
  deriving DecidableEq, Repr

/-- What a live update does next (R500): its checked image waits until its block is held, of the array dies by clusters, of which n have
been held; or its image is written to flash. -/
inductive Upd
  | quiesce (block : Nat) (img : List Byte) (n : Nat)
  | flash (block : Nat) (img : List Byte)
  deriving DecidableEq, Repr

/-- A page seal (R386): what a correct tag under a key vouches for, of which Lean can compute nothing (log 9). -/
structure Seal where
  key : Nat
  version : Nat
  vpage : Nat
  plain : Bytes
  deriving DecidableEq, Repr

/-- Basalt: ownership, enclaves, keys, measurements, reports, blocks, flash and live update (R361, R379, R383, R447,
R456, R495 to R501). -/
structure Basalt where
  own : KMap Own
  enclaves : KMap Enclave
  keys : Nat                 -- number of the next key drawn (R383)
  osKeys : KMap Nat          -- the OS slot of each partition (R383; log 77)
  hypKey : Nat               -- the hypervisor slot
  fwKey : Nat                -- the firmware slot
  baseKeys : KMap Keys       -- copies of enclave slots in the 16 base dies: 4096 × base die + EID (R304, R383, R448)
  ctlKeys : KMap Keys        -- their copies in the pipelines of the 16 controllers: 4096 × controller + EID (R448)
  reports : List W64
  written : Nat
  read : Nat
  mr : KMap (BitVec 384)
  blocks : KMap Block
  flash : Bytes              -- the serial NOR device: a directory, and images (R495, R496)
  recover : Option RecReq    -- the recovery that is awaited (R498, R501)
  updPa : Nat                -- UPDREQ (R500)
  updCode : Nat              -- UPDST code
  updBusy : Bool             -- UPDST busy
  update : Option Upd        -- the step that the update in progress takes next (R500)
  svctl : W64                -- SVCTL (R361)
  replied : Nat              -- SVST[31:16]
  seals : List Seal
  moved : List (Nat × Nat)   -- enclaves migrating or moved away, with the destination endpoint (R410, R470)
  deriving DecidableEq, Repr

/-! ### Shale, the debug mailbox, SPDM and the ports -/

/-- A translation context (R372): an enclave, the OS context of a partition, or the hypervisor; with the stage roots
(none for an identity or unused stage) and the level that u is checked against. -/
structure Ctxt where
  eid : Option Nat
  part : Nat
  tag : Nat
  hyp : Bool
  root1 : Option Nat
  root2 : Option Nat
  l0 : Bool
  unit : TUnit               -- who translates
  deriving DecidableEq, Repr

/-- A walk in flight, or one that waits for the cluster walker (R378, R389): the context of its first request, address and access; the
holders of the other requests that share it; how many walks the access has had, this one included; the level and the table, an
intermediate address, of the stage-one entry it reads next; the frames and intermediate pages it has used. -/
structure Walk where
  c : Ctxt
  va : Nat
  acc : Acc
  ign : Bool                 -- the u bit is not checked (R111)
  units : List TUnit
  n : Nat
  level : Nat
  table : Nat
  frames : List Nat
  ipas : List Nat
  deriving DecidableEq, Repr

/-- An accepted Shale command (R450, R451): its descriptor's physical address, the caller's partition and level, and
the context it translates in. -/
structure ShCmd where
  id : Nat
  op : Nat
  eid : Nat
  desc : Nat
  part : Nat
  level : Nat
  recs : List Nat            -- frames of the record (RECORD)
  list : List Nat            -- physical addresses of the MOVE entries
  ndown : Nat
  next : Nat                 -- entry to process next
  mid : Bool                 -- the leaf of that entry's page is held at tier 1 (R454)
  freed : List Nat           -- frames that its down entries released, still to be scrubbed (R454)
  deriving DecidableEq, Repr

/-- Shale (R450 to R455). -/
structure Shale where
  code : Nat                 -- SHCST
  cmds : List ShCmd
  recording : KMap (List Nat)    -- enclave to the frames of its record
  wset : KMap (Nat × Nat × Nat)    -- enclave to its recorded set: size, resident part, command (R455)
  scrub : List (Nat × Option Nat)   -- released frames still to scrub, with the ending enclave that held them (R381, R447)
  deriving DecidableEq, Repr

/-- A command that the debug mailbox has taken (R485, R486): its VA, the context it translates in, its eight doublewords. -/
structure DbgCmd where
  q : Nat
  va : Nat
  ctx : Ctxt
  words : List W64
  deriving DecidableEq, Repr

/-- The groups that ARM has marked in a team of an enclave's launch (R487). -/
structure ArmRec where
  eid : Nat
  launch : Nat
  team : Nat
  groups : W64
  deriving DecidableEq, Repr

/-- Watchpoint n of a team (R487). -/
structure WatchRec where
  eid : Nat
  launch : Nat
  team : Nat
  n : Nat
  w : Watch
  deriving DecidableEq, Repr

/-- The debug mailbox and the freeze registers (R485 to R489, R505). -/
structure Debug where
  code : Nat                 -- DBGCST code
  ring : W64                 -- DBGRING
  wr : Nat
  rd : Nat
  queue : List (List W64)    -- event records not yet in the ring
  root : Ctxt                -- the context that translated DBGRING
  nextSeq : Nat
  cmd : Option DbgCmd        -- the command in progress; DBGCST.busy while there is one
  armed : List ArmRec
  watches : List WatchRec
  frozen : Bool
  frzst : Bool
  frzreq : Bool
  scan : Option Bool         -- what the last scan read-out was answered: granted or refused
  deriving DecidableEq, Repr

/-- What the responder reports as its capabilities, and what it negotiates (R458). -/
inductive SpdmCap | cert | chal | measSig | measFresh | keyEx | encrypt | mac
  deriving DecidableEq, Repr
inductive SpdmAlg | ecdsaP384 | sha384 | measSha384 | secp384r1 | aes256Gcm | keySchedule
  deriving DecidableEq, Repr

/-- The last answer of the SPDM responder (R458 to R462): the version of its header, response code, error code, versions offered,
capabilities, algorithms chosen, digest of the certificate chain and the chain, count and blocks of measurements, debug bit, signature. -/
structure SpdmReply where
  version : Nat
  code : Nat
  error : Nat
  versions : List Nat
  caps : List SpdmCap
  algs : List SpdmAlg
  digest : Option (BitVec 384)
  chain : List Byte
  count : Nat
  blocks : List (BitVec 384)
  debug : Bool
  sig : Option (BitVec 768)
  deriving DecidableEq, Repr

/-- Stages of a connection (R459). -/
inductive ConnSt | versioned | capable | negotiated
  deriving DecidableEq, Repr

/-- A session (R459, R461, R462), with the messages that its transcript hashes TH and L1/L2 run over. -/
structure Sess where
  id : Nat
  ep : Nat
  established : Bool
  bound : Option (Nat × BitVec 384 × Bool)   -- the enclave it is bound to, with its measurement and debug bit (R462)
  th : List Byte
  l1 : List Byte
  key : BitVec 384           -- the secret of its keys: of the handshake, then of the application
  exported : BitVec 384      -- its export secret, once Established
  seq : Nat                  -- sequence numbers used in each direction
  deriving DecidableEq, Repr

/-- A connection, with the messages that its transcript hashes run over (R461): A; those of M1 after A; those of L1/L2 after A. -/
structure Conn where
  st : ConnSt
  a : List Byte
  m1 : List Byte
  l1 : List Byte
  deriving DecidableEq, Repr

structure Spdm where
  conns : KMap Conn
  sess : List Sess
  next : Nat
  signed : Nat               -- signatures made (the model's own field)
  reply : Option SpdmReply
  deriving DecidableEq, Repr

/-- A TDISP binding (R463, R464): its doublewords, integrity failures, and the key generated for its stream. -/
structure Bind where
  lo : W64
  hi : W64
  fails : Nat
  key : Option Nat
  deriving DecidableEq, Repr

/-- What a root port answers to a device's request (R465): Unsupported Request, or the data of a read. -/
inductive DevReply
  | unsupported
  | data (l : List Byte)
  deriving DecidableEq, Repr

structure RootPort where
  rppart : W64
  binds : KMap Bind
  reply : Option DevReply    -- to the last request; a write that is accepted has none
  deriving DecidableEq, Repr

/-- The sessions that key a stream (R467): the export secret of the session that this module's Basalt opened with the peer's, and of
the one that the peer's opened with this one's. -/
structure Link where
  own : BitVec 384
  peer : BitVec 384
  deriving DecidableEq, Repr

/-- A stream-table entry (R466) with its receive window and keys (R468). -/
structure Stream where
  lo : W64
  hi : W64
  high : Option Nat          -- highest sequence number accepted
  seen : List Nat            -- accepted within the window
  drops : Nat
  link : Option Link         -- its sessions, once keyed
  gen : Nat                  -- keys it has had under them
  tx : BitVec 256            -- the key of what this module sends, and of what it receives (R467)
  rx : BitVec 256
  oldRx : BitVec 256         -- the key before the last rekeying
  count : Nat                -- messages received under the present key
  oldUntil : Option Nat      -- messages under the old key are accepted until then
  deriving DecidableEq, Repr

structure UePort where
  table : KMap Stream
  up : Bool                  -- whether its link reaches the network: recovery looks for one that does (R501)
  migreq : W64
  migst : Nat
  migrating : Option Nat     -- enclave
  deriving DecidableEq, Repr

/-! ### Work of the engines -/

/-- On whose behalf a copy runs (R284, R425, R433). -/
inductive Owner
  | group (loc : Nat)
  | packet (fe q idx stat sig : Nat)
  | node (fe q idx i stat sig : Nat)
  deriving DecidableEq, Repr

/-- A copy in flight (R284 to R291). err is a rejection found at issue; page is the page request it waits on. -/
structure Copy where
  owner : Owner
  core : Nat
  launch : Nat
  team : Nat
  eid : Nat
  part : Nat
  chan : Nat
  slot : Nat
  tmpl : List Byte
  arg : List W64
  buf : Option (Nat × Nat × Nat)   -- resolved alias buffer: space, base and length (R133)
  err : Nat
  badsec : Nat
  lines : List Nat           -- counted lines still filling
  page : Option Nat
  pageFail : Option Nat      -- the code of the page request that failed (R393)
  waitAt : Nat               -- the unit, line or signal add whose page request it waits on
  begun : Bool               -- it has begun (R162, R284)
  moved : List Nat           -- destination sectors written before its completion (R157)
  held : List (Nat × List (Nat × Byte) × Option Nat)   -- source sectors read: number, bytes by address, the sector if it failed (R155)
  scales : KMap (List Nat)   -- block scales of the rows begun, as read (R288)
  wrote : Nat                -- bytes written so far
  bad : List Nat             -- source sectors that failed
  merge : Bool               -- a destination merge of theirs failed (R385)
  old : Bytes                -- contents that inbound writes have replaced since it began (R162)
  fin : Option (Nat × Nat × Nat)   -- bytes, badsec and err, when only its signal add is left
  dead : Bool                -- its peer failed (R291)
  sent : Option (List (Nat × Byte) × Nat × Nat)   -- source read (R161): bytes to send, badsec, err found
  filled : Nat               -- counted lines filled
  deriving DecidableEq, Repr

/-- A near-memory product (R303). -/
structure Mvn where
  loc : Nat
  team : Nat
  part : Nat
  eid : Nat
  core : Nat
  rows : Nat
  cols : Nat
  bf : EFmt
  x8 : Bool
  b : Nat
  x : Nat                    -- base of x in space xs (2 shared, 3 scratch)
  xs : Nat
  y : Nat
  toQ : Bool
  page : Option Nat
  pageFail : Option Nat
  waitAt : Nat               -- the row whose page request it waits on
  deriving DecidableEq, Repr

/-- A contribution to a collective: the group's place in the grid, operands, lane values (R306). -/
structure Contrib where
  dead : Bool                -- a keyed stream of its collective set failed after it (R468)
  fzi : Bool                 -- FMT.fzi and FMT.fzo of the contributing slot (R93)
  fzo : Bool
  loc : Nat
  pend : Nat
  team : Nat
  index : Nat
  die : Nat
  num : Nat
  op : RedOp
  ty : VTy
  extent : Nat
  bad : Bool
  vals : List (Nat × Nat)
  time : Nat
  deriving DecidableEq, Repr

/-- Work of an engine, keyed by its id. -/
inductive Work
  | copy (c : Copy)
  | mvn (m : Mvn)
  | gath (loc eid part : Nat) (lanes : List (Nat × Nat)) (page : Option (Nat × Nat)) (failed : W64)
  | coll (launch tag c : Nat) (l : List Contrib)
  | pub (loc team entry : Nat)
  | scrsz (loc part n : Nat) (slot : Bool) (res : Option W64) (d : Sel)
  | restore (q pend eid part version tier target : Nat) (l : List (Nat × Nat × Nat × Nat))   -- frames that await images: frame, VA, place, version before (R387)
  deriving DecidableEq, Repr

/-- A result that reaches a group after its image is taken (R402): a scalar, a channel status, a queue element, a
system-call reply. -/
structure Late where
  id : Nat
  chan : Option Nat
  status : W64
  lanes : List (Nat × List W32)
  flags : Nat
  queue : Option Nat
  deriving DecidableEq, Repr

/-- A forwarding entry (R402): at is the group's location, none while held; ids the results outstanding. -/
structure Fwd where
  core : Nat
  eid : Nat
  launch : Nat
  team : Nat
  group : Nat
  place : Option Nat
  ids : List Nat
  pend : List Pend
  stored : List Late
  rest : KMap (List QElem)   -- queue parts from the first element on that is not ready
  deriving DecidableEq, Repr

/-- A system-call entry posted and not yet replied to in every lane (R328 to R330). -/
structure SysEntry where
  seq : Nat
  loc : Nat
  id : Nat
  eid : Nat
  svc : Nat
  wait : Bool
  deadline : Nat
  todo : List (Nat × W64)    -- lanes not yet answered, with their arguments
  replies : List (Nat × W64)
  deriving DecidableEq, Repr

/-- One chained buffer of a CALL (R427): next packet's VA, packets left, the open true arms of its PREDs, innermost
first: packets left of the arm and packets to skip after it (R426); and the place of the CALL in what its queue reads ahead: its ring
index and the VA of the packet in each buffer on the way to it, none under a kicked packet (R428). -/
structure Level where
  next : Nat
  left : Nat
  arms : List (Nat × Nat)
  path : Option (List Nat)
  deriving DecidableEq, Repr

/-- Where a packet comes from (R415, R427). -/
inductive Src | kick | call | ring
  deriving DecidableEq, Repr

/-- A packet of a queue that has not issued: the kick in a place, from the head; the packet at a VA of the buffer at a depth of calls,
the outermost 1; the packet of a ring index. -/
inductive PktRef
  | kick (n : Nat)
  | call (depth va : Nat)
  | ring (i : Nat)
  deriving DecidableEq, Repr

/-- States of a queue (R414). -/
inductive QState | idle | running | waiting | error | frozen
  deriving DecidableEq, Repr

/-- A packet that has issued and not completed (R415). -/
structure OutPkt where
  idx : Nat
  work : Nat                 -- launch or copy or graph id
  deriving DecidableEq, Repr

/-- What a queue's next packet waits on (R414): nothing, the signals of a barrier, residency, room for the way-count
change, or the prologue engine. -/
inductive QWait | none | hold | barrier | residency | ways | prologue
  deriving DecidableEq, Repr

/-- A PROLOGUE and its LAUNCH in progress (R429, R430): index of the PROLOGUE, its operands, the LAUNCH as read, the
iteration, and whether the routine waits to run again. -/
structure Pair where
  idx : Nat
  entry : Nat
  args : List W64
  img : List Byte
  iter : Nat
  again : Bool
  deriving DecidableEq, Repr

/-- What makes an access for a queue through its enclave's translation (R507): the packet at issue, by its source; its queue signal; the completion
signal of a launch; the zeroing of spill memory for a launch; a graph node; the status word (false) or signal (true) of a copy; the
routine of its pair. -/
inductive QWho
  | packet (src : Src)
  | drain
  | grid (launch : Nat)
  | spill (launch : Nat)
  | node (i : Nat)
  | copy (work : Nat) (sig : Bool)
  | pair
  deriving DecidableEq, Repr

/-- An access that waits on a page request, or without one on a free position of the page-request queue (R392, R507), and when a
teardown of its context began (R390). -/
structure QAccess where
  who : QWho
  page : Option Nat
  torn : Option Nat
  deriving DecidableEq, Repr

structure Queue where
  base : Nat
  mode : Bool
  n : Nat
  ien : Bool
  enc : Bool
  eid : Nat
  sig : Nat
  qwr : Nat
  qrd : Nat
  state : QState
  err : Nat
  errIdx : Nat
  spill : Nat
  spillLen : Nat
  spillUsed : List (Nat × Nat)   -- base and length of areas taken (R508)
  kicks : List Nat
  calls : List Level             -- innermost first (R427)
  ringArms : List (Nat × Nat)
  cancelled : List PktRef        -- cancelled packets that issue has not passed (R424, R480)
  ahead : List (List Nat × List Byte)   -- packets read ahead of issue: place (see Level.path) and bytes (R428)
  out : List OutPkt
  launches : Nat
  lastLaunch : Option Nat
  placing : Option Nat           -- the launch whose teams are being placed
  holds : List (Bool × Nat)      -- KERNEL nodes whose launch waits (false), and launches of nodes being placed (true): R420, R436
  sigDue : Bool
  lastIdx : Nat                  -- index of the last packet issued
  waits : List QAccess           -- accesses that wait on a page (R507)
  wait : QWait
  freeze : Bool                  -- freeze bit of QCTL (R413)
  pair : Option Pair
  deriving DecidableEq, Repr

/-- A node of a running graph (R431, R433) and its successors. -/
structure GNode where
  i : Nat
  work : Nat
  next0 : Nat
  next1 : Nat
  deriving DecidableEq, Repr

/-- A running graph (R431): the queue and index of its packet, the packet's work id, its nodes, running and ready ones, arrivals
at JOIN nodes, iterations of WHILE nodes, and whether an END has been reached. -/
structure Graph where
  id : Nat
  queue : Nat
  idx : Nat
  base : Nat
  count : Nat
  running : List GNode
  ready : List Nat
  joins : KMap Nat
  iters : KMap Nat
  ending : Bool
  deriving DecidableEq, Repr

/-- What hardware keeps of a saved group that the image of R406 has no field for: the settle marker (R79), the collective
counters (R306), the halt (R488), the slot and n of its cause, the barrier waits (R399), and for the elements of q2 and q3 in
the image their lane sets and registers per lane (R282). -/
structure GRest where
  settle : Bool
  coll : KMap Nat
  halted : Bool
  stopSlot : Bool
  causeN : Nat
  pass : Option Bool
  stepping : Bool
  wait0 : Wait
  wait1 : Wait
  sbit0 : Bool               -- S bits of the words that wait (R79, R399)
  sbit1 : Bool
  replays : List Bool        -- slots of its replay records (R153)
  lanes : KMap (List (W64 × Nat))
  chan : KMap W64            -- last statuses of its channels (R292)
  exited : W64
  lent0 : KMap W64           -- lent lanes of its paths and of its stack entries, top first (log 10)
  lent1 : KMap W64
  lents : List (KMap W64)
  homes : List (KMap W64)    -- home groups of the lanes of its regroup records
  deriving DecidableEq, Repr

/-- A team's resume entry and what is saved of it that the image does not hold (R403, R408, R472). -/
structure Saved where
  tid : Nat
  fe : Nat
  launch : Nat
  index : Nat
  eid : Nat
  seq : Nat
  consumed : Bool
  rest : KMap GRest
  deriving DecidableEq, Repr

/-- A front-end command in progress (R438). -/
structure FeCmd where
  op : Nat
  launch : Nat
  team : Nat
  deadline : Nat
  area : Nat
  core : Nat
  group : Nat
  deriving DecidableEq, Repr

/-- A checked restore waiting for resources (R407). -/
structure Restore where
  id : Nat
  fe : Nat
  launch : Nat
  index : Nat
  area : Nat
  core : Nat
  image : List Byte
  stks : KMap (List SEntry)  -- the divergence stacks read by the checks, by group number
  deriving DecidableEq, Repr

/-- A stop waiting to be recorded (R440). -/
structure StopRec where
  loc : Nat
  eid : Nat
  dbg : Bool
  launch : Nat
  team : Nat                 -- linear index
  num : Nat
  code : Nat
  pc : W64
  caddr : W64
  time : Nat
  deriving DecidableEq, Repr

structure FrontEnd where
  pro : Prologue
  fepart : W64               -- R441
  fes2 : W64                 -- stage-two root of the partition (R412)
  fering : W64
  irqQ : W64                 -- FEIRQ[15:0]
  irqCore : Nat              -- FEIRQ[20:16]
  irqSys : Bool              -- FEIRQ[25]
  fecst : Nat
  cmd : Option FeCmd         -- the command in progress; FECST.busy while there is one
  festop : W64
  stwr : Nat
  strd : Nat
  stops : List StopRec
  queues : KMap Queue
  graph : Option Graph
  seq : Nat                  -- system-call ring: next seq
  restores : List Restore
  ferst : Nat                -- FERST (R445): 0, or the reset step to do next
  sysc : List SysEntry
  deriving DecidableEq, Repr

/-- A launch (R417 to R419). -/
structure Launch where
  fe : Nat
  queue : Nat
  part : Nat
  eid : Nat
  fmt : W32
  flagsen : W64
  cls : Nat
  handler : W64              -- 0: none
  args : List W64
  gx : Nat
  gy : Nat
  gz : Nat
  width : Nat
  vregs : Nat
  size : Nat                 -- groups per team
  mx : Bool
  roles : List (W64 × Nat × Nat)   -- entry PC, vregs, class
  tmpl : KMap (List Byte)
  region : KMap Nat          -- Scratch Region Table entries; unlisted: 1 (R, writable)
  handles : KMap Handle
  shared : Nat
  spill : Nat
  sig : Nat
  cores : Bool
  pair : Bool
  code : W64
  next : Nat                 -- next team index to place
  retired : Nat
  lastCore : Option Nat
  node : Option Nat          -- the graph node that runs it
  prologue : Bool            -- launched by a prologue that exited with 2 (R430)
  idx : Nat                  -- packet index
  dieTeams : KMap Nat        -- bit i of a die's mask: team i was placed on it (R306)
  done : Bool                -- the grid has completed (R421)
  waiting : Bool             -- no core took its next team: placement waits until a team of the partition retires (R420)
  used : List Nat            -- clusters, 8 × die + cluster, on which its teams were placed (R437)
  deriving DecidableEq, Repr

/-! ### The state -/

/-- What has been applied to a location by quantum atomics since its last other write (R152): its bytes, its place in its space,
the value before, the applications with their work ids, and how many of them each group (64 × team + number) had at its last
quantum boundary. -/
structure Quant where
  locs : List MLoc
  space : Nat
  addr : Nat
  base : Nat
  apps : List (Nat × AtomOp × Nat)
  seen : KMap Nat
  deriving DecidableEq, Repr

/-- The answer to a remote atomic (R410): the old value, or the "moved" negative acknowledgement with the destination endpoint. -/
inductive RemoteAnswer
  | value (v : W64)
  | moved (endpoint : Nat)
  deriving DecidableEq, Repr

/-- A remote atomic that waits (R410). -/
structure RemoteReq where
  eid : Nat
  va : W64
  w64 : Bool
  op : AtomOp
  v : W64
  deriving DecidableEq, Repr

/-- A step of a copy before its completion (R155, R157): it begins; it reads source sector n; it writes destination sector n. -/
inductive CStep
  | start
  | read (n : Nat)
  | write (n : Nat)
  deriving DecidableEq, Repr

/-- On whose behalf a walk is made ahead of the access that needs it (R377, R389): of an issuing unit, of a copy, of the fetcher of
a queue. -/
inductive Walker
  | unit (ag : Agent)
  | copy (id : Nat)
  | fetcher (fe q : Nat)
  deriving DecidableEq, Repr

/-- A unit that moves of its own accord. -/
inductive Mover
  | basalt
  | seq (core q : Nat)
  | quartz (n : Nat)
  | prologue (fe : Nat)
  deriving DecidableEq, Repr

/-- One turn of the script (the model's own, log 1): a unit moves, an event happens, a sequencer misses its
instruction line, timestamp cycles pass, a copy moves a sector (R157), a speculative atomic n words ahead of a slot's PC is
performed early (R153), a walk begins or reads its next stage-one entry (R377, R389), a line meets an uncorrectable ECC error
(R384), Shale loads the images that a potreq named (R387), the oldest waiting remote atomic is tried again (R410), or a queue's fetcher reads
a packet ahead of issue: that of ring index n, or in look-ahead mode the next one (R428), or an SPDM request with a code outside R459
arrives (R460). -/
inductive Turn
  | unit (m : Mover)
  | event (i : Instr)
  | miss (core q : Nat)
  | time (n : Nat)
  | copy (id : Nat) (c : CStep)
  | early (loc : Nat) (slot : Bool) (n : Nat)
  | walk (w : Walker) (va : Nat) (acc : Acc) (ign : Bool)
  | ecc (line : Nat)
  | load (id : Nat)
  | remote
  | ahead (fe q n : Nat)
  | spdm (m : SpdmMsg)
  | link (port : Nat) (up : Bool)
  deriving DecidableEq, Repr

/-- What the last word did (the model's own field): issued and completed, stalled on a hazard, parked, or faulted. -/
inductive Last | issued | stalled | parked | faulted
  deriving DecidableEq, Repr

/-- Reasons a step stops without a next state. -/
inductive Fault
  /-- Raised by every instruction word when State.agent names a group or a core that does not exist: no unit is
  there to execute it. Safe: the machine never issues from such a unit. -/
  | noUnit
  deriving DecidableEq, Repr

/-- Refusals. -/
inductive Refusal
  /-- Raised by exec for a constructor that has no meaning yet. Safe: nothing is claimed about it. -/
  | notModelled (mnemonic : String)
  deriving DecidableEq, Repr

structure State where
  agent : Agent
  groups : KMap Group
  teams : KMap Team
  cores : KMap Core
  dies : KMap Die
  hbm : Bytes
  quartz : KMap Quartz
  fes : KMap FrontEnd
  launches : KMap Launch
  saved : List Saved
  tlb : List Tlb
  tlbGone : List (Tlb × Nat) -- translations replaced while accesses through them, numbered below, were in flight (R362)
  walks : List Walk          -- walks in flight and requests for one, in arrival order (R378, R389)
  prq : PrQueue
  basalt : Basalt
  badLines : KMap Bool       -- HBM lines whose tag does not verify: true; false, written anew in a frame with old tags (R384, R385; log 9)
  stale : KMap (Nat × Nat)   -- frames whose lines still carry the tags of an earlier slot and version (R384; log 9)
  rom : Bytes                -- Basalt's ROM (R346; log 79)
  ways : KMap Nat            -- scratch way count W of a partition (R117)
  quanta : List Quant        -- locations with quantum applications (R152)
  work : KMap Work
  late : List Late
  fwd : List Fwd
  shale : Shale
  dbox : Debug
  spdm : Spdm
  roots : KMap RootPort
  ue : KMap UePort
  bells : W64                -- DBPEND (R361)
  far : KMap Bytes           -- far memories: 2^32 × tier + target (R386, R161)
  unreachable : List (Nat × Nat)   -- peers and namespaces that failed (R291)
  remoteReply : Option RemoteAnswer  -- answer to the last remote atomic (R410)
  remoteWait : List RemoteReq    -- remote atomics that wait at a page in flight (R374, R410)
  thermal : Bool             -- clusters held at 1,200 MHz (R506)
  time : Nat
  fresh : Nat
  script : List Turn
  mover : Mover
  last : Last
  deriving DecidableEq, Repr

/-! ### Reset (log 5, log 6, log 7, log 8) -/

def resetPrologue : Prologue :=
  { s := [], k := [], pc := 0, divzero := false, pend := [], settle := false, words := 0, iter := 0, eid := 0,
    queue := none, code := none, page := none }

/-- An Idle queue with every register 0 (R413, R414; log 6). -/
def resetQueue : Queue :=
  { base := 0, mode := false, n := 0, ien := false, enc := false, eid := 0, sig := 0, qwr := 0, qrd := 0,
    state := .idle, err := 0, errIdx := 0, spill := 0, spillLen := 0, spillUsed := [], kicks := [], calls := [],
    ringArms := [], cancelled := [], ahead := [], out := [], launches := 0, lastLaunch := none, placing := none, holds := [],
    sigDue := false,
    lastIdx := 0, waits := [], wait := .none, freeze := false, pair := none }

/-- A front end whose FEPART has base 1 above limit 0, which disables every queue (R412; log 7). -/
def resetFrontEnd : FrontEnd :=
  { pro := resetPrologue, fepart := 1, fes2 := 0, fering := 0, irqQ := 0, irqCore := 0, irqSys := false, fecst := 0,
    cmd := none, festop := 0, stwr := 0, strd := 0, stops := [],
    queues := (List.range 16).map (fun q => (q, resetQueue)), graph := none, seq := 0, restores := [], ferst := 0,
    sysc := [] }

/-- A Quartz core (0 to 31, at L2), a service core (32 to 35) or Basalt (36), both at L3; every core but Basalt is
held in reset (R345, R354, R498; log 6). -/
def resetQuartz (n : Nat) : Quartz :=
  { s := [], k := [], pc := 0, divzero := false, level := if n < 32 then 2 else 3, sr := [], halted := n != 36,
    parked := false, pend := [], settle := false, ticks := 0 }

/-- An array core with its whole pool of 1,536 blocks free (R72). -/
def resetCore : Core :=
  { free := 1536, claims := [], tiles := [], mat := [],
    sq := (List.range 4).map (fun q => (q, { pos := 0, cycle := 0, frozen := none, slips := 0, entered := 0 })),
    ticks := 0, retired := false, spare := false, checks := [] }

/-- An array die: four spare cores, no colour set valid (R2, R442; log 6). -/
def resetDie : Die :=
  { array := [], lines := [], colset := [], colst := 0, clpwr := [], spares := 4, coresp := 0, freq := [] }

def resetBasalt : Basalt :=
  { own := [], enclaves := [], keys := 19, osKeys := (List.range 16).map (fun p => (p, p + 1)), hypKey := 17, fwKey := 18,
    baseKeys := [], ctlKeys := [], reports := [], written := 0, read := 0, mr := [],
    blocks := (List.range 9).map (fun n => (n + 2, { released := false, held := false, svn := 0, fails := [], quiet := false })),
    flash := [], recover := none, updPa := 0, updCode := 0,
    updBusy := false, update := none, svctl := 0, replied := 0, seals := [], moved := [] }

def resetDebug : Debug :=
  { code := 0, ring := 0, wr := 0, rd := 0, queue := [],
    root := { eid := none, part := 0, tag := 0, hyp := true, root1 := none, root2 := none, l0 := false, unit := .other },
    nextSeq := 0, cmd := none, armed := [], watches := [], frozen := false, frzst := false, frzreq := false, scan := none }

/-- The codes of the 384 array cores: die [10:8], cluster [6:4], core [2:0] (R209). -/
def coreCodes : List Nat :=
  (List.range 8).flatMap (fun d => (List.range 6).flatMap (fun c => (List.range 8).map (fun n => 256 * d + 16 * c + n)))

/-- The machine at power-on: every block but Basalt held in reset, no team, no enclave, nothing in memory (R498). -/
def State.reset : State :=
  { agent := .quartz 36, groups := [], teams := [], cores := coreCodes.map (fun c => (c, resetCore)),
    dies := (List.range 8).map (fun d => (d, resetDie)), hbm := [],
    quartz := (List.range 37).map (fun n => (n, resetQuartz n)),
    fes := (List.range 16).map (fun n => (n, resetFrontEnd)), launches := [], saved := [], tlb := [], tlbGone := [], walks := [],
    prq := { base := 0, head := 0, tail := 0, seq := 0, entries := [] }, basalt := resetBasalt, badLines := [], stale := [], rom := [],
    ways := [], quanta := [], work := [], late := [], fwd := [],
    shale := { code := 0, cmds := [], recording := [], wset := [], scrub := [] }, dbox := resetDebug,
    spdm := { conns := [], sess := [], next := 0, signed := 0, reply := none },
    roots := (List.range 4).map (fun r => (r, { rppart := 0, binds := [], reply := none })),
    ue := (List.range 16).map (fun q => (q, { table := [], up := true, migreq := 0, migst := 0, migrating := none })),
    bells := 0, far := [], unreachable := [], remoteReply := none, remoteWait := [], thermal := false, time := 0, fresh := 0,
    script := [], mover := .basalt, last := .issued }

end Sys2Proof.Machine
end

