-- ==== Sys2Proof/Config.lean ====
section
/-! DEFINITION. What the implementation fixes and the spec leaves open: constants with no body, of which Lean can
prove no value. -/

namespace Sys2Proof.Config

/-- SHA-384 of a byte string: the spec names the hash (R364, R456) and its value is a matter of FIPS 180, which the
spec does not restate (log 9). -/
opaque sha384 (l : List Byte) : BitVec 384

/-- AES-256-GCM tag of a sealed structure under key slot k: 16 bytes, the value not in the spec (log 9). -/
opaque gcmTag (key : Nat) (version : Nat) (image : List Byte) : BitVec 128

/-- The ciphertext an encrypted image holds in place of its plaintext (log 9). -/
opaque cipher (key : Nat) (version : Nat) (image : List Byte) : List Byte

/-- What a sealed page image that this module did not seal itself opens to under a key slot, version and page; none when its
tag fails (log 9). -/
opaque opened (key : Nat) (version : Nat) (vpage : Nat) (image : List Byte) : Option (List Byte)

/-- The bytes of an SPDM response, which the transcripts take in; the certificate chain of slot 0; the responder's signature of a digest,
by the number of signatures before it; the shared secret of a KEY_EXCHANGE, by session number; what SPDM's key schedule derives from a
secret and a transcript hash: the session's secret and its export secret (R458, R461, log 9, log 89). -/
opaque spdmBytes (r : Machine.SpdmReply) : List Byte
opaque deviceChain : List Byte
opaque deviceSign (n : Nat) (digest : BitVec 384) : BitVec 768
opaque dheSecret (session : Nat) : BitVec 384
opaque spdmSecret (secret th : BitVec 384) : BitVec 384
opaque spdmExport (secret th : BitVec 384) : BitVec 384

/-- The export secrets of the two sessions that key a stream, by the model's counter (R467, log 9). -/
opaque linkSecrets (n : Nat) : BitVec 384 × BitVec 384

/-- HKDF-SHA-384 from the export secrets of a stream's sessions: the key that the first of them sends under, by the number of the key
(R467, log 9). -/
opaque streamKey (own peer : BitVec 384) (gen : Nat) : BitVec 256

/-- Item 0x00 of dbgrd, the slot states, from the codes of R406: the spec does not lay it out (R367, log 19). -/
opaque slotStates (st0 st1 : Nat) : BitVec 64

/-- What the hand-over of a migrating enclave carries beside its key slot, measurement and debug bit: thread count, root, save
areas, entry, versions of the save areas, by EID and item (R470, log 25). -/
opaque migrated (eid item : Nat) : Nat

/-- The resume entries and the launches, by number, that the hand-over of a migrating enclave carries, by EID (R409, log 25). -/
opaque movedTeams (eid : Nat) : List Machine.Saved
opaque movedLaunches (eid : Nat) : List (Nat × Machine.Launch)

/-- TADDR after an entry of a Quartz core for an interrupt or for a cause without an address, taken from outside every enclave
thread, by the model's counter: the spec writes TADDR and states no value (R357, log 18). -/
opaque freeTaddr (n : Nat) : BitVec 64

/-- The correctly rounded result of a transcendental function beyond the precision that Machine/Fun.lean tries
(R98, log 11): operation code, format code, rounding mode, operand. -/
opaque transcendental (op f m x : Nat) : Nat × Nat

/-- MHz of the own clock of a service core or of Basalt, by core number (R354, log 16): the spec states no value. -/
opaque serviceClock (n : Nat) : BitVec 64

/-- What the peers of a collective set contribute to a collective of extent 2, by the model's counter, rank and lane
(R306, R469, log 26). -/
opaque peerValue (n rank lane : Nat) : Nat

/-- Whether the nodes of a collective flush subnormal results, by its work id, where its contributions differ in FMT.fzo (R93, R306,
log 73). -/
opaque collFzo (n : Nat) : Bool

/-- Whether CLPWR shows clusters as powered while their power cycle is in progress, by the model's counter (R442, log 83). -/
opaque cyclePowered (n : Nat) : Bool

/-- Whether the module power limit withholds a gain of 25 MHz at a grid barrier, by time, launch and cluster (R437, log 40): the spec
does not state the limit. -/
opaque gainWithheld (time launch cluster : Nat) : Bool

/-- GET_DEVICE_INTERFACE_REPORT of a device, by root port and requester ID (R464, log 9). -/
opaque deviceReport (port rid : Nat) : List Byte

/-- Whether a read sees an application of a quantum atomic made since its group's last boundary, by the work ids of the read and
of the application (R152, log 71): any subset may be seen. -/
opaque quantumSeen (read app : Nat) : Bool

/-- The rank of a lane among combined commutative operations, by the work id of the first of them (R151, log 71): any
serialisation of them may give their old values. -/
opaque combineRank (n lane : Nat) : Nat

/-- Which of its 1,024 entries the TLB of an array core replaces, by the model's counter (R378, log 15). -/
opaque tlbVictim (n : Nat) : Nat

/-- Whether an image's signature verifies, over its bytes (R497, log 9). -/
opaque signatureOk (l : List Byte) : Bool

/-- Whether a block's load, and a flash write, succeed, by the model's counter (R500, log 20). -/
opaque loadOk (n : Nat) : Bool
opaque flashOk (n : Nat) : Bool

/-- Where the service cores place a block of a heap, by the model's counter and the block's size (R329, log 27): the spec
does not say which free block is taken. -/
opaque heapPick (n size : Nat) : Nat

/-- Where the heap of an enclave lies: base and length (R329, log 27): the spec does not place it. -/
opaque heapSpan (eid : Nat) : Nat × Nat

/-- The core to which the debug port's routing directs IPEND[6] (R485, log 91). -/
opaque debugCore : Nat

/-- Digests that boot extends into MR0 and MR1: Basalt's ROM, and the fuse and security configuration (R456, log 24). -/
opaque romDigest : BitVec 384
opaque fuseDigest : BitVec 384

/-- The frames that Basalt fixes before any Quartz core runs, each with whether it is of the firmware class, else the
hypervisor class (R498, log 24): the spec does not list them. -/
opaque bootFrames : List (Nat × Bool)

end Sys2Proof.Config
end

