-- ==== Sys2Proof/Machine/Num.lean ====
section
/-! DEFINITION. Number formats (R83 to R97): the exact value of an encoding, rounding of an exact value into a
format with its flags, DL8, E8M0, conversions and exact summation. A finite value is a sign and an exact fraction
num/den that is never normalised; flags are a number with the bits of FLAGS (R68). -/

namespace Sys2Proof.Machine

/-- Bits of FLAGS (R68). -/
def fInvalid : Nat := 1
def fDivzero : Nat := 2
def fOverflow : Nat := 4
def fUnderflow : Nat := 8
def fInexact : Nat := 16
def fUnderread : Nat := 32

/-- An exact value (R10, val): NaN, an infinity, or ±num/den with den positive. -/
inductive XVal
  | nan
  | inf (neg : Bool)
  | fin (neg : Bool) (num den : Nat)
  deriving DecidableEq, Repr

def xZero (neg : Bool) : XVal := .fin neg 0 1

/-- Exponent width, mantissa width and bias of a binary format (R83). -/
structure FShape where
  eb : Nat
  mb : Nat
  bias : Nat

def fshape : VTy → FShape
  | .f16 => ⟨5, 10, 15⟩
  | .bf16 => ⟨8, 7, 127⟩
  | .e5m2 => ⟨5, 2, 15⟩
  | .e4m3 => ⟨4, 3, 7⟩
  | .fp4 => ⟨2, 1, 1⟩
  | _ => ⟨8, 23, 127⟩

/-- Bits of an encoding of a format. -/
def fbits (f : VTy) : Nat :=
  match f with
  | .dl8 | .e8m0 => 8
  | f => let s := fshape f; 1 + s.eb + s.mb

/-- Whether the top exponent of a format is kept for infinity and NaN (R83). -/
def fIeee : VTy → Bool
  | .f32 | .f16 | .bf16 | .e5m2 => true
  | _ => false

/-- 2^e for an integer e, as a fraction. -/
def pow2 (e : Int) : Nat × Nat := if 0 ≤ e then (2 ^ e.toNat, 1) else (1, 2 ^ (-e).toNat)

/-- DL8 body values scaled by 32 × 10^6 (R87 to R89); none for the body 1, which is infinity. -/
def dl8Num (body : Nat) : Option Nat :=
  if body = 0 then some 0
  else if body = 1 then none
  else
    let k := Nat.log2 body                       -- position of the marker
    let z := 6 - k
    let x := bitN body (k - 1)
    let w1 := k - 1                              -- w − 1 fraction bits
    let f := body % 2 ^ w1
    let e : Nat := if x then 6 + z else 6 - (z + 1)   -- decimal exponent + 6
    some ((2 ^ w1 + 9 * f) * 2 ^ (5 - w1) * 10 ^ e)

/-- The scale of dl8Num. -/
def dl8Den : Nat := 32 * 10 ^ 6

/-- val(e, f) (R84, R87). -/
def val (f : VTy) (e : Nat) : XVal :=
  match f with
  | .dl8 =>
    let b := e % 128
    let s := bitN e 7
    if b = 0 then (if s then .nan else xZero false)
    else match dl8Num b with
      | none => .inf s
      | some n => .fin s n dl8Den
  | .e8m0 =>
    if e % 256 = 255 then .nan
    else let p := pow2 ((e % 256 : Nat) - 127 : Int); .fin false p.1 p.2
  | f =>
    let sh := fshape f
    let m := e % 2 ^ sh.mb
    let x := fldN e sh.mb sh.eb
    let s := bitN e (sh.eb + sh.mb)
    let top := 2 ^ sh.eb - 1
    if fIeee f && x == top then (if m = 0 then .inf s else .nan)
    else if f == .e4m3 && x == 15 && m == 7 then .nan
    else if x = 0 then
      let p := pow2 (1 - (sh.bias : Int) - sh.mb); .fin s (m * p.1) p.2
    else
      let p := pow2 ((x : Int) - sh.bias - sh.mb); .fin s ((2 ^ sh.mb + m) * p.1) p.2

/-- Whether an encoding is a signalling NaN (R85). -/
def isSnan (f : VTy) (e : Nat) : Bool :=
  fIeee f && (let sh := fshape f
    fldN e sh.mb sh.eb == 2 ^ sh.eb - 1 && e % 2 ^ sh.mb != 0 && !bitN e (sh.mb - 1))

/-- Canonical NaN (R83, R94). -/
def canonNan : VTy → Nat
  | .f32 => 0x7FC00000 | .f16 => 0x7E00 | .bf16 => 0x7FC0 | .e5m2 => 0x7E | .e4m3 => 0x7F
  | .dl8 => 0x80 | .e8m0 => 0xFF | _ => 0

/-- Encoding of a signed infinity of an IEEE-style format. -/
def encInf (f : VTy) (neg : Bool) : Nat :=
  let sh := fshape f
  (2 ^ sh.eb - 1) * 2 ^ sh.mb + (if neg then 2 ^ (sh.eb + sh.mb) else 0)

/-- Encoding of the largest finite value with a sign (R83). -/
def encMax (f : VTy) (neg : Bool) : Nat :=
  match f with
  | .dl8 => if neg then 0x83 else 0x03
  | .e8m0 => 0xFE
  | .e4m3 => if neg then 0xFE else 0x7E
  | .fp4 => if neg then 0xF else 0x7
  | f => encInf f neg - 1

/-- Encoding of a signed zero; DL8 has one zero (R87). -/
def encZero (f : VTy) (neg : Bool) : Nat :=
  match f with
  | .dl8 => 0
  | f => let sh := fshape f; if neg then 2 ^ (sh.eb + sh.mb) else 0

/-- floor(log2(n/d)) for positive n and d. -/
def log2Frac (n d : Nat) : Int :=
  let e : Int := (Nat.log2 n : Int) - Nat.log2 d
  -- 2^e ≤ n/d or 2^(e-1) ≤ n/d < 2^e
  if 0 ≤ e then (if d * 2 ^ e.toNat ≤ n then e else e - 1)
  else (if d ≤ n * 2 ^ (-e).toNat then e else e - 1)

/-- rint(n/d, m) of a non-negative fraction whose sign is neg (R91): the magnitude of the rounded integer. -/
def rintMag (m : RMode) (neg : Bool) (n d : Nat) : Nat :=
  let q := n / d
  let r := n % d
  if r = 0 then q
  else match m with
    | .rtz => q
    | .rup => if neg then q else q + 1
    | .rdn => if neg then q + 1 else q
    | .rne => if 2 * r < d then q else if d < 2 * r then q + 1 else if q % 2 = 0 then q else q + 1

/-- Whether a mode rounds an overflowing magnitude of a sign to the largest finite value (R91). -/
def towardZero (m : RMode) (neg : Bool) : Bool :=
  m == .rtz || (m == .rup && neg) || (m == .rdn && !neg)

/-- overflow(f, sg, m, s) (R91). -/
def overflowTo (f : VTy) (neg : Bool) (m : RMode) (s : Bool) : Nat × Nat :=
  let fl := fOverflow ||| fInexact
  if f == .fp4 || s || towardZero m neg then (encMax f neg, fl)
  else if f == .e4m3 then (0x7F, fl)
  else (encInf f neg, fl)

/-- round_dl8 of a finite value (R90). -/
def roundDl8 (m : RMode) (s neg : Bool) (n d : Nat) : Nat × Nat :=
  let maxv := 100000 * dl8Den
  let a := n * dl8Den                  -- the magnitude is a / d in units of 1 / dl8Den
  if maxv * d < a then
    (if s || towardZero m neg then encMax .dl8 neg else (if neg then 0x81 else 0x01), fOverflow ||| fInexact)
  else
    let codes := (List.range 128).filterMap (fun c => (dl8Num c).map (fun v => (v, c)))
    let lo := codes.foldl (fun b x => if x.1 * d ≤ a && b.1 ≤ x.1 then x else b) (0, 0)
    let hi := codes.foldl (fun b x => if a ≤ x.1 * d && x.1 ≤ b.1 then x else b) (maxv, 3)
    let frac (c : Nat) : Nat := c % 2 ^ (Nat.log2 c - 1)
    let isBase (c : Nat) : Bool := c == 2 || c == 3 || frac c == 0
    let y :=
      if lo.1 = hi.1 then lo
      else match m with
        | .rne =>
          if 2 * a < (lo.1 + hi.1) * d then lo
          else if (lo.1 + hi.1) * d < 2 * a then hi
          else if lo.1 = 0 then hi
          else if isBase hi.2 then hi
          else if lo.2 == 2 || lo.2 == 3 || frac lo.2 % 2 == 0 then lo
          else hi
        | m => if towardZero m neg then lo else hi
    let inexact := y.1 * d != a
    let fl := (if inexact then fInexact else 0)
      ||| (if inexact && a != 0 && a < 32 * d then fUnderflow else 0)
    (if y.1 = 0 then 0 else y.2 + (if neg then 128 else 0), fl)

/-- round() of a finite value into E8M0 (R92). -/
def roundE8 (m : RMode) (s neg : Bool) (n d : Nat) : Nat × Nat :=
  if neg || n = 0 then (0xFF, fInvalid)
  else if n * 2 ^ 127 < d then (0, fUnderflow ||| fInexact)
  else
    let k := log2Frac n d
    let p := pow2 k                                -- 2^k ≤ n/d < 2^(k+1)
    let exact := n * p.2 == p.1 * d
    let up :=
      !exact && (match m with
        | .rtz | .rdn => false
        | .rup => true
        | .rne =>
          let two := 2 * n * p.2
          let mid := 3 * p.1 * d
          if two < mid then false else if mid < two then true else (k + 127) % 2 != 0)
    let k := if up then k + 1 else k
    if 127 < k then (if s then 0xFE else 0xFF, fOverflow ||| fInexact)
    else ((k + 127).toNat, if exact then 0 else fInexact)

/-- encode(y, f) for y = ±j × 2^q with q ≥ the spacing of subnormals (R84). -/
def encodeFin (f : VTy) (neg : Bool) (j : Nat) (q : Int) : Nat :=
  let sh := fshape f
  let s := if neg then 2 ^ (sh.eb + sh.mb) else 0
  let emin : Int := 1 - (sh.bias : Int)
  let k : Int := (Nat.log2 j : Int) + q            -- exponent of the value
  if k < emin then s + (j * (pow2 (q - (emin - sh.mb))).1)
  else
    let x := (k + sh.bias).toNat
    let m :=
      if Nat.log2 j ≤ sh.mb then j * 2 ^ (sh.mb - Nat.log2 j) else j / 2 ^ (Nat.log2 j - sh.mb)
    s + x * 2 ^ sh.mb + m % 2 ^ sh.mb

/-- round(x, f, m, s) of R91, with FMT.fzo: the encoding and the flags it sets. -/
def round (f : VTy) (m : RMode) (s fzo : Bool) (x : XVal) : Nat × Nat :=
  match x with
  | .nan => (canonNan f, if f == .fp4 then fInvalid else 0)
  | .inf neg =>
    match f with
    | .e8m0 => if neg then (0xFF, fInvalid) else if s then (0xFE, fOverflow ||| fInexact) else (0xFF, fInvalid)
    | .fp4 => (encMax .fp4 neg, fOverflow ||| fInexact)
    | .e4m3 => if s then (encMax .e4m3 neg, fOverflow ||| fInexact) else (0x7F, fInvalid)
    | .dl8 =>
      if s then (encMax .dl8 neg, fOverflow ||| fInexact) else (if neg then 0x81 else 0x01, 0)
    | f => if s then (encMax f neg, fOverflow ||| fInexact) else (encInf f neg, 0)
  | .fin neg n d =>
    match f with
    | .dl8 => roundDl8 m s neg n d
    | .e8m0 => roundE8 m s neg n d
    | f =>
      if n = 0 then (encZero f neg, 0)
      else
        let sh := fshape f
        let emin : Int := 1 - (sh.bias : Int)
        let e := max (log2Frac n d) emin
        let q : Int := e - sh.mb
        let p := pow2 (-q)
        let j := rintMag m neg (n * p.1) (d * p.2)
        let inexact := j * (d * p.2) != n * p.1
        -- |y| > maxf(f)
        let emax : Int := match f with
          | .e4m3 => 8 | .fp4 => 2 | f => (2 ^ (fshape f).eb : Nat) - 2 - (fshape f).bias
        let lim : Nat := match f with
          | .e4m3 => 14 | f => 2 ^ ((fshape f).mb + 1) - 1    -- mantissa of maxf
        let passed : Bool :=
          let t := q - (emax - sh.mb)
          if 0 ≤ t then lim < j * (pow2 t).1 else lim * (pow2 (-t)).1 < j
        if passed then overflowTo f neg m s
        else
          let mn := pow2 emin
          let tiny := n * mn.2 < mn.1 * d
          let ufl := if tiny && inexact then fUnderflow else 0
          let flush :=
            fzo && (f == .f32 || f == .f16 || f == .bf16) && j != 0 && j < 2 ^ sh.mb && e == emin
          if flush then (encZero f neg, ufl ||| fUnderflow ||| fInexact)
          else
            let fl := ufl ||| (if inexact then fInexact else 0)
            if j = 0 then (encZero f neg, fl) else (encodeFin f neg j q, fl)

/-- rne(x, f) of R10 without flushing. -/
def rneTo (f : VTy) (x : XVal) : Nat × Nat := round f .rne false false x

/-- Whether an encoding of an FMT.fzi format is subnormal (R93). -/
def isSubnormal (f : VTy) (e : Nat) : Bool :=
  let sh := fshape f
  (f == .f32 || f == .f16 || f == .bf16) && fldN e sh.mb sh.eb == 0 && e % 2 ^ sh.mb != 0

/-- A source after FMT.fzi (R93): a subnormal reads as the zero of its sign. -/
def flushIn (fzi : Bool) (f : VTy) (e : Nat) : Nat :=
  if fzi && isSubnormal f e then encZero f (bitN e (fbits f - 1)) else e % 2 ^ fbits f

/-- invalid if the encoding is a signalling NaN (R85). -/
def snanFlag (f : VTy) (e : Nat) : Nat := if isSnan f e then fInvalid else 0

def isNanE (f : VTy) (e : Nat) : Bool := val f e == .nan

/-- −x. -/
def xNeg : XVal → XVal
  | .nan => .nan
  | .inf s => .inf (!s)
  | .fin s n d => .fin (!s) n d

/-- Signed numerator of a finite value. -/
def sNum (neg : Bool) (n : Nat) : Int := if neg then -(n : Int) else (n : Int)

/-- Exact sum of two fractions n1/d1 + n2/d2, keeping the larger denominator when one divides the other. -/
def fracAdd (x y : Int × Nat) : Int × Nat :=
  if x.2 = y.2 then (x.1 + y.1, x.2)
  else if y.2 % x.2 = 0 then (x.1 * ((y.2 / x.2 : Nat) : Int) + y.1, y.2)
  else if x.2 % y.2 = 0 then (x.1 + y.1 * ((x.2 / y.2 : Nat) : Int), x.2)
  else (x.1 * (y.2 : Int) + y.1 * (x.2 : Int), x.2 * y.2)

/-- Exact product; NaN for 0 × ∞ (R99, R100). -/
def xMul : XVal → XVal → XVal
  | .nan, _ | _, .nan => .nan
  | .inf s, .inf t => .inf (s != t)
  | .inf s, .fin t n _ => if n = 0 then .nan else .inf (s != t)
  | .fin s n _, .inf t => if n = 0 then .nan else .inf (s != t)
  | .fin s n d, .fin t m e => .fin (s != t) (n * m) (d * e)

/-- exactsum(L) of R10 with the zero rule of R95 in a mode. -/
def xSum (m : RMode) (l : List XVal) : XVal :=
  if l.any (· == .nan) then .nan
  else
    let pinf := l.any (· == .inf false)
    let ninf := l.any (· == .inf true)
    if pinf && ninf then .nan
    else if pinf then .inf false
    else if ninf then .inf true
    else
      let t := l.foldl (fun a x => match x with
        | .fin s n d => fracAdd a (sNum s n, d)
        | _ => a) ((0 : Int), 1)
      if t.1 = 0 then
        let allNeg := !l.isEmpty && l.all (fun x => match x with | .fin true 0 _ => true | _ => false)
        let allPos := l.all (fun x => match x with | .fin false 0 _ => true | _ => false)
        xZero (allNeg || (m == .rdn && !allPos))
      else .fin (t.1 < 0) t.1.natAbs t.2

/-- Signed compare of two finite or infinite values: -1, 0 or 1; none when either is NaN. Zeros are equal. -/
def xCmp : XVal → XVal → Option Int
  | .nan, _ | _, .nan => none
  | .inf s, .inf t => some (if s = t then 0 else if s then -1 else 1)
  | .inf s, .fin _ _ _ => some (if s then -1 else 1)
  | .fin _ _ _, .inf t => some (if t then 1 else -1)
  | .fin s n d, .fin t m e =>
    let x := sNum s n * (e : Int)
    let y := sNum t m * (d : Int)
    some (if x < y then -1 else if x = y then 0 else 1)

/-- Range of an integer type (R81). -/
def intRange : VTy → Int × Int
  | .i8 => (-(2 ^ 7), 2 ^ 7 - 1) | .i16 => (-(2 ^ 15), 2 ^ 15 - 1)
  | .i32 => (-(2 ^ 31), 2 ^ 31 - 1) | .i64 => (-(2 ^ 63), 2 ^ 63 - 1)
  | .n8 => (0, 2 ^ 8 - 1) | .n16 => (0, 2 ^ 16 - 1) | .n32 => (0, 2 ^ 32 - 1)
  | _ => (0, 2 ^ 64 - 1)

/-- satint(x, t) (R10). -/
def satint (t : VTy) (x : Int) : Int :=
  let r := intRange t
  if x < r.1 then r.1 else if r.2 < x then r.2 else x

/-- Bits of an integer or bit-pattern type. -/
def ibits : VTy → Nat
  | .i8 | .n8 => 8 | .i16 | .n16 => 16 | .i64 | .n64 | .b64 => 64 | _ => 32

/-- cvt_int of R97: the value as a field and the flags. -/
def cvtInt (t : VTy) (m : RMode) (x : XVal) : Nat × Nat :=
  let r := intRange t
  match x with
  | .nan => (0, fInvalid)
  | .inf s => (wrapI (ibits t) (if s then r.1 else r.2), fInvalid)
  | .fin s n d =>
    let y := sNum s (rintMag m s n d)
    if y < r.1 || r.2 < y then (wrapI (ibits t) (satint t y), fInvalid)
    else (wrapI (ibits t) y, if n % d = 0 then 0 else fInexact)

/-- cvt(src, from, to, m, s) of R97 under FMT.fzi and FMT.fzo. -/
def cvtVal (fr dest : VTy) (m : RMode) (s fzi fzo : Bool) (src : Nat) : Nat × Nat :=
  if VTy.isInt fr then
    let i : Int := if VTy.isSigned fr then sextN (ibits fr) src else (zextN (ibits fr) src : Nat)
    round dest m s fzo (.fin (i < 0) i.natAbs 1)
  else
    let x := val fr (flushIn fzi fr src)
    let fl := snanFlag fr src ||| (if fr == .dl8 && src % 256 == 0x80 then fInvalid else 0)
    let r :=
      if VTy.isInt dest then cvtInt dest m x
      else if fr == .dl8 && dest == .f32 then round .f32 m false fzo x
      else round dest m s fzo x
    (r.1, r.2 ||| fl)

/-- fmin and fmax of two encodings (R227): the operand's encoding after flushing, the flags. -/
def fMinMax (isMax fzi : Bool) (f : VTy) (a b : Nat) : Nat × Nat :=
  let x := flushIn fzi f a
  let y := flushIn fzi f b
  let fl := snanFlag f a ||| snanFlag f b
  let neg (e : Nat) : Bool := bitN e (fbits f - 1)
  match xCmp (val f x) (val f y) with
  | none =>
    (if isNanE f x && isNanE f y then canonNan f else if isNanE f x then y else x, fl)
  | some c =>
    -- −0 is ordered below +0
    let less : Bool := c < 0 || (c == 0 && neg x && !neg y)
    (if less == isMax then y else x, fl)

/-- fclass of an encoding (R229). -/
def fClass (f : VTy) (e : Nat) : Nat :=
  let sh := fshape f
  let s := bitN e (fbits f - 1)
  let x := fldN e sh.mb sh.eb
  let m := e % 2 ^ sh.mb
  let b : Nat :=
    if x == 2 ^ sh.eb - 1 then
      (if m == 0 then (if s then 0 else 7) else if isSnan f e then 8 else 9)
    else if x == 0 then (if m == 0 then (if s then 3 else 4) else if s then 2 else 5)
    else if s then 1 else 6
  2 ^ b

end Sys2Proof.Machine
end

