-- ==== Sys2Proof/Machine/Store.lean ====
section
/-! DEFINITION. Functions over the sparse tables of State.lean, in their one canonical form: strictly rising keys and
no entry equal to the default. Every memory of the machine is such a table of bytes with default 0. -/

namespace Sys2Proof.Machine

/-- The entry of a key. -/
def mget {α : Type} (l : KMap α) (k : Nat) : Option α :=
  match l with
  | [] => none
  | (j, v) :: t => if j = k then some v else mget t k

/-- The table with an entry put at a key. -/
def mput {α : Type} (l : KMap α) (k : Nat) (v : α) : KMap α :=
  match l with
  | [] => [(k, v)]
  | (j, w) :: t => if k < j then (k, v) :: (j, w) :: t else if k = j then (k, v) :: t else (j, w) :: mput t k v

/-- The table without a key. -/
def mdel {α : Type} (l : KMap α) (k : Nat) : KMap α :=
  match l with
  | [] => []
  | (j, w) :: t => if j = k then t else (j, w) :: mdel t k

/-- The value at a key, or the default. -/
def mgetD {α : Type} (l : KMap α) (k : Nat) (d : α) : α := (mget l k).getD d

/-- The table with a value at a key; the default is stored as no entry. -/
def msetD {α : Type} [DecidableEq α] (l : KMap α) (k : Nat) (v d : α) : KMap α :=
  if v = d then mdel l k else mput l k v

/-- Applies a function to the entry of a key, if there is one. -/
def mupd {α : Type} (l : KMap α) (k : Nat) (f : α → α) : KMap α :=
  match mget l k with
  | none => l
  | some v => mput l k (f v)

/-- Whether keys rise strictly from a bound. -/
def mrising {α : Type} : Option Nat → KMap α → Bool
  | _, [] => true
  | none, (k, _) :: t => mrising (some k) t
  | some b, (k, _) :: t => decide (b < k) && mrising (some k) t

/-- The canonical form of a table with a default. -/
def mwf {α : Type} [DecidableEq α] (d : α) (l : KMap α) : Bool :=
  mrising none l && l.all (fun e => decide (e.2 ≠ d))

/-- The canonical form of a byte memory (Memory.wf of the brief): rising addresses, no entry 0. -/
def memWf (m : Bytes) : Bool := mwf (0#8) m

/-- One byte of a memory. -/
def readByte (m : Bytes) (a : Nat) : Byte := mgetD m a 0#8

/-- A memory with one byte written. -/
def writeByte (m : Bytes) (a : Nat) (b : Byte) : Bytes := msetD m a b 0#8

/-- n bytes from a. -/
def readBytes (m : Bytes) (a : Nat) : Nat → List Byte
  | 0 => []
  | n + 1 => readByte m a :: readBytes m (a + 1) n

/-- A memory with bytes written from a on. -/
def writeBytes (m : Bytes) (a : Nat) : List Byte → Bytes
  | [] => m
  | b :: t => writeBytes (writeByte m a b) (a + 1) t

/-- A memory with the n bytes from a zeroed. -/
def zeroBytes (m : Bytes) (a n : Nat) : Bytes := m.filter (fun e => decide (e.1 < a ∨ a + n ≤ e.1))

/-- A little-endian number of n bytes (R4). -/
def readLe (m : Bytes) (a n : Nat) : Nat := leNat (readBytes m a n)

/-- A number of n bytes written little-endian (R4). -/
def writeLe (m : Bytes) (a n x : Nat) : Bytes := writeBytes m a (leBytes n x)

end Sys2Proof.Machine
end

