-- ==== Sys2Proof/Machine/Ops.lean ====
section
/-! DEFINITION. The named operations over registers, slots and lanes (R54 to R60, R32, R44, R74 to R80), shared by
every meaning. -/

namespace Sys2Proof.Machine

/-- The outcome of a meaning. -/
abbrev Out := Host.Outcome State Fault Refusal

/-! ### Group locations: core [10:0], sequencer [12:11], position [17:13] (R367) -/

def locCore (loc : Nat) : Nat := loc % 2048
def locSq (loc : Nat) : Nat := loc / 2048 % 4
def locPos (loc : Nat) : Nat := loc / 8192 % 32
def mkLoc (core sq pos : Nat) : Nat := core + 2048 * sq + 8192 * pos
/-- The die of a core code: die [10:8] (R209). -/
def coreDie (core : Nat) : Nat := core / 256 % 8

/-! ### Slots -/

def getSlot (g : Group) (sl : Bool) : Slot := if sl then g.slot1 else g.slot0
def setSlot (g : Group) (sl : Bool) (p : Slot) : Group :=
  if sl then { g with slot1 := p } else { g with slot0 := p }

/-- An empty slot (R22, R35). -/
def freeSlot : Slot :=
  { st := .free, pc := 0, pm := 0, exec := 0, rpc := none, fmt := 0, spin := 0, back := none, counts := [], loaded := [],
    target := 0, wait := .none, held := false, sbit := false, lent := [] }

/-- lanes_live() of a slot (R10): EXEC below width; path masks hold no exited lane (R34). -/
def live (g : Group) (sl : Bool) : W64 := (getSlot g sl).exec &&& fullMask g.width

/-! ### Scalar-class registers (R58) -/

def kRead (k : KMap W64) (n : Nat) : W64 := if n = 0 then BitVec.allOnes 64 else mgetD k n 0
def sRead (s : KMap W64) (n : Nat) : W64 := if n = 0 then 0 else mgetD s n 0
def sWrite (s : KMap W64) (n : Nat) (v : W64) : KMap W64 := if n = 0 then s else msetD s n v 0

/-- The undefined handle (R62). -/
def noHandle : Handle := { base := 0, desc := 0 }
def getH (g : Group) (n : Nat) : Handle := mgetD g.h n noHandle

/-- A source of scalar class in a group: s0-s63, k0-k15, a handle's base (R58). -/
def gRead (g : Group) (a : Sel) : W64 :=
  if selIsS a then sRead g.s a.toNat
  else if selIsK a then kRead g.k (a.toNat - 0x40)
  else if selIsH a then (getH g (a.toNat - 0x58)).base
  else 0

/-- A destination of scalar class in a group: s0 and k0 discard (R58, R59). -/
def gWrite (g : Group) (a : Sel) (v : W64) : Group :=
  if selIsS a then { g with s := sWrite g.s a.toNat v }
  else if selIsK a then { g with k := sWrite g.k (a.toNat - 0x40) v }
  else g

/-- active(k) of a slot (R10). -/
def activeOf (g : Group) (sl : Bool) (k : BitVec 4) : W64 := live g sl &&& kRead g.k k.toNat

/-! ### Vector registers, with the home group of lent lanes (R44) -/

/-- The home group number of a lane of a path, none when it is the group's own. -/
def lentHome (p : Slot) (i : Nat) : Option Nat := (p.lent.find? (fun e => bit e.2 i)).map (·.1)

/-- Where a lane's vector registers are: the location of its home group (R44). -/
def homeLoc (s : State) (loc : Nat) (g : Group) (sl : Bool) (i : Nat) : Nat :=
  match lentHome (getSlot g sl) i with
  | none => loc
  | some n =>
    match mget s.teams g.team with
    | some t => t.groups.getD n loc
    | none => loc

/-- Lane i of vector register r of the group at a location. -/
def vAt (s : State) (loc r i : Nat) : W32 :=
  match mget s.groups loc with
  | some g => mgetD g.v (64 * r + i) 0
  | none => 0

/-- Lane i of vector register r as seen by a path (R9, R44). -/
def vRead (s : State) (loc : Nat) (g : Group) (sl : Bool) (r : Sel) (i : Nat) : W32 :=
  vAt s (homeLoc s loc g sl i) r.toNat i

/-- v64[r][i]: the pair, lower register in the lower half (R9). -/
def vRead64 (s : State) (loc : Nat) (g : Group) (sl : Bool) (r : Sel) (i : Nat) : W64 :=
  vRead s loc g sl (r + 1) i ++ vRead s loc g sl r i

/-- A lane's value of a type's width as a number (R213). -/
def vVal (s : State) (loc : Nat) (g : Group) (sl : Bool) (wide : Bool) (r : Sel) (i : Nat) : Nat :=
  if wide then (vRead64 s loc g sl r i).toNat else (vRead s loc g sl r i).toNat

/-- The state with lane i of vector register r of the group at a location written. -/
def vPut (s : State) (loc r i : Nat) (x : W32) : State :=
  { s with groups := mupd s.groups loc (fun g => { g with v := msetD g.v (64 * r + i) x 0 }) }

/-- Writes a lane's run of registers from r on. -/
def vPutRun (s : State) (loc r i : Nat) : List W32 → State
  | [] => s
  | x :: t => vPutRun (vPut s loc r i x) loc (r + 1) i t

/-- The registers that hold a value of a width: one, or the pair. -/
def splitVal (wide : Bool) (x : Nat) : List W32 := if wide then [w32 x, w32 (x / 2 ^ 32)] else [w32 x]

/-- Writes per-lane register runs, each lane in its home group (R44, R78). -/
def vWriteLanes (s : State) (loc : Nat) (g : Group) (sl : Bool) (r : Sel) : List (Nat × List W32) → State
  | [] => s
  | (i, l) :: t => vWriteLanes (vPutRun s (homeLoc s loc g sl i) r.toNat i l) loc g sl r t

/-- The bits of FMT that are not reserved (R66). -/
def fmtMask : W32 := 0x1FFF#32

/-! ### The executing unit -/

def setGroup (s : State) (loc : Nat) (g : Group) : State := { s with groups := mput s.groups loc g }
def updGroup (s : State) (loc : Nat) (f : Group → Group) : State := { s with groups := mupd s.groups loc f }
def updTeam (s : State) (t : Nat) (f : Team → Team) : State := { s with teams := mupd s.teams t f }
def updCore (s : State) (c : Nat) (f : Core → Core) : State := { s with cores := mupd s.cores c f }
def updDie (s : State) (d : Nat) (f : Die → Die) : State := { s with dies := mupd s.dies d f }
def updQuartz (s : State) (q : Nat) (f : Quartz → Quartz) : State := { s with quartz := mupd s.quartz q f }
def updFe (s : State) (n : Nat) (f : FrontEnd → FrontEnd) : State := { s with fes := mupd s.fes n f }
def updPro (s : State) (n : Nat) (f : Prologue → Prologue) : State := updFe s n (fun e => { e with pro := f e.pro })

/-- A scalar-class source of the executing unit (R58, R346). -/
def readReg (s : State) (a : Sel) : W64 :=
  match s.agent with
  | .group loc _ => match mget s.groups loc with | some g => gRead g a | none => 0
  | .quartz q =>
    match mget s.quartz q with
    | some c => if selIsS a then sRead c.s a.toNat else if selIsK a then kRead c.k (a.toNat - 0x40) else 0
    | none => 0
  | .prologue n =>
    match mget s.fes n with
    | some e => if selIsS a then sRead e.pro.s a.toNat else if selIsK a then kRead e.pro.k (a.toNat - 0x40) else 0
    | none => 0

/-- A scalar-class destination of the executing unit (R58, R59). -/
def writeReg (s : State) (a : Sel) (v : W64) : State :=
  match s.agent with
  | .group loc _ => updGroup s loc (fun g => gWrite g a v)
  | .quartz q =>
    updQuartz s q (fun c =>
      if selIsS a then { c with s := sWrite c.s a.toNat v }
      else if selIsK a then { c with k := sWrite c.k (a.toNat - 0x40) v } else c)
  | .prologue n =>
    updPro s n (fun e =>
      if selIsS a then { e with s := sWrite e.s a.toNat v }
      else if selIsK a then { e with k := sWrite e.k (a.toNat - 0x40) v } else e)

/-- PC of the word that the executing unit issues (R32). -/
def readPc (s : State) : W64 :=
  match s.agent with
  | .group loc sl => match mget s.groups loc with | some g => (getSlot g sl).pc | none => 0
  | .quartz q => match mget s.quartz q with | some c => c.pc | none => 0
  | .prologue n => match mget s.fes n with | some e => e.pro.pc | none => 0

/-- Moves the PC of the executing slot or core (R196). -/
def writePc (s : State) (pc : W64) : State :=
  match s.agent with
  | .group loc sl => updGroup s loc (fun g => setSlot g sl { getSlot g sl with pc := pc })
  | .quartz q => updQuartz s q (fun c => { c with pc := pc })
  | .prologue n => updPro s n (fun e => { e with pc := pc })

/-- ORs flags into FLAGS of the executing unit (R69, R103). Quartz cores and the prologue engine hold divzero only
(R346, R429). -/
def orFlags (s : State) (fl : Nat) : State :=
  match s.agent with
  | .group loc _ => updGroup s loc (fun g => { g with flags := g.flags ||| w64 fl })
  | .quartz q => updQuartz s q (fun c => { c with divzero := c.divzero || bitN fl 1 })
  | .prologue n => updPro s n (fun e => { e with divzero := e.divzero || bitN fl 1 })

/-- The next value of the model's counter and the state that has used it. -/
def takeFresh (s : State) : Nat × State := (s.fresh, { s with fresh := s.fresh + 1 })

/-! ### Deferred results and the scoreboard (R75 to R78) -/

/-- Scoreboard keys of a destination: scalar-class selectors below 256, vector register r as 256 + r. -/
def dstKeys : Dst → List Nat
  | .none => []
  | .scalar a => if a.toNat = 0 || a.toNat = 0x40 then [] else [a.toNat]
  | .vec r n => (List.range n).map (fun j => 256 + r.toNat + j)
  | .pop a n => (if a.toNat = 0 then [] else [a.toNat]) ++ (List.range n).map (fun j => 256 + a.toNat + j)

/-- Registers with a pending mark: the destinations of deferred results still to land (R76). -/
def pendingKeys (l : List Pend) : List Nat := l.flatMap (fun p => if p.returned then [] else dstKeys p.dst)

/-- Scoreboard keys of an operand of a word (R76). -/
def useKeys : RUse → List Nat
  | .vec r n _ => (List.range n).map (fun j => 256 + r.toNat + j)
  | .sc a _ => if a.toNat = 0 || a.toNat = 0x40 then [] else [a.toNat]
  | _ => []

/-- Outstanding work of the executing unit. -/
def pendOf (s : State) : List Pend :=
  match s.agent with
  | .group loc _ => match mget s.groups loc with | some g => g.pend | none => []
  | .quartz q => match mget s.quartz q with | some c => c.pend | none => []
  | .prologue n => match mget s.fes n with | some e => e.pro.pend | none => []

def setPend (s : State) (l : List Pend) : State :=
  match s.agent with
  | .group loc _ => updGroup s loc (fun g => { g with pend := l })
  | .quartz q => updQuartz s q (fun c => { c with pend := l })
  | .prologue n => updPro s n (fun e => { e with pend := l })

/-- The vector registers of group num of a team with a pending mark: destinations of its own deferred results, and of those
that a receiving group has issued for its lanes (R76, R78). -/
def vecMarks (s : State) (tid num : Nat) : List Nat :=
  match mget s.teams tid with
  | none => []
  | some t => t.groups.flatMap (fun loc =>
      match mget s.groups loc with
      | none => []
      | some h => (pendingKeys (h.pend.filter (fun p => h.team == tid && (h.num == num || (mget p.homes num).isSome)))).filter
          (fun k => decide (256 ≤ k)))

/-- The scoreboard keys with a pending mark for the issuing slot: its group's own, and those of the vector registers of the home
groups of its path (R44, R76). -/
def markedKeys (s : State) : List Nat :=
  pendingKeys (pendOf s) ++
  match s.agent with
  | .group loc sl =>
    match mget s.groups loc with
    | some g => (g.num :: (getSlot g sl).lent.map (·.1)).flatMap (vecMarks s g.team)
    | none => []
  | _ => []

/-- Whether a word names a register with a pending mark (R76, R78). -/
def hazard (s : State) (uses : List RUse) : Bool :=
  let keys := markedKeys s
  uses.any (fun u => (useKeys u).any (fun k => keys.contains k))

/-- Value of a path's in-flight counter: outstanding accesses, the returned ones that an older access still holds
included (R134). -/
def pathCount (l : List Pend) (p : Path) : Nat := (l.filter (fun x => x.path == some p)).length

/-- Value of a range-tagged counter (n < 8) or of the untagged counter (n = 8) (R127). -/
def covCount (l : List Pend) (n : Nat) : Nat := (l.filter (fun x => bit x.cov n && !x.returned)).length

/-- Lets the counters fall in path order: a returned access leaves once no older access of its path remains (R134). -/
def settlePaths (l : List Pend) : List Pend :=
  go l []
where
  go : List Pend → List Path → List Pend
    | [], _ => []
    | x :: t, held =>
      match x.path with
      | some p =>
        if x.returned && !held.contains p then go t held else x :: go t (p :: held)
      | none => if x.returned then go t held else x :: go t held

end Sys2Proof.Machine
end

