-- ==== Sys2Proof/Machine/Xlate.lean ====
section
/-! DEFINITION. Translation, ownership and invalidation (R369 to R390): the two-stage walk with its checks in order,
the page ownership table, accessed and dirty bits, the TLBs of combined translations, the walks in flight. A walk ends in the step of
the access that needs it; it may have read some of its entries in earlier steps (log 15). -/

namespace Sys2Proof.Machine

/-- Causes of R320 that a translation can raise. -/
def cNotmapped : Nat := 0x20
def cPerm : Nat := 0x21
def cFartier : Nat := 0x22
def cOwnership : Nat := 0x23
def cIntegrity : Nat := 0x02

/-- A translation context (R372). -/
abbrev Ctx := Ctxt

/-- What a translation gives: a physical address and kind, a fault with its stage and page, or a wait on a page in
flight (R374, order 4). -/
inductive XRes
  | ok (pa : Nat) (kind : Kind)
  | fault (code stage page : Nat)
  | wait
  deriving DecidableEq, Repr

/-- An ownership entry; an unlisted frame is free, zeroed, version 0 (log 6). -/
def freeOwn : Own := { cls := 0, part := 0, eid := 0, version := 0, zeroed := true, rst := false }
def ownOf (s : State) (frame : Nat) : Own := mgetD s.basalt.own frame freeOwn

/-- The table bits of an ownership entry (R379). -/
def ownWord (o : Own) : Nat :=
  o.cls + (if o.zeroed then 8 else 0) + 16 * o.part + 256 * o.eid + 2 ^ 24 * o.version + (if o.rst then 2 ^ 48 else 0)

inductive OwnRole | table1 | table2 | final
  deriving DecidableEq, Repr

/-- owncheck (R380). -/
def ownOk (s : State) (c : Ctx) (role : OwnRole) (pa : Nat) : Bool :=
  let o := ownOf s (pa / 65536)
  match role with
  | .table2 => o.cls == 1
  | r =>
    match c.eid with
    | some e => o.cls == 3 && o.eid == e && o.part == c.part && !(r == .final && o.rst)
    | none =>
      if c.hyp then r == .final && (o.cls == 1 || o.cls == 2)
      else o.cls == 2 && o.part == c.part

/-- The walk's index bits at a level: low bit (R370); levels 1 to 3. -/
def lvlShift (l : Nat) : Nat := if l = 1 then 42 else if l = 2 then 29 else 16
def lvlBits (stage l : Nat) : Nat := if stage = 2 && l = 1 then 4 else 13

/-- Fields of a page-table entry (R373). -/
def pteV (e : Nat) : Bool := bitN e 0
def pteTbl (e : Nat) : Bool := bitN e 1
def pteKind (e : Nat) : Nat := fldN e 2 2
def pteW (e : Nat) : Bool := bitN e 4
def pteX (e : Nat) : Bool := bitN e 5
def pteD (e : Nat) : Bool := bitN e 7
def pteTier (e : Nat) : Nat := fldN e 8 2
def pteU (e : Nat) : Bool := bitN e 10
def pteAddr (e : Nat) : Nat := fldN e 16 30 * 65536

/-- R374 order 2: a reserved bit or code, a misaligned block, a table pointer at level 3 or with [10:2] nonzero. -/
def pteBad (stage l e : Nat) : Bool :=
  fldN e 46 18 != 0 || fldN e 11 5 != 0 || pteKind e == 3 || (pteTbl e && l == 3)
  || (pteTbl e && fldN e 2 9 != 0) || (stage == 2 && pteU e)
  || (!pteTbl e && l < 3 && pteTier e == 0 && fldN e 16 (lvlShift l - 16) != 0)

/-- The integrity key that the slot of a frame's owner holds (R383, R384); 0 for a free frame, which has none. -/
def slotKey (s : State) (o : Own) : Nat :=
  if o.cls = 1 then s.basalt.hypKey
  else if o.cls = 2 then mgetD s.basalt.osKeys o.part 0
  else if o.cls = 3 then ((mget s.basalt.enclaves o.eid).bind (·.key)).elim 0 (·.integ)
  else if o.cls = 4 then s.basalt.fwKey else 0

/-- The seal key of an enclave (R386, R403, R448). -/
def sealKey (s : State) (eid : Nat) : Nat := ((mget s.basalt.enclaves eid).bind (·.key)).elim 0 (·.seals)

/-- The keys that Basalt draws next for an enclave (R448). -/
def nextKeys (s : State) : Keys :=
  let n := s.basalt.keys
  { xts0 := n, xts1 := n + 1, integ := n + 2, seals := n + 3 }

/-- Whether the line that holds a physical address verifies: it is undamaged, and its tag is of the slot and the version that its frame
has now (R384, R385). -/
def lineOk (s : State) (pa : Nat) : Bool :=
  let o := ownOf s (pa / 65536)
  match mget s.badLines (pa / 64) with
  | some bad => !bad
  | none => match mget s.stale (pa / 65536) with | some b => b == (slotKey s o, o.version) | none => true

/-- The lines that lie wholly in a range of physical addresses are written whole, under the slots and versions of their frames: they verify
again (R384). -/
def linesWritten (s : State) (pa n : Nat) : State :=
  let whole (l : Nat) : Bool := decide (pa ≤ 64 * l) && decide (64 * l + 64 ≤ pa + n)
  { s with badLines := s.stale.foldl (fun b f => (List.range 1024).foldl (fun b j =>
        if whole (1024 * f.1 + j) then mput b (1024 * f.1 + j) false else b) b) (s.badLines.filter (fun b => !whole b.1)) }

/-- What one stage of a walk gives: the output address and its leaf entry, none for an identity stage. -/
inductive StRes
  | ok (a : Nat) (leaf : Option Nat)
  | fault (code stage page : Nat)
  | wait
  deriving DecidableEq, Repr

/-- The frames and intermediate pages that a walk has used so far (R382, R388). -/
abbrev Used := List Nat × List Nat

/-- One stage-two walk from level l with table t (R370, R374, R376, R377). The fuel counts levels. -/
def stage2Go (c : Ctx) (x : Nat) (wr ft : Bool) : Nat → Nat → Nat → State → Used → StRes × State × Used
  | 0, _, _, s, u => (.fault cNotmapped 2 (x / 65536), s, u)
  | n + 1, l, t, s, u =>
    let p := t + 8 * fldN x (lvlShift l) (lvlBits 2 l)
    let page := x / 65536
    if !ownOk s c .table2 p then (.fault cOwnership 2 page, s, u)
    else
      let u : Used := (p / 65536 :: u.1, page :: u.2)
      if !lineOk s p then (.fault cIntegrity 2 page, s, u)
      else
        let e := readLe s.hbm p 8
        if !pteV e then (.fault cNotmapped 2 page, s, u)
        else if pteBad 2 l e then (.fault cNotmapped 2 page, s, u)
        else if pteTbl e then stage2Go c x wr ft n (l + 1) (pteAddr e) s u
        else if (wr && !pteW e) || (ft && !pteX e) then (.fault cPerm 2 page, s, u)
        else if pteTier e = 1 then (.wait, s, u)
        else if pteTier e = 2 then (.fault cFartier 2 page, s, u)
        else if pteTier e = 3 then (.fault cNotmapped 2 page, s, u)
        else
          let e' := e ||| 0x40 ||| (if wr then 0x80 else 0)
          (.ok (pteAddr e + x % 2 ^ lvlShift l) (some e'), { s with hbm := writeLe s.hbm p 8 e' }, u)

/-- Stage two of an intermediate address (R371, R377). -/
def stage2 (c : Ctx) (x : Nat) (wr ft : Bool) (s : State) (u : Used) : StRes × State × Used :=
  match c.root2 with
  | none => (.ok x none, s, u)
  | some r => stage2Go c x wr ft 3 1 r s u

/-- One stage-one walk from level l: each table address is itself translated through stage two (R377). -/
def stage1Go (c : Ctx) (x : Nat) (wr ft ign : Bool) : Nat → Nat → Nat → State → Used → StRes × State × Used
  | 0, _, _, s, u => (.fault cNotmapped 1 (x / 65536), s, u)
  | n + 1, l, t, s, u =>
    let ip := t + 8 * fldN x (lvlShift l) (lvlBits 1 l)
    let page := x / 65536
    match stage2 c ip false false s u with
    | (.fault k st pg, s, u) => (.fault k st pg, s, u)
    | (.wait, s, u) => (.wait, s, u)
    | (.ok p _, s, u) =>
      if !ownOk s c .table1 p then (.fault cOwnership 2 (ip / 65536), s, u)
      else
        let u : Used := (p / 65536 :: u.1, u.2)
        if !lineOk s p then (.fault cIntegrity 1 page, s, u)
        else
          let e := readLe s.hbm p 8
          if !pteV e then (.fault cNotmapped 1 page, s, u)
          else if pteBad 1 l e then (.fault cNotmapped 1 page, s, u)
          else if pteTbl e then stage1Go c x wr ft ign n (l + 1) (pteAddr e) s u
          else if (wr && !pteW e) || (ft && !pteX e) || (c.l0 && !ign && !pteU e) then (.fault cPerm 1 page, s, u)
          else if pteTier e = 1 then (.wait, s, u)
          else if pteTier e = 2 then (.fault cFartier 1 page, s, u)
          else if pteTier e = 3 then (.fault cNotmapped 1 page, s, u)
          else
            let e' := e ||| 0x40 ||| (if wr then 0x80 else 0)
            (.ok (pteAddr e + x % 2 ^ lvlShift l) (some e'), { s with hbm := writeLe s.hbm p 8 e' }, u)

def stage1 (c : Ctx) (x : Nat) (wr ft ign : Bool) (s : State) (u : Used) : StRes × State × Used :=
  match c.root1 with
  | none =>
    if x / 2 ^ 46 ≠ 0 then (.fault cNotmapped 1 (x / 65536), s, u) else (.ok x none, s, u)
  | some r => stage1Go c x wr ft ign 3 1 r s u

/-- Kind from its PTE code (R373). -/
def kindOf (n : Nat) : Kind := if n = 0 then .s else if n = 1 then .r else .u

/-- The entry that the holder of a context has for a page (R378). -/
def tlbFind (s : State) (c : Ctx) (page : Nat) : Option Tlb :=
  s.tlb.find? (fun t => t.unit == c.unit && t.part == c.part && t.tag == c.tag && t.page == page)

/-- The bytes an outstanding access reads or writes. -/
def pendLocs (p : Pend) : List MLoc :=
  match p.act with
  | .load _ l => l.flatMap (·.locs)
  | .frag _ _ l => l
  | .store l => l.map (·.1)
  | .atomic _ _ _ l => l.flatMap (fun x => x.1.locs)
  | _ => []

/-- Whether an access of any unit is outstanding on a frame, of those that a test of number and frame selects. -/
def framesUsed (s : State) (q : Nat → Nat → Bool) : Bool :=
  let hit (p : Pend) : Bool := !p.returned && (pendLocs p).any (fun x => match x with
    | .hbm pa => q p.id (pa / 65536) | _ => false)
  s.groups.any (fun g => g.2.pend.any hit) || s.quartz.any (fun q => q.2.pend.any hit)
  || s.fes.any (fun f => f.2.pro.pend.any hit)

/-- Translations leave their holder: those through which accesses are still in flight are kept apart, with the number below which the
accesses' lie (R362). -/
def tlbLeave (s : State) (l : List Tlb) : State :=
  { s with tlb := s.tlb.filter (fun o => !l.contains o),
           tlbGone := (l.map (fun o => (o, s.fresh)) ++ s.tlbGone).filter (fun e => framesUsed s (fun id f => decide (id < e.2) && f == e.1.frame)) }

/-- A translation enters its holder: it replaces the one of that page. The TLB of an array core holds 1,024; which one a further one
replaces is not architectural, a free value (R378, log 15). -/
def tlbFill (s : State) (t : Tlb) : State :=
  let s := tlbLeave s (s.tlb.filter (fun o => o.unit == t.unit && o.part == t.part && o.tag == t.tag && o.page == t.page))
  match t.unit with
  | .core _ =>
    let held := s.tlb.filter (fun o => o.unit == t.unit)
    match (if held.length < 1024 then none else held[Config.tlbVictim s.fresh % 1024]?) with
    | some v => let s := tlbLeave s [v]; { s with tlb := t :: s.tlb, fresh := s.fresh + 1 }
    | none => { s with tlb := t :: s.tlb }
  | _ => { s with tlb := t :: s.tlb }

/-! ### Walks in flight (R378, R389) -/

/-- A walk that has read nothing. -/
def newWalk (c : Ctx) (va : Nat) (acc : Acc) (ign : Bool) (n : Nat) : Walk :=
  { c := c, va := va, acc := acc, ign := ign, units := [], n := n, level := 1, table := c.root1.getD 0, frames := [], ipas := [] }

/-- The walker that serves a holder of translations: the cluster's for an array core, its own for every other (R378). -/
def walkerOf : TUnit → TUnit
  | .core n => .core (n / 16)
  | u => u

/-- Whether a walk is the one that an access needs: requests of one cluster for one page, in one context and of one access class, share it
(R378). -/
def walkFor (c : Ctx) (va : Nat) (acc : Acc) (ign : Bool) (w : Walk) : Bool :=
  { w.c with unit := walkerOf w.c.unit } == { c with unit := walkerOf c.unit } && w.va / 65536 == va / 65536 && w.acc == acc && w.ign == ign

/-- The walks and waiting requests of a cluster's walker; none for a holder that has a walker of its own. -/
def clusterWalks (s : State) (u : TUnit) : List Walk :=
  match u with
  | .core _ => s.walks.filter (fun w => walkerOf w.c.unit == walkerOf u)
  | _ => []

/-- Whether the walk of an access runs, or could begin at once: a cluster walker runs 64, and further requests wait in arrival order
(R378). -/
def walkRuns (s : State) (c : Ctx) (va : Nat) (acc : Acc) (ign : Bool) : Bool :=
  let l := clusterWalks s c.unit
  decide (l.length < 64) || (l.take 64).any (walkFor c va acc ign)

/-- The request of an access joins the walk that it can share, or waits as a new one (R378). -/
def walkJoin (s : State) (c : Ctx) (va : Nat) (acc : Acc) (ign : Bool) : State :=
  if s.walks.any (walkFor c va acc ign) then
    { s with walks := s.walks.map (fun w =>
        if walkFor c va acc ign w && w.c.unit != c.unit && !w.units.contains c.unit then { w with units := w.units ++ [c.unit] } else w) }
  else { s with walks := s.walks ++ [newWalk c va acc ign 1] }

/-- A walk that starts again (R389). -/
def Walk.again (w : Walk) : Walk :=
  { w with n := w.n + 1, level := 1, table := w.c.root1.getD 0, frames := [], ipas := [] }

/-- The walk that an access goes on with: the one in flight, else a new one. -/
def walkOf (s : State) (c : Ctx) (va : Nat) (acc : Acc) (ign : Bool) : Walk :=
  (s.walks.find? (walkFor c va acc ign)).getD (newWalk c va acc ign 1)

/-- The rest of a walk's stage one. -/
def walkStage1 (w : Walk) (va : Nat) (wr ft : Bool) (s : State) : StRes × State × Used :=
  match w.c.root1 with
  | none => stage1 w.c va wr ft w.ign s ([], [])
  | some _ => stage1Go w.c va wr ft w.ign (4 - w.level) w.level w.table s (w.frames, w.ipas)

/-- What a walk has used, as an entry of it would have it. -/
def Walk.entry (w : Walk) : Tlb :=
  { unit := w.c.unit, part := w.c.part, tag := w.c.tag, page := w.va / 65536, frame := 0, kind := 0, w := false, x := false, u := false,
    d := false, frames := w.frames, ipas := w.ipas }

/-- Whether an invalidation covers an entry that a walk has already used (R389). -/
def walkHit (p : Tlb → Bool) (w : Walk) : Bool := w.level != 1 && p w.entry

/-- Whether an invalidation covers a walk that is not doomed, the ninth of its access, for which it waits (R389). -/
def ninthWalk (s : State) (p : Tlb → Bool) : Bool := s.walks.any (fun w => walkHit p w && decide (9 ≤ w.n))

/-- An invalidation: the held translations that it covers are removed, the walks that used an entry of it start again (R388, R389). -/
def invalidate (s : State) (p : Tlb → Bool) : State :=
  { s with tlb := s.tlb.filter (fun t => !p t),
           walks := s.walks.map (fun w => if walkHit p w && decide (w.n < 9) then w.again else w) }

/-- The next entry of a walk's stage one is read: a pointer to the next table takes the walk on, at anything else it stays, to end with
its access (R377). -/
def walkNext (s : State) (w : Walk) : Walk × State :=
  let ip := w.table + 8 * fldN w.va (lvlShift w.level) (lvlBits 1 w.level)
  match stage2 w.c ip false false s (w.frames, w.ipas) with
  | (.ok p _, s, u) =>
    let e := readLe s.hbm p 8
    if w.level < 3 && ownOk s w.c .table1 p && lineOk s p && pteV e && pteTbl e && !pteBad 1 w.level e then
      ({ w with level := w.level + 1, table := pteAddr e, frames := p / 65536 :: u.1, ipas := u.2 }, s)
    else (w, s)
  | (_, s, _) => (w, s)

/-- The holders that share a walk get its result (R378). -/
def walkShared (s : State) (w : Walk) (t : Tlb) : State :=
  ((w.c.unit :: w.units).filter (· != t.unit)).foldl (fun s u => tlbFill s { t with unit := u }) s

/-- R452: while an enclave is recorded, a TLB fill in its context sets the bit of its final frame in the record. -/
def recordFill (s : State) (c : Ctx) (pa : Nat) : State :=
  match c.eid.bind (fun e => mget s.shale.recording e) with
  | some frames =>
    let n := fldN pa 16 24
    match frames[n / 8 / 65536]? with
    | some f =>
      let a := f * 65536 + n / 8 % 65536
      { s with hbm := writeByte s.hbm a (readByte s.hbm a ||| BitVec.ofNat 8 (2 ^ (n % 8))) }
    | none => s
  | none => s

/-- translate(c, va, acc) of R377: a held translation that permits the access is used, else the walk is made, or the one in flight
ended, and its result held by every holder that asked for it. ign leaves the u bit unchecked (R111). -/
def translate (s : State) (c : Ctx) (va : Nat) (acc : Acc) (ign : Bool) : XRes × State :=
  let wr := acc == .write || acc == .atomic
  let ft := acc == .fetch
  if va / 2 ^ 55 ≠ 0 then (.fault cNotmapped 1 (va / 65536), s)
  else
    let hit := (tlbFind s c (va / 65536)).filter (fun t =>
      !(wr && !(t.w && t.d)) && !(ft && !t.x) && !(c.l0 && !ign && !t.u))
    match hit with
    | some t => (.ok (t.frame * 65536 + va % 65536) (kindOf t.kind), s)
    | none =>
      if !walkRuns s c va acc ign then (.wait, walkJoin s c va acc ign)
      else
      let w := walkOf s c va acc ign
      let s := { s with walks := s.walks.filter (fun x => !walkFor c va acc ign x) }
      match walkStage1 w va wr ft s with
      | (.fault k st pg, s, _) => (.fault k st pg, s)
      | (.wait, s, _) => (.wait, s)
      | (.ok ipa e1, s, u) =>
        match stage2 c ipa wr ft s u with
        | (.fault k st pg, s, _) => (.fault k st pg, s)
        | (.wait, s, _) => (.wait, s)
        | (.ok pa e2, s, u) =>
          if !ownOk s c .final pa then (.fault cOwnership 2 (ipa / 65536), s)
          else
            let leaves := e1.toList ++ e2.toList
            let kind := leaves.foldl (fun k e => min k (pteKind e)) (if leaves.isEmpty then 0 else 2)
            let t : Tlb :=
              { unit := c.unit, part := c.part, tag := c.tag, page := va / 65536, frame := pa / 65536, kind := kind,
                w := leaves.all pteW, x := leaves.all pteX,
                u := match e1 with | some e => pteU e | none => true,
                d := leaves.all pteD, frames := pa / 65536 :: u.1, ipas := u.2 }
            (.ok pa (kindOf kind), recordFill (tlbFill (walkShared s w t) t) c pa)

/-- A walk is asked for, or one that runs reads its next entry; at its last one it ends, with its result held (R377, R378). A walk that
ends without one is made again for the access that needs it. -/
def walkStep (s : State) (c : Ctx) (va : Nat) (acc : Acc) (ign : Bool) : State :=
  if 2 ^ 55 ≤ va || c.root1.isNone then s
  else
    match s.walks.find? (walkFor c va acc ign) with
    | none => walkJoin s c va acc ign
    | some w =>
      let s := walkJoin s c va acc ign
      if !walkRuns s c va acc ign then s
      else
        let r := walkNext s w
        if r.1 == w then (translate r.2 c va acc ign).2
        else { r.2 with walks := r.2.walks.map (fun x => if walkFor c va acc ign x then { r.1 with units := x.units } else x) }

/-- The stage-two root that the hypervisor sets for a partition at its front end (R372, R412). FES2 has no enable
bit, so it always names a table (log 17). -/
def partRoot2 (s : State) (part : Nat) : Nat :=
  match mget s.fes part with
  | some f => fldN f.fes2.toNat 16 30 * 65536
  | none => 0

/-- The context of an enclave at L0 (R372). -/
def encCtx (s : State) (eid : Nat) : Ctx :=
  match mget s.basalt.enclaves eid with
  | some e =>
    { eid := some eid, part := e.part, tag := 0xF000 + eid, hyp := false, root1 := some e.root,
      root2 := some (partRoot2 s e.part), l0 := true, unit := .other }
  | none =>
    { eid := some eid, part := 16, tag := 0xF000 + eid, hyp := false, root1 := none, root2 := none, l0 := true, unit := .other }

/-- Whether tlbinv covers a translation (R362, R388): kinds 0 to 4. -/
def tlbCovers (kind a b : Nat) (t : Tlb) : Bool :=
  match kind with
  | 0 => t.tag == b % 65536
  | 1 => t.tag == b % 65536 && t.page == fldN a 16 39
  | 2 => t.part == b % 16
  | 3 => t.part == b % 16 && t.ipas.contains (fldN a 16 30)
  | _ => true

/-- tlbinv's removal of held translations (R362, R388). -/
def tlbDrop (s : State) (kind a b : Nat) : State := invalidate s (tlbCovers kind a b)

/-- Removal of every translation whose walk or result used a frame (R382). -/
def tlbDropFrame (s : State) (frame : Nat) : State := invalidate s (fun t => t.frames.contains frame)

def setOwn (s : State) (frame : Nat) (o : Own) : State :=
  { s with basalt := { s.basalt with own := msetD s.basalt.own frame o freeOwn } }

/-- An owner change after which a frame still holds its old lines: they carry the tags of the old slot and version (R384). -/
def reown (s : State) (frame : Nat) (o : Own) : State :=
  let b := (slotKey s (ownOf s frame), (ownOf s frame).version)
  { setOwn s frame o with
    stale := if (mget s.stale frame).isSome then s.stale else mput s.stale frame b,
    badLines := s.badLines.filter (fun x => x.2 || decide (x.1 / 1024 ≠ frame)) }

/-- Every line of a frame has been written under its slot and version: all verify (R384). -/
def freshFrame (s : State) (frame : Nat) : State :=
  { s with badLines := s.badLines.filter (fun b => decide (b.1 / 1024 ≠ frame)), stale := mdel s.stale frame }

/-- A Basalt report (R361): the newest 64 unread are kept. -/
def report (s : State) (kind obj : Nat) : State :=
  let r := w64 (kind + 65536 * obj + 2 ^ 32 * (s.time % 2 ^ 32))
  let l := s.basalt.reports ++ [r]
  { s with basalt := { s.basalt with
      reports := if 64 < l.length then l.drop 1 else l, written := (s.basalt.written + 1) % 65536 } }

end Sys2Proof.Machine
end

