-- ==== Sys2Proof/Machine/Trap.lean ====
section
/-! DEFINITION. Taking an exception. A cause of a group (R11, R52, R320 to R324) is recorded in CAUSE and CADDR and
routed: to the in-enclave handler (entered by the event HANDLER_ENTRY), to system software through the stop ring, to
the page-request queue, or to the debugger. A cause or an interrupt of a Quartz core is taken at its target level, with
an enclave thread sealed into its save area (R350, R355 to R358). The returns, eret and trap.ret, stand in
Machine/QMem.lean and Machine/Traps.lean. -/

namespace Sys2Proof.Machine

/-! ### Causes (R320) -/

def cMachineCheck : Nat := 0x01
def cBounds : Nat := 0x24
def cAlign : Nat := 0x25
def cOverread : Nat := 0x26
def cBadHandle : Nat := 0x27
def cAperture : Nat := 0x28
def cIllegalOpcode : Nat := 0x40
def cIllegalReg : Nat := 0x41
def cPairing : Nat := 0x42
def cReservedBits : Nat := 0x43
def cPrivilege : Nat := 0x44
def cClaimDeadlock : Nat := 0x80
def cBarrierMisuse : Nat := 0x81
def cDstackOverflow : Nat := 0x82
def cBreak : Nat := 0xA0
def cStep : Nat := 0xA1
def cWatch : Nat := 0xA2
def cSofttrap : Nat := 0xA3

/-- Page causes (R391). -/
def pageCause (k : Nat) : Bool := k == cNotmapped || k == cFartier || k == cOwnership

/-- A cause without an address: CADDR space 5 and the PC of the word (R70). -/
def trapAt (code : Nat) (pc : W64) : Trap := { code := code, lane := none, space := 5, addr := pc.toNat, n := 0 }

/-- CAUSE image of a cause (R70). -/
def causeImage (t : Trap) : W64 :=
  match t.lane with
  | none => w64 (t.code % 256)
  | some l => w64 (t.code % 256 + 256 * (l % 64) + 2 ^ 14)

/-- CADDR image of a cause (R70). -/
def caddrImage (t : Trap) : W64 := w64 (t.addr % 2 ^ 55 + 2 ^ 55 * (t.space % 8))

/-- Whether a cause's word has completed, so that it resumes at PC + 8 (R323): trap, brk and tfence, and STEP. -/
def completes (code : Nat) : Bool :=
  code == cSofttrap || code == cBreak || code == cStep || (0x60 ≤ code && code ≤ 0x65)

/-- The enclave of a group's launch. -/
def groupEid (s : State) (g : Group) : Nat :=
  match mget s.launches g.launch with | some l => l.eid | none => 0

/-- The context in which a group's core translates for it (R372, R378). -/
def groupCtx (s : State) (loc : Nat) (g : Group) : Ctx := { encCtx s (groupEid s g) with unit := .core (locCore loc) }

def groupDebug (s : State) (g : Group) : Bool :=
  match mget s.basalt.enclaves (groupEid s g) with | some e => e.debug | none => false

def groupHandler (s : State) (g : Group) : W64 :=
  match mget s.launches g.launch with | some l => l.handler | none => 0

/-! ### Stops and page requests -/

/-- A stop of a group waits for the stop ring of the front end that created its team; nothing is recorded while the ring is
off (R440). -/
def recordStop (s : State) (loc : Nat) (g : Group) (code : Nat) (pc caddr : W64) : State :=
  match mget s.launches g.launch with
  | none => s
  | some l =>
    let r : StopRec :=
      { loc := loc, eid := l.eid, dbg := groupDebug s g, launch := g.launch,
        team := match mget s.teams g.team with | some t => t.index | none => 0,
        num := g.num, code := code, pc := pc, caddr := caddr, time := s.time }
    updFe s l.fe (fun f => if f.festop == 0 then f else { f with stops := f.stops ++ [r] })

/-- A group stops for system software: its record waits for the stop ring (R440). -/
def stopForSystem (s : State) (loc : Nat) (pc : W64) : State :=
  match mget s.groups loc with
  | none => s
  | some g => recordStop (updGroup s loc (fun g => { g with stop := .system })) loc g (g.cause.toNat % 256) pc g.caddr

/-- Positions held in the page-request queue: by all partitions, and by one (R392). -/
def prHeld (q : PrQueue) : Nat := (q.tail + 2 ^ 13 - q.head) % 2 ^ 13

/-- The entries that hold positions: those that the head has not passed. -/
def prHolding (q : PrQueue) : List PageReq := q.entries.filter (fun e => !e.passed)

/-- Whether a fault of a partition finds a position (R392): O_p below 16, or X below 3,840. -/
def prRoom (q : PrQueue) (part : Nat) : Bool :=
  let h := prHolding q
  let cnt (p : Nat) := (h.filter (fun e => e.part == p)).length
  let x := h.length - ((List.range 16).map (fun p => min (cnt p) 16)).foldl (· + ·) 0
  decide (cnt part < 16) || decide (x < 3840)

/-- The 16-byte image of a page-request entry (R391). -/
def prWord0 (e : PageReq) : Nat :=
  (if e.enc then e.eid + 4096 else 0) + 2 ^ 16 * e.part + 2 ^ 20 * (e.stage - 1) + 2 ^ 21 * e.acc + 2 ^ 24 * e.code
    + 2 ^ 32 * (e.seq % 2 ^ 32)
def prWord1 (e : PageReq) : Nat := (if e.enc || e.stage = 2 then 0 else e.asid) + 65536 * e.page

def accCode : Acc → Nat
  | .read => 0 | .write => 1 | .atomic => 2 | .fetch => 3

/-- Reports a translation fault of a context, the page number cut to the field that an entry has for it: it joins an unresolved entry with the same context, stage, page and
access, or takes a position and is written (R391, R392). Answers the seq it waits on, none without a position. -/
def pageRequest (s : State) (c : Ctx) (code stage page : Nat) (acc : Acc) : Option Nat × State :=
  let q := s.prq
  let page := page % 2 ^ 39
  let asid := if c.eid.isSome then 0 else c.tag
  match q.entries.find? (fun e => e.enc == c.eid.isSome && e.eid == c.eid.getD 0 && e.part == c.part
          && e.asid == asid && e.stage == stage && e.page == page && e.acc == accCode acc) with
  | some e => (some e.seq, s)
  | none =>
    if prRoom q c.part then
      let e : PageReq :=
        { seq := q.seq, idx := q.tail, enc := c.eid.isSome, eid := c.eid.getD 0, part := c.part, asid := asid,
          stage := stage, acc := accCode acc, code := code, page := page, passed := false }
      let p := q.base + 16 * (q.tail % 4096)
      let hbm := writeLe (writeLe s.hbm p 8 (prWord0 e)) (p + 8) 8 (prWord1 e)
      let q' : PrQueue :=
        { q with tail := (q.tail + 1) % 2 ^ 13, seq := (q.seq + 1) % 2 ^ 32, entries := q.entries ++ [e] }
      (some q.seq, { s with hbm := hbm, prq := q' })
    else (none, s)

/-! ### A cause of a group -/

/-- Whether the debugger takes BREAK, STEP and WATCH of a group (R324). -/
def debuggerTakes (s : State) (g : Group) (code : Nat) : Bool :=
  (code == cBreak || code == cStep || code == cWatch) && g.armed && groupDebug s g

/-- Codes of the slot states (R406). -/
def SlotState.code : SlotState → Nat
  | .free => 0 | .running => 1 | .joined => 2 | .demoted => 3 | .lent => 4 | .regrouping => 5

/-- Whether the debugger has halted a group (R488). -/
def isHalted (g : Group) : Bool := match g.stop with | .halted _ => true | _ => false

/-- The event record of a halted group (R489). -/
def haltRecord (s : State) (loc : Nat) (g : Group) : List W64 :=
  let slotPc (p : Slot) : W64 := if p.st == .free then 0 else p.pc
  [w64 (g.cause.toNat % 256 + (if g.stopSlot then 256 else 0) + 512 * SlotState.code g.slot0.st
      + 4096 * SlotState.code g.slot1.st + 2 ^ 15 * g.stack.length + 2 ^ 32 * g.causeN),
   w64 (loc + 2 ^ 18 * groupEid s g), slotPc g.slot0, slotPc g.slot1, g.slot0.exec, g.slot1.exec, g.caddr,
   w64 (s.dbox.nextSeq % 2 ^ 32)]

/-- The debugger halts a group; its record waits for the event ring (R488). -/
def haltGroup (s : State) (loc : Nat) (g : Group) : State :=
  { setGroup s loc { g with stop := .halted false } with
    dbox := { s.dbox with queue := s.dbox.queue ++ [haltRecord s loc g], nextSeq := s.dbox.nextSeq + 1 } }

/-- PC of the word that raised the cause: the slot's, or for a completed word its recorded one (R70, R323). -/
def causePc (g : Group) : W64 :=
  if completes (g.cause.toNat % 256) then w64 (g.caddr.toNat % 2 ^ 55) else (getSlot g g.stopSlot).pc

/-- Records a cause in CAUSE and CADDR and routes it (R11, R52, R70, R324, R326). The word's slot keeps its PC, or
has moved past a completed trap word; a page fault (pg) parks the group on its request. A cause that arises while the
group is being saved, or while it is stopped for system software or halted, is dropped (R395, R396). A cause ends a debugger's step
(R490). -/
def takeCause (s : State) (loc : Nat) (sl : Bool) (t : Trap) (pg : Option Nat) : State :=
  match mget s.groups loc with
  | none => s
  | some g =>
    let g1 := { g with cause := causeImage t, caddr := caddrImage t, causeN := t.n, stopSlot := sl }
    let page := t.code == cNotmapped || t.code == cFartier || t.code == cOwnership
    let g1 := { g1 with stepping := g.stepping && page }
    if g.stop == .saving || g.stop == .system || isHalted g then s
    else if debuggerTakes s g t.code && !g.handler then
      haltGroup s loc g1
    else if page then
      match pg with
      | some id => setGroup s loc { g1 with stop := .page id }
      | none => setGroup s loc (setSlot g1 sl { getSlot g1 sl with wait := .position })
    else if t.code == cMachineCheck || g.handler || groupHandler s g = 0 then
      stopForSystem (setGroup s loc g1) loc (causePc g1)
    else
      setGroup s loc { g1 with stop := .handler }

/-- A cause that what other groups do gives to a slot (R311, R312, R317): a group that issues nothing, or whose slot is frozen beside
its handler, takes none; its word issues again later, and the cause then arises again (R325, R395). -/
def teamCause (s : State) (loc : Nat) (sl : Bool) (t : Trap) : State :=
  match mget s.groups loc with
  | some g => if g.stop == .none && !g.handler then takeCause s loc sl t none else s
  | none => s

/-! ### Quartz cores (R345, R350, R355 to R357) -/

/-- Special registers held per core: key of number n in the bank of a level (R355). Unbanked numbers use bank 0. -/
def srKey (bank n : Nat) : Nat := 256 * bank + n

/-- Reset values: TCMP all ones, every other register 0 (R355, log 6). -/
def srDefault (n : Nat) : W64 := if n = 0x8A then BitVec.allOnes 64 else 0

def srGet (q : Quartz) (bank n : Nat) : W64 := mgetD q.sr (srKey bank n) (srDefault n)
def srSet (q : Quartz) (bank n : Nat) (v : W64) : Quartz :=
  { q with sr := msetD q.sr (srKey bank n) v (srDefault n) }

/-- ETHR names the running enclave thread while TID says so: the thread context of a core is kept in register number
0x12 (R353): [27:16] thread, [43:32] EID, [44] inside. -/
def qInside (q : Quartz) : Bool := bit (srGet q 0 0x12) 44 && q.level == 0
def qEid (q : Quartz) : Nat := fldN (srGet q 0 0x12).toNat 32 12
def qThread (q : Quartz) : Nat := fldN (srGet q 0 0x12).toNat 16 12

/-- The context in which a core translates at its level (R372). -/
def quartzCtx (s : State) (q : Quartz) : Ctx :=
  let part := (srGet q 0 0x8F).toNat % 16
  let ttb2 := (srGet q 0 0x8E).toNat
  let root2 := if bitN ttb2 0 then some (fldN ttb2 16 30 * 65536) else none
  if qInside q then encCtx s (qEid q)
  else if 2 ≤ q.level then
    { eid := none, part := part, tag := 0x10000, hyp := true, root1 := none, root2 := root2, l0 := false, unit := .other }
  else
    let ttb1 := (srGet q 0 0x8C).toNat
    { eid := none, part := part, tag := (srGet q 0 0x8D).toNat, hyp := false,
      root1 := if bitN ttb1 0 then some (fldN ttb1 16 30 * 65536) else none, root2 := root2, l0 := q.level == 0, unit := .other }

/-- Level at which a cause is taken (R357); stage is that of a translation fault, else 0. -/
def targetLevel (level code stage : Nat) : Nat :=
  if 2 ≤ level then 2
  else if code == cMachineCheck then 2
  else if code == cOwnership then 2
  else if (code == cNotmapped || code == cPerm || code == cFartier) && stage == 2 then 2
  else if level == 0 then 1
  else if code == cSofttrap || code == cBreak || code == cStep || code == cWatch then 2
  else 1

/-- The VA of a thread's save area (R349). -/
def tsaVa (e : Enclave) (t : Nat) : Nat := e.tsa + 1024 * t

/-- Bytes of a register file in a trap frame or save area: s1-s63 then k1-k15 (R325, R349). -/
def regImage (s k : KMap W64) : List Byte :=
  (List.range 63).flatMap (fun j => leBytes 8 (sRead s (j + 1)).toNat)
  ++ (List.range 15).flatMap (fun j => leBytes 8 (kRead k (j + 1)).toNat)

/-- Writes whole lines at a virtual address of a context, page by page being one translation since a save area lies in one
frame (R349); the lines verify again (R384). False when the translation fails. -/
def writeVirt (s : State) (c : Ctx) (va : Nat) (l : List Byte) : Bool × State :=
  match translate s c va .write true with
  | (.ok pa _, s) =>
    (true, linesWritten { s with hbm := writeBytes s.hbm pa l } pa l.length)
  | (_, s) => (false, s)

/-- Whether an entry of a core must wait: it would save an enclave thread whose save area lies in a page in flight (R350, R374). -/
def sealWaits (s : State) (q : Quartz) : Bool :=
  qInside q && (match (mget s.basalt.enclaves (qEid q)).filter (fun e => !e.ending) with
    | some e => (translate s (encCtx s (qEid q)) (tsaVa e (qThread q)) .write true).1 == .wait
    | none => false)

/-- Whether a core still waits for deferred results, or for the page of a save area, so that no entry may be made (R350, R357). -/
def entryWaits (s : State) (q : Quartz) : Bool := q.pend.any (fun p => !p.returned && p.dst != .none) || sealWaits s q

/-- Steps 1 and 2 of R350: the enclave thread's state goes to its save area, and its registers to zero, s1-s8 kept for
a trap n. A thread of an ended enclave leaves nothing. -/
def sealThread (s : State) (q : Quartz) (resume fault : W64) (soft : Bool) : State × Quartz :=
  match (mget s.basalt.enclaves (qEid q)).filter (fun e => !e.ending) with
  | none => (s, { q with s := [], k := [], divzero := false })
  | some e =>
    let t := qThread q
    let th := mgetD e.th t { expected := 0, soft := false }
    let seq := (th.expected + 1) % 2 ^ 32
    let img := leBytes 8 resume.toNat ++ leBytes 8 fault.toNat ++ leBytes 8 (if q.divzero then 1 else 0)
      ++ List.replicate 40 0#8 ++ regImage q.s q.k ++ leBytes 8 seq ++ List.replicate 328 0#8
    let (_, s) := writeVirt s (encCtx s (qEid q)) (tsaVa e t) img
    let e' : Enclave := { e with th := mput e.th t { expected := seq, soft := soft }, tsaLeft := e.tsaLeft.filter (· != t) }
    let s := { s with basalt := { s.basalt with enclaves := mput s.basalt.enclaves (qEid q) e' } }
    let keep := fun (n : Nat) => soft && decide (n ≤ 8)
    (s, { q with s := q.s.filter (fun x => keep x.1), k := [], divzero := false })

/-- Entry of a Quartz core at level X (R350, R356, R357): code, irq, exit and n as recorded; TPC the resume PC, or, of an enclave
thread, its save area's pc (R351). A zero TVEC halts the core and is reported. -/
def quartzEntry (s : State) (qn : Nat) (x code n : Nat) (irq exit : Bool) (addr : W64) (resume sealedPc pc : W64)
    (memory soft : Bool) : State :=
  match mget s.quartz qn with
  | none => s
  | some q =>
    let inside := qInside q
    let eid := if inside then qEid q else 0
    let cause := w64 (code % 256 + 256 * q.level + (if inside then 2 ^ 10 else 0) + (if exit then 2 ^ 11 else 0)
      + (if irq then 2 ^ 12 else 0) + 2 ^ 16 * (n % 65536) + 2 ^ 32 * eid)
    let (s, q1) := if inside then sealThread s q sealedPc pc soft else (s, q)
    let q1 := if inside then srSet q1 0 0x8B (w64 (eid + 2 ^ 16 * qThread q + 2 ^ 63)) else q1
    let addr := if inside then (if memory then addr &&& 0xFFFFFFFFFFFF0000#64 else 0) else addr
    let tpc := if inside then 0 else resume
    let pie := (srGet q1 x 0x87).toNat % 2
    let q1 := srSet q1 x 0x82 cause
    let q1 := srSet q1 x 0x83 addr
    let q1 := srSet q1 x 0x84 tpc
    let q1 := srSet q1 x 0x85 (w64 (q.level + 4 * pie))
    let q1 := srSet q1 x 0x87 0
    let q1 := srSet q1 0 0x12 0
    let vec := srGet q x 0x81
    let q1 := { q1 with level := x, pc := vec, parked := false, halted := vec == 0 }
    let s := { s with quartz := mput s.quartz qn q1 }
    if vec = 0 then report s 3 qn else s

/-- TADDR of an entry without an address: a free value (R357, log 18). -/
def freeAddr (s : State) : W64 × State := (Config.freeTaddr s.fresh, { s with fresh := s.fresh + 1 })

/-- A cause raised by the word of a Quartz core (R357). stage is that of a translation fault. A trap, a brk or an exit has completed, so
that TPC is PC + 8; an enclave thread replays every word but a trap n, which alone keeps s1 to s8 (R350, R351). The service cores and
Basalt (numbers 32 and above) run firmware at L3 only: their causes halt them (R345, log 18). -/
def quartzCause (s : State) (qn : Nat) (t : Trap) (stage : Nat) (exit : Bool) : State :=
  match mget s.quartz qn with
  | none => s
  | some q =>
    if 3 ≤ q.level then { s with quartz := mput s.quartz qn { q with halted := true } }
    else
      let x := targetLevel q.level t.code stage
      let soft := t.code == cSofttrap && !exit
      let resume := if exit || t.code == cSofttrap || t.code == cBreak then q.pc + 8 else q.pc
      let memory := 0x20 ≤ t.code && t.code ≤ 0x28
      let (addr, s) := if t.space = 5 && !memory then freeAddr s else (w64 t.addr, s)
      let s := quartzEntry s qn x t.code t.n false exit addr resume (if soft then q.pc + 8 else q.pc) q.pc memory soft
      if t.code == cMachineCheck && q.level != 1 then report s 4 qn else s

end Sys2Proof.Machine
end

