-- ==== Sys2Proof/Machine/Sched.lean ====
section
/-! DEFINITION. Issue and scheduling (R24 to R31, R46, R47): which slot may issue, when a group is parked, the exchange
of the active and pending sets, the round-robin choice, the spin detector. -/

namespace Sys2Proof.Machine

/-! ### Waits -/

/-- Deferred results of a group that have not returned, a claim's grant among them (R75, R79). -/
def deferredLeft (g : Group) : Bool :=
  g.pend.any (fun p => !p.returned && p.dst != .none) || g.slot0.wait == .claim || g.slot1.wait == .claim

/-- The barrier of a team; unlisted: phase 0, no arrival (R308). -/
def noBar : Bar := { phase := 0, count := 0, arrived := 0 }
def teamBar (s : State) (tid b : Nat) : Bar :=
  match mget s.teams tid with | some t => mgetD t.bars b noBar | none => noBar

/-- Whether a queue's first element is ready to be popped (R281). -/
def queueReady (g : Group) (q : Nat) : Bool :=
  match mgetD g.queue q [] with | e :: _ => e.ready | [] => false

/-- Whether the other slot no longer keeps an arrival from being made (R309). -/
def otherArrived (g : Group) (sl : Bool) : Bool :=
  let o := getSlot g (!sl)
  match o.st with
  | .free | .joined | .lent => true
  | _ => match o.wait with | .pair _ _ _ => true | _ => false

/-- Whether the condition a slot waits on has cleared (R25). -/
def waitCleared (s : State) (g : Group) (sl : Bool) : Bool :=
  match (getSlot g sl).wait with
  | .none => true
  | .fence cov => (List.range 9).all (fun n => !bit cov n || covCount g.pend n == 0)
  | .count p t => decide (pathCount g.pend p ≤ t)
  | .pop q => queueReady g q
  | .barrier b ph _ => (teamBar s g.team b).phase != ph
  | .pair _ _ _ => otherArrived g sl
  | .mwait _ _ dl woken => woken || (match dl with | some d => decide (d ≤ s.time) | none => false)
  | .claim => false
  | .position =>
    match mget s.launches g.launch with | some l => prRoom s.prq l.part | none => true

/-- Whether a wait is the slot's alone (R25, R310): the barrier words leave the other slot issuing. -/
def slotOnly : Wait → Bool
  | .none | .barrier _ _ _ | .pair _ _ _ => true
  | _ => false

/-- Whether a slot is in an mwait (R313). -/
def inMwait (p : Slot) : Bool := match p.wait with | .mwait _ _ _ _ => true | _ => false

/-- Whether a slot is eligible (R29, R47): Running, or Demoted with no Running sibling that can issue, in an mwait (R313), or named by
the debugger's step or the handler, beside which the sibling is frozen (R325, R487). -/
def eligible (s : State) (g : Group) (sl : Bool) : Bool :=
  match (getSlot g sl).st with
  | .running => true
  | .demoted => inMwait (getSlot g sl) || ((g.stepping || g.handler) && sl == g.stopSlot) || (getSlot g (!sl)).st != .running || (slotOnly (getSlot g (!sl)).wait && !waitCleared s g (!sl))
  | _ => false

/-- Slots that may issue: eligible, and not waiting. Under a debugger's step only the named slot issues (R487). -/
def canIssue (s : State) (g : Group) (sl : Bool) : Bool :=
  eligible s g sl && waitCleared s g sl && (!g.stepping || sl == g.stopSlot) && (!g.handler || sl == g.stopSlot)

/-- Whether every lane of a group has exited and no path of it holds a lent lane, each of which a record names (R23, R42). -/
def allExited (g : Group) : Bool := g.exited &&& fullMask g.width == fullMask g.width && g.donors.isEmpty

/-- Whether a group is parked, stopped or a Husk, so that it issues nothing (R25, R26, R31, R203). What the frozen slot of a group
in handler mode waits on parks nobody (R325). -/
def parked (s : State) (g : Group) : Bool :=
  g.stop != .none || allExited g || (g.settle && deferredLeft g)
  || [false, true].any (fun sl => (!g.handler || sl == g.stopSlot) && eligible s g sl && !slotOnly (getSlot g sl).wait
      && !waitCleared s g sl)
  || !(canIssue s g false || canIssue s g true)

/-! ### Active and pending sets -/

/-- The groups of a sequencer, with their locations. -/
def seqGroups (s : State) (core q : Nat) : List (Nat × Group) :=
  s.groups.filter (fun e => locCore e.1 == core && locSq e.1 == q)

def seqOf (s : State) (core q : Nat) : Seqr :=
  match mget s.cores core with
  | some c => mgetD c.sq q { pos := 0, cycle := 0, frozen := none, slips := 0, entered := 0 }
  | none => { pos := 0, cycle := 0, frozen := none, slips := 0, entered := 0 }

def updSeq (s : State) (core q : Nat) (f : Seqr → Seqr) : State :=
  updCore s core (fun c => { c with sq := mupd c.sq q f })

/-- The entry of a list with the least measure, the first among equals. -/
def leastBy {α : Type} (f : α → Nat) : List α → Option α
  | [] => none
  | x :: t => match leastBy f t with
    | some y => if f y < f x then some y else some x
    | none => some x

/-- Notes when groups of a sequencer park and become ready (R25, R26). -/
def stamp (s : State) (core q : Nat) : State :=
  let now := (seqOf s core q).cycle
  (seqGroups s core q).foldl (fun s e =>
    match parked s e.2, e.2.parkedAt with
    | true, none => updGroup s e.1 (fun g => { g with parkedAt := some now })
    | false, some _ => updGroup s e.1 (fun g => { g with parkedAt := none, readyAt := now })
    | _, _ => s) s

/-- One move of R26: a vacancy takes the oldest ready pending group, or the active group parked the longest changes
places with it; of two that parked at the same moment the first location (DESIGN CHOICE, log 70). -/
def exchange1 (s : State) (core q : Nat) : Option State :=
  let l := seqGroups s core q
  let sq := seqOf s core q
  match leastBy (fun e => e.2.readyAt * 2 ^ 32 + e.2.enteredAt)
      (l.filter (fun e => !e.2.active && !parked s e.2)) with
  | none => none
  | some p =>
    if (l.filter (fun e => e.2.active)).length < 8 then
      some (updGroup s p.1 (fun g => { g with active := true }))
    else
      match leastBy (fun e => e.2.parkedAt.getD 0) (l.filter (fun e => e.2.active && parked s e.2)) with
      | none => none
      | some a =>
        let s := updGroup s a.1 (fun g => { g with active := false, enteredAt := sq.entered })
        let s := updGroup s p.1 (fun g => { g with active := true })
        some (updSeq s core q (fun x => { x with entered := x.entered + 1 }))

def exchangeGo (core q : Nat) : Nat → State → State
  | 0, s => s
  | n + 1, s => match exchange1 s core q with | some s => exchangeGo core q n s | none => s

/-- The exchange of R26 on one sequencer, until no parked active group or no ready pending group remains. -/
def balanceSeq (s : State) (core q : Nat) : State := exchangeGo core q 32 (stamp s core q)

/-- The exchange on every sequencer that holds a group. -/
def balance (s : State) : State :=
  ((s.groups.map (fun e => (locCore e.1, locSq e.1))).eraseDups).foldl (fun s x => balanceSeq s x.1 x.2) s

/-- R27: the oldest ready pending group, ready for 4,096 cycles, changes places with a ready active group of the lowest effective class,
the most recently issued among equals, and the first location among those that issued at the same time (DESIGN CHOICE, log 70). The displaced group's time of becoming ready is that of its displacement (DESIGN CHOICE,
log 70). -/
def promote (s : State) (core sq : Nat) : State :=
  let l := seqGroups s core sq
  let q := seqOf s core sq
  match leastBy (fun e => e.2.readyAt * 2 ^ 32 + e.2.enteredAt) (l.filter (fun e => !e.2.active && !parked s e.2)) with
  | none => s
  | some p =>
    if q.cycle < p.2.readyAt + 4096 then s
    else
      let ready := l.filter (fun e => e.2.active && !parked s e.2)
      match leastBy (fun e => e.2.eff * 2 ^ 64 + (2 ^ 64 - 1 - e.2.issuedAt)) ready with
      | none => s
      | some a =>
        let s := updGroup s a.1 (fun g => { g with active := false, enteredAt := q.entered, readyAt := q.cycle })
        let s := updGroup s p.1 (fun g => { g with active := true })
        updSeq s core sq (fun x => { x with entered := x.entered + 1 })

/-- R28: every ready active group that has not issued for 256 cycles gains one class; the cycles count from its last issue, its last
gain, or the time at which it became ready, in the pending set too (DESIGN CHOICE, log 70). -/
def ageGroups (s : State) (core sq : Nat) : State :=
  let q := seqOf s core sq
  let due := (seqGroups s core sq).filter (fun e =>
    e.2.active && !parked s e.2 && decide (max e.2.agedAt e.2.readyAt + 256 ≤ q.cycle))
  due.foldl (fun s (e : Nat × Group) =>
    updGroup s e.1 (fun g => { g with eff := min 3 (g.eff + 1), agedAt := q.cycle })) s

/-! ### The choice of R28 and R29 -/

/-- The group that a sequencer issues from: ready, active, of the highest effective class, in round-robin order. -/
def chooseGroup (s : State) (core q : Nat) : Option Nat :=
  let l := (seqGroups s core q).filter (fun e => e.2.active && !parked s e.2)
  let top := l.foldl (fun m e => max m e.2.eff) 0
  let pos := (seqOf s core q).pos
  (leastBy (fun e => (locPos e.1 + 63 - pos) % 32) (l.filter (fun e => e.2.eff == top))).map (·.1)

/-- The slot that a group issues from: the two alternate when both can (R29), but a slot that an mwait has woken goes first, so that its
register is written before the group's next word (R313). -/
def chooseSlot (s : State) (g : Group) : Bool :=
  match canIssue s g false, canIssue s g true with
  | true, true => if inMwait g.slot0 then false else if inMwait g.slot1 then true else !g.lastSlot
  | false, true => true
  | _, _ => false

/-! ### The spin detector (R46, R47) -/

/-- The six in-flight counters. -/
def counters (l : List Pend) : List Nat :=
  [Path.spill, .shared, .scratch, .copy, .engine, .syscall].map (pathCount l)

/-- A state change by a slot: its count becomes 0, and every demotion of the group is lifted (R46, R47). -/
def noteChange (g : Group) (sl : Bool) : Group :=
  let clr (p : Slot) : Slot := { p with spin := 0, back := none, counts := [], loaded := [] }
  let lift (p : Slot) : Slot := if p.st == .demoted then { clr p with st := .running } else p
  let g := setSlot g sl (clr (getSlot g sl))
  { g with slot0 := lift g.slot0, slot1 := lift g.slot1 }

/-- The tag of a slot's own stack entries (R37). -/
def tagOf (sl : Bool) : Nat := if sl then 1 else 0

/-- A slot's own top with the entries above and below it: the topmost entry of its own tag or shared (R37). -/
def ownTop (sl : Bool) : List SEntry → List SEntry → Option (List SEntry × SEntry × List SEntry)
  | _, [] => none
  | above, e :: t => if e.tag == tagOf sl || e.tag == 2 then some (above, e, t) else ownTop sl (above ++ [e]) t

/-- Step 2 of R47 for a Demoted slot whose sibling is not Running: it changes places with its own top path entry of the same
reconvergence PC. -/
def exchangeDemoted (g : Group) (sl : Bool) : Option Group :=
  let p := getSlot g sl
  if p.st != .demoted || (getSlot g (!sl)).st == .running then none
  else
    match ownTop sl [] g.stack with
    | some (above, e, t) =>
      if !e.frame && e.rpc == p.rpc && p.rpc.isSome then
        let e' : SEntry := { e with pc := p.pc, mask := p.pm, fmt := p.fmt, lent := p.lent }
        let p' : Slot :=
          { p with st := .running, pc := e.pc, pm := e.mask, exec := e.mask, fmt := e.fmt, lent := e.lent, spin := 0, back := none,
                   counts := [], loaded := [] }
        some { setSlot g sl p' with stack := above ++ e' :: t }
      else none
    | none => none

/-- Counts a taken branch from x to the slot's PC (R46, R204): a backward one at the same x with no state change
since raises the count, any other backward one sets it to 1, and at 64 the slot is Demoted (R47). A restored slot goes on from its
stored count (R408). -/
def noteBranch (g : Group) (sl : Bool) (x : W64) : Group :=
  let p := getSlot g sl
  if p.pc.toNat ≤ x.toNat then
    let c := counters g.pend
    let n := if p.back == some x && p.counts == c || (p.back.isNone && p.spin != 0) then p.spin + 1 else 1
    let g := setSlot g sl { p with spin := n, back := some x, counts := c }
    if 64 ≤ n && p.st == .running then setSlot g sl { getSlot g sl with st := .demoted } else g
  else g

/-- A write by another agent: demotion is lifted of every slot that has loaded one of the locations since its last
state change, and a waiting mwait whose value has changed is woken (R47, R313). -/
def noticeWrites (s : State) (who : Option Nat) (l : List MLoc) (read : State → MLoc → Byte) : State :=
  let look (loc : Nat) (p : Slot) : Slot :=
    let p := if p.st == .demoted && who != some loc && p.loaded.any (fun x => l.contains x)
      then { p with st := .running, spin := 0, back := none, counts := [], loaded := [] } else p
    match p.wait with
    | .mwait ls v dl _ =>
      if ls.any (fun x => l.contains x) && leNat (ls.map (read s)) != v then { p with wait := .mwait ls v dl true } else p
    | _ => p
  { s with groups := s.groups.map (fun e => (e.1, { e.2 with slot0 := look e.1 e.2.slot0, slot1 := look e.1 e.2.slot1 })) }

end Sys2Proof.Machine
end

