-- ==== Sys2Proof/Machine/Exec.lean ====
section
/-! DEFINITION. How every instruction word issues: the checks of R180 and R181 in their order, the scoreboard (R76),
the mode rule of R326, then the word's own effect, and what completing, stalling, parking or faulting does to the unit
that issued it. Each meaning is one call of word with the effect of its instruction. -/

namespace Sys2Proof.Machine

/-- What a word's own effect comes to: it completes and goes on at PC + 8; it completes with the PC given (taken says
that a branch was taken, R204); it completes having placed its path itself; it stalls at issue; its slot waits; it
raises a cause, with the stage and page request of a translation fault, and completes first when exit is set (R357). -/
inductive Res
  | done (s : State)
  | jump (s : State) (pc : W64) (taken : Bool)
  | keep (s : State)
  | stall (s : State)
  | park (s : State) (w : Wait)
  | trap (s : State) (t : Trap) (stage : Nat) (pg : Option Nat) (exit : Bool)

/-- A cause without an address, at the word's PC. -/
def raise (s : State) (code : Nat) : Res := .trap s (trapAt code (readPc s)) 0 none false

/-- A memory cause with its lane and place (R70). -/
def raiseAt (s : State) (code : Nat) (lane : Option Nat) (space addr : Nat) : Res :=
  .trap s { code := code, lane := lane, space := space, addr := addr, n := 0 } 0 none false

/-! ### Checks -/

def engineOf : Agent → Engine
  | .group _ _ => .array
  | .quartz _ => .quartz
  | .prologue _ => .prologue

/-- The privilege level of the executing unit (R345). -/
def levelOf (s : State) : Nat :=
  match s.agent with
  | .quartz n => match mget s.quartz n with | some q => q.level | none => 0
  | _ => 0

def curGroup (s : State) : Option Group :=
  match s.agent with
  | .group loc _ => mget s.groups loc
  | _ => none

/-- The issuing slot. -/
def curSlot (s : State) : Bool := match s.agent with | .group _ sl => sl | _ => false

/-- Whether the executing unit is a group with an empty EXEC (R181). -/
def emptyExec (s : State) : Bool :=
  match s.agent with
  | .group loc sl => match mget s.groups loc with | some g => live g sl == 0 | none => false
  | _ => false

def widthOf (s : State) : Nat := match curGroup s with | some g => g.width | none => 64
def allotOf (s : State) : Nat := match curGroup s with | some g => g.allot | none => 0

/-- The half shuffles of a dual word, whose member mask must lie below the width (R174). -/
def halfMasks (i : Instr) : List Nat :=
  match halves i with
  | some (x, y) => [x, y].flatMap (fun h => match h with | .shflx m _ _ => [m.toNat] | _ => [])
  | none => []

/-- Reserved checks that depend on the executing unit (R178, R209, R210, R242, R354, R429). -/
def dynReserved (s : State) : Instr → Bool
  | .exit imm => imm != 0 && engineOf s.agent != .prologue
  | .sid _ n =>
    match engineOf s.agent with
    | .array => decide (0x0C < n.toNat)
    | .quartz => decide (0x04 < n.toNat)
    | .prologue => decide (0x03 < n.toNat)
  | .clk _ n => decide (2 < n.toNat)
  | .fence _ _ hs => hs != 0 && engineOf s.agent != .array
  | .shflx o => decide (widthOf s ≤ o.c.toNat)
  | .shfld o => decide (widthOf s ≤ fldN o.c.toNat 0 6)
  | i => (halfMasks i).any (fun m => decide (widthOf s ≤ m))

/-- Minimum level of a privileged special register (R355); none when the number names no register. -/
def srLevel (n : Nat) : Option Nat :=
  if n = 0x89 || n = 0x8E || n = 0x8F || (0x91 ≤ n && n ≤ 0x97) then some 2
  else if 0x80 ≤ n && n ≤ 0x8D then some 1
  else none

/-- Minimum level of a word (R178, R355, R359, R360, R362): 0 for one that any level executes. The prologue engine answers any number
but FLAGS with ILLEGAL_REG (R429). -/
def minLevel (s : State) (i : Instr) : Nat :=
  match i with
  | .mfs _ n | .mts n _ =>
    if n.toNat < 0x80 then 0
    else match engineOf s.agent with | .quartz => (srLevel n.toNat).getD 0 | .array => 1 | .prologue => 0
  | .halt | .tlbinvVmid _ _ | .tlbinvIpa _ _ | .tlbinvAll _ _ => 2
  | .mfp _ block off | .mtp block off _ => platLevel block.toNat off.toNat
  | i => match opcodeOf i with | some op => if isPrivileged op then 1 else 0 | none => 0

/-- Step 4 of R180 for one operand: on Quartz cores and the prologue engine only s and k registers exist (R346). -/
def useOkFor (s : State) (u : RUse) : Bool :=
  match engineOf s.agent with
  | .array => RUse.ok (allotOf s) u
  | _ => match u with | .sc a c => c.admits a && (selIsS a || selIsK a) | _ => false

inductive Pre
  | ok
  | void
  | bad (code : Nat)
  deriving DecidableEq, Repr

/-- Opcodes of the profile that the executing unit has at this level and mode only: exit on a Quartz core at L0 (R357), trap.ret in
handler mode (R327). -/
def wordAbsent (s : State) (op : Nat) (ret : Bool) : Bool :=
  (op == 0x28 && engineOf s.agent == .quartz && levelOf s != 0)
  || (op == 0xE1 && ret && !(match curGroup s with | some g => g.handler | none => false))

/-- R180 in its order, with the cases of R181. -/
def precheck (s : State) (i : Instr) : Pre :=
  let op := (opcodeOf i).getD 0
  if !inProfile (engineOf s.agent) op || wordAbsent s op (i == .trapRet) then .bad cIllegalOpcode
  else if emptyExec s && vecOpcode op then .void
  else if levelOf s < minLevel s i then .bad cPrivilege
  else if emptyExec s && vecMemory i then .void
  else if !reservedOk i || dynReserved s i then .bad cReservedBits
  else if !(regsOf (widthOf s) i).all (useOkFor s) then .bad cIllegalReg
  else if !pairOk i then .bad cPairing
  else .ok

/-- Words that handler mode forbids (R326). -/
def handlerForbids : Instr → Bool
  | .bv _ _ _ | .join | .regroup _ | .role _ _ | .bar _ _ | .arrive _ _ _ | .await _ _ | .yield _ _ | .tfence => true
  | _ => false

def inHandler (s : State) : Bool := match curGroup s with | some g => g.handler | none => false

/-- The word's result: its checks, then its own effect. -/
def issue (i : Instr) (s : State) (body : State → Res) : Res :=
  match precheck s i with
  | .bad c => raise s c
  | .void => .done s
  | .ok =>
    if hazard s (regsOf (widthOf s) i) then .stall s
    else if inHandler s && handlerForbids i then raise s cBarrierMisuse
    else body s

/-! ### Completion -/

/-- Words that are a state change whatever they write (R46): stores, atomics, pushes and pops, copies, engine words,
system calls and barrier arrivals. -/
def alwaysChanges : Instr → Bool
  | .stp _ | .sts _ | .stx _ | .atom _ | .cas _ | .cpy _ _ _ _ | .pub _ _ | .shape _ _ _ _ _ _ _ | .mzero _
  | .mloop _ _ _ _ _ _ _ | .mdrain _ _ _ _ _ | .mvn _ _ _ _ _ _ _ _ | .gath _ _ | .coll _ _ _ _ | .rcrel _
  | .sysc _ _ _ _ _ | .bar _ _ | .arrive _ _ _ => true
  | .smov _ _ a => selIsQ a
  | _ => false

/-- The locations of a group and of the home groups of a slot's lent lanes (R44). -/
def homes (s : State) (loc : Nat) (g : Group) (sl : Bool) : List Nat :=
  loc :: (getSlot g sl).lent.map (fun e =>
    match mget s.teams g.team with | some t => t.groups.getD e.1 loc | none => loc)

/-- Whether a word has written a register, FLAGS among them, EXEC or FMT with a value that differs (R46). -/
def registersDiffer (s0 s1 : State) (loc : Nat) (sl : Bool) : Bool :=
  match mget s0.groups loc, mget s1.groups loc with
  | some a, some b =>
    a.s != b.s || a.k != b.k || a.h != b.h || (getSlot a sl).exec != (getSlot b sl).exec
    || (getSlot a sl).fmt != (getSlot b sl).fmt || a.flags != b.flags || a.flagsen != b.flagsen || a.cause != b.cause || a.caddr != b.caddr
    || (homes s0 loc a sl).any (fun l =>
        match mget s0.groups l, mget s1.groups l with | some x, some y => x.v != y.v | _, _ => false)
  | _, _ => false

/-- Whether the stack has been pushed or popped (R46). -/
def stackMoved (s0 s1 : State) (loc : Nat) : Bool :=
  match mget s0.groups loc, mget s1.groups loc with
  | some a, some b => a.stack.length != b.stack.length
  | _, _ => false

/-- Whether a slot has waited in a bar, whose arrival was noted when it was made (R46). -/
def arrivedBefore (s0 : State) (loc : Nat) (sl : Bool) : Bool :=
  match mget s0.groups loc with
  | some g => (match (getSlot g sl).wait with | .barrier _ _ (some _) => true | _ => false)
  | none => false

/-- Bookkeeping of a group's issued word: its place in the round robin, its class back at its base (R28, R29), its
slot no longer waiting, the settle marker of a word that waited (R79), the debugger's pass used up (R487). -/
def noteIssued (s : State) (loc : Nat) (sl : Bool) : State :=
  let now := (seqOf s (locCore loc) (locSq loc)).cycle
  updGroup s loc (fun g =>
    let mark := g.settle || (getSlot g sl).sbit
    let g := setSlot g sl { getSlot g sl with wait := .none, held := false, sbit := false }
    { g with settle := mark, lastSlot := sl, eff := g.base, issuedAt := now, agedAt := now, pass := if g.pass == some sl then none else g.pass })

/-- A group's word has completed: spin detector, in which a change made by a branching word leaves the count at 0 (R46, R204), and,
under the debugger's step, STEP of the stepped slot, once a regroup has ended its wait (R490). -/
def complete (i : Instr) (s0 : State) (loc : Nat) (sl : Bool) (taken : Bool) (s : State) : State :=
  let pc0 := match mget s0.groups loc with | some g => (getSlot g sl).pc | none => 0
  let ch := (alwaysChanges i && !arrivedBefore s0 loc sl) || registersDiffer s0 s loc sl || stackMoved s0 s loc
  let s := noteIssued s loc sl
  let s := updGroup s loc (fun g => if taken then noteBranch g sl pc0 else g)
  let s := updGroup s loc (fun g => if ch then noteChange g sl else g)
  let s := { s with last := .issued }
  match mget s.groups loc with
  | some g => if g.stepping && g.stopSlot == sl && (getSlot g sl).st != .regrouping then takeCause { (updGroup s loc (fun g => { g with stepping := false })) with last := .issued }
      loc sl (trapAt cStep pc0) none else s
  | none => s

/-- A stall at issue counts one hazard event, however long it lasts (R76). -/
def countStall (g : Group) (sl : Bool) : Group :=
  let p := getSlot g sl
  if p.held then g else setSlot { g with hazards := g.hazards + 1 } sl { p with held := true }

/-- What a word leaves of the group that issued it. STEP ranks above the cause of a stepped trap or tfence, which has completed and
is not kept (R321). -/
def finishGroup (i : Instr) (s0 : State) (loc : Nat) (sl : Bool) : Res → State
  | .done s => complete i s0 loc sl false (writePc s (readPc s + 8))
  | .jump s pc taken => complete i s0 loc sl taken (writePc s pc)
  | .keep s => complete i s0 loc sl false s
  | .stall s => { (updGroup s loc (fun g => countStall g sl)) with last := .stalled }
  | .park s w =>
    { (updGroup s loc (fun g => setSlot g sl { getSlot g sl with wait := w, held := false })) with last := .parked }
  | .trap s t _ pg _ =>
    let s := updGroup s loc (fun g => setSlot g sl { getSlot g sl with wait := .none, held := false })
    let step := completes t.code && t.code != cBreak && (match mget s.groups loc with | some g => g.stepping | none => false)
    let t := if step then { t with code := cStep, n := 0 } else t
    let s := if completes t.code then noteIssued (writePc s (readPc s + 8)) loc sl else s
    { (takeCause s loc sl t pg) with last := .faulted }

/-- What a word leaves of a Quartz core: a cause is taken only once its deferred results have returned and its save area is in place
(R350, R357). -/
def finishQuartz (n : Nat) (s0 : State) : Res → State
  | .done s => { (writePc s (readPc s + 8)) with last := .issued }
  | .jump s pc _ => { (writePc s pc) with last := .issued }
  | .keep s => { s with last := .issued }
  | .stall s => { s with last := .stalled }
  | .park s _ => { s with last := .parked }
  | .trap s t stage _ exit =>
    if (match mget s0.quartz n with | some q => entryWaits s0 q | none => false) then { s0 with last := .stalled }
    else { (quartzCause s n t stage exit) with last := .faulted }

/-- The queue that runs a prologue enters Error with a code (R430, R435). -/
def queueError (s : State) (fe q code idx : Nat) : State :=
  updFe s fe (fun f => { f with queues := mupd f.queues q (fun u =>
    { u with state := .error, err := code, errIdx := idx, wait := .none }) })

/-- The queue error PROLOGUE (R435). -/
def ePrologue : Nat := 6

/-- The engine of a front end stops its routine, with the PROLOGUE error of its queue (R430). -/
def prologueFail (s : State) (fe : Nat) : State :=
  match mget s.fes fe with
  | none => s
  | some f =>
    match f.pro.queue with
    | none => s
    | some q =>
      let idx := match mget f.queues q with
        | some u => (match u.pair with | some p => p.idx | none => u.lastIdx)
        | none => 0
      let s := updPro (queueError s fe q ePrologue idx) fe (fun p => { p with queue := none, code := none })
      updFe s fe (fun f => { f with queues := mupd f.queues q (fun u => { u with pair := none }) })

/-- A word of a routine has issued; a run of more than 2^20 words, the exit among them, ends with the PROLOGUE error (R430). -/
def countWord (s : State) (fe : Nat) : State :=
  let s := updPro s fe (fun p => { p with words := p.words + 1 })
  match mget s.fes fe with
  | some f => if 2 ^ 20 < f.pro.words then prologueFail s fe else s
  | none => s

/-- What a word leaves of the prologue engine: any fault ends the routine with the PROLOGUE error; a translation fault
of a page request makes it wait (R391, R430). -/
def finishPrologue (fe : Nat) : Res → State
  | .done s => { (countWord (writePc s (readPc s + 8)) fe) with last := .issued }
  | .jump s pc _ => { (countWord (writePc s pc) fe) with last := .issued }
  | .keep s => { (countWord s fe) with last := .issued }
  | .stall s => { s with last := .stalled }
  | .park s _ => { s with last := .parked }
  | .trap s _ _ pg _ =>
    match pg with
    | some _ => { s with last := .parked }
    | none => { (prologueFail s fe) with last := .faulted }

/-- The meaning of an instruction word with an effect of its own. -/
def word (i : Instr) (s : State) (body : State → Res) : Out :=
  match s.agent with
  | .group loc sl =>
    match mget s.groups loc with
    | none => .fault .noUnit
    | some _ => .next (finishGroup i s loc sl (issue i s body))
  | .quartz n =>
    match mget s.quartz n with
    | none => .fault .noUnit
    | some _ => .next (finishQuartz n s (issue i s body))
  | .prologue n =>
    match mget s.fes n with
    | none => .fault .noUnit
    | some _ => .next (finishPrologue n (issue i s body))

/-- A word whose effect concerns a group; elsewhere its opcode is outside the profile (R178). -/
def groupWord (i : Instr) (s : State) (body : State → Nat → Group → Bool → Res) : Out :=
  word i s (fun s =>
    match s.agent with
    | .group loc sl =>
      match mget s.groups loc with
      | some g => body s loc g sl
      | none => raise s cIllegalOpcode
    | _ => raise s cIllegalOpcode)

/-- A word whose effect concerns a Quartz core; elsewhere its opcode is outside the profile (R178). -/
def quartzWord (i : Instr) (s : State) (body : State → Nat → Quartz → Res) : Out :=
  word i s (fun s =>
    match s.agent with
    | .quartz n =>
      match mget s.quartz n with
      | some q => body s n q
      | none => raise s cIllegalOpcode
    | _ => raise s cIllegalOpcode)

end Sys2Proof.Machine
end

