-- ==== Sys2Proof/Machine/Diverge.lean ====
section
/-! DEFINITION. Divergence and reconvergence of one group (R32 to R42): what bv and join make of its slots and its stack, and when a
group is a Husk or has arrived at regroup (R43, R45). A path's lent lanes are marked with their home group number in Slot.lent and
SEntry.lent (R44). The words, which reach the stack in spill memory, stand in Machine/Paths.lean. -/

namespace Sys2Proof.Machine

/-! ### Masks with lent lanes -/

/-- All lent lanes of an overlay. -/
def lentMask (l : KMap W64) : W64 := l.foldl (fun m e => m ||| e.2) 0

/-- The overlay restricted to a mask. -/
def lentAnd (l : KMap W64) (m : W64) : KMap W64 := (l.map (fun e => (e.1, e.2 &&& m))).filter (fun e => e.2 != 0)

/-- The overlay with lanes of a home group added. -/
def lentAdd (l : KMap W64) (h : Nat) (m : W64) : KMap W64 := msetD l h (mgetD l h 0 ||| m) 0

/-- Two overlays joined. -/
def lentJoin (l k : KMap W64) : KMap W64 := k.foldl (fun a e => lentAdd a e.1 e.2) l

/-- Whether every lane of an overlay is in another, under the same home (R44). -/
def lentWithin (a b : KMap W64) : Bool := a.all (fun e => e.2 &&& ~~~mgetD b e.1 0 == 0)

/-- What remains of a mask when lanes of a home group leave it: home none means the group's own lanes. -/
def maskDrop (mask : W64) (lent : KMap W64) (home : Option Nat) (m : W64) : W64 :=
  match home with
  | none => mask &&& ~~~(m &&& ~~~lentMask lent)
  | some h => mask &&& ~~~(m &&& mgetD lent h 0)

def lentDrop (lent : KMap W64) (home : Option Nat) (m : W64) : KMap W64 :=
  match home with
  | none => lent
  | some h => msetD lent h (mgetD lent h 0 &&& ~~~m) 0

/-- A slot without lanes of a home group. -/
def slotDrop (p : Slot) (home : Option Nat) (m : W64) : Slot :=
  { p with pm := maskDrop p.pm p.lent home m, exec := maskDrop p.exec p.lent home m, lent := lentDrop p.lent home m }

def entryDrop (e : SEntry) (home : Option Nat) (m : W64) : SEntry :=
  { e with mask := maskDrop e.mask e.lent home m, lent := lentDrop e.lent home m }

/-- A group without lanes of a home group in its paths and stack entries (R34). -/
def groupDrop (g : Group) (home : Option Nat) (m : W64) : Group :=
  { g with slot0 := slotDrop g.slot0 home m, slot1 := slotDrop g.slot1 home m,
           stack := g.stack.map (fun e => entryDrop e home m) }

/-! ### join (R39 to R41) -/

/-- A path that resumes from an entry (R39, R40). -/
def pathOfEntry (p : Slot) (e : SEntry) (pc : W64) : Slot :=
  { p with st := .running, pc := pc, pm := e.mask, exec := e.mask, rpc := e.rpc, fmt := e.fmt, lent := e.lent }

/-- A slot that holds no path keeps only its number (R35). -/
def freed : Slot := freeSlot

/-- State of a slot that goes on with its path: a Demoted one stays so until its demotion is lifted (R36, R47). -/
def onward (p : Slot) : SlotState := if p.st == .demoted then .demoted else .running

/-- R39 for slot sl of a group at address j; an implied join is the same with an empty path mask. Each entry popped
lowers the fuel. -/
def joinGo : Nat → Group → Bool → W64 → Group
  | 0, g, _, _ => g
  | n + 1, g, sl, j =>
    let p := getSlot g sl
    if p.rpc != some j then
      if p.pm == 0 then setSlot g sl freed
      else setSlot g sl { p with st := onward p, exec := p.pm, pc := j + 8 }
    else
      match g.stack with
      | [] =>
        if p.pm == 0 then setSlot g sl freed
        else setSlot g sl { p with st := onward p, rpc := none, exec := p.pm, pc := j + 8 }
      | e :: t =>
        let resume (g : Group) (x : Bool) : Group :=
          if e.mask == 0 then
            match e.rpc with
            | none => setSlot g x freed
            | some r => joinGo n (setSlot g x { pathOfEntry (getSlot g x) e (e.pc + 8) with pc := r }) x r
          else setSlot g x (pathOfEntry (getSlot g x) e (e.pc + 8))
        if e.tag == tagOf (!sl) || e.tag == 3 then setSlot g sl { p with st := .joined, pc := j }
        else if !e.frame then setSlot { g with stack := t } sl (pathOfEntry p e e.pc)
        else if e.tag == tagOf sl then resume { g with stack := t } sl
        else
          let o := getSlot g (!sl)
          if o.st == .joined || o.st == .free then
            let t' := t.map (fun x => if x.tag == 1 then { x with tag := 0 } else x)
            resume { g with stack := t', slot1 := freed } false
          else setSlot g sl { p with st := .joined, pc := j }

/-- A Joined slot is looked at again (R39). -/
def rejoin (g : Group) (sl : Bool) : Group :=
  let p := getSlot g sl
  match p.st, p.rpc with
  | .joined, some j => joinGo 130 g sl j
  | _, _ => g

/-- Joined slots are looked at again whenever the stack or the other slot changes, until neither resumes (R36, R39, R41, R50); the fuel
bounds the entries that they can consume. -/
def rejoinAll : Nat → Group → Group
  | 0, g => g
  | n + 1, g =>
    let g' := rejoin (rejoin g false) true
    if g' == g then g else rejoinAll n g'

/-- A join of a slot, then the re-evaluation of Joined slots. -/
def joinGroup (g : Group) (sl : Bool) (j : W64) : Group := rejoinAll 200 (joinGo 130 g sl j)

/-- The implied join of a slot whose path mask has emptied (R34, R41). -/
def impliedJoin (g : Group) (sl : Bool) : Group :=
  match (getSlot g sl).rpc with
  | some j => joinGroup g sl j
  | none => rejoinAll 200 (setSlot g sl freed)

/-- R38: what bv makes of a slot's path, or none when the stack would overflow. The Bool says that the whole path
took the branch. -/
def bvGroup (g : Group) (sl : Bool) (cond : W64) (target j : W64) : Option (Group × Bool) :=
  let p := getSlot g sl
  let t := live g sl &&& cond
  let n := p.pm &&& ~~~t
  if t == 0 then some (setSlot g sl { p with pc := p.pc + 8 }, false)
  else if live g sl &&& ~~~t == 0 then some (setSlot g sl { p with pc := target }, true)
  else
    let o := getSlot g (!sl)
    let free := o.st == .free
    if 64 < g.stack.length + (if free then 1 else 2) then none
    else
      let frame (tag : Nat) : SEntry :=
        { pc := j, tag := tag, frame := true, mask := p.pm, rpc := p.rpc, fmt := p.fmt, lent := p.lent }
      if free then
        let o' : Slot :=
          { freed with st := .running, pc := target, pm := t, exec := t, rpc := some j, fmt := p.fmt,
                       lent := lentAnd p.lent t }
        let p' : Slot :=
          { p with pm := n, exec := p.exec &&& n, rpc := some j, pc := p.pc + 8, lent := lentAnd p.lent n }
        some ({ setSlot (setSlot g (!sl) o') sl p' with stack := frame 2 :: g.stack }, false)
      else if pop64 t ≤ pop64 n then
        let e : SEntry :=
          { pc := target, tag := tagOf sl, frame := false, mask := t, rpc := some j, fmt := p.fmt,
            lent := lentAnd p.lent t }
        let p' : Slot :=
          { p with pm := n, exec := p.exec &&& n, rpc := some j, pc := p.pc + 8, lent := lentAnd p.lent n }
        some ({ setSlot g sl p' with stack := e :: frame (tagOf sl) :: g.stack }, false)
      else
        let e : SEntry :=
          { pc := p.pc + 8, tag := tagOf sl, frame := false, mask := n, rpc := some j, fmt := p.fmt,
            lent := lentAnd p.lent n }
        let p' : Slot := { p with pm := t, exec := t, rpc := some j, pc := target, lent := lentAnd p.lent t }
        some ({ setSlot g sl p' with stack := e :: frame (tagOf sl) :: g.stack }, false)

/-! ### Groups of a team (R43, R45, R312) -/

/-- The location of group number n of a team. -/
def teamLoc (s : State) (tid n : Nat) : Nat :=
  match mget s.teams tid with | some t => t.groups.getD n 0 | none => 0

/-- Whether a group is a Husk: lanes lent, neither slot Running (R45). -/
def isHusk (g : Group) : Bool :=
  (g.slot0.st == .lent || g.slot1.st == .lent) && g.slot0.st != .running && g.slot1.st != .running
  && g.slot0.st != .demoted && g.slot1.st != .demoted

/-- Whether a group has arrived at regroup (R43). -/
def regroupArrived (g : Group) : Bool :=
  isHusk g || [g.slot0, g.slot1].all (fun p => p.st == .free || p.st == .regrouping || p.st == .joined || p.st == .lent)

/-- The groups of a team that have not retired: location and group, in ascending group number. -/
def teamGroups (s : State) (tid : Nat) : List (Nat × Group) :=
  match mget s.teams tid with
  | none => []
  | some t => ((List.range t.groups.length).filter (fun n => !bit t.retired n)).filterMap (fun n =>
      (mget s.groups (t.groups.getD n 0)).map (fun g => (t.groups.getD n 0, g)))

/-- A candidate of R43. -/
structure Cand where
  loc : Nat
  slot : Bool
  target : W64
  pc : W64
  deriving DecidableEq, Repr

def candidates (s : State) (tid : Nat) : List Cand :=
  (teamGroups s tid).flatMap (fun e => [false, true].filterMap (fun sl =>
    let p := getSlot e.2 sl
    if p.st == .regrouping then some { loc := e.1, slot := sl, target := p.target, pc := p.pc } else none))

/-- Whether a group is parked in bar or await: every slot that could issue waits there (R25, R312). -/
def barrierParked (s : State) (g : Group) : Bool :=
  let waits (sl : Bool) : Bool :=
    match (getSlot g sl).wait with | .barrier _ _ _ | .pair _ _ _ => !waitCleared s g sl | _ => false
  let sl := [false, true].filter (fun x => eligible s g x)
  !sl.isEmpty && sl.all waits

end Sys2Proof.Machine
end

