-- ==== Sys2Proof/Machine/Control.lean ====
section
/-! DEFINITION. Control words (R196 to R210) but for mfs and mts, which stand in Machine/Special.lean. -/

namespace Sys2Proof.Machine

/-- A target PC + 8 × sext(off32, 32) (R172). -/
def target (pc : W64) (off : W32) : W64 := pc + (off.signExtend 64) * 8

/-- R197 br. -/
def execBr (hint : Hint) (off : W32) (s : State) : Out :=
  word (.br hint off) s (fun s => .jump s (target (readPc s) off) true)

/-- lanes_live() of the issuing slot; every bit on cores without lanes (R346). -/
def liveSet (s : State) : W64 :=
  match s.agent with
  | .group loc sl => match mget s.groups loc with | some g => live g sl | none => 0
  | _ => BitVec.allOnes 64

/-- The conditions of bc (R197). -/
def condHolds (cc : Cond) (x l : W64) : Bool :=
  match cc with
  | .eqz => x == 0
  | .nez => x != 0
  | .ltz => x.toInt < 0
  | .gez => 0 ≤ x.toInt
  | .gtz => 0 < x.toInt
  | .lez => x.toInt ≤ 0
  | .any => x &&& l != 0
  | .all => x &&& l == l
  | .none => x &&& l == 0

/-- R197 bc. -/
def execBc (cc : Cond) (creg : Sel) (hint : Hint) (off : W32) (s : State) : Out :=
  word (.bc cc creg hint off) s (fun s =>
    if condHolds cc (readReg s creg) (liveSet s) then .jump s (target (readPc s) off) true else .done s)

/-- A jump to a register-computed target: ALIGN with the target when misaligned (R163, R196). -/
def jumpTo (s s' : State) (pc : W64) (taken : Bool) : Res :=
  if pc &&& 7 != 0 then raiseAt s cAlign none 5 pc.toNat else .jump s' pc taken

/-- R199 bx. -/
def execBx (d a : Sel) (imm : W32) (s : State) : Out :=
  word (.bx d a imm) s (fun s =>
    jumpTo s (writeReg s d (readPc s + 8)) (readReg s a + imm.signExtend 64) true)

/-- R199 call: the link goes to s63. -/
def execCall (hint : Hint) (off : W32) (s : State) : Out :=
  word (.call hint off) s (fun s => .jump (writeReg s 0x3F (readPc s + 8)) (target (readPc s) off) false)

/-- R199 ret. -/
def execRet (a : Sel) (s : State) : Out := word (.ret a) s (fun s => jumpTo s s (readReg s a) true)

/-- R198 loop. -/
def execLoop (creg : Sel) (hint : Hint) (off : W32) (s : State) : Out :=
  word (.loop creg hint off) s (fun s =>
    let v := readReg s creg - 1
    let s' := writeReg s creg v
    if v != 0 then .jump s' (target (readPc s) off) true else .done s')

/-- R205 ipf: a prefetch changes no architectural state. -/
def execIpf (n : Sel) (off : W32) (s : State) : Out := word (.ipf n off) s (fun s => .done s)

/-- R206 nop. -/
def execNop (s : State) : Out := word .nop s (fun s => .done s)

/-- Whether a value may be held in FMT (R66, R67). -/
def fmtOk (v : W32) : Bool := v.toNat < 2 ^ 13 && fldN v.toNat 0 4 ≤ 5 && fldN v.toNat 4 4 ≤ 5

/-- R207 setfmt. -/
def execSetfmt (d a : Sel) (imm : W32) (s : State) : Out :=
  groupWord (.setfmt d a imm) s (fun s loc g sl =>
    let new := (gRead g a).truncate 32 ||| imm
    if !fmtOk new then raise s cReservedBits
    else
      let g' := gWrite g d ((getSlot g sl).fmt.zeroExtend 64)
      .done (setGroup s loc (setSlot g' sl { getSlot g' sl with fmt := new })))

/-- The launch of a group's team; every placed group has one. -/
def launchOf (s : State) (g : Group) : Option Launch := mget s.launches g.launch

/-- Linear team index of a group (R209). -/
def teamIndex (s : State) (g : Group) : Nat := match mget s.teams g.team with | some t => t.index | none => 0

/-- The identity values of a group (R209). -/
def sidGroup (s : State) (loc : Nat) (g : Group) (n : Nat) : Nat :=
  let i := teamIndex s g
  let dim (f : Launch → Nat) : Nat := match launchOf s g with | some l => f l | none => 1
  let gx := dim (·.gx)
  let gy := dim (·.gy)
  if n = 0 then i % gx
  else if n = 1 then i / gx % gy
  else if n = 2 then i / gx / gy
  else if n = 3 then gx
  else if n = 4 then gy
  else if n = 5 then dim (·.gz)
  else if n = 6 then g.num
  else if n = 7 then dim (·.size)
  else if n = 8 then g.width
  else if n = 9 then locCore loc
  else if n = 10 then locSq loc + 4 * locPos loc
  else if n = 11 then g.allot
  else i

/-- The identity values of a Quartz, service or Basalt core (R354). -/
def sidQuartz (qn : Nat) (q : Quartz) (n : Nat) : Nat :=
  if n = 0 then qn
  else if n = 1 then (if qInside q then qThread q else 0)
  else if n = 2 then (if qInside q then qEid q else 0)
  else if n = 3 then (if qInside q then 1 else 0)
  else q.level

/-- R209 sid, R354 on Quartz cores, R429 on the prologue engine. -/
def execSid (d : Sel) (num : BitVec 8) (s : State) : Out :=
  word (.sid d num) s (fun s =>
    let v :=
      match s.agent with
      | .group loc _ => match mget s.groups loc with | some g => sidGroup s loc g num.toNat | none => 0
      | .quartz q => match mget s.quartz q with | some c => sidQuartz q c num.toNat | none => 0
      | .prologue n =>
        match mget s.fes n with
        | some e =>
          if num.toNat = 0 then n else if num.toNat = 1 then e.pro.queue.getD 0
          else if num.toNat = 2 then e.pro.eid else e.pro.iter
        | none => 0
    .done (writeReg s d (w64 v)))

/-- The cluster of a core within its die. -/
def coreCluster (core : Nat) : Nat := core / 16 % 16

/-- Frequency of a core's cluster in MHz (R210, R437), which the thermal limit holds at 1,200 (R506). -/
def coreMhz (s : State) (core : Nat) : Nat :=
  let f := match mget s.dies (coreDie core) with
    | some d => mgetD d.freq (coreCluster core) 1400
    | none => 1400
  if s.thermal then min f 1200 else f

/-- R210 clk, R354 on Quartz cores. -/
def execClk (d : Sel) (num : BitVec 8) (s : State) : Out :=
  word (.clk d num) s (fun s =>
    let v : W64 :=
      if num.toNat = 0 then w64 s.time
      else
        match s.agent with
        | .group loc _ =>
          if num.toNat = 1 then w64 (match mget s.cores (locCore loc) with | some c => c.ticks | none => 0)
          else w64 (coreMhz s (locCore loc))
        | .quartz q =>
          if num.toNat = 1 then w64 (match mget s.quartz q with | some c => c.ticks | none => 0)
          else if q < 32 then 3200 else Config.serviceClock q
        | .prologue _ => 0
    .done (writeReg s d v))

end Sys2Proof.Machine
end

