-- ==== Sys2Proof/Machine/Flight.lean ====
section
/-! DEFINITION. Work in flight (R75 to R78, R127, R134, R135): raising the counters of an access or deferred result at
issue, and landing a value in its registers. -/

namespace Sys2Proof.Machine

/-- Whether a word that raises a path's counter by n stalls (R135): the counter would pass 255. R135 names a counter at 255; a word of
several lanes stalls whole as soon as its n accesses no longer fit (DESIGN CHOICE, log 34). -/
def counterFull (s : State) (p : Path) (n : Nat) : Bool := decide (255 < pathCount (pendOf s) p + n)

/-- A pending entry with nothing but its destination. -/
def newPend (id : Nat) (slot : Bool) (path : Option Path) (dst : Dst) (lanes : W64) (act : Act) : Pend :=
  { id := id, slot := slot, path := path, kind := .priv, order := .rlx, cov := 0, dst := dst, lanes := lanes, act := act,
    flags := 0, returned := false, aliased := [], src := 0, homes := [], comb := none, quantum := none }

/-- The lent lanes of the issuing slot, by home group (R44). -/
def issueHomes (s : State) : KMap W64 :=
  match s.agent with
  | .group loc sl => match mget s.groups loc with | some g => (getSlot g sl).lent | none => []
  | _ => []

/-- Appends work of the executing unit; lent lanes keep their home groups until it returns (R78). -/
def addPend (s : State) (p : Pend) : State := setPend s (pendOf s ++ [{ p with homes := issueHomes s }])

/-- Issues work whose result comes by itself or from an engine: takes an id, raises the counter. -/
def issueWork (s : State) (path : Option Path) (dst : Dst) (lanes : W64) (act : Act) : Nat × State :=
  let (id, s) := takeFresh s
  (id, addPend s (newPend id (curSlot s) path dst lanes act))

/-- Whether an outstanding access is an acquire, or a release, of S or R kind (R140, R149). -/
def isAcq (p : Pend) : Bool := !p.returned && p.kind != .u && (p.order == .acq || p.order == .acqrel || p.order == .seq)
def isRel (p : Pend) : Bool := p.kind != .u && (p.order == .rel || p.order == .acqrel || p.order == .seq)

/-! ### Landing (R76 to R78) -/

/-- Notes a landed value as a state change of the slot that asked for it when it differs (R46). -/
def landChange (s0 s1 : State) (loc : Nat) (sl : Bool) : State :=
  if registersDiffer s0 s1 loc sl then updGroup s1 loc (fun g => noteChange g sl) else s1

/-- Writes a landed scalar into a unit's register (R58). -/
def landScalar (s : State) (ag : Agent) (a : Sel) (v : W64) : State :=
  match ag with
  | .group loc _ => updGroup s loc (fun g => gWrite g a v)
  | .quartz q =>
    updQuartz s q (fun c => if selIsS a then { c with s := sWrite c.s a.toNat v }
      else if selIsK a then { c with k := sWrite c.k (a.toNat - 0x40) v } else c)
  | .prologue n =>
    updPro s n (fun c => if selIsS a then { c with s := sWrite c.s a.toNat v }
      else if selIsK a then { c with k := sWrite c.k (a.toNat - 0x40) v } else c)

/-- Writes landed lane values into the registers of the lanes' home groups at issue (R44, R78). -/
def landLanes (s : State) (loc : Nat) (p : Pend) (r : Sel) (l : List (Nat × List W32)) : State :=
  match mget s.groups loc with
  | some g => vWriteLanes s loc (setSlot g p.slot { getSlot g p.slot with lent := p.homes }) p.slot r l
  | none => s

/-- The outstanding work of a unit. -/
def pendAt (s : State) (ag : Agent) : List Pend :=
  match ag with
  | .group loc _ => match mget s.groups loc with | some g => g.pend | none => []
  | .quartz q => match mget s.quartz q with | some c => c.pend | none => []
  | .prologue n => match mget s.fes n with | some e => e.pro.pend | none => []

def setPendAt (s : State) (ag : Agent) (l : List Pend) : State :=
  match ag with
  | .group loc _ => updGroup s loc (fun g => { g with pend := l })
  | .quartz q => updQuartz s q (fun c => { c with pend := l })
  | .prologue n => updPro s n (fun e => { e with pend := l })

/-- An entry returns: it is marked returned and the counters fall in path order (R134). -/
def markReturned (l : List Pend) (id : Nat) : List Pend :=
  settlePaths (l.map (fun p => if p.id = id then { p with returned := true } else p))

/-- Lands a result of an entry in its destination, unless every lane of the group has exited (R203), and lets its
counter fall. -/
def land (s : State) (ag : Agent) (p : Pend) (v : W64) (lanes : List (Nat × List W32)) (flags : Nat) : State :=
  let s1 :=
    match ag with
    | .group loc _ =>
      match mget s.groups loc with
      | none => s
      | some g =>
        if allExited g then s
        else
          let s1 := match p.dst with
            | .none => s
            | .scalar a | .pop a _ => landScalar s ag a v
            | .vec _ _ => s
          let s1 := match p.dst with
            | .vec r _ | .pop r _ => landLanes s1 loc p r lanes
            | _ => s1
          let s1 := updGroup s1 loc (fun g => { g with flags := g.flags ||| w64 flags })
          landChange s s1 loc p.slot
    | _ => match p.dst with | .scalar a => landScalar s ag a v | _ => s
  setPendAt s1 ag (markReturned (pendAt s1 ag) p.id)

end Sys2Proof.Machine
end

