-- ==== Sys2Proof/Machine/Space.lean ====
section
/-! DEFINITION. The memory spaces as kernels reach them (R106 to R128, R251, R252): where a byte lies, what a handle or
alias reaches, the checks of R109 in their order, ordering kinds, coverage. -/

namespace Sys2Proof.Machine

/-! ### Bytes -/

/-- One byte of a location. -/
def readLoc (s : State) : MLoc → Byte
  | .shared tid off => match mget s.teams tid with | some t => readByte t.shared off | none => 0
  | .array d a => match mget s.dies d with | some x => readByte x.array a | none => 0
  | .hbm pa => readByte s.hbm pa
  | .counted _ _ _ => 0

/-- The state with one byte of a location written. -/
def writeLoc (s : State) (l : MLoc) (b : Byte) : State :=
  match l with
  | .shared tid off => updTeam s tid (fun t => { t with shared := writeByte t.shared off b })
  | .array d a => updDie s d (fun x => { x with array := writeByte x.array a b })
  | .hbm pa => { s with hbm := writeByte s.hbm pa b }
  | .counted _ _ _ => s

def writeLocs (s : State) : List (MLoc × Byte) → State
  | [] => s
  | (l, b) :: t => writeLocs (writeLoc s l b) t

/-- The little-endian number at consecutive locations (R4). -/
def readLocs (s : State) (l : List MLoc) : Nat := leNat (l.map (readLoc s))

/-- A write that is no quantum application ends what is kept of the quantum applications to its bytes (R152). -/
def dropQuanta (s : State) (l : List MLoc) : State :=
  { s with quanta := s.quanta.filter (fun q => !q.locs.any (fun x => l.contains x)) }

/-- Writes performed by a group or another agent: memory, then the watchers of those locations (R47, R313). -/
def performWrites (s : State) (who : Option Nat) (l : List (MLoc × Byte)) : State :=
  noticeWrites (dropQuanta (writeLocs s l) (l.map (·.1))) who (l.map (·.1)) readLoc

/-! ### Scratch (R116 to R118) -/

/-- The colour set of a partition on a die: first colour and b, when valid (R442). -/
def colours (s : State) (die part : Nat) : Option (Nat × Nat) :=
  match mget s.dies die with
  | some d =>
    let c := (mgetD d.colset part 0).toNat
    if bitN c 16 then some (fldN c 0 6, fldN c 8 3) else none
  | none => none

/-- Scratch way count of a partition, one for all its colours (R117). -/
def waysOf (s : State) (part : Nat) : Nat := mgetD s.ways part 0

/-- The dies on which a partition holds colours. -/
def partDies (s : State) (part : Nat) : List Nat := (List.range 8).filter (fun d => (colours s d part).isSome)

/-- Scratch capacity for a way count (R117). -/
def capacityFor (s : State) (die part w : Nat) : Nat :=
  match colours s die part with | some (_, b) => 2 ^ b * w * 98304 | none => 0

/-- Scratch capacity C (R117). -/
def capacity (s : State) (die part : Nat) : Nat := capacityFor s die part (waysOf s part)

/-- slot of a line number in a set of 2^b colours (R118). -/
def colourSlot (b l : Nat) : Nat := fldN l 0 b ^^^ fldN l b b

/-- The place of a byte of the on-chip array: colour, way, line, byte (R116). -/
def arrayAt (colour way line byte : Nat) : Nat := ((colour * 16 + way) * 1536 + line) * 64 + byte

/-- Where a scratch byte lies (R118). -/
def scratchLoc (s : State) (die part a : Nat) : MLoc :=
  match colours s die part with
  | some (first, b) =>
    let l := a / 64
    let row := l / 2 ^ b
    .array die (arrayAt (first + colourSlot b l) (row / 1536) (row % 1536) (a % 64))
  | none => .array die 0

/-- The scratch address of a byte of the on-chip array, for the partition in whose colours it lies: the inverse of R118. -/
def scratchAddr (s : State) (die part x : Nat) : Option Nat :=
  match colours s die part with
  | some (first, b) =>
    let colour := x / 1572864
    let row := x / 98304 % 16 * 1536 + x / 64 % 1536
    if first ≤ colour && colour < first + 2 ^ b then
      some ((row * 2 ^ b + ((colour - first) ^^^ fldN row 0 b)) * 64 + x % 64)
    else none
  | none => none

/-! ### Groups and their launches -/

/-- Partition of a group's launch. -/
def groupPart (s : State) (g : Group) : Nat := match launchOf s g with | some l => l.part | none => 0

/-- `.spill` and `.shared` of a group's kernel. -/
def spillOf (s : State) (g : Group) : Nat := match launchOf s g with | some l => l.spill | none => 0
def sharedOf (s : State) (g : Group) : Nat := match launchOf s g with | some l => l.shared | none => 0

/-- The die on which a group runs. -/
def locDie (loc : Nat) : Nat := coreDie (locCore loc)

/-- The Scratch Region Table entry of a scratch address; a region no directive names is R and writable (R123). -/
def regionOf (s : State) (g : Group) (a : Nat) : Nat :=
  match launchOf s g with | some l => mgetD l.region (a / 65536) 1 | none => 1

/-! ### Handles and aliases (R62, R126, R132) -/

def hSpace (h : Handle) : Nat := fldN h.desc.toNat 40 3
def hLen (h : Handle) : Nat := fldN h.desc.toNat 0 40
def hRd (h : Handle) : Bool := bitN h.desc.toNat 48
def hWr (h : Handle) : Bool := bitN h.desc.toNat 49
def hShadow (h : Handle) : Bool := bitN h.desc.toNat 50

def noAlias : Alias := { bufa := 0, bufb := 0, ctl := 0 }
def aliasOf (s : State) (tid e : Nat) : Alias :=
  match mget s.teams tid with | some t => mgetD t.aliased e noAlias | none => noAlias
def alLen (a : Alias) : Nat := fldN a.ctl.toNat 0 40
def alSpace (a : Alias) : Nat := fldN a.ctl.toNat 40 3
def alFront (a : Alias) : Bool := bitN a.ctl.toNat 43
def alValid (a : Alias) : Bool := bitN a.ctl.toNat 44
def alShadow (a : Alias) : Bool := bitN a.ctl.toNat 45

/-- Base of the buffer that is the front, or of the other one (R132). -/
def alBuffer (a : Alias) (shadow : Bool) : Nat := if alFront a != shadow then a.bufb.toNat else a.bufa.toNat

/-- What a base operand reaches: a space; the addresses allowed, from lo to below hi; what is added to them to give the
address in the space; permissions; the alias entry resolved through (R126, R252). -/
structure Target where
  space : Nat
  lo : Nat
  hi : Nat
  shift : Nat
  rd : Bool
  wr : Bool
  aliased : Option Nat

/-- Check 1 of R109 and the base of R252: spaces lists those the instruction reaches, first that of a scalar base. -/
def target_ (s : State) (g : Group) (base : Sel) (spaces : List Nat) : Option (Target × Nat) :=
  if selIsH base then
    let h := getH g (base.toNat - 0x58)
    let sp := hSpace h
    if sp = 6 then
      let e := h.base.toNat / 2 ^ 60
      let a := aliasOf s g.team e
      let off := h.base.toNat % 2 ^ 40
      if !alValid a || !spaces.contains (alSpace a) || (hShadow h && !alShadow a) then none
      else some ({ space := alSpace a, lo := off, hi := min (off + hLen h) (alLen a), shift := alBuffer a (hShadow h),
                   rd := hRd h, wr := hWr h, aliased := some e }, off)
    else if sp = 0 || !spaces.contains sp then none
    else some ({ space := sp, lo := h.base.toNat, hi := h.base.toNat + hLen h, shift := 0, rd := hRd h, wr := hWr h,
                 aliased := none }, h.base.toNat)
  else
    some ({ space := spaces.headD 0, lo := 0, hi := 2 ^ 64, shift := 0, rd := true, wr := true, aliased := none },
      (gRead g base).toNat)

/-! ### The checks of R109 -/

/-- A lane's access: granted, with its bytes and kind; a valid aperture store (R121); refused with cause, space and
address, and the stage and page of a translation fault; or waiting on a page in flight. -/
inductive LChk
  | ok (locs : List MLoc) (kind : Kind) (addr : Nat)
  | aperture (chan : Nat)
  | bad (code space addr stage page : Nat)
  | wait

/-- Whether size bytes at an address lie in a space's bound (R37, R113, R117, R326). -/
def inBound (s : State) (loc : Nat) (g : Group) (space : Nat) (a size : Nat) : Bool :=
  if space = 1 then
    let n := spillOf s g
    a + size ≤ n || (g.handler && n + 0x800 ≤ a && a + size ≤ n + 0xC00)
  else if space = 2 then a + size ≤ sharedOf s g
  else if space = 3 then a + size ≤ capacity s (locDie loc) (groupPart s g)
  else a + size ≤ 2 ^ 55

/-- Whether an access touches the aperture window (R120): one that begins below the window and reaches into it counts, so that check 2
refuses it before its bound is looked at (DESIGN CHOICE, log 75: R121 does not say which check it fails). -/
def inWindow (a : Int) (size : Nat) : Bool := a < 0x7F000400 && 0x7F000000 < a + size

/-- Checks 2 to 5 of R109 for one access at a (before the shift): the cause, if one fails. A misaligned access that begins in one
region and ends in another is checked against the region of its first byte (DESIGN CHOICE, log 75: R109 does not say whether a
read-only last byte gives PERM before ALIGN). -/
def checkAccess (s : State) (loc : Nat) (g : Group) (t : Target) (rd wr : Bool) (a : Int) (size : Nat) : Option Nat :=
  let x := a + t.shift
  let ap := t.space == 3 && inWindow x size
  if ap && !(wr && !rd && size == 8 && 0x7F000000 ≤ x && x % 64 == 0) then some cAperture
  else if a < t.lo || (t.hi : Int) < a + size || x < 0 || !(ap || inBound s loc g t.space x.toNat size) then some cBounds
  else if (rd && !t.rd) || (wr && !t.wr) || (wr && t.space == 3 && !ap && bitN (regionOf s g x.toNat) 2) then some cPerm
  else if x % (min size 16 : Nat) != 0 then some cAlign
  else none

/-- The bytes from an address of shared memory or scratch. -/
def spaceLocs (s : State) (loc : Nat) (g : Group) (space a size : Nat) : List MLoc :=
  (List.range size).map (fun j =>
    if space = 2 then .shared g.team (a + j) else scratchLoc s (locDie loc) (groupPart s g) (a + j))

/-- The ordering kind of an access in shared memory or scratch (R106, R123, R125): of several regions, the strictest. -/
def spaceKind (s : State) (g : Group) (space a size : Nat) : Kind :=
  if space = 3 then
    let k (x : Nat) : Nat := fldN (regionOf s g x) 0 2
    kindOf (min (k a) (k (a + size - 1)))
  else .r

/-- All the checks of R109 for one lane; check 7 translates the device page behind a spill access in its home group's
area (R110, R112). -/
def laneAccess (s : State) (loc : Nat) (g : Group) (sl : Bool) (t : Target) (rd wr : Bool) (lane : Nat) (a : Int)
    (size : Nat) : LChk × State :=
  let x := (a + t.shift).toNat
  match checkAccess s loc g t rd wr a size with
  | some c => (.bad c t.space (wrapI 55 (a + t.shift)) 0 0, s)
  | none =>
    if t.space = 1 then
      let home := match mget s.groups (homeLoc s loc g sl lane) with | some h => h | none => g
      let va := home.spill.toNat + lane * (spillOf s g + 0xC00) + x
      match translate s (groupCtx s loc g) va (if wr then .write else .read) true with
      | (.ok pa _, s) =>
        if !lineOk s pa then (.bad cIntegrity 1 x 0 0, s)
        else (.ok ((List.range size).map (fun j => .hbm (pa + j))) .priv x, s)
      | (.fault c st pg, s) => (.bad c 1 x st pg, s)
      | (.wait, s) => (.wait, s)
    else if t.space = 3 && inWindow x size then (.aperture (fldN x 6 4), s)
    else (.ok (spaceLocs s loc g t.space x size) (spaceKind s g t.space x size) x, s)

/-- The checks of every lane of a word, in ascending lane order. -/
def checkLanes (s : State) (loc : Nat) (g : Group) (sl : Bool) (t : Target) (rd wr : Bool) (size : Nat) :
    List (Nat × Int) → List (Nat × LChk) × State
  | [] => ([], s)
  | (l, a) :: rest =>
    let (c, s) := laneAccess s loc g sl t rd wr l a size
    let (cs, s) := checkLanes s loc g sl t rd wr size rest
    ((l, c) :: cs, s)

/-- The lane whose cause is the word's: a machine cause first, else the lowest failing lane (R11, R109, R321). -/
def worstLane (l : List (Nat × LChk)) : Option (Nat × LChk) :=
  match l.find? (fun x => match x.2 with | .bad c _ _ _ _ => c == cIntegrity | _ => false) with
  | some x => some x
  | none => l.find? (fun x => match x.2 with | .bad _ _ _ _ _ => true | _ => false)

/-- A failed access as the word's cause; a translation fault is reported as a page request (R391). -/
def raiseMem (s : State) (loc : Nat) (g : Group) (lane : Option Nat) (wr : Bool) (c : LChk) : Res :=
  match c with
  | .bad code space addr stage page =>
    let t : Trap := { code := code, lane := lane, space := space, addr := addr, n := 0 }
    if code = cNotmapped || code = cFartier || code = cOwnership then
      let (pg, s) := pageRequest s (groupCtx s loc g) code stage page (if wr then .write else .read)
      .trap s t stage pg false
    else .trap s t stage none false
  | _ => .stall s

/-! ### Coverage (R127) -/

/-- The range and space that a handle covers now; an alias handle covers the buffer it resolves. -/
def coverRange (s : State) (g : Group) (h : Handle) : Option (Nat × Nat × Nat) :=
  let sp := hSpace h
  if sp = 0 || sp = 7 then none
  else if sp = 6 then
    let a := aliasOf s g.team (h.base.toNat / 2 ^ 60)
    let off := h.base.toNat % 2 ^ 40
    if !alValid a || (hShadow h && !alShadow a) then none
    else
      let b := alBuffer a (hShadow h)
      some (alSpace a, b + off, b + min (off + hLen h) (alLen a))
  else some (sp, h.base.toNat, h.base.toNat + hLen h)

/-- The handles of a group that cover any byte of [lo, hi) of a space, as a mask of their numbers. -/
def handlesOver (s : State) (g : Group) (space lo hi : Nat) : W64 :=
  maskOf ((List.range 8).filter (fun n =>
    match coverRange s g (getH g n) with
    | some (sp, a, b) => sp == space && decide (a < hi) && decide (lo < b)
    | none => false))

/-- The counters that an access raises: bit n for hN, bit 8 for the untagged counter (R127). -/
def coverage (s : State) (g : Group) (space lo hi : Nat) : W64 :=
  let m := handlesOver s g space lo hi
  if m == 0 then 0x100 else m

/-! ### Watchpoints (R487, R490) -/

/-- The watchpoints of a group's team. -/
def teamWatches (s : State) (g : Group) : List Watch :=
  (s.dbox.watches.filter (fun w => w.eid == groupEid s g && w.launch == g.launch && w.team == teamIndex s g)).map (·.w)

/-- The lowest lane whose scratch access overlaps an armed watchpoint, with its address; none under the debugger's pass. -/
def watchHit (s : State) (g : Group) (t : Target) (rd wr : Bool) (size : Nat) (l : List (Nat × LChk)) : Option (Nat × Nat) :=
  if t.space != 3 || g.pass == some (curSlot s) then none
  else
    let ws := teamWatches s g
    (l.filterMap (fun x =>
      match x.2 with
      | .ok _ _ a =>
        if ws.any (fun w => decide (a < w.hi) && decide (w.lo < a + size) && ((rd && w.rd) || (wr && w.wr)))
        then some (x.1, a) else none
      | .aperture c =>
        let a := 0x7F000000 + 64 * c
        if ws.any (fun w => decide (a < w.hi) && decide (w.lo < a + size) && wr && w.wr) then some (x.1, a) else none
      | _ => none)).head?

/-! ### Holds at issue -/

/-- Whether a change of W in progress keeps a scratch access at or above the new capacity from issuing (R275). -/
def shrinkHolds (s : State) (loc : Nat) (g : Group) (space : Nat) (a : Int) (size : Nat) : Bool :=
  space == 3 && decide (a < 0x7F000000) && s.work.any (fun w =>
    match w.2 with
    | .scrsz _ part n _ none _ =>
      part == groupPart s g && decide (n < waysOf s part) && decide ((capacityFor s (locDie loc) part n : Int) < a + size)
    | _ => false)

/-- Whether an earlier S access of the group is still to be performed (R147). -/
def sOutstanding (g : Group) : Bool := g.pend.any (fun p => p.kind == .s && !p.returned)

end Sys2Proof.Machine
end

