-- ==== Sys2Proof/Machine/Virt.lean ====
section
/-! DEFINITION. Reads and writes of runs of bytes at virtual addresses of a context, page by page (R377, R384): what the
units that are not kernels use for trap frames, packets, signals and descriptors. -/

namespace Sys2Proof.Machine

/-- A run split at the 64 KiB pages: virtual address and length of each part. The fuel bounds the parts. -/
def pageRuns : Nat → Nat → Nat → List (Nat × Nat)
  | 0, _, _ => []
  | k + 1, va, n =>
    if n = 0 then []
    else
      let m := min n (65536 - va % 65536)
      (va, m) :: pageRuns k (va + m) (n - m)

/-- The parts of a run of n bytes. -/
def runsOf (va n : Nat) : List (Nat × Nat) := pageRuns (n / 65536 + 2) va n

/-- What translating a list of runs gives: physical address and length of each; a fault; or a wait. -/
inductive VRes
  | ok (l : List (Nat × Nat))
  | fault (code stage page : Nat)
  | wait
  deriving DecidableEq, Repr

/-- Translates runs in order, stopping at the first fault. -/
def translateRuns (c : Ctx) (acc : Acc) (ign : Bool) : List (Nat × Nat) → State → List (Nat × Nat) → VRes × State
  | [], s, out => (.ok out, s)
  | (va, n) :: t, s, out =>
    match translate s c va acc ign with
    | (.ok pa _, s) => translateRuns c acc ign t s (out ++ [(pa, n)])
    | (.fault k st pg, s) => (.fault k st pg, s)
    | (.wait, s) => (.wait, s)

/-- The physical places of n bytes at a virtual address. -/
def placeRun (s : State) (c : Ctx) (va n : Nat) (acc : Acc) (ign : Bool) : VRes × State :=
  translateRuns c acc ign (runsOf va n) s []

/-- The bytes of translated runs. -/
def readRuns (s : State) (l : List (Nat × Nat)) : List Byte := l.flatMap (fun r => readBytes s.hbm r.1 r.2)

/-- Writes bytes over translated runs and tells the watchers of those locations (R47, R313). -/
def writeRuns (s : State) : List (Nat × Nat) → List Byte → State
  | [], _ => s
  | (pa, n) :: t, b =>
    let w := (List.range n).map (fun j => MLoc.hbm (pa + j))
    writeRuns (performWrites s none (w.zip b)) t (b.drop n)

/-- Whether every line of translated runs verifies (R384, R385). -/
def runsOk (s : State) (l : List (Nat × Nat)) : Bool :=
  l.all (fun r => (List.range (r.2 / 64 + 2)).all (fun j =>
    decide (r.1 + r.2 ≤ (r.1 / 64 + j) * 64) || lineOk s ((r.1 / 64 + j) * 64)))

/-- The lines that runs just written cover whole verify again (R384). -/
def mended (s : State) (l : List (Nat × Nat)) : State :=
  l.foldl (fun s r => linesWritten s r.1 r.2) s

/-- Whether the lines of which translated runs cover a part only verify, so that a write can be merged into them (R384, R385). -/
def mergeOk (s : State) (l : List (Nat × Nat)) : Bool :=
  l.all (fun r =>
    (r.1 % 64 == 0 && decide (64 ≤ r.2) || lineOk s r.1)
    && ((r.1 + r.2) % 64 == 0 && decide (64 ≤ r.2) || lineOk s (r.1 + r.2 - 1)))

end Sys2Proof.Machine
end

