-- ==== Sys2Proof/Machine/Stack.lean ====
section
/-! DEFINITION. The divergence stack in spill memory (R37, R109, R385): where it lies, what its entries hold, and how a word reaches it. A
group's entries are kept in Group.stack as well, with the lent lanes for which the layout has no field (log 10); a word that uses them
reads them from memory first, and what it changes is written at once. -/

namespace Sys2Proof.Machine

/-! ### Entries (R37) -/

/-- A divergence-stack entry (R37). -/
def stackEntry (e : SEntry) : List Byte :=
  leBytes 8 (e.pc.toNat / 8 * 8 + 2 * e.tag + (if e.frame then 1 else 0)) ++ leBytes 8 e.mask.toNat
  ++ leBytes 8 (match e.rpc with | some r => r.toNat | none => 1) ++ leBytes 8 e.fmt.toNat

/-- A divergence-stack entry read back, without its lent lanes (R37). -/
def stackFrom (b : List Byte) : SEntry :=
  let x := imgW b 0
  { pc := w64 (x / 8 * 8), tag := fldN x 1 2, frame := bitN x 0, mask := le64 b 8,
    rpc := if bit (le64 b 0x10) 0 then none else some (le64 b 0x10), fmt := w32 (imgW b 0x18) &&& fmtMask, lent := [] }

/-- Virtual address of a group's divergence-stack area: in lane 0's spill area, beyond `.spill` (R37, R110; log 10). -/
def stackVa (s : State) (g : Group) : Nat := g.spill.toNat + spillOf s g

/-- An entry as memory holds it, without lanes that have exited (R34, R39). -/
def viewEntry (g : Group) (e : SEntry) (b : List Byte) : SEntry :=
  let m := stackFrom b
  let lent := lentAnd e.lent m.mask
  { m with mask := m.mask &&& ~~~(g.exited &&& ~~~lentMask lent), lent := lent }

/-- The stack as memory holds it, oldest entry first. -/
def viewStack (g : Group) (b : List Byte) : List SEntry :=
  (((List.range g.stack.length).zip g.stack.reverse).map (fun x => viewEntry g x.2 (part b (32 * x.1) 32))).reverse

/-! ### Reading and writing it -/

/-- Number, from the oldest, of the first entry in which a stack differs from what it was; none when there is nothing to write. -/
def stackChange (old new : List SEntry) : Option Nat :=
  let i := common old.reverse new.reverse
  if new.length ≤ i then none else some i
where
  common : List SEntry → List SEntry → Nat
    | a :: s, b :: t => if a == b then common s t + 1 else 0
    | _, _ => 0

/-- The places of a group's entries from number i on, up to number n. -/
def stackPlace (s : State) (loc : Nat) (g : Group) (i n : Nat) (acc : Acc) : VRes × State :=
  placeRun s (groupCtx s loc g) (stackVa s g + 32 * i) (32 * (n - i)) acc true

/-- Whether a group's stack can be read from its spill memory now. -/
def stackReady (s : State) (loc : Nat) : Bool :=
  match mget s.groups loc with
  | none => false
  | some g =>
    g.stack.isEmpty || g.stackNewer ||
    match stackPlace s loc g 0 g.stack.length .read with
    | (.ok l, s) => runsOk s l
    | _ => false

/-- The state with a group's stack taken from its spill memory, where it can be read. -/
def viewed (s : State) (loc : Nat) : State :=
  match mget s.groups loc with
  | none => s
  | some g =>
    if g.stack.isEmpty || g.stackNewer then s
    else
      match stackPlace s loc g 0 g.stack.length .read with
      | (.ok l, s) => if runsOk s l then updGroup s loc (fun g => { g with stack := viewStack g (readRuns s l) }) else s
      | (_, s) => s

/-- The state with what has changed of a group's stack written to its spill memory; where it cannot be written, the group keeps it until it
can. -/
def flushed (s : State) (loc : Nat) (old : List SEntry) : State :=
  match mget s.groups loc with
  | none => s
  | some g =>
    match (if g.stackNewer then (if g.stack.isEmpty then none else some 0) else stackChange old g.stack) with
    | none => if g.stackNewer then updGroup s loc (fun g => { g with stackNewer := false }) else s
    | some i =>
      match stackPlace s loc g i g.stack.length .write with
      | (.ok l, s) =>
        if mergeOk s l then
          updGroup (writeRuns s l ((g.stack.reverse.drop i).flatMap stackEntry)) loc (fun g => { g with stackNewer := false })
        else updGroup s loc (fun g => { g with stackNewer := true })
      | (_, s) => updGroup s loc (fun g => { g with stackNewer := true })

/-- A change of a group that reaches its stack: read from memory, changed, written. -/
def onStack (s : State) (loc : Nat) (f : Group → Group) : State :=
  let s := viewed s loc
  let old := match mget s.groups loc with | some g => g.stack | none => []
  flushed (updGroup s loc f) loc old

/-! ### A word that reaches it -/

/-- What the word's access to the stack meets before any change (R38, R109 check 7, R385): a failed translation, a line that does not
verify, or nothing; with it, whether the access was a write. reads says that the word reads the entries it does not push. -/
def stackChecks (s : State) (loc : Nat) (g : Group) (reads : Bool) (op : State → State) : Option (LChk × Bool) × State :=
  let top := g.stack.length
  let fail (k st pg : Nat) (i : Nat) : LChk := .bad k 1 (spillOf s g + 32 * i) st pg
  let load : Option (LChk × Bool) × State :=
    if !reads || g.stack.isEmpty || g.stackNewer then (none, s)
    else
      match stackPlace s loc g 0 top .read with
      | (.ok _, s) => (none, s)
      | (.fault k st pg, s) => (some (fail k st pg 0, false), s)
      | (.wait, s) => (some (.wait, false), s)
  match load with
  | (some c, s) => (some c, s)
  | (none, s) =>
    let old := match mget (viewed s loc).groups loc with | some x => x.stack | none => []
    let new := match mget (op s).groups loc with | some x => x.stack | none => []
    let low := min ((stackChange old new).getD top) (new.length - 1)
    let bad : Bool := reads && !g.stackNewer && decide (low < top) &&
      (match stackPlace s loc g low top .read with | (.ok l, s) => !runsOk s l | _ => false)
    if bad then (some (fail cIntegrity 0 0 low, false), s)
    else
      match stackChange old new with
      | none => (none, s)
      | some i =>
        match stackPlace s loc g i new.length .write with
        | (.ok l, s) => if mergeOk s l then (none, s) else (some (fail cIntegrity 0 0 i, true), s)
        | (.fault k st pg, s) => (some (fail k st pg i, true), s)
        | (.wait, s) => (some (.wait, true), s)

/-- The result of a word that changes paths and stack as op says, once its accesses to the stack have passed their checks. -/
def stackWord (s : State) (loc : Nat) (g : Group) (reads : Bool) (op : State → State) : Res :=
  match stackChecks s loc g reads op with
  | (some (c, wr), s) => raiseMem s loc g none wr c
  | (none, s) => .keep (op s)

end Sys2Proof.Machine
end

