-- ==== Sys2Proof/Machine/Paths.lean ====
section
/-! DEFINITION. The words that split, join and end paths (R38 to R42, R200 to R202), with the divergence stack in spill memory, and the
lanes that regroup lends (R43 to R45, R312). -/

namespace Sys2Proof.Machine

/-! ### Lent lanes (R43 to R45) -/

/-- The records of a group that return at a join at address j of a slot's path: those with that reconvergence PC all
of whose lanes are in the path, under their homes (R44). R45 leaves open what becomes of a record whose lanes a later split has parted: it returns once they are
together again (DESIGN CHOICE, log 10). -/
def returning (g : Group) (sl : Bool) (j : W64) : List Donor :=
  g.donors.filter (fun d => d.rpc == some j && lentWithin d.homes (getSlot g sl).lent)

/-- R45, steps 1 and 2: a record's lanes leave the receiving path and its frames and return to the donor's Lent slot, which runs at the
join. -/
def returnLanes (s : State) (loc : Nat) (j : W64) (d : Donor) : State :=
  match mget s.groups loc with
  | none => s
  | some g =>
    let moved := d.homes
    let s := onStack s loc (fun g =>
      let g := moved.foldl (fun g e => groupDrop g (some e.1) e.2) g
      { g with donors := g.donors.erase d })
    updGroup s (teamLoc s g.team d.g) (fun h =>
      setSlot h d.slot { getSlot h d.slot with st := .running, pm := d.mask, exec := d.mask, pc := j,
                                               lent := moved.filter (fun e => e.1 != d.g) })

/-- The join of a path: every record with that address returns first, and its donor's slot performs the join as its own, the records of the
donor among it; then the path's own join (R39, R45). A path that has no lanes left performs the implied join of R34. A donor whose
stack cannot be read stays Running at the join and issues it itself. A join that ends no divergence does not look at the stack. The fuel bounds how deep lanes are lent. -/
def joinPath : Nat → State → Nat → Bool → W64 → State
  | 0, s, _, _, _ => s
  | n + 1, s, loc, sl, j =>
    match mget s.groups loc with
    | none => s
    | some g =>
      let s := (returning g sl j).foldl (fun s d =>
        let s := returnLanes s loc j d
        let dl := teamLoc s g.team d.g
        if stackReady s dl then joinPath n s dl d.slot j else s) s
      let own (g : Group) : Group := if (getSlot g sl).pm == 0 then impliedJoin g sl else joinGroup g sl j
      match mget s.groups loc with
      | some g => if (getSlot g sl).pm != 0 && (getSlot g sl).rpc != some j then updGroup s loc own else onStack s loc own
      | none => s

/-- Whether deferred writes for the lanes of returning records, or of the records that return with them, are still outstanding (R78). -/
def returnBusy : Nat → State → Nat → List Donor → W64 → Bool
  | 0, _, _, _, _ => false
  | n + 1, s, loc, l, j =>
    match mget s.groups loc with
    | none => false
    | some g => l.any (fun d =>
        g.pend.any (fun p => !p.returned && p.dst != .none && d.mask &&& p.lanes != 0)
        || (match mget s.groups (teamLoc s g.team d.g) with
            | some h => returnBusy n s (teamLoc s g.team d.g)
                (h.donors.filter (fun r => r.rpc == some j && lentWithin r.homes d.homes)) j
            | none => false))

/-- Donors whose lent lanes have all exited lose their record, and their Lent slot performs the implied join (R45). -/
def dropEmptyRecords (s : State) (loc : Nat) : State :=
  match mget s.groups loc with
  | none => s
  | some g =>
    (g.donors.filter (fun d => d.mask == 0)).foldl (fun s d =>
      let s := updGroup s loc (fun g => { g with donors := g.donors.erase d })
      onStack s (teamLoc s g.team d.g) (fun h =>
        impliedJoin (setSlot h d.slot { getSlot h d.slot with pm := 0, exec := 0, lent := [] }) d.slot)) s

/-! ### exit (R34, R202) -/

/-- A group without exited lanes, listed by home group: in its paths, its stack entries and its records (R34). -/
def dropExits (l : KMap W64) (g : Group) : Group :=
  l.foldl (fun g e =>
    let g := if e.1 = g.num then groupDrop { g with exited := g.exited ||| e.2 } none e.2 else groupDrop g (some e.1) e.2
    { g with donors := g.donors.map (fun d =>
        let h := lentDrop d.homes (some e.1) e.2
        { d with homes := h, mask := lentMask h }) }) g

/-- R34, R202: lanes of a slot's path exit, own and lent. They leave every group of the team that holds them, the groups that have lent
them on among them. The slot then joins when its path mask has emptied, else goes on at PC + 8. -/
def exitLanes (s : State) (loc : Nat) (sl : Bool) (m : W64) : State :=
  match mget s.groups loc with
  | none => s
  | some g =>
    let lent := lentAnd (getSlot g sl).lent m
    let own := m &&& ~~~lentMask lent
    let l := if own == 0 then lent else lentAdd lent g.num own
    let s := onStack s loc (fun g =>
      let g := dropExits l g
      let p := getSlot g sl
      if p.pm == 0 then impliedJoin g sl else setSlot g sl { p with pc := p.pc + 8 })
    let others := ((teamGroups s g.team).map (·.1)).filter (fun x => x != loc)
    let s := others.foldl (fun s x => onStack s x (dropExits l)) s
    (loc :: others).foldl dropEmptyRecords s

/-! ### regroup (R43, R312) -/

/-- Moves the lanes of a candidate into its receiver's path when R43 allows it. The receiver's frames take the lanes in as well, so that its
own joins keep them in its path; R43 says nothing of frames (DESIGN CHOICE, log 10). -/
def mergeInto (s : State) (rcv d : Cand) : State :=
  match mget s.groups rcv.loc, mget s.groups d.loc with
  | some r, some h =>
    let rp := getSlot r rcv.slot
    let dp := getSlot h d.slot
    if h.num != r.num && dp.pm &&& rp.pm == 0 && h.allot == r.allot && locCore d.loc == locCore rcv.loc
        && decide (r.donors.length < 31) then
      let own := dp.pm &&& ~~~lentMask dp.lent
      let passed := if own == 0 then dp.lent else lentAdd dp.lent h.num own
      let grow (e : SEntry) : SEntry :=
        if e.frame && (e.tag == tagOf rcv.slot || e.tag == 2) then
          let add := lentAnd passed (~~~e.mask)
          { e with mask := e.mask ||| lentMask add, lent := lentJoin e.lent add }
        else e
      let s := onStack s rcv.loc (fun r =>
        { setSlot r rcv.slot { rp with pm := rp.pm ||| dp.pm, lent := lentJoin rp.lent passed } with
          donors := r.donors ++ [{ g := h.num, slot := d.slot, mask := dp.pm, rpc := dp.rpc, homes := passed }],
          stack := r.stack.map grow })
      updGroup s d.loc (fun h => setSlot h d.slot { dp with st := .lent, pm := 0, exec := 0, lent := [] })
    else s
  | _, _ => s

/-- A debugger's step of a regroup ends with its wait (R490). -/
def stepRegroup (s : State) (x : Cand) : State :=
  match mget s.groups x.loc with
  | some g =>
    if g.stepping && g.stopSlot == x.slot then takeCause s x.loc x.slot (trapAt cStep x.pc) none else s
  | none => s

/-- The merge of R43: targets in order of first appearance, then every slot not lent continues at its target, a state change when its
EXEC changes (R46). -/
def mergeTeam (s : State) (tid : Nat) : State :=
  let c := candidates s tid
  let s := ((c.map (·.target)).eraseDups).foldl (fun s p =>
    match c.filter (fun x => x.target == p) with
    | [] => s
    | rcv :: rest => rest.foldl (fun s d => mergeInto s rcv d) s) s
  let s := c.foldl (fun s x => updGroup s x.loc (fun g =>
    let p := getSlot g x.slot
    if p.st == .regrouping then
      let g' := setSlot g x.slot { p with st := .running, pc := p.target, exec := p.pm }
      if p.exec == p.pm then g' else noteChange g' x.slot
    else g)) s
  c.foldl stepRegroup s

/-- After a regroup, a barrier wait, an exit, a join or a retirement: the merge once every group has arrived (R43), or
the misuse of R312 when the rest of the team, of each kind at least one, is parked in bar or await. Of two Regrouping slots of one group
that both fault, slot 1's cause is the one recorded last (DESIGN CHOICE, log 42). -/
def teamCheck (s : State) (tid : Nat) : State :=
  let l := teamGroups s tid
  let c := candidates s tid
  if c.isEmpty then s
  else if l.all (fun e => regroupArrived e.2) then mergeTeam s tid
  else if l.any (fun e => regroupArrived e.2) && l.all (fun e => regroupArrived e.2 || barrierParked s e.2) then
    c.foldl (fun s x =>
      let s := updGroup s x.loc (fun g => setSlot g x.slot { getSlot g x.slot with st := .running })
      let pc := match mget s.groups x.loc with | some g => (getSlot g x.slot).pc | none => 0
      teamCause s x.loc x.slot (trapAt cBarrierMisuse pc)) s
  else s

/-! ### Demoted slots (R47) -/

/-- Step 2 of R47 for the Demoted slots of a group. -/
def exchangeSlots (s : State) (loc : Nat) : State :=
  [false, true].foldl (fun s sl =>
    match (mget s.groups loc).bind (fun g => exchangeDemoted g sl) with
    | some _ => onStack s loc (fun g => (exchangeDemoted g sl).getD g)
    | none => s) s

/-- Step 2 of R47, made as soon as its condition holds. -/
def exchangeAll (s : State) : State :=
  (s.groups.filter (fun e => e.2.slot0.st == .demoted || e.2.slot1.st == .demoted)).foldl (fun s (e : Nat × Group) =>
    exchangeSlots s e.1) s

/-! ### The words -/

/-- R200 bv, by R38. -/
def execBv (k : Sel) (off : W32) (jd : BitVec 14) (s : State) : Out :=
  groupWord (.bv k off jd) s (fun s loc g sl =>
    let pc := (getSlot g sl).pc
    let split (g : Group) := bvGroup g sl (gRead g k) (target pc off) (pc + jd.zeroExtend 64 * 8)
    match split g with
    | none => raise s cDstackOverflow
    | some (g', whole) =>
      if whole then .jump (setGroup s loc g') (target pc off) true
      else if g'.stack == g.stack then .keep (setGroup s loc g')
      else stackWord s loc g false (fun s => onStack s loc (fun g => ((split g).getD (g, false)).1)))

/-- R201 join, by R39 and R45; it waits for deferred writes of lanes that it returns (R78). -/
def execJoin (s : State) : Out :=
  groupWord .join s (fun s loc g sl =>
    let j := (getSlot g sl).pc
    if returnBusy 33 s loc (returning g sl j) j then .stall s
    else stackWord s loc g ((getSlot g sl).rpc == some j || !(returning g sl j).isEmpty)
      (fun s => teamCheck (joinPath 33 s loc sl j) g.team))

/-- R202 exit on an array core; on a Quartz core SOFTTRAP with exit set from L0 (R357); on the prologue engine the end of the routine
with its code (R430). -/
def execExit (imm : W32) (s : State) : Out :=
  word (.exit imm) s (fun s =>
    match s.agent with
    | .group loc sl =>
      match mget s.groups loc with
      | some g =>
        if live g sl == 0 then .done s
        else stackWord s loc g true (fun s => teamCheck (exitLanes s loc sl (live g sl)) g.team)
      | none => raise s cIllegalOpcode
    | .quartz _ => .trap s (trapAt cSofttrap (readPc s)) 0 none true
    | .prologue fe => .keep (updPro s fe (fun p => { p with code := some imm.toNat })))

end Sys2Proof.Machine
end

