-- ==== Sys2Proof/Machine/Fun.lean ====
section
/-! DEFINITION. The correctly rounded operations (R98, R99, R226, R230) on encodings: each answers the encoding and
the flags. Square roots are computed exactly with a sticky bit. fexp2, flog2, fsin and fcos are enclosed between two
fractions, with precision doubled until both ends round alike; the enclosures are interval sums with outward rounding.
What lies beyond the last precision is Config.transcendental (log 11). -/

namespace Sys2Proof.Machine

/-- Rounding of one word: mode, saturation, FMT.fzi and FMT.fzo (R93, R225). -/
structure RCtl where
  m : RMode
  sat : Bool
  fzi : Bool
  fzo : Bool
  deriving DecidableEq, Repr

/-- The value of a source after FMT.fzi. -/
def srcVal (c : RCtl) (f : VTy) (e : Nat) : XVal := val f (flushIn c.fzi f e)

/-- round under a word's control. -/
def rnd (c : RCtl) (f : VTy) (x : XVal) : Nat × Nat := round f c.m c.sat c.fzo x

/-- A NaN result of an invalid operation (R99). -/
def invalidNan (f : VTy) : Nat × Nat := (canonNan f, fInvalid)

/-- A result with signalling-NaN flags of its operands added (R85). -/
def withFl (fl : Nat) (r : Nat × Nat) : Nat × Nat := (r.1, r.2 ||| fl)

/-- Whether two values are infinities of opposite sign. -/
def oppInf : XVal → XVal → Bool
  | .inf s, .inf t => s != t
  | _, _ => false

def fAddE (c : RCtl) (f : VTy) (a b : Nat) : Nat × Nat :=
  let x := srcVal c f a
  let y := srcVal c f b
  withFl (snanFlag f a ||| snanFlag f b)
    (if oppInf x y then invalidNan f else rnd c f (xSum c.m [x, y]))

def fSubE (c : RCtl) (f : VTy) (a b : Nat) : Nat × Nat :=
  let x := srcVal c f a
  let y := xNeg (srcVal c f b)
  withFl (snanFlag f a ||| snanFlag f b)
    (if oppInf x y then invalidNan f else rnd c f (xSum c.m [x, y]))

/-- Whether a product is 0 × ∞. -/
def zeroInf : XVal → XVal → Bool
  | .inf _, .fin _ n _ | .fin _ n _, .inf _ => n == 0
  | _, _ => false

def fMulE (c : RCtl) (f : VTy) (a b : Nat) : Nat × Nat :=
  let x := srcVal c f a
  let y := srcVal c f b
  withFl (snanFlag f a ||| snanFlag f b)
    (if zeroInf x y then invalidNan f else rnd c f (xMul x y))

/-- ffma of one element (R226). R99 says of 0 × ∞ that it sets invalid, and of a NaN operand that only R85 does; which holds for
0 × ∞ + a quiet NaN it leaves open: a NaN addend decides, and no invalid is set (DESIGN CHOICE, log 74). -/
def fFmaE (c : RCtl) (f : VTy) (a b z : Nat) : Nat × Nat :=
  let x := srcVal c f a
  let y := srcVal c f b
  let w := srcVal c f z
  withFl (snanFlag f a ||| snanFlag f b ||| snanFlag f z)
    (if w == .nan then (canonNan f, 0)
     else if zeroInf x y then invalidNan f
     else
       let p := xMul x y
       if oppInf p w then invalidNan f else rnd c f (xSum c.m [p, w]))

def fDivX (c : RCtl) (f : VTy) (x y : XVal) : Nat × Nat :=
  match x, y with
  | .nan, _ | _, .nan => (canonNan f, 0)
  | .inf _, .inf _ => invalidNan f
  | .inf s, .fin t _ _ => rnd c f (.inf (s != t))
  | .fin s _ _, .inf t => (encZero f (s != t), 0)
  | .fin s n d, .fin t k e =>
    if k = 0 then (if n = 0 then invalidNan f else (encInf f (s != t), fDivzero))
    else rnd c f (.fin (s != t) (n * e) (d * k))

def fDivE (c : RCtl) (f : VTy) (a b : Nat) : Nat × Nat :=
  withFl (snanFlag f a ||| snanFlag f b) (fDivX c f (srcVal c f a) (srcVal c f b))

def fRcpE (c : RCtl) (f : VTy) (a : Nat) : Nat × Nat :=
  withFl (snanFlag f a) (fDivX c f (.fin false 1 1) (srcVal c f a))

/-- Integer square root by digits: the largest r with r² ≤ x, for x below 4^n. -/
def isqrt : Nat → Nat → Nat → Nat
  | 0, r, _ => r
  | n + 1, r, x =>
    let t := r + 2 ^ n
    isqrt n (if t * t ≤ x then t else r) x

/-- √(n/d) as a fraction with a sticky last bit: exact, or strictly between two multiples of 2^-200. -/
def sqrtFrac (n d : Nat) : Nat × Nat :=
  let x := n * 4 ^ 200 / d
  let r := isqrt (Nat.log2 x / 2 + 1) 0 x
  let exact := r * r * d == n * 4 ^ 200
  (2 * r + (if exact then 0 else 1), 2 ^ 201)

def fSqrtE (c : RCtl) (f : VTy) (a : Nat) : Nat × Nat :=
  withFl (snanFlag f a) <|
    match srcVal c f a with
    | .nan => (canonNan f, 0)
    | .inf s => if s then invalidNan f else rnd c f (.inf false)
    | .fin s n d =>
      if n = 0 then (encZero f s, 0)
      else if s then invalidNan f
      else let r := sqrtFrac n d; rnd c f (.fin false r.1 r.2)

def fRsqE (c : RCtl) (f : VTy) (a : Nat) : Nat × Nat :=
  withFl (snanFlag f a) <|
    match srcVal c f a with
    | .nan => (canonNan f, 0)
    | .inf s => if s then invalidNan f else (encZero f false, 0)
    | .fin s n d =>
      if n = 0 then (encInf f s, fDivzero)
      else if s then invalidNan f
      else let r := sqrtFrac d n; rnd c f (.fin false r.1 r.2)

/-- fround (R230). -/
def fRoundE (c : RCtl) (f : VTy) (a : Nat) : Nat × Nat :=
  withFl (snanFlag f a) <|
    match srcVal c f a with
    | .nan => (canonNan f, 0)
    | .inf s => (encInf f s, 0)
    | .fin s n d =>
      let j := rintMag c.m s n d
      if j = 0 then (encZero f s, 0) else ((round f .rtz false false (.fin s j 1)).1, 0)

/-! ### Enclosures: pairs of integers scaled by 2^p -/

/-- Two bounds lo ≤ x ≤ hi, scaled by 2^p. -/
abbrev Ivl := Int × Int

def ivOf (p : Nat) (n : Int) (d : Nat) : Ivl :=
  (n * 2 ^ p / (d : Int), n * 2 ^ p / (d : Int) + 1)
def ivAdd (x y : Ivl) : Ivl := (x.1 + y.1, x.2 + y.2)
def ivSub (x y : Ivl) : Ivl := (x.1 - y.2, x.2 - y.1)
def ivNeg (x : Ivl) : Ivl := (-x.2, -x.1)
/-- Division by a positive whole number, outward. -/
def ivDivN (x : Ivl) (k : Nat) : Ivl := (x.1 / (k : Int), x.2 / (k : Int) + 1)
def ivMul (p : Nat) (x y : Ivl) : Ivl :=
  let a := x.1 * y.1
  let b := x.1 * y.2
  let c := x.2 * y.1
  let d := x.2 * y.2
  (min (min a b) (min c d) / 2 ^ p, max (max a b) (max c d) / 2 ^ p + 1)
def ivWiden (x : Ivl) (e : Int) : Ivl := (x.1 - e, x.2 + e)

/-- Σ z^(2k+1)/(2k+1) for |z| ≤ 1/3, with k terms and the remainder bounded by the last power: atanh(z). -/
def atanhGo (p : Nat) (z2 : Ivl) : Nat → Nat → Ivl → Ivl → Ivl
  | 0, _, pw, acc => ivWiden acc (max pw.1.natAbs pw.2.natAbs : Nat)
  | n + 1, k, pw, acc => atanhGo p z2 n (k + 1) (ivMul p pw z2) (ivAdd acc (ivDivN pw (2 * k + 1)))

def ivAtanh (p : Nat) (z : Ivl) : Ivl := atanhGo p (ivMul p z z) (p / 3 + 4) 0 z (0, 0)

/-- ln 2 = 2 atanh(1/3). -/
def ivLn2 (p : Nat) : Ivl := let t := ivAtanh p (ivOf p 1 3); ivAdd t t

/-- Σ x^k/k! for 0 ≤ x ≤ 1, with the remainder bounded by twice the last term. -/
def expGo (p : Nat) (x : Ivl) : Nat → Nat → Ivl → Ivl → Ivl
  | 0, _, t, acc => ivWiden acc (2 * (max t.1.natAbs t.2.natAbs : Nat))
  | n + 1, k, t, acc => expGo p x n (k + 1) (ivDivN (ivMul p t x) (k + 1)) (ivAdd acc t)

def ivExp (p : Nat) (x : Ivl) : Ivl := expGo p x (p / 2 + 8) 0 ((2 : Int) ^ p, (2 : Int) ^ p) (0, 0)

/-- Alternating Taylor series of sin (k0 = 1, first term x) or cos (k0 = 0, first term 1) for |x| ≤ 1. -/
def trigGo (p : Nat) (x2 : Ivl) : Nat → Nat → Ivl → Ivl → Ivl
  | 0, _, t, acc => ivWiden acc (2 * (max t.1.natAbs t.2.natAbs : Nat))
  | n + 1, k, t, acc => trigGo p x2 n (k + 2) (ivNeg (ivDivN (ivMul p t x2) ((k + 1) * (k + 2)))) (ivAdd acc t)

def ivSinS (p : Nat) (x : Ivl) : Ivl := trigGo p (ivMul p x x) (p / 4 + 8) 1 x (0, 0)
def ivCosS (p : Nat) (x : Ivl) : Ivl := trigGo p (ivMul p x x) (p / 4 + 8) 0 ((2 : Int) ^ p, (2 : Int) ^ p) (0, 0)

/-- Σ (−1)^k / ((2k+1) b^(2k+1)): arctan(1/b). -/
def atanInvGo (b2 : Nat) : Nat → Nat → Ivl → Ivl → Ivl
  | 0, _, t, acc => ivWiden acc (max t.1.natAbs t.2.natAbs : Nat)
  | n + 1, k, t, acc => atanInvGo b2 n (k + 1) (ivNeg (ivDivN t b2)) (ivAdd acc (ivDivN t (2 * k + 1)))

def ivAtanInv (p b : Nat) : Ivl := atanInvGo (b * b) (p / 4 + 8) 0 (ivOf p 1 b) (0, 0)

/-- π/4 = 4 arctan(1/5) − arctan(1/239). -/
def ivPi4 (p : Nat) : Ivl :=
  let a := ivAtanInv p 5
  let a2 := ivAdd a a
  ivSub (ivAdd a2 a2) (ivAtanInv p 239)

/-- 2^(n/d) for any fraction: an enclosure scaled by 2^p, and a power of two to multiply it with. -/
def ivExp2 (p : Nat) (n : Int) (d : Nat) : Ivl × Int :=
  let k := n / (d : Int)                       -- floor
  let r := n % (d : Int)
  (ivExp p (ivMul p (ivOf p r d) (ivLn2 p)), k)

/-- log2(n/d): an enclosure scaled by 2^p. -/
def ivLog2 (p n d : Nat) : Ivl :=
  let e := log2Frac n d
  let s := pow2 (-e)
  -- m = (n/d) 2^-e in [1, 2), z = (m − 1)/(m + 1) in [0, 1/3)
  let a := n * s.1
  let b := d * s.2
  let z := ivOf p ((a : Int) - b) (a + b)
  let t := ivAtanh p z
  let lnm := ivAdd t t
  let l2 := ivLn2 p
  let lo := if 0 ≤ lnm.1 then lnm.1 * 2 ^ p / l2.2 else lnm.1 * 2 ^ p / l2.1
  let hi := if 0 ≤ lnm.2 then lnm.2 * 2 ^ p / l2.1 + 1 else lnm.2 * 2 ^ p / l2.2 + 1
  (lo + e * 2 ^ p, hi + e * 2 ^ p)

/-- sin(n/d) (cos when isCos): an enclosure scaled by 2^p. The argument is reduced by the nearest multiple of π/2,
with the precision raised by the size of the multiple. -/
def ivTrig (isCos : Bool) (p : Nat) (neg : Bool) (n d : Nat) : Ivl :=
  let g := p + Nat.log2 (n / d + 1) + 8
  let q4 := ivPi4 g
  let x : Int := sNum neg n
  -- nearest integer to x / (π/2)
  let k : Int := (2 * x * 2 ^ g + (d : Int) * 2 * q4.1) / ((d : Int) * 4 * q4.1)
  let r := ivSub (ivOf g x d) (2 * k * (if 0 ≤ k then q4.1 else q4.2), 2 * k * (if 0 ≤ k then q4.2 else q4.1))
  let r : Ivl := (r.1 / 2 ^ (g - p), r.2 / 2 ^ (g - p) + 1)
  let k := if isCos then k + 1 else k
  match (k % 4).toNat with
  | 0 => ivSinS p r
  | 1 => ivCosS p r
  | 2 => ivNeg (ivSinS p r)
  | _ => ivNeg (ivCosS p r)

/-- An integer scaled by 2^p and by a power of two, as an exact value. -/
def xOfScaled (i : Int) (p : Nat) (k : Int) : XVal :=
  let s := pow2 k
  .fin (i < 0) (i.natAbs * s.1) (2 ^ p * s.2)

/-- Rounds an irrational result: both ends of an enclosure must round to one encoding with one set of flags, at
precisions p, 2p, ...; inexact is then certain. -/
def roundIvl (c : RCtl) (f : VTy) (op x : Nat) (enc : Nat → Ivl × Int) : Nat → Nat → Nat × Nat
  | 0, _ => Config.transcendental op (VTy.code f) (match c.m with | .rne => 0 | .rtz => 1 | .rup => 2 | .rdn => 3) x
  | n + 1, p =>
    let e := enc p
    let lo := rnd c f (xOfScaled e.1.1 p e.2)
    let hi := rnd c f (xOfScaled e.1.2 p e.2)
    if lo = hi && lo.2 &&& fInexact != 0 then lo else roundIvl c f op x enc n (2 * p)

def fExp2E (c : RCtl) (f : VTy) (a : Nat) : Nat × Nat :=
  withFl (snanFlag f a) <|
    match srcVal c f a with
    | .nan => (canonNan f, 0)
    | .inf s => if s then (encZero f false, 0) else (encInf f false, 0)
    | .fin s n d =>
      let x := sNum s n
      -- beyond every format's range the result is that of ±1000
      if 1000 * (d : Int) < x then rnd c f (.fin false (2 ^ 1000) 1)
      else if x < -1000 * (d : Int) then rnd c f (.fin false 1 (2 ^ 1000))
      else if n % d = 0 then
        let k := pow2 (sNum s (n / d)); rnd c f (.fin false k.1 k.2)
      else roundIvl c f 3 a (fun p => ivExp2 p x d) 8 64

def fLog2E (c : RCtl) (f : VTy) (a : Nat) : Nat × Nat :=
  withFl (snanFlag f a) <|
    match srcVal c f a with
    | .nan => (canonNan f, 0)
    | .inf s => if s then invalidNan f else (encInf f false, 0)
    | .fin s n d =>
      if n = 0 then (encInf f true, fDivzero)
      else if s then invalidNan f
      else
        let e := log2Frac n d
        let t := pow2 e
        if n * t.2 = t.1 * d then rnd c f (.fin (e < 0) e.natAbs 1)
        else roundIvl c f 4 a (fun p => (ivLog2 p n d, 0)) 8 64

def fTrigE (isCos : Bool) (c : RCtl) (f : VTy) (a : Nat) : Nat × Nat :=
  withFl (snanFlag f a) <|
    match srcVal c f a with
    | .nan => (canonNan f, 0)
    | .inf _ => invalidNan f
    | .fin s n d =>
      if n = 0 then (if isCos then rnd c f (.fin false 1 1) else (encZero f s, 0))
      else roundIvl c f (if isCos then 6 else 5) a (fun p => (ivTrig isCos p s n d, 0)) 8 64

end Sys2Proof.Machine
end

