-- ==== Sys2Proof/Machine/Scalar.lean ====
section
/-! DEFINITION. The scalar arithmetic words (R186 to R195). -/

namespace Sys2Proof.Machine

/-- The operating width of an stype (R187). -/
def SType.bits : SType → Nat
  | .i64 | .n64 | .b64 => 64
  | .i32 | .n32 => 32

/-- Whether an stype reads its operands signed (R187). -/
def SType.signed : SType → Bool
  | .i64 | .i32 => true
  | _ => false

/-- The second source as 64 bits: an immediate is zero-extended under .n types, else sign-extended (R188). -/
def sSrc (s : State) (t : SType) : SSrc → W64
  | .reg b => readReg s b
  | .imm v => match t with
    | .n32 | .n64 => v.zeroExtend 64
    | _ => v.signExtend 64

/-- The low n bits of a source as a number. -/
def sBits (t : SType) (x : W64) : Nat := zextN (SType.bits t) x.toNat

/-- A source as its type reads it (R187). -/
def sInt (t : SType) (x : W64) : Int :=
  if SType.signed t then sextN (SType.bits t) x.toNat else (sBits t x : Int)

/-- The result wrap(r, n), extended into 64 bits under the type (R187). -/
def sWrap (t : SType) (r : Int) : W64 :=
  match t with
  | .i32 => w64I (sextN 32 (wrapI 32 r))
  | .n32 => w64 (wrapI 32 r)
  | _ => w64I r

/-- A scalar word of two sources: reads a and b, writes d, continues (R189). -/
def sBinary (t : SType) (d a : Sel) (b : SSrc) (f : W64 → W64 → Int) (s : State) : Res :=
  .done (writeReg s d (sWrap t (f (readReg s a) (sSrc s t b))))

/-- A scalar word of one source. -/
def sUnary (t : SType) (d a : Sel) (f : W64 → Int) (s : State) : Res :=
  .done (writeReg s d (sWrap t (f (readReg s a))))

/-- Quotient of R82: truncated, 0 for a zero divisor. -/
def quot (x y : Int) : Int := if y = 0 then 0 else x.tdiv y

/-- Remainder of R82: the sign of the dividend, the dividend itself for a zero divisor. -/
def remd (x y : Int) : Int := if y = 0 then x else x.tmod y

/-- A division word: divzero when the divisor is 0 (R82). -/
def sDivide (t : SType) (d a : Sel) (b : SSrc) (f : Int → Int → Int) (s : State) : Res :=
  let x := sInt t (readReg s a)
  let y := sInt t (sSrc s t b)
  .done (orFlags (writeReg s d (sWrap t (f x y))) (if y = 0 then fDivzero else 0))

/-- R190 sadd. -/
def execSadd (t : SType) (d a : Sel) (b : SSrc) (s : State) : Out :=
  word (.sadd t d a b) s (sBinary t d a b (fun x y => sInt t x + sInt t y))

/-- R190 ssub. -/
def execSsub (t : SType) (d a : Sel) (b : SSrc) (s : State) : Out :=
  word (.ssub t d a b) s (sBinary t d a b (fun x y => sInt t x - sInt t y))

/-- R190 smul. -/
def execSmul (t : SType) (d a : Sel) (b : SSrc) (s : State) : Out :=
  word (.smul t d a b) s (sBinary t d a b (fun x y => sInt t x * sInt t y))

/-- R190 smulh: the high half of the exact product. -/
def execSmulh (t : SType) (d a : Sel) (b : SSrc) (s : State) : Out :=
  word (.smulh t d a b) s (sBinary t d a b (fun x y => (sInt t x * sInt t y) / (2 ^ SType.bits t : Nat)))

/-- R190 sdiv under R82. -/
def execSdiv (t : SType) (d a : Sel) (b : SSrc) (s : State) : Out := word (.sdiv t d a b) s (sDivide t d a b quot)

/-- R190 srem under R82. -/
def execSrem (t : SType) (d a : Sel) (b : SSrc) (s : State) : Out := word (.srem t d a b) s (sDivide t d a b remd)

/-- R190 sand. -/
def execSand (t : SType) (d a : Sel) (b : SSrc) (s : State) : Out :=
  word (.sand t d a b) s (sBinary t d a b (fun x y => (sBits t (x &&& y) : Int)))

/-- R190 sor. -/
def execSor (t : SType) (d a : Sel) (b : SSrc) (s : State) : Out :=
  word (.sor t d a b) s (sBinary t d a b (fun x y => (sBits t (x ||| y) : Int)))

/-- R190 sxor. -/
def execSxor (t : SType) (d a : Sel) (b : SSrc) (s : State) : Out :=
  word (.sxor t d a b) s (sBinary t d a b (fun x y => (sBits t (x ^^^ y) : Int)))

/-- R190 sandn: a and not b. -/
def execSandn (t : SType) (d a : Sel) (b : SSrc) (s : State) : Out :=
  word (.sandn t d a b) s (sBinary t d a b (fun x y => (sBits t (x &&& ~~~y) : Int)))

/-- Shift amount of R191. -/
def sAmt (y : W64) : Nat := y.toNat % 256

/-- Left shift of the n-bit field; 0 for n to 255 (R191). -/
def shlN (n x k : Nat) : Nat := if n ≤ k then 0 else (x * 2 ^ k) % 2 ^ n

/-- Logical right shift of the n-bit field (R191). -/
def shrN (n x k : Nat) : Nat := if n ≤ k then 0 else (x % 2 ^ n) / 2 ^ k

/-- Arithmetic right shift by the sign of the n-bit field (R191). -/
def sraN (n x k : Nat) : Int := if n ≤ k then (if bitN x (n - 1) then -1 else 0) else sextN n x / (2 ^ k : Nat)

/-- Right rotation of the n-bit field by k mod n (R191). -/
def rotN (n x k : Nat) : Nat :=
  let r := k % n
  let v := x % 2 ^ n
  v / 2 ^ r + (v % 2 ^ r) * 2 ^ (n - r)

/-- R191 sshl. -/
def execSshl (t : SType) (d a : Sel) (b : SSrc) (s : State) : Out :=
  word (.sshl t d a b) s (sBinary t d a b (fun x y => (shlN (SType.bits t) x.toNat (sAmt y) : Int)))

/-- R191 sshr. -/
def execSshr (t : SType) (d a : Sel) (b : SSrc) (s : State) : Out :=
  word (.sshr t d a b) s (sBinary t d a b (fun x y => (shrN (SType.bits t) x.toNat (sAmt y) : Int)))

/-- R191 ssra. -/
def execSsra (t : SType) (d a : Sel) (b : SSrc) (s : State) : Out :=
  word (.ssra t d a b) s (sBinary t d a b (fun x y => sraN (SType.bits t) x.toNat (sAmt y)))

/-- R191 srot. -/
def execSrot (t : SType) (d a : Sel) (b : SSrc) (s : State) : Out :=
  word (.srot t d a b) s (sBinary t d a b (fun x y => (rotN (SType.bits t) x.toNat (sAmt y) : Int)))

/-- R190 smin. -/
def execSmin (t : SType) (d a : Sel) (b : SSrc) (s : State) : Out :=
  word (.smin t d a b) s (sBinary t d a b (fun x y => min (sInt t x) (sInt t y)))

/-- R190 smax. -/
def execSmax (t : SType) (d a : Sel) (b : SSrc) (s : State) : Out :=
  word (.smax t d a b) s (sBinary t d a b (fun x y => max (sInt t x) (sInt t y)))

/-- R190 sabs. -/
def execSabs (t : SType) (d a : Sel) (s : State) : Out :=
  word (.sabs t d a) s (sUnary t d a (fun x => ((sInt t x).natAbs : Int)))

/-- R190 sclz. -/
def execSclz (t : SType) (d a : Sel) (s : State) : Out :=
  word (.sclz t d a) s (sUnary t d a (fun x => (clzN (SType.bits t) (sBits t x) : Int)))

/-- R190 sctz. -/
def execSctz (t : SType) (d a : Sel) (s : State) : Out :=
  word (.sctz t d a) s (sUnary t d a (fun x => (ctzN (SType.bits t) (sBits t x) : Int)))

/-- R190 spop. -/
def execSpop (t : SType) (d a : Sel) (s : State) : Out :=
  word (.spop t d a) s (sUnary t d a (fun x => (popN (SType.bits t) (sBits t x) : Int)))

/-- Width of the field of a control value (R192): pos = ctl[5:0], len = ctl[14:8], at most 64. -/
def bfWidth (n ctl : Nat) : Nat :=
  let pos := fldN ctl 0 6
  let len := min (fldN ctl 8 7) 64
  if n ≤ pos || len = 0 then 0 else min (pos + len) n - pos

/-- Field extract at width n (R192). -/
def bfExtract (n : Nat) (sgn : Bool) (x ctl : Nat) : Int :=
  let w := bfWidth n ctl
  let f := fldN x (fldN ctl 0 6) w
  if sgn && 0 < w then sextN w f else (f : Int)

/-- Field insert at width n (R192). -/
def bfInsert (n d x ctl : Nat) : Nat :=
  let w := bfWidth n ctl
  setFld (d % 2 ^ n) (fldN ctl 0 6) w (x % 2 ^ w)

/-- R192 sbfx. -/
def execSbfx (t : SType) (d a : Sel) (b : SSrc) (s : State) : Out :=
  word (.sbfx t d a b) s
    (sBinary t d a b (fun x y => bfExtract (SType.bits t) (SType.signed t) (sBits t x) y.toNat))

/-- R192 sbfi: the destination is read as a source. -/
def execSbfi (t : SType) (d a : Sel) (b : SSrc) (s : State) : Out :=
  word (.sbfi t d a b) s (fun s =>
    sBinary t d a b (fun x y => (bfInsert (SType.bits t) (readReg s d).toNat (sBits t x) y.toNat : Int)) s)

/-- R190 sbrev. -/
def execSbrev (t : SType) (d a : Sel) (s : State) : Out :=
  word (.sbrev t d a) s (sUnary t d a (fun x => (revN (SType.bits t) (sBits t x) : Int)))

/-- R190 scmp: -1, 0 or +1, with -1 in all 64 bits under every type. -/
def execScmp (t : SType) (d a : Sel) (b : SSrc) (s : State) : Out :=
  word (.scmp t d a b) s (fun s =>
    let x := sInt t (readReg s a)
    let y := sInt t (sSrc s t b)
    .done (writeReg s d (if x < y then BitVec.allOnes 64 else if x = y then 0 else 1)))

/-- R190 ssel: c is tested as a whole 64-bit register. -/
def execSsel (t : SType) (d a b c : Sel) (s : State) : Out :=
  word (.ssel t d a b c) s (fun s =>
    .done (writeReg s d (sWrap t (if readReg s c ≠ 0 then sInt t (readReg s a) else sInt t (readReg s b)))))

/-- Registers per lane that a pop of a queue lands in (R282): 1, 0, 4, or as many as the element holds. -/
def landCount (q : Nat) (e : Option QElem) : Nat :=
  if q = 0 then 1 else if q = 1 then 0 else if q = 2 then 4
  else match e with
    | some e => e.regs
    | none => 1

/-- The landing check of a pop (R282): the destination is sN, vN onward within the allotment, aligned. -/
def landOk (g : Group) (q n : Nat) (e : Option QElem) : Bool :=
  let c := landCount q e
  c = 0 || (n % c = 0 && n + c ≤ g.allot)

/-- The lanes and values that a pop writes: the element's, within lanes_live() (R282). -/
def landVals (g : Group) (sl : Bool) (e : QElem) : List (Nat × List W32) :=
  e.lanes.filter (fun l => bit (live g sl) l.1)

/-- R194, R281 to R283: pops a queue into sN and vN onward as a deferred result; parks while it is empty. -/
def popQueue (s : State) (loc : Nat) (g : Group) (sl : Bool) (d : Sel) (q : Nat) : Res :=
  let l := mgetD g.queue q []
  if !selIsS d || !landOk g q d.toNat l.head? then raise s cIllegalReg
  else if (markedKeys s).any (fun k =>
      (List.range (landCount q l.head?)).any (fun j => k = 256 + d.toNat + j)) then .stall s
  else if counterFull s .engine 1 then .stall s
  else
    match l with
    | e :: t =>
      if !e.ready then .park s (.pop q)
      else
        let s := setGroup s loc { g with queue := msetD g.queue q t [] }
        let (id, s) := takeFresh s
        let p := newPend id sl (some .engine) (.pop d (landCount q (some e))) (live g sl) (.value (landVals g sl e) e.header)
        .done (addPend s { p with flags := e.flags })
    | [] => .park s (.pop q)

/-- R190 smov, and R194 for a queue source. -/
def execSmov (t : SType) (d a : Sel) (s : State) : Out :=
  word (.smov t d a) s (fun s =>
    if selIsQ a then
      match s.agent with
      | .group loc sl =>
        match mget s.groups loc with
        | some g => popQueue s loc g sl d (a.toNat - 0x50)
        | none => raise s cIllegalReg
      | _ => raise s cIllegalReg
    else sUnary t d a (fun x => sInt t x) s)

/-- R190 sli. -/
def execSli (t : SType) (d : Sel) (imm : W32) (s : State) : Out :=
  word (.sli t d imm) s (fun s => .done (writeReg s d (sWrap t (sInt t (sSrc s t (.imm imm))))))

/-- R193 slih: bits [63:32] of d become imm32. -/
def execSlih (d : Sel) (imm : W32) (s : State) : Out :=
  word (.slih d imm) s (fun s => .done (writeReg s d (imm ++ (readReg s d).truncate 32)))

/-- R195 slea. -/
def execSlea (t : SType) (d a b : Sel) (sh : BitVec 6) (s : State) : Out :=
  word (.slea t d a b sh) s (fun s =>
    .done (writeReg s d (sWrap t (((sBits t (readReg s a) + sBits t (readReg s b) * 2 ^ sh.toNat : Nat)) : Int))))

end Sys2Proof.Machine
end

