-- ==== Sys2Proof/Machine/Lanewise.lean ====
section
/-! DEFINITION. What the vector words share: one value and one set of flags per computed lane, written in the lanes of
active(k) (R212 to R216), and lane masks written whole (R222). -/

namespace Sys2Proof.Machine

/-- The lanes a word computes (R13, R212). -/
def actLanes (g : Group) (sl : Bool) (k : BitVec 4) : List Nat := lanesOf (activeOf g sl k) g.width

/-- Lane i of source b: vB, or the broadcast scalar's low bits of the type's class (R214). -/
def bVal (s : State) (loc : Nat) (g : Group) (sl : Bool) (o : VOp) (wide : Bool) (i : Nat) : Nat :=
  if o.bs then zextN (if wide then 64 else 32) (gRead g o.b).toNat else vVal s loc g sl wide o.b i

/-- Flags of all computed lanes (R212). -/
def flagsOf (l : List (Nat × Nat × Nat)) : Nat := l.foldl (fun a x => a ||| x.2.2) 0

/-- Writes the values computed for lanes into d and ORs their flags (R212, R215). Lane results are taken from the state
before any is written. -/
def putLanes (s : State) (loc : Nat) (g : Group) (sl : Bool) (wide : Bool) (d : Sel) (l : List (Nat × Nat × Nat)) : State :=
  orFlags (vWriteLanes s loc g sl d (l.map (fun x => (x.1, splitVal wide x.2.1)))) (flagsOf l)

/-- A vector word whose result is f of each lane: the value and its flags. -/
def laneWord (i : Instr) (o : VOp) (wide : Bool) (f : State → Nat → Group → Bool → Nat → Nat × Nat) (s : State) : Out :=
  groupWord i s (fun s loc g sl =>
    .done (putLanes s loc g sl wide o.d ((actLanes g sl o.k).map (fun j => (j, f s loc g sl j)))))

/-- An integer operand read under R215. -/
def vInt (t : VTy) (x : Nat) : Int := if VTy.isSigned t then sextN (ibits t) x else (zextN (ibits t) x : Nat)

/-- An integer result: wrapped, or clamped under .sat (R215). -/
def vOut (o : VOp) (r : Int) : Nat := wrapI (ibits o.ty) (if o.sat then satint o.ty r else r)

/-- An integer word of two sources (R218). -/
def intWord2 (i : Instr) (o : VOp) (f : Nat → Nat → Int) (s : State) : Out :=
  laneWord i o (VTy.wide o.ty) (fun s loc g sl j =>
    (vOut o (f (vVal s loc g sl (VTy.wide o.ty) o.a j) (bVal s loc g sl o (VTy.wide o.ty) j)), 0)) s

/-- An integer word of one source (R218). -/
def intWord1 (i : Instr) (o : VOp) (f : Nat → Int) (s : State) : Out :=
  laneWord i o (VTy.wide o.ty) (fun s loc g sl j => (vOut o (f (vVal s loc g sl (VTy.wide o.ty) o.a j)), 0)) s

/-- A division word: divzero from each lane whose divisor is 0 (R82, R218). -/
def divWord (i : Instr) (o : VOp) (f : Int → Int → Int) (s : State) : Out :=
  laneWord i o (VTy.wide o.ty) (fun s loc g sl j =>
    let x := vInt o.ty (vVal s loc g sl (VTy.wide o.ty) o.a j)
    let y := vInt o.ty (bVal s loc g sl o (VTy.wide o.ty) j)
    (vOut o (f x y), if y = 0 then fDivzero else 0)) s

/-- kD of a comparison: computed lanes take their condition, other lanes below width keep their bit, the rest is 0
(R222). -/
def maskResult (old : W64) (width : Nat) (l : List (Nat × Bool)) : W64 :=
  (old &&& fullMask width &&& ~~~(maskOf (l.map (·.1)))) ||| maskOf ((l.filter (·.2)).map (·.1))

/-- A comparison word with the condition and flags of each lane (R222, R228). -/
def cmpWord (i : Instr) (o : VOp) (f : Nat → Nat → Bool × Nat) (s : State) : Out :=
  groupWord i s (fun s loc g sl =>
    let r := (actLanes g sl o.k).map (fun j =>
      (j, f (vVal s loc g sl (VTy.wide o.ty) o.a j) (bVal s loc g sl o (VTy.wide o.ty) j)))
    let m := maskResult (gRead g o.d) g.width (r.map (fun x => (x.1, x.2.1)))
    .done (orFlags (writeReg s o.d m) (r.foldl (fun a x => a ||| x.2.2) 0)))

/-! ### Floating-point control -/

/-- FMT of the issuing slot (R66). -/
def slotFmt (g : Group) (sl : Bool) : Nat := (getSlot g sl).fmt.toNat

/-- A rounding mode code of FMT.rm (R66). -/
def fmtMode (n : Nat) : RMode := match n with | 0 => .rne | 1 => .rtz | 2 => .rup | _ => .rdn

/-- The mode of a word: mod[14:12], or FMT.rm when it is 0 (R225). -/
def modeOf (g : Group) (sl : Bool) (rm : Option RMode) : RMode := rm.getD (fmtMode (fldN (slotFmt g sl) 8 2))

def fmtFzi (g : Group) (sl : Bool) : Bool := bitN (slotFmt g sl) 10
def fmtFzo (g : Group) (sl : Bool) : Bool := bitN (slotFmt g sl) 11
def fmtSat (g : Group) (sl : Bool) : Bool := bitN (slotFmt g sl) 12

/-- Rounding of a floating-point word: its mode and .sat, the flushing of FMT (R225). -/
def rctl (g : Group) (sl : Bool) (rm : Option RMode) (sat : Bool) : RCtl :=
  { m := modeOf g sl rm, sat := sat, fzi := fmtFzi g sl, fzo := fmtFzo g sl }

/-- A floating-point word of two sources (R226). -/
def fltWord2 (i : Instr) (o : VOp) (f : RCtl → VTy → Nat → Nat → Nat × Nat) (s : State) : Out :=
  laneWord i o false (fun s loc g sl j =>
    f (rctl g sl o.rm o.sat) o.ty (vVal s loc g sl false o.a j) (bVal s loc g sl o false j)) s

/-- A floating-point word of one source (R226). -/
def fltWord1 (i : Instr) (o : VOp) (f : RCtl → VTy → Nat → Nat × Nat) (s : State) : Out :=
  laneWord i o false (fun s loc g sl j => f (rctl g sl o.rm o.sat) o.ty (vVal s loc g sl false o.a j)) s

/-- Clears the sign bit of an encoding (R226). -/
def absBits (f : VTy) (e : Nat) : Nat := e % 2 ^ (fbits f - 1)

/-- Inverts the sign bit of an encoding (R226). -/
def negBits (f : VTy) (e : Nat) : Nat := (e + 2 ^ (fbits f - 1)) % 2 ^ fbits f

/-- fcmp of two encodings: the condition and its flags (R228). -/
def fCompare (c : FCond) (fzi : Bool) (f : VTy) (a b : Nat) : Bool × Nat :=
  let x := flushIn fzi f a
  let y := flushIn fzi f b
  let sn := snanFlag f a ||| snanFlag f b
  let r := xCmp (val f x) (val f y)
  let anyNan := if r.isNone then fInvalid else sn
  match c with
  | .eq => (r == some 0, sn)
  | .ne => (r != some 0, sn)
  | .lt => (r == some (-1), anyNan)
  | .le => (r == some (-1) || r == some 0, anyNan)
  | .gt => (r == some 1, anyNan)
  | .ge => (r == some 1 || r == some 0, anyNan)
  | .uo => (r.isNone, sn)
  | .ord => (r.isSome, sn)

end Sys2Proof.Machine
end

