-- ==== Sys2Proof/Machine/VecInt.lean ====
section
/-! DEFINITION. The vector integer words, comparisons, selection and moves (R212 to R224). -/

namespace Sys2Proof.Machine

/-- R218 vadd. -/
def execVadd (o : VOp) (s : State) : Out := intWord2 (.vadd o) o (fun x y => vInt o.ty x + vInt o.ty y) s

/-- R218 vsub. -/
def execVsub (o : VOp) (s : State) : Out := intWord2 (.vsub o) o (fun x y => vInt o.ty x - vInt o.ty y) s

/-- R218 vmul. -/
def execVmul (o : VOp) (s : State) : Out := intWord2 (.vmul o) o (fun x y => vInt o.ty x * vInt o.ty y) s

/-- R218 vmulh: the high half of the exact product. -/
def execVmulh (o : VOp) (s : State) : Out :=
  intWord2 (.vmulh o) o (fun x y => (vInt o.ty x * vInt o.ty y) / (2 ^ ibits o.ty : Nat)) s

/-- R218 vmad. -/
def execVmad (o : VOp) (s : State) : Out :=
  laneWord (.vmad o) o (VTy.wide o.ty) (fun s loc g sl j =>
    (vOut o (vInt o.ty (vVal s loc g sl (VTy.wide o.ty) o.a j) * vInt o.ty (bVal s loc g sl o (VTy.wide o.ty) j)
      + vInt o.ty (vVal s loc g sl (VTy.wide o.ty) o.c j)), 0)) s

/-- R218 vdiv. -/
def execVdiv (o : VOp) (s : State) : Out := divWord (.vdiv o) o quot s

/-- R218 vrem. -/
def execVrem (o : VOp) (s : State) : Out := divWord (.vrem o) o remd s

/-- R218 vand. -/
def execVand (o : VOp) (s : State) : Out := intWord2 (.vand o) o (fun x y => ((x &&& y : Nat) : Int)) s

/-- R218 vor. -/
def execVor (o : VOp) (s : State) : Out := intWord2 (.vor o) o (fun x y => ((x ||| y : Nat) : Int)) s

/-- R218 vxor. -/
def execVxor (o : VOp) (s : State) : Out := intWord2 (.vxor o) o (fun x y => ((x ^^^ y : Nat) : Int)) s

/-- x and not y, over n bits. -/
def andNot (n x y : Nat) : Nat := x &&& (2 ^ n - 1 - y % 2 ^ n)

/-- R218 vandn. -/
def execVandn (o : VOp) (s : State) : Out := intWord2 (.vandn o) o (fun x y => (andNot (ibits o.ty) x y : Int)) s

/-- R218 vnot. -/
def execVnot (o : VOp) (s : State) : Out := intWord1 (.vnot o) o (fun x => -(x : Int) - 1) s

/-- R219 vshl. -/
def execVshl (o : VOp) (s : State) : Out := intWord2 (.vshl o) o (fun x y => (shlN (ibits o.ty) x (y % 256) : Int)) s

/-- R219 vshr. -/
def execVshr (o : VOp) (s : State) : Out := intWord2 (.vshr o) o (fun x y => (shrN (ibits o.ty) x (y % 256) : Int)) s

/-- R219 vsra. -/
def execVsra (o : VOp) (s : State) : Out := intWord2 (.vsra o) o (fun x y => sraN (ibits o.ty) x (y % 256)) s

/-- R218 vmin. -/
def execVmin (o : VOp) (s : State) : Out := intWord2 (.vmin o) o (fun x y => min (vInt o.ty x) (vInt o.ty y)) s

/-- R218 vmax. -/
def execVmax (o : VOp) (s : State) : Out := intWord2 (.vmax o) o (fun x y => max (vInt o.ty x) (vInt o.ty y)) s

/-- R218 vabs. -/
def execVabs (o : VOp) (s : State) : Out := intWord1 (.vabs o) o (fun x => ((vInt o.ty x).natAbs : Int)) s

/-- R218 vneg. -/
def execVneg (o : VOp) (s : State) : Out := intWord1 (.vneg o) o (fun x => -vInt o.ty x) s

/-- R218 vclz. -/
def execVclz (o : VOp) (s : State) : Out := intWord1 (.vclz o) o (fun x => (clzN (ibits o.ty) x : Int)) s

/-- R218 vpop. -/
def execVpop (o : VOp) (s : State) : Out := intWord1 (.vpop o) o (fun x => (popN (ibits o.ty) x : Int)) s

/-- R220 vbfx. -/
def execVbfx (o : VOp) (s : State) : Out :=
  intWord2 (.vbfx o) o (fun x y => bfExtract (ibits o.ty) (VTy.isSigned o.ty) x y) s

/-- R220 vbfi: the lanes of vD are sources. -/
def execVbfi (o : VOp) (s : State) : Out :=
  laneWord (.vbfi o) o (VTy.wide o.ty) (fun s loc g sl j =>
    (bfInsert (ibits o.ty) (vVal s loc g sl (VTy.wide o.ty) o.d j) (vVal s loc g sl (VTy.wide o.ty) o.a j)
      (bVal s loc g sl o (VTy.wide o.ty) j), 0)) s

/-- The condition of vcmp (R222). -/
def iCompare (c : ICond) (x y : Int) : Bool :=
  match c with
  | .eq => decide (x = y) | .ne => decide (x ≠ y) | .lt => decide (x < y)
  | .le => decide (x ≤ y) | .gt => decide (y < x) | .ge => decide (y ≤ x)

/-- R222 vcmp. -/
def execVcmp (c : ICond) (o : VOp) (s : State) : Out :=
  cmpWord (.vcmp c o) o (fun x y => (iCompare c (vInt o.ty x) (vInt o.ty y), 0)) s

/-- R223 vsel. -/
def execVsel (o : VOp) (s : State) : Out :=
  laneWord (.vsel o) o (VTy.wide o.ty) (fun s loc g sl j =>
    (if bit (gRead g o.c) j then vVal s loc g sl (VTy.wide o.ty) o.a j else bVal s loc g sl o (VTy.wide o.ty) j, 0)) s

/-- R224 vmov: lane move, or broadcast of a scalar. -/
def execVmov (o : VOp) (s : State) : Out :=
  laneWord (.vmov o) o (VTy.wide o.ty) (fun s loc g sl j =>
    (if o.bs then bVal s loc g sl o (VTy.wide o.ty) j else vVal s loc g sl (VTy.wide o.ty) o.a j, 0)) s

/-- R224 vli: the immediate in the lanes of active(m). -/
def execVli (d m : Sel) (imm : W32) (s : State) : Out :=
  groupWord (.vli d m imm) s (fun s loc g sl =>
    .done (putLanes s loc g sl false d
      ((lanesOf (live g sl &&& gRead g m) g.width).map (fun j => (j, imm.toNat, 0)))))

/-- A 32-bit or 64-bit value as a scalar: sign-extended under .i types (R224, R237). -/
def scalarOf (t : VTy) (x : Nat) : W64 := if t == .i32 then w64I (sextN 32 x) else w64 x

/-- R224 vmovs: one named lane, live or not. -/
def execVmovs (o : VOp) (s : State) : Out :=
  groupWord (.vmovs o) s (fun s loc g sl =>
    let j := (gRead g o.b).toNat % g.width
    .done (writeReg s o.d (scalarOf o.ty (vVal s loc g sl (VTy.wide o.ty) o.a j))))

/-- Element j of width e of a lane's value, as its type reads it (R221). -/
def dotElem (t : VTy) (e x j : Nat) : Int :=
  if VTy.isSigned t then sextN e (fldN x (e * j) e) else (fldN x (e * j) e : Nat)

/-- A dot product of p elements of e bits, accumulated in 32 bits (R221). -/
def dotWord (i : Instr) (o : VOp) (e p : Nat) (s : State) : Out :=
  laneWord i o false (fun s loc g sl j =>
    let t : VTy := if VTy.isSigned o.ty then .i32 else .n32
    let x := vVal s loc g sl false o.a j
    let y := bVal s loc g sl o false j
    let r := (List.range p).foldl (fun acc n => acc + dotElem o.ty e x n * dotElem o.ty e y n)
      (vInt t (vVal s loc g sl false o.c j))
    (wrapI 32 (if o.sat then satint t r else r), 0)) s

/-- R221 vdot4. -/
def execVdot4 (o : VOp) (s : State) : Out := dotWord (.vdot4 o) o 8 4 s

/-- R221 vdot2. -/
def execVdot2 (o : VOp) (s : State) : Out := dotWord (.vdot2 o) o 16 2 s

end Sys2Proof.Machine
end

