-- ==== Sys2Proof/Machine/Lane.lean ====
section
/-! DEFINITION. Lane exchange, votes, reductions and scans (R235 to R250). -/

namespace Sys2Proof.Machine

/-! ### Shuffles (R242) -/

/-- A shuffle: lane i of E receives vA of lane src(i), or its own value when that lane is absent or out of range
(R238). -/
def shuffleWord (i : Instr) (o : VOp) (src : State → Nat → Group → Bool → Nat → Option Nat) (s : State) : Out :=
  groupWord i s (fun s loc g sl =>
    let e := activeOf g sl o.k
    let w := VTy.wide o.ty
    .done (putLanes s loc g sl w o.d ((actLanes g sl o.k).map (fun j =>
      let from_ := match src s loc g sl j with
        | some n => if n < g.width && bit e n then n else j
        | none => j
      (j, vVal s loc g sl w o.a from_, 0)))))

/-- R242 shfl. -/
def execShfl (o : VOp) (s : State) : Out :=
  shuffleWord (.shfl o) o (fun s loc g sl j => some (bVal s loc g sl o false j % g.width)) s

/-- R242 shflx. -/
def execShflx (o : VOp) (s : State) : Out :=
  shuffleWord (.shflx o) o (fun _ _ _ _ j => some (j ^^^ fldN o.c.toNat 0 6)) s

/-- R242 shfld: c[7] = 1 moves values down the lanes. -/
def execShfld (o : VOp) (s : State) : Out :=
  shuffleWord (.shfld o) o (fun _ _ _ _ j =>
    let n := fldN o.c.toNat 0 6
    if bitN o.c.toNat 7 then some (j + n) else if j < n then none else some (j - n)) s

/-- R242 bcast. -/
def execBcast (o : VOp) (s : State) : Out :=
  shuffleWord (.bcast o) o (fun _ _ g _ _ => some ((gRead g o.b).toNat % g.width)) s

/-! ### Votes, ballot and match (R243 to R245) -/

/-- The values of vA in the present lanes, ascending by lane. -/
def presentVals (s : State) (loc : Nat) (g : Group) (sl : Bool) (o : VOp) : List (Nat × Nat) :=
  (actLanes g sl o.k).map (fun j => (j, vVal s loc g sl (VTy.wide o.ty) o.a j))

/-- Whether all values of a list are equal. -/
def allSame (l : List (Nat × Nat)) : Bool := match l with | [] => true | x :: t => t.all (fun y => y.2 == x.2)

/-- R243 vote. -/
def execVote (o : VOp) (s : State) : Out :=
  groupWord (.vote o) s (fun s loc g sl =>
    let l := presentVals s loc g sl o
    let r := match fldN o.c.toNat 0 2 with
      | 0 => l.any (fun x => x.2 != 0)
      | 1 => l.all (fun x => x.2 != 0)
      | _ => allSame l
    .done (writeReg s o.d (if r then 1 else 0)))

/-- R244 ballot. -/
def execBallot (o : VOp) (s : State) : Out :=
  groupWord (.ballot o) s (fun s loc g sl =>
    .done (writeReg s o.d (maskOf (((presentVals s loc g sl o).filter (fun x => x.2 != 0)).map (·.1)))))

/-- R245 match: the destination is a pair under either type. -/
def execMatchLanes (o : VOp) (s : State) : Out :=
  groupWord (.matchLanes o) s (fun s loc g sl =>
    let l := presentVals s loc g sl o
    .done (putLanes s loc g sl true o.d (l.map (fun x =>
      (x.1, (maskOf ((l.filter (fun y => y.2 == x.2)).map (·.1))).toNat, 0)))))

/-! ### Integer reductions (R237, R247) -/

/-- The identity of an integer operation (R237). -/
def redIdentity (op : RedOp) (t : VTy) : Int :=
  match op with
  | .add | .or | .xor => 0
  | .and => (2 ^ ibits t : Nat) - 1
  | .min => (intRange t).2
  | .max => (intRange t).1

/-- One step of an exact integer reduction. -/
def redStep (op : RedOp) (n : Nat) (x y : Int) : Int :=
  match op with
  | .add => x + y
  | .min => min x y
  | .max => max x y
  | .and => ((wrapI n x &&& wrapI n y : Nat) : Int)
  | .or => ((wrapI n x ||| wrapI n y : Nat) : Int)
  | .xor => ((wrapI n x ^^^ wrapI n y : Nat) : Int)

/-- An exact integer reduction of values read under their type (R247). -/
def redInt (op : RedOp) (t : VTy) (l : List Nat) : Int :=
  l.foldl (fun a x => redStep op (ibits t) a (vInt t x)) (redIdentity op t)

/-- The operation of a reduction word (R240). -/
def opOf (o : VOp) : RedOp := (redOpOf (fldN o.c.toNat 0 3)).getD .add

/-- A group-level or per-lane result of a reduction, by sd = c[7] (R247, R248). -/
def putResult (s : State) (loc : Nat) (g : Group) (sl : Bool) (o : VOp) (r fl : Nat) : State :=
  if bitN o.c.toNat 7 then orFlags (writeReg s o.d (scalarOf o.ty r)) fl
  else orFlags (putLanes s loc g sl (VTy.wide o.ty) o.d ((actLanes g sl o.k).map (fun j => (j, r, 0)))) fl

/-- R247 redi. -/
def execRedi (o : VOp) (s : State) : Out :=
  groupWord (.redi o) s (fun s loc g sl =>
    .done (putResult s loc g sl o (vOut o (redInt (opOf o) o.ty ((presentVals s loc g sl o).map (·.2)))) 0))

/-! ### FP32 trees (R246) -/

/-- A leaf: the value of a present lane and its flags (R246). -/
def treeLeaf (fzi : Bool) (e : Nat) : Nat × Nat :=
  let x := flushIn fzi .f32 e
  (if isNanE .f32 x then canonNan .f32 else x, snanFlag .f32 e)

/-- A node of two present children: value and flags; FMT.fzo applies (R246, R227). -/
def treeNode (op : RedOp) (fzo : Bool) (x y : Nat) : Nat × Nat :=
  match op with
  | .min => fMinMax false false .f32 x y
  | .max => fMinMax true false .f32 x y
  | _ => fAddE { m := .rne, sat := false, fzi := false, fzo := fzo } .f32 x y

/-- One level of the tree: adjacent positions are combined; an empty position passes its neighbour through. Flags of
the nodes computed are collected. -/
def treeLevel (op : RedOp) (fzo : Bool) : List (Option Nat) → List (Option Nat) × Nat
  | x :: y :: t =>
    let r := treeLevel op fzo t
    match x, y with
    | none, z => (z :: r.1, r.2)
    | z, none => (z :: r.1, r.2)
    | some u, some v => let n := treeNode op fzo u v; (some n.1 :: r.1, n.2 ||| r.2)
  | l => (l, 0)

/-- tree(L, op) over a power-of-two list: the root and the flags of its nodes. -/
def treeGo (op : RedOp) (fzo : Bool) : Nat → List (Option Nat) → Nat → Option Nat × Nat
  | 0, l, fl => (l.headD none, fl)
  | n + 1, l, fl => if l.length ≤ 1 then (l.headD none, fl) else
      let r := treeLevel op fzo l; treeGo op fzo n r.1 (fl ||| r.2)

def tree (op : RedOp) (fzo : Bool) (l : List (Option Nat)) : Option Nat × Nat := treeGo op fzo 6 l 0

/-- The identity of an FP32 operation (R237). -/
def fltIdentity (op : RedOp) : Nat :=
  match op with
  | .min => encInf .f32 false
  | .max => encInf .f32 true
  | _ => 0

/-- The leaves of the lanes of a mask, over all positions below width, with their flags. -/
def leaves (s : State) (loc : Nat) (g : Group) (sl : Bool) (o : VOp) (take : Nat → Bool) : List (Option Nat) × Nat :=
  let e := activeOf g sl o.k
  let l := (List.range g.width).map (fun j =>
    if bit e j && take j then some (treeLeaf (fmtFzi g sl) (vVal s loc g sl false o.a j)) else none)
  (l.map (fun x => x.map (·.1)), l.foldl (fun a x => match x with | some y => a ||| y.2 | none => a) 0)

/-- R248 redf. -/
def execRedf (o : VOp) (s : State) : Out :=
  groupWord (.redf o) s (fun s loc g sl =>
    let l := leaves s loc g sl o (fun _ => true)
    let r := tree (opOf o) (fmtFzo g sl) l.1
    .done (putResult s loc g sl o (r.1.getD (fltIdentity (opOf o))) (l.2 ||| r.2)))

/-- Whether lane j is in the prefix of lane i: at or below it, or strictly below under ex (R249). -/
def inPrefix (ex : Bool) (i j : Nat) : Bool := if ex then decide (j < i) else decide (j ≤ i)

/-- R249 scan. -/
def execScan (o : VOp) (s : State) : Out :=
  groupWord (.scan o) s (fun s loc g sl =>
    let ex := bitN o.c.toNat 6
    let op := opOf o
    if o.ty == .f32 then
      .done (putLanes s loc g sl false o.d ((actLanes g sl o.k).map (fun i =>
        let l := leaves s loc g sl o (inPrefix ex i)
        let r := tree op (fmtFzo g sl) l.1
        (i, r.1.getD (fltIdentity op), l.2 ||| r.2))))
    else
      let vals := presentVals s loc g sl o
      .done (putLanes s loc g sl (VTy.wide o.ty) o.d (vals.map (fun x =>
        (x.1, vOut o (redInt op o.ty ((vals.filter (fun y => inPrefix ex x.1 y.1)).map (·.2))), 0)))))

/-! ### Lane counting (R250) -/

/-- R250 firstl. -/
def execFirstl (o : VOp) (s : State) : Out :=
  groupWord (.firstl o) s (fun s _ g sl =>
    .done (writeReg s o.d (w64 (lowest (activeOf g sl o.k &&& gRead g o.a) 64))))

/-- R250 lanes: the count, or each lane's rank. -/
def execLanes (o : VOp) (s : State) : Out :=
  groupWord (.lanes o) s (fun s loc g sl =>
    let p := activeOf g sl o.k &&& gRead g o.a
    if bitN o.c.toNat 7 then .done (writeReg s o.d (w64 (pop64 p)))
    else .done (putLanes s loc g sl false o.d ((actLanes g sl o.k).map (fun j => (j, popN j p.toNat, 0)))))

end Sys2Proof.Machine
end

