-- ==== Sys2Proof/Machine/Copies.lean ====
section
/-! DEFINITION. Copies (R284 to R292): templates and argument blocks, the rejections of R287, conversions, the transfer
of a copy's elements with its errors, counted fills (R129, R130), the status word. A copy's elements are moved at its
completion event, but for those that the script moves earlier (R157, log 3); a page that is not resident makes it wait on a page
request. -/

namespace Sys2Proof.Machine

/-! ### Counted lines (R129 to R131) -/

/-- Counted lines of a die. -/
def linesOf (s : State) (die : Nat) : List CLine := match mget s.dies die with | some d => d.lines | none => []

/-- The counted line of an enclave at a line number of its device addresses. -/
def findLine (s : State) (die eid line : Nat) : Option CLine :=
  (linesOf s die).find? (fun l => l.line == line && l.eid == eid)

def setLines (s : State) (die : Nat) (l : List CLine) : State := updDie s die (fun d => { d with lines := l })

/-- Drops lines of a die; answers whether one of them had a count above zero (R130): Poisoned lines have none. -/
def dropLines (s : State) (die : Nat) (p : CLine → Bool) : Bool × State :=
  let l := linesOf s die
  ((l.filter p).any (fun x => x.st != .poisoned), setLines s die (l.filter (fun x => !p x)))

/-- Drops lines for a group: underread is set in its FLAGS if a count was above zero (R130). -/
def dropFor (s : State) (loc die : Nat) (p : CLine → Bool) : State :=
  let (hit, s) := dropLines s die p
  if hit then updGroup s loc (fun g => { g with flags := g.flags ||| w64 fUnderread }) else s

/-- Set index of a line for a partition on a die: colour and line within its ways (R129). -/
def setIndex (s : State) (die part line : Nat) : Nat :=
  match colours s die part with
  | some (first, b) => (first + colourSlot b line) * 1536 + line / 2 ^ b % 1536
  | none => 0

/-- The highest-numbered cache way of a line's set index that holds no counted line; at most 15 ways hold one (R129). -/
def freeWay (s : State) (die part line : Nat) : Option Nat :=
  let used := ((linesOf s die).filter (fun l =>
    l.part == part && decide (l.way < 16) && setIndex s die part l.line == setIndex s die part line)).map (·.way)
  if 15 ≤ used.length then none
  else ((List.range 16).reverse.filter (fun w => decide (waysOf s part ≤ w) && !used.contains w)).head?

/-! ### Templates (R286) -/

/-- Doubleword n of a template or block. -/
def dwAt (l : List Byte) (n : Nat) : Nat := leNat ((l.drop (8 * n)).take 8)

def tSrck (t : List Byte) : Nat := fldN (dwAt t 0) 0 4
def tDstk (t : List Byte) : Nat := fldN (dwAt t 0) 4 4
def tEsz (t : List Byte) : Nat := fldN (dwAt t 0) 8 4
def tNdim (t : List Byte) : Nat := fldN (dwAt t 0) 12 2
def tConv (t : List Byte) : Nat := fldN (dwAt t 0) 16 8
def tReaders (t : List Byte) : Nat := fldN (dwAt t 0) 24 8
def tShadow (t : List Byte) : Bool := bitN (dwAt t 0) 32
def tSignal (t : List Byte) : Bool := bitN (dwAt t 0) 33
def tSat (t : List Byte) : Bool := bitN (dwAt t 0) 34
/-- Count of dimension n. -/
def tCount (t : List Byte) (n : Nat) : Nat := fldN (dwAt t (1 + n / 2)) (32 * (n % 2)) 32
/-- Source stride of dimension n, from 1 to 3. -/
def tSstr (t : List Byte) (n : Nat) : Int := sextN 32 (fldN (dwAt t (3 + (n - 1) / 2)) (32 * ((n - 1) % 2)) 32)
/-- Destination stride of dimension n, from 1 to 3. -/
def tDstr (t : List Byte) (n : Nat) : Int := sextN 32 (fldN (dwAt t (4 + n / 2)) (32 * (n % 2)) 32)
def tEndpoint (t : List Byte) : Nat := fldN (dwAt t 6) 0 32

/-- Formats of a conversion (R288). -/
def convFmt (n : Nat) : VTy :=
  if n = 1 then .bf16 else if n = 2 then .f16 else if n = 3 then .e4m3 else if n = 4 then .e5m2 else if n = 5 then .fp4
  else .dl8

/-- Source and destination formats of conversions 1 to 13. -/
def convPair (c : Nat) : VTy × VTy :=
  if c = 13 then (.fp4, .fp4) else if c ≤ 6 then (.f32, convFmt c) else (convFmt (c - 6), .f32)

/-- Bits of a source and of a destination element. -/
def srcBits (t : List Byte) : Nat := if tConv t = 0 then 8 * 2 ^ tEsz t else fbits (convPair (tConv t)).1
def dstBits (t : List Byte) : Nat := if tConv t = 0 then 8 * 2 ^ tEsz t else fbits (convPair (tConv t)).2

/-- Elements moved at a time: a pair where FP4 shares a byte (R86), else one. -/
def unitOf (t : List Byte) : Nat := if srcBits t = 4 || dstBits t = 4 then 2 else 1

/-- Elements of a template. -/
def tTotal (t : List Byte) : Nat := (List.range (tNdim t + 1)).foldl (fun n d => n * tCount t d) 1

/-- The rejections of R287 and R288 that depend on the template and argument block alone. -/
def copyMalformed (t : List Byte) (a : List W64) : Bool :=
  let src := (a.headD 0).toNat
  let sig := (a.getD 4 0).toNat
  fldN (dwAt t 0) 14 2 != 0 || fldN (dwAt t 0) 35 29 != 0 || fldN (dwAt t 6) 32 32 != 0 || dwAt t 7 != 0
  || !(1 ≤ tSrck t && tSrck t ≤ 5) || 6 < tDstk t || 13 < tConv t || (tConv t == 0 && 4 < tEsz t)
  || (List.range 4).any (fun d => if d ≤ tNdim t then tCount t d == 0 else tCount t d != 0)
  || (tDstk t != 0 && 2 ^ 40 - 1 < tTotal t * dstBits t / 8)
  || (tDstk t == 6 && (fldN (a.getD 1 0).toNat 40 20 != 0)) || (tShadow t && tDstk t != 6)
  || (tDstk t == 0 && tReaders t == 0) || (tSignal t && sig % 8 != 0)
  || (tReaders t != 0 && !(tSrck t == 1 && tDstk t == 0 && tConv t == 0 && tNdim t == 0 && src % 64 == 0
        && (tCount t 0 * 2 ^ tEsz t) % 64 == 0))
  || (tConv t != 0 && (srcBits t == 4 || dstBits t == 4) && tCount t 0 % 2 != 0)
  || (tConv t == 13 && tCount t 0 % 32 != 0)

/-! ### Addresses of a copy's elements -/

/-- The rows of a copy: number, and start of source and destination, in ascending i1, i2, i3 (R286). -/
def copyRows (t : List Byte) (src dst : Int) : List (Nat × Int × Int) :=
  let c (n : Nat) : Nat := max 1 (tCount t n)
  (List.range (c 3)).flatMap (fun i3 => (List.range (c 2)).flatMap (fun i2 => (List.range (c 1)).map (fun i1 =>
    (i1 + c 1 * (i2 + c 2 * i3),
     src + i1 * tSstr t 1 + i2 * tSstr t 2 + i3 * tSstr t 3,
     dst + i1 * tDstr t 1 + i2 * tDstr t 2 + i3 * tDstr t 3))))

/-- The units of a copy: row, index of the unit in it, source and destination addresses. -/
def copyUnits (t : List Byte) (src dst : Int) : List (Nat × Nat × Int × Int) :=
  let u := unitOf t
  (copyRows t src dst).flatMap (fun r => (List.range (tCount t 0 / u)).map (fun i =>
    (r.1, i, r.2.1 + i * (u * srcBits t / 8 : Nat), r.2.2 + i * (u * dstBits t / 8 : Nat))))

/-- Where a byte of a copy lies: a memory of the module, or a peer's or namespace's. -/
inductive CLoc
  | mem (l : MLoc)
  | far (key a : Nat)

/-- Resolution of a run of bytes for a copy (R289, R291): the bytes; an error code; a translation fault; a page in
flight. -/
inductive CRes
  | ok (l : List CLoc)
  | err (code : Nat)
  | page (code stage page : Nat)
  | wait

/-- The error of a translation that is not resolved (R291, R385). -/
def xlErr (code : Nat) : Nat := if code = cPerm || code = cOwnership then 4 else 3

/-- Translates the bytes of a device run, page by page. -/
def resolveDev (s : State) (c : Ctx) (a : Nat) (wr : Acc) : Nat → CRes × State
  | 0 => (.ok [], s)
  | n + 1 =>
    match translate s c a wr false with
    | (.ok pa _, s) =>
      match resolveDev s c (a + 1) wr n with
      | (.ok l, s) => (.ok (.mem (.hbm pa) :: l), s)
      | r => r
    | (.fault k st pg, s) =>
      if k = cNotmapped || k = cFartier || k = cOwnership then (.page k st pg, s) else (.err (xlErr k), s)
    | (.wait, s) => (.wait, s)

/-- The Scratch Region Table entry of a copy's launch for a scratch address (R123). -/
def copyRegion (s : State) (c : Copy) (a : Nat) : Nat :=
  match mget s.launches c.launch with | some l => mgetD l.region (a / 65536) 1 | none => 1

/-- The context in which the copy engine translates for a copy (R372, R378). -/
def copyCtx (s : State) (c : Copy) : Ctx := { encCtx s c.eid with unit := .copies c.core }

/-- Fields of a stream-table entry (R466). -/
def stEid (x : Stream) : Nat := fldN x.lo.toNat 0 12
def stState (x : Stream) : Nat := fldN x.lo.toNat 12 4
def stPeer (x : Stream) : Nat := fldN x.lo.toNat 16 32
def stRank (x : Stream) : Nat := fldN x.lo.toNat 48 16
def stSelf (x : Stream) : Nat := fldN x.hi.toNat 0 16

/-- Whether the stream of an enclave to a peer endpoint is in error (R468). -/
def streamDown (s : State) (eid peer : Nat) : Bool :=
  s.ue.any (fun p => p.2.table.any (fun x => stEid x.2 == eid && stPeer x.2 == peer && stState x.2 == 3))

/-- The spaces a copy reaches: kind 1 device, 2 scratch, 3 shared, 4 and 5 far (R286, R291). A device address outside the 55-bit
space meets NOTMAPPED at its translation (R369). -/
def resolveRun (s : State) (c : Copy) (kind : Nat) (a : Int) (n : Nat) (wr : Bool) : CRes × State :=
  if kind = 1 then
    if 2 ^ 64 ≤ a then (.page cNotmapped 1 (wrapI 64 a / 65536), s)
    else resolveDev s (copyCtx s c) (wrapI 64 a) (if wr then .write else .read) n
  else if a < 0 then (.err 5, s)
  else
    let x := a.toNat
    if kind = 2 then
      let die := coreDie c.core
      if capacity s die c.part < x + n then (.err 5, s)
      else if wr && (bitN (copyRegion s c x) 2 || bitN (copyRegion s c (x + n - 1)) 2) then (.err 4, s)
      else (.ok ((List.range n).map (fun j => .mem (scratchLoc s die c.part (x + j)))), s)
    else if kind = 3 then
      let sh := match mget s.launches c.launch with | some l => l.shared | none => 0
      if sh < x + n then (.err 5, s)
      else (.ok ((List.range n).map (fun j => .mem (.shared c.team (x + j)))), s)
    else
      let t := tEndpoint c.tmpl
      if c.dead || s.unreachable.contains (kind, t) || (kind == 4 && streamDown s c.eid t) then (.err 7, s)
      else (.ok ((List.range n).map (fun j => .far (2 ^ 32 * kind + t) (x + j))), s)

/-- Destination kind and base of a copy, an alias resolved at issue (R133). -/
def copyDst (c : Copy) : Nat × Int :=
  match c.buf with
  | some (sp, b, _) => (if sp = 3 then 2 else 1, (b : Int) + ((c.arg.getD 1 0).toNat % 2 ^ 40 : Nat))
  | none => (tDstk c.tmpl, ((c.arg.getD 1 0).toNat : Int))

/-- Whether a destination run passes the end of the alias buffer, as it was at issue (R132, R133). -/
def pastBuffer (c : Copy) (a : Int) (n : Nat) : Bool :=
  match c.buf with
  | some (_, b, len) => a < b || ((b + len : Nat) : Int) < a + n
  | none => false

/-! ### Moving the elements -/

def readC (s : State) : CLoc → Byte
  | .mem l => readLoc s l
  | .far k a => readByte (mgetD s.far k []) a

/-- A source byte of a copy: what an inbound write has replaced since the copy began is still read (R162). -/
def sourceC (s : State) (c : Copy) : CLoc → Byte
  | .mem (.hbm pa) => mgetD c.old pa (readByte s.hbm pa)
  | l => readC s l

/-- Before an inbound write at physical addresses: the copies already begun keep the old contents (R162). -/
def keepOld (s : State) (l : List Nat) : State :=
  { s with work := s.work.map (fun w => match w.2 with
      | .copy c => if c.begun then (w.1, .copy { c with old := l.foldl (fun m pa =>
          if (mget m pa).isSome then m else mput m pa (readByte s.hbm pa)) c.old }) else w
      | _ => w) }

/-- The number of a unit of a row. -/
def unitNo (c : Copy) (row i : Nat) : Nat := row * (tCount c.tmpl 0 / unitOf c.tmpl) + i

/-- The number that stands for the signal add, above every unit's. -/
def signalNo (c : Copy) : Nat := tTotal c.tmpl

/-- A unit ready to move: row and index, source and destination addresses and bytes. -/
structure CUnit where
  row : Nat
  idx : Nat
  sa : Nat
  da : Nat
  src : List CLoc
  dst : List CLoc

/-- What keeps a copy from completing, or the units to move and the stopping error, if one was met. -/
inductive CScan
  | ready (l : List CUnit) (err : Nat)
  | page (no code stage page : Nat) (wr : Bool)
  | wait

/-- Scale bytes of the blocks of a row under conversion 13 (R288): as read for a sector of the row, else from the scratch of the
partition. -/
def rowScales (s : State) (c : Copy) (row : Nat) : List Nat :=
  (mget c.scales row).getD (
  let nb := tCount c.tmpl 0 / 32
  let base := (c.arg.getD 2 0).toNat + row * nb
  (List.range nb).map (fun j => (readLoc s (scratchLoc s (coreDie c.core) c.part (base + j))).toNat))

/-- The error that a row of conversion 13 meets at its scales: a byte outside the scratch, or a row scale in a read-only region
(R123, R291). -/
def rowFault (s : State) (c : Copy) (row : Nat) : Option Nat :=
  if tConv c.tmpl != 13 then none
  else
    let cap := capacity s (coreDie c.core) c.part
    let d := (c.arg.getD 3 0).toNat + row
    if cap < (c.arg.getD 2 0).toNat + (row + 1) * (tCount c.tmpl 0 / 32) || cap ≤ d then some 5
    else if bitN (copyRegion s c d) 2 then some 4
    else none

/-- The 16-byte sectors that a run of bytes touches. -/
def sectorsOf (a : Int) (n : Nat) : List Nat := (List.range ((a.toNat % 16 + n + 15) / 16)).map (fun j => a.toNat / 16 + j)

/-- Resolves the source of a unit; one whose sectors have all been read needs none. -/
def unitSource (s : State) (c : Copy) (row : Nat) (sa : Int) (sn : Nat) : CRes × State :=
  if (sectorsOf sa sn).all (fun k => c.held.any (fun h => h.1 == k)) then (.ok [], s)
  else match rowFault s c row with
    | some e => (.err e, s)
    | none => resolveRun s c (tSrck c.tmpl) sa sn false

/-- Resolves the destination of a unit. -/
def unitDest (s : State) (c : Copy) (da : Int) (dn : Nat) : CRes × State :=
  if pastBuffer c da dn then (.err 5, s) else resolveRun s c (copyDst c).1 da dn true

/-- Resolves the units of a copy in order. A page fault stops it; one whose request has failed is a stopping error (R393). -/
def scanUnits (c : Copy) : List (Nat × Nat × Int × Int) → State → List CUnit → CScan × State
  | [], s, acc => (.ready acc.reverse 0, s)
  | (row, i, sa, da) :: rest, s, acc =>
    let t := c.tmpl
    let u := unitOf t
    let no := unitNo c row i
    match if c.waitAt = no then c.pageFail else none with
    | some code => (.ready acc.reverse (xlErr code), s)
    | none =>
      match unitSource s c row sa (u * srcBits t / 8) with
      | (.err e, s) => (.ready acc.reverse e, s)
      | (.page code st pg, s) => (.page no code st pg false, s)
      | (.wait, s) => (.wait, s)
      | (.ok sl, s) =>
        match unitDest s c da (u * dstBits t / 8) with
        | (.err e, s) => (.ready acc.reverse e, s)
        | (.page code st pg, s) => (.page no code st pg true, s)
        | (.wait, s) => (.wait, s)
        | (.ok dl, s) => scanUnits c rest s ({ row := row, idx := i, sa := sa.toNat, da := da.toNat, src := sl, dst := dl } :: acc)

/-- Whether a byte's 16-byte source sector fails its tag (R385). -/
def badC (s : State) : CLoc → Option Nat
  | .mem (.hbm pa) => if lineOk s pa then none else some (pa / 16)
  | _ => none

/-- S of a row (R288). -/
def rowScale (l : List Nat) : Nat := if l.contains 255 then 255 else l.foldl max 0

/-- One element of conversion 13 (R288). -/
def rebase (e scale top : Nat) : Nat :=
  if top = 255 then 0
  else
    let p := pow2 ((scale : Int) - top)
    (round .fp4 .rne true false (xMul (val .fp4 e) (.fin false p.1 p.2))).1

/-- The destination bytes of a unit from its source bytes (R288). -/
def convertUnit (s : State) (c : Copy) (u : CUnit) (b : List Byte) : List Byte :=
  let t := c.tmpl
  if tConv t = 0 then b
  else
    let x := leNat b
    let n := unitOf t
    let els := (List.range n).map (fun j =>
      let e := fldN x (j * srcBits t) (srcBits t)
      if tConv t = 13 then
        let sc := rowScales s c u.row
        rebase e (sc.getD ((u.idx * 2 + j) / 32) 0) (rowScale sc)
      else
        let p := convPair (tConv t)
        (round p.2 .rne (tSat t) false (val p.1 e)).1)
    leBytes (n * dstBits t / 8)
      ((els.zip (List.range n)).foldl (fun a x => a + x.1 * 2 ^ (x.2 * dstBits t)) 0)

/-- A source byte of a sector that a copy has read, with the sector if it failed (R155, R385). -/
def heldByte (c : Copy) (a : Nat) : Option (Byte × Option Nat) :=
  (c.held.find? (fun h => h.1 == a / 16)).bind (fun h => (h.2.1.find? (fun b => b.1 == a)).map (fun b => (b.2, h.2.2)))

/-- The source bytes of a unit, as held or as read now, each with its sector if that fails (R155, R385). -/
def unitBytes (s : State) (c : Copy) (u : CUnit) : List (Byte × Option Nat) :=
  (List.range (unitOf c.tmpl * srcBits c.tmpl / 8)).map (fun j =>
    match heldByte c (u.sa + j) with
    | some b => b
    | none => match u.src[j]? with | some l => (sourceC s c l, badC s l) | none => (0, none))

/-- What a unit writes into the destination sectors that a test selects, and its failed source sectors: an unconverted byte of a failed
sector is not written, nor a converted unit that takes one (R288, R289, R385). -/
def unitPut (s : State) (c : Copy) (take : Nat → Bool) (u : CUnit) : List (CLoc × Byte) × List Nat :=
  let b := unitBytes s c u
  let fails := b.filterMap (·.2)
  let out : List (Option Byte) :=
    if tConv c.tmpl = 0 then b.map (fun x => if x.2.isSome then none else some x.1)
    else if fails.isEmpty then (convertUnit s c u (b.map (·.1))).map some else []
  ((u.dst.zip (out.zip (List.range out.length))).filterMap (fun x =>
    if take ((u.da + x.2.2) / 16) then x.2.1.map (fun v => (x.1, v)) else none), fails)

/-- What units write into the destination sectors that a test selects, the failed source sectors, and whether a destination merge failed:
a line that does not verify is written only when all of it is (R289, R384, R385). All sources are read before any destination is
written. -/
def unitWrites (s : State) (c : Copy) (take : Nat → Bool) (l : List CUnit) : List (CLoc × Byte) × List Nat × Bool :=
  let puts := l.flatMap (fun u => (unitPut s c take u).1)
  let whole (pa : Nat) : Bool :=
    (List.range 64).all (fun j => puts.any (fun d => match d.1 with | .mem (.hbm p) => p == pa / 64 * 64 + j | _ => false))
  let ok := puts.filter (fun x => match x.1 with | .mem (.hbm pa) => lineOk s pa || whole pa | _ => true)
  (ok, l.flatMap (fun u => (unitPut s c take u).2), ok.length != puts.length)

/-- Performs a copy's writes; a line written whole verifies again (R384). -/
def performCopy (s : State) (l : List (CLoc × Byte)) : State :=
  let mem := l.filterMap (fun x => match x.1 with | .mem m => some (m, x.2) | _ => none)
  let s := performWrites s none mem
  let s := mem.foldl (fun s x => match x.1 with | .hbm pa => if pa % 64 = 0 then linesWritten s pa 64 else s | _ => s) s
  { s with far := l.foldl (fun f (x : CLoc × Byte) => match x.1 with
      | .far k a => mput f k (writeByte (mgetD f k []) a x.2) | _ => f) s.far }

/-- The units of a copy: row, index, source and destination addresses. -/
def allUnits (c : Copy) : List (Nat × Nat × Int × Int) := copyUnits c.tmpl (c.arg.headD 0).toNat (copyDst c).2

/-- The source and the destination sectors of a unit. -/
def srcSectors (c : Copy) (u : Nat × Nat × Int × Int) : List Nat := sectorsOf u.2.2.1 (unitOf c.tmpl * srcBits c.tmpl / 8)
def dstSectors (c : Copy) (u : Nat × Nat × Int × Int) : List Nat := sectorsOf u.2.2.2 (unitOf c.tmpl * dstBits c.tmpl / 8)

/-- The row-scale bytes that conversion 13 writes, for the rows begun (R288). -/
def scaleWrites (s : State) (c : Copy) (l : List CUnit) : List (CLoc × Byte) :=
  if tConv c.tmpl = 13 then
    ((l.map (·.row) ++ ((allUnits c).filter (fun u => (dstSectors c u).any c.moved.contains)).map (·.1)).eraseDups).map (fun r =>
      (.mem (scratchLoc s (coreDie c.core) c.part ((c.arg.getD 3 0).toNat + r)),
       BitVec.ofNat 8 (rowScale (rowScales s c r))))
  else []

/-- The status word (R290). -/
def copyStatus (bytes badsec err chan : Nat) (mvn : Bool) : W64 :=
  w64 (1 + (if mvn then 2 else 0) + 16 * (chan % 16) + 256 * err + 65536 * min badsec 255 + 2 ^ 24 * bytes)

/-- How a completion event leaves a copy: unfinished, with the copy as it stands; or finished with its status. -/
inductive CEnd
  | still (c : Copy)
  | done (status : W64)

/-- Reports a page fault that a copy meets at a place and makes it wait there (R289, R391). -/
def copyPage (s : State) (c : Copy) (no code stage page : Nat) (acc : Acc) : CEnd × State :=
  let (pg, s) := pageRequest s (copyCtx s c) code stage page acc
  (.still { c with page := pg, pageFail := none, waitAt := no }, s)

/-- The signal add of a copy that is not rejected and has nothing else left (R289), then its status: an atomic add at .dev, which
waits on a page as a destination write does. An earlier stopping error is kept. Where the word's line fails its tag the add is not made,
and err is INTEGRITY (DESIGN CHOICE, log 48: neither R289 nor R385 lists this consumer). -/
def copySignal (s : State) (c : Copy) (bytes badsec err : Nat) : CEnd × State :=
  let fin (e : Nat) : CEnd := .done (copyStatus bytes badsec e c.chan false)
  let late (e : Nat) : Nat := if err = 0 || err = 6 then e else err
  let c := { c with fin := some (bytes, badsec, err) }
  if !tSignal c.tmpl then (fin err, s)
  else
    match if c.waitAt = signalNo c then c.pageFail else none with
    | some code => (fin (late (xlErr code)), s)
    | none =>
      match resolveDev s (copyCtx s c) (c.arg.getD 4 0).toNat .atomic 8 with
      | (.ok l, s) =>
        if l.any (fun x => (badC s x).isSome) then (fin (late 6), s)
        else
          let v := leNat (l.map (readC s)) + (c.arg.getD 5 0).toNat
          (fin err, performCopy s (l.zip (leBytes 8 v)))
      | (.page k st pg, s) => copyPage s c (signalNo c) k st pg .atomic
      | (.err e, s) => (fin (late e), s)
      | (.wait, s) => (.still c, s)

/-- The units of a copy that still have a destination sector to write. -/
def unitsLeft (c : Copy) : List (Nat × Nat × Int × Int) :=
  (allUnits c).filter (fun u => (dstSectors c u).any (fun k => !c.moved.contains k))

/-- A copy with destination sectors written: the writes performed (R157), what they add to its status kept. -/
def moveSectors (s : State) (c : Copy) (secs : List Nat) (l : List CUnit) : Copy × State :=
  let (w, bad, merge) := unitWrites s c (fun k => secs.contains k && !c.moved.contains k) l
  ({ c with moved := (c.moved ++ secs).eraseDups, wrote := c.wrote + w.length, bad := (c.bad ++ bad).eraseDups,
            merge := c.merge || merge, page := none, pageFail := none },
   performCopy s w)

/-- err of a copy by its stopping error (R291). -/
def copyErr (c : Copy) (stop : Nat) : Nat := if stop != 0 then stop else if !c.bad.isEmpty || c.merge then 6 else 0

/-- The completion event of a copy that is neither rejected nor counted. -/
def runCopy (s : State) (c : Copy) : CEnd × State :=
  let t := c.tmpl
  let far := tDstk t
  match c.sent with
  | some (l, badsec, err) =>
    -- R161: the data read is performed at the peer, or the peer has failed
    if c.dead || s.unreachable.contains (far, tEndpoint t) then copySignal s c 0 badsec (if err = 0 || err = 6 then 7 else err)
    else
      let k := 2 ^ 32 * far + tEndpoint t
      let s := { s with far := mput s.far k (l.foldl (fun m x => writeByte m x.1 x.2) (mgetD s.far k [])) }
      copySignal s c l.length badsec err
  | none =>
    match scanUnits c (unitsLeft c) s [] with
    | (.wait, s) => (.still c, s)
    | (.page no code st pg wr, s) => copyPage s c no code st pg (if wr then .write else .read)
    | (.ready l stop, s) =>
      if (copyDst c).1 = 4 || (copyDst c).1 = 5 then
        let (w, bad, merge) := unitWrites s c (fun _ => true) l
        let nbad := bad.eraseDups.length
        let s := performCopy s (scaleWrites s c l)
        if stop = 7 then copySignal s c 0 nbad 7
        else
          let data := w.filterMap (fun x => match x.1 with | .far _ a => some (a, x.2) | _ => none)
          (.still { c with sent := some (data, nbad, copyErr { c with bad := bad, merge := merge } stop), page := none,
                           pageFail := none }, s)
      else
        let sc := scaleWrites s c l
        let r := moveSectors s c (l.flatMap (fun u => sectorsOf u.da (unitOf t * dstBits t / 8))) l
        copySignal (performCopy r.2 sc) r.1 r.1.wrote r.1.bad.length (copyErr r.1 stop)

/-! ### Counted fills (R129, R130) -/

/-- The Filling lines of a copy, in ascending order. -/
def fillingOf (s : State) (die id : Nat) : List CLine :=
  (linesOf s die).filter (fun l => l.copy == id && l.st == .filling)

/-- Replaces the Filling line of a copy at a line number. -/
def putLine (s : State) (die id line : Nat) (x : CLine) : State :=
  setLines s die ((linesOf s die).map (fun l => if l.copy == id && l.line == line && l.st == .filling then x else l))

/-- One line's fill: Counted with its data, Poisoned, or a stopping error that makes every Filling line of the copy
Absent (R130, R287). A line that finds no free way waits. -/
def fillLine (s : State) (id : Nat) (c : Copy) : Copy × State :=
  let die := coreDie c.core
  match fillingOf s die id with
  | [] => (c, s)
  | l :: _ =>
    match if l.way < 16 then some l.way else freeWay s die c.part l.line with
    | none => (c, s)
    | some way =>
      let stopAt (e : Nat) (s : State) : Copy × State :=
        ({ c with err := e, page := none, pageFail := none },
         (dropLines s die (fun x => x.copy == id && x.st == .filling)).2)
      match if c.waitAt = l.line then c.pageFail else none with
      | some code => stopAt (xlErr code) s
      | none =>
        match translate s (copyCtx s c) (64 * l.line) .read false with
        | (.ok pa _, s) =>
          if lineOk s pa then
            let d := (List.range 64).map (fun j => sourceC s c (.mem (.hbm (pa + j))))
            ({ c with filled := c.filled + 1, begun := true, page := none, pageFail := none },
             noticeWrites (putLine s die id l.line { l with st := .counted, way := way, data := d }) none
               ((List.range 64).map (fun j => MLoc.counted die c.eid (64 * l.line + j))) readLoc)
          else ({ c with badsec := c.badsec + 4, begun := true, page := none, pageFail := none },
                putLine s die id l.line { l with st := .poisoned, way := way })
        | (.fault k st pg, s) =>
          if k = cNotmapped || k = cFartier || k = cOwnership then
            let (q, s) := pageRequest s (copyCtx s c) k st pg .read
            ({ c with page := q, pageFail := none, waitAt := l.line }, s)
          else stopAt (xlErr k) s
        | (.wait, s) => (c, s)

/-- The completion event of a counted copy, once none of its lines is Filling. -/
def runCounted (s : State) (id : Nat) (c : Copy) : CEnd × State :=
  if !(fillingOf s (coreDie c.core) id).isEmpty then (.still c, s)
  else
    let err := if c.err != 0 then c.err else if c.badsec != 0 then 6 else 0
    copySignal s c (64 * c.filled) c.badsec err

/-- The completion event of a copy: a rejected one reports its error and nothing else (R287, R289). -/
def endCopy (s : State) (id : Nat) (c : Copy) : CEnd × State :=
  if c.err = 1 || c.err = 2 then (.done (copyStatus 0 0 c.err c.chan false), s)
  else match c.fin with
    | some (bytes, badsec, err) => copySignal s c bytes badsec err
    | none => if tReaders c.tmpl != 0 then runCounted s id c else runCopy s c

/-! ### Starting a copy (R284, R285, R287) -/

/-- Copies in flight that groups of a core have started (R284). -/
def copiesOn (s : State) (core : Nat) : Nat :=
  (s.work.filter (fun w => match w.2 with
    | .copy c => c.core == core && (match c.owner with | .group _ => true | _ => false)
    | _ => false)).length

/-- The handle space of a source or destination kind. -/
def kindSpace (n : Nat) : Nat := if n = 1 then 4 else if n = 2 then 3 else if n = 3 then 2 else 0

/-- The byte ranges of a copy's source, row by row. -/
def copySrc (c : Copy) : List (Nat × Int × Int) :=
  let t := c.tmpl
  (copyRows t (c.arg.headD 0).toNat (copyDst c).2).map (fun r =>
    (kindSpace (tSrck t), r.2.1, r.2.1 + (tCount t 0 * srcBits t / 8 : Nat)))

/-- The byte ranges of a copy's destination, row by row. -/
def copyDstRanges (c : Copy) : List (Nat × Int × Int) :=
  let t := c.tmpl
  (copyRows t (c.arg.headD 0).toNat (copyDst c).2).map (fun r =>
    (kindSpace (copyDst c).1, r.2.2, r.2.2 + (tCount t 0 * dstBits t / 8 : Nat)))

/-- The byte ranges that a copy may write: its destination, the row scales of conversion 13, its signal word (R288, R289). -/
def copyWrites (c : Copy) : List (Nat × Int × Int) :=
  let at_ (n : Nat) : Int := ((c.arg.getD n 0).toNat : Int)
  copyDstRanges c
  ++ (if tConv c.tmpl = 13 then [(3, at_ 3, at_ 3 + (tTotal c.tmpl / tCount c.tmpl 0 : Nat))] else [])
  ++ (if tSignal c.tmpl then [(4, at_ 4, at_ 4 + 8)] else [])

/-- The handles over a list of ranges (R127). -/
def rangesOver (s : State) (g : Group) (l : List (Nat × Int × Int)) : W64 :=
  l.foldl (fun m r => if r.1 = 0 || r.2.2 < 0 then m else m ||| handlesOver s g r.1 r.2.1.toNat r.2.2.toNat) 0

/-- Counters that a copy raises: of the handles that cover its source or destination, else the untagged one (R127). -/
def copyCover (s : State) (g : Group) (c : Copy) : W64 :=
  let m := if c.err = 0 then rangesOver s g (copySrc c ++ copyDstRanges c) else 0
  if m == 0 then 0x100 else m

/-- Counters that cover a copy's source (R155). -/
def copySource (s : State) (g : Group) (c : Copy) : W64 :=
  let m := if c.err = 0 then rangesOver s g (copySrc c) else 0
  if m == 0 then 0x100 else m

/-- Issues a checked copy: its work, and for a counted one the lines it drops and the lines it begins to fill, in the
order of R130. DESIGN CHOICE (log 72): of the lines that its slot filled, those on its own die are dropped; R130 does not say
whether a copy issued on one die reaches those of another. -/
def launchCopy (s : State) (id : Nat) (c : Copy) : State :=
  let s := { s with work := mput s.work id (.copy c) }
  if c.err != 0 || tReaders c.tmpl = 0 then s
  else
    let die := coreDie c.core
    let first := (c.arg.headD 0).toNat / 64
    let n := tCount c.tmpl 0 * 2 ^ tEsz c.tmpl / 64
    let mine (l : CLine) : Bool :=
      (l.tmpl == c.slot && l.launch == c.launch) || (l.eid == c.eid && decide (first ≤ l.line) && decide (l.line < first + n))
    let s := match c.owner with
      | .group loc => dropFor s loc die mine
      | _ => (dropLines s die mine).2
    (List.range n).foldl (fun s j =>
      let way := (freeWay s die c.part (first + j)).getD 16
      let new : CLine :=
        { part := c.part, eid := c.eid, line := first + j, launch := c.launch, team := c.team, tmpl := c.slot, copy := id, st := .filling,
          count := tReaders c.tmpl, way := way, data := [] }
      setLines s die (linesOf s die ++ [new])) s

/-- The argument block of a copy: none when it breaks R285. -/
def argBlock (s : State) (die part a : Nat) : Option (List W64) :=
  if a % 16 != 0 || 2 ^ 48 ≤ a || capacity s die part < a + 48 then none
  else some ((List.range 6).map (fun j =>
    w64 (readLocs s ((List.range 8).map (fun b => scratchLoc s die part (a + 8 * j + b))))))

/-- A copy of a group from a template and an argument block: its rejections and its alias buffer (R284 to R287). -/
def groupCopy (s : State) (loc : Nat) (g : Group) (chan slot argAt : Nat) : Copy :=
  let t := match launchOf s g with | some l => if slot < 256 then mget l.tmpl slot else none | none => none
  let part := groupPart s g
  let blk := argBlock s (locDie loc) part argAt
  let tm := t.getD []
  let arg := blk.getD []
  let al := aliasOf s g.team ((arg.getD 1 0).toNat / 2 ^ 60)
  let aliasBad := tDstk tm == 6 && (!alValid al || (tShadow tm && !alShadow al))
  let err := if t.isNone then 1 else if blk.isNone || copyMalformed tm arg || aliasBad then 2 else 0
  { owner := .group loc, core := locCore loc, launch := g.launch, team := g.team, eid := groupEid s g, part := part,
    chan := chan, slot := slot, tmpl := tm, arg := arg,
    buf := if err = 0 && tDstk tm == 6 then some (alSpace al, alBuffer al (tShadow tm), alLen al) else none,
    err := err, badsec := 0, lines := [], page := none, pageFail := none, waitAt := 0, begun := false, moved := [], held := [], scales := [],
    wrote := 0, bad := [], merge := false, old := [], fin := none, dead := false, sent := none, filled := 0 }

/-- Whether an argument block can be read now: no earlier store of the group to its bytes, no earlier acquire, and no
earlier S access when it lies in an S region, is still to be performed (R140, R145, R147, R285). -/
def argReady (s : State) (loc : Nat) (g : Group) (a : Nat) : Bool :=
  let l := spaceLocs s loc g 3 a 48
  !(g.pend.any (fun p => !p.returned &&
      ((match p.act with
        | .store w => w.any (fun x => l.contains x.1)
        | .atomic _ _ _ w => w.any (fun x => x.1.locs.any (fun y => l.contains y))
        | _ => false)
       || isAcq p || (p.kind == .s && spaceKind s g 3 a 48 == .s))))

/-- Whether a copy has begun or may begin now: copies of one group on one channel begin in issue order (R284). -/
def mayBegin (s : State) (id : Nat) (c : Copy) : Bool :=
  c.begun || s.work.all (fun w => match w.2 with
    | .copy x => !(decide (w.1 < id) && x.owner == c.owner && x.chan == c.chan && x.err == 0 && !x.begun)
    | _ => true)

/-- Starts one copy of a group, with its status destination (R284). -/
def startCopy (s : State) (loc : Nat) (sl : Bool) (chan slot argAt : Nat) (dst : Dst) : State :=
  match mget s.groups loc with
  | none => s
  | some g =>
    let c := groupCopy s loc g chan slot argAt
    let (id, s) := takeFresh s
    let p := { newPend id sl (some .copy) dst 0 .wait with
      cov := copyCover s g c, src := copySource s g c, aliased := if tDstk c.tmpl = 6 && c.err = 0 then [(c.arg.getD 1 0).toNat / 2 ^ 60] else [] }
    launchCopy (updGroup s loc (fun g => { g with pend := g.pend ++ [p] })) id c

end Sys2Proof.Machine
end

