-- ==== Sys2Proof/Machine/Mem.lean ====
section
/-! DEFINITION. The load, store, fragment, prefetch and atomic words (R251 to R268). Each active lane's access is an
entry of work in flight of its own; it is performed, and a loaded or old value lands, at its return (log 2). -/

namespace Sys2Proof.Machine

/-- Bytes of an access width (R170). -/
def MWidth.bytes : MWidth → Nat
  | .n8 | .i8 => 1 | .n16 | .i16 => 2 | .b32 => 4 | .b64 => 8 | .b128 => 16 | _ => 1024

/-- An access of a word in flight, before its own fields are set. -/
def accessPend (s : State) (g : Group) (id : Nat) (sl : Bool) (path : Path) (t : Target) (kind : Kind) (addr size : Nat)
    (dst : Dst) (lanes : W64) (act : Act) : Pend :=
  { newPend id sl (some path) dst lanes act with
    kind := kind, cov := coverage s g t.space addr (addr + size), aliased := t.aliased.toList }

/-- The frame of a memory word: lanes, base, the hold of a shrinking scratch before any other check (R275), the checks of R109,
watchpoints (R490), the hold of S accesses (R147), and then the word's own accesses. A lane that fails faults the word at once, also
while the walk of a lower lane waits on a page in flight (DESIGN CHOICE, log 75: R109 has the lowest failing lane decide, and that lane
has not failed). A word with an empty active(k) performs nothing (R255). -/
def accessWord (i : Instr) (k : BitVec 4) (uni : Bool) (base : Sel) (spaces : List Nat) (rd wr watched : Bool)
    (size : Nat) (addr : State → Nat → Group → Bool → Nat → Nat → Int)
    (go : State → Nat → Group → Bool → Target → List (Nat × LChk) → Res) (s : State) : Out :=
  groupWord i s (fun s loc g sl =>
    let act := activeOf g sl k
    if act == 0 then .done s
    else
      let lanes := if uni then [0] else lanesOf act g.width
      match target_ s g base spaces with
      | none =>
        .trap s { trapAt cBadHandle (readPc s) with lane := if uni then none else lanes.head? } 0 none false
      | some (t, b) =>
        let at_ := lanes.map (fun l => (l, addr s loc g sl b l))
        if at_.any (fun x => shrinkHolds s loc g t.space (x.2 + t.shift) size) then .stall s
        else
          let (cs, s) := checkLanes s loc g sl t rd wr size at_
          match worstLane cs with
          | some (l, c) => raiseMem s loc g (if uni then none else some l) wr c
          | none =>
            if cs.any (fun c => match c.2 with | .wait => true | _ => false) then .stall s
            else
              match if watched then watchHit s g t rd wr size cs else none with
              | some (l, a) => raiseAt s cWatch (if uni then none else some l) 3 a
              | none =>
                if sOutstanding g && cs.any (fun c => match c.2 with | .ok _ kd _ => kd == .s | .aperture _ => true | _ => false)
                then .stall s
                else go s loc g sl t cs)

/-- The address of a lane (R252): term is set for sv 0 outside spill. -/
def mAddr (o : MOp) (term : Bool) (s : State) (loc : Nat) (g : Group) (sl : Bool) (b lane : Nat) : Int :=
  let x : Nat := if o.sv == .s1 then (vRead s loc g sl o.index lane).toNat else (gRead g o.index).toNat
  let a : Int := (b : Int) + x + sextN 20 o.off.toNat
  if o.sv == .s0 && term then a + (lane * MWidth.bytes o.wt : Nat) else a

/-- Notes the locations a load reads, for the lifting of a demotion (R47). -/
def noteLoaded (s : State) (loc : Nat) (sl : Bool) (l : List MLoc) : State :=
  updGroup s loc (fun g => setSlot g sl { getSlot g sl with loaded := l ++ (getSlot g sl).loaded })

/-- Adds work to a group with one fresh number each. -/
def addAll (s : State) : List (Nat → Pend) → State
  | [] => s
  | f :: t => let (id, s) := takeFresh s; addAll (addPend s (f id)) t

/-- The accesses of a load that passed its checks (R253, R256); lanes that read one byte receive one value (R144). -/
def issueLoads (o : MOp) (path : Path) (s : State) (loc : Nat) (g : Group) (sl : Bool) (t : Target)
    (cs : List (Nat × LChk)) : Res :=
  if counterFull s path cs.length then .stall s
  else
    let uni := o.sv == .s2
    let mk (c : Nat × LChk) : Option (Nat → Pend) :=
      match c.2 with
      | .ok locs kind a => some (fun id =>
          let p := accessPend s g id sl path t kind a (MWidth.bytes o.wt)
            (if uni then .scalar o.data else .vec o.data (MWidth.regs o.wt)) (w64 (2 ^ c.1))
            (.load o.wt [{ lane := c.1, locs := locs }])
          { p with comb := some s.fresh })
      | _ => none
    let s := noteLoaded s loc sl (cs.flatMap (fun c => match c.2 with | .ok locs _ _ => locs | _ => []))
    .done (addAll s (cs.filterMap mk))

/-- The bytes a lane stores (R253). -/
def storeData (o : MOp) (s : State) (loc : Nat) (g : Group) (sl : Bool) (lane : Nat) : List Byte :=
  let v : Nat :=
    if o.sv == .s2 then (gRead g o.data).toNat
    else leNat ((List.range (MWidth.regs o.wt)).flatMap (fun j => leBytes 4 (vRead s loc g sl (o.data + BitVec.ofNat 8 j) lane).toNat))
  leBytes (MWidth.bytes o.wt) v

/-- The accesses of a store that passed its checks, and the copies of its aperture lanes in ascending order (R122,
R256, R257). -/
def issueStores (o : MOp) (path : Path) (s : State) (loc : Nat) (g : Group) (sl : Bool) (t : Target)
    (cs : List (Nat × LChk)) : Res :=
  let copies := cs.filterMap (fun c => match c.2 with
    | .aperture ch => let d := leNat (storeData o s loc g sl c.1); some (ch, d % 65536, d / 65536)
    | _ => none)
  let stores := cs.filterMap (fun c => match c.2 with
    | .ok locs kind a => some (fun id => accessPend s g id sl path t kind a (MWidth.bytes o.wt) .none (w64 (2 ^ c.1))
        (.store (locs.zip (storeData o s loc g sl c.1))))
    | _ => none)
  if (!stores.isEmpty && counterFull s path stores.length) || (!copies.isEmpty && counterFull s .copy copies.length)
      || 64 < copiesOn s (locCore loc) + copies.length && !copies.isEmpty
      || copies.any (fun c => !argReady s loc g c.2.2) then .stall s
  else
    let s := copies.foldl (fun s c => startCopy s loc sl c.1 c.2.1 c.2.2 .none) s
    .done (addAll s stores)

/-- A load word of one space (R254). -/
def loadWord (i : Instr) (o : MOp) (space : Nat) (path : Path) (s : State) : Out :=
  accessWord i o.k (o.sv == .s2) o.base [space] true false (space == 3) (MWidth.bytes o.wt) (mAddr o (space != 1))
    (issueLoads o path) s

/-- A store word of one space (R254). -/
def storeWord (i : Instr) (o : MOp) (space : Nat) (path : Path) (s : State) : Out :=
  accessWord i o.k (o.sv == .s2) o.base [space] false true (space == 3) (MWidth.bytes o.wt) (mAddr o (space != 1))
    (issueStores o path) s

/-- R254 ldp. -/
def execLdp (o : MOp) (s : State) : Out := loadWord (.ldp o) o 1 .spill s

/-- R254 stp. -/
def execStp (o : MOp) (s : State) : Out := storeWord (.stp o) o 1 .spill s

/-- R254 lds. -/
def execLds (o : MOp) (s : State) : Out := loadWord (.lds o) o 2 .shared s

/-- R254 sts. -/
def execSts (o : MOp) (s : State) : Out := storeWord (.sts o) o 2 .shared s

/-- R254 ldx. -/
def execLdx (o : MOp) (s : State) : Out := loadWord (.ldx o) o 3 .scratch s

/-- R254 stx. -/
def execStx (o : MOp) (s : State) : Out := storeWord (.stx o) o 3 .scratch s

/-! ### ldt (R258) -/

/-- The register values of a loaded number (R253). -/
def loadRegs (wt : MWidth) (v : Nat) : List W32 :=
  match wt with
  | .i8 => [w32 (wrapI 32 (sextN 8 v))]
  | .i16 => [w32 (wrapI 32 (sextN 16 v))]
  | .b64 => [w32 v, w32 (v / 2 ^ 32)]
  | .b128 => [w32 v, w32 (v / 2 ^ 32), w32 (v / 2 ^ 64), w32 (v / 2 ^ 96)]
  | _ => [w32 v]

/-- The scalar of a loaded number (R253). -/
def loadScalar (wt : MWidth) (v : Nat) : W64 :=
  match wt with
  | .i8 => w64I (sextN 8 v)
  | .i16 => w64I (sextN 16 v)
  | _ => w64 v

/-- The check of one lane of ldt against its counted line (R130, R131). -/
def ldtCheck (s : State) (die eid : Nat) (size : Nat) (c : Nat × LChk) : Nat × LChk :=
  match c.2 with
  | .ok _ _ a =>
    match findLine s die eid (a / 64) with
    | none => (c.1, .bad cOverread 4 a 0 0)
    | some l => if l.st == .poisoned then (c.1, .bad cIntegrity 4 a 0 0) else
        (c.1, .ok ((List.range size).map (fun j => .hbm (a + j))) .r a)
  | x => (c.1, x)

/-- The bounds, permission and alignment checks of one lane of ldt (R109). -/
def ldtBounds (s : State) (loc : Nat) (g : Group) (t : Target) (size : Nat) (c : Nat × Int) : Nat × LChk :=
  match checkAccess s loc g t true false c.2 size with
  | some code => (c.1, .bad code 4 (wrapI 55 c.2) 0 0)
  | none => (c.1, .ok [] .r c.2.toNat)

/-- One decrement of each line touched; a line at 1 is dropped (R130). -/
def touchLines (s : State) (die eid : Nat) (l : List Nat) : State :=
  setLines s die ((linesOf s die).filterMap (fun x =>
    if l.contains x.line && x.eid == eid then
      (if x.count ≤ 1 then none else some { x with count := x.count - 1 })
    else some x))

/-- R258 ldt: its lines are read as it issues, so it is held while an earlier acquire is still to be performed (R140). -/
def execLdt (o : MOp) (s : State) : Out :=
  groupWord (.ldt o) s (fun s loc g sl =>
    let act := activeOf g sl o.k
    let uni := o.sv == .s2
    let size := MWidth.bytes o.wt
    if act == 0 then .done s
    else
      let lanes := if uni then [0] else lanesOf act g.width
      match target_ s g o.base [5] with
      | none =>
        .trap s { trapAt cBadHandle (readPc s) with lane := if uni then none else lanes.head? } 0 none false
      | some (t, b) =>
        let die := locDie loc
        let eid := groupEid s g
        let addrs := lanes.map (fun l => (l, mAddr o true s loc g sl b l))
        if g.pend.any isAcq || addrs.any (fun x => match findLine s die eid (x.2.toNat / 64) with
            | some l => l.st == .filling && decide (0 ≤ x.2) | none => false) then .stall s
        else
          let cs := (addrs.map (ldtBounds s loc g t size)).map (ldtCheck s die eid size)
          match worstLane cs with
          | some (l, c) => raiseMem s loc g (if uni then none else some l) false c
          | none =>
            if counterFull s .scratch cs.length then .stall s
            else
              let val (a : Nat) : Nat :=
                match findLine s die eid (a / 64) with | some l => leNat ((l.data.drop (a % 64)).take size) | none => 0
              let mk (c : Nat × LChk) : Option (Nat → Pend) :=
                match c.2 with
                | .ok _ kind a => some (fun id => accessPend s g id sl .scratch t kind a size
                    (if uni then .scalar o.data else .vec o.data (MWidth.regs o.wt)) (w64 (2 ^ c.1))
                    (.value (if uni then [] else [(c.1, loadRegs o.wt (val a))]) (loadScalar o.wt (val a))))
                | _ => none
              let touched := cs.filterMap (fun c => match c.2 with | .ok _ _ a => some (a / 64) | _ => none)
              let s := noteLoaded s loc sl (cs.flatMap (fun c => match c.2 with
                | .ok _ _ a => (List.range size).map (fun j => MLoc.counted die eid (a + j)) | _ => []))
              .done (addAll (touchLines s die eid touched) (cs.filterMap mk)))

/-! ### mfrag and prefx (R259 to R262) -/

/-- The 64 sector accesses of a block, each of the kind of its own region (R108, R125, R260). -/
def fragSectors (o : MOp) (path : Path) (s : State) (g : Group) (sl : Bool) (t : Target) (locs : List MLoc) (a : Nat) :
    List (Nat → Pend) :=
  (List.range 64).map (fun n id =>
    accessPend s g id sl path t (spaceKind s g t.space (a + 16 * n) 16) (a + 16 * n) 16 (.vec o.data (256 / g.width))
      (activeOf g sl o.k) (.frag o.sv n ((locs.drop (16 * n)).take 16)))

/-- R259 mfrag: one 1 KiB block, checked as one access and read as 64 sectors. -/
def execMfrag (o : MOp) (s : State) : Out :=
  let space := if o.wt == .fragShared then 2 else 3
  let path : Path := if o.wt == .fragShared then .shared else .scratch
  accessWord (.mfrag o) o.k true o.base [space] true false true 1024
    (fun _ _ g _ b _ => (b : Int) + (gRead g o.index).toNat + sextN 20 o.off.toNat)
    (fun s loc g sl t cs =>
      if counterFull s path 64 then .stall s
      else
        match cs with
        | (_, .ok locs _ a) :: _ => .done (addAll (noteLoaded s loc sl locs) (fragSectors o path s g sl t locs a))
        | _ => .stall s) s

/-- Element j of the distributed image of a block: as it is, one 32 × 32 tile of bytes or two 16 × 16 tiles of
halfwords transposed (R260). -/
def fragIndex (tr : SV) (j : Nat) : Nat :=
  match tr with
  | .s0 => j
  | .s1 => 32 * (j % 32) + j / 32
  | .s2 => 512 * (j / 512) + 32 * (j % 32 / 2) + 2 * (j % 512 / 32) + j % 2

/-- The registers of lane i with the bytes that sector sec of a block gives them (R260); old are their values before. -/
def fragLane (tr : SV) (width sec : Nat) (m : List Byte) (i : Nat) (old : List W32) : List W32 :=
  let b := 1024 / width
  (List.range (b / 4)).map (fun r =>
    w32 (leNat ((List.range 4).map (fun q =>
      let n := fragIndex tr (i * b + 4 * r + q)
      if n / 16 = sec then m.getD (n % 16) 0 else BitVec.ofNat 8 (fldN (old.getD r 0).toNat (8 * q) 8)))))

/-- R262 prefx: changes no value; raises the scratch counter until each line is staged or skipped. DESIGN CHOICE (log 71): by one for
each active lane, or for a uniform word by one; R262 does not say by how much. -/
def execPrefx (o : MOp) (s : State) : Out :=
  groupWord (.prefx o) s (fun s _ g sl =>
    let act := activeOf g sl o.k
    let n := if act == 0 then 0 else if o.sv == .s2 then 1 else (lanesOf act g.width).length
    if n != 0 && counterFull s .scratch n then .stall s
    else .done (addAll s (List.replicate n (fun id => newPend id sl (some .scratch) .none 0 .nothing))))

/-! ### Atomics (R263 to R268) -/

/-- The new value of an atomic of n bits (R264). -/
def atomicNew (op : AtomOp) (n old y : Nat) : Nat :=
  match op with
  | .add => (old + y) % 2 ^ n
  | .and => old &&& y
  | .or => old ||| y
  | .xor => old ^^^ y
  | .minS => if sextN n y < sextN n old then y else old
  | .maxS => if sextN n old < sextN n y then y else old
  | .minN => min old y
  | .maxN => max old y
  | .xchg => y

/-! ### Quantum applications (R152) -/

/-- The number under which a group's boundaries are kept. -/
def quantumWho (g : Group) : Nat := 64 * g.team + g.num

/-- What a read sees of a location with quantum applications: the value at its group's last boundary and any subset of the
applications since (R152). DESIGN CHOICE (log 71): every application performed before a boundary counts as seen there. -/
def quantumView (q : Quant) (who read : Nat) : Nat :=
  ((q.apps.zip (List.range q.apps.length)).foldl (fun v a =>
    if a.2 < mgetD q.seen who 0 || Config.quantumSeen read a.1.1 then atomicNew a.1.2.1 (8 * q.locs.length) v a.1.2.2 else v) q.base)

/-- A byte as a group's read sees it (R145, R152). -/
def viewLoc (s : State) (who : Option Nat) (read : Nat) (l : MLoc) : Byte :=
  match who, s.quanta.find? (fun q => q.locs.contains l) with
  | some w, some q => BitVec.ofNat 8 (fldN (quantumView q w read) (8 * q.locs.idxOf l) 8)
  | _, _ => readLoc s l

/-- The little-endian number at consecutive locations as a group's read sees it. -/
def viewLocs (s : State) (who : Option Nat) (read : Nat) (l : List MLoc) : Nat := leNat (l.map (viewLoc s who read))

/-- Keeps an application of a quantum atomic to a location whose value before it is old (R152). -/
def noteQuantum (s : State) (l : List MLoc) (space addr old : Nat) (app : Nat × AtomOp × Nat) : State :=
  match s.quanta.find? (fun q => q.locs == l) with
  | some q => { s with quanta := s.quanta.map (fun x => if x.locs == l then { q with apps := q.apps ++ [app] } else x) }
  | none => { s with quanta := { locs := l, space := space, addr := addr, base := old, apps := [app], seen := [] } ::
      s.quanta.filter (fun q => !q.locs.any (fun x => l.contains x)) }

/-- A quantum boundary of a group for the locations named: it has seen their applications so far (R152). -/
def quantumBoundary (s : State) (loc : Nat) (g : Group) (p : Quant → Bool) : State :=
  let here (q : Quant) : Bool := match q.locs with
    | .shared t _ :: _ => t == g.team
    | .array d _ :: _ => d == locDie loc
    | _ => false
  { s with quanta := s.quanta.map (fun q =>
      if here q && p q then { q with seen := mput q.seen (quantumWho g) q.apps.length } else q) }

/-- Whether a range of a space, as coverRange gives it, contains a byte of a location. -/
def coversAny (r : Option (Nat × Nat × Nat)) (q : Quant) : Bool :=
  match r with
  | some (sp, lo, hi) => sp == q.space && decide (q.addr < hi) && decide (lo < q.addr + q.locs.length)
  | none => false

/-- A lane's value of an atomic's register operand (R263). -/
def atomVal (o : AOp) (s : State) (loc : Nat) (g : Group) (sl : Bool) (r : Sel) (lane : Nat) : Nat :=
  if o.uni then zextN (if o.w64 then 64 else 32) (gRead g r).toNat else vVal s loc g sl o.w64 r lane

/-! ### Speculative atomics (R153) -/

/-- The replay record of a speculative word at a PC (R153). -/
def replayOf (g : Group) (sl : Bool) (pc : W64) : Option Replay := g.replay.find? (fun r => r.pc == pc && r.slot == sl)

/-- Consumes a replay record: the kept values go to the destination and nothing is performed (R153). -/
def replayWord (o : AOp) (s : State) (loc : Nat) (sl : Bool) (r : Replay) : Res :=
  let s := updGroup s loc (fun g => { g with replay := g.replay.filter (fun x => !(x.pc == r.pc && x.slot == sl)) })
  let (_, s) := issueWork s none (if o.uni then .scalar o.d else .vec o.d (if o.w64 then 2 else 1))
    (if o.uni then 0 else maskOf (r.vals.map (·.1))) (.value (r.vals.map (fun x => (x.1, x.2.take (if o.w64 then 2 else 1)))) r.sval)
  .done s

/-- The accesses of an atomic that passed its checks, in ascending lane order (R264 to R266). -/
def issueAtomics (o : AOp) (cas : Bool) (s : State) (loc : Nat) (g : Group) (sl : Bool) (t : Target)
    (cs : List (Nat × LChk)) : Res :=
  let path : Path := if o.scr then .scratch else .shared
  match if o.use == .speculative then replayOf g sl (readPc s) else none with
  | some r => replayWord o s loc sl r
  | none =>
    if counterFull s path cs.length then .stall s
    else
      let size := if o.w64 then 8 else 4
      let comb := if o.use == .commutative then some s.fresh else none
      let quantum (a : Nat) : Option (Nat × Nat) := if o.use == .quantum then some (t.space, a) else none
      let mk (c : Nat × LChk) : Option (Nat → Pend) :=
        match c.2 with
        | .ok locs kind a => some (fun id =>
            let p := accessPend s g id sl path t kind a size (if o.uni then .scalar o.d else .vec o.d (if o.w64 then 2 else 1))
              (w64 (2 ^ c.1)) (.atomic o.op o.w64 cas [({ lane := c.1, locs := locs },
                w64 (atomVal o s loc g sl o.data c.1), w64 (atomVal o s loc g sl o.d c.1))])
            { p with order := o.order, comb := comb, quantum := quantum a })
        | _ => none
      let s := noteLoaded s loc sl (cs.flatMap (fun c => match c.2 with | .ok locs _ _ => locs | _ => []))
      .done (addAll s (cs.filterMap mk))

/-- The frame of atom and cas (R263, R267). -/
def atomicWord (i : Instr) (o : AOp) (cas : Bool) (s : State) : Out :=
  accessWord i o.k o.uni o.base [if o.scr then 3 else 2] true true o.scr (if o.w64 then 8 else 4)
    (fun s loc g sl b lane =>
      (b : Int) + (if o.uni then (gRead g o.index).toNat else (vRead s loc g sl o.index lane).toNat))
    (issueAtomics o cas) s

/-- R264 atom. -/
def execAtom (o : AOp) (s : State) : Out := atomicWord (.atom o) o false s

/-- R266 cas. -/
def execCas (o : AOp) (s : State) : Out := atomicWord (.cas o) o true s

end Sys2Proof.Machine
end

