-- ==== Sys2Proof/Machine/Fence.lean ====
section
/-! DEFINITION. Fences, handle and alias definition, counter waits and the request of a way count (R269 to R276). -/

namespace Sys2Proof.Machine

/-- The counters a fence waits for: those of its defined handles, or with no handle all nine (R270). -/
def fenceCounters (s : State) (hs : BitVec 8) : W64 :=
  if hs == 0 then 0x1FF
  else match curGroup s with
    | some g => maskOf ((List.range 8).filter (fun n => hs.getLsbD n && hSpace (getH g n) != 0))
    | none => 0

/-- Whether counters of a mask are all zero. -/
def countersClear (l : List Pend) (cov : W64) : Bool :=
  (List.range 9).all (fun n => !bit cov n || covCount l n == 0)

/-- The quantum boundary that a completed fence is for the executing group: of the locations that its handles cover, or with no
handle of every one (R152, R270). -/
def fenceBoundary (s : State) (hs : BitVec 8) : State :=
  match s.agent with
  | .group loc _ =>
    match mget s.groups loc with
    | some g => quantumBoundary s loc g (fun q => hs == 0 || (List.range 8).any (fun n => hs.getLsbD n &&
        coversAny (coverRange s g (getH g n)) q))
    | none => s
  | _ => s

/-- R270 fence: parks until the covered counters reach zero; then a quantum boundary of what it covers (R152). -/
def execFence (order : Order) (scope : Scope) (hs : BitVec 8) (s : State) : Out :=
  word (.fence order scope hs) s (fun s =>
    let cov := fenceCounters s hs
    if countersClear (pendOf s) cov then .done (fenceBoundary s hs) else .park s (.fence cov))

/-- The value checks of hdef (R271). -/
def hdefBad (base desc : W64) : Bool :=
  let d := desc.toNat
  let sp := fldN d 40 3
  fldN d 51 13 != 0 || fldN d 43 5 != 0 || sp == 7 || (sp != 6 && bitN d 50)
  || (sp == 6 && fldN base.toNat 40 20 != 0)

/-- Drops the counted lines of a range of device addresses of a group's enclave; an empty range holds none (R130, R271, R294). -/
def dropRange (s : State) (loc : Nat) (g : Group) (h : Handle) : State :=
  dropFor s loc (locDie loc) (fun l => l.eid == groupEid s g
    && decide (hLen h ≠ 0) && decide (64 * l.line < h.base.toNat + hLen h) && decide (h.base.toNat < 64 * l.line + 64))

/-- R271 hdef. -/
def execHdef (d a b : Sel) (s : State) : Out :=
  groupWord (.hdef d a b) s (fun s loc g _ =>
    let base := gRead g a
    let desc := gRead g b
    let n := d.toNat - 0x58
    if hdefBad base desc then raise s cBadHandle
    else if covCount g.pend n != 0 then .stall s
    else
      let old := getH g n
      let s := if hSpace old = 5 then dropRange s loc g old else s
      let new := if fldN desc.toNat 40 3 = 0 then noHandle else { base := base, desc := desc }
      .done (updGroup s loc (fun g => { g with h := msetD g.h n new noHandle })))

/-- R272 hdef of an alias entry. -/
def execHdefAlias (e : BitVec 4) (a b c : Sel) (s : State) : Out :=
  groupWord (.hdefAlias e a b c) s (fun s _ g _ =>
    let ctl := gRead g c
    let x := ctl.toNat
    let sp := fldN x 40 3
    if fldN x 46 18 != 0 || (bitN x 44 && sp != 3 && sp != 4) || (bitN x 43 && !bitN x 45) then raise s cBadHandle
    else if g.pend.any (fun p => !p.returned && p.aliased.contains e.toNat) then .stall s
    else
      let new : Alias :=
        if bitN x 44 then { bufa := gRead g a, bufb := if bitN x 45 then gRead g b else 0, ctl := ctl } else noAlias
      .done (updTeam s g.team (fun t => { t with aliased := msetD t.aliased e.toNat new noAlias })))

/-- R273 waitc. -/
def execWaitc (p : Path) (a : Sel) (t : BitVec 8) (s : State) : Out :=
  groupWord (.waitc p a t) s (fun s _ g _ =>
    let n := if a == 0 then t.toNat else (gRead g a).toNat
    if 255 ≤ n || pathCount g.pend p ≤ n then .done s else .park s (.count p n))

/-- The result of scrsz (R274). -/
def scrszResult (code wold wnew : Nat) : W64 := w64 (code + 256 * wold + 65536 * wnew)

/-- R274 scrsz: begins a change of W and is passed over until the change has completed or failed. -/
def execScrsz (d a : Sel) (n : BitVec 5) (s : State) : Out :=
  groupWord (.scrsz d a n) s (fun s loc g sl =>
    let part := groupPart s g
    let w := if a == 0 then n.toNat else (gRead g a).toNat
    let old := waysOf s part
    let mine (x : Nat × Work) : Bool := match x.2 with | .scrsz l _ _ k _ _ => l == loc && k == sl | _ => false
    let busy (x : Nat × Work) : Bool := match x.2 with | .scrsz _ p _ _ none _ => p == part | _ => false
    match s.work.find? mine with
    | some (id, .scrsz _ _ _ _ (some v) _) => .done (writeReg { s with work := mdel s.work id } d v)
    | some _ => .stall s
    | none =>
      if s.work.any busy then .stall s
      else if 16 < w then .done (writeReg s d (scrszResult 2 old old))
      else if w = old then .done (writeReg s d (scrszResult 0 old old))
      else
        let (id, s) := takeFresh s
        .stall { s with work := mput s.work id (.scrsz loc part w sl none d) })

end Sys2Proof.Machine
end

