-- ==== Sys2Proof/Machine/Matrix.lean ====
section
/-! DEFINITION. The matrix engine (R295 to R302): shape grants, tile words and their queue, K-steps (R100), drains
(R101) and the metadata of structured sparsity. -/

namespace Sys2Proof.Machine

/-! ### shape (R295) -/

/-- Code of a matrix format (R67). -/
def EFmt.code : EFmt → Nat
  | .bf16 => 0 | .fp16 => 1 | .e4m3 => 2 | .e5m2 => 3 | .dl8 => 4 | .fp4 => 5

/-- The number format of a matrix element (R67). -/
def EFmt.ty : EFmt → VTy
  | .bf16 => .bf16 | .fp16 => .f16 | .e4m3 => .e4m3 | .e5m2 => .e5m2 | .dl8 => .dl8 | .fp4 => .fp4

/-- The format of a code. -/
def shapeFmt (n : Nat) : EFmt :=
  if n = 0 then .bf16 else if n = 1 then .fp16 else if n = 2 then .e4m3 else if n = 3 then .e5m2 else if n = 4 then .dl8
  else .fp4

/-- Code of the smallest of 16, 32 and 64 that holds a request. -/
def sizeCode (n : Nat) : Nat := if n ≤ 16 then 0 else if n ≤ 32 then 1 else 2

/-- SHAPE of a grant (R73). -/
def shapeWord (m n k ks : Nat) (af bf : EFmt) (sp : Bool) : W64 :=
  w64 (sizeCode m + 4 * sizeCode n + 16 * ks + 2 ^ 12 * EFmt.code af + 2 ^ 16 * EFmt.code bf + (if sp then 2 ^ 20 else 0)
    + 2 ^ 32 * k + 2 ^ 63)

/-- Fields of SHAPE (R73). -/
def shG (x : W64) : Bool := bit x 63
def shM (x : W64) : Nat := 16 * 2 ^ fldN x.toNat 0 2
def shKs (x : W64) : Nat := fldN x.toNat 4 8
def shAf (x : W64) : EFmt := shapeFmt (fldN x.toNat 12 4)
def shBf (x : W64) : EFmt := shapeFmt (fldN x.toNat 16 4)
def shSp (x : W64) : Bool := bit x 20

/-- A shape request: the result word with the requested region, or the refusal code with none (R295). -/
def shapeGrant (m n k : Nat) (af bf : EFmt) (sp : Bool) : W64 × W64 × (Nat × Nat × Nat) :=
  let ks := (kStep af bf sp).getD 32
  let kg := roundUp k ks
  if m = 0 || 64 < m then (1, 0, (0, 0, 0))
  else if n = 0 || 64 < n then (2, 0, (0, 0, 0))
  else if k = 0 || 65535 < kg then (3, 0, (0, 0, 0))
  else let x := shapeWord m n kg ks af bf sp; (x, x, (m, n, k))

/-- R295 shape: SHAPE and the requested region are set, and the grant is deferred. -/
def execShape (d m n k : Sel) (af bf : EFmt) (sp : Bool) (s : State) : Out :=
  groupWord (.shape d m n k af bf sp) s (fun s loc g _ =>
    if counterFull s .engine 1 then .stall s
    else
      let r := shapeGrant (gRead g m).toNat (gRead g n).toNat (gRead g k).toNat af bf sp
      let s := updGroup s loc (fun g => { g with shape := r.2.1, region := r.2.2 })
      let (_, s) := issueWork s (some .engine) (.scalar d) 0 (.value [] r.1)
      .done s)

/-! ### The queue of tile words (R296, R297) -/

/-- Whether a shape of the group is still outstanding (R295): its grant is the one engine result in a scalar that the
group's own word, and no engine, supplies. -/
def shapeLeft (g : Group) : Bool :=
  g.pend.any (fun p => !p.returned && p.path == some .engine && (match p.act, p.dst with
    | .value [] _, .scalar _ => true | _, _ => false))

/-- The tile of a queued operation. -/
def MatOp.tile : MatOp → Nat
  | .zero t => t
  | .loop t _ _ _ _ _ _ _ _ => t
  | .drain t _ _ _ _ _ _ => t

def coreOf (s : State) (core : Nat) : Core := match mget s.cores core with | some c => c | none => resetCore

/-- Whether an operation is the first on its tile in the core's queue (R297). -/
def firstOnTile (l : List MatWork) (w : MatWork) : Bool :=
  match l.find? (fun x => MatOp.tile x.op == MatOp.tile w.op) with | some x => x.id == w.id | none => false

/-- The operation of a number. -/
def matWork (s : State) (core id : Nat) : Option MatWork := (coreOf s core).mat.find? (fun w => w.id == id)

/-- Marks work of a group returned, with engine flags (R69, R134). -/
def engineDone (s : State) (loc id : Nat) (flags : Nat) : State :=
  let s := updGroup s loc (fun g => { g with flags := g.flags ||| w64 flags })
  setPendAt s (.group loc false) (markReturned (pendAt s (.group loc false)) id)

/-- Performs every operation that can complete at once: a mzero or an mloop with no K-steps left that is first on its
tile. Each pass performs one. -/
def settleTiles : Nat → State → Nat → State
  | 0, s, _ => s
  | n + 1, s, core =>
    let c := coreOf s core
    let ready (w : MatWork) : Bool := firstOnTile c.mat w &&
      (match w.op with | .zero _ => true | .loop _ _ _ _ _ step cnt _ _ => decide (cnt ≤ step) | _ => false)
    match c.mat.find? ready with
    | none => s
    | some w =>
      let s := updCore s core (fun c =>
        { c with mat := c.mat.filter (fun x => x.id != w.id),
                 tiles := match w.op with
                   | .zero t => c.tiles.filter (fun e => e.1 / 4096 != t)
                   | _ => c.tiles })
      settleTiles n (engineDone s w.loc w.id 0) core

/-- Queues a tile word of a group: SHAPE must be granted, the core's queue of 16 must have room (R296, R297). cov are the counters that
it raises, src those whose earlier accesses its reads wait for (R155, R159), aliased the alias entries it reads through (R272). -/
def tileWord (s : State) (loc : Nat) (g : Group) (sl : Bool) (cov src : W64) (aliased : List Nat) (op : MatOp) : Res :=
  let core := locCore loc
  if counterFull s .engine 1 || 16 ≤ (coreOf s core).mat.length then .stall s
  else
    let (id, s) := takeFresh s
    let s := addPend s { newPend id sl (some .engine) .none 0 .wait with cov := cov, src := src, aliased := aliased }
    let w : MatWork := { id := id, loc := loc, shape := g.shape, region := g.region, op := op }
    let s := updCore s core (fun c => { c with mat := c.mat ++ [w] })
    .done (settleTiles 17 s core)

/-- R298 mzero. -/
def execMzero (t : Sel) (s : State) : Out :=
  groupWord (.mzero t) s (fun s loc g sl =>
    if shapeLeft g then .stall s
    else if !shG g.shape then raise s cIllegalOpcode
    else tileWord s loc g sl 0x100 0x100 [] (.zero (t.toNat % 32)))

/-! ### mloop (R299 to R301) -/

/-- Number of K-steps of which some element enters (R300). -/
def enteringSteps (cnt ks kreq : Nat) : Nat := min cnt ((kreq + ks - 1) / ks)

/-- Bytes of one column of B (R299). -/
def colBytes (sp : Bool) : Nat := if sp then 128 else 64

/-- An operand of a tile word as ranges: space, start, length, one for each entering step. -/
def opRanges (space base inc len steps : Nat) : List (Nat × Nat × Nat) :=
  (List.range steps).map (fun n => (space, base + n * inc, len))

/-- The lowest failing byte of the first operand among failures (R278). -/
def lowestByte (x : List (Nat × Nat)) : Option (Nat × Nat) := x.foldl (fun b y => match b with
  | none => some y
  | some z => if z.1 = y.1 && y.2 < z.2 then some y else b) none

/-- Check 2 of R109 over a list of ranges: the lowest byte in the aperture window. -/
def windowFault (l : List (Nat × Nat × Nat)) : Option (Nat × Nat) :=
  lowestByte (l.filterMap (fun r => if r.1 = 3 && inWindow r.2.1 r.2.2 then some (r.1, max r.2.1 0x7F000000) else none))

/-- Check 3 of R109 over a list of ranges: the lowest byte beyond its space's bound. -/
def pastFault (s : State) (loc : Nat) (g : Group) (l : List (Nat × Nat × Nat)) : Option (Nat × Nat) :=
  let bound (sp : Nat) : Nat := if sp = 2 then sharedOf s g else capacity s (locDie loc) (groupPart s g)
  lowestByte (l.filterMap (fun r => if bound r.1 < r.2.1 + r.2.2 then some (r.1, max r.2.1 (bound r.1)) else none))

/-- Check 5 of R109 over a list of ranges: the lowest start that is not a multiple of align. -/
def skewFault (align : Nat) (l : List (Nat × Nat × Nat)) : Option (Nat × Nat) :=
  lowestByte (l.filterMap (fun r => if r.2.1 % align != 0 then some (r.1, r.2.1) else none))

/-- The first failing check of R109 over a list of ranges, in check order, with the lowest failing byte of the first
operand that fails it (R278, R300). align is the alignment of the ranges, 1 for none. -/
def rangeFault (s : State) (loc : Nat) (g : Group) (align : Nat) (l : List (Nat × Nat × Nat)) : Option (Nat × Nat × Nat) :=
  match windowFault l, pastFault s loc g l, skewFault align l with
  | some r, _, _ => some (cAperture, r.1, r.2)
  | _, some r, _ => some (cBounds, r.1, r.2)
  | _, _, some r => some (cAlign, r.1, r.2)
  | _, _, _ => none

/-- The locations of a list of ranges. -/
def rangeLocs (s : State) (loc : Nat) (g : Group) (l : List (Nat × Nat × Nat)) : List MLoc :=
  l.flatMap (fun r => spaceLocs s loc g r.1 r.2.1 r.2.2)

/-- The counters covering a list of ranges, or the untagged one (R127). -/
def rangesCover (s : State) (g : Group) (l : List (Nat × Nat × Nat)) : W64 :=
  let m := l.foldl (fun m r => m ||| handlesOver s g r.1 r.2.1 (r.2.1 + r.2.2)) 0
  if m == 0 then 0x100 else m

/-- The counters whose earlier accesses an operation waits for: of each source those covering it, or the untagged one (R155, R159). -/
def sourcesCover (s : State) (g : Group) (l : List (List (Nat × Nat × Nat))) : W64 :=
  l.foldl (fun m r => if r.isEmpty then m else m ||| rangesCover s g r) 0

/-- Space and offset of an operand address (R299). -/
def opSpace (a : Nat) : Nat := if bitN a 32 then 3 else 2
def opOff (a : Nat) : Nat := a % 2 ^ 32

/-- The ranges that one K-step of an mloop reads: A rows, B columns, metadata (R300, R301). -/
def stepRanges (w : MatWork) (n : Nat) : List (Nat × Nat × Nat) :=
  match w.op with
  | .loop _ a b incA incB _ _ meta_ sp =>
    let ks := shKs w.shape
    [(opSpace a, opOff a + n * incA, 64 * w.region.1), (opSpace b, opOff b + n * incB, colBytes sp * w.region.2.1)]
    ++ (match meta_ with
        | some h => [(hSpace h, h.base.toNat + n * shM w.shape * (ks / 8), w.region.1 * (ks / 8))]
        | none => [])
  | _ => []

/-- All the ranges that an mloop still has to read, from a step on. -/
def loopRanges (w : MatWork) : List (Nat × Nat × Nat) :=
  match w.op with
  | .loop _ _ _ _ _ step cnt _ _ =>
    let k := enteringSteps cnt (shKs w.shape) w.region.2.2
    (List.range (k - step)).flatMap (fun j => stepRanges w (step + j))
  | _ => []

/-- Check 3 of R109 for an operand address of mloop: bits [63:33], then the space's bound (R299, R300). -/
def operandPast (s : State) (loc : Nat) (g : Group) (v : Nat) (l : List (Nat × Nat × Nat)) : Option (Nat × Nat) :=
  if l.isEmpty then none
  else if v / 2 ^ 33 ≠ 0 then some (opSpace v, opOff v)
  else pastFault s loc g l

/-- Check 3 of R109 for an operand that a handle gives: the lowest byte of n from b that lies past the handle's end, or of the ranges
that lies past the space's bound (R278). -/
def targetPast (s : State) (loc : Nat) (g : Group) (t : Target) (b n : Nat) (l : List (Nat × Nat × Nat)) : Option (Nat × Nat) :=
  lowestByte ((if t.hi < b + n then [(t.space, max b t.hi + t.shift)] else []) ++ (pastFault s loc g l).toList)

/-- Check 5 of R109 for an operand of mloop: its addresses, and its increment, that of a single step too (R300). R300 gives no address
for an increment that alone is misaligned: it is the operand's own (DESIGN CHOICE, log 84). -/
def operandSkew (v inc : Nat) (l : List (Nat × Nat × Nat)) : Option (Nat × Nat) :=
  match skewFault 64 l with
  | some r => some r
  | none => if !l.isEmpty && inc % 64 != 0 then some (opSpace v, opOff v) else none

/-- The checks of the operands and metadata of an mloop, in the order of R109 over all three (R300, R301): cause, space, address.
m is the metadata's handle as resolved, with its start, and n the bytes of it that the entering steps take. -/
def mloopFault (s : State) (loc : Nat) (g : Group) (av bv incA incB : Nat) (rA rB rM : List (Nat × Nat × Nat))
    (m : Option (Target × Nat)) (n : Nat) : Option (Nat × Nat × Nat) :=
  let tag (c : Nat) (x : Option (Nat × Nat)) : Option (Nat × Nat × Nat) := x.map (fun r => (c, r.1, r.2))
  let metaBound : Option (Nat × Nat) := match m with
    | some (t, b) => if rM.isEmpty then none else targetPast s loc g t b n rM
    | none => none
  let metaPerm : Option (Nat × Nat) := match m with
    | some (t, b) => if !rM.isEmpty && !t.rd then some (t.space, b + t.shift) else none
    | none => none
  [tag cAperture (windowFault (rA ++ rB ++ rM)), tag cBounds (operandPast s loc g av rA), tag cBounds (operandPast s loc g bv rB),
   tag cBounds metaBound, tag cPerm metaPerm, tag cAlign (operandSkew av incA rA), tag cAlign (operandSkew bv incB rB)].findSome? id

/-- R299 mloop: with a count of 0, or no entering step, nothing is read and nothing of it is checked but the handle's space. -/
def execMloop (hMeta t a b cnt inc : Sel) (sp : Bool) (s : State) : Out :=
  groupWord (.mloop hMeta t a b cnt inc sp) s (fun s loc g sl =>
    if shapeLeft g then .stall s
    else if !shG g.shape || shSp g.shape != sp then raise s cIllegalOpcode
    else
      let n := (gRead g cnt).toNat % 65536
      let av := (gRead g a).toNat
      let bv := (gRead g b).toNat
      let incA := (gRead g inc).toNat % 2 ^ 32
      let incB := (gRead g inc).toNat / 2 ^ 32
      let ks := shKs g.shape
      let steps := enteringSteps n ks g.region.2.2
      let mlen := if steps = 0 then 0 else (steps - 1) * shM g.shape * (ks / 8) + g.region.1 * (ks / 8)
      let mt := if sp then target_ s g hMeta [2, 3] else none
      if sp && mt.isNone then raise s cBadHandle
      else
        let mh : Option Handle := mt.map (fun x => { base := w64 (x.2 + x.1.shift), desc := w64 (x.1.space * 2 ^ 40) })
        let op := MatOp.loop (t.toNat % 32) av bv incA incB 0 n mh sp
        let w : MatWork := { id := 0, loc := loc, shape := g.shape, region := g.region, op := op }
        let rA := opRanges (opSpace av) (opOff av) incA (64 * g.region.1) steps
        let rB := opRanges (opSpace bv) (opOff bv) incB (colBytes sp * g.region.2.1) steps
        let rM := (List.range steps).flatMap (fun j => (stepRanges w j).drop 2)
        match mloopFault s loc g av bv incA incB rA rB rM mt mlen with
        | some (c, x, y) => raiseAt s c none x y
        | none => tileWord s loc g sl (rangesCover s g (rA ++ rB ++ rM)) (sourcesCover s g [rA, rB, rM])
            ((mt.bind (fun x => x.1.aliased)).toList) op)

/-- Element kk of a run of bytes in a format (R86, R299). -/
def elemAt (f : EFmt) (l : List Byte) (kk : Nat) : XVal :=
  match f with
  | .bf16 | .fp16 => val (EFmt.ty f) (leNat ((l.drop (2 * kk)).take 2))
  | .fp4 => val .fp4 (fldN (leNat ((l.drop (kk / 2)).take 1)) (4 * (kk % 2)) 4)
  | f => val (EFmt.ty f) (leNat ((l.drop kk).take 1))

/-- The logical positions of the stored values of a sparse row, in order of the stored values (R301). -/
def sparsePos (m : List Byte) (ks : Nat) : List Nat :=
  (List.range (ks / 4)).flatMap (fun g =>
    let nib := fldN (m.getD (g / 2) 0).toNat (4 * (g % 2)) 4
    [4 * g + nib % 4, 4 * g + nib / 4])

/-- The update of one position in a K-step (R100): the new encoding and its flags. -/
def accStep (acc : W32) (p : List XVal) : W32 × Nat :=
  if p.isEmpty then (acc, 0)
  else
    match xSum .rne (p ++ [val .f32 acc.toNat]) with
    | .nan => (w32 (canonNan .f32), fInvalid)
    | x => let r := rneTo .f32 x; (w32 r.1, r.2)

/-- The products of one position: the elements that enter (R300, R301). -/
def stepProducts (af bf : EFmt) (row col : List Byte) (pos : List (Nat × Nat)) : List XVal :=
  pos.map (fun x => xMul (elemAt af row x.1) (elemAt bf col x.2))

/-- Stored index and logical position of the elements of a row that enter step n. -/
def enters (sp : Bool) (ks n kreq : Nat) (m : List Byte) : List (Nat × Nat) :=
  let l := if sp then (List.range (ks / 2)).zip (sparsePos m ks) else (List.range ks).map (fun k => (k, k))
  l.filter (fun x => decide (n * ks + x.2 < kreq))

/-- The bytes of a range. -/
def rangeBytes (s : State) (loc : Nat) (g : Group) (r : Nat × Nat × Nat) : List Byte :=
  (spaceLocs s loc g r.1 r.2.1 r.2.2).map (readLoc s)

/-- One K-step over the tile: the positions updated, with the flags of all of them (R100, R300). -/
def stepTile (s : State) (g : Group) (w : MatWork) (t n : Nat) (sp : Bool) (tiles : KMap W32) : KMap W32 × Nat :=
  let ks := shKs w.shape
  let rs := stepRanges w n
  let by_ (i : Nat) : List Byte := rangeBytes s w.loc g (rs.getD i (0, 0, 0))
  let a := by_ 0
  let b := by_ 1
  let m := if sp then by_ 2 else []
  (List.range w.region.1).foldl (fun acc i =>
    let row := (a.drop (64 * i)).take 64
    let pos := enters sp ks n w.region.2.2 ((m.drop (i * (ks / 8))).take (ks / 8))
    (List.range w.region.2.1).foldl (fun acc j =>
      let col := (b.drop (colBytes sp * j)).take (colBytes sp)
      let key := 4096 * t + 64 * i + j
      let r := accStep (mgetD tiles key 0) (stepProducts (shAf w.shape) (shBf w.shape) row col pos)
      (msetD acc.1 key r.1 0, acc.2 ||| r.2)) acc) (tiles, 0)

/-- Whether every earlier access counted on a counter covering an engine operation's source has returned, and every
earlier acquire (R140, R155). -/
def sourceReady (g : Group) (id : Nat) : Bool :=
  match g.pend.find? (fun p => p.id == id) with
  | none => true
  | some p =>
    (g.pend.takeWhile (fun q => q.id != id)).all (fun q =>
      q.returned || ((q.cov &&& p.src == 0 || q.path == some .copy || q.path == some .engine) && !isAcq q))

/-- R300: the engine completes one K-step of an mloop, if its tile and its operands are ready. -/
def execMloopKStep (core id : Nat) (s : State) : Out :=
  .next (match matWork s core id with
    | none => s
    | some w =>
      match mget s.groups w.loc, w.op with
      | some g, .loop t a b incA incB step cnt m sp =>
        let c := coreOf s core
        if !firstOnTile c.mat w || !sourceReady g id then s
        else
          let r := if step < enteringSteps cnt (shKs w.shape) w.region.2.2
            then stepTile s g w t step sp c.tiles else (c.tiles, 0)
          let s := updCore s core (fun c =>
            { c with tiles := r.1, mat := c.mat.map (fun x =>
                if x.id = id then { x with op := .loop t a b incA incB (step + 1) cnt m sp } else x) })
          let s := updGroup s w.loc (fun g => { g with flags := g.flags ||| w64 r.2 })
          settleTiles 17 s core
      | _, _ => s)

/-! ### mdrain (R302) -/

/-- The scale operands of a drain that are present: what the handle reaches, its start, the bytes read; none if a handle is of another
space (R302). -/
def scaleTarget (s : State) (g : Group) (h : Sel) (n : Nat) : Option (Option (Target × Nat × Nat)) :=
  if h == 0 then some none else (target_ s g h [2, 3]).map (fun x => some (x.1, x.2, n))

/-- The range that a scale operand reads: space, address, bytes. -/
def scaleRange (x : Target × Nat × Nat) : Nat × Nat × Nat := (x.1.space, x.2.1 + x.1.shift, x.2.2)

/-- The checks of a drain's scale operands, in the order of R109 over all of them (R278, R302): cause, space, address. -/
def scaleFault (s : State) (loc : Nat) (g : Group) (l : List (Target × Nat × Nat)) : Option (Nat × Nat × Nat) :=
  let tag (c : Nat) (x : Option (Nat × Nat)) : Option (Nat × Nat × Nat) := x.map (fun r => (c, r.1, r.2))
  (tag cAperture (windowFault (l.map scaleRange)) :: l.map (fun x => tag cBounds (targetPast s loc g x.1 x.2.1 x.2.2 [scaleRange x]))
    ++ l.map (fun x => if x.1.rd then none else some (cPerm, x.1.space, x.2.1 + x.1.shift))).findSome? id

/-- The bytes of a drain's scales; none when absent. -/
def scaleBytes (s : State) (loc : Nat) (g : Group) (p : Option (Nat × Nat)) (n : Nat) : List Byte :=
  match p with
  | some (sp, a) => (spaceLocs s loc g sp a n).map (readLoc s)
  | none => []

/-- R302 mdrain. -/
def execMdrain (t hRow hCol : Sel) (o : VTy) (sat : Bool) (s : State) : Out :=
  groupWord (.mdrain t hRow hCol o sat) s (fun s loc g sl =>
    if shapeLeft g then .stall s
    else if !shG g.shape then raise s cIllegalOpcode
    else
      match scaleTarget s g hRow g.region.1, scaleTarget s g hCol g.region.2.1 with
      | some r, some c =>
        let l := r.toList ++ c.toList
        let cov := rangesCover s g (l.map scaleRange)
        let place (x : Option (Target × Nat × Nat)) : Option (Nat × Nat) := x.map (fun y => ((scaleRange y).1, (scaleRange y).2.1))
        match scaleFault s loc g l with
        | some f => raiseAt s f.1 none f.2.1 f.2.2
        | none => tileWord s loc g sl cov (if l.isEmpty then 0x100 else sourcesCover s g (l.map (fun x => [scaleRange x])))
            (l.filterMap (fun x => x.1.aliased)) (.drain (t.toNat % 32) (place r) (place c) none o sat 0)
      | _, _ => raise s cBadHandle)

/-- One drained element (R101, R302): encoding and flags. Scale bytes are as read, or absent. DEDUCED (log 73): the scale code 0xFF of
R101 makes the element a NaN for DL8 too, whose R302 calls a scale byte a signed decade shift. -/
def drainElem (o : VTy) (sat : Bool) (acc : W32) (r c : Option Byte) : Nat × Nat :=
  let x := val .f32 acc.toNat
  let shift (b : Option Byte) : Int := match b with | some b => sextN 8 b.toNat | none => 0
  let power (b : Option Byte) : Int := match b with | some b => (b.toNat : Int) - 127 | none => 0
  if r == some 0xFF || c == some 0xFF then (canonNan o, fInvalid)
  else if o == .dl8 then
    let d := shift r + shift c
    round .dl8 .rne sat false (xMul x (if 0 ≤ d then .fin false (10 ^ d.toNat) 1 else .fin false 1 (10 ^ (-d).toNat)))
  else
    let p := pow2 (power r + power c)
    round o .rne sat false (xMul x (.fin false p.1 p.2))

/-- The pieces of one row of a drain (R302): queue elements in ascending piece number. -/
def drainRow (w : MatWork) (tiles : KMap W32) (t i : Nat) (row col : List Byte) (o : VTy) (sat : Bool) (width : Nat) :
    List QElem :=
  let mg := shM w.shape
  let pieces := 64 / width
  (List.range pieces).map (fun p =>
    let l := (List.range width).map (fun n =>
      let j := p * width + n
      if i < w.region.1 && j < w.region.2.1 then
        let e := drainElem o sat (mgetD tiles (4096 * t + 64 * i + j) 0) row[i]? col[j]?
        (n, zextN (fbits o) e.1, e.2)
      else (n, 0, 0))
    let last := i + 1 == mg && p + 1 == pieces
    { work := w.id, ready := true, last := last,
      header := w64 (i + 64 * p + 256 * t + (if last then 2 ^ 13 else 0) + 2 ^ 16 * VTy.code o),
      lanes := l.map (fun x => (x.1, [w32 x.2.1])), regs := 1, flags := l.foldl (fun a x => a ||| x.2.2) 0 })

/-- Puts pieces in the places that a restored drain holds in q0 (R408). -/
def fillPlaces (id : Nat) : List QElem → List QElem → List QElem
  | [], _ => []
  | q, [] => q
  | e :: t, x :: xs => if e.work == id && !e.ready then x :: fillPlaces id t xs else e :: fillPlaces id t (x :: xs)

/-- R302: the engine pushes the next row of a drain when its tile, its scales and the room of q0 allow. -/
def execMdrainRowPush (core id : Nat) (s : State) : Out :=
  .next (match matWork s core id with
    | none => s
    | some w =>
      match mget s.groups w.loc, w.op with
      | some g, .drain t row col sc o sat next =>
        let c := coreOf s core
        let earlier := (c.mat.takeWhile (fun x => x.id != id)).any (fun x =>
          x.loc == w.loc && (match x.op with | .drain _ _ _ _ _ _ _ => true | _ => false))
        let q := mgetD g.queue 0 []
        let placed := q.any (fun e => e.work == id && !e.ready)
        if !firstOnTile c.mat w || earlier || !sourceReady g id || (!placed && 256 < q.length + 64 / g.width) then s
        else
          let scales := sc.getD (scaleBytes s w.loc g row w.region.1, scaleBytes s w.loc g col w.region.2.1)
          let es := drainRow w c.tiles t next scales.1 scales.2 o sat g.width
          let s := updGroup s w.loc (fun g =>
            { g with queue := msetD g.queue 0 (if placed then fillPlaces id q es else q ++ es) [] })
          if next + 1 = shM w.shape then
            let s := updCore s core (fun c => { c with mat := c.mat.filter (fun x => x.id != id) })
            settleTiles 17 (engineDone s w.loc id 0) core
          else
            updCore s core (fun c => { c with mat := c.mat.map (fun x =>
              if x.id = id then { x with op := .drain t row col (some scales) o sat (next + 1) } else x) })
      | _, _ => s)

/-- Whether an mloop of the group, issued before a store, still has to read one of the bytes stored (R159). -/
def heldByLoop (s : State) (loc : Nat) (g : Group) (p : Pend) : Bool :=
  match p.act with
  | .store w =>
    (coreOf s (locCore loc)).mat.any (fun x => x.loc == loc && decide (x.id < p.id) &&
      (rangeLocs s loc g (loopRanges x)).any (fun l => w.any (fun y => y.1 == l)))
  | _ => false

end Sys2Proof.Machine
end

