-- ==== Sys2Proof/Machine/Engine.lean ====
section
/-! DEFINITION. The other engine words and the completion of their work (R278 to R294, R303 to R306, R402, R437): copies
of groups, publishing, releasing, near-memory products, gathers and collectives. -/

namespace Sys2Proof.Machine

/-! ### Delivery of results (R76, R283, R292, R402) -/

/-- The location of the group that holds a piece of outstanding work. -/
def pendLoc (s : State) (id : Nat) : Option Nat :=
  (s.groups.find? (fun e => e.2.pend.any (fun p => p.id == id))).map (·.1)

/-- Fills the place that work holds in a queue (R280). -/
def fillElem (g : Group) (q id : Nat) (r : Late) : Group :=
  let l := (mgetD g.queue q []).map (fun e =>
    if e.work = id && !e.ready then { e with ready := true, header := r.status, lanes := r.lanes, flags := r.flags } else e)
  { g with queue := msetD g.queue q l [] }

/-- A result reaches its group: the channel's last status, the queue element, the register; the counter falls. -/
def applyResult (s : State) (loc : Nat) (r : Late) : State :=
  let s := updGroup s loc (fun g =>
    let g := match r.chan with | some c => { g with chan := msetD g.chan c r.status 0 } | none => g
    match r.queue with | some q => fillElem g q r.id r | none => g)
  match mget s.groups loc with
  | none => s
  | some g =>
    match g.pend.find? (fun p => p.id == r.id) with
    | none => s
    | some p => land s (.group loc p.slot) p r.status r.lanes (if r.queue.isSome then 0 else r.flags)

/-- Delivers a result to its group, or leaves it for the forwarding entry that waits for it (R402). -/
def deliver (s : State) (r : Late) : State :=
  if s.fwd.any (fun f => f.ids.contains r.id) then { s with late := s.late ++ [r] }
  else
    match pendLoc s r.id with
    | some loc => applyResult s loc r
    | none => s

/-! ### cpy, pub, rcrel, qstat (R284, R292 to R294) -/

/-- R284 cpy. -/
def execCpy (d ch tmpl arg : Sel) (s : State) : Out :=
  groupWord (.cpy d ch tmpl arg) s (fun s loc g sl =>
    let at_ := (gRead g arg).toNat
    if counterFull s .copy 1 || 64 < copiesOn s (locCore loc) + 1 || !argReady s loc g at_ then .stall s
    else .done (startCopy s loc sl ch.toNat tmpl.toNat at_ (if d == 0 then .none else .scalar d)))

/-- R293 pub: begins a swap, performed by PUB_SWAP. -/
def execPub (scope : Scope) (h : Sel) (s : State) : Out :=
  groupWord (.pub scope h) s (fun s loc g sl =>
    let hd := getH g (h.toNat - 0x58)
    let e := hd.base.toNat / 2 ^ 60
    let a := aliasOf s g.team e
    if hSpace hd != 6 || !alValid a || !alShadow a then raise s cBadHandle
    else if counterFull s .copy 1 then .stall s
    else
      let (id, s) := takeFresh s
      let s := addPend s { newPend id sl (some .copy) .none 0 .wait with cov := 0x100, aliased := [e] }
      .done { s with work := mput s.work id (.pub loc g.team e) })

/-- The buffers of an alias entry as ranges: space, first address, end (R132). -/
def bufferRanges (a : Alias) : List (Nat × Nat × Nat) :=
  [a.bufa.toNat, a.bufb.toNat].map (fun b => (alSpace a, b, b + alLen a))

/-- Whether a byte of a location lies in a buffer of an alias of a group's team; a device byte by the translations through which the
accesses in flight were made. -/
def inBuffer (s : State) (loc : Nat) (g : Group) (a : Alias) : MLoc → Bool
  | .array d x => d == locDie loc && (bufferRanges a).any (fun r => r.1 == 3 &&
      (match scratchAddr s d (groupPart s g) x with | some y => decide (r.2.1 ≤ y) && decide (y < r.2.2) | none => false))
  | .hbm pa => (bufferRanges a).any (fun r => r.1 == 4 && (s.tlb ++ s.tlbGone.map (·.1)).any (fun t =>
      t.tag == 0xF000 + groupEid s g && t.frame == pa / 65536
      && decide (r.2.1 ≤ t.page * 65536 + pa % 65536) && decide (t.page * 65536 + pa % 65536 < r.2.2)))
  | _ => false

/-- Whether earlier work of a group may still write a buffer of an alias: a store, an atomic, a copy or a near-memory product
(R158). -/
def writesLeft (s : State) (loc : Nat) (g : Group) (a : Alias) (id : Nat) : Bool :=
  (g.pend.takeWhile (fun p => p.id != id)).any (fun p => !p.returned &&
    (match p.act with
     | .store l => l.any (fun x => inBuffer s loc g a x.1)
     | .atomic _ _ _ l => l.any (fun x => x.1.locs.any (inBuffer s loc g a))
     | .wait =>
       (match mget s.work p.id with
        | some (.copy c) => (copyWrites c).any (fun d => (bufferRanges a).any (fun r =>
            r.1 == d.1 && decide (d.2.1 < (r.2.2 : Int)) && decide ((r.2.1 : Int) < d.2.2)))
        | some (.mvn m) => (bufferRanges a).any (fun r =>
            r.1 == 3 && decide (m.y < r.2.2) && decide (r.2.1 < m.y + 4 * m.rows))
        | _ => false)
     | _ => false))

/-- Whether an acquire that a group issued before an engine operation is still to read (R140). -/
def acquireLeft (g : Group) (id : Nat) : Bool := (g.pend.takeWhile (fun p => p.id != id)).any isAcq

/-- R158: the front of an alias entry swaps once the group's earlier writes to its buffers, and its earlier acquires (R140), have returned; a quantum boundary of
their locations (R152). -/
def execPubSwap (id : Nat) (s : State) : Out :=
  .next (match mget s.work id with
    | some (.pub _ team e) =>
      match pendLoc s id with
      | none => s
      | some loc =>
        match mget s.groups loc with
        | none => s
        | some g =>
          let a := aliasOf s team e
          if writesLeft s loc g a id || acquireLeft g id then s
          else
            let s := quantumBoundary s loc g (fun q => (bufferRanges a).any (fun r => coversAny (some r) q))
            let s := updTeam s team (fun t =>
              let a := mgetD t.aliased e noAlias
              if alValid a && alShadow a then { t with aliased := mput t.aliased e { a with ctl := a.ctl ^^^ w64 (2 ^ 43) } } else t)
            let s := { s with work := mdel s.work id }
            engineDone s loc id 0
    | _ => s)

/-- R294 rcrel: the lines are dropped as it issues; its engine counter falls in its place on the path (R134, R278). -/
def execRcrel (h : Sel) (s : State) : Out :=
  groupWord (.rcrel h) s (fun s loc g _ =>
    let hd := getH g (h.toNat - 0x58)
    if hSpace hd != 5 then raise s cBadHandle
    else if counterFull s .engine 1 then .stall s
    else .done (issueWork (dropRange s loc g hd) (some .engine) .none 0 .nothing).2)

/-- R292 qstat. -/
def execQstat (d ch : Sel) (s : State) : Out :=
  groupWord (.qstat d ch) s (fun s _ g _ => .done (writeReg s d (mgetD g.chan ch.toNat 0)))

/-! ### mvn (R303, R304) -/

/-- Bits of a matrix element. -/
def EFmt.bits : EFmt → Nat
  | .bf16 | .fp16 => 16 | .fp4 => 4 | _ => 8

/-- Bytes from one row of B to the next (R303). -/
def mvnPitch (cols : Nat) (bf : EFmt) : Nat := 64 * ((cols * EFmt.bits bf + 511) / 512)

/-- The issue checks of mvn over its three ranges (R303): cause, space, address. R303 lists BOUNDS and ALIGN; a handle without its
permission, and a y range in a read-only region, fault with PERM in the place that R109 gives it (DESIGN CHOICE, log 84). -/
def mvnFault (s : State) (loc : Nat) (g : Group) (hB hX hY : Handle) (rows cols : Nat) (bf : EFmt) (x8 : Bool) :
    Option (Nat × Nat × Nat) :=
  let nB := rows * mvnPitch cols bf + (if bf == .fp4 then rows else 0)
  let xs := if x8 then 1 else 2
  let rng (h : Handle) (n : Nat) : Nat × Nat × Nat := (hSpace h, h.base.toNat, n)
  let past (h : Handle) (n : Nat) : Option (Nat × Nat) :=
    lowestByte ((if hLen h < n then [(hSpace h, h.base.toNat + hLen h)] else [])
      ++ (if hSpace h = 4 then [] else (pastFault s loc g [rng h n]).toList))
  let tag (c : Nat) (x : Option (Nat × Nat)) : Option (Nat × Nat × Nat) := x.map (fun r => (c, r.1, r.2))
  let ro := (List.range rows).find? (fun r => bitN (regionOf s g (hY.base.toNat + 4 * r)) 2)
  if rows = 0 || 65536 < rows || cols = 0 || 1048576 < cols then some (cBounds, 4, hB.base.toNat)
  else
    [tag cAperture (windowFault [rng hX (cols * xs)]), tag cAperture (windowFault [rng hY (4 * rows)]),
     tag cBounds (past hB nB), tag cBounds (past hX (cols * xs)), tag cBounds (past hY (4 * rows)),
     if !hRd hB then some (cPerm, 4, hB.base.toNat) else none,
     if !hRd hX then some (cPerm, hSpace hX, hX.base.toNat) else none,
     if !hWr hY then some (cPerm, 3, hY.base.toNat) else none,
     ro.map (fun r => (cPerm, 3, hY.base.toNat + 4 * r)),
     if hB.base.toNat % 64 != 0 then some (cAlign, 4, hB.base.toNat) else none,
     if hX.base.toNat % xs != 0 then some (cAlign, hSpace hX, hX.base.toNat) else none,
     if hY.base.toNat % 4 != 0 then some (cAlign, 3, hY.base.toNat) else none].findSome? id

/-- A place for a result in a queue, still to be filled (R280). -/
def pendingElem (id : Nat) (lanes : List (Nat × List W32)) (regs : Nat) : QElem :=
  { work := id, ready := false, last := false, header := 0, lanes := lanes, regs := regs, flags := 0 }

def pushElem (s : State) (loc q : Nat) (e : QElem) : State :=
  updGroup s loc (fun g => { g with queue := msetD g.queue q (mgetD g.queue q [] ++ [e]) [] })

/-- R303 mvn. -/
def execMvn (d hB hX hY rows cols : Sel) (bf : EFmt) (x8 : Bool) (s : State) : Out :=
  groupWord (.mvn d hB hX hY rows cols bf x8) s (fun s loc g sl =>
    let b := getH g (hB.toNat - 0x58)
    let x := getH g (hX.toNat - 0x58)
    let y := getH g (hY.toNat - 0x58)
    let r := (gRead g rows).toNat
    let c := (gRead g cols).toNat
    if hSpace b != 4 || (hSpace x != 2 && hSpace x != 3) || hSpace y != 3 then raise s cBadHandle
    else
      match mvnFault s loc g b x y r c bf x8 with
      | some f => raiseAt s f.1 none f.2.1 f.2.2
      | none =>
        if counterFull s .engine 1 then .stall s
        else
          let nB := r * mvnPitch c bf + (if bf == .fp4 then r else 0)
          let src := sourcesCover s g [[(4, b.base.toNat, nB)], [(hSpace x, x.base.toNat, c * (if x8 then 1 else 2))]]
          let cov := rangesCover s g [(4, b.base.toNat, nB), (hSpace x, x.base.toNat, c * (if x8 then 1 else 2)),
            (3, y.base.toNat, 4 * r)]
          let (id, s) := takeFresh s
          let s := addPend s { newPend id sl (some .engine) (if d == 0 then .none else .scalar d) 0 .wait with
            cov := cov, src := src }
          let s := if d == 0 then pushElem s loc 1 (pendingElem id [] 0) else s
          let m : Mvn :=
            { loc := loc, team := g.team, part := groupPart s g, eid := groupEid s g, core := locCore loc, rows := r, cols := c,
              bf := bf, x8 := x8, b := b.base.toNat, x := x.base.toNat, xs := hSpace x, y := y.base.toNat, toQ := d == 0,
              page := none, pageFail := none, waitAt := 0 }
          .done { s with work := mput s.work id (.mvn m) })

/-- An accumulation step of a row: acc + chunk (R102, R304); any NaN gives the canonical one and invalid (R103). -/
def addChunk (acc : Nat × Nat) (l : List XVal) : Nat × Nat :=
  let rn (x : XVal) : Nat × Nat := match x with
    | .nan => (canonNan .f32, fInvalid)
    | x => rneTo .f32 x
  let c := rn (xSum .rne l)
  let r := rn (xSum .rne [val .f32 acc.1, val .f32 c.1])
  (r.1, acc.2 ||| c.2 ||| r.2)

/-- Splits a list into chunks of 256 (R304); the fuel bounds their number. -/
def chunks {α : Type} : Nat → List α → List (List α)
  | 0, _ => []
  | n + 1, l => if l.isEmpty then [] else l.take 256 :: chunks n (l.drop 256)

/-- One row of y from the bytes of B's row, its FP4 scale, and x (R304). -/
def mvnRow (m : Mvn) (row : List Byte) (scale : Option Nat) (x : List Byte) : Nat × Nat :=
  match scale with
  | some 255 => (canonNan .f32, fInvalid)
  | sc =>
    let p : XVal := match sc with | some e => let q := pow2 ((e : Int) - 127); .fin false q.1 q.2 | none => .fin false 1 1
    let xt : EFmt := if m.x8 then .e4m3 else .bf16
    let terms := (List.range m.cols).map (fun k => xMul (xMul (elemAt m.bf row k) (elemAt xt x k)) p)
    (chunks (m.cols / 256 + 1) terms).foldl addChunk (0, 0)

/-- What the rows of B give: the rows to write, failed sectors, flags, stopping error; or a page fault. -/
inductive MScan
  | ready (rows : List (Nat × Nat)) (bad : List Nat) (flags err : Nat)
  | page (row code stage page : Nat)
  | wait

/-- Reads and computes the rows of a product in order; a row whose page request has failed is a stopping error (R393). -/
def mvnScan (m : Mvn) (x : List Byte) : List Nat → State → List (Nat × Nat) → List Nat → Nat → MScan × State
  | [], s, acc, bad, fl => (.ready acc bad fl 0, s)
  | r :: rest, s, acc, bad, fl =>
    match if m.waitAt = r then m.pageFail else none with
    | some code => (.ready acc bad fl (xlErr code), s)
    | none =>
    let pitch := mvnPitch m.cols m.bf
    let n := (m.cols * EFmt.bits m.bf + 7) / 8
    let (rb, s) := resolveDev s (encCtx s m.eid) (m.b + r * pitch) .read n
    let (rs, s) := if m.bf == .fp4 then resolveDev s (encCtx s m.eid) (m.b + m.rows * pitch + r) .read 1 else (.ok [], s)
    match rb, rs with
    | .ok l, .ok sc =>
      let fails := (l ++ sc).filterMap (badC s)
      if !fails.isEmpty then mvnScan m x rest s acc (bad ++ fails) fl
      else
        let v := mvnRow m (l.map (readC s)) (sc.head?.map (fun c => (readC s c).toNat)) x
        mvnScan m x rest s (acc ++ [(r, v.1)]) bad (fl ||| v.2)
    | .page c st pg, _ | .ok _, .page c st pg => (.page r c st pg, s)
    | .err e, _ | .ok _, .err e => (.ready acc bad fl e, s)
    | _, _ => (.wait, s)

/-- R304: a near-memory product completes, its sources being ready and, for one that fills q1, room being left. -/
def execMvnCompletion (id : Nat) (s : State) : Out :=
  .next (match mget s.work id with
    | some (.mvn m) =>
      let held := match pendLoc s id with
        | some loc =>
          match mget s.groups loc with
          | some g => !sourceReady g id || (m.toQ && ((mgetD g.queue 1 []).take 16).all (fun e => e.work != id))
          | none => false
        | none => false
      if held || m.page.isSome then s
      else
        let xl := (List.range (m.cols * (if m.x8 then 1 else 2))).map (fun j =>
          readLoc s (if m.xs = 2 then .shared m.team (m.x + j) else scratchLoc s (coreDie m.core) m.part (m.x + j)))
        match mvnScan m xl (List.range m.rows) s [] [] 0 with
        | (.wait, s) => s
        | (.page r c st pg, s) =>
          let (q, s) := pageRequest s (encCtx s m.eid) c st pg .read
          { s with work := mput s.work id (.mvn { m with page := q, pageFail := none, waitAt := r }) }
        | (.ready rows bad fl err, s) =>
          let w := rows.flatMap (fun r => ((List.range 4).map (fun j =>
            scratchLoc s (coreDie m.core) m.part (m.y + 4 * r.1 + j))).zip (leBytes 4 r.2))
          let s := { performWrites s none w with work := mdel s.work id }
          let nb := bad.eraseDups.length
          let e := if err != 0 then err else if nb != 0 then 6 else 0
          deliver s { id := id, chan := none, status := copyStatus (4 * rows.length) nb e 0 true, lanes := [], flags := fl,
                      queue := if m.toQ then some 1 else none }
    | _ => s)

/-! ### gath (R305) -/

/-- The check of one lane of a gather: bounds, permission, alignment of its sector (R109, R305). -/
def gathCheck (h : Handle) (a : Nat) : Option Nat :=
  if h.base.toNat + hLen h < a + 16 then some cBounds
  else if !hRd h then some cPerm
  else if a % 16 != 0 then some cAlign
  else none

/-- R305 gath. -/
def execGath (h v : Sel) (s : State) : Out :=
  groupWord (.gath h v) s (fun s loc g sl =>
    let hd := getH g (h.toNat - 0x58)
    if hSpace hd != 4 then raise s cBadHandle
    else
      let lanes := (lanesOf (live g sl) g.width).map (fun l =>
        (l, hd.base.toNat + 16 * (vRead s loc g sl v l).toNat))
      match lanes.findSome? (fun x => (gathCheck hd x.2).map (fun c => (c, x))) with
      | some (c, x) => raiseAt s c (some x.1) 4 x.2
      | none =>
        if counterFull s .engine 1 || 64 ≤ (mgetD g.queue 2 []).length then .stall s
        else
          let cov := rangesCover s g (lanes.map (fun x => (4, x.2, 16)))
          let (id, s) := takeFresh s
          let s := addPend s { newPend id sl (some .engine) .none (live g sl) .wait with cov := cov, src := cov }
          let s := pushElem s loc 2 (pendingElem id (lanes.map (fun x => (x.1, [0, 0, 0, 0]))) 4)
          .done { s with work := mput s.work id (.gath loc (groupEid s g) (groupPart s g) lanes none 0) })

/-- The sectors of a gather's lanes: per lane its bytes, or failure; a page fault of a lane stops the scan. -/
def gathScan (c : Ctx) (failed : W64) : List (Nat × Nat) → State → List (Nat × Option (List Byte)) →
    Option (Nat × Nat × Nat × Nat) × List (Nat × Option (List Byte)) × Bool × State
  | [], s, acc => (none, acc, false, s)
  | (l, a) :: rest, s, acc =>
    if bit failed l then gathScan c failed rest s (acc ++ [(l, none)])
    else
      match translate s c a .read false with
      | (.ok pa _, s) =>
        gathScan c failed rest s (acc ++ [(l, if lineOk s pa then some (readBytes s.hbm pa 16) else none)])
      | (.fault k st pg, s) =>
        if k = cNotmapped || k = cFartier || k = cOwnership then (some (l, k, st, pg), acc, false, s)
        else gathScan c failed rest s (acc ++ [(l, none)])
      | (.wait, s) => (none, acc, true, s)

/-- R305: the sectors of a gather arrive in q2; a lane that fails receives zero and its header bit (R283). -/
def execGatherCompletion (id : Nat) (s : State) : Out :=
  .next (match mget s.work id with
    | some (.gath loc eid part lanes page failed) =>
      let held := match pendLoc s id with
        | some l => match mget s.groups l with | some g => !sourceReady g id | none => false
        | none => false
      if held || page.isSome then s
      else
        match gathScan (encCtx s eid) failed lanes s [] with
        | (_, _, true, s) => s
        | (some (l, k, st, pg), _, _, s) =>
          let (q, s) := pageRequest s (encCtx s eid) k st pg .read
          { s with work := mput s.work id (.gath loc eid part lanes (q.map (fun n => (n, l))) failed) }
        | (none, acc, _, s) =>
          let s := { s with work := mdel s.work id }
          let mask := maskOf ((acc.filter (fun x => x.2.isNone)).map (·.1))
          let vals := acc.map (fun x => (x.1, (List.range 4).map (fun j =>
            match x.2 with | some b => w32 (leNat ((b.drop (4 * j)).take 4)) | none => 0)))
          deliver s { id := id, chan := none, status := mask, lanes := vals, flags := 0, queue := some 2 }
    | _ => s)

/-! ### coll (R306) -/

/-- R306 coll: the group's next contribution under its tag. -/
def execColl (op : RedOp) (ty : VTy) (v desc : Sel) (s : State) : Out :=
  groupWord (.coll op ty v desc) s (fun s loc g sl =>
    if counterFull s .engine 1 || 4 ≤ (mgetD g.queue 3 []).length then .stall s
    else
      let x := (gRead g desc).toNat
      let tag := fldN x 8 8
      let c := mgetD g.coll tag 0
      let wide := VTy.wide ty
      let lanes := lanesOf (live g sl) g.width
      let (id, s) := takeFresh s
      let k : Contrib :=
        { dead := false, fzi := fmtFzi g sl, fzo := fmtFzo g sl, loc := loc, pend := id, team := g.team, index := teamIndex s g, die := locDie loc, num := g.num, op := op, ty := ty,
          extent := x % 4, bad := fldN x 16 48 != 0 || fldN x 2 6 != 0 || x % 4 == 3,
          vals := lanes.map (fun j => (j, vVal s loc g sl wide v j)), time := s.time }
      let s := addPend s { newPend id sl (some .engine) .none (live g sl) .wait with cov := 0x100 }
      let s := pushElem s loc 3 (pendingElem id (lanes.map (fun j => (j, if wide then [0, 0] else [0]))) (if wide then 2 else 1))
      let s := updGroup s loc (fun g => { g with coll := mput g.coll tag (c + 1) })
      let mine (w : Nat × Work) : Bool := match w.2 with
        | .coll l t n _ => l == g.launch && t == tag && n == c
        | _ => false
      match s.work.find? mine with
      | some (wid, .coll l t n cs) => .done { s with work := mput s.work wid (.coll l t n (cs ++ [k])) }
      | _ =>
        let (wid, s) := takeFresh s
        .done { s with work := mput s.work wid (.coll g.launch tag c [k]) })

/-- Whether a team of a launch has retired: placed, no longer on a core, not saved and not being restored (R306). -/
def teamRetired (s : State) (launch : Nat) (l : Launch) (i : Nat) : Bool :=
  decide (i < l.next) && !s.teams.any (fun t => t.2.launch == launch && t.2.index == i)
  && !s.saved.any (fun v => v.launch == launch && v.index == i && !v.consumed)
  && !s.fes.any (fun f => f.2.restores.any (fun r => r.launch == launch && r.index == i))

/-- Whether a team has contributed to a collective or retired: each of its groups has issued the word or retired. -/
def teamIn (s : State) (launch : Nat) (l : Launch) (cs : List Contrib) (i : Nat) : Bool :=
  teamRetired s launch l i ||
  (match s.teams.find? (fun t => t.2.launch == launch && t.2.index == i) with
   | some t => (List.range l.size).all (fun n => bit t.2.retired n || cs.any (fun c => c.index == i && c.num == n))
   | none => l.size ≠ 0 && (List.range l.size).all (fun n => cs.any (fun c => c.index == i && c.num == n)))

/-- A leaf of a collective: what a group contributes at a lane, as R246 reads it under the group's FMT.fzi (R85, R93): value and flags. -/
def collLeaf (c : Contrib) (v : Nat) : Nat × Nat := if c.ty == .f32 then treeLeaf c.fzi v else (v, 0)

/-- FMT.fzo of a collective: that of its contributions; where they differ, R93 does not say which holds at a node, and it is a free
value (log 73). -/
def collFzo (n : Nat) (cs : List Contrib) : Bool :=
  match cs with
  | c :: t => if t.all (fun x => x.fzo == c.fzo) then c.fzo else Config.collFzo n
  | [] => false

/-- A node of a collective tree of integers or FP32 values: value and flags (R93, R246, R306). -/
def collNode (fzo : Bool) (op : RedOp) (ty : VTy) (x y : Nat) : Nat × Nat :=
  if ty == .f32 then treeNode op fzo x y
  else (wrapI (ibits ty) (redStep op (ibits ty) (vInt ty x) (vInt ty y)), 0)

def collLevel (fzo : Bool) (op : RedOp) (ty : VTy) : List (Option Nat) → List (Option Nat) × Nat
  | x :: y :: t =>
    let r := collLevel fzo op ty t
    match x, y with
    | none, z => (z :: r.1, r.2)
    | z, none => (z :: r.1, r.2)
    | some u, some v => let n := collNode fzo op ty u v; (some n.1 :: r.1, n.2 ||| r.2)
  | l => (l, 0)

/-- The tree of R246 over leaves padded to a power of two with empty ones. -/
def collTree (fzo : Bool) (op : RedOp) (ty : VTy) : Nat → List (Option Nat) → Nat → Option Nat × Nat
  | 0, l, fl => (l.headD none, fl)
  | n + 1, l, fl => if l.length ≤ 1 then (l.headD none, fl) else
      let r := collLevel fzo op ty l; collTree fzo op ty n r.1 (fl ||| r.2)

/-- The value of one lane position over a list of leaves; fuel for 2^32 of them. -/
def collCombine (fzo : Bool) (op : RedOp) (ty : VTy) (l : List (Option Nat)) : Option Nat × Nat := collTree fzo op ty 32 l 0

/-- The identity of a collective as a lane value (R237). -/
def collIdentity (op : RedOp) (ty : VTy) : Nat :=
  if ty == .f32 then fltIdentity op else wrapI (ibits ty) (redIdentity op ty)

/-- A team's value at a lane position, with its flags: over its groups in order; a retired group and an absent lane are the identity. -/
def teamLane (fzo : Bool) (size : Nat) (op : RedOp) (ty : VTy) (cs : List Contrib) (i lane : Nat) : Option Nat × Nat :=
  let ls : List (Nat × Nat) := (List.range size).map (fun n =>
    match cs.find? (fun c => c.index == i && c.num == n) with
    | some c => match c.vals.find? (fun (v : Nat × Nat) => v.1 == lane) with | some v => collLeaf c v.2 | none => (collIdentity op ty, 0)
    | none => (collIdentity op ty, 0))
  let r := collCombine fzo op ty (ls.map (fun x => some x.1))
  (r.1, ls.foldl (fun a x => a ||| x.2) r.2)

/-- The teams of a die in a collective, ascending: those that contributed there, and those placed there that did not
contribute elsewhere. -/
def dieTeamsOf (l : Launch) (cs : List Contrib) (die : Nat) : List Nat :=
  (List.range (l.gx * l.gy * l.gz)).filter (fun i =>
    match cs.find? (fun c => c.index == i) with
    | some c => c.die == die
    | none => bitN (mgetD l.dieTeams die 0) i &&
        !(List.range die).any (fun d => bitN (mgetD l.dieTeams d 0) i))

/-- A die's value at a lane position; empty with no team. -/
def dieLane (fzo : Bool) (l : Launch) (op : RedOp) (ty : VTy) (cs : List Contrib) (die lane : Nat) : Option Nat × Nat :=
  let ts := (dieTeamsOf l cs die).map (fun i => teamLane fzo l.size op ty cs i lane)
  let r := collCombine fzo op ty (ts.map (·.1))
  (r.1, ts.foldl (fun a x => a ||| x.2) r.2)

/-- The package's value at a lane position. -/
def packageLane (fzo : Bool) (l : Launch) (op : RedOp) (ty : VTy) (cs : List Contrib) (lane : Nat) : Option Nat × Nat :=
  let ds := (List.range 8).map (fun d => dieLane fzo l op ty cs d lane)
  let r := collCombine fzo op ty (ds.map (·.1))
  (r.1, ds.foldl (fun a x => a ||| x.2) r.2)

/-- The keyed stream entries of an enclave (R469). -/
def enclaveStreams (s : State) (eid : Nat) : List Stream :=
  s.ue.flatMap (fun p => (p.2.table.map (·.2)).filter (fun x => stEid x == eid && stState x == 2))

/-- The ranks of a collective set in ascending order with this module's own; an error code when the set is broken (R469). -/
def collectiveSet (s : State) (eid : Nat) : Except Nat (List Nat × Nat) :=
  let l := enclaveStreams s eid
  let self := match l with | x :: _ => stSelf x | [] => 0
  let ranks := self :: l.map stRank
  if l.any (fun x => stSelf x != self) || ranks.eraseDups.length != ranks.length then .error 2
  else .ok ((List.range 65536).filter (fun r => ranks.contains r), self)

/-- A module-wide value at a lane position: peers' values are free (log 26); a NaN of theirs is canonical (R85). -/
def moduleLane (fzo : Bool) (ranks : List Nat) (self n : Nat) (op : RedOp) (ty : VTy) (own : Option Nat × Nat) (lane : Nat) :
    Option Nat × Nat :=
  let peer (k : Nat) : Nat := Config.peerValue n k lane % 2 ^ ibits ty
  let r := collCombine fzo op ty (ranks.map (fun k =>
    if k = self then own.1 else some (if ty == .f32 then (treeLeaf false (peer k)).1 else peer k)))
  (r.1, own.2 ||| r.2)

/-- R437: the shift of a grid's cluster frequencies at a grid barrier, by when each cluster's last team contributed. A gain that the
module power limit withholds, which is a free value (log 40), takes its paired loss with it. -/
def shiftPower (s : State) (launch : Nat) (cs : List Contrib) : State :=
  let ids := (List.range 64).filter (fun n =>
    let here (core : Nat) : Bool := 8 * coreDie core + coreCluster core == n
    s.teams.any (fun t => here t.2.core) && s.teams.all (fun t => !here t.2.core || t.2.launch == launch)
    && cs.any (fun c => here (locCore c.loc)))
  let last (n : Nat) : Nat := cs.foldl (fun a c =>
    if 8 * coreDie (locCore c.loc) + coreCluster (locCore c.loc) = n then max a c.time else a) 0
  match leastBy (fun n => last n) ids, leastBy (fun n => 2 ^ 64 - last n) ids with
  | some lo, some hi =>
    if last lo + 2000 ≤ last hi && !s.thermal && !Config.gainWithheld s.time launch hi then
      let upd (s : State) (n : Nat) (f : Nat → Nat) : State :=
        updDie s (n / 8) (fun d => { d with freq := msetD d.freq (n % 8) (f (mgetD d.freq (n % 8) 1400)) 1400 })
      upd (upd s hi (fun f => min 1600 (f + 25))) lo (fun f => max 1200 (f - 25))
    else s
  | _, _ => s

/-- Delivers the result of a collective to the groups of a list of contributions. -/
def deliverColl (s : State) (err : Nat) (val_ : Nat → Nat) (flags : Nat) : List Contrib → State
  | [] => s
  | c :: t =>
    let wide := VTy.wide c.ty
    let r : Late :=
      { id := c.pend, chan := none, status := w64 (256 * err),
        lanes := c.vals.map (fun x => (x.1, splitVal wide (if err = 0 then val_ x.1 else 0))),
        flags := if err = 0 then flags else 0, queue := some 3 }
    deliverColl (deliver s r) err val_ flags t

/-- Delivers combined lane values to contributions. -/
def finishColl (s : State) (width : Nat) (val_ : Nat → Option Nat × Nat) (cs : List Contrib) : State :=
  let vals := (List.range width).map val_
  deliverColl s 0 (fun j => ((vals.getD j (none, 0)).1).getD 0) (vals.foldl (fun a x => a ||| x.2) 0) cs

/-- Whether contributions to one collective differ, or one is malformed (R306). -/
def collBroken (cs : List Contrib) : Bool :=
  match cs with
  | [] => false
  | c :: t => cs.any (·.bad) || t.any (fun x => x.op != c.op || x.ty != c.ty || x.extent != c.extent)

/-- The contributions of a die when all of them name extent 0, so that the die has a collective of its own (R306). -/
def dieOwn (cs : List Contrib) (d : Nat) : List Contrib :=
  let mine := cs.filter (fun c => c.die == d)
  if mine.all (fun c => c.extent == 0) then mine else []

/-- The collectives among the contributions to one tag and number: those of the dies that have one of their own, and that of the
rest, which the other dies' words differ from in extent; each with whether it is broken (R306). -/
def collSets (cs : List Contrib) : List (List Contrib × Bool) :=
  let own := ((List.range 8).map (dieOwn cs)).filter (fun l => !l.isEmpty)
  let rest := cs.filter (fun c => (dieOwn cs c.die).isEmpty)
  own.map (fun l => (l, collBroken l)) ++
    (if rest.isEmpty then [] else [(rest, collBroken rest || !own.isEmpty)])

/-- R306: a collective completes: broken ones with err 0x02 at once; extent 0 die by die; the others when every team of
the grid has contributed or retired. A contribution is performed after the earlier acquires of its group (R140). -/
def execCollectiveCompletion (id : Nat) (s : State) : Out :=
  .next (match mget s.work id with
    | some (.coll launch tag n cs) =>
      match mget s.launches launch, cs with
      | some l, c :: _ =>
        let left (cs : List Contrib) (s : State) : State :=
          { s with work := if cs.isEmpty then mdel s.work id else mput s.work id (.coll launch tag n cs) }
        let waiting := cs.filter (fun c =>
          s.groups.any (fun e => e.2.pend.any (fun p => p.id == c.pend && !p.returned))
          || s.fwd.any (fun f => f.ids.contains c.pend))
        let sets := collSets cs
        let broken := (sets.filter (·.2)).flatMap (·.1)
        if cs.any (fun c => match mget s.groups c.loc with | some g => g.pend.any (fun p => p.id == c.pend) && acquireLeft g c.pend | none => false)
        then s
        else if broken.any (fun c => waiting.contains c) then
          deliverColl s 2 (fun _ => 0) 0 (waiting.filter (fun c => broken.contains c))
        else if !sets.all (fun x => x.2 || x.1.all (fun c => c.extent != 0)) then
          if l.next < l.gx * l.gy * l.gz then s
          else
            match (List.range 8).find? (fun d => !(dieOwn cs d).isEmpty && !collBroken (dieOwn cs d)
                && (dieTeamsOf l cs d).all (fun i => teamIn s launch l cs i)) with
            | none => s
            | some d =>
              let mine := dieOwn cs d
              match mine with
              | m :: _ => finishColl (left (cs.filter (fun c => c.die != d)) s) l.width (fun j => dieLane (collFzo id mine) l m.op m.ty cs d j) mine
              | [] => s
        else if !broken.isEmpty then s
        else if !(List.range (l.gx * l.gy * l.gz)).all (fun i => teamIn s launch l cs i) then s
        else
          let s := if l.cores then shiftPower s launch cs else s
          if c.extent = 1 then finishColl (left [] s) l.width (fun j => packageLane (collFzo id cs) l c.op c.ty cs j) cs
          else if cs.any (·.dead) then deliverColl (left [] s) 7 (fun _ => 0) 0 cs
          else
            match collectiveSet s l.eid with
            | .error e => deliverColl (left [] s) e (fun _ => 0) 0 cs
            | .ok (ranks, self) =>
              let f := s.fresh
              finishColl (left [] { s with fresh := f + 1 }) l.width
                (fun j => moduleLane (collFzo id cs) ranks self f c.op c.ty (packageLane (collFzo id cs) l c.op c.ty cs j) j) cs
      | _, _ => s
    | _ => s)

end Sys2Proof.Machine
end

