-- ==== Sys2Proof/Machine/Returns.lean ====
section
/-! DEFINITION. The returns of accesses and deferred results (R76, R134, R139, R256, R262, R264 to R266), the end of a
change of W (R119, R275), and the fill of a counted line (R130). An access is performed in the step that returns it; which
outstanding access returns next is the script's choice, within the order of R140 to R149 (log 1, log 2). -/

namespace Sys2Proof.Machine

/-! ### Order among a unit's accesses -/

/-- Whether an entry is a memory access of S or R kind (R140). -/
def ordered (p : Pend) : Bool := (p.kind == .s || p.kind == .r) && !(pendLocs p).isEmpty

/-- The release part of an outstanding atomic; a compare-and-swap that would fail now has none (R266). -/
def releases (s : State) (p : Pend) : Bool :=
  isRel p && (match p.act with
    | .atomic _ w64_ true l => l.any (fun x =>
        readLocs s x.1.locs == zextN (if w64_ then 64 else 32) x.2.2.toNat)
    | _ => true)

/-- Whether an earlier access x of the same unit keeps p from being performed: they share a byte (R145) and are not lanes
of one load or commutative word (R144, R151), or acquire or release order stands between them (R140). -/
def mustFollow (s : State) (x p : Pend) : Bool :=
  !x.returned &&
  ((!(x.comb.isSome && x.comb == p.comb) && (pendLocs x).any (fun l => (pendLocs p).contains l))
   || (isAcq x && ordered p) || (releases s p && ordered p && ordered x))

/-- The lane whose spill area an outstanding entry of a group reaches: number of its home group, and lane (R112). -/
def spillLane (g : Group) (p : Pend) : Option (Nat × W64) :=
  if p.path != some .spill then none
  else some (match p.homes.find? (fun h => h.2 &&& p.lanes != 0) with | some h => h.1 | none => g.num, p.lanes)

/-- Whether an earlier spill access of the same lane, whichever group of the team issued it, is still to be performed (R111). -/
def spillBefore (s : State) (g : Group) (p : Pend) : Bool :=
  (spillLane g p).isSome && s.groups.any (fun e => e.2.team == g.team && e.2.pend.any (fun x =>
    decide (x.id < p.id) && !x.returned && spillLane e.2 x == spillLane g p))

/-- Whether an outstanding entry of a unit may return now; a lane's spill accesses keep their order (R111), and a store into an
operand of an mloop is held (R159). -/
def canReturn (s : State) (ag : Agent) (p : Pend) : Bool :=
  !p.returned && ((pendAt s ag).takeWhile (fun x => x.id != p.id)).all (fun x => !mustFollow s x p)
  && (match ag with
      | .group loc _ =>
        (match mget s.groups loc with | some g => !heldByLoop s loc g p && !spillBefore s g p | none => false)
      | _ => true)

/-- The writer that the watchers of a location are told of (R47). -/
def writerOf : Agent → Option Nat
  | .group loc _ => some loc
  | _ => none

/-- The group whose quantum boundaries a unit's reads go by (R152). -/
def readerOf (s : State) : Agent → Option Nat
  | .group loc _ => (mget s.groups loc).map quantumWho
  | _ => none

/-! ### Performing -/

/-- Performs an atomic on one lane's location (R264, R266): the old value, and the state after it. A compare-and-swap
whose comparison fails writes nothing. -/
def performAtomic (s : State) (who : Option Nat) (op : AtomOp) (w64_ cas : Bool) (l : List MLoc) (y cmp : W64) :
    Nat × State :=
  let n := if w64_ then 64 else 32
  let old := readLocs s l
  let new := if cas then (if old = zextN n cmp.toNat then zextN n y.toNat else old) else atomicNew op n old (zextN n y.toNat)
  (old, if cas && old != zextN n cmp.toNat then s else performWrites s who (l.zip (leBytes (n / 8) new)))

/-- Performs a quantum atomic on one lane's location: the memory takes it once, and the old value is one that the group may see
(R152). -/
def performQuantum (s : State) (who : Option Nat) (g : Group) (id : Nat) (at_ : Nat × Nat) (op : AtomOp) (w64_ : Bool)
    (l : List MLoc) (y : W64) : Nat × State :=
  let n := if w64_ then 64 else 32
  let old := readLocs s l
  let new := atomicNew op n old (zextN n y.toNat)
  (viewLocs s (some (quantumWho g)) id l,
   noteQuantum (noticeWrites (writeLocs s (l.zip (leBytes (n / 8) new))) who l readLoc) l at_.1 at_.2 old (id, op, zextN n y.toNat))

/-- Performs the one lane of an outstanding atomic of a unit: its old value. -/
def performPend (s : State) (ag : Agent) (p : Pend) : Nat × State :=
  match p.act with
  | .atomic op w64_ cas ((a, y, c) :: _) =>
    match p.quantum, (match ag with | .group loc _ => mget s.groups loc | _ => none) with
    | some at_, some g => performQuantum s (writerOf ag) g p.id at_ op w64_ a.locs y
    | _, _ => performAtomic s (writerOf ag) op w64_ cas a.locs y c
  | _ => (0, s)

/-- Inserts an entry by the rank that combining gives its lane. -/
def insertRank (n : Nat) (p : Pend) : List Pend → List Pend
  | [] => [p]
  | x :: t => if Config.combineRank n p.lanes.toNat < Config.combineRank n x.lanes.toNat then p :: x :: t else x :: insertRank n p t

/-- The lanes applied together when lane p of a commutative word is returned: the earlier ones on its location, still
outstanding, and itself, in some serialisation (R151, R265); p alone when none is. -/
def combined (l : List Pend) (p : Pend) : List Pend :=
  let es := l.filter (fun x => decide (x.id ≤ p.id) && !x.returned && x.comb == p.comb && p.comb.isSome
    && pendLocs x == pendLocs p)
  match es with
  | x :: y :: t => (x :: y :: t).foldr (insertRank x.id) []
  | _ => [p]

/-- Performs outstanding atomics one after another: the old value of each. -/
def performAll (ag : Agent) : List Pend → State → List (Nat × Nat) → List (Nat × Nat) × State
  | [], s, acc => (acc, s)
  | p :: t, s, acc => let r := performPend s ag p; performAll ag t r.2 (acc ++ [(p.id, r.1)])

/-- An atomic's old value as a result ready to land. -/
def oldValue (p : Pend) (v : Nat) : Act :=
  match p.act with
  | .atomic _ w64_ _ ((a, _, _) :: _) => .value [(a.lane, splitVal w64_ v)] (w64 v)
  | x => x

/-- A value that lanes of one load share once one of them is performed (R144). -/
def sharedValue (p x : Pend) (v : Nat) : Act :=
  match p.act, x.act with
  | .load _ (a :: _), .load wt (b :: _) =>
    if x.id != p.id && x.comb.isSome && x.comb == p.comb && a.locs == b.locs && !x.returned
    then .value [(b.lane, loadRegs wt v)] (loadScalar wt v) else x.act
  | _, y => y

/-- R76: a deferred result lands: a load or atomic is performed and its value written, or a value ready since issue is
written; the pending mark clears and the counter falls. -/
def returnResult (s : State) (ag : Agent) (p : Pend) : State :=
  match p.act with
  | .load wt (a :: _) =>
    let v := viewLocs s (readerOf s ag) p.id a.locs
    let s := setPendAt s ag ((pendAt s ag).map (fun x => { x with act := sharedValue p x v }))
    land s ag p (loadScalar wt v) [(a.lane, loadRegs wt v)] p.flags
  | .frag tr sec l =>
    match ag with
    | .group loc _ =>
      match mget s.groups loc with
      | some g =>
        let m := l.map (viewLoc s (some (quantumWho g)) p.id)
        let h := setSlot g p.slot { getSlot g p.slot with lent := p.homes }
        let r := match p.dst with | .vec r _ => r | _ => 0
        let old (i : Nat) : List W32 := (List.range (256 / g.width)).map (fun j => vRead s loc h p.slot (r + BitVec.ofNat 8 j) i)
        land s ag p 0 ((lanesOf p.lanes g.width).map (fun i => (i, fragLane tr g.width sec m i (old i)))) p.flags
      | none => s
    | _ => s
  | .atomic _ w64_ _ ((a, _, _) :: _) =>
    let r := performAll ag (combined (pendAt s ag) p) s []
    let old (id : Nat) : Nat := ((r.1.find? (fun x => x.1 == id)).map (·.2)).getD 0
    let s := setPendAt r.2 ag ((pendAt r.2 ag).map (fun x =>
      if x.id != p.id && r.1.any (fun y => y.1 == x.id) then { x with act := oldValue x (old x.id) } else x))
    land s ag p (w64 (old p.id)) [(a.lane, splitVal w64_ (old p.id))] p.flags
  | .value l v => land s ag p v l p.flags
  | _ => s

/-- R76 DEFERRED_RESULT_RETURN of entry id of a unit. -/
def execDeferredResultReturn (ag : Agent) (id : Nat) (s : State) : Out :=
  .next (match (pendAt s ag).find? (fun p => p.id == id) with
    | none => s
    | some p => if canReturn s ag p then returnResult s ag p else s)

/-- R134 ACCESS_RETURN: a store or a staging is performed and its counters fall. -/
def execAccessReturn (ag : Agent) (id : Nat) (s : State) : Out :=
  .next (match (pendAt s ag).find? (fun p => p.id == id) with
    | none => s
    | some p =>
      if canReturn s ag p then
        match p.act with
        | .store l => let s := performWrites s (writerOf ag) l; setPendAt s ag (markReturned (pendAt s ag) id)
        | .nothing => setPendAt s ag (markReturned (pendAt s ag) id)
        | _ => s
      else s)

/-! ### The end of a change of W (R119, R275) -/

/-- The way of a byte of the on-chip array (R116). -/
def arrayWay (a : Nat) : Nat := a / 98304 % 16

/-- Whether a byte lies on a die in a way at or above n of a colour set. -/
def inWaysFrom (die first b n : Nat) : MLoc → Bool
  | .array d a => d == die && decide (first ≤ a / 1572864) && decide (a / 1572864 < first + 2 ^ b) && decide (n ≤ arrayWay a)
  | _ => false

/-- The scratch ranges of a copy's scales under conversion 13: source block scales and destination row scales (R288). -/
def scaleRanges (c : Copy) : List (Nat × Nat) :=
  if tConv c.tmpl != 13 then []
  else
    let rows := tTotal c.tmpl / tCount c.tmpl 0
    [((c.arg.getD 2 0).toNat, rows * (tCount c.tmpl 0 / 32)), ((c.arg.getD 3 0).toNat, rows)]

/-- The ranges of the scales that a drain has still to read (R302). -/
def drainRanges (w : MatWork) : List (Nat × Nat × Nat) :=
  match w.op with
  | .drain _ row col none _ _ _ =>
    (row.toList.map (fun r => (r.1, r.2, w.region.1))) ++ (col.toList.map (fun c => (c.1, c.2, w.region.2.1)))
  | _ => []

/-- Whether scratch accesses of a partition on a die, at or above a capacity, are outstanding: of groups, copies, tile
words and near-memory products. -/
def scratchBusy (s : State) (die part n : Nat) : Bool :=
  match colours s die part with
  | none => false
  | some (first, b) =>
    let cap := capacityFor s die part n
    let high (l : List MLoc) : Bool := l.any (inWaysFrom die first b n)
    s.groups.any (fun e => e.2.pend.any (fun p => !p.returned && high (pendLocs p)))
    || s.work.any (fun w =>
      match w.2 with
      | .copy c => c.part == part && coreDie c.core == die && c.err == 0 && (copySrc c ++ copyDstRanges c).any (fun r =>
          r.1 == 3 && decide ((cap : Int) < r.2.2) || (scaleRanges c).any (fun r => decide (cap < r.1 + r.2)))
      | .mvn m => m.part == part && coreDie m.core == die && (decide (cap < m.y + 4 * m.rows)
          || (m.xs == 3 && decide (cap < m.x + m.cols * (if m.x8 then 1 else 2))))
      | _ => false)
    || s.groups.any (fun e => locDie e.1 == die && groupPart s e.2 == part &&
        (coreOf s (locCore e.1)).mat.any (fun w => w.loc == e.1 && (loopRanges w ++ drainRanges w).any (fun r =>
          r.1 == 3 && decide (cap < r.2.1 + r.2.2))))

/-- Bytes of the on-chip array of a die zeroed; what is kept of quantum applications to them ends (R152). -/
def zeroArray (s : State) (die : Nat) (p : Nat → Bool) : State :=
  let s := updDie s die (fun d => { d with array := d.array.filter (fun e => !p e.1) })
  { s with quanta := s.quanta.filter (fun q => !q.locs.any (fun l => match l with | .array d a => d == die && p a | _ => false)) }

/-- The on-chip array with ways lo to hi - 1 of a colour set zeroed. -/
def zeroWays (s : State) (die part lo hi : Nat) : State :=
  match colours s die part with
  | none => s
  | some (first, b) => zeroArray s die (fun a => decide (first ≤ a / 1572864) && decide (a / 1572864 < first + 2 ^ b)
        && decide (lo ≤ arrayWay a) && decide (arrayWay a < hi))

/-- Whether a counted line of a partition that is Filling or above zero lies in ways lo to hi - 1 (R119). -/
def pinned (s : State) (die part lo hi : Nat) : Bool :=
  (linesOf s die).any (fun l => l.part == part && l.st != .poisoned && decide (lo ≤ l.way) && decide (l.way < hi))

/-- A change of W of a partition in all its colours, on every die that it holds some of (R117, R119): the code and the state after it,
none while it must wait. -/
def changeWays (s : State) (part n : Nat) : Option (Nat × State) :=
  let old := waysOf s part
  let ds := partDies s part
  if n = old then some (0, s)
  else if old < n then
    if ds.any (fun d => pinned s d part old n) then some (1, s)
    else
      let s := ds.foldl (fun s d =>
        zeroWays (dropLines s d (fun l => l.part == part && decide (old ≤ l.way) && decide (l.way < n))).2 d part old n) s
      some (0, { s with ways := msetD s.ways part n 0 })
  else if ds.any (fun d => scratchBusy s d part n) then none
  else some (0, { (ds.foldl (fun s d => zeroWays s d part n old) s) with ways := msetD s.ways part n 0 })

/-- SCRSZ_COMPLETE for a partition: the change of W in progress completes or fails, and the word that asked for it can complete
(R119, R274, R275). -/
def execScrszComplete (part : Nat) (s : State) : Out :=
  let mine (x : Nat × Work) : Bool := match x.2 with
    | .scrsz _ p _ _ none _ => p == part
    | _ => false
  .next (match s.work.find? mine with
    | some (id, .scrsz loc p n sl _ d) =>
      let old := waysOf s p
      match changeWays s p n with
      | none => s
      | some (code, s) =>
        let v := scrszResult code old (if code = 0 then n else old)
        { s with work := mput s.work id (.scrsz loc p n sl (some v) d) }
    | _ => s)

/-! ### Counted fills (R130) -/

/-- COUNTED_FILL_COMPLETE: the next line of a counted copy on a die is filled, poisoned or given up. -/
def execCountedFillComplete (die id : Nat) (s : State) : Out :=
  .next (match mget s.work id with
    | some (.copy c) =>
      if coreDie c.core != die || tReaders c.tmpl == 0 || c.err != 0 || c.page.isSome then s
      else
        let held := match pendLoc s id with
          | some loc => (match mget s.groups loc with | some g => !sourceReady g id | none => false)
          | none => false
        if held || !mayBegin s id c then s
        else let r := fillLine s id c; { r.2 with work := mput r.2.work id (.copy r.1) }
    | _ => s)

end Sys2Proof.Machine
end

