-- ==== Sys2Proof/Machine/Sync.lean ====
section
/-! DEFINITION. Team barriers, mwait, yield, roles and the register pool, regroup (R307 to R319). -/

namespace Sys2Proof.Machine

/-! ### Team barriers (R308 to R311) -/

/-- Groups of a team. -/
def teamSize (s : State) (tid : Nat) : Nat := match mget s.teams tid with | some t => t.groups.length | none => 0

/-- The numbers of the groups of a team that have neither retired nor become a Husk (R308). -/
def awake (s : State) (tid : Nat) : W64 :=
  maskOf (((teamGroups s tid).filter (fun e => !isHusk e.2)).map (fun e => e.2.num))

/-- Completes the current phase of a barrier when its condition holds (R308). -/
def barTest (s : State) (tid b : Nat) : State :=
  let r := teamBar s tid b
  let all := awake s tid &&& ~~~r.arrived == 0
  if r.arrived != 0 && ((r.count != 0 && decide (r.count ≤ pop64 r.arrived)) || (r.count == 0 && all)) then
    let n : Bar := { phase := (r.phase + 1) % 2 ^ 32, count := 0, arrived := 0 }
    updTeam s tid (fun t => { t with bars := msetD t.bars b n noBar })
  else s

/-- arrive_group of R310: the token, and the state after the arrival; none is BARRIER_MISUSE. -/
def arriveGroup (s : State) (tid num b cnt : Nat) : Option (Nat × State) :=
  let r := teamBar s tid b
  if teamSize s tid < cnt || bit r.arrived num || (r.arrived != 0 && r.count != cnt) then none
  else
    let n : Bar := { r with count := if r.arrived == 0 then cnt else r.count, arrived := r.arrived ||| w64 (2 ^ num) }
    let s := updTeam s tid (fun t => { t with bars := msetD t.bars b n noBar })
    some (r.phase, barTest s tid b)

/-- The token of a barrier and a phase (R310). -/
def barToken (b phase : Nat) : W64 := w64 (b * 2 ^ 32 + phase)

/-- Whether an earlier S or R access of a group is still to be performed, which an arrival waits for (R154). -/
def accessesLeft (g : Group) : Bool := g.pend.any (fun p => !p.returned && ordered p)

/-- The other slot's word of an arrival made by both slots (R309): an arrive completes with its token, a bar waits for
the phase. The arrival is a state change of that slot too (R46). -/
def otherArrives (s : State) (loc : Nat) (sl : Bool) (b cnt phase : Nat) (d : Option Sel) : State :=
  match d with
  | none => updGroup s loc (fun g =>
      let g := noteChange g sl
      setSlot g sl { getSlot g sl with wait := .barrier b phase (some cnt) })
  | some r =>
    let s' := updGroup s loc (fun g =>
      let g := setSlot g sl { getSlot g sl with pc := (getSlot g sl).pc + 8 }
      gWrite g r (barToken b phase))
    complete (.arrive r (BitVec.ofNat 4 b) 0) s loc sl false s'

/-- Whether a register that a word of the other slot writes now still has a pending mark (R76). -/
def tokenPending (s : State) : Option (Option Sel) → Bool
  | some (some r) => (dstKeys (.scalar r)).any (fun k => (markedKeys s).contains k)
  | _ => false

/-- The arrival of a group by the issuing slot, with the other slot's word when it waits for this one. -/
def arrival (s : State) (loc : Nat) (g : Group) (sl : Bool) (b cnt : Nat) (d : Option Sel) (other : Option (Option Sel)) :
    Res :=
  if accessesLeft g || tokenPending s other then .stall s
  else
    match arriveGroup s g.team g.num b cnt with
    | none => raise s cBarrierMisuse
    | some (ph, s) =>
      let s := match other with | some d' => otherArrives s loc (!sl) b cnt ph d' | none => s
      match d with
      | some r => .done (writeReg s r (barToken b ph))
      | none =>
        if (teamBar s g.team b).phase != ph then .done s
        else .park (updGroup s loc (fun g => noteChange g sl)) (.barrier b ph (some cnt))

/-- bar (d none) and arrive (d its token register) (R309, R310). A word of this slot that finds the other slot waiting in a bar whose arrival
the group has made already differs from it or arrives a second time: BARRIER_MISUSE either way. -/
def barrierWord (s : State) (loc : Nat) (g : Group) (sl : Bool) (b cnt : Nat) (d : Option Sel) : Res :=
  match (getSlot g sl).wait with
  | .barrier b' ph c => if (teamBar s g.team b').phase != ph then .done s else .park s (.barrier b' ph c)
  | _ =>
    let o := getSlot g (!sl)
    if o.st == .free || o.st == .joined || o.st == .lent then arrival s loc g sl b cnt d none
    else
      match o.wait with
      | .pair b' cnt' d' =>
        if b' != b || cnt' != cnt || d'.isSome != d.isSome then raise s cBarrierMisuse
        else arrival s loc g sl b cnt d (some d')
      | .barrier b' ph (some _) =>
        if (teamBar s g.team b').phase == ph then raise s cBarrierMisuse else .park s (.pair b cnt d)
      | _ => .park s (.pair b cnt d)

/-- R310 bar. -/
def execBar (b : BitVec 4) (cnt : BitVec 6) (s : State) : Out :=
  groupWord (.bar b cnt) s (fun s loc g sl => barrierWord s loc g sl b.toNat cnt.toNat none)

/-- R310 arrive. -/
def execArrive (d : Sel) (b : BitVec 4) (cnt : BitVec 6) (s : State) : Out :=
  groupWord (.arrive d b cnt) s (fun s loc g sl => barrierWord s loc g sl b.toNat cnt.toNat (some d))

/-- R310 await: the token is read once, at the issue. -/
def execAwait (a : Sel) (b : BitVec 4) (s : State) : Out :=
  groupWord (.await a b) s (fun s _ g sl =>
    match (getSlot g sl).wait with
    | .barrier b' ph c => if (teamBar s g.team b').phase != ph then .done s else .park s (.barrier b' ph c)
    | _ =>
    let t := (gRead g a).toNat
    let p := (teamBar s g.team b.toNat).phase
    if fldN t 36 28 != 0 || fldN t 32 4 != b.toNat || 2 ^ 31 ≤ (p + 2 ^ 32 - t % 2 ^ 32) % 2 ^ 32 then raise s cBarrierMisuse
    else if p != t % 2 ^ 32 then .done s
    else .park s (.barrier b.toNat p none))

/-- Whether the current phase of a barrier can no longer be reached (R311); the count that its first arrival named stands for the phase,
also when that group has left the arrival set. -/
def barDoomed (s : State) (tid b : Nat) : Bool :=
  let r := teamBar s tid b
  r.count != 0 && decide (pop64 r.arrived + pop64 (awake s tid &&& ~~~r.arrived) < r.count)

/-- R311: every slot that waits on an unreachable phase faults, and its group's arrival is withdrawn. A group whose two
slots wait faults from its slot 0; its slot 1 issues its word again. A group that is stopped or in handler mode keeps its wait until it
runs again (R325, R395, R396). -/
def barFail (s : State) (tid b : Nat) : State :=
  if !barDoomed s tid b then s
  else
    let ph := (teamBar s tid b).phase
    let waits (p : Slot) : Bool := match p.wait with | .barrier b' ph' _ => b' == b && ph' == ph | _ => false
    ((teamGroups s tid).filter (fun e => e.2.stop == .none && !e.2.handler && (waits e.2.slot0 || waits e.2.slot1))).foldl (fun s (e : Nat × Group) =>
      let sl := !waits e.2.slot0
      let s := updGroup s e.1 (fun g =>
        { g with slot0 := if waits g.slot0 then { g.slot0 with wait := .none } else g.slot0,
                 slot1 := if waits g.slot1 then { g.slot1 with wait := .none } else g.slot1 })
      let s := updTeam s tid (fun t =>
        let r := mgetD t.bars b noBar
        { t with bars := msetD t.bars b { r with arrived := r.arrived &&& ~~~(w64 (2 ^ e.2.num)) } noBar })
      takeCause s e.1 sl (trapAt cBarrierMisuse (getSlot e.2 sl).pc) none) s

/-- The barriers of a team looked at again after a retirement or a change of its Husks (R308, R311). -/
def barsAgain (s : State) (tid : Nat) : State :=
  (List.range 16).foldl (fun s b => barFail (barTest s tid b) tid b) s

/-! ### mwait (R313) -/

/-- R313 mwait: held by a shrinking scratch before its checks (R275), it goes on when the location differs, else waits; a wait that has
ended reads the location again, without the checks. -/
def execMwait (d base c : Sel) (w64_ scr : Bool) (off : BitVec 10) (timeout : BitVec 12) (s : State) : Out :=
  groupWord (.mwait d base c w64_ scr off timeout) s (fun s loc g sl =>
    let size := if w64_ then 8 else 4
    match (getSlot g sl).wait with
    | .mwait l x dl k => if waitCleared s g sl then .done (writeReg s d (w64 (readLocs s l))) else .park s (.mwait l x dl k)
    | _ =>
    match target_ s g base [if scr then 3 else 2] with
    | none => raise s cBadHandle
    | some (t, b) =>
      let at_ : Int := ((b + off.toNat : Nat) : Int)
      if shrinkHolds s loc g t.space (at_ + t.shift) size then .stall s
      else
      let (cs, s) := checkLanes s loc g sl t true false size [(0, at_)]
      match worstLane cs with
      | some (_, k) => raiseMem s loc g none false k
      | none =>
        match cs with
        | (_, .ok locs _ _) :: _ =>
            match watchHit s g t true false size cs with
            | some (_, a) => raiseAt s cWatch none 3 a
            | none =>
              if g.pend.any (fun p => !p.returned && (pendLocs p).any (fun l => locs.contains l)) then .stall s
              else
                let s := noteLoaded s loc sl locs
                let v := readLocs s locs
                let want := zextN (8 * size) (gRead g c).toNat
                if v != want then .done (writeReg s d (w64 v))
                else .park s (.mwait locs want (if timeout == 0 then none else some (s.time + timeout.toNat * 1024)) false)
        | _ => .stall s)

/-- R313 MWAIT_TIMEOUT: the timeout of a waiting slot expires. -/
def execMwaitTimeout (loc : Nat) (slot : Bool) (s : State) : Out :=
  .next (updGroup s loc (fun g =>
    let p := getSlot g slot
    match p.wait with
    | .mwait l v (some d) _ => if d ≤ s.time then setSlot g slot { p with wait := .mwait l v (some d) true } else g
    | _ => g))

/-! ### The register pool (R314 to R317) -/

/-- Whether a group holds regroup records or has a slot Lent (R315, R316). -/
def lendsOrHolds (g : Group) : Bool := !g.donors.isEmpty || g.slot0.st == .lent || g.slot1.st == .lent

/-- Blocks of n units for a width (R72, R314). -/
def poolBlocks (units width : Nat) : Nat := units * width / 16

/-- A group with a new allotment: registers from it upwards are discarded (R57). -/
def setAllot (g : Group) (a : Nat) : Group :=
  { g with allot := a, v := g.v.filter (fun e => decide (e.1 < 64 * a)) }

/-- Whether a deferred write to a register at or above a new allotment is outstanding, issued by the group or by one that has its lanes
(R57, R78). -/
def dstAbove (s : State) (g : Group) (a : Nat) : Bool :=
  (vecMarks s g.team g.num).any (fun k => decide (256 + a ≤ k))

/-- The entries of the kernel's role table. -/
def rolesOf (s : State) (g : Group) : List (W64 × Nat × Nat) := match launchOf s g with | some l => l.roles | none => []

/-- The jump of role to its entry (R316). -/
def roleJump (s : State) (loc : Nat) (sl : Bool) (e : W64 × Nat × Nat) : State :=
  updGroup s loc (fun g =>
    let p := getSlot g sl
    setSlot { g with base := e.2.2, eff := e.2.2 } sl { p with pc := e.1, exec := p.pm })

/-- The grant of a claim (R57, R314): its word completes. -/
def grant (s : State) (c : Claim) : State :=
  match mget s.groups c.loc with
  | none => s
  | some g =>
    let n := poolBlocks ((c.dest - g.allot) / 8) g.width
    let s' := updCore s (locCore c.loc) (fun k => { k with free := k.free - n })
    let s' := updGroup s' c.loc (fun g => { g with allot := c.dest })
    let s' :=
      match c.role.bind (fun n => (rolesOf s g)[n]?) with
      | some e => roleJump s' c.loc c.slot e
      | none => updGroup s' c.loc (fun g => setSlot g c.slot { getSlot g c.slot with pc := (getSlot g c.slot).pc + 8 })
    complete .nop s c.loc c.slot false s'

/-- Grants the oldest claims that fit, in order (R314); the fuel bounds their number. -/
def grantClaims : Nat → State → Nat → State
  | 0, s, _ => s
  | n + 1, s, core =>
    match (coreOf s core).claims with
    | [] => s
    | c :: t =>
      match mget s.groups c.loc with
      | none => grantClaims n (updCore s core (fun k => { k with claims := t })) core
      | some g =>
        if poolBlocks ((c.dest - g.allot) / 8) g.width ≤ (coreOf s core).free then
          grantClaims n (grant (updCore s core (fun k => { k with claims := t })) c) core
        else s

/-- Returns blocks to a core's pool; the oldest claims are granted (R314, R315). -/
def freeBlocks (s : State) (core n : Nat) : State :=
  grantClaims 128 (updCore s core (fun c => { c with free := c.free + n })) core

/-- R315 regclm. -/
def execRegclm (n : BitVec 6) (s : State) : Out :=
  groupWord (.regclm n) s (fun s loc g sl =>
    if (getSlot g sl).wait == .claim then .park s .claim
    else if 256 < g.allot + 8 * n.toNat then raise s cIllegalReg
    else if lendsOrHolds g then raise s cBarrierMisuse
    else
      let need := poolBlocks n.toNat g.width
      let c := coreOf s (locCore loc)
      if c.claims.isEmpty && need ≤ c.free then
        let s := updCore s (locCore loc) (fun c => { c with free := c.free - need })
        .done (updGroup s loc (fun g => { g with allot := g.allot + 8 * n.toNat }))
      else
        let k : Claim := { loc := loc, slot := sl, role := none, dest := g.allot + 8 * n.toNat }
        .park (updCore s (locCore loc) (fun c => { c with claims := c.claims ++ [k] })) .claim)

/-- R315 regrel. -/
def execRegrel (n : BitVec 6) (s : State) : Out :=
  groupWord (.regrel n) s (fun s loc g _ =>
    if g.allot < 8 * n.toNat then raise s cIllegalReg
    else if lendsOrHolds g then raise s cBarrierMisuse
    else if dstAbove s g (g.allot - 8 * n.toNat) then .stall s
    else
      let s := updGroup s loc (fun g => setAllot g (g.allot - 8 * n.toNat))
      .done (freeBlocks s (locCore loc) (poolBlocks n.toNat g.width)))

/-- R316 role. -/
def execRole (a : Sel) (n : BitVec 4) (s : State) : Out :=
  groupWord (.role a n) s (fun s loc g sl =>
    if (getSlot g sl).wait == .claim then .park s .claim
    else
      let i := if a == 0 then n.toNat else (gRead g a).toNat
      match (rolesOf s g)[i]? with
      | none => raise s cBarrierMisuse
      | some e =>
        if (getSlot g (!sl)).st != .free || !g.stack.isEmpty || lendsOrHolds g then raise s cBarrierMisuse
        else
          let new := e.2.1
          let c := coreOf s (locCore loc)
          if new < g.allot then
            if dstAbove s g new then .stall s
            else
              let s := roleJump (updGroup s loc (fun g => setAllot g new)) loc sl e
              .keep (freeBlocks s (locCore loc) (poolBlocks ((g.allot - new) / 8) g.width))
          else if new = g.allot then .keep (roleJump s loc sl e)
          else
            let need := poolBlocks ((new - g.allot) / 8) g.width
            if c.claims.isEmpty && need ≤ c.free then
              let s := updCore s (locCore loc) (fun c => { c with free := c.free - need })
              .keep (roleJump (updGroup s loc (fun g => { g with allot := new })) loc sl e)
            else
              let k : Claim := { loc := loc, slot := sl, role := some i, dest := new }
              .park (updCore s (locCore loc) (fun c => { c with claims := c.claims ++ [k] })) .claim)

/-- R314 CLAIM_GRANT of a core: the oldest listed claims that fit are granted. -/
def execClaimGrant (core : Nat) (s : State) : Out := .next (grantClaims 128 s core)

/-- Whether a group is blocked in a claim (R317). -/
def claimBlocked (g : Group) : Bool :=
  g.stop == .none && [false, true].any (fun sl => (!g.handler || sl == g.stopSlot) && (getSlot g sl).wait == .claim)

/-- R317: when every group of a core is blocked in a claim or is a Husk, and none waits to retire, the oldest claimant's
word faults and its claim leaves the list. -/
def claimDeadlock (s : State) (core : Nat) : State :=
  let l := s.groups.filter (fun e => locCore e.1 == core)
  match (coreOf s core).claims with
  | c :: t =>
    if l.all (fun e => !allExited e.2 && (claimBlocked e.2 || isHusk e.2)) then
      match mget s.groups c.loc with
      | some g =>
        let s := updCore s core (fun k => { k with claims := t })
        let s := updGroup s c.loc (fun g => setSlot g c.slot { getSlot g c.slot with wait := .none })
        takeCause s c.loc c.slot (trapAt cClaimDeadlock (getSlot g c.slot).pc) none
      | none => s
    else s
  | [] => s

/-! ### regroup and yield (R318, R319) -/

/-- R318 regroup; a slot whose group holds 31 records goes on at its target unmerged, and its EXEC stays as it stands (DESIGN CHOICE,
log 85). -/
def execRegroup (off : W32) (s : State) : Out :=
  groupWord (.regroup off) s (fun s loc g sl =>
    let p := getSlot g sl
    let t := target p.pc off
    if 31 ≤ g.donors.length then .jump s t false
    else .keep (teamCheck (setGroup s loc (setSlot g sl { p with st := .regrouping, target := t })) g.team))

/-- R319 yield: with PREQ 1 the group settles and goes to its save with the registers it keeps, to go on at PC + 8; PREQ is cleared
(R71). -/
def execYield (a : Sel) (n : BitVec 9) (s : State) : Out :=
  groupWord (.yield a n) s (fun s loc g _ =>
    if !g.preq then .done s
    else
      let k := min 256 (if a == 0 then n.toNat else (gRead g a).toNat)
      .done (updGroup s loc (fun g =>
        { g with yielding := true, preq := false, settle := true, keep := min (roundUp k 8) g.allot, stop := .saving })))

end Sys2Proof.Machine
end

