-- ==== Sys2Proof/Machine/Traps.lean ====
section
/-! DEFINITION. The trap words, the in-enclave handler and its return (R322 to R327), and the machine's own steps of a
sequencer (R27, R28, R30). -/

namespace Sys2Proof.Machine

/-! ### Trap words (R322, R323) -/

/-- R322 tfence. -/
def execTfence (s : State) : Out :=
  groupWord .tfence s (fun s _ g _ =>
    let e := (g.flags &&& g.flagsen).toNat % 64
    if e = 0 then .done s else raise s (0x60 + ctzN 6 e))

/-- A software cause with its n (R323). -/
def softCause (s : State) (code n : Nat) : Res := .trap s { trapAt code (readPc s) with n := n } 0 none false

/-- R323 trap n; R357 on Quartz cores. -/
def execTrap (n : BitVec 16) (s : State) : Out := word (.trap n) s (fun s => softCause s cSofttrap n.toNat)

/-- R323 brk n; R357 on Quartz cores. -/
def execBrk (n : BitVec 16) (s : State) : Out := word (.brk n) s (fun s => softCause s cBreak n.toNat)

/-- R179: a word with an illegal opcode. -/
def execIllegalOpcode (w : W64) (s : State) : Out := word (.illegalOpcode w) s (fun s => raise s cIllegalOpcode)

/-! ### The in-enclave handler (R325 to R327) -/

/-- Offset of the trap area in a lane's spill area (R325). -/
def trapOff (s : State) (g : Group) : Nat := spillOf s g + 0x800

/-- The virtual address of a lane's trap area (R110). -/
def trapVa (s : State) (g : Group) (lane : Nat) : Nat :=
  g.spill.toNat + lane * (spillOf s g + 0xC00) + trapOff s g

/-- The trap frame of a group (R325). -/
def trapFrame (g : Group) : List Byte :=
  let p := getSlot g g.stopSlot
  leBytes 8 g.cause.toNat ++ leBytes 8 g.caddr.toNat ++ leBytes 8 (causePc g).toNat ++ leBytes 8 p.pc.toNat
  ++ leBytes 8 p.exec.toNat ++ leBytes 8 ((if g.stopSlot then 1 else 0) + 2 ^ 32 * p.fmt.toNat)
  ++ leBytes 8 g.flags.toNat ++ leBytes 8 g.causeN ++ regImage g.s g.k ++ List.replicate 336 0#8

/-- The registers of a group at its handler's entry (R325, step 4). -/
def enterHandler (s : State) (loc : Nat) : State :=
  updGroup s loc (fun g =>
    let pc := causePc g
    let g := gWrite (gWrite (gWrite (gWrite g 1 g.cause) 2 g.caddr) 3 (w64 (trapOff s g))) 4 pc
    let p := getSlot g g.stopSlot
    setSlot { g with handler := true, stop := if g.preq then .saving else .none } g.stopSlot { p with pc := groupHandler s g })

/-- R325 HANDLER_ENTRY of a group whose cause waits for it: the frame goes to every lane's trap area, then the slot runs
at the handler. A page fault there makes the group wait, a failed line stops it with INTEGRITY, whose lane and CADDR are those of the
cause that it replaces (DESIGN CHOICE, log 85). -/
def execHandlerEntry (loc : Nat) (s : State) : Out :=
  .next (match mget s.groups loc with
    | none => s
    | some g =>
      if g.stop != .handler then s
      else
        let c := groupCtx s loc g
        let pc := causePc g
        match translateRuns c .write true ((List.range g.width).flatMap (fun i => runsOf (trapVa s g i) 1024)) s [] with
        | (.wait, s) => s
        | (.fault k st pg, s) =>
          if k = cIntegrity then
            stopForSystem (updGroup s loc (fun g => { g with
              cause := (g.cause &&& 0xFFFFFFFFFFFFFF00#64) ||| w64 cIntegrity })) loc pc
          else if !pageCause k then stopForSystem s loc pc
          else
            match pageRequest s c k st pg .write with
            | (some id, s) => updGroup s loc (fun g => { g with stop := .frame id })
            | (none, s) => s
        | (.ok l, s) =>
          if !runsOk s l then
            stopForSystem (updGroup s loc (fun g => { g with
              cause := (g.cause &&& 0xFFFFFFFFFFFFFF00#64) ||| w64 cIntegrity })) loc pc
          else enterHandler (writeRuns s l ((List.range g.width).flatMap (fun _ => trapFrame g))) loc)

/-- Register values read from a run of a frame. -/
def frameRegs (f : List Byte) (off n : Nat) : KMap W64 :=
  (List.range n).foldl (fun m j => msetD m (j + 1) (le64 f (off + 8 * j)) 0) []

/-- Lane masks read from a run of a frame: k1 to k15 (R325). -/
def frameMasks (f : List Byte) (off : Nat) : KMap W64 := frameRegs f off 15

/-- What trap.ret restores from a frame (R327). Replay records are dropped when the group goes on elsewhere (R153). -/
def restoreFrame (s : State) (loc : Nat) (sl : Bool) (f : List Byte) : State :=
  updGroup s loc (fun g =>
    let p := getSlot g sl
    let g := { g with s := frameRegs f 0x40 63, k := frameMasks f 0x238, handler := false,
                      replay := if le64 f 0x18 == le64 f 0x10 then g.replay else [] }
    setSlot g sl { p with exec := le64 f 0x20 &&& p.pm, fmt := (le64 f 0x28).extractLsb' 32 32 &&& fmtMask, pc := le64 f 0x18 })

/-- R327 trap.ret in handler mode; elsewhere the opcode is illegal, which the checks before it say. It writes s1 to s63 and k1 to k15,
so it stalls while one of them has a pending mark (R76). -/
def execTrapRet (s : State) : Out :=
  word .trapRet s (fun s =>
    match s.agent with
    | .group loc sl =>
      match mget s.groups loc with
      | none => raise s cIllegalOpcode
      | some g =>
        if (markedKeys s).any (fun k => decide (k < 0x50)) then .stall s else
        match placeRun s (groupCtx s loc g) (trapVa s g 0) 1024 .read true with
        | (.wait, s) => .stall s
        | (.fault k st pg, s) => raiseMem s loc g none false (.bad k 1 (trapOff s g) st pg)
        | (.ok l, s) =>
          if !runsOk s l then raiseAt s cIntegrity none 1 (trapOff s g)
          else
            let f := readRuns s l
            let pc := le64 f 0x18
            if pc &&& 7 != 0 then raiseAt s cAlign none 5 pc.toNat
            else .keep (restoreFrame s loc sl f)
    | _ => raise s cIllegalOpcode)

/-! ### Steps of a sequencer -/

/-- R27 PENDING_PROMOTION, which a sequencer makes in the cycle in which it falls due (R49). -/
def execPendingPromotion (core sq : Nat) (s : State) : Out := .next (promote s core sq)

/-- R28 PRIORITY_AGING, which a sequencer makes in the cycle in which it falls due (R48). -/
def execPriorityAging (core sq : Nat) (s : State) : Out := .next (ageGroups s core sq)

/-- R30 ICACHE_LINE_ARRIVAL: the sequencer issues again. -/
def execIcacheLineArrival (core sq : Nat) (s : State) : Out :=
  .next (updSeq s core sq (fun x => { x with frozen := none }))

end Sys2Proof.Machine
end

