-- ==== Sys2Proof/Machine/Fe.lean ====
section
/-! DEFINITION. The command front ends (R411 to R416, R422 to R424, R507, R508): a queue's accesses through its enclave's
translation, the order of its packets, signals, errors and aborts, and its control. -/

namespace Sys2Proof.Machine

/-! ### Queues -/

def feOf (s : State) (fe : Nat) : FrontEnd := match mget s.fes fe with | some f => f | none => resetFrontEnd
def queueOf (s : State) (fe q : Nat) : Queue := mgetD (feOf s fe).queues q resetQueue
def updQueue (s : State) (fe q : Nat) (f : Queue → Queue) : State :=
  updFe s fe (fun e => { e with queues := mupd e.queues q f })

/-- Codes of QSTAT.error (R435). -/
def eMalformed : Nat := 1
def eAborted : Nat := 2
def eFault : Nat := 3
def eNoreside : Nat := 4
def ePinned : Nat := 5
def eGraph : Nat := 7
def eCalldepth : Nat := 8
def eKilled : Nat := 9

/-- Fields of FEPART (R412). -/
def feBase (f : FrontEnd) : Nat := fldN f.fepart.toNat 0 6
def feLimit (f : FrontEnd) : Nat := fldN f.fepart.toNat 8 6
def feValid (f : FrontEnd) : Bool := decide (feBase f ≤ feLimit f) && decide (feLimit f ≤ 47)

/-- The outcome of a front end's own access or packet step: a value; a wait on a page request or a resource; an error of
R435. -/
inductive FRes (α : Type)
  | ok (a : α)
  | wait
  | err (code : Nat)

/-- Settles a queue in Running or Waiting (R414). -/
def setRun (u : Queue) (w : QWait) : Queue :=
  if u.state == .running || u.state == .waiting then
    { u with state := if u.freeze && u.pair.isNone then .frozen
                      else if w == .none && u.waits.isEmpty && u.placing.isNone && u.holds.isEmpty && u.pair.isNone then .running else .waiting,
             wait := w }
  else u

/-- Drops the waiting accesses of a queue that a test holds for. -/
def dropWaits (u : Queue) (p : QAccess → Bool) : Queue :=
  let v := { u with waits := u.waits.filter (fun a => !p a) }
  setRun v v.wait

/-- Whether an access of a queue waits for the resolution of its page request (R507). -/
def accessWaits (u : Queue) (who : QWho) : Bool := u.waits.any (fun a => a.who == who && a.page.isSome)

/-- An access that has been placed waits no more for a position of the page-request queue (R392). -/
def accessPlaced (s : State) (fe q : Nat) (who : QWho) : State :=
  if (queueOf s fe q).waits.any (fun a => a.who == who) then updQueue s fe q (fun u => dropWaits u (fun a => a.who == who)) else s

/-- R507: a fault of a front end's access: reported and waited on, which holds the queue in Waiting, or FAULT when it cannot be
resolved. -/
def feFault (s : State) (fe q : Nat) (c : Ctx) (k st pg : Nat) (acc : Acc) (who : QWho) : Option Nat × State :=
  if k = cNotmapped || k = cFartier || k = cOwnership then
    let (id, s) := pageRequest s c k st pg acc
    let a : QAccess := { who := who, page := id, torn := none }
    (none, updQueue s fe q (fun u =>
      let v := { u with waits := u.waits.filter (fun x => x.who != who) ++ [a] }
      setRun v v.wait))
  else (some eFault, s)

/-- The context in which a front end's fetcher translates for a queue (R372, R378). -/
def queueCtx (s : State) (fe q : Nat) : Ctx := { encCtx s (queueOf s fe q).eid with unit := .fetcher fe }

/-- The physical places of bytes that a front end reaches for a queue (R507); whole lines are verified unless they are written
over (R384). -/
def fePlaceFor (s : State) (fe q va n : Nat) (acc : Acc) (whole : Bool) (who : QWho) : FRes (List (Nat × Nat)) × State :=
  let c := queueCtx s fe q
  if accessWaits (queueOf s fe q) who then (.wait, s)
  else
    match placeRun s c va n acc whole with
    | (.ok l, s) => if whole || runsOk s l then (.ok l, accessPlaced s fe q who) else (.err eFault, s)
    | (.fault k st pg, s) =>
      match feFault s fe q c k st pg acc who with
      | (some e, s) => (.err e, s)
      | (none, s) => (.wait, s)
    | (.wait, s) => (.wait, s)

def fePlace (s : State) (fe q va n : Nat) (acc : Acc) (who : QWho) : FRes (List (Nat × Nat)) × State :=
  fePlaceFor s fe q va n acc false who

/-- Bytes read for a queue. -/
def feRead (s : State) (fe q va n : Nat) (who : QWho) : FRes (List Byte) × State :=
  match fePlace s fe q va n .read who with
  | (.ok l, s) => (.ok (readRuns s l), s)
  | (.wait, s) => (.wait, s)
  | (.err e, s) => (.err e, s)

/-- Changes to memory that a packet step makes at once when all of them can be made: a signal stored or added to, or
bytes written, at virtual addresses. -/
inductive Put
  | add (va : Nat) (v : Int)
  | store (va : Nat) (v : Nat)
  | bytes (va : Nat) (l : List Byte)
  | zero (va n : Nat)

def Put.va : Put → Nat
  | .add va _ => va
  | .store va _ => va
  | .bytes va _ => va
  | .zero va _ => va

def Put.len : Put → Nat
  | .bytes _ l => l.length
  | .zero _ n => n
  | _ => 8

/-- Zeroes translated runs; their lines verify again (R384). -/
def zeroRuns (s : State) (l : List (Nat × Nat)) : State :=
  l.foldl (fun s (r : Nat × Nat) => linesWritten { s with hbm := zeroBytes s.hbm r.1 r.2 } r.1 r.2) s

/-- The places of a list of changes, all of them or none. -/
def placePuts (fe q : Nat) (who : QWho) :
    List Put → State → List (Put × List (Nat × Nat)) → FRes (List (Put × List (Nat × Nat))) × State
  | [], s, out => (.ok out, s)
  | p :: t, s, out =>
    let r := match p with
      | .zero va n => fePlaceFor s fe q va n .write true who
      | .bytes va l => fePlace s fe q va l.length .write who
      | p => fePlace s fe q (Put.va p) 8 .atomic who
    match r with
    | (.ok l, s) => placePuts fe q who t s (out ++ [(p, l)])
    | (.wait, s) => (.wait, s)
    | (.err e, s) => (.err e, s)

/-- Makes a placed change (R422). -/
def doPut (s : State) (x : Put × List (Nat × Nat)) : State :=
  match x.1 with
  | .add _ v => writeRuns s x.2 (leBytes 8 (wrapI 64 ((leNat (readRuns s x.2) : Int) + v)))
  | .store _ v => writeRuns s x.2 (leBytes 8 v)
  | .bytes _ l => writeRuns s x.2 l
  | .zero _ _ => zeroRuns s x.2

/-- Makes a list of changes for a queue. -/
def puts (s : State) (fe q : Nat) (l : List Put) (who : QWho) : FRes Unit × State :=
  match placePuts fe q who l s [] with
  | (.ok ps, s) => (.ok (), ps.foldl doPut s)
  | (.wait, s) => (.wait, s)
  | (.err e, s) => (.err e, s)

/-- A signal decrement as a change; 0 names no signal (R421). -/
def sigDown (va : Nat) : List Put := if va = 0 then [] else [.add va (-1)]

/-! ### The next packet (R415, R416, R426, R427) -/

/-- Address of a packet of a queue's ring (R413). -/
def ringVa (u : Queue) (i : Nat) : Nat := u.base + 64 * (i % 2 ^ (u.n + 4))

/-- The next packet: source and address. -/
def nextPacket (u : Queue) : Option (Src × Nat) :=
  match u.kicks with
  | va :: _ => some (.kick, va)
  | [] =>
    match u.calls with
    | l :: _ => some (.call, l.next)
    | [] => if u.qrd < u.qwr then some (.ring, ringVa u u.qrd) else none

/-- Index that QSTAT gives for a packet of a source at issue: its ring index, or for one of a CALL buffer that of the CALL. -/
def srcIndex (u : Queue) : Src → Nat
  | .call => u.lastIdx
  | _ => u.qrd

/-- Index that QSTAT gives for the next packet. -/
def nextIndex (u : Queue) : Nat :=
  match u.kicks, u.calls with
  | [], _ :: _ => srcIndex u .call
  | _, _ => srcIndex u .ring

/-- The next packet as one that can be cancelled. -/
def nextRef (u : Queue) : PktRef :=
  match u.kicks, u.calls with
  | [], l :: _ => .call u.calls.length l.next
  | [], [] => .ring u.qrd
  | _ :: _, _ => .kick 0

/-- Packets of a level passed one at a time with the open true arms of its PREDs: what remains of the arms, and how many
packets of false arms are passed with them (R426). -/
def passArms (n : Nat) : List (Nat × Nat) → List (Nat × Nat) × Nat
  | [] => ([], n)
  | (left, skip) :: t =>
    if n < left then
      let r := passArms n t
      ((left - n, skip) :: r.1, r.2)
    else passArms (n + skip) t

/-- A packet after the head kick has gone. -/
def PktRef.kicked : PktRef → Option PktRef
  | .kick 0 => none
  | .kick (n + 1) => some (.kick n)
  | r => some r

/-- Whether a packet is still ahead of issue: the packets of the ring below an index, those of a depth of calls below a VA, and those of
deeper calls have been passed. -/
def PktRef.still (qrd : Nat) (calls : List Level) : PktRef → Bool
  | .kick _ => true
  | .ring i => decide (qrd ≤ i)
  | .call d va => decide (d < calls.length) || (d == calls.length && (match calls with | l :: _ => decide (l.next ≤ va) | [] => false))

/-- Forgets what was noted of packets that issue has passed: their cancellation (R480), and what was read ahead of them (R428). -/
def forgetPassed (u : Queue) : Queue :=
  { u with cancelled := u.cancelled.filter (PktRef.still u.qrd u.calls),
           ahead := u.ahead.filter (fun a => !u.calls.isEmpty || decide (u.qrd ≤ a.1.headD 0)) }

/-- Moves a queue past n packets of its current level; a level that has ended stays open while a CALL in it is nested
(R427). -/
def passN (u : Queue) (src : Src) (n : Nat) : Queue :=
  match src with
  | .kick => { u with kicks := u.kicks.drop 1, cancelled := u.cancelled.filterMap PktRef.kicked }
  | .ring =>
    let r := passArms n u.ringArms
    { u with qrd := u.qrd + r.2, ringArms := r.1 }
  | .call =>
    match u.calls with
    | l :: t =>
      let r := passArms n l.arms
      let l' : Level := { l with next := l.next + 64 * r.2, left := l.left - r.2, arms := r.1 }
      { u with calls := l' :: t }
    | [] => u

/-- Closes the levels that have ended (R427). -/
def closeLevels (u : Queue) : Queue := forgetPassed { u with calls := u.calls.dropWhile (fun l => l.left == 0) }

/-- Passes n packets, the next one and those skipped with it, noting the index of the first. -/
def passSome (u : Queue) (src : Src) (n : Nat) : Queue :=
  { closeLevels (passN u src n) with lastIdx := srcIndex u src }

/-- Passes the next packet, noting its index. -/
def passOne (u : Queue) (src : Src) : Queue := passSome u src 1

/-- Passes cancelled packets at the head (R424, R480); the fuel bounds them. -/
def passCancelled : Nat → Queue → Queue
  | 0, u => u
  | n + 1, u =>
    match nextPacket u with
    | some (src, _) => if u.cancelled.contains (nextRef u) then passCancelled n (passOne u src) else u
    | none => u

/-! ### Reading ahead (R428) -/

/-- The place of a packet in what its queue reads ahead; none under a kick. -/
def aheadKey (u : Queue) : PktRef → Option (List Nat)
  | .kick _ => none
  | .ring i => some [i]
  | .call d va => match u.calls[u.calls.length - d]? with | some l => l.path.map (· ++ [va]) | none => none

/-- A packet that has been read ahead of issue. -/
def aheadBytes (u : Queue) (r : PktRef) : Option (List Byte) :=
  (aheadKey u r).bind (fun k => (u.ahead.find? (fun a => a.1 == k)).map (·.2))

/-- The packet that the look-ahead reads next, with its place: from issue on, through the buffers of the CALLs it has read, up to 64
packets on; a JOIN stops it. A frame of the walk is a buffer: its CALL's place, next packet, packets left. The fuel bounds the packets. -/
def lookAhead (u : Queue) : Nat → List (List Nat × Nat × Nat) → Nat → Option (List Nat × Nat)
  | 0, _, _ => none
  | n + 1, frames, i =>
    let here : Option (List Nat × Nat × List (List Nat × Nat × Nat) × Nat) := match frames with
      | (p, va, left) :: t => some (p ++ [va], va, if left ≤ 1 then t else (p, va + 64, left - 1) :: t, i)
      | [] => if i < u.qwr then some ([i], ringVa u i, [], i + 1) else none
    match here with
    | none => none
    | some (k, va, rest, j) =>
      match u.ahead.find? (fun a => a.1 == k) with
      | none => some (k, va)
      | some (_, b) =>
        let h := fldN (dwAt b 0) 0 4
        if h = 8 then none
        else if h = 7 && fldN (dwAt b 2) 0 16 != 0 then lookAhead u n ((k, fldN (dwAt b 1) 0 55, fldN (dwAt b 2) 0 16) :: rest) j
        else lookAhead u n rest j

/-- The packet that a queue's fetcher may read ahead now: of the ring, at an index at most 63 packets from issue, in predication mode;
the next one of the look-ahead in the other. -/
def aheadNext (u : Queue) (n : Nat) : Option (List Nat × Nat) :=
  if u.mode then
    match u.calls.mapM (fun l => l.path.map (fun p => (p, l.next, l.left))) with
    | some frames => lookAhead u 64 (frames.filter (fun f => f.2.2 != 0)) u.qrd
    | none => none
  else if u.qrd ≤ n && n < u.qwr && n < u.qrd + 64 && !u.ahead.any (fun a => a.1 == [n]) then some ([n], ringVa u n)
  else none

/-- R428: the fetcher of a queue reads a packet ahead of issue. One that it cannot read is left for issue to read, which meets the fault
(DESIGN CHOICE, log 87). -/
def aheadStep (s : State) (fe q n : Nat) : State :=
  let u := queueOf s fe q
  if !(u.enc && (u.state == .running || u.state == .waiting)) then s
  else
    match aheadNext u n with
    | none => s
    | some (k, va) =>
      match placeRun s (queueCtx s fe q) va 64 .read false with
      | (.ok l, s) => if runsOk s l then updQueue s fe q (fun u => { u with ahead := u.ahead ++ [(k, readRuns s l)] }) else s
      | (_, s) => s

/-- A packet of queue t at an address: as it was read ahead, else read now on behalf of queue q (R428). -/
def packetRead (s : State) (fe q t : Nat) (r : PktRef) (va : Nat) (who : QWho) : FRes (List Byte) × State :=
  match aheadBytes (queueOf s fe t) r with
  | some b => (.ok b, s)
  | none => feRead s fe q va 64 who

/-- Whether an access is that of the packet at issue. -/
def isPacket : QWho → Bool
  | .packet _ => true
  | _ => false

/-- Whether a queue may issue a packet now: of an enclave (R411), Running or Waiting, no freeze at this boundary, no access waiting
on a page, but for the packet's own on a free position, no launch still being placed, of a node of its graph neither, no routine of it
running (R414, R415, R420, R429, R436, R507). -/
def canTake (u : Queue) : Bool :=
  u.enc && (u.state == .running || u.state == .waiting) && !u.freeze
  && u.waits.all (fun a => isPacket a.who && a.page.isNone) && u.placing.isNone && u.holds.isEmpty && u.pair.isNone

/-- Whether a queue has run out of valid packets and every issued one has completed (R415). -/
def ranDry (u : Queue) : Bool := (nextPacket u).isNone && u.out.isEmpty && u.placing.isNone && u.pair.isNone

/-- R415: the queue signal falls once when the queue has run out of valid packets and all have completed, whatever its state. -/
def queueDrained (s : State) (fe q : Nat) : State :=
  let u := queueOf s fe q
  if u.sigDue && ranDry u && u.sig != 0 then
    match puts s fe q (sigDown u.sig) .drain with
    | (.ok _, s) => updQueue s fe q (fun u => { u with sigDue := false })
    | (.wait, s) => s
    | (.err e, s) => queueError (updQueue s fe q (fun u => { u with sigDue := false })) fe q e u.lastIdx
  else s

/-- A packet that completes at its issue, or has issued with work outstanding. -/
def issued (s : State) (fe q : Nat) (src : Src) : State :=
  queueDrained (updQueue s fe q (fun u => setRun { passOne u src with sigDue := true } .none)) fe q

/-- The next packet gives an error: it counts as issued and has no effect (R414, R435). -/
def packetError (s : State) (fe q : Nat) (src : Src) (code : Nat) : State :=
  let i := srcIndex (queueOf s fe q) src
  queueDrained (updQueue (queueError (updQueue s fe q (fun u => passOne u src)) fe q code i) fe q
    (fun u => { u with sigDue := true })) fe q

/-- The next packet waits. -/
def packetWaits (s : State) (fe q : Nat) (w : QWait) : State :=
  updQueue s fe q (fun u => { u with state := if u.state == .running || u.state == .waiting then .waiting else u.state, wait := w })

/-- The step of the next packet of a queue when its kind is k: reads it (R415) and hands its bytes to f; a hold bit waits
for earlier packets, unless the kind looks first (R423). -/
def packetStep (s : State) (fe q k : Nat) (f : State → Src → Nat → List Byte → State) : State :=
  let s := updQueue s fe q (fun u => if canTake u then passCancelled (u.cancelled.length + 1) u else u)
  let u := queueOf s fe q
  if !canTake u then s
  else
    match nextPacket u with
    | none => queueDrained s fe q
    | some (src, va) =>
      match packetRead s fe q q (nextRef u) va (.packet src) with
      | (.wait, s) => packetWaits s fe q .none
      | (.err e, s) => packetError s fe q src e
      | (.ok l, s) =>
        let h := dwAt l 0
        if fldN h 0 4 != k then
          if fldN h 0 4 = 0 || 11 ≤ fldN h 0 4 then packetError s fe q src eMalformed else s
        else if bitN h 4 && !u.out.isEmpty && k != 3 then packetWaits s fe q .hold
        else f s src va l

/-! ### Aborts (R424, R434) -/

/-- Every valid packet of a queue that has not issued, with its address: kicks, CALL buffers, the ring. -/
def validPackets (u : Queue) : List (PktRef × Nat) :=
  ((List.range u.kicks.length).zip u.kicks).map (fun x => (.kick x.1, x.2))
  ++ ((List.range u.calls.length).zip u.calls).flatMap (fun x => (List.range x.2.left).map (fun j =>
      (.call (u.calls.length - x.1) (x.2.next + 64 * j), x.2.next + 64 * j)))
  ++ (List.range (u.qwr - u.qrd)).map (fun j => (.ring (u.qrd + j), ringVa u (u.qrd + j)))

/-- The valid packets after the next one. -/
def laterPackets (u : Queue) : List (PktRef × Nat) := (validPackets u).filter (fun x => x.1 != nextRef u)

/-- Reads packets of queue t, on behalf of queue q: those to cancel, and the stores of −1 to their signals. -/
def abortScan (fe q t : Nat) (who : QWho) :
    List (PktRef × Nat) → State → List PktRef → List Put → FRes (List PktRef × List Put) × State
  | [], s, c, p => (.ok (c, p), s)
  | (r, va) :: rest, s, c, p =>
    match packetRead s fe q t r va who with
    | (.wait, s) => (.wait, s)
    | (.err e, s) => (.err e, s)
    | (.ok l, s) =>
      let h := dwAt l 0
      if bitN h 5 then
        let sig := fldN (dwAt l 3) 0 55
        let p' := if (fldN h 0 4 = 1 || fldN h 0 4 = 5) && sig != 0 then [Put.store sig (2 ^ 64 - 1)] else []
        abortScan fe q t who rest s (c ++ [r]) (p ++ p')
      else abortScan fe q t who rest s c p

/-- R424 on queue t by a packet of queue q of the same enclave, which makes the accesses: scans the packets of a list, cancels, stores,
enters Error. f is what the abort does besides to queue t: the aborted packet is passed, or stays for the resume to pass (R480). -/
def abortQueue (s : State) (fe q t : Nat) (who : QWho) (scan : List (PktRef × Nat)) (f : Queue → Queue) (idx : Nat) :
    FRes Unit × State :=
  match abortScan fe q t who scan s [] [] with
  | (.wait, s) => (.wait, s)
  | (.err e, s) => (.err e, s)
  | (.ok (c, p), s) =>
    let sig := (queueOf s fe t).sig
    match puts s fe q (p ++ (if sig = 0 then [] else [.store sig (2 ^ 64 - 1)])) who with
    | (.wait, s) => (.wait, s)
    | (.err e, s) => (.err e, s)
    | (.ok _, s) =>
      let s := updQueue s fe t (fun v =>
        f { v with cancelled := c ++ v.cancelled.filter (fun r => !c.contains r), waits := v.waits.filter (fun a => !isPacket a.who) })
      let st := (queueOf s fe t).state
      if st == .running || st == .waiting then (.ok (), queueError s fe t eAborted idx) else (.ok (), s)

/-! ### Control of a queue (R413, R414) -/

/-- R414 QUEUE_ENABLE: a disabled queue ignores it (R411, R412). -/
def queueEnable (s : State) (fe q : Nat) : State :=
  if feValid (feOf s fe) then
    updQueue s fe q (fun u => if u.enc && u.state == .idle then
      setRun { u with state := .running } .none else u)
  else s

/-- R414 QUEUE_DISABLE: packets not yet issued stay, and are read again (DESIGN CHOICE, log 87). The en bit of a queue without an enclave takes no write (R411). -/
def queueDisable (s : State) (fe q : Nat) : State :=
  updQueue s fe q (fun u => if u.enc then
    { u with state := .idle, wait := .none, waits := u.waits.filter (fun a => !isPacket a.who), ahead := [] } else u)

/-- R414 QUEUE_FREEZE: Frozen at the next packet boundary, which a routine in progress puts off. -/
def queueFreeze (s : State) (fe q : Nat) : State :=
  updQueue s fe q (fun u =>
    { u with freeze := true,
             state := if (u.state == .running || u.state == .waiting) && u.pair.isNone then .frozen else u.state })

/-- R414 QUEUE_UNFREEZE. -/
def queueUnfreeze (s : State) (fe q : Nat) : State :=
  updQueue s fe q (fun u =>
    let v := { u with freeze := false }
    if u.state == .frozen then setRun { v with state := .running } .none else v)

/-- R414 QUEUE_RESUME; a queue of no enclave is disabled (R411). -/
def queueResume (s : State) (fe q : Nat) : State :=
  updQueue s fe q (fun u => if u.enc && u.state == .error then setRun { u with state := .running } .none else u)

/-- R415: the doorbell. -/
def queueDoorbell (s : State) (fe q : Nat) (v : W64) : State := updQueue s fe q (fun u => { u with qwr := v.toNat })

def execQueueEnable (fe q : Nat) (s : State) : Out := .next (queueEnable s fe q)
def execQueueDisable (fe q : Nat) (s : State) : Out := .next (queueDisable s fe q)
def execQueueFreeze (fe q : Nat) (s : State) : Out := .next (queueFreeze s fe q)
def execQueueUnfreeze (fe q : Nat) (s : State) : Out := .next (queueUnfreeze s fe q)
def execQueueResume (fe q : Nat) (s : State) : Out := .next (queueResume s fe q)
def execQueueDoorbell (fe q : Nat) (v : W64) (s : State) : Out := .next (queueDoorbell s fe q v)

/-- Codes of a queue's state (R414). -/
def QState.code : QState → Nat
  | .idle => 0 | .running => 1 | .waiting => 2 | .error => 3 | .frozen => 4

/-! ### KICK (R352) -/

/-- The queues granted to an enclave, ascending. -/
def grantedQueues (e : Enclave) : List Nat := (List.range 16).filter (fun q => bit e.queues q)

/-- The result code of a kick of a thread and, when it is accepted, the state after its delivery; none stalls on a full
queue. The index names the granted queues in ascending order (log 12). -/
def kickCode (s : State) (inside : Bool) (eid : Nat) (v : W64) : Option (Nat × State) :=
  if !inside then some (3, s)
  else if fldN v.toNat 0 6 != 0 || fldN v.toNat 55 5 != 0 then some (2, s)
  else
    match mget s.basalt.enclaves eid with
    | none => some (1, s)
    | some e =>
      match (grantedQueues e)[fldN v.toNat 60 4]? with
      | none => some (1, s)
      | some q =>
        if e.ending || !((queueOf s e.part q).enc && (queueOf s e.part q).eid == eid) then some (1, s)
        else if 16 ≤ (queueOf s e.part q).kicks.length then none
        else some (0, updQueue s e.part q (fun u => { u with kicks := u.kicks ++ [fldN v.toNat 0 55] }))

/-- Whether a core's earlier stores and atomics are all performed (R352, R388). -/
def storesDone (l : List Pend) : Bool :=
  l.all (fun p => p.returned || (match p.act with | .store _ | .atomic _ _ _ _ => false | _ => true))

/-- A write of KICK by a Quartz core, with its code in KSTAT; none stalls. -/
def kickWrite (s : State) (qn : Nat) (v : W64) : Option State :=
  match mget s.quartz qn with
  | none => some s
  | some q =>
    if !storesDone q.pend then none
    else (kickCode s (qInside q) (qEid q) v).map (fun r => updQuartz r.2 qn (fun c => srSet c 0 0x11 (w64 r.1)))

/-- R352 KICK. -/
def execKick (q : Nat) (v : W64) (s : State) : Out := .next ((kickWrite s q v).getD s)

end Sys2Proof.Machine
end

