-- ==== Sys2Proof/Machine/Launch.lean ====
section
/-! DEFINITION. Launches (R17 to R23, R417 to R421, R436, R508): reading a packet and a kernel descriptor, the steps of a
LAUNCH, placing teams on cores, retiring groups, completing grids. -/

namespace Sys2Proof.Machine

/-! ### Packets and descriptors (R417, R418) -/

/-- Whether a LAUNCH packet is malformed on its own (R417). -/
def launchBad (p : List Byte) : Bool :=
  let h := dwAt p 0
  let g := dwAt p 2
  let n := fldN g 0 32 * fldN g 32 16 * fldN g 48 16
  fldN h 0 4 != 1 || bitN h 15 || fldN h 29 3 != 0 || fldN h 38 2 != 0
  || (decide (17 ≤ fldN h 8 5) && decide (fldN h 8 5 ≤ 30)) || !fmtOk (w32 (fldN h 16 13))
  || bitN (dwAt p 1) 55 || fldN (dwAt p 1) 0 6 != 0 || n == 0 || decide (2 ^ 32 < n)
  || fldN (dwAt p 3) 0 3 != 0 || fldN (dwAt p 3) 55 9 != 0

/-- A kernel descriptor's fields (R418). -/
def kdCode (d : List Byte) : Nat := fldN (dwAt d 0) 0 55
def kdWidth (d : List Byte) : Nat := 16 * 2 ^ fldN (dwAt d 1) 0 2
def kdVregs (d : List Byte) : Nat := fldN (dwAt d 1) 8 9
def kdSize (d : List Byte) : Nat := fldN (dwAt d 1) 24 5 + 1
def kdMx (d : List Byte) : Bool := bitN (dwAt d 1) 32
def kdNrgn (d : List Byte) : Nat := fldN (dwAt d 1) 40 11
def kdSpill (d : List Byte) : Nat := fldN (dwAt d 2) 0 17
def kdSinit (d : List Byte) : Nat := fldN (dwAt d 2) 17 15
def kdShared (d : List Byte) : Nat := fldN (dwAt d 2) 32 21
def kdNroles (d : List Byte) : Nat := fldN (dwAt d 3) 55 5
def kdNtmpl (d : List Byte) : Nat := fldN (dwAt d 4) 55 9
def kdHv (d : List Byte) : Bool := bitN (dwAt d 5) 55
/-- The virtual address in a doubleword of a descriptor. -/
def kdVa (d : List Byte) (n : Nat) : Nat := fldN (dwAt d n) 0 55

/-- Whether a kernel descriptor is malformed: a reserved bit, or a value outside the limits of R184 (R418). -/
def descBad (d : List Byte) : Bool :=
  let w1 := dwAt d 1
  fldN (dwAt d 0) 55 9 != 0 || kdCode d % 8 != 0 || fldN w1 0 2 == 3 || fldN w1 2 6 != 0 || kdVregs d % 8 != 0
  || decide (256 < kdVregs d) || fldN w1 17 7 != 0 || fldN w1 29 3 != 0 || fldN w1 33 7 != 0 || fldN w1 51 13 != 0
  || decide (1536 < kdNrgn d) || kdSpill d % 16 != 0 || decide (65536 < kdSpill d) || fldN (dwAt d 2) 53 11 != 0
  || decide (1048576 < kdShared d) || fldN (dwAt d 3) 60 4 != 0 || decide (16 < kdNroles d) || decide (256 < kdNtmpl d)
  || fldN (dwAt d 5) 56 8 != 0 || fldN (dwAt d 6) 55 9 != 0 || fldN (dwAt d 7) 55 9 != 0
  || decide (2048 < kdSize d * kdWidth d)

/-- A role-table entry (R418); none when malformed. -/
def roleEntry (b : List Byte) : Option (W64 × Nat × Nat) :=
  let pc := dwAt b 0
  let x := dwAt b 1
  let v := fldN x 0 9
  if fldN pc 55 9 != 0 || pc % 8 != 0 || fldN x 9 7 != 0 || fldN x 18 46 != 0 || v % 8 != 0 || 256 < v then none
  else some (w64 pc, v, fldN x 16 2)

/-- A handle image (R62); none when a reserved bit is set. -/
def handleImage (b : List Byte) : Option Handle :=
  let base := w64 (dwAt b 0)
  let desc := w64 (dwAt b 1)
  if hdefBad base desc then none else some { base := base, desc := desc }

/-- A Scratch Region Table entry (R123); none when malformed. -/
def regionEntry (b : List Byte) : Option Nat :=
  let x := leNat (b.take 4)
  if 8 ≤ x || x % 4 = 3 then none else some x

/-- The parts of n bytes of a table. -/
def partsOf (l : List Byte) (n k : Nat) : List (List Byte) := (List.range k).map (fun i => (l.drop (n * i)).take n)

/-- What the descriptor's tables hold. -/
structure Tables where
  roles : List (W64 × Nat × Nat)
  handles : KMap Handle
  region : KMap Nat

/-- All entries of a list, or none. -/
def allSome {α β : Type} (f : α → Option β) (l : List α) : Option (List β) := l.mapM f

/-- The tables from their bytes; none gives MALFORMED. -/
def tablesOf (d : List Byte) (roles hnds rgn : List Byte) : Option Tables :=
  match allSome roleEntry (partsOf roles 16 (kdNroles d)), allSome regionEntry (partsOf rgn 4 (kdNrgn d)),
      allSome handleImage (partsOf hnds 16 (if kdHv d then 8 else 0)) with
  | some r, some g, some h =>
    some { roles := r,
           handles := ((List.range h.length).zip h).filter (fun x => x.2 != noHandle),
           region := ((List.range g.length).zip g).filter (fun x => x.2 != 1) }
  | _, _, _ => none

/-- The template slots of a launch from the bytes of their table: an all-zero image is an empty slot (R418). -/
def slotsOf (d tmpl : List Byte) : KMap (List Byte) :=
  let l := partsOf tmpl 64 (kdNtmpl d)
  ((List.range l.length).zip l).filter (fun x => x.2.any (· != 0))

/-- Reads a list of ranges for a queue, all of them or none. -/
def feReadAll (fe q : Nat) (who : QWho) : List (Nat × Nat) → State → List (List Byte) → FRes (List (List Byte)) × State
  | [], s, out => (.ok out, s)
  | (va, n) :: t, s, out =>
    if n = 0 then feReadAll fe q who t s (out ++ [[]])
    else
      match feRead s fe q va n who with
      | (.ok b, s) => feReadAll fe q who t s (out ++ [b])
      | (.wait, s) => (.wait, s)
      | (.err e, s) => (.err e, s)

/-! ### Cores and their room (R20, R21, R420) -/

/-- The cores of a front end's partition in ascending order (R411). -/
def partCores (f : FrontEnd) : List Nat :=
  if !feValid f then []
  else (List.range 48).filter (fun x => decide (feBase f ≤ x) && decide (x ≤ feLimit f)) |>.flatMap (fun x =>
    (List.range 8).map (fun n => 256 * (x / 6) + 16 * (x % 6) + n))

/-- The groups of a core. -/
def coreGroups (s : State) (core : Nat) : List (Nat × Group) := s.groups.filter (fun e => locCore e.1 == core)

/-- The free positions of a sequencer, ascending (R21). -/
def freePositions (s : State) (core q : Nat) : List Nat :=
  (List.range 32).filter (fun p => (mget s.groups (mkLoc core q p)).isNone)

/-- Shared memory of a team on a core of it (R17). -/
def sharedPart (pair : Bool) (n core : Nat) : Nat :=
  if pair then (if core % 2 = 0 then min n 524288 else n - 524288) else n

/-- Whether a team stands on a core. -/
def teamOn (t : Team) (core : Nat) : Bool := t.core == core || (t.pair && t.core + 1 == core)

/-- Bytes of a core's shared memory in use. -/
def sharedUsed (s : State) (core : Nat) : Nat :=
  ((s.teams.filter (fun t => teamOn t.2 core)).map (fun t =>
    match mget s.launches t.2.launch with | some l => sharedPart t.2.pair l.shared core | none => 0)).foldl (· + ·) 0

/-- Whether a team of a matrix kernel holds a core (R63). -/
def mxUsed (s : State) (core : Nat) : Bool :=
  s.teams.any (fun t => teamOn t.2 core && (match mget s.launches t.2.launch with | some l => l.mx | none => false))

/-- The core and sequencer of group g of a team (R17, R21). -/
def groupPlace (pair : Bool) (core g : Nat) : Nat × Nat :=
  if pair then (core + g % 2, g / 2 % 4) else (core, g % 4)

/-- Whether a live update of the array dies holds the cluster of a core, which is then treated like a retiring core (R502). -/
def clusterHeld (s : State) (core : Nat) : Bool :=
  match s.basalt.update with
  | some (.quiesce 10 _ n) => coreDie core == n / 6 && coreCluster core == n % 6
  | _ => false

/-- Whether a core may take teams at all: present, not retired nor held like one, no listed claim, its cluster powered, a colour set for
the partition on its die (R314, R420, R442, R444, R503). -/
def coreOpen (s : State) (part core : Nat) : Bool :=
  (mget s.cores core).isSome && !(coreOf s core).retired && !clusterHeld s core && (coreOf s core).claims.isEmpty
  && (colours s (coreDie core) part).isSome
  && (match mget s.dies (coreDie core) with
      | some d => bit (mgetD d.clpwr (coreCluster core) 1) 0
      | none => false)

/-- What a team asks of a core: its groups by number with their allotments, width, shared memory, tiles, a pair. -/
structure Demand where
  part : Nat
  allots : List (Nat × Nat)
  width : Nat
  shared : Nat
  mx : Bool
  pair : Bool

/-- Whether a team fits on a core, or a pair from it (R20). -/
def fitsOn (s : State) (d : Demand) (core : Nat) : Bool :=
  let cores := if d.pair then [core, core + 1] else [core]
  let place := d.allots.map (fun x => (groupPlace d.pair core x.1, x.2))
  (!d.pair || core % 2 == 0) && cores.all (fun c =>
    coreOpen s d.part c && !(d.mx && mxUsed s c)
    && decide (sharedUsed s c + sharedPart d.pair d.shared c ≤ 524288)
    && decide ((((place.filter (fun x => x.1.1 == c)).map (fun x => poolBlocks (x.2 / 8) d.width)).foldl (· + ·) 0)
        ≤ (coreOf s c).free)
    && (List.range 4).all (fun q =>
        decide ((place.filter (fun x => x.1 == (c, q))).length ≤ (freePositions s c q).length)))

/-- The demand of a launch's teams. -/
def demandOf (l : Launch) : Demand :=
  { part := l.part, allots := (List.range l.size).map (fun n => (n, l.vregs)), width := l.width, shared := l.shared, mx := l.mx, pair := l.pair }

/-- The first core, in the order of R420, on which a team of a launch fits. -/
def findCore (s : State) (l : Launch) : Option Nat :=
  let cs := partCores (feOf s l.fe)
  let order := match l.lastCore with
    | none => cs
    | some c => cs.filter (fun x => decide (c < x)) ++ cs.filter (fun x => decide (x ≤ c))
  order.find? (fitsOn s (demandOf l))

/-! ### Spill memory (R110, R508) -/

/-- Bytes of one group's spill memory. -/
def spillBytes (width spill : Nat) : Nat := width * (spill + 0xC00)

/-- The lowest free place of n bytes in a pool, a multiple of 64. -/
def spillFind (base len : Nat) (used : List (Nat × Nat)) (n : Nat) : Option Nat :=
  let cand := base :: used.map (fun u => roundUp (u.1 + u.2) 64)
  leastBy (fun x => x) (cand.filter (fun a => decide (base ≤ a) && decide (a + n ≤ base + len)
    && used.all (fun u => decide (u.1 + u.2 ≤ a) || decide (a + n ≤ u.1))))

/-- Places for k groups of n bytes each, with the pool's areas after them. -/
def spillTake (base len n : Nat) : Nat → List (Nat × Nat) → List Nat → Option (List Nat × List (Nat × Nat))
  | 0, used, out => some (out, used)
  | k + 1, used, out =>
    match spillFind base len used n with
    | none => none
    | some a => spillTake base len n k (used ++ [(a, n)]) (out ++ [a])

/-! ### Placing a team (R20 to R22, R74) -/

/-- The state of a group at placement (R22, R74). -/
def newGroup (l : Launch) (lid tid num spill : Nat) : Group :=
  let full := fullMask l.width
  let args := (List.range 4).foldl (fun m j => msetD m (j + 1) (l.args.getD j 0) 0) ([] : KMap W64)
  { team := tid, launch := lid, num := num, width := l.width, s := msetD args 62 (w64 l.spill) 0, k := [], v := [],
    h := l.handles, allot := l.vregs, keep := 0,
    slot0 := { freeSlot with st := .running, pc := l.code, pm := full, exec := full, fmt := l.fmt },
    slot1 := freeSlot, stack := [], stackNewer := false, exited := 0, flags := 0, flagsen := l.flagsen, cause := 0, caddr := 0, causeN := 0,
    preq := false, pdlAt := 0, yielding := false, shape := 0, region := (0, 0, 0), pend := [], queue := [], chan := [],
    base := l.cls, eff := l.cls, active := false, enteredAt := 0, parkedAt := none, readyAt := 0, issuedAt := 0,
    agedAt := 0, lastSlot := true, settle := false, hazards := 0, handler := false, stop := .none, stopSlot := false,
    donors := [], replay := [], spill := w64 spill, coll := [], armed := false, stepping := false, pass := none }

/-- Puts a group at the lowest free position of its sequencer, in the active set if it has room (R21). -/
def putGroup (s : State) (core q : Nat) (g : Group) : State × Nat :=
  let loc := mkLoc core q ((freePositions s core q).headD 0)
  let active := ((seqGroups s core q).filter (fun e => e.2.active)).length
  let sq := seqOf s core q
  let g := { g with active := decide (active < 8), enteredAt := sq.entered, readyAt := sq.cycle, issuedAt := sq.cycle,
                    agedAt := sq.cycle }
  let s := setGroup s loc g
  let s := updCore s core (fun c => { c with free := c.free - poolBlocks (g.allot / 8) g.width })
  (updSeq s core q (fun x => { x with entered := x.entered + 1 }), loc)

/-- Puts the groups of a team on a core, in order; answers their locations by group number. -/
def putGroups (core : Nat) (pair : Bool) : List Group → State → KMap Nat → State × KMap Nat
  | [], s, out => (s, out)
  | g :: t, s, out =>
    let p := groupPlace pair core g.num
    let (s, loc) := putGroup s p.1 p.2 g
    putGroups core pair t s (mput out g.num loc)

/-- The groups that ARM has marked in a team (R487). -/
def armedMask (s : State) (eid lid idx : Nat) : W64 :=
  match s.dbox.armed.find? (fun a => a.eid == eid && a.launch == lid && a.team == idx) with | some a => a.groups | none => 0

/-- Marks the teams' armed groups at placement. -/
def armGroups (s : State) (eid lid idx : Nat) (l : List Group) : List Group :=
  let m := armedMask s eid lid idx
  l.map (fun g => { g with armed := bit m g.num })

/-- The tiles of a core, zeroed for a matrix team (R63). -/
def zeroTiles (s : State) (core : Nat) (pair mx : Bool) : State :=
  if !mx then s
  else
    let s := updCore s core (fun c => { c with tiles := [] })
    if pair then updCore s (core + 1) (fun c => { c with tiles := [] }) else s

/-- A new team of a launch. -/
def newTeam (l : Launch) (lid idx core : Nat) : Team :=
  { launch := lid, index := idx, core := core, pair := l.pair, groups := [], retired := 0, shared := [], bars := [],
    aliased := [], preempt := none, seq := 0, imgFail := false }

/-- Places team idx of a launch on a core, its groups' spill memory at the bases given. -/
def placeTeam (s : State) (lid : Nat) (l : Launch) (core : Nat) (bases : List Nat) (used : List (Nat × Nat)) : State :=
  let (tid, s) := takeFresh s
  let s := { s with teams := mput s.teams tid (newTeam l lid l.next core) }
  let gs := (List.range l.size).map (fun n => newGroup l lid tid n (bases.getD n 0))
  let (s, locs) := putGroups core l.pair (armGroups s l.eid lid l.next gs) s []
  let s := updTeam (zeroTiles s core l.pair l.mx) tid (fun t => { t with groups := locs.map (·.2) })
  let s := updQueue s l.fe l.queue (fun u => { u with spillUsed := used })
  let die := coreDie core
  let cl := 8 * die + coreCluster core
  let l' : Launch :=
    { l with next := l.next + 1, lastCore := some core,
             dieTeams := msetD l.dieTeams die (mgetD l.dieTeams die 0 ||| 2 ^ l.next) 0,
             used := if l.used.contains cl then l.used else l.used ++ [cl] }
  { s with launches := mput s.launches lid l' }

/-- Plans up to n teams of a launch: the state with them placed and their spill bases, or none when one does not fit. -/
def planTeams : Nat → State → Nat → List Nat → Option (State × List Nat)
  | 0, s, _, out => some (s, out)
  | n + 1, s, lid, out =>
    match mget s.launches lid with
    | none => none
    | some l =>
      let u := queueOf s l.fe l.queue
      match findCore s l, spillTake u.spill (65536 * u.spillLen) (spillBytes l.width l.spill) l.size u.spillUsed [] with
      | some c, some (b, used) => planTeams n (placeTeam s lid l c b used) lid (out ++ b)
      | _, _ => none

/-- The launches of a partition whose placement waits may be placed again (R420). The rule has it resume when a team retires; a saved team
leaves its core as well, and placement resumes then too (DESIGN CHOICE, log 81). -/
def placementResumes (s : State) (part : Option Nat) : State :=
  { s with launches := s.launches.map (fun (l : Nat × Launch) =>
      (l.1, if some l.2.part == part then { l.2 with waiting := false } else l.2)) }

/-- No core took the next team of a launch: placement waits (R420). -/
def placementWaits (s : State) (lid : Nat) : State :=
  { s with launches := mupd s.launches lid (fun l => { l with waiting := true }) }

def gridSize (l : Launch) : Nat := l.gx * l.gy * l.gz

/-- A wait of a graph node's launch that holds its queue no more (R420, R436). -/
def dropHold (u : Queue) (h : Bool × Nat) : Queue :=
  let v := { u with holds := u.holds.filter (fun x => x != h) }
  setRun v v.wait

/-- A launch whose last team is placed no longer holds its queue. -/
def placedAll (s : State) (lid : Nat) : State :=
  match mget s.launches lid with
  | none => s
  | some l =>
    if l.next < gridSize l then s
    else updQueue s l.fe l.queue (fun u =>
      if u.placing == some lid then setRun { u with placing := none } .none
      else if u.holds.contains (true, lid) then dropHold u (true, lid) else u)

/-- R420 TEAM_PLACEMENT: the next team of a launch is placed where it fits, or all teams of a co-resident grid at once; where none fits,
placement waits until a team of the partition retires.
Restores of the partition that wait go first (R407). Spill memory is zeroed as it is handed out (R23). -/
def execTeamPlacement (launch : Nat) (s : State) : Out :=
  .next (match mget s.launches launch with
    | none => s
    | some l =>
      let u := queueOf s l.fe l.queue
      if gridSize l ≤ l.next || l.done || l.waiting || !(feOf s l.fe).restores.isEmpty || (u.state == .error && u.err == eFault && u.errIdx == l.idx)
          || accessWaits u (.spill launch) then s
      else
        match planTeams (if l.cores then gridSize l else 1) s launch [] with
        | none => placementWaits s launch
        | some (_, bases) =>
          match puts s l.fe l.queue (bases.map (fun b => .zero b (spillBytes l.width l.spill))) (.spill launch) with
          | (.wait, s) => s
          | (.err e, s) => queueError s l.fe l.queue e l.idx
          | (.ok _, s) =>
            match planTeams (if l.cores then gridSize l else 1) s launch [] with
            | none => s
            | some (s, _) => placedAll s launch)

/-! ### The steps of a LAUNCH (R419) -/

/-- The partition with no group and no team of its own: what NORESIDE compares with. -/
def emptied (s : State) (fe : Nat) : State :=
  let cs := partCores (feOf s fe)
  { s with groups := s.groups.filter (fun e => !cs.contains (locCore e.1)),
           teams := s.teams.filter (fun t => !cs.contains t.2.core),
           cores := s.cores.map (fun c => if cs.contains c.1 then (c.1, { c.2 with free := 1536, claims := [] }) else c) }

/-- Whether a co-resident grid can be resident in the emptied partition (R419, step 2). -/
def canReside (s : State) (lid : Nat) (l : Launch) : Bool :=
  let s := emptied { s with launches := mput s.launches lid l } l.fe
  let s := updQueue s l.fe l.queue (fun u => { u with spillUsed := [] })
  (planTeams (gridSize l) s lid []).isSome

/-- R436, R455: whether the resident part of the enclave's recorded working set reaches the threshold. -/
def residentEnough (s : State) (eid thr : Nat) : Bool :=
  thr == 0 || (match mget s.shale.wset eid with
    | some (size, res, _) => size == 0 || decide (thr * size ≤ 255 * res)
    | none => true)

/-- A change of W of a partition on every die that it holds colours of (R419, step 4): PINNED changes nothing. -/
def launchWays (s : State) (part w : Nat) : FRes Unit × State :=
  if w = 31 then (.ok (), s)
  else
    if s.work.any (fun x => match x.2 with | .scrsz _ p _ _ none _ => p == part | _ => false) then (.wait, s)
    else
      match changeWays s part w with
      | some (0, s) => (.ok (), s)
      | some (_, s) => (.err ePinned, s)
      | none => (.wait, s)

/-- Copies a `.scratch` image into the scratch of every die of a partition, from address 0 (R419, step 5); bytes at or
above C have no place (log 22). -/
def loadImage (s : State) (part : Nat) (img : List Byte) : State :=
  (partDies s part).foldl (fun s d =>
    let b := img.take (capacity s d part)
    performWrites s none (((List.range b.length).map (scratchLoc s d part)).zip b)) s

/-- The launch that a packet and its tables describe. -/
def makeLaunch (fe q eid : Nat) (p d : List Byte) (t : Tables) (node : Option Nat) (again : Bool) (idx : Nat) : Launch :=
  let h := dwAt p 0
  let hnd := fldN h 40 24
  { fe := fe, queue := q, part := fe, eid := eid, fmt := w32 (fldN h 16 13), flagsen := w64 (fldN h 32 6),
    cls := fldN h 13 2, handler := if hnd = 0 then 0 else w64 (kdCode d + 8 * hnd),
    args := (List.range 4).map (fun j => w64 (dwAt p (4 + j))), gx := fldN (dwAt p 2) 0 32, gy := fldN (dwAt p 2) 32 16,
    gz := fldN (dwAt p 2) 48 16, width := kdWidth d, vregs := kdVregs d, size := kdSize d, mx := kdMx d,
    roles := t.roles, tmpl := [], region := t.region, handles := t.handles, shared := kdShared d, spill := kdSpill d,
    sig := kdVa p 3, cores := bitN h 6, pair := bitN h 7 || decide (524288 < kdShared d), code := w64 (kdCode d), next := 0,
    retired := 0, lastCore := none, node := node, prologue := again, idx := idx, dieTeams := [], done := false, waiting := false,
    used := [] }

/-- Steps 4 and 5 of a LAUNCH whose change of W will succeed (R419). W changes once the image can be read, so that a launch that ends with
FAULT has changed nothing (R435; DEDUCED, log 88). -/
def finishLaunch (s : State) (fe q lid : Nat) (l : Launch) (p d : List Byte) (who : QWho) : FRes Nat × State :=
  match feReadAll fe q who [(kdVa d 7, 1024 * kdSinit d), (kdVa d 4, 64 * kdNtmpl d)] s [] with
  | (.wait, s) => (.wait, s)
  | (.err e, s) => (.err e, s)
  | (.ok tb, s) =>
    let s := loadImage (launchWays s fe (fldN (dwAt p 0) 8 5)).2 fe (tb.getD 0 [])
    let s := { s with launches := mput s.launches lid { l with tmpl := slotsOf d (tb.getD 1 []) } }
    (.ok lid, updQueue s fe q (fun u => { u with launches := u.launches + 1, lastLaunch := some lid }))

/-- R419 on a LAUNCH packet of a queue: steps 1 to 5. Its identifier, a wait, or an error. -/
def startLaunch (s : State) (fe q : Nat) (p : List Byte) (node : Option Nat) (again : Bool) (idx : Nat) (who : QWho) :
    FRes Nat × State :=
  if launchBad p then (.err eMalformed, s)
  else
    match feRead s fe q (kdVa p 1) 64 who with
    | (.wait, s) => (.wait, s)
    | (.err e, s) => (.err e, s)
    | (.ok d, s) =>
      if descBad d then (.err eMalformed, s)
      else
        match feReadAll fe q who [(kdVa d 3, 16 * kdNroles d), (kdVa d 5, if kdHv d then 128 else 0), (kdVa d 6, 4 * kdNrgn d)] s [] with
        | (.wait, s) => (.wait, s)
        | (.err e, s) => (.err e, s)
        | (.ok tb, s) =>
          let u := queueOf s fe q
          let lid := fe + 16 * q + 256 * u.launches
          match tablesOf d (tb.getD 0 []) (tb.getD 1 []) (tb.getD 2 []) with
          | none => (.err eMalformed, s)
          | some t =>
            let l := makeLaunch fe q u.eid p d t node again idx
            if 65536 * u.spillLen < l.size * spillBytes l.width l.spill then (.err eMalformed, s)
            else if l.cores && !canReside s lid l then (.err eNoreside, s)
            else if !residentEnough s u.eid (fldN (dwAt p 1) 56 8) then (.wait, s)
            else
              match launchWays s fe (fldN (dwAt p 0) 8 5) with
              | (.wait, s) => (.wait, s)
              | (.err e, s) => (.err e, s)
              | (.ok _, _) => finishLaunch s fe q lid l p d who

/-- Why a LAUNCH waits, for the queue's state: residency or the change of W. -/
def launchWait (s : State) (fe q : Nat) (p : List Byte) : QWait :=
  if residentEnough s (queueOf s fe q).eid (fldN (dwAt p 1) 56 8) then .ways else .residency

/-- R419 LAUNCH_PACKET. -/
def launchStep (s : State) (fe q : Nat) : State :=
  packetStep s fe q 1 (fun s src _ p =>
    let idx := nextIndex (queueOf s fe q)
    match startLaunch s fe q p none false idx (.packet src) with
    | (.wait, s) => packetWaits s fe q (launchWait s fe q p)
    | (.err e, s) => packetError s fe q src e
    | (.ok lid, s) =>
      updQueue s fe q (fun u => setRun { passOne u src with
        sigDue := true, placing := some lid, out := u.out ++ [{ idx := idx, work := lid }] } .none))

def execLaunchPacket (fe q : Nat) (s : State) : Out := .next (launchStep s fe q)

/-- R436 RESIDENCY_GATE: a launch that waits for residency is looked at again. -/
def execResidencyGate (fe q : Nat) (s : State) : Out :=
  .next (if (queueOf s fe q).wait == .residency then launchStep s fe q else s)

/-! ### Retirement (R23, R203, R311) -/

/-- The spill memory of a group goes back to its queue's pool (R508). -/
def freeSpill (s : State) (l : Launch) (base : Nat) : State :=
  updQueue s l.fe l.queue (fun u => { u with spillUsed := u.spillUsed.filter (fun x => x.1 != base) })

/-- The counted lines that a team's copies filled become Absent (R130). -/
def dropTeamLines (s : State) (tid : Nat) : State :=
  { s with dies := s.dies.map (fun d => (d.1, { d.2 with lines := d.2.lines.filter (fun l => l.team != tid) })) }

/-- A team's last group has retired (R23); the placements that wait in its partition resume (R420). -/
def retireTeam (s : State) (tid lid : Nat) : State :=
  let s := dropTeamLines (placementResumes s ((mget s.launches lid).map (·.part))) tid
  let idx := match mget s.teams tid with | some t => t.index | none => 0
  { s with teams := mdel s.teams tid, saved := s.saved.filter (fun v => !(v.launch == lid && v.index == idx)),
           launches := mupd s.launches lid (fun l => { l with retired := l.retired + 1 }) }

/-- R203, R23: a group leaves its core: its allotment and spill memory return, its arrivals are withdrawn, its team's
barriers and regroup are looked at again. -/
def retireGroup (s : State) (loc : Nat) (g : Group) : State :=
  let core := locCore loc
  let s := match launchOf s g with | some l => freeSpill s l g.spill.toNat | none => s
  let s := { s with groups := mdel s.groups loc }
  let s := updTeam s g.team (fun t =>
    { t with retired := t.retired ||| w64 (2 ^ g.num),
             bars := (t.bars.map (fun b => (b.1, { b.2 with arrived := b.2.arrived &&& ~~~(w64 (2 ^ g.num)) }))).filter
               (fun b => b.2 != noBar) })
  let s := freeBlocks s core (poolBlocks (g.allot / 8) g.width)
  match mget s.teams g.team with
  | none => s
  | some t =>
    if (List.range t.groups.length).all (fun n => bit t.retired n) then retireTeam s g.team g.launch
    else barsAgain (teamCheck s g.team) g.team

/-- Whether a group whose lanes have all exited may retire (R203). -/
def canRetire (g : Group) : Bool := allExited g && (counters g.pend).all (· == 0)

/-- R203 GROUP_RETIREMENT. -/
def execGroupRetirement (loc : Nat) (s : State) : Out :=
  .next (match mget s.groups loc with
    | some g => if canRetire g then retireGroup s loc g else s
    | none => s)

/-! ### Grid completion (R421, R437) -/

/-- A packet's work has completed (R415). -/
def workDone (s : State) (fe q idx work : Nat) : State :=
  queueDrained (updQueue s fe q (fun u => { u with out := u.out.erase { idx := idx, work := work } })) fe q

/-- R437: the clusters of a co-resident grid return to 1,400 MHz. -/
def resetPower (s : State) (l : Launch) : State :=
  if l.cores && !s.thermal then
    l.used.foldl (fun s n => updDie s (n / 8) (fun d => { d with freq := msetD d.freq (n % 8) 1400 1400 })) s
  else s

end Sys2Proof.Machine
end

