-- ==== Sys2Proof/Machine/Packets.lean ====
section
/-! DEFINITION. The packets of a queue other than LAUNCH (R421 to R435): signals, barriers, copies, predication, calls,
joins, aborts, prologues with their runs, graphs with their nodes, and the completions of grids and copies. -/

namespace Sys2Proof.Machine

/-- Whether a packet breaks the layout of its kind: a header bit outside hmask, a doubleword bit outside its mask, listed
for doublewords 1 on (R8, R416). Bits that a layout does not list are reserved (DEDUCED). -/
def packetBad (p : List Byte) (hmask : Nat) (masks : List Nat) : Bool :=
  (dwAt p 0 &&& hmask) != dwAt p 0 || (List.range 7).any (fun j =>
    let m := masks.getD j 0
    (dwAt p (j + 1) &&& m) != dwAt p (j + 1))

def maskVa : Nat := 2 ^ 55 - 1
def maskAll : Nat := 2 ^ 64 - 1

/-- The next packet completes at its issue (R415). -/
def finishPacket (fe q : Nat) (src : Src) : FRes Unit × State → State
  | (.ok _, s) => issued s fe q src
  | (.wait, s) => packetWaits s fe q .none
  | (.err e, s) => packetError s fe q src e

/-! ### SIGNAL, JOIN (R422, R428) -/

/-- R422 SIGNAL. -/
def execSignalPacket (fe q : Nat) (s : State) : Out :=
  .next (packetStep s fe q 4 (fun s src _ p =>
    let va := dwAt p 1
    if packetBad p 0xFF [maskVa, maskAll] || 2 ≤ fldN (dwAt p 0) 6 2 || va % 8 != 0 then packetError s fe q src eMalformed
    else
      let x : Put := if fldN (dwAt p 0) 6 2 = 0 then .store va (dwAt p 2) else .add va (dwAt p 2)
      finishPacket fe q src (puts s fe q [x] (.packet src))))

/-- R428 JOIN. -/
def execJoinPacket (fe q : Nat) (s : State) : Out :=
  .next (packetStep s fe q 8 (fun s src _ p =>
    if packetBad p 0x3F [] then packetError s fe q src eMalformed else issued s fe q src))

/-! ### BARRIER (R423, R424) -/

/-- Values of a list of signals. -/
def readSignals (fe q : Nat) (who : QWho) : List Nat → State → List Int → FRes (List Int) × State
  | [], s, out => (.ok out, s)
  | va :: t, s, out =>
    match feRead s fe q va 8 who with
    | (.ok l, s) => readSignals fe q who t s (out ++ [sextN 64 (leNat l)])
    | (.wait, s) => (.wait, s)
    | (.err e, s) => (.err e, s)

/-- R423, R424: an evaluation of the barrier at the head of a queue. -/
def barrierStep (s : State) (fe q : Nat) : State :=
  packetStep s fe q 3 (fun s src _ p =>
    let sigs := ((List.range 4).map (fun j => dwAt p (j + 1))).filter (· != 0)
    if packetBad p 0x3F [maskVa, maskVa, maskVa, maskVa] || sigs.isEmpty || sigs.any (fun a => a % 8 != 0) then
      packetError s fe q src eMalformed
    else
      match readSignals fe q (.packet src) sigs s [] with
      | (.wait, s) => packetWaits s fe q .none
      | (.err e, s) => packetError s fe q src e
      | (.ok l, s) =>
        let u := queueOf s fe q
        if l.any (· < 0) then
          match abortQueue s fe q q (.packet src) (laterPackets u) (fun u => { u with cancelled := nextRef u :: u.cancelled })
              (nextIndex u) with
          | (.ok _, s) => updQueue s fe q (fun u => { u with sigDue := true })
          | (.wait, s) => packetWaits s fe q .none
          | (.err e, s) => packetError s fe q src e
        else if l.all (· == 0) && (!bitN (dwAt p 0) 4 || u.out.isEmpty) then issued s fe q src
        else packetWaits s fe q .barrier)

def execBarrierPacket (fe q : Nat) (s : State) : Out := .next (barrierStep s fe q)

/-- R423 BARRIER_EVALUATION: a waiting barrier is evaluated again. -/
def execBarrierEvaluation (fe q : Nat) (s : State) : Out :=
  .next (if (queueOf s fe q).wait == .barrier then barrierStep s fe q else s)

/-! ### COPY (R425) -/

/-- A copy that a COPY packet describes, as yet without its owner's identifier. -/
def packetCopy (s : State) (fe q : Nat) (p : List Byte) (node : Option Nat) (idx : Nat) (who : QWho) : FRes Copy × State :=
  if packetBad p 0xFF3F [maskVa, maskVa, maskVa] || fldN (dwAt p 0) 0 4 != 5 || dwAt p 3 % 8 != 0 then (.err eMalformed, s)
  else
    match feRead s fe q (dwAt p 1) 48 who with
    | (.wait, s) => (.wait, s)
    | (.err e, s) => (.err e, s)
    | (.ok b, s) =>
      let u := queueOf s fe q
      let slot := fldN (dwAt p 0) 8 8
      let lid := u.lastLaunch.getD 0
      let t := match u.lastLaunch.bind (mget s.launches) with | some l => mget l.tmpl slot | none => none
      let tm := t.getD []
      let arg := (List.range 6).map (fun j => w64 (dwAt b j))
      let bad := copyMalformed tm arg || tSrck tm == 3 || tDstk tm == 3 || tDstk tm == 6
      let base := feBase (feOf s fe)
      let own : Owner := match node with
        | some i => .node fe q idx i (dwAt p 2) (dwAt p 3)
        | none => .packet fe q idx (dwAt p 2) (dwAt p 3)
      (.ok { owner := own, core := 256 * (base / 6) + 16 * (base % 6), launch := lid, team := s.fresh, eid := u.eid,
             part := fe, chan := 0, slot := slot, tmpl := tm, arg := arg, buf := none,
             err := if t.isNone then 1 else if bad then 2 else 0, badsec := 0, lines := [], page := none,
             pageFail := none, waitAt := 0, begun := false, moved := [], held := [], scales := [], wrote := 0, bad := [], merge := false,
             old := [], fin := none, dead := false, sent := none, filled := 0 }, s)

/-- Starts a copy on behalf of a queue; answers its identifier, which also stands for the team it has none of. -/
def startPacketCopy (s : State) (c : Copy) : Nat × State :=
  let (id, s) := takeFresh s
  (id, launchCopy s id { c with team := id })

/-- R425 COPY. -/
def execCopyPacket (fe q : Nat) (s : State) : Out :=
  .next (packetStep s fe q 5 (fun s src _ p =>
    let idx := nextIndex (queueOf s fe q)
    match packetCopy s fe q p none idx (.packet src) with
    | (.wait, s) => packetWaits s fe q .none
    | (.err e, s) => packetError s fe q src e
    | (.ok c, s) =>
      let (id, s) := startPacketCopy s c
      issued (updQueue s fe q (fun u => { u with out := u.out ++ [{ idx := idx, work := id }] })) fe q src))

/-! ### PRED, CALL, ABORT (R426, R427, R434) -/

/-- The comparison of a condition (R426). -/
def predHolds (cmp v c : Nat) : Bool :=
  let a := sextN 64 v
  let b := sextN 64 c
  if cmp = 0 then a == b else if cmp = 1 then a != b else if cmp = 2 then decide (a < b) else decide (b ≤ a)

/-- Opens the true arm of a PRED on its level, its own packet counted with it: nt packets, then nf to skip. -/
def openArm (u : Queue) (src : Src) (nt nf : Nat) : Queue :=
  match src with
  | .ring => { u with ringArms := (nt + 1, nf) :: u.ringArms }
  | .call =>
    match u.calls with
    | l :: t =>
      let l' : Level := { l with arms := (nt + 1, nf) :: l.arms }
      { u with calls := l' :: t }
    | [] => u
  | .kick => u

/-- R426 PRED. A kicked PRED stands alone on its level, so both its arms are empty (DEDUCED). -/
def execPredPacket (fe q : Nat) (s : State) : Out :=
  .next (packetStep s fe q 6 (fun s src _ p =>
    let h := dwAt p 0
    if packetBad p 0xFFFF01FF [maskVa, maskAll] || 4 ≤ fldN h 6 3 || dwAt p 1 % 8 != 0 then packetError s fe q src eMalformed
    else
      match feRead s fe q (dwAt p 1) 8 (.packet src) with
      | (.wait, s) => packetWaits s fe q .none
      | (.err e, s) => packetError s fe q src e
      | (.ok l, s) =>
        let nt := fldN h 16 8
        let nf := fldN h 24 8
        let take := predHolds (fldN h 6 3) (leNat l) (dwAt p 2)
        queueDrained (updQueue s fe q (fun u =>
          let u := if take then passSome (openArm u src nt nf) src 1
                   else passSome u src (if src == .kick then 1 else 1 + nt)
          setRun { u with sigDue := true } .none)) fe q))

/-- R427 CALL. -/
def execCallPacket (fe q : Nat) (s : State) : Out :=
  .next (packetStep s fe q 7 (fun s src _ p =>
    let n := dwAt p 2
    if packetBad p 0x3F [maskVa, 0xFFFF] || n == 0 || dwAt p 1 % 64 != 0 then packetError s fe q src eMalformed
    else if 8 ≤ (queueOf s fe q).calls.length then packetError s fe q src eCalldepth
    else updQueue s fe q (fun u =>
      let u' := passN u src 1
      let l : Level := { next := dwAt p 1, left := n, arms := [], path := aheadKey u (nextRef u) }
      setRun { forgetPassed { u' with calls := l :: u'.calls } with lastIdx := nextIndex u, sigDue := true } .none)))

/-- R434 ABORT. -/
def execAbortPacket (fe q : Nat) (s : State) : Out :=
  .next (packetStep s fe q 10 (fun s src _ p =>
    let t := dwAt p 1
    let u := queueOf s fe q
    let v := queueOf s fe t
    if packetBad p 0x3F [0xF] || !(v.enc && v.eid == u.eid) then packetError s fe q src eMalformed
    else
      let r := if t = q then abortQueue s fe q q (.packet src) (laterPackets u) (fun u => passOne u src) (nextIndex u)
               else abortQueue s fe q t (.packet src) (validPackets v) id (nextIndex v)
      match r with
      | (.wait, s) => packetWaits s fe q .none
      | (.err e, s) => packetError s fe q src e
      | (.ok _, s) =>
        if t = q then queueDrained (updQueue s fe q (fun u => { u with sigDue := true })) fe q else issued s fe q src))

/-! ### PROLOGUE (R429, R430) -/

/-- The packet after the next one on the same level, with its address. -/
def followPacket (u : Queue) (src : Src) : Option (PktRef × Nat) :=
  let v := passN u src 1
  match src with
  | .kick => v.kicks.head?.map (fun va => (.kick 1, va))
  | .ring => if v.qrd < v.qwr then some (.ring v.qrd, ringVa v v.qrd) else none
  | .call => match v.calls with | l :: _ => if l.left = 0 then none else some (.call v.calls.length l.next, l.next) | [] => none

/-- The engine's state as a run begins (R429). -/
def prologueStart (s : State) (fe q : Nat) (p : Pair) : State :=
  let regs := [(1, w64 p.iter)] ++ (List.range 6).map (fun j => (j + 2, p.args.getD j 0))
    ++ (List.range 8).map (fun j => (j + 8, w64 (dwAt p.img j)))
  updPro s fe (fun r => { r with
    s := regs.foldl (fun m (x : Nat × W64) => sWrite m x.1 x.2) [], k := [], pc := w64 p.entry, divzero := false, pend := [],
    settle := false, words := 0, iter := p.iter, eid := (queueOf s fe q).eid, queue := some q, code := none, page := none })

/-- R429 PROLOGUE: starts the routine of the packet, or the next run of one in progress, once the engine is free. -/
def execProloguePacket (fe q : Nat) (s : State) : Out :=
  .next (
    let free := (feOf s fe).pro.queue.isNone
    match (queueOf s fe q).pair with
    | some p =>
      if p.again && free then
        let p' : Pair := { p with again := false }
        prologueStart (updQueue s fe q (fun u => { u with pair := some p' })) fe q p'
      else s
    | none =>
      packetStep s fe q 2 (fun s src _ p =>
        let u := queueOf s fe q
        if packetBad p 0x3F (maskVa :: List.replicate 6 maskAll) || dwAt p 1 % 8 != 0 then packetError s fe q src eMalformed
        else
          match (followPacket u src).filter (fun x => !u.cancelled.contains x.1) with
          | none => packetError s fe q src eMalformed
          | some (r, va) =>
            match packetRead s fe q q r va (.packet src) with
            | (.wait, s) => packetWaits s fe q .none
            | (.err e, s) => packetError s fe q src e
            | (.ok img, s) =>
              if fldN (dwAt img 0) 0 4 != 1 then packetError s fe q src eMalformed
              else if !free then packetWaits s fe q .prologue
              else
                let r : Pair :=
                  { idx := nextIndex u, entry := dwAt p 1, args := (List.range 6).map (fun j => w64 (dwAt p (j + 2))),
                    img := img, iter := 0, again := false }
                prologueStart (updQueue s fe q (fun u =>
                  let u := passSome (passOne u src) src 1
                  setRun { u with pair := some r, sigDue := true } .prologue)) fe q r))

/-- The engine of a front end is free again. -/
def freePrologue (s : State) (fe : Nat) : State := updPro s fe (fun p => { p with queue := none, code := none })

/-- The pair of a queue ends. -/
def endPair (s : State) (fe q : Nat) : State := updQueue s fe q (fun u => setRun { u with pair := none } .none)

/-- The completion interrupt of a queue whose ien is 1 (R421). -/
def completionIrq (s : State) (fe q : Nat) : State :=
  if (queueOf s fe q).ien then updFe s fe (fun f => { f with irqQ := f.irqQ ||| w64 (2 ^ q) }) else s

/-- R430: the end of a routine by exit, once its own work has returned. -/
def prologueEnd (s : State) (fe q : Nat) (p : Pair) (code : Nat) : State :=
  let fail (s : State) (e : Nat) : State := endPair (queueError (freePrologue s fe) fe q e (queueOf s fe q).lastIdx) fe q
  if code = 0 then
    match puts s fe q (sigDown (fldN (dwAt p.img 3) 0 55)) .pair with
    | (.wait, s) => s
    | (.err e, s) => fail s e
    | (.ok _, s) => queueDrained (endPair (completionIrq (freePrologue s fe) fe q) fe q) fe q
  else if code = 1 || code = 2 then
    let regs := (feOf s fe).pro.s
    let img := (List.range 8).flatMap (fun j => leBytes 8 (sRead regs (j + 8)).toNat)
    if bitN (dwAt img 0) 4 && !(queueOf s fe q).out.isEmpty then s
    else
      match startLaunch s fe q img none (code == 2) (queueOf s fe q).lastIdx .pair with
      | (.wait, s) => s
      | (.err e, s) => fail s e
      | (.ok lid, s) =>
        let s := updQueue s fe q (fun u =>
          { u with placing := some lid, out := u.out ++ [{ idx := u.lastIdx, work := lid }] })
        let s := freePrologue s fe
        if code = 1 then endPair s fe q else s
  else prologueFail s fe

/-- R430 PROLOGUE_EXIT. -/
def execPrologueExit (fe : Nat) (s : State) : Out :=
  .next (
    let r := (feOf s fe).pro
    match r.queue, r.code with
    | some q, some c =>
      match (queueOf s fe q).pair with
      | some p => if r.pend.all (·.returned) then prologueEnd s fe q p c else s
      | none => s
    | _, _ => s)

/-- R430: a run of more than 2^20 words. -/
def execPrologueRunLimit (fe : Nat) (s : State) : Out :=
  .next (
    let r := (feOf s fe).pro
    if r.queue.isSome && r.code.isNone && 2 ^ 20 < r.words then prologueFail s fe else s)

/-! ### Graphs (R431 to R433) -/

def updGraph (s : State) (fe : Nat) (f : Graph → Graph) : State := updFe s fe (fun e => { e with graph := e.graph.map f })

/-- R431: a graph that has reached an END and has no node running or ready completes. -/
def graphCheck (s : State) (fe : Nat) : State :=
  match (feOf s fe).graph with
  | none => s
  | some g =>
    if g.ending && g.running.isEmpty && g.ready.isEmpty then
      workDone (updFe s fe (fun f => { f with graph := none })) fe g.queue g.idx g.id
    else s

/-- An error of a graph ends it: its queue enters Error (R432, R433, R435). -/
def graphFail (s : State) (fe code : Nat) : State :=
  match (feOf s fe).graph with
  | none => s
  | some g =>
    let s := updFe s fe (fun f => { f with graph := none })
    let s := updQueue s fe g.queue (fun u =>
      { u with out := u.out.erase { idx := g.idx, work := g.id }, holds := u.holds.filter (·.1) })
    queueError s fe g.queue code g.idx

/-- R431 GRAPH; one walker serves a front end, so a second graph waits. -/
def execGraphPacket (fe q : Nat) (s : State) : Out :=
  .next (packetStep s fe q 9 (fun s src _ p =>
    let n := fldN (dwAt p 2) 0 16
    let first := fldN (dwAt p 2) 16 16
    if packetBad p 0x3F [maskVa, 0xFFFFFFFF] || dwAt p 1 % 64 != 0 || n == 0 || 4096 < n then
      packetError s fe q src eMalformed
    else if n ≤ first then packetError s fe q src eGraph
    else if (feOf s fe).graph.isSome then packetWaits s fe q .none
    else
      let idx := nextIndex (queueOf s fe q)
      let (id, s) := takeFresh s
      let g : Graph :=
        { id := id, queue := q, idx := idx, base := dwAt p 1, count := n, running := [], ready := [first], joins := [],
          iters := [], ending := false }
      let s := updFe s fe (fun f => { f with graph := some g })
      issued (updQueue s fe q (fun u => { u with out := u.out ++ [{ idx := idx, work := id }] })) fe q src))

/-- A node's successors. -/
def nodeNext (n : List Byte) : Nat × Nat := (fldN (dwAt n 1) 0 16, fldN (dwAt n 1) 16 16)

/-- Whether a node's kind is none of R432, or a successor at or above the count: GRAPH. -/
def nodeBad (n : List Byte) (count : Nat) : Bool :=
  let k := fldN (dwAt n 0) 0 4
  let r := nodeNext n
  k == 0 || 6 < k || (r.1 != 0xFFFF && decide (count ≤ r.1)) || (r.2 != 0xFFFF && decide (count ≤ r.2))

/-- Whether a node has a reserved bit, a cmp that PRED reserves (R426), or an npred out of its range: MALFORMED (R432, R435). -/
def nodeMalformed (n : List Byte) : Bool :=
  let k := fldN (dwAt n 0) 0 4
  packetBad n 0xFF0F [0xFFFFFFFF, maskVa, maskAll, 0xFFFFFFFF00000007]
  || ((k == 3 || k == 4) && 4 ≤ fldN (dwAt n 4) 0 3) || (k == 5 && fldN (dwAt n 0) 8 8 == 0)

/-- Successors that become ready, in order. -/
def startNodes (g : Graph) (l : List Nat) : Graph := { g with ready := g.ready ++ l.filter (· != 0xFFFF) }

/-- A node's action when it is one of the next to start and its kind is k; at most 64 nodes run at once (R431). The
action answers what it changes in the graph, where the node is no longer ready; a wait leaves it ready. -/
def nodeStep (s : State) (fe i k : Nat) (f : State → Graph → List Byte → FRes (Graph → Graph) × State) : State :=
  match (feOf s fe).graph with
  | none => s
  | some g =>
    if !(g.ready.take (64 - g.running.length)).contains i then s
    else
      match feRead s fe g.queue (g.base + 64 * i) 64 (.node i) with
      | (.wait, s) => s
      | (.err e, s) => graphFail s fe e
      | (.ok n, s) =>
        if nodeBad n g.count then graphFail s fe eGraph
        else if nodeMalformed n then graphFail s fe eMalformed
        else if fldN (dwAt n 0) 0 4 != k then s
        else
          match f s g n with
          | (.wait, s) => s
          | (.err e, s) => graphFail s fe e
          | (.ok h, s) => graphCheck (updGraph s fe (fun g => h { g with ready := g.ready.erase i })) fe

/-- A node whose work now runs. -/
def nodeRuns (i work : Nat) (n : List Byte) (g : Graph) : Graph :=
  let r : GNode := { i := i, work := work, next0 := (nodeNext n).1, next1 := (nodeNext n).2 }
  { g with running := g.running ++ [r] }

/-- What the launch of a KERNEL node holds its queue for: its wait for residency or the change of W, or the placement of its teams, as the
launch of a ring packet does (R420, R436). -/
def nodeHolds (s : State) (fe q i : Nat) (h : Option (Bool × Nat)) : State :=
  updQueue s fe q (fun u =>
    let v := { u with holds := u.holds.filter (fun x => x != (false, i)) ++ h.toList }
    setRun v v.wait)

/-- R433 KERNEL node. -/
def execKernelNode (fe i : Nat) (s : State) : Out :=
  .next (nodeStep s fe i 1 (fun s g n =>
    match feRead s fe g.queue (dwAt n 2) 64 (.node i) with
    | (.wait, s) => (.wait, s)
    | (.err e, s) => (.err e, s)
    | (.ok p, s) =>
      if fldN (dwAt p 0) 0 4 = 2 then (.err eGraph, s)
      else
        match startLaunch s fe g.queue p (some i) false g.idx (.node i) with
        | (.ok lid, s) => (.ok (nodeRuns i lid n), nodeHolds s fe g.queue i (some (true, lid)))
        | (.wait, s) => (.wait, nodeHolds s fe g.queue i (some (false, i)))
        | (.err e, s) => (.err e, nodeHolds s fe g.queue i none)))

/-- R433 COPY node. -/
def execCopyNode (fe i : Nat) (s : State) : Out :=
  .next (nodeStep s fe i 2 (fun s g n =>
    match feRead s fe g.queue (dwAt n 2) 64 (.node i) with
    | (.wait, s) => (.wait, s)
    | (.err e, s) => (.err e, s)
    | (.ok p, s) =>
      match packetCopy s fe g.queue p (some i) g.idx (.node i) with
      | (.ok c, s) => let (id, s) := startPacketCopy s c; (.ok (nodeRuns i id n), s)
      | (.wait, s) => (.wait, s)
      | (.err e, s) => (.err e, s)))

/-- The condition of a COND or WHILE node. -/
def nodeCond (s : State) (fe i : Nat) (g : Graph) (n : List Byte) : FRes Bool × State :=
  match feRead s fe g.queue (dwAt n 2) 8 (.node i) with
  | (.ok l, s) => (.ok (predHolds (fldN (dwAt n 4) 0 3) (leNat l) (dwAt n 3)), s)
  | (.wait, s) => (.wait, s)
  | (.err e, s) => (.err e, s)

/-- R433 COND node. -/
def execCondNode (fe i : Nat) (s : State) : Out :=
  .next (nodeStep s fe i 3 (fun s g n =>
    match nodeCond s fe i g n with
    | (.ok b, s) => (.ok (fun g => startNodes g [if b then (nodeNext n).1 else (nodeNext n).2]), s)
    | (.wait, s) => (.wait, s)
    | (.err e, s) => (.err e, s)))

/-- R433 WHILE node. -/
def execWhileNode (fe i : Nat) (s : State) : Out :=
  .next (nodeStep s fe i 4 (fun s g n =>
    match nodeCond s fe i g n with
    | (.wait, s) => (.wait, s)
    | (.err e, s) => (.err e, s)
    | (.ok b, s) =>
      let it := mgetD g.iters i 0
      if !b then (.ok (fun g => startNodes { g with iters := msetD g.iters i 0 0 } [(nodeNext n).2]), s)
      else if it < fldN (dwAt n 4) 32 32 then
        (.ok (fun g => startNodes { g with iters := msetD g.iters i (it + 1) 0 } [(nodeNext n).1]), s)
      else (.err eGraph, s)))

/-- R433 JOIN node: an arrival. -/
def execGraphJoinNode (fe i : Nat) (s : State) : Out :=
  .next (nodeStep s fe i 5 (fun s g n =>
    let c := mgetD g.joins i 0 + 1
    if c = fldN (dwAt n 0) 8 8 then (.ok (fun g => startNodes { g with joins := msetD g.joins i 0 0 } [(nodeNext n).1]), s)
    else (.ok (fun g => { g with joins := msetD g.joins i c 0 }), s)))

/-- R433 END node. -/
def execEndNode (fe i : Nat) (s : State) : Out :=
  .next (nodeStep s fe i 6 (fun s _ _ => (.ok (fun g => { g with ending := true }), s)))

/-- A node's work has completed: its successors become ready (R433). -/
def nodeDone (s : State) (fe i work : Nat) : State :=
  match (feOf s fe).graph with
  | none => s
  | some g =>
    match g.running.find? (fun n => n.i == i && n.work == work) with
    | none => s
    | some n => graphCheck (updGraph s fe (fun g => startNodes { g with running := g.running.erase n } [n.next0, n.next1])) fe

/-! ### Completions (R289, R421) -/

/-- A completion's changes at the front end: its interrupt, its frequencies, its packet, node or pair. -/
def gridEnds (s : State) (lid : Nat) (l : Launch) : State :=
  let s := { s with launches := mupd s.launches lid (fun l => { l with done := true }) }
  let s := resetPower (completionIrq s l.fe l.queue) l
  match l.node with
  | some i => nodeDone s l.fe i lid
  | none =>
    let s := if l.prologue then updQueue s l.fe l.queue (fun u =>
        { u with pair := u.pair.map (fun p => { p with again := true, iter := p.iter + 1 }) }) else s
    workDone s l.fe l.queue l.idx lid

/-- R421 GRID_COMPLETION. -/
def execGridCompletion (launch : Nat) (s : State) : Out :=
  .next (match mget s.launches launch with
    | none => s
    | some l =>
      if l.done || l.next < gridSize l || l.retired < gridSize l then s
      else
        match puts s l.fe l.queue (sigDown l.sig) (.grid launch) with
        | (.wait, s) => s
        | (.err e, s) => gridEnds (queueError s l.fe l.queue e l.idx) launch l
        | (.ok _, s) => gridEnds s launch l)

/-- Whether a destination address of a copy, in a space, lies in an S region or page (R123, R373). -/
def atS (s : State) (c : Copy) (space a : Nat) : Bool :=
  if space = 3 then fldN (copyRegion s c a) 0 2 == 0
  else if space = 4 then (match translate s (copyCtx s c) a .write false with | (.ok _ k, _) => k == .s | _ => false)
  else false

/-- Whether a copy still has an S part of its destination to write (R157): a part of its range, or a sector not written yet. -/
def writesS (s : State) (c : Copy) : Bool :=
  if c.fin.isSome then false
  else if c.moved.isEmpty then
    (copyDstRanges c).any (fun r =>
      let lo := r.2.1.toNat
      let hi := r.2.2.toNat
      (List.range ((hi - lo) / 65536 + 2)).any (fun j => atS s c r.1 (min (lo + 65536 * j) (hi - 1))))
  else (unitsLeft c).any (fun u => (dstSectors c u).any (fun k => !c.moved.contains k && atS s c (kindSpace (copyDst c).1) (16 * k)))

/-- Whether an earlier copy of the same group must write its S parts first (R157). -/
def earlierS (s : State) (id : Nat) (c : Copy) : Bool :=
  match c.owner with
  | .group loc =>
    s.work.any (fun w => decide (w.1 < id) && (match w.2 with
      | .copy x => x.owner == .group loc && x.err == 0 && writesS s x
      | _ => false))
  | _ => false

/-- Whether a copy's source can be read now: no page request outstanding, the accesses of R155 returned, its place among the
copies of its channel. -/
def copyReads (s : State) (id : Nat) (c : Copy) : Bool :=
  let ready := match pendLoc s id with
    | some loc => (match mget s.groups loc with | some g => sourceReady g id | none => true)
    | none => true
  c.page.isNone && (c.err != 0 || (ready && mayBegin s id c))

/-- Whether a copy can complete now: its source can be read, and its S parts are next in order (R157). -/
def copyMoves (s : State) (id : Nat) (c : Copy) : Bool :=
  copyReads s id c && !(writesS s c && earlierS s id c)

/-- The bytes of a source sector that a copy reads. -/
def sectorBytes (c : Copy) (k : Nat) : List Nat :=
  ((List.range 16).map (fun j => 16 * k + j)).filter (fun (a : Nat) => (allUnits c).any (fun u =>
    decide (u.2.2.1 ≤ (a : Int)) && decide ((a : Int) < u.2.2.1 + (unitOf c.tmpl * srcBits c.tmpl / 8 : Nat))))

/-- The bytes of a source sector read now: address and value; with the sector if it fails. None if one cannot be resolved. -/
def readSector (s : State) (c : Copy) : List Nat → Option (List (Nat × Byte) × Option Nat) × State
  | [] => (some ([], none), s)
  | a :: t =>
    match resolveRun s c (tSrck c.tmpl) a 1 false with
    | (.ok l, s) =>
      match readSector s c t with
      | (some r, s) => (some (l.map (fun x => (a, sourceC s c x)) ++ r.1, (l.findSome? (badC s)).or r.2), s)
      | (none, s) => (none, s)
    | (_, s) => (none, s)

/-- Source sectors are read, each once (R155, R289); none if a byte of one cannot be resolved. -/
def holdSectors (s : State) (c : Copy) : List Nat → Option Copy × State
  | [] => (some c, s)
  | k :: t =>
    if c.held.any (fun h => h.1 == k) then holdSectors s c t
    else
      match readSector s c (sectorBytes c k) with
      | (some r, s) => holdSectors s { c with held := c.held ++ [(k, r.1, r.2)], begun := true } t
      | (none, s) => (none, s)

/-- The block scales of rows are read, each once (R288, R289). -/
def holdScales (s : State) (c : Copy) (rows : List Nat) : Copy :=
  if tConv c.tmpl = 13 then rows.foldl (fun c r => { c with scales := mput c.scales r (rowScales s c r) }) c else c

/-- Whether a destination sector may be written before the copy's completion (R157): in a memory of the module, into lines that verify,
and, where it is of kind S, after every S sector below it and every earlier copy's. -/
def sectorMay (s : State) (id : Nat) (c : Copy) (k : Nat) (l : List CUnit) : Bool :=
  let sp := kindSpace (copyDst c).1
  sp != 0 && l.all (fun u => u.dst.all (fun d => (badC s d).isNone))
  && (!atS s c sp (16 * k) || (!earlierS s id c && (unitsLeft c).all (fun x => (dstSectors c x).all (fun j =>
      c.moved.contains j || decide (k ≤ j) || !atS s c sp (16 * j)))))

/-- A source sector of a copy is read, or a destination sector written from source sectors read by then, before the copy's completion,
if every unit up to it meets no error (R155, R157). -/
def sectorStep (s : State) (id : Nat) (c : Copy) (k : Nat) (wr : Bool) : State :=
  if !copyReads s id c || c.err != 0 || tReaders c.tmpl != 0 || c.sent.isSome || c.fin.isSome then s
  else
    let no (u : Nat × Nat × Int × Int) : Nat := unitNo c u.1 u.2.1
    let sec := (unitsLeft c).filter (fun u => (if wr then dstSectors c u else srcSectors c u).contains k)
    let last := sec.foldl (fun m u => max m (no u)) 0
    if sec.isEmpty || (wr && c.moved.contains k) then s
    else
      match scanUnits c ((unitsLeft c).filter (fun u => decide (no u ≤ last))) s [] with
      | (.ready l 0, t) =>
        match holdSectors t c (if wr then sec.flatMap (srcSectors c) else [k]) with
        | (some c, t) =>
          if !wr then { t with work := mput t.work id (.copy c) }
          else
            let mine := l.filter (fun u => sec.any (fun x => x.1 == u.row && x.2.1 == u.idx))
            if sectorMay t id c k mine then
              let r := moveSectors t (holdScales t c (mine.map (·.row))) [k] mine
              { r.2 with work := mput r.2.work id (.copy r.1) }
            else s
        | _ => s
      | _ => s

/-- One step of a copy before its completion (R155, R157, R162). -/
def copyStep (s : State) (id : Nat) (x : CStep) : State :=
  match mget s.work id with
  | some (.copy c) =>
    match x with
    | .start => if c.err = 0 && mayBegin s id c then { s with work := mput s.work id (.copy { c with begun := true }) } else s
    | .read n => sectorStep s id c n false
    | .write n => sectorStep s id c n true
  | _ => s

/-- A copy that has read its source completely no longer counts for fences (R161). -/
def localDone (s : State) (id : Nat) : State :=
  match pendLoc s id with
  | some loc => updGroup s loc (fun g => { g with pend := g.pend.map (fun p => if p.id = id then { p with cov := 0 } else p) })
  | none => s

/-- The status word that a copy of a queue leaves at its end (R425). -/
def statusPut (stat : Nat) (v : W64) : List Put := if stat = 0 then [] else [.bytes stat (leBytes 8 v.toNat)]

/-- A copy's owner without its status word or its signal, whose access has failed (R507). -/
def dropPuts (o : Owner) (stat sig : Bool) : Owner :=
  match o with
  | .group l => .group l
  | .packet fe q idx x y => .packet fe q idx (if stat then 0 else x) (if sig then 0 else y)
  | .node fe q idx i x y => .node fe q idx i (if stat then 0 else x) (if sig then 0 else y)

/-- The queue, packet index, node and words to write of a copy that no group owns. -/
def ownerOf : Owner → Option (Nat × Nat × Nat × Option Nat × Nat × Nat)
  | .group _ => none
  | .packet fe q idx stat sig => some (fe, q, idx, none, stat, sig)
  | .node fe q idx i stat sig => some (fe, q, idx, some i, stat, sig)

/-- An error of the access to a copy's status word or signal, for the packet or graph that owns it (R507). -/
def ownerFails (s : State) (fe q idx id : Nat) (node : Option Nat) (e : Nat) : State :=
  if node.isSome && (feOf s fe).graph.any (fun g => g.running.any (fun n => n.work == id)) then graphFail s fe e
  else queueError s fe q e idx

/-- Whether an update at the end of a copy of a queue can be made: true or false, none while it waits; false is an error, which
takes its course at once. -/
def ownerReady (s : State) (fe q idx id : Nat) (node : Option Nat) (sig : Bool) (l : List Put) : Option Bool × State :=
  match placePuts fe q (.copy id sig) l s [] with
  | (.ok _, s) => (some true, s)
  | (.wait, s) => (none, s)
  | (.err e, s) => (some false, ownerFails s fe q idx id node e)

/-- R289 COPY_COMPLETION. -/
def execCopyCompletion (id : Nat) (s : State) : Out :=
  .next (match mget s.work id with
    | some (.copy c) =>
      if !copyMoves s id c then s
      else
        let c := { c with begun := true }
        let still (s : State) (c' : Copy) : State :=
          let s := { s with work := mput s.work id (.copy c') }
          if c'.sent.isSome && c.sent.isNone then localDone s id else s
        match ownerOf c.owner with
        | none =>
          match endCopy s id c with
          | (.still c', s) => still s c'
          | (.done st, s) =>
            deliver { s with work := mdel s.work id }
              { id := id, chan := some c.chan, status := st, lanes := [], flags := 0, queue := none }
        | some (fe, q, idx, node, stat, sig) =>
          let (r1, s) := ownerReady s fe q idx id node false (statusPut stat 0)
          let (r2, s) := ownerReady s fe q idx id node true (sigDown sig)
          match r1, r2 with
          | some w1, some w2 =>
            match endCopy s id { c with owner := dropPuts c.owner (!w1) (!w2) } with
            | (.still c', s) => still s c'
            | (.done st, s) =>
              let s := (puts { s with work := mdel s.work id } fe q ((if w1 then statusPut stat st else [])
                ++ (if w2 then sigDown sig else [])) (.copy id true)).2
              match node with
              | none => workDone s fe q idx id
              | some i => nodeDone s fe i id
          | _, _ => s
    | _ => s)

/-! ### The end of a waiting access (R393, R507) -/

/-- A waiting access of a queue whose page request has been resolved goes on: a queue signal at once, every other at its next step. -/
def accessRetried (s : State) (fe q : Nat) (who : QWho) : State := if who == .drain then queueDrained s fe q else s

/-- A waiting access of a queue whose resolution has failed: its update is not made, and the queue enters Error with FAULT (R393,
R507). -/
def accessFailed (s : State) (fe q : Nat) : QWho → State
  | .packet src => packetError s fe q src eFault
  | .drain =>
    queueError (updQueue s fe q (fun u => { u with sigDue := false })) fe q eFault (queueOf s fe q).lastIdx
  | .grid lid =>
    match mget s.launches lid with
    | some l => if l.done then s else gridEnds (queueError s fe q eFault l.idx) lid l
    | none => s
  | .spill lid => match mget s.launches lid with | some l => queueError s fe q eFault l.idx | none => s
  | .node _ => graphFail s fe eFault
  | .copy id sig =>
    match mget s.work id with
    | some (.copy c) =>
      match ownerOf c.owner with
      | some (_, _, idx, node, _, _) =>
        ownerFails { s with work := mput s.work id (.copy { c with owner := dropPuts c.owner (!sig) sig }) } fe q idx id node eFault
      | none => s
    | _ => s
  | .pair => endPair (queueError (freePrologue s fe) fe q eFault (queueOf s fe q).lastIdx) fe q

/-- Every access of a queue that waits on a resolved request ends its wait (R393). -/
def queuePageDone (s : State) (fe q id : Nat) (fail : Bool) : State :=
  let l := (queueOf s fe q).waits.filter (fun a => a.page == some id)
  if l.isEmpty then s
  else
    let s := updQueue s fe q (fun u => dropWaits u (fun a => a.page == some id))
    l.foldl (fun s a => if fail then accessFailed s fe q a.who else accessRetried s fe q a.who) s

end Sys2Proof.Machine
end

