-- ==== Sys2Proof/Machine/Sysc.lean ====
section
/-! DEFINITION. System calls (R328 to R330, R361, R439): posting an entry in the partition's ring, the service cores'
replies, allocation from an enclave's heap. -/

namespace Sys2Proof.Machine

/-- Physical address of the ring position of an entry (R328, R439). -/
def syscPos (f : FrontEnd) (seq : Nat) : Nat := fldN f.fering.toNat 16 30 * 65536 + 1024 * (seq % 2 ^ fldN f.fering.toNat 0 4)

/-- Status codes of a reply (R329). -/
def syscReply (status base : Nat) : W64 := w64 (2 ^ 56 * status + base)
def syOk : Nat := 0
def syExhausted : Nat := 1
def syBadarg : Nat := 2
def syNoservice : Nat := 3

/-- The bytes of an entry as posted (R328). -/
def syscImage (e : SysEntry) (width : Nat) : List Byte :=
  let lane (i : Nat) : W64 := ((e.todo.find? (fun x => x.1 == i)).map (·.2)).getD 0
  leBytes 8 (e.svc + (if e.wait then 256 else 0) + 512 * (if width = 16 then 0 else if width = 32 then 1 else 2)
      + 65536 * e.eid + 2 ^ 32 * (e.seq % 2 ^ 32))
  ++ leBytes 8 (maskOf (e.todo.map (·.1))).toNat ++ leBytes 8 e.deadline
  ++ leBytes 8 (locCore e.loc + 65536 * locSq e.loc + 2 ^ 18 * locPos e.loc) ++ leBytes 8 1 ++ List.replicate 24 0#8
  ++ (List.range 64).flatMap (fun i => leBytes 8 (lane i).toNat) ++ List.replicate 448 0#8

/-- Every lane of an entry is answered: its state becomes replied, the front end's interrupt bit rises, the pair vD of the
group receives the replies (R78, R328, R439). -/
def syscDone (s : State) (fe : Nat) (e : SysEntry) : State :=
  let pos := syscPos (feOf s fe) e.seq
  let s := { s with hbm := writeLe s.hbm (pos + 0x20) 8 2,
                    basalt := { s.basalt with replied := (s.basalt.replied + 1) % 65536 } }
  let s := updFe s fe (fun f => { f with irqSys := true, sysc := f.sysc.filter (fun x => x.seq != e.seq) })
  deliver s { id := e.id, chan := none, status := 0,
              lanes := e.replies.map (fun (x : Nat × W64) => (x.1, splitVal true x.2.toNat)), flags := 0, queue := none }

/-- Answers the lowest open lane of an entry (R329). -/
def syscAnswer (s : State) (fe : Nat) (e : SysEntry) (v : W64) : State :=
  match e.todo with
  | [] => s
  | (lane, _) :: t =>
    let pos := syscPos (feOf s fe) e.seq
    let s := { s with hbm := writeLe s.hbm (pos + 0x40 + 8 * lane) 8 v.toNat }
    let e' : SysEntry := { e with todo := t, replies := e.replies ++ [(lane, v)] }
    if t.isEmpty then syscDone s fe e'
    else updFe s fe (fun f => { f with sysc := f.sysc.map (fun x => if x.seq == e.seq then e' else x) })

/-- Answers every open lane of an entry with one status and address 0; the fuel bounds the lanes. -/
def syscAnswerAll : Nat → State → Nat → Nat → Nat → State
  | 0, s, _, _, _ => s
  | n + 1, s, fe, seq, status =>
    match (feOf s fe).sysc.find? (fun x => x.seq == seq) with
    | none => s
    | some e => syscAnswerAll n (syscAnswer s fe e (syscReply status 0)) fe seq status

/-- Whether the service cores serve a partition's ring (R361). -/
def served (s : State) (part : Nat) : Bool := bit s.basalt.svctl part

/-- R328 sysc. -/
def execSysc (d a : Sel) (svc : BitVec 8) (wait : Bool) (t : BitVec 16) (s : State) : Out :=
  groupWord (.sysc d a svc wait t) s (fun s loc g sl =>
    let e := live g sl
    let fe := groupPart s g
    let f := feOf s fe
    if e == 0 then .done s
    else if counterFull s .syscall 1 || f.sysc.any (fun x => syscPos f x.seq == syscPos f f.seq) then .stall s
    else
      let args := (lanesOf e g.width).map (fun i => (i, vRead64 s loc g sl a i))
      let (id, s) := issueWork s (some .syscall) (.vec d 2) e .wait
      let x : SysEntry :=
        { seq := f.seq, loc := loc, id := id, eid := groupEid s g, svc := svc.toNat, wait := wait,
          deadline := if wait then s.time + 1024 * t.toNat else 0, todo := args, replies := [] }
      let s := linesWritten { s with hbm := writeBytes s.hbm (syscPos f f.seq) (syscImage x g.width) } (syscPos f f.seq) (syscImage x g.width).length
      let s := updFe s fe (fun f => { f with sysc := f.sysc ++ [x], seq := (f.seq + 1) % 2 ^ 32 })
      .done (if served s fe && svc.toNat < 2 then s else syscAnswerAll 64 s fe x.seq syNoservice))

/-- Size of the block that serves a request (R329). -/
def blockSize (size : Nat) : Nat := 2 ^ ((List.range 41).find? (fun n => max size 256 ≤ 2 ^ n)).getD 40

/-- Whether a block at an address is aligned, in the heap and free (R329). -/
def heapFits (eid : Nat) (e : Enclave) (size b : Nat) : Bool :=
  let h := Config.heapSpan eid
  b % size == 0 && decide (h.1 ≤ b) && decide (b + size ≤ h.1 + h.2) && decide (b + size ≤ 2 ^ 55)
  && e.heap.all (fun x => decide (x.1 + x.2 ≤ b) || decide (b + size ≤ x.1))

/-- A free place for a block in an enclave's heap: the one that the service cores choose (log 27), else the first that fits after the
heap's base or after a block; none when no block fits. -/
def heapPlace (s : State) (eid : Nat) (e : Enclave) (size : Nat) : Option Nat :=
  let up (n : Nat) : Nat := (n + size - 1) / size * size
  (Config.heapPick s.fresh size :: up (Config.heapSpan eid).1 :: e.heap.map (fun x => up (x.1 + x.2))).find? (heapFits eid e size)

/-- The entry of a ring whose next lane to serve is the one named (R329). -/
def syscNext (s : State) (fe seq lane svc : Nat) : Option (SysEntry × W64) :=
  match (feOf s fe).sysc.find? (fun x => x.seq == seq) with
  | some e =>
    match e.todo with
    | (l, v) :: _ => if l = lane && e.svc = svc then some (e, v) else none
    | [] => none
  | none => none

/-- ALLOC of the next lane of an entry (R329): a request that finds no block waits if it may, else it is answered with EXHAUSTED
(R330). -/
def allocLane (s : State) (fe : Nat) (e : SysEntry) (v : W64) (may : Bool) : State :=
  if v.toNat = 0 || 2 ^ 40 < v.toNat then syscAnswer s fe e (syscReply syBadarg 0)
  else
    let size := blockSize v.toNat
    match mget s.basalt.enclaves e.eid with
    | none => syscAnswer s fe e (syscReply syExhausted 0)
    | some x =>
      let r := heapPlace s e.eid x size
      let s := (takeFresh s).2
      match r with
      | some b =>
        let x' : Enclave := { x with heap := mput x.heap b size }
        syscAnswer { s with basalt := { s.basalt with enclaves := mput s.basalt.enclaves e.eid x' } } fe e (syscReply syOk b)
      | none => if may then s else syscAnswer s fe e (syscReply syExhausted 0)

/-- FREE of the next lane of an entry (R329). -/
def freeLane (s : State) (fe : Nat) (e : SysEntry) (v : W64) : State :=
  if v.toNat = 0 then syscAnswer s fe e (syscReply syOk 0)
  else
    match mget s.basalt.enclaves e.eid with
    | none => syscAnswer s fe e (syscReply syBadarg 0)
    | some x =>
      if (mget x.heap v.toNat).isNone then syscAnswer s fe e (syscReply syBadarg 0)
      else
        let x' : Enclave := { x with heap := mdel x.heap v.toNat }
        syscAnswer { s with basalt := { s.basalt with enclaves := mput s.basalt.enclaves e.eid x' } } fe e (syscReply syOk 0)

/-- R329 ALLOC of a lane; a waiting request that finds no block stays (R330). -/
def execAlloc (fe seq lane : Nat) (s : State) : Out :=
  .next (match syscNext s fe seq lane 0 with
    | none => s
    | some (e, v) => allocLane s fe e v e.wait)

/-- R329 FREE of a lane. -/
def execFree (fe seq lane : Nat) (s : State) : Out :=
  .next (match syscNext s fe seq lane 1 with
    | none => s
    | some (e, v) => freeLane s fe e v)

/-- Serves every open lane of an entry for the last time, in ascending order; the fuel bounds the lanes. -/
def serveLast : Nat → State → Nat → Nat → State
  | 0, s, _, _ => s
  | n + 1, s, fe, seq =>
    match (feOf s fe).sysc.find? (fun x => x.seq == seq) with
    | none => s
    | some e =>
      match e.todo with
      | [] => s
      | (_, v) :: _ => serveLast n (if e.svc = 1 then freeLane s fe e v else allocLane s fe e v false) fe seq

/-- R330 SYSC_DEADLINE_EXPIRY: the lanes still open at the deadline are served one last time; a request that finds no block is answered
with EXHAUSTED. -/
def execSyscDeadlineExpiry (fe seq : Nat) (s : State) : Out :=
  .next (match (feOf s fe).sysc.find? (fun x => x.seq == seq) with
    | some e => if e.wait && e.deadline ≤ s.time then serveLast e.todo.length s fe seq else s
    | none => s)

end Sys2Proof.Machine
end

