-- ==== Sys2Proof/Machine/Special.lean ====
section
/-! DEFINITION. Special registers of groups, Quartz cores and prologue engines (R64 to R73, R352 to R356), the passing of
time (R3, R210, R354), interrupt sources (R358), and the stop ring (R440). -/

namespace Sys2Proof.Machine

/-! ### Time (R3) -/

/-- MHz of a Quartz, service or Basalt core (R354). -/
def quartzMhz (n : Nat) : Nat := if n < 32 then 3200 else (Config.serviceClock n).toNat

/-- n timestamp cycles pass: every clock advances by as many of its own cycles (R3, R210, R354; log 16). The cycles in which a sequencer
issues are its turns. -/
def passTime (s : State) (n : Nat) : State :=
  { s with
    time := s.time + n,
    cores := s.cores.map (fun c =>
      let k := n * coreMhz s c.1 / 1000
      (c.1, { c.2 with ticks := c.2.ticks + k })),
    quartz := s.quartz.map (fun q => (q.1, { q.2 with ticks := q.2.ticks + n * quartzMhz q.1 / 1000 })) }

/-- The same of a frozen module, in which Basalt's clock alone goes on (R505). -/
def passFrozen (s : State) (n : Nat) : State :=
  updQuartz s 36 (fun q => { q with ticks := q.ticks + n * quartzMhz 36 / 1000 })

/-! ### Interrupt sources (R358) -/

/-- Whether a front end has an unconsumed stop record (R440). -/
def stopPending (f : FrontEnd) : Bool := f.festop != 0 && f.stwr != f.strd

/-- Whether the debug port's source is pending on a core: an event record is not consumed, and the port's routing names that core, which
the spec leaves to the module (R358, R485; log 91). -/
def debugPending (d : Debug) (qn : Nat) : Bool := d.wr != d.rd && qn == Config.debugCore

/-- IPEND of a core (R358). -/
def ipend (s : State) (qn : Nat) : W64 :=
  match mget s.quartz qn with
  | none => 0
  | some q =>
    let here (f : FrontEnd) : Bool := f.irqCore == qn
    let b (n : Nat) (p : Bool) : Nat := if p then 2 ^ n else 0
    w64 (b 0 (decide ((srGet q 0 0x8A).toNat ≤ s.time))
      + b 1 (s.fes.any (fun f => here f.2 && (f.2.irqQ != 0 || stopPending f.2)))
      + b 2 (s.prq.head != s.prq.tail)
      + b 3 (s.fes.any (fun f => here f.2 && f.2.irqSys))
      + b 4 (!s.basalt.reports.isEmpty)
      + b 5 (bit s.bells qn)
      + b 6 (debugPending s.dbox qn))

/-! ### A group's special registers (R64 to R73) -/

/-- Value of a group's special register at a word's issue; none for an unlisted number. -/
def groupSr (s : State) (loc : Nat) (g : Group) (sl : Bool) (n : Nat) : Option W64 :=
  if n = 0 then some (live g sl)
  else if n = 1 then some (if sl then 1 else 0)
  else if n = 2 then some (w64 g.stack.length)
  else if n = 3 then some ((getSlot g sl).fmt.setWidth 64)
  else if n = 4 then some g.flags
  else if n = 5 then some g.flagsen
  else if n = 6 then some g.cause
  else if n = 7 then some g.caddr
  else if n = 8 then some (if g.preq then 1 else 0)
  else if n = 9 then some (if g.preq then w64 ((g.pdlAt - s.time) % 2 ^ 32) else 0)
  else if n = 10 then some (w64 ((coreOf s (locCore loc)).free + 65536 * g.allot))
  else if n = 11 then some g.shape
  else none

/-- CAUSE as mts stores it (R70): a code from 0xC0 on reads as 0xFF; one below that R320 does not list is kept as written (DESIGN
CHOICE, log 85). -/
def causeStored (v : W64) : W64 :=
  let x := v &&& 0x7FFF#64
  if 0xC0 ≤ x.toNat % 256 then x ||| 0xFF#64 else x

/-- A group with a special register written; none for a register that mts cannot write. An FMT image is checked before. -/
def groupSrWrite (g : Group) (sl : Bool) (n : Nat) (v : W64) : Option Group :=
  let p := getSlot g sl
  if n = 0 then some (setSlot g sl { p with exec := v &&& p.pm })
  else if n = 3 then some (setSlot g sl { p with fmt := v.setWidth 32 })
  else if n = 4 then some { g with flags := v &&& 0x3F#64 }
  else if n = 5 then some { g with flagsen := v &&& 0x3F#64 }
  else if n = 6 then some { g with cause := causeStored v }
  else if n = 7 then some { g with caddr := v &&& 0x3FFFFFFFFFFFFFF#64 }
  else none

/-! ### A Quartz core's special registers (R353, R355) -/

/-- The bank and number in which a privileged register is held (R355); L3 uses the bank of L2 (log 18). -/
def srHome (level n : Nat) : Nat × Nat :=
  if 0x91 ≤ n && n ≤ 0x97 then (1, n - 0x10)
  else if 0x81 ≤ n && n ≤ 0x87 then (if level = 1 then 1 else 2, n)
  else (0, n)

/-- Whether a number names a privileged register (R355). -/
def srListed (n : Nat) : Bool := (0x80 ≤ n && n ≤ 0x8F) || (0x91 ≤ n && n ≤ 0x97)

/-- Value of a Quartz core's special register; none for an unlisted number. KICK reads 0. -/
def quartzSr (s : State) (qn : Nat) (q : Quartz) (n : Nat) : Option W64 :=
  if n = 0x04 then some (if q.divzero then 2 else 0)
  else if n = 0x10 then some 0
  else if n = 0x11 then some (srGet q 0 0x11)
  else if n = 0x12 then some (srGet q 0 0x12 ||| w64 (qn % 32))
  else if n = 0x80 then some (w64 q.level)
  else if n = 0x88 then some (ipend s qn)
  else if srListed n then let h := srHome q.level n; some (srGet q h.1 h.2)
  else none

/-- Bits of a privileged register that a write stores; reserved bits ignore it (R8, R355, R356, R370, R371). -/
def srMask (n : Nat) : W64 :=
  if n = 0x82 then 0x00000FFFFFFF1FFF#64
  else if n = 0x85 then 7#64
  else if n = 0x87 then 1#64
  else if n = 0x8B then 0x800000000FFF0FFF#64
  else if n = 0x8C || n = 0x8E then 0x00003FFFFFFF0001#64
  else if n = 0x8D then 0xFFFF#64
  else if n = 0x8F then 0xF#64
  else BitVec.allOnes 64

/-- A Quartz core with a special register written; none where mts faults with ILLEGAL_REG. -/
def quartzSrWrite (q : Quartz) (n : Nat) (v : W64) : Option Quartz :=
  if n = 0x04 then some { q with divzero := bit v 1 }
  else if n = 0x80 || n = 0x88 || !srListed n then none
  else
    let h := srHome q.level n
    if h.2 = 0x81 && v.toNat % 8 != 0 then none
    else if h.2 = 0x8D && 0xF000 ≤ v.toNat % 65536 then none
    else some (srSet q h.1 h.2 (v &&& srMask h.2))

/-- R358 TCMP_WRITE. -/
def execTcmpWrite (q : Nat) (v : W64) (s : State) : Out := .next (updQuartz s q (fun c => srSet c 0 0x8A v))

/-- R358 TIMER_EXPIRY: the timestamp reaches a core's TCMP, and its timer source is pending from then on. -/
def execTimerExpiry (q : Nat) (s : State) : Out :=
  .next (match mget s.quartz q with
    | some c => passTime s ((srGet c 0 0x8A).toNat - s.time)
    | none => s)

/-! ### mfs, mts (R208, R353, R429) -/

/-- R208 mfs. -/
def execMfs (d : Sel) (num : BitVec 8) (s : State) : Out :=
  word (.mfs d num) s (fun s =>
    let v :=
      match s.agent with
      | .group loc sl => match mget s.groups loc with | some g => groupSr s loc g sl num.toNat | none => none
      | .quartz qn => match mget s.quartz qn with | some q => quartzSr s qn q num.toNat | none => none
      | .prologue n =>
        match mget s.fes n with
        | some f => if num.toNat = 4 then some (if f.pro.divzero then 2 else 0) else none
        | none => none
    match v with
    | some v => .done (writeReg s d v)
    | none => raise s cIllegalReg)

/-- R208 mts; a write of KICK is the launch request of R352. -/
def execMts (num : BitVec 8) (a : Sel) (s : State) : Out :=
  word (.mts num a) s (fun s =>
    let n := num.toNat
    let v := readReg s a
    match s.agent with
    | .group loc sl =>
      match mget s.groups loc with
      | some g =>
        if n = 3 && !fmtOk (v.setWidth 32) then raise s cReservedBits
        else
          match groupSrWrite g sl n v with
          | some g => .done (setGroup s loc g)
          | none => raise s cIllegalReg
      | none => raise s cIllegalReg
    | .quartz qn =>
      if n = 0x10 then
        match kickWrite s qn v with
        | some s => .done s
        | none => .stall s
      else
        match mget s.quartz qn with
        | some q =>
          match quartzSrWrite q n v with
          | some q => .done { s with quartz := mput s.quartz qn q }
          | none => raise s cIllegalReg
        | none => raise s cIllegalReg
    | .prologue n' =>
      if n = 4 then .done (updPro s n' (fun p => { p with divzero := bit v 1 })) else raise s cIllegalReg)

/-! ### The stop ring (R440) -/

/-- A stop record as it is written. -/
def stopImage (r : StopRec) (n : Nat) : List Byte :=
  leBytes 8 (r.code + 256 * r.eid + (if r.dbg then 2 ^ 20 else 0)) ++ leBytes 8 r.launch
  ++ leBytes 8 (r.team + 2 ^ 32 * r.num) ++ leBytes 8 r.loc ++ leBytes 8 (if r.dbg then r.caddr.toNat else 0)
  ++ leBytes 8 (if r.dbg then r.pc.toNat else 0) ++ leBytes 8 r.time ++ leBytes 8 n

/-- R440 STOP_RECORD_WRITE: the oldest waiting stop is written once the ring has room. -/
def execStopRecordWrite (fe : Nat) (s : State) : Out :=
  .next (
    let f := feOf s fe
    match f.stops with
    | [] => s
    | r :: t =>
      let n := fldN f.festop.toNat 0 4
      if f.festop == 0 || 2 ^ n ≤ (f.stwr + 2 ^ 16 - f.strd) % 2 ^ 16 then s
      else
        let pa := fldN f.festop.toNat 16 30 * 65536 + 64 * (f.stwr % 2 ^ n)
        let s := { s with hbm := writeBytes s.hbm pa (stopImage r f.stwr) }
        updFe s fe (fun f => { f with stops := t, stwr := (f.stwr + 1) % 2 ^ 16 }))

/-- A write of FESTRD (R440): a value above FESTWR is ignored. -/
def festrdWrite (s : State) (fe : Nat) (v : W64) : State :=
  updFe s fe (fun f => if f.stwr < v.toNat % 2 ^ 16 then f else { f with strd := v.toNat % 2 ^ 16 })

def execFestrdWrite (fe : Nat) (v : W64) (s : State) : Out := .next (festrdWrite s fe v)

/-- A write of FEIRQ (R412): acknowledges the bits written 1, and sets the target core. -/
def feirqWrite (s : State) (fe : Nat) (v : W64) : State :=
  updFe s fe (fun f => { f with irqQ := f.irqQ &&& ~~~v, irqSys := f.irqSys && !bit v 25, irqCore := fldN v.toNat 16 5 })

def execFeirqAck (fe : Nat) (v : W64) (s : State) : Out := .next (feirqWrite s fe v)

end Sys2Proof.Machine
end

