-- ==== Sys2Proof/Machine/QMem.lean ====
section
/-! DEFINITION. Memory words of Quartz cores and prologue engines (R347, R368), the privileged control words (R350, R351,
R357 to R359), invalidation (R362, R388, R390), and the page-request queue (R391 to R393). -/

namespace Sys2Proof.Machine

/-! ### ldm, stm, atomm (R368) -/

/-- The context in which the executing core or engine reaches memory (R347, R368). -/
def coreCtx (s : State) : Ctx :=
  match s.agent with
  | .quartz n => match mget s.quartz n with | some q => { quartzCtx s q with unit := .quartz n } | none => encCtx s 0
  | .prologue n => encCtx s (feOf s n).pro.eid
  | .group loc _ => match mget s.groups loc with | some g => groupCtx s loc g | none => encCtx s 0

/-- A translation fault of a core's access: a trap of a Quartz core (R357); a page request of an engine, which waits
(R391), or a fault of its routine. -/
def coreFault (s : State) (c : Ctx) (k st pg : Nat) (acc : Acc) (va : Nat) : Res :=
  let t : Trap := { code := k, lane := none, space := 4, addr := va, n := 0 }
  match s.agent with
  | .prologue n =>
    if pageCause k then
      match pageRequest s c k st pg acc with
      | (some id, s) => .park (updPro s n (fun p => { p with page := some id })) .position
      | (none, s) => .stall s
    else .trap s t 0 none false
  | _ => .trap s t st none false

/-- The frame of ldm, stm and atomm: alignment; the space, in which the sum of R10 does not wrap (R369); translation, verification
and the holds of S accesses (R108, R147, R385). -/
def coreAccess (s : State) (base index : W64) (off : Int) (size : Nat) (acc : Acc)
    (go : State → List MLoc → Kind → Res) : Res :=
  let ea := (base.toNat : Int) + index.toNat + off
  let va := wrapI 64 ea
  let c := coreCtx s
  if va % size != 0 then .trap s { code := cAlign, lane := none, space := 4, addr := va, n := 0 } 0 none false
  else if ea < 0 || (2 : Int) ^ 55 < ea + size then coreFault s c cNotmapped 1 (va / 65536) acc va
  else
    match translate s c va acc false with
    | (.wait, s) => .stall s
    | (.fault k st pg, s) => coreFault s c k st pg acc va
    | (.ok pa kind, s) =>
      if !lineOk s pa then .trap s { code := cIntegrity, lane := none, space := 4, addr := va, n := 0 } 0 none false
      else if kind == .s && (pendOf s).any (fun p => p.kind == .s && !p.returned) then .stall s
      else go s ((List.range size).map (fun j => .hbm (pa + j))) kind

/-- Puts an access of a core in flight; a fence naming no handle covers it (R141, R368). -/
def coreIssue (s : State) (kind : Kind) (order : Order) (dst : Dst) (act : Act) : Res :=
  let (id, s) := takeFresh s
  .done (addPend s { newPend id false none dst 0 act with kind := kind, order := order, cov := 0x100 })

/-- R368 ldm. -/
def execLdm (o : MOp) (s : State) : Out :=
  word (.ldm o) s (fun s =>
    coreAccess s (readReg s o.base) (readReg s o.index) (sextN 20 o.off.toNat) (MWidth.bytes o.wt) .read (fun s l kind =>
      coreIssue s kind .rlx (.scalar o.data) (.load o.wt [{ lane := 0, locs := l }])))

/-- R368 stm. -/
def execStm (o : MOp) (s : State) : Out :=
  word (.stm o) s (fun s =>
    coreAccess s (readReg s o.base) (readReg s o.index) (sextN 20 o.off.toNat) (MWidth.bytes o.wt) .write (fun s l kind =>
      coreIssue s kind .rlx .none (.store (l.zip (leBytes (MWidth.bytes o.wt) (readReg s o.data).toNat)))))

/-- R368 atomm. -/
def execAtomm (o : AOp) (s : State) : Out :=
  word (.atomm o) s (fun s =>
    coreAccess s (readReg s o.base) (readReg s o.index) 0 (if o.w64 then 8 else 4) .atomic (fun s l kind =>
      coreIssue s kind o.order (.scalar o.d) (.atomic o.op o.w64 false [({ lane := 0, locs := l }, readReg s o.data, 0)])))

/-! ### eret, wfi, halt (R351, R359) -/

/-- Whether a core still waits for deferred results (R351, R357). -/
def coreBusy (q : Quartz) : Bool := q.pend.any (fun p => !p.returned && p.dst != .none)

/-- A failed check of an eret that names a thread: a fault at the executing level (R351). Firmware cores halt (log 18). -/
def eretFault (s : State) (qn : Nat) (q : Quartz) (code addr : Nat) : Res :=
  if coreBusy q then .stall s
  else if 3 ≤ q.level then .keep { s with quartz := mput s.quartz qn { q with halted := true } }
  else .keep (quartzEntry s qn q.level code 0 false false (w64 addr) q.pc q.pc q.pc true false)

/-- A thread resumed from its save area (R351). -/
def resumeThread (s : State) (qn : Nat) (q : Quartz) (eid t : Nat) (f : List Byte) (soft : Bool) : State :=
  let tstat := (srGet q (srHome q.level 0x85).1 0x85).toNat
  let regs := frameRegs f 0x40 63
  let kept := q.s.filter (fun x => soft && decide (x.1 ≤ 8))
  let q := srSet q (srHome q.level 0x87).1 0x87 (w64 (fldN tstat 2 1))
  let q := srSet q 0 0x8B 0
  let q := srSet q 0 0x12 (w64 (2 ^ 16 * t + 2 ^ 32 * eid + 2 ^ 44))
  { s with quartz := mput s.quartz qn { q with
      s := if soft then (List.range 55).foldl (fun m j => sWrite m (j + 9) (sRead regs (j + 9))) kept else regs,
      k := frameRegs f 0x238 15, divzero := bitN (le64 f 0x10).toNat 0, level := 0, pc := le64 f 0x00 } }

/-- What Basalt writes into the save area of a new enclave's thread (R364, step 5): zeros, the entry as the pc of thread 0. -/
def tsaImage (e : Enclave) (t : Nat) : List Byte :=
  (if t = 0 then leBytes 8 e.entry else List.replicate 8 0#8) ++ List.replicate 1016 0#8

/-- A save area that encmk could not reach, the enclave's tables mapping no page yet, is written before its thread first runs (R364;
log 78). -/
def tsaFirst (s : State) (eid : Nat) (e : Enclave) (t : Nat) : State :=
  if e.tsaLeft.contains t then
    let r := writeVirt s (encCtx s eid) (tsaVa e t) (tsaImage e t)
    if r.1 then
      { r.2 with basalt := { r.2.basalt with
          enclaves := mput r.2.basalt.enclaves eid { e with tsaLeft := e.tsaLeft.filter (· != t) } } }
    else r.2
  else s

/-- R351: eret with ETHR.v = 1. -/
def eretThread (s : State) (qn : Nat) (q : Quartz) (ethr : Nat) : Res :=
  let eid := fldN ethr 0 12
  let t := fldN ethr 16 12
  let e? := mget s.basalt.enclaves eid
  let va := match e? with | some e => tsaVa e t | none => 0
  if fldN (srGet q (srHome q.level 0x85).1 0x85).toNat 0 2 != 0 then eretFault s qn q cPrivilege va
  else
    match e?.filter (fun e => decide (t < e.threads) && !e.ending) with
    | none => eretFault s qn q cOwnership va
    | some e =>
      match placeRun (tsaFirst s eid e t) (encCtx s eid) va 1024 .read true with
      | (.wait, s) => .stall s
      | (.fault k _ _, s) => eretFault s qn q k va
      | (.ok l, s) =>
        let f := readRuns s l
        let th := mgetD e.th t { expected := 0, soft := false }
        if !runsOk s l || fldN (le64 f 0x2B0).toNat 0 32 != th.expected then eretFault s qn q cIntegrity va
        else if coreBusy q then .stall s
        else .keep (resumeThread s qn q eid t f th.soft)

/-- R359 eret. The service cores and Basalt run at L3 and at no other level (R345), so an eret of theirs that would leave it raises
PRIVILEGE (log 18). -/
def execEret (s : State) : Out :=
  quartzWord .eret s (fun s qn q =>
    let ethr := (srGet q 0 0x8B).toNat
    if 3 ≤ q.level && (bitN ethr 63 || fldN (srGet q (srHome q.level 0x85).1 0x85).toNat 0 2 != q.level) then raise s cPrivilege
    else if bitN ethr 63 then eretThread s qn q ethr
    else
      let b := (srHome q.level 0x85).1
      let tstat := (srGet q b 0x85).toNat
      let plv := fldN tstat 0 2
      if q.level < plv then raise s cPrivilege
      else
        let q' := srSet q b 0x87 (w64 (fldN tstat 2 1))
        .keep { s with quartz := mput s.quartz qn { q' with level := plv, pc := srGet q b 0x84 } })

/-- R359 wfi: continues at PC + 8 once an IPEND bit is 1. -/
def execWfi (s : State) : Out :=
  quartzWord .wfi s (fun s qn _ => .done (if ipend s qn == 0 then updQuartz s qn (fun q => { q with parked := true }) else s))

/-- R359 WFI_WAKE. -/
def execWfiWake (q : Nat) (s : State) : Out :=
  .next (if ipend s q == 0 then s else updQuartz s q (fun c => { c with parked := false }))

/-- R359 halt. -/
def execHalt (s : State) : Out := quartzWord .halt s (fun s qn _ => .done (updQuartz s qn (fun q => { q with halted := true })))

/-! ### Entries (R357, R358) -/

/-- R357 QUARTZ_TRAP_ENTRY: a cause on a core is taken at its target level once its deferred results have returned. A
translation cause counts as met at stage one (log 1). -/
def execQuartzTrapEntry (q : Nat) (code : BitVec 8) (n : BitVec 16) (addr : W64) (s : State) : Out :=
  .next (match mget s.quartz q with
    | some c =>
      if c.halted || entryWaits s c then s
      else quartzCause s q { code := code.toNat, lane := none, space := 4, addr := addr.toNat, n := n.toNat } 1 false
    | none => s)

/-- The source and level of the interrupt that a core would take now: the lowest deliverable one (R358). -/
def deliverable (s : State) (qn : Nat) (q : Quartz) : Option (Nat × Nat) :=
  let p := ipend s qn
  ((List.range 7).map (fun n => (n, if bit (srGet q 0 0x89) n then 2 else 1))).find? (fun x =>
    bit p x.1 && (srGet q x.2 0x87) == 1 && decide (q.level ≤ x.2))

/-- R358 INTERRUPT_ENTRY. -/
def execInterruptEntry (q : Nat) (s : State) : Out :=
  .next (match mget s.quartz q with
    | some c =>
      if c.halted || entryWaits s c then s
      else
        match deliverable s q c with
        | some (n, x) =>
          let r := freeAddr s
          quartzEntry r.2 q x 0 n true false r.1 c.pc c.pc c.pc false false
        | none => s
    | none => s)

/-! ### Doorbells and reports (R361) -/

def doorbellRing (s : State) (c : Nat) : State := { s with bells := if c < 32 then s.bells ||| w64 (2 ^ c) else s.bells }
def doorbellClear (s : State) (q : Nat) : State := { s with bells := s.bells &&& ~~~(w64 (2 ^ q)) }

/-- R361 DOORBELL_RING. -/
def execDoorbellRing (c : Nat) (s : State) : Out := .next (doorbellRing s c)

/-- R361 DOORBELL_CLEAR. -/
def execDoorbellClear (q : Nat) (s : State) : Out := .next (doorbellClear s q)

/-- The oldest unread report, consumed; 0 when none is unread (R361). -/
def bmrepTake (s : State) : W64 × State :=
  match s.basalt.reports with
  | [] => (0, s)
  | r :: t => (r, { s with basalt := { s.basalt with reports := t, read := (s.basalt.read + 1) % 65536 } })

/-- R361 BMREP_READ. -/
def execBmrepRead (q : Nat) (s : State) : Out := .next (if (mget s.quartz q).isSome then (bmrepTake s).2 else s)

/-! ### tlbinv (R362, R388, R390) -/

/-- The frames of the held translations that an invalidation covers. -/
def coveredFrames (s : State) (p : Tlb → Bool) : List Nat := (s.tlb.filter p).map (·.frame)

/-- Whether an outstanding access of any unit touches one of a list of frames. -/
def framesBusy (s : State) (l : List Nat) : Bool := framesUsed s (fun _ f => l.contains f)

/-- Whether an access made through a covered translation that has since been replaced is still outstanding (R362). -/
def goneBusy (s : State) (p : Tlb → Bool) : Bool :=
  s.tlbGone.any (fun e => p e.1 && framesUsed s (fun id f => decide (id < e.2) && f == e.1.frame))

/-- Whether an invalidation can take effect now: no walk that it covers is exempt, and every access made through an entry that it covers
has been performed (R362, R382, R389). -/
def mayInvalidate (s : State) (p : Tlb → Bool) : Bool :=
  !ninthWalk s p && !framesBusy s (coveredFrames s p) && !goneBusy s p

/-- Whether frames can change their owner now (R382). -/
def mayReown (s : State) (l : List Nat) : Bool :=
  !framesBusy s l && mayInvalidate s (fun t => t.frames.any (fun f => l.contains f))

/-- Queues whose fetch is outstanding for a context that an invalidation tears down: of the enclave with the context tag b, of the
partition b, or all (R390). -/
def tornQueue (s : State) (kind b : Nat) (u : Queue) : Bool :=
  !u.waits.isEmpty && u.enc &&
    (match mget s.basalt.enclaves u.eid with
     | none => true
     | some e => if kind = 0 then 0xF000 + u.eid == b % 65536 else if kind = 2 then e.part == b % 16 else kind == 4)

/-- All queues of the package changed where a test holds. -/
def mapQueues (s : State) (p : Queue → Bool) (f : Queue → Queue) : State :=
  { s with fes := s.fes.map (fun e => (e.1, { e.2 with queues := e.2.queues.map (fun u => (u.1, if p u.2 then f u.2 else u.2)) })) }

/-- The marks of a teardown on outstanding fetches (R390). -/
def marked (u : Queue) : Bool := u.waits.all (fun a => a.torn.isSome)
def markFetch (now : Nat) (u : Queue) : Queue := { u with waits := u.waits.map (fun a => { a with torn := some (a.torn.getD now) }) }
def staleFetch (u : Queue) : Queue := dropWaits u (fun a => a.torn.isSome)

/-- One attempt of a tlbinv: none while it must wait (R362, R388, R390). The first attempt that finds outstanding fetches
of the context marks them; a later one finds them stale. -/
def tlbinvTry (s : State) (pend : List Pend) (kind a b : Nat) : Bool × State :=
  let torn := tornQueue s kind b
  let open_ := s.fes.any (fun e => e.2.queues.any (fun u => torn u.2 && !marked u.2))
  if !storesDone pend || !mayInvalidate s (tlbCovers kind a b) then (false, s)
  else if open_ then (false, mapQueues s torn (markFetch s.time))
  else (true, mapQueues (tlbDrop s kind a b) torn staleFetch)

/-- The frame of tlbinv. -/
def tlbinvWord (i : Instr) (kind : Nat) (a b : Sel) (s : State) : Out :=
  quartzWord i s (fun s _ q =>
    match tlbinvTry s q.pend kind (readReg s a).toNat (readReg s b).toNat with
    | (true, s) => .done s
    | (false, s) => .stall s)

/-- R362 tlbinv kind 0. -/
def execTlbinvAsid (a b : Sel) (s : State) : Out := tlbinvWord (.tlbinvAsid a b) 0 a b s
/-- R362 tlbinv kind 1. -/
def execTlbinvVa (a b : Sel) (s : State) : Out := tlbinvWord (.tlbinvVa a b) 1 a b s
/-- R362 tlbinv kind 2. -/
def execTlbinvVmid (a b : Sel) (s : State) : Out := tlbinvWord (.tlbinvVmid a b) 2 a b s
/-- R362 tlbinv kind 3. -/
def execTlbinvIpa (a b : Sel) (s : State) : Out := tlbinvWord (.tlbinvIpa a b) 3 a b s
/-- R362 tlbinv kind 4. -/
def execTlbinvAll (a b : Sel) (s : State) : Out := tlbinvWord (.tlbinvAll a b) 4 a b s

/-- R390 FETCHER_STALE_TIMEOUT: fetches still outstanding 64 µs after their teardown began are forced stale. -/
def execFetcherStaleTimeout (s : State) : Out :=
  .next (mapQueues s (fun _ => true) (fun u =>
    dropWaits u (fun a => match a.torn with | some t => decide (t + 64000 ≤ s.time) | none => false)))

/-! ### Walks and the page-request queue (R377, R391 to R393) -/

/-- The context of a unit. -/
def agentCtx (s : State) (ag : Agent) : Ctx := coreCtx { s with agent := ag }

/-- R377 TRANSLATION_WALK: a walk of a unit's context is made and its result held. -/
def execTranslationWalk (ag : Agent) (va : W64) (acc : Acc) (s : State) : Out :=
  .next (translate s (agentCtx s ag) va.toNat acc false).2

/-- R392 PAGE_REQUEST_ENTRY: a group that found no position replays its word once one is free. -/
def execPageRequestEntry (id : Nat) (s : State) : Out :=
  .next (updGroup s id (fun g =>
    let free (g : Group) (sl : Bool) : Group :=
      if (getSlot g sl).wait == .position && waitCleared s g sl then setSlot g sl { getSlot g sl with wait := .none } else g
    free (free g false) true))

/-- A write of PRQHEAD (R393): the entries that the head passes hold their positions no longer (R392). -/
def prqheadWrite (s : State) (v : W64) : State :=
  let q := s.prq
  let h := v.toNat % 2 ^ 13
  let n := (h + 2 ^ 13 - q.head) % 2 ^ 13
  if n ≤ prHeld q then
    { s with prq := { q with
        head := h,
        entries := q.entries.map (fun e => { e with passed := e.passed || decide ((e.idx + 2 ^ 13 - q.head) % 2 ^ 13 < n) }) } }
  else s

def execPrqheadWrite (v : W64) (s : State) : Out := .next (prqheadWrite s v)

/-- A group's page request has been resolved, or its resolution has failed: the handler's course (R324, R393). -/
def groupPageDone (s : State) (loc : Nat) (g : Group) (fail : Bool) : State :=
  match g.stop with
  | .page _ =>
    if !fail then setGroup s loc { g with stop := if g.handler && g.preq then .saving else .none }
    else
      let g := { g with stepping := false }
      if g.handler || groupHandler s g = 0 then stopForSystem (setGroup s loc g) loc (getSlot g g.stopSlot).pc
      else setGroup s loc { g with stop := .handler }
  | .frame _ => if fail then stopForSystem s loc (getSlot g g.stopSlot).pc else setGroup s loc { g with stop := .handler }
  | _ => s

/-- Work that waited on a resolved request goes on, or takes its failure (R291, R305). -/
def workPageDone (id code : Nat) (fail : Bool) : Work → Work
  | .copy c => if c.page == some id then .copy { c with page := none, pageFail := if fail then some code else none } else .copy c
  | .mvn m => if m.page == some id then .mvn { m with page := none, pageFail := if fail then some code else none } else .mvn m
  | .gath loc eid part lanes (some (p, lane)) failed =>
    if p = id then .gath loc eid part lanes none (if fail then failed ||| w64 (2 ^ lane) else failed)
    else .gath loc eid part lanes (some (p, lane)) failed
  | w => w

/-- Every waiter of a resolved request, of a fault of a code (R393). -/
def pageDone (s : State) (id code : Nat) (fail : Bool) : State :=
  let s := s.groups.foldl (fun s (e : Nat × Group) =>
    if e.2.stop == .page id || e.2.stop == .frame id then groupPageDone s e.1 e.2 fail else s) s
  let s := { s with work := s.work.map (fun (w : Nat × Work) => (w.1, workPageDone id code fail w.2)) }
  let s := s.fes.foldl (fun s (e : Nat × FrontEnd) =>
    e.2.queues.foldl (fun s (u : Nat × Queue) => queuePageDone s e.1 u.1 id fail) s) s
  s.fes.foldl (fun s (e : Nat × FrontEnd) =>
    if e.2.pro.page == some id then
      let s := updPro s e.1 (fun p => { p with page := none })
      if fail then prologueFail s e.1 else s
    else s) s

/-- A write of PRQDONE (R393): it resolves the unresolved entry of that seq which the head has passed; of a partition in reset it affects
nothing else (R446). -/
def prqdoneWrite (s : State) (v : W64) : State :=
  let q := s.prq
  let id := v.toNat % 2 ^ 32
  match q.entries.find? (fun e => e.seq == id) with
  | none => s
  | some e =>
    if !e.passed then s
    else
      let s := { s with prq := { q with entries := q.entries.filter (fun x => x != e) } }
      if (feOf s e.part).ferst != 0 then s else pageDone s id e.code (bit v 32)

def execPrqdone (v : W64) (s : State) : Out := .next (prqdoneWrite s v)

end Sys2Proof.Machine
end

