-- ==== Sys2Proof/Machine/Image.lean ====
section
/-! DEFINITION. The save image of a team (R403 to R406): its layout, its bytes, and the fields read back from them. -/

namespace Sys2Proof.Machine

/-! ### Layout (R404, R405) -/

/-- Offsets of the sections that follow the group records. -/
structure SaveLayout where
  tile : Nat
  mq1 : Nat
  shd : Nat
  shdEnd : Nat
  queue : Nat

/-- Bytes of one group record (R404). -/
def recStride (width : Nat) : Nat := 0x1100 + 1024 * width

/-- The sections of a team of g groups (R404). -/
def layoutOf (g : Nat) (l : Launch) : SaveLayout :=
  let recs := 0x800 + g * recStride l.width
  let tiles := if l.mx then (if l.pair then 0x100000 else 0x80000) else 0
  let two := l.mx && l.pair
  let shd := recs + tiles + (if two then 1024 else 0)
  { tile := if l.mx then recs else 0, mq1 := if two then recs + tiles else 0, shd := shd, shdEnd := shd + l.shared,
    queue := roundUp (shd + l.shared) 256 }

/-- A list of bytes brought to a length with zeros. -/
def padTo (n : Nat) (l : List Byte) : List Byte := l ++ List.replicate (n - l.length) 0#8

def widthCode (w : Nat) : Nat := if w = 16 then 0 else if w = 32 then 1 else 2

/-! ### Parts of the image -/

/-- A slot (R406); a Free one is zero. -/
def slotBytes (p : Slot) : List Byte :=
  if p.st == .free then List.replicate 48 0#8
  else
    leBytes 8 p.pc.toNat ++ leBytes 8 p.pm.toNat ++ leBytes 8 p.exec.toNat
    ++ leBytes 8 (match p.rpc with | some r => r.toNat | none => 1)
    ++ leBytes 8 (p.fmt.toNat + 2 ^ 32 * min p.spin 127 + 2 ^ 39 * SlotState.code p.st) ++ leBytes 8 p.target.toNat

/-- A requested region (R405). -/
def regionWord (r : Nat × Nat × Nat) : Nat := r.1 + 2 ^ 8 * r.2.1 + 2 ^ 32 * r.2.2

/-- The registers kept in a group's record: those of a yield, else the whole allotment (R398). -/
def keptRegs (g : Group) : Nat := if g.yielding then g.keep else g.allot

/-- Pending marks of registers from a scoreboard key on. -/
def markBits (keys : List Nat) (from_ n : Nat) : Nat :=
  ((List.range n).filter (fun j => keys.contains (from_ + j))).foldl (fun m j => m + 2 ^ j) 0

/-- A group record (R406). The pending marks are those of the late results. -/
def groupBytes (g : Group) : List Byte :=
  let keys := pendingKeys g.pend
  let late := min 255 (pathCount g.pend .copy) + 2 ^ 8 * min 255 (pathCount g.pend .engine)
    + 2 ^ 16 * min 255 (pathCount g.pend .syscall)
  let m := keptRegs g
  let head := slotBytes g.slot0 ++ slotBytes g.slot1
    ++ leBytes 8 (g.allot + 2 ^ 9 * m + 2 ^ 18 * g.base + 2 ^ 20 * g.stack.length + (if g.handler then 2 ^ 27 else 0)
        + (if isHusk g then 2 ^ 28 else 0) + (if g.stop == .system || isHalted g then 2 ^ 29 else 0) + 2 ^ 30 * g.donors.length)
    ++ [g.flags, g.flagsen, g.cause, g.caddr, g.shape].flatMap (fun x => leBytes 8 x.toNat)
    ++ leBytes 8 (regionWord g.region) ++ leBytes 8 g.spill.toNat ++ leBytes 8 late
    ++ leBytes 8 (markBits keys 0 64) ++ leBytes 8 (markBits keys 0x40 16) ++ leBytes 32 (markBits keys 256 256)
  let regs := regImage g.s g.k
    ++ (List.range 8).flatMap (fun n => leBytes 8 (getH g n).base.toNat ++ leBytes 8 (getH g n).desc.toNat)
  let recs := g.donors.flatMap (fun d =>
    leBytes 8 (d.g + (if d.slot then 256 else 0)) ++ leBytes 8 d.mask.toNat
    ++ leBytes 8 (match d.rpc with | some r => r.toNat | none => 1) ++ List.replicate 8 0#8)
  let reps := g.replay.flatMap (fun r =>
    leBytes 8 r.pc.toNat ++ leBytes 8 (maskOf (r.vals.map (·.1))).toNat
    ++ (List.range 64).flatMap (fun i =>
        match r.vals.find? (fun x => x.1 == i) with
        | some x => leBytes 8 ((x.2.getD 0 0).toNat + 2 ^ 32 * (x.2.getD 1 0).toNat)
        | none => List.replicate 8 0#8))
  let vecs := (List.range m).flatMap (fun j => (List.range g.width).flatMap (fun i => leBytes 4 (mgetD g.v (64 * j + i) 0).toNat))
  padTo (recStride g.width)
    (padTo 0x1100 (padTo 0x800 (padTo 0x400 (padTo 0x100 head ++ regs) ++ recs) ++ reps) ++ vecs)

/-- A scale address as recorded (R405). -/
def scaleWord (p : Option (Nat × Nat)) : Nat :=
  match p with
  | some (sp, a) => a % 2 ^ 32 + (if sp = 3 then 2 ^ 32 else 0) + 2 ^ 63
  | none => 0

/-- An operand address advanced by a number of steps (R299). -/
def stepAddr (a inc n : Nat) : Nat := (a % 2 ^ 32 + n * inc) % 2 ^ 32 + (if bitN a 32 then 2 ^ 32 else 0)

/-- An entry of a matrix-engine queue section (R405): the operation, its group's number and, of a drain, its place. -/
def matBytes (num qpos : Nat) (w : MatWork) : List Byte :=
  let first (op : Nat) (sp : Bool) : Nat := 1 + 2 * MatOp.tile w.op + (if sp then 64 else 0) + 2 ^ 7 * num + 2 ^ 12 * op
  padTo 64 (match w.op with
    | .zero _ => leBytes 8 (first 1 false) ++ leBytes 8 w.shape.toNat ++ leBytes 8 (regionWord w.region)
    | .loop _ a b incA incB step cnt m sp =>
      let mp := match m with
        | some h => stepAddr (h.base.toNat % 2 ^ 32 + (if hSpace h = 3 then 2 ^ 32 else 0)) (shM w.shape * (shKs w.shape / 8)) step
        | none => 0
      leBytes 8 (first 0 sp) ++ leBytes 8 w.shape.toNat ++ leBytes 8 (regionWord w.region)
      ++ leBytes 8 ((cnt - step) + 2 ^ 16 * step) ++ leBytes 8 (stepAddr a incA step) ++ leBytes 8 (stepAddr b incB step)
      ++ leBytes 8 (incA + 2 ^ 32 * incB) ++ leBytes 8 mp
    | .drain _ row col _ o sat _ =>
      leBytes 8 (first 2 false) ++ leBytes 8 w.shape.toNat ++ leBytes 8 (regionWord w.region) ++ leBytes 8 0
      ++ leBytes 8 (scaleWord row) ++ leBytes 8 (scaleWord col) ++ leBytes 8 (VTy.code o + (if sat then 64 else 0))
      ++ leBytes 8 qpos)

/-- Bytes per lane of a queue's elements (R406). -/
def elemLane (q : Nat) : Nat := if q = 0 then 4 else if q = 1 then 0 else if q = 2 then 16 else 8

/-- A queue element (R406). -/
def elemBytes (num q width : Nat) (e : QElem) : List Byte :=
  leBytes 8 (num + 2 ^ 8 * q) ++ leBytes 8 e.header.toNat
  ++ (if q = 1 then [] else (List.range width).flatMap (fun i =>
      padTo (elemLane q) (match e.lanes.find? (fun x => x.1 == i) with
        | some x => x.2.flatMap (fun w => leBytes 4 w.toNat)
        | none => [])))

/-- The tiles of a core (R404). -/
def tileBytes (t : KMap W32) : List Byte := (List.range 131072).flatMap (fun k => leBytes 4 (mgetD t k 0).toNat)

/-- The stack area of a group, oldest entry first (R37). -/
def stackBytes (g : Group) : List Byte := g.stack.reverse.flatMap stackEntry

/-- What an image is made of, beside the team and its launch. -/
structure ImageParts where
  seq : Nat
  time : Nat
  forced : Bool
  debug : Bool
  launch : Nat
  groups : List (Option Group)      -- by number; none when retired
  q0 : List (List Byte)             -- entries of the core's matrix queue
  q1 : List (List Byte)             -- and of the second core's
  tiles : List (KMap W32)
  elems : List (Nat × Nat × QElem)  -- group number, queue, element

/-- The image with a given tag (R404, R405). -/
def imageBytes (t : Team) (l : Launch) (p : ImageParts) (tag : Nat) : List Byte :=
  let lay := layoutOf p.groups.length l
  let queue := p.elems.flatMap (fun x => elemBytes x.1 x.2.1 l.width x.2.2)
  let head := leBytes 8 (1 + (if l.mx then 2 ^ 8 else 0) + (if t.pair then 2 ^ 9 else 0) + (if p.debug then 2 ^ 10 else 0)
      + 2 ^ 11 * widthCode l.width + 2 ^ 13 * (p.groups.length - 1) + 2 ^ 18 * l.eid + (if p.forced then 2 ^ 30 else 0))
    ++ leBytes 8 p.seq ++ leBytes 8 p.launch ++ leBytes 8 t.index
    ++ leBytes 8 lay.tile ++ leBytes 8 lay.shd ++ leBytes 8 lay.queue ++ leBytes 8 (lay.queue + queue.length)
    ++ leBytes 16 tag ++ leBytes 8 (l.shared + 2 ^ 32 * p.elems.length) ++ leBytes 8 p.time ++ leBytes 8 lay.mq1
  let bars := (List.range 16).flatMap (fun b =>
    let r := mgetD t.bars b noBar
    leBytes 8 (r.phase + 2 ^ 32 * r.count) ++ leBytes 8 r.arrived.toNat)
  let al := (List.range 16).flatMap (fun e =>
    let a := mgetD t.aliased e noAlias
    leBytes 8 a.bufa.toNat ++ leBytes 8 a.bufb.toNat ++ leBytes 8 a.ctl.toNat ++ List.replicate 8 0#8)
  padTo 0x100 head ++ bars ++ al ++ padTo 1024 p.q0.flatten
  ++ p.groups.flatMap (fun g => match g with | some g => groupBytes g | none => List.replicate (recStride l.width) 0#8)
  ++ (if l.mx then p.tiles.flatMap tileBytes else []) ++ (if lay.mq1 = 0 then [] else padTo 1024 p.q1.flatten)
  ++ padTo (lay.queue - lay.shd) ((List.range l.shared).map (fun a => readByte t.shared a)) ++ queue

/-- The bytes that the seal covers: all but the tag field (R403). -/
def sealedBytes (img : List Byte) : List Byte := img.take 0x40 ++ img.drop 0x50

/-! ### Reading an image back -/

/-- A slot read back, without its lent lanes. -/
def slotFrom (b : List Byte) : Slot :=
  let f := imgW b 0x20
  let st : SlotState := match fldN f 39 3 with
    | 1 => .running | 2 => .joined | 3 => .demoted | 4 => .lent | 5 => .regrouping | _ => .free
  if st == .free then freeSlot
  else
    { freeSlot with st := st, pc := le64 b 0, pm := le64 b 8, exec := le64 b 0x10,
                    rpc := if bit (le64 b 0x18) 0 then none else some (le64 b 0x18), fmt := w32 f, spin := fldN f 32 7,
                    target := le64 b 0x28 }

/-- The table of a run of n doublewords from number first on. -/
def tableFrom (b : List Byte) (off n first : Nat) : KMap W64 :=
  (List.range n).foldl (fun m j => msetD m (first + j) (le64 b (off + 8 * j)) 0) []

/-- The vector registers of a record: m registers of a width. -/
def vecFrom (b : List Byte) (m width : Nat) : KMap W32 :=
  (List.range m).foldl (fun t j => (List.range width).foldl (fun t i =>
    msetD t (64 * j + i) (w32 (leNat (part b (0x1100 + 4 * (width * j + i)) 4))) 0) t) []

/-- Words of four bytes of a list, numbered; the fuel bounds them. -/
def wordsFrom : Nat → Nat → List Byte → KMap W32
  | 0, _, _ => []
  | n + 1, k, l =>
    let v := w32 (leNat (l.take 4))
    if v == 0 then wordsFrom n (k + 1) (l.drop 4) else (k, v) :: wordsFrom n (k + 1) (l.drop 4)

/-- The group of a record on a launch (R406, R408): its stack and lent lanes from what was kept, vm and up zero. -/
def groupFrom (lid tid num : Nat) (l : Launch) (b : List Byte) (stack : List SEntry) (r : GRest) : Group :=
  let x := imgW b 0x60
  let g := newGroup l lid tid num (imgW b 0x98)
  let slot (off : Nat) (w : Wait) (sbit : Bool) (lent : KMap W64) : Slot := { slotFrom (part b off 48) with wait := w, sbit := sbit, lent := lent }
  let reg := imgW b 0x90
  let donor (j : Nat) : Donor :=
    let d := part b (0x400 + 32 * j) 32
    { g := fldN (imgW d 0) 0 5, slot := bitN (imgW d 0) 8, mask := le64 d 8,
      rpc := if bit (le64 d 0x10) 0 then none else some (le64 d 0x10), homes := r.homes.getD j [] }
  let s0 := slot 0 r.wait0 r.sbit0 r.lent0
  let s1 := slot 0x30 r.wait1 r.sbit1 r.lent1
  let reps := ((List.range 4).map (fun j => part b (0x800 + 0x210 * j) 0x210)).filter (fun c => imgW c 8 != 0)
  { g with
    s := tableFrom b 0x100 63 1, k := tableFrom b 0x2F8 15 1,
    v := vecFrom b (fldN x 9 9) l.width,
    h := (List.range 8).foldl (fun (m : KMap Handle) n =>
      let h : Handle := { base := le64 b (0x370 + 16 * n), desc := le64 b (0x378 + 16 * n) }
      msetD m n h noHandle) [],
    allot := fldN x 0 9, slot0 := s0, slot1 := s1,
    stack := (stack.zip (r.lents ++ List.replicate stack.length [])).map (fun e => { e.1 with lent := e.2 }),
    exited := r.exited, flags := le64 b 0x68, flagsen := le64 b 0x70, cause := le64 b 0x78, caddr := le64 b 0x80,
    causeN := r.causeN, shape := le64 b 0x88, region := (fldN reg 0 7, fldN reg 8 7, fldN reg 32 16), chan := r.chan,
    base := fldN x 18 2, eff := fldN x 18 2, settle := r.settle, handler := bitN x 27,
    stop := if r.halted then .halted true else if bitN x 29 then .system else .none, stopSlot := r.stopSlot,
    donors := (List.range (min 31 (fldN x 30 5))).map donor,
    replay := (reps.zip (r.replays ++ List.replicate 4 false)).map (fun x =>
      let c := x.1
      let mask := le64 c 8
      { pc := le64 c 0, slot := x.2,
        vals := (lanesOf mask 64).map (fun i => (i, [w32 (imgW c (0x10 + 8 * i)), w32 (imgW c (0x10 + 8 * i) / 2 ^ 32)])),
        sval := le64 c (0x10 + 8 * lowest mask 64) }),
    coll := r.coll, pass := r.pass, stepping := r.stepping }

/-- A recorded scale address read back. -/
def scaleFrom (x : Nat) : Option (Nat × Nat) := if bitN x 63 then some (if bitN x 32 then 3 else 2, x % 2 ^ 32) else none

/-- A recorded operation read back: its group's number, the operation under a number of its own, and a drain's place. -/
def matFrom (b : List Byte) (id loc : Nat) : MatWork × Nat :=
  let x := imgW b 0
  let t := fldN x 1 5
  let r := imgW b 0x10
  let shape := le64 b 8
  let op : MatOp :=
    if fldN x 12 3 = 1 then .zero t
    else if fldN x 12 3 = 2 then
      .drain t (scaleFrom (imgW b 0x20)) (scaleFrom (imgW b 0x28)) none ((vtyOf (fldN (imgW b 0x30) 0 6)).getD .f32)
        (bitN (imgW b 0x30) 6) 0
    else
      let done := fldN (imgW b 0x18) 16 16
      let inc := imgW b 0x30
      let back (a k : Nat) : Nat := (a % 2 ^ 32 - done * k) + (if bitN a 32 then 2 ^ 32 else 0)
      let m := back (imgW b 0x38) (shM shape * (shKs shape / 8))
      .loop t (back (imgW b 0x20) (inc % 2 ^ 32)) (back (imgW b 0x28) (inc / 2 ^ 32)) (inc % 2 ^ 32) (inc / 2 ^ 32) done
        (done + fldN (imgW b 0x18) 0 16)
        (if bitN x 6 then some { base := w64 (m % 2 ^ 32), desc := w64 ((if bitN m 32 then 3 else 2) * 2 ^ 40) } else none)
        (bitN x 6)
  ({ id := id, loc := loc, shape := shape, region := (fldN r 0 7, fldN r 8 7, fldN r 32 16), op := op },
   fldN (imgW b 0x38) 0 16)

/-- The elements of a queue section: group number, queue, header, the lanes' words. The fuel is their count. -/
def elemsFrom (width : Nat) : Nat → List Byte → List (Nat × Nat × W64 × List (List W32))
  | 0, _ => []
  | n + 1, b =>
    let x := imgW b 0
    let q := fldN x 8 2
    let k := elemLane q
    let lanes := (List.range (if q = 1 then 0 else width)).map (fun i =>
      (List.range (k / 4)).map (fun j => w32 (leNat (part b (16 + k * i + 4 * j) 4))))
    (fldN x 0 5, q, le64 b 8, lanes) :: elemsFrom width n (b.drop (16 + (if q = 1 then 0 else k * width)))

/-! ### Checks of an image (R407, LAYOUT) -/

/-- Whether a slot's reserved fields and codes are as R406 and R66 have them. -/
def slotLayoutOk (b : List Byte) : Bool :=
  fldN (imgW b 0x20) 42 22 == 0 && decide (fldN (imgW b 0x20) 39 3 ≤ 5) && fmtOk (w32 (fldN (imgW b 0x20) 0 32))

/-- Reserved fields and codes of SHAPE (R73). -/
def shapeLayoutOk (x : Nat) : Bool :=
  fldN x 48 15 == 0 && fldN x 21 11 == 0 && decide (fldN x 16 4 ≤ 5) && decide (fldN x 12 4 ≤ 5) && fldN x 2 2 != 3 && fldN x 0 2 != 3

/-- Reserved fields and codes of a handle's second doubleword (R62). -/
def handleLayoutOk (x : Nat) : Bool := fldN x 40 3 != 7 && fldN x 43 5 == 0 && fldN x 51 13 == 0

/-- Reserved fields of an operand address of a recorded operation (R299). -/
def addrLayoutOk (x : Nat) : Bool := fldN x 33 31 == 0

/-- Reserved fields of a scale address, bit 63 of which says that it is present (R405). -/
def scaleLayoutOk (x : Nat) : Bool := if bitN x 63 then fldN x 33 30 == 0 else x == 0

/-- Reserved fields of a group record. -/
def recordOk (b : List Byte) : Bool :=
  slotLayoutOk (part b 0 48) && slotLayoutOk (part b 0x30 48) && fldN (imgW b 0x60) 35 29 == 0
  && decide (fldN (imgW b 0x60) 20 7 ≤ 64)
  && fldN (imgW b 0x68) 6 58 == 0 && fldN (imgW b 0x70) 6 58 == 0 && fldN (imgW b 0x78) 15 49 == 0 && fldN (imgW b 0x80) 58 6 == 0
  && shapeLayoutOk (imgW b 0x88)
  && regionOk (imgW b 0x90) && fldN (imgW b 0xA0) 24 40 == 0 && fldN (imgW b 0xB0) 16 48 == 0 && zeroPart b 0xD8 40
  && (List.range 8).all (fun n => handleLayoutOk (imgW b (0x378 + 16 * n)))
  && (List.range 31).all (fun j => imgW b (0x400 + 32 * j) &&& (2 ^ 64 - 1 - 0x11F) == 0 && imgW b (0x418 + 32 * j) == 0)
where
  regionOk (x : Nat) : Bool := fldN x 7 1 == 0 && fldN x 15 17 == 0 && fldN x 48 16 == 0

/-- Reserved fields and codes of a matrix-queue entry. -/
def matOk (b : List Byte) : Bool :=
  let x := imgW b 0
  x == 0 ||
  (fldN x 15 49 == 0 && decide (fldN x 12 3 ≤ 2) && recordOk.regionOk (imgW b 0x10) && shapeLayoutOk (imgW b 8)
   && (if fldN x 12 3 = 1 then !bitN x 6 && zeroPart b 0x18 40
       else if fldN x 12 3 = 2 then
         !bitN x 6 && imgW b 0x18 == 0 && scaleLayoutOk (imgW b 0x20) && scaleLayoutOk (imgW b 0x28) && fldN (imgW b 0x30) 7 57 == 0
         && fldN (imgW b 0x38) 16 48 == 0
       else
         fldN (imgW b 0x18) 32 32 == 0 && addrLayoutOk (imgW b 0x20) && addrLayoutOk (imgW b 0x28)
         && (if bitN x 6 then addrLayoutOk (imgW b 0x38) else imgW b 0x38 == 0)))

/-- Reserved fields of the queue elements of an image: their headers, and the queues' own (R283, R406). The fuel is their count. -/
def elemsOk (width : Nat) : Nat → List Byte → Bool
  | 0, _ => true
  | n + 1, b =>
    let x := imgW b 0
    let h := imgW b 8
    let q := fldN x 8 2
    fldN x 5 3 == 0 && fldN x 10 54 == 0
    && (if q = 0 then fldN h 22 42 == 0 && fldN h 14 2 == 0 else if q = 3 then fldN h 16 48 == 0 && fldN h 0 8 == 0 else true)
    && elemsOk width n (b.drop (16 + (if q = 1 then 0 else elemLane q * width)))

/-- Reserved fields and codes of the whole image of a team of a launch (R405, R406). -/
def imageOk (img : List Byte) (l : Launch) : Bool :=
  let lay := layoutOf l.size l
  let recs := (List.range l.size).map (fun n => part img (0x800 + n * recStride l.width) (recStride l.width))
  let mats (off : Nat) : Bool := (List.range 16).all (fun j => matOk (part img (off + 64 * j) 64))
  fldN (imgW img 0) 0 8 == 1 && fldN (imgW img 0) 31 33 == 0 && fldN (imgW img 0) 11 2 != 3 && fldN (imgW img 0x18) 32 32 == 0
  && fldN (imgW img 0x50) 21 11 == 0 && fldN (imgW img 0x50) 48 16 == 0 && zeroPart img 0x68 0x98
  && (List.range 16).all (fun b => fldN (imgW img (0x100 + 16 * b)) 38 26 == 0 && fldN (imgW img (0x108 + 16 * b)) 32 32 == 0)
  && (List.range 16).all (fun e => imgW img (0x218 + 32 * e) == 0 && fldN (imgW img (0x210 + 32 * e)) 46 18 == 0)
  && mats 0x400 && (lay.mq1 == 0 || mats lay.mq1) && recs.all recordOk
  && elemsOk l.width (fldN (imgW img 0x50) 32 16) (img.drop lay.queue)

end Sys2Proof.Machine
end

