-- ==== Sys2Proof/Machine/Save.lean ====
section
/-! DEFINITION. Pre-emption, the save, late results, the restore and the front-end commands (R395 to R410, R438, R472,
R509). -/

namespace Sys2Proof.Machine

/-! ### Commands of a front end (R438) -/

def fcOk : Nat := 0
def fcSeal : Nat := 1
def fcLayout : Nat := 2
def fcOwner : Nat := 3
def fcNotfound : Nat := 4
def fcPending : Nat := 5

/-- A command is done: FECST holds its code and busy falls. -/
def feFinish (s : State) (fe code : Nat) : State := updFe s fe (fun f => { f with fecst := code, cmd := none })

/-- Whether a front end carries out a command now: it has no command in progress, or this very one (R438). -/
def feTakes (s : State) (fe : Nat) (same : FeCmd → Bool) : Bool :=
  match mget s.fes fe with
  | some f => (match f.cmd with | some c => same c | none => true)
  | none => false

/-- The command that a descriptor names; none when a field is reserved (R438). R438 does not say whether the fields of 0x20, which only
RESTORE and RESUME use, are reserved in the other commands: they are ignored there (DESIGN CHOICE, log 86). -/
def feCmdOf (b : List Byte) : Option FeCmd :=
  let op := fldN (imgW b 0) 0 4
  let x := imgW b 0x20
  if op = 0 || 3 < op || fldN (imgW b 0) 4 60 != 0 || fldN x 11 5 != 0 || fldN x 21 43 != 0 || !zeroPart b 0x28 24 then none
  else some { op := op, launch := imgW b 8, team := fldN (imgW b 0x10) 0 32, deadline := fldN (imgW b 0x10) 32 32,
              area := imgW b 0x18, core := fldN x 0 11, group := fldN x 16 5 }

/-- A write of FECMD: the descriptor is read through the writer's translation; a write while busy is ignored (R438). -/
def fecmdWrite (s : State) (qn fe : Nat) (v : W64) : State :=
  match mget s.quartz qn with
  | none => s
  | some q =>
    if (feOf s fe).cmd.isSome then s
    else
      let bad (s : State) : State := feFinish s fe fcNotfound
      if v.toNat % 64 != 0 then bad s
      else
        match placeRun s (quartzCtx s q) v.toNat 64 .read false with
        | (.ok l, s) =>
          if !runsOk s l then bad s
          else
            match feCmdOf (readRuns s l) with
            | some c => updFe s fe (fun f => { f with cmd := some c })
            | none => bad s
        | (_, s) => bad s

/-- The team that a command names, created by that front end. -/
def teamNamed (s : State) (fe lid idx : Nat) : Option (Nat × Team) :=
  s.teams.find? (fun t => t.2.launch == lid && t.2.index == idx
    && (match mget s.launches lid with | some l => l.fe == fe | none => false))

/-- Whether every page of a range is resident and lies in frames of a context's enclave, for an access (R397, R407, R472). -/
def pagesReady (c : Ctx) (acc : Acc) : List Nat → State → Bool × State
  | [], s => (true, s)
  | p :: t, s =>
    match translate s c (65536 * p) acc true with
    | (.ok _ _, s) => pagesReady c acc t s
    | (_, s) => (false, s)

/-- The pages from one offset of a save area to another. -/
def areaPages (area lo hi : Nat) : List Nat :=
  if hi ≤ lo then [] else (List.range ((hi - 1) / 65536 + 1 - lo / 65536)).map (fun j => area / 65536 + lo / 65536 + j)

/-- The frames behind a list of pages of a context, as far as they translate. -/
def pageFrames (s : State) (c : Ctx) (l : List Nat) : List Nat :=
  l.filterMap (fun p => match translate s c (65536 * p) .read true with | (.ok pa _, _) => some (pa / 65536) | _ => none)

/-- The end of the image that a team would leave now: its sections and the elements in its groups' queues (R404, R406). -/
def areaEnd (s : State) (t : Nat × Team) (l : Launch) : Nat :=
  (layoutOf t.2.groups.length l).queue + ((teamGroups s t.1).flatMap (fun e => (List.range 4).map (fun q =>
    (mgetD e.2.queue q []).length * (16 + if q = 1 then 0 else elemLane q * l.width)))).sum

/-- The end of the image that a save area holds, from its header; that of the sections before the queues when it holds none. -/
def imageEnd (s : State) (c : Ctx) (area : Nat) (l : Launch) : Nat :=
  let lay := layoutOf l.size l
  match placeRun s c area 0x100 .read true with
  | (.ok h, s) =>
    let size := imgW (readRuns s h) 0x38
    if size < lay.queue || lay.queue + 65536 * 1040 < size then lay.shdEnd else size
  | _ => lay.shdEnd

/-- R472: the frames of save areas that the front ends hold: of an accepted PREEMPT until its image is written, and of a
RESTORE until it reports. A save area reaches to the end of its queue section: of an image still to be written, of the elements now in
the queues (DEDUCED, log 10). -/
def heldFrames (s : State) : List Nat :=
  s.teams.flatMap (fun t =>
    match t.2.preempt, mget s.launches t.2.launch with
    | some (_, area), some l =>
      pageFrames s (encCtx s l.eid) (areaPages area.toNat 0 (areaEnd s t l))
    | _, _ => [])
  ++ s.fes.flatMap (fun f =>
    match f.2.cmd with
    | some c =>
      match mget s.launches c.launch with
      | some l =>
        let x := encCtx s l.eid
        if c.op = 2 then pageFrames s x (areaPages c.area 0 (imageEnd s x c.area l)) else []
      | none => []
    | none => [])

/-! ### PREEMPT (R397, R398) -/

/-- A slot in mwait is woken when PREQ becomes 1 (R313). -/
def wakeSlot (p : Slot) : Slot := match p.wait with | .mwait l v d _ => { p with wait := .mwait l v d true } | _ => p

/-- An accepted request: PREQ and PDL of every group at once (R398). A group in handler mode is saved as it stands, parked on a page
request or not. -/
def acceptPreempt (s : State) (tid : Nat) (deadline : Nat) (area : W64) : State :=
  let s := updTeam s tid (fun t => { t with preempt := some (s.time + deadline, area), imgFail := false })
  (teamGroups s tid).foldl (fun s (e : Nat × Group) => updGroup s e.1 (fun g =>
    { g with preq := true, pdlAt := s.time + deadline,
             slot0 := if g.preq then g.slot0 else wakeSlot g.slot0, slot1 := if g.preq then g.slot1 else wakeSlot g.slot1,
             stop := if g.handler && (g.stop == .none || (match g.stop with | .page _ => true | _ => false)) then .saving else g.stop })) s

/-- The code of a PREEMPT and the state after its checks. -/
def preemptCode (s : State) (fe lid idx : Nat) (area : W64) : Nat × Option Nat × State :=
  match teamNamed s fe lid idx, mget s.launches lid with
  | some (tid, t), some l =>
    if t.preempt.isSome && !t.imgFail then (fcPending, none, s)
    else if area.toNat % 65536 != 0 then (fcOwner, none, s)
    else
      match pagesReady (encCtx s l.eid) .write (areaPages area.toNat 0 (layoutOf t.groups.length l).shdEnd) s with
      | (true, s) => (fcOk, some tid, s)
      | (false, s) => (fcOwner, none, s)
  | _, _ => (fcNotfound, none, s)

/-- R397 PREEMPT. -/
def execPreempt (fe launch team deadline : Nat) (area : W64) (s : State) : Out :=
  .next (
    if !feTakes s fe (fun c => c.op == 1 && c.launch == launch && c.team == team && c.deadline == deadline
        && c.area == area.toNat) then s
    else
      match preemptCode s fe launch team area with
      | (k, some tid, s) => feFinish (acceptPreempt s tid (deadline % 2 ^ 32) area) fe k
      | (k, none, s) => feFinish s fe k)

/-! ### Reaching the save (R398, R399) -/

/-- Whether a group has reached its save: it has yielded or been forced, or is stopped (R398). -/
def reachedSave (g : Group) : Bool := g.stop == .saving || g.stop == .system || isHalted g

/-- Whether a group's scrsz is in progress, which every save waits for (R276, R399). -/
def scrszLeft (s : State) (loc : Nat) : Bool :=
  s.work.any (fun w => match w.2 with | .scrsz l _ _ _ res _ => l == loc && res.isNone | _ => false)

/-- The scrsz words of a stopped group whose change of W has ended complete: sD is written and the slot goes on after the word (R274,
R276). -/
def finishScrsz (s : State) (loc : Nat) : State :=
  s.work.foldl (fun s (w : Nat × Work) =>
    match w.2 with
    | .scrsz l _ _ sl (some v) d =>
      if l = loc then
        updGroup { s with work := mdel s.work w.1 } loc (fun g =>
          let p := getSlot g sl
          setSlot { gWrite g d v with settle := g.settle || p.sbit } sl { p with pc := p.pc + 8, sbit := false })
      else s
    | _ => s) s

/-- A slot forced at a word boundary: its word issues again, but for a barrier whose arrival stands and a regroup, which goes on
waiting (R399). -/
def forceSlot (p : Slot) : Slot :=
  match p.wait with
  | .barrier _ _ _ => p
  | _ => { p with wait := .none, sbit := p.sbit && p.st == .regrouping }

/-- A group forced to its save; its claim leaves the list (R399). -/
def forceGroup (s : State) (loc : Nat) (g : Group) : State :=
  if (g.stop == .none || (match g.stop with | .page _ => true | _ => false)) && !scrszLeft s loc then
    let s := updCore s (locCore loc) (fun c => { c with claims := c.claims.filter (fun k => k.loc != loc) })
    setGroup s loc { g with stop := .saving, slot0 := forceSlot g.slot0, slot1 := forceSlot g.slot1 }
  else s

/-- R398 FORCED_SAVE: the deadline has passed. -/
def execForcedSave (tid : Nat) (s : State) : Out :=
  .next (match mget s.teams tid with
    | some t =>
      match t.preempt with
      | some (dl, _) => if dl ≤ s.time then (teamGroups s tid).foldl (fun s (e : Nat × Group) => forceGroup s e.1 e.2) s else s
      | none => s
    | none => s)

/-! ### The drain and the image (R400, R401, R509) -/

/-- Whether outstanding work is left running over a save: copies that do not touch the team's shared memory, mvn, coll and
sysc (R400). -/
def lateWork (s : State) (p : Pend) : Bool :=
  p.act == .wait &&
  match mget s.work p.id with
  | some (.copy c) => tSrck c.tmpl != 3 && (copyDst c).1 != 3
  | some (.mvn _) => true
  | some _ => false
  | none => p.path == some .syscall
      || s.work.any (fun w => match w.2 with | .coll _ _ _ l => l.any (fun c => c.pend == p.id) | _ => false)

/-- Whether a group's work has drained: what is left is late, or a tile word in the core's queue (R400). -/
def drained (s : State) (loc : Nat) (g : Group) : Bool :=
  !scrszLeft s loc && g.pend.all (fun p => p.returned || lateWork s p || (matWork s (locCore loc) p.id).isSome)

/-- The pieces of a drain that are still to be pushed enter q0, whatever its capacity (R400). -/
def drainAll (s : State) (core : Nat) (w : MatWork) : State :=
  match mget s.groups w.loc, w.op with
  | some g, .drain t row col sc o sat next =>
    let scales := sc.getD (scaleBytes s w.loc g row w.region.1, scaleBytes s w.loc g col w.region.2.1)
    let es := (List.range (shM w.shape - next)).flatMap (fun j =>
      drainRow w (coreOf s core).tiles t (next + j) scales.1 scales.2 o sat g.width)
    let q := mgetD g.queue 0 []
    let placed := q.any (fun e => e.work == w.id && !e.ready)
    let s := updGroup s w.loc (fun g => { g with queue := msetD g.queue 0 (if placed then fillPlaces w.id q es else q ++ es) [] })
    let s := updCore s core (fun c => { c with mat := c.mat.filter (fun x => x.id != w.id) })
    engineDone s w.loc w.id 0
  | _, _ => s

/-- The tile words of a core in order: those not behind an mloop on their tile complete, the others are recorded, a drain with
the number of pieces of its group that stand before it (R400, R401). held lists the tiles of recorded loops. -/
def settleCore (core : Nat) : List MatWork → List Nat → State → List (MatWork × Nat) → State × List (MatWork × Nat)
  | [], _, s, out => (s, out)
  | w :: t, held, s, out =>
    let n := match mget s.groups w.loc with
      | some g => (((mgetD g.queue 0 []).takeWhile (fun e => e.work != w.id)).filter (·.ready)).length
      | none => 0
    match w.op with
    | .loop tile _ _ _ _ _ _ _ _ => settleCore core t (tile :: held) s (out ++ [(w, 0)])
    | .zero tile =>
      if held.contains tile then settleCore core t held s (out ++ [(w, 0)])
      else
        let s := updCore s core (fun c =>
          { c with mat := c.mat.filter (fun x => x.id != w.id), tiles := c.tiles.filter (fun e => e.1 / 4096 != tile) })
        settleCore core t held (engineDone s w.loc w.id 0) out
    | .drain tile _ _ _ _ _ _ =>
      if held.contains tile then settleCore core t held s (out ++ [(w, n)])
      else settleCore core t held (drainAll s core w) out

/-- The cores of a team. -/
def teamCores (t : Team) : List Nat := if t.pair then [t.core, t.core + 1] else [t.core]

/-- The part of a queue that is ready, from its head, and the rest (R402). Places of a recorded drain are passed over. -/
def readyPart (l : List QElem) : List QElem × List QElem := (l.takeWhile (·.ready), l.dropWhile (·.ready))

/-- The parts of q0 in the image: every piece, without the places that recorded drains hold. -/
def imageQueue (q : Nat) (l : List QElem) : List QElem := if q = 0 then l.filter (·.ready) else (readyPart l).1

/-- Whether a slot waits in a barrier whose phase has completed: its word is complete. -/
def barPassed (s : State) (g : Group) (sl : Bool) : Bool :=
  match (getSlot g sl).wait with
  | .barrier b ph _ => (teamBar s g.team b).phase != ph
  | _ => false

/-- A slot as it is saved: a barrier whose phase has completed is passed, the word of every other wait issues again, however the group
reached its save (R399). -/
def savedSlot (s : State) (g : Group) (sl : Bool) : Slot :=
  let p := getSlot g sl
  match p.wait with
  | .barrier _ _ _ => if barPassed s g sl then { p with wait := .none, pc := p.pc + 8, sbit := false } else p
  | _ => forceSlot p

/-- The work of a saved group that is outstanding: what is late, and what has returned behind it on its path (R134, R402). -/
def latePend (s : State) (g : Group) : List Pend := settlePaths (g.pend.filter (fun x => x.returned || lateWork s x))

/-- A group as it is saved: flags of every completed operation are in FLAGS, what is outstanding is late (R400, R402), and the settle
marker of a barrier word that has completed holds it (R79). -/
def savedGroup (s : State) (g : Group) : Group :=
  let fl := (List.range 4).foldl (fun f q => (imageQueue q (mgetD g.queue q [])).foldl (fun f e => f ||| e.flags) f) 0
  { g with slot0 := savedSlot s g false, slot1 := savedSlot s g true, flags := g.flags ||| w64 fl,
           settle := g.settle || [false, true].any (fun sl => barPassed s g sl && (getSlot g sl).sbit),
           pend := latePend s g }

/-- The lane set and registers per lane of an element (R282). -/
def elemLanes (e : QElem) : W64 × Nat := (maskOf (e.lanes.map (·.1)), e.regs)

/-- What hardware keeps of a saved group beside the image. -/
def restOf (g : Group) : GRest :=
  { settle := g.settle, coll := g.coll, halted := isHalted g, stopSlot := g.stopSlot, causeN := g.causeN, pass := g.pass,
    stepping := g.stepping,
    wait0 := g.slot0.wait, wait1 := g.slot1.wait, sbit0 := g.slot0.sbit, sbit1 := g.slot1.sbit,
    replays := g.replay.map (·.slot),
    lanes := [2, 3].map (fun q => (q, (imageQueue q (mgetD g.queue q [])).map elemLanes)), chan := g.chan, exited := g.exited,
    lent0 := g.slot0.lent, lent1 := g.slot1.lent, lents := g.stack.map (·.lent), homes := g.donors.map (·.homes) }

/-- The forwarding entry of a group with late results (R402). -/
def fwdOf (core eid lid idx : Nat) (g : Group) : Fwd :=
  { core := core, eid := eid, launch := lid, team := idx, group := g.num, place := none,
    ids := (g.pend.filter (fun p => !p.returned)).map (·.id), pend := g.pend, stored := [],
    rest := [1, 3].filterMap (fun q =>
      let r := (readyPart (mgetD g.queue q [])).2
      if r.isEmpty then none else some (q, r)) }

/-- Whether every core of a list has room for the forwarding entries of a team's groups (R402). -/
def fwdRoom (s : State) (gs : List (Nat × Group)) : Bool :=
  (gs.map (fun e => locCore e.1)).eraseDups.all (fun c =>
    decide ((s.fwd.filter (fun f => f.core == c)).length
      + (gs.filter (fun e => locCore e.1 == c && !(latePend s e.2).isEmpty)).length ≤ 64))

/-- Writes the stacks of a team's groups to their spill memory; a page fault is reported and the image waits (log 10). -/
def writeStacks (c : Ctx) : List (Nat × Group) → State → Bool × State
  | [], s => (true, s)
  | (loc, g) :: t, s =>
    let b := stackBytes g
    match placeRun s c (stackVa s g) b.length .write true with
    | (.ok l, s) => writeStacks c t (writeRuns s l b)
    | (.fault k st pg, s) => (false, if pageCause k then (pageRequest s c k st pg .write).2 else stopForSystem s loc 0)
    | (.wait, s) => (false, s)

/-- Writes whole lines over translated runs: they verify again (R384). -/
def writeWhole (s : State) (l : List (Nat × Nat)) (b : List Byte) : State :=
  mended (writeRuns s l b) l

/-- A saved team leaves its core: groups, claims, allotments and shared memory; its spill memory stays (R399, R403). -/
def releaseTeam (s : State) (tid : Nat) (t : Team) (gs : List (Nat × Group)) : State :=
  let s := { s with groups := s.groups.filter (fun e => !gs.any (fun x => x.1 == e.1)), teams := mdel s.teams tid }
  let s := placementResumes s ((mget s.launches t.launch).map (·.part))
  let s := (teamCores t).foldl (fun s c => updCore s c (fun k =>
    { k with claims := k.claims.filter (fun x => !gs.any (fun e => e.1 == x.loc)) })) s
  let mx := match mget s.launches t.launch with | some l => l.mx | none => false
  let s := if mx then (teamCores t).foldl (fun s c => updCore s c (fun k => { k with mat := [] })) s else s
  gs.foldl (fun s (e : Nat × Group) => freeBlocks s (locCore e.1) (poolBlocks (e.2.allot / 8) e.2.width)) s

/-- The parts of a team's image, once its work has settled. -/
def imageParts (s : State) (t : Team) (l : Launch) (gs : List (Nat × Group)) (m0 m1 : List (MatWork × Nat)) : ImageParts :=
  let num (loc : Nat) : Nat := match mget s.groups loc with | some g => g.num | none => 0
  { seq := t.seq + 1, time := s.time,
    forced := gs.any (fun e => e.2.stop == .saving && !e.2.yielding && !e.2.handler),
    debug := (match mget s.basalt.enclaves l.eid with | some e => e.debug | none => false), launch := t.launch,
    groups := (List.range t.groups.length).map (fun n => (gs.find? (fun e => e.2.num == n)).map (fun e => savedGroup s e.2)),
    q0 := m0.map (fun w => matBytes (num w.1.loc) w.2 w.1), q1 := m1.map (fun w => matBytes (num w.1.loc) w.2 w.1),
    tiles := (teamCores t).map (fun c => (coreOf s c).tiles),
    elems := gs.flatMap (fun e => (List.range 4).flatMap (fun q =>
      (imageQueue q (mgetD e.2.queue q [])).map (fun x => (e.2.num, q, x)))) }

/-- The nonce of a save's seal: EID, seq and 20 bits that end in 1 (R403). -/
def saveNonce (eid seq : Nat) : Nat := eid * 2 ^ 84 + seq % 2 ^ 64 * 2 ^ 20 + 1

/-- Seals and writes the image, makes the resume and forwarding entries, releases the team (R402, R403). -/
def writeImage (s : State) (tid : Nat) (t : Team) (l : Launch) (gs : List (Nat × Group)) (p : ImageParts)
    (runs : List (Nat × Nat)) : State :=
  let key := sealKey s l.eid
  let tag := (Config.gcmTag key (saveNonce l.eid p.seq) (sealedBytes (imageBytes t l p 0))).toNat
  let s := writeWhole s runs (imageBytes t l p tag)
  let entry : Saved :=
    { tid := tid, fe := l.fe, launch := t.launch, index := t.index, eid := l.eid, seq := p.seq, consumed := false,
      rest := gs.map (fun e => (e.2.num, restOf (savedGroup s e.2))) }
  let fs := (gs.map (fun e => fwdOf (locCore e.1) l.eid t.launch t.index (savedGroup s e.2))).filter (fun f => !f.pend.isEmpty)
  releaseTeam { s with saved := s.saved.filter (fun v => !(v.launch == t.launch && v.index == t.index)) ++ [entry],
                       fwd := s.fwd ++ fs } tid t gs

/-- The tile words of a team settled, and the parts of its image (R400, R401). -/
def settled (s : State) (tid : Nat) (t : Team) (l : Launch) : ImageParts × State :=
  let (s, m0) := settleCore t.core (if l.mx then (coreOf s t.core).mat else []) [] s []
  let (s, m1) := settleCore (t.core + 1) (if l.mx && t.pair then (coreOf s (t.core + 1)).mat else []) [] s []
  (imageParts s t l (teamGroups s tid) m0 m1, s)

/-- R509 IMAGE_TAKEN. Nothing of the tile words changes until the pages of the whole image are ready. -/
def execImageTaken (tid : Nat) (s : State) : Out :=
  .next (match mget s.teams tid with
    | none => s
    | some t =>
      match t.preempt, mget s.launches t.launch with
      | some (_, area), some l =>
        let gs := teamGroups s tid
        if t.imgFail || !gs.all (fun e => reachedSave e.2 && drained s e.1 e.2) || !fwdRoom s gs then s
        else
          let s := gs.foldl (fun s (e : Nat × Group) => finishScrsz s e.1) s
          let c := encCtx s l.eid
          match writeStacks c (teamGroups s tid) s with
          | (false, s) => s
          | (true, s) =>
            let size := (imageBytes t l (settled s tid t l).1 0).length
            match pagesReady c .write (areaPages area.toNat 0 size) s with
            | (false, s) =>
              let s := updTeam s tid (fun t => { t with imgFail := true })
              match (gs.find? (fun e => e.2.num == 0)).orElse (fun _ => gs.head?) with
              | some (loc, g) => recordStop s loc { g with num := 0 } cOwnership g.slot0.pc 0
              | none => s
            | (true, s) =>
              match placeRun s c area.toNat size .write true with
              | (.ok runs, s) =>
                let r := settled s tid t l
                writeImage r.2 tid t l (teamGroups r.2 tid) r.1 runs
              | (_, s) => s
      | _, _ => s)

/-! ### Late results (R402) -/

/-- A forwarding entry without a result that it has delivered; it is freed with its last one. -/
def fwdDone (l : List Fwd) (id : Nat) : List Fwd :=
  (l.map (fun f => { f with ids := f.ids.filter (fun x => x != id) })).filter (fun f => !f.ids.isEmpty)

/-- R402 LATE_RESULT_ARRIVAL: a result reaches its forwarding entry, which stores it while the group is held, 16 at most, and
else delivers it. The entry of an earlier save passes it on to that of the latest. -/
def execLateResultArrival (id : Nat) (s : State) : Out :=
  .next (match s.late.find? (fun r => r.id == id), s.fwd.reverse.find? (fun f => f.ids.contains id) with
    | some r, some f =>
      let s' := { s with late := s.late.filter (fun x => x.id != id) }
      match f.place with
      | some loc => { (applyResult s' loc r) with fwd := fwdDone s.fwd id }
      | none =>
        if 16 ≤ f.stored.length then s
        else { s' with fwd := s.fwd.map (fun x => if x == f then { x with stored := x.stored ++ [r] } else x) }
    | some _, none => { s with late := s.late.filter (fun x => x.id != id) }
    | none, _ => s)

/-! ### RESTORE (R407, R472) -/

/-- Whether a target core applies: in the partition, and for a pair the even core of a pair inside it (R407). -/
def targetOk (s : State) (fe core : Nat) (pair : Bool) : Bool :=
  let cs := partCores (feOf s fe)
  cs.contains core && (!pair || (core % 2 == 0 && cs.contains (core + 1)))

/-- The stacks of an image's groups read from their spill memory, or the code of a failed check (R407). -/
def readStacks (c : Ctx) (img : List Byte) (l : Launch) : List Nat → State → KMap (List SEntry) →
    Except Nat (KMap (List SEntry)) × State
  | [], s, out => (.ok out, s)
  | n :: t, s, out =>
    let b := part img (0x800 + n * recStride l.width) (recStride l.width)
    let k := fldN (imgW b 0x60) 20 7
    match placeRun s c (imgW b 0x98 + l.spill) (32 * k) .read true with
    | (.ok runs, s) =>
      if !runsOk s runs then (.error fcSeal, s)
      else
        let bytes := readRuns s runs
        let es := (List.range k).map (fun j => part bytes (32 * j) 32)
        if es.any (fun e => fldN (imgW e 0) 1 2 == 3 || fldN (imgW e 0x18) 32 32 != 0) then (.error fcLayout, s)
        else readStacks c img l t s (mput out n (es.map stackFrom).reverse)
    | (_, s) => (.error fcOwner, s)

/-- The checks of a RESTORE in order: its code, with the image and stacks when it is OK. -/
def restoreCheck (s : State) (fe lid idx : Nat) (area : W64) (core : Nat) :
    Except Nat (List Byte × KMap (List SEntry)) × State :=
  match s.saved.find? (fun v => v.fe == fe && v.launch == lid && v.index == idx), mget s.launches lid with
  | some v, some l =>
    if !targetOk s fe core l.pair then (.error fcNotfound, s)
    else
      match (mget s.basalt.enclaves l.eid).filter (fun e => !e.ending) with
      | none => (.error fcOwner, s)
      | some _ =>
        let c := encCtx s l.eid
        let lay := layoutOf l.size l
        if area.toNat % 65536 != 0 then (.error fcOwner, s)
        else
          match pagesReady c .read (areaPages area.toNat 0 lay.shdEnd) s with
          | (false, s) => (.error fcOwner, s)
          | (true, s) =>
            match placeRun s c area.toNat 0x100 .read true with
            | (.ok h, s) =>
              let size := imgW (readRuns s h) 0x38
              if size < lay.queue || lay.queue + 65536 * 1040 < size then (.error fcSeal, s)
              else
                match pagesReady c .read (areaPages area.toNat 0 size) s with
                | (false, s) => (.error fcOwner, s)
                | (true, s) =>
                  match placeRun s c area.toNat size .read true with
                  | (.ok runs, s) =>
                    let img := readRuns s runs
                    let tag := (Config.gcmTag (sealKey s l.eid) (saveNonce l.eid v.seq) (sealedBytes img)).toNat
                    if !runsOk s runs || v.consumed || imgW img 8 != v.seq || imgW img 0x10 != lid || imgW img 0x18 != idx
                        || leNat (part img 0x40 16) != tag then (.error fcSeal, s)
                    else if !imageOk img l then (.error fcLayout, s)
                    else
                      match readStacks c img l (List.range l.size) s [] with
                      | (.error k, s) => (.error k, s)
                      | (.ok st, s) => (.ok (img, st), s)
                  | (_, s) => (.error fcOwner, s)
            | (_, s) => (.error fcOwner, s)
  | _, _ => (.error fcNotfound, s)

/-- R407 RESTORE: with OK the resume entry's seq is consumed and the team waits to be placed. -/
def execRestore (fe launch team : Nat) (area : W64) (core : Nat) (s : State) : Out :=
  .next (
    if !feTakes s fe (fun c => c.op == 2 && c.launch == launch && c.team == team && c.area == area.toNat && c.core == core) then s
    else
      match restoreCheck s fe launch team area core with
      | (.error k, s) => feFinish s fe k
      | (.ok (img, st), s) =>
        let (id, s) := takeFresh s
        let r : Restore := { id := id, fe := fe, launch := launch, index := team, area := area.toNat, core := core, image := img, stks := st }
        let s := { s with saved := s.saved.map (fun v => if v.launch == launch && v.index == team then { v with consumed := true } else v) }
        feFinish (updFe s fe (fun f => { f with restores := f.restores ++ [r] })) fe fcOk)

/-- Inserts the places of recorded drains into a group's q0, each at its recorded place, in order (R408). -/
def insertPlaces (g : Group) (l : List QElem) : List (MatWork × Nat) → Nat → List QElem
  | [], _ => l
  | (w, q) :: t, moved =>
    let es := (List.range (shM w.shape * (64 / g.width))).map (fun _ => pendingElem w.id [] 1)
    insertPlaces g (l.take (q + moved) ++ es ++ l.drop (q + moved)) t (moved + es.length)

/-- The elements of one group and queue of an image, with the lane sets that were kept (R282, R408). -/
def elemsOf (l : List (Nat × Nat × W64 × List (List W32))) (r : GRest) (num q : Nat) : List QElem :=
  let mine := l.filter (fun x => x.1 == num && x.2.1 == q)
  (mine.zip ((mgetD r.lanes q []) ++ List.replicate mine.length (BitVec.allOnes 64, 1))).map (fun (x : (Nat × Nat × W64 × List (List W32)) × (W64 × Nat)) =>
    let n := x.1.2.2.2
    { work := 0, ready := true, last := q == 0 && bit x.1.2.2.1 13, header := x.1.2.2.1,
      lanes := ((List.range n.length).zip n).filterMap (fun (y : Nat × List W32) =>
        if q < 2 || bit x.2.1 y.1 then some (y.1, if q = 3 then y.2.take x.2.2 else y.2) else none),
      regs := x.2.2,
      flags := 0 })

/-- The recorded operations of one core of an image, with fresh numbers, at the locations of their groups. -/
def matsOf (img : List Byte) (off : Nat) (locs : KMap Nat) : List Nat → State → State × List (MatWork × Nat)
  | [], s => (s, [])
  | j :: t, s =>
    let b := part img (off + 64 * j) 64
    if imgW b 0 = 0 then matsOf img off locs t s
    else
      let (id, s) := takeFresh s
      let w := matFrom b id (mgetD locs (fldN (imgW b 0) 7 5) 0)
      let (s, l) := matsOf img off locs t s
      (s, w :: l)

/-- What an operation that re-enters reads: the operands that an mloop has left, the scales of a drain (R299, R302). -/
def matSources (w : MatWork) : List (List (Nat × Nat × Nat)) :=
  match w.op with
  | .zero _ => []
  | .loop _ _ _ _ _ step cnt _ _ =>
    (List.range 3).map (fun j => (List.range (enteringSteps cnt (shKs w.shape) w.region.2.2 - step)).flatMap (fun n =>
      ((stepRanges w (step + n))[j]?).toList))
  | .drain _ r c _ _ _ _ =>
    [(r.map (fun x => (x.1, x.2, w.region.1))).toList, (c.map (fun x => (x.1, x.2, w.region.2.1))).toList]

/-- The entry of an operation that re-enters, under the counters that cover what it reads (R127, R408). -/
def reenterPend (s : State) (g : Group) (w : MatWork) : Pend :=
  let l := matSources w
  { newPend w.id false (some .engine) .none 0 .wait with
    cov := rangesCover s g l.flatten, src := if l.all (·.isEmpty) then 0x100 else sourcesCover s g l }

/-- Recorded operations re-enter the engine of a core and raise their groups' engine counters (R408). -/
def reenter (s : State) (core : Nat) (l : List (MatWork × Nat)) : State :=
  let s := updCore s core (fun c => { c with mat := l.map (·.1) })
  let s := l.foldl (fun s (w : MatWork × Nat) => updGroup s w.1.loc (fun g => { g with pend := g.pend ++ [reenterPend s g w.1] })) s
  (l.map (fun w => w.1.loc)).eraseDups.foldl (fun s loc => updGroup s loc (fun g =>
    let mine := l.filter (fun w => w.1.loc == loc && (match w.1.op with | .drain _ _ _ _ _ _ _ => true | _ => false))
    { g with queue := msetD g.queue 0 (insertPlaces g (mgetD g.queue 0 []) mine 0) [] })) s

/-- The forwarding entry of a restored group is bound to its place and delivers what it stored (R402, R408). -/
def bindFwd (s : State) (lid idx : Nat) (loc num : Nat) : State :=
  match s.fwd.find? (fun f => f.launch == lid && f.team == idx && f.group == num && f.place.isNone) with
  | none => s
  | some f =>
    let s := updGroup s loc (fun g =>
      { g with pend := f.pend, queue := f.rest.foldl (fun q (x : Nat × List QElem) => msetD q x.1 (mgetD q x.1 [] ++ x.2) []) g.queue })
    let s := { s with fwd := s.fwd.map (fun x => if x == f then { x with place := some loc, stored := [] } else x) }
    f.stored.foldl (fun s (r : Late) => { (applyResult s loc r) with fwd := fwdDone s.fwd r.id }) s

/-- Places a checked team on its core (R407, R408). -/
def placeRestored (s : State) (r : Restore) (v : Saved) (l : Launch) : State :=
  let img := r.image
  let b (n : Nat) : List Byte := part img (0x800 + n * recStride l.width) (recStride l.width)
  let live := (List.range l.size).filter (fun n => !zeroPart (b n) 0 0x100)
  let noRest : GRest :=
    { settle := false, coll := [], halted := false, stopSlot := false, causeN := 0, pass := none, stepping := false, wait0 := .none, wait1 := .none,
      sbit0 := false, sbit1 := false, replays := [], lanes := [], chan := [], exited := 0, lent0 := [], lent1 := [], lents := [], homes := [] }
  let rest (n : Nat) : GRest := mgetD v.rest n noRest
  let els := elemsFrom l.width (fldN (imgW img 0x50) 32 16) (img.drop (layoutOf l.size l).queue)
  let gs := live.map (fun n =>
    let g := groupFrom r.launch v.tid n l (b n) (mgetD r.stks n []) (rest n)
    { g with queue := (List.range 4).foldl (fun (m : KMap (List QElem)) q => msetD m q (elemsOf els (rest n) n q) []) [] })
  let team : Team :=
    { newTeam l r.launch r.index r.core with
      seq := v.seq, retired := maskOf ((List.range l.size).filter (fun n => !live.contains n)),
      shared := writeBytes [] 0 (part img (layoutOf l.size l).shd l.shared),
      bars := (List.range 16).foldl (fun (m : KMap Bar) k =>
        let x := imgW img (0x100 + 16 * k)
        let bar : Bar := { phase := fldN x 0 32, count := fldN x 32 6, arrived := le64 img (0x108 + 16 * k) }
        msetD m k bar noBar) [],
      aliased := (List.range 16).foldl (fun (m : KMap Alias) k =>
        let a : Alias := { bufa := le64 img (0x200 + 32 * k), bufb := le64 img (0x208 + 32 * k), ctl := le64 img (0x210 + 32 * k) }
        msetD m k a noAlias) [] }
  let s := { s with teams := mput s.teams v.tid team }
  let (s, locs) := putGroups r.core l.pair (armGroups s l.eid r.launch r.index gs) s []
  let s := updTeam s v.tid (fun t => { t with groups := (List.range l.size).map (fun n => mgetD locs n 0) })
  let lay := layoutOf l.size l
  let tiles (s : State) (k : Nat) : State :=
    updCore s (r.core + k) (fun c => { c with tiles := wordsFrom 131072 0 (part img (lay.tile + 0x80000 * k) 0x80000) })
  let s := if l.mx then (if l.pair then tiles (tiles s 0) 1 else tiles s 0) else s
  let s := live.foldl (fun s n => bindFwd s r.launch r.index (mgetD locs n 0) n) s
  let (s, m0) := if l.mx then matsOf img 0x400 locs (List.range 16) s else (s, [])
  let (s, m1) := if lay.mq1 = 0 then (s, []) else matsOf img lay.mq1 locs (List.range 16) s
  let s := if l.mx then reenter s r.core m0 else s
  let s := if lay.mq1 = 0 then s else reenter s (r.core + 1) m1
  let die := coreDie r.core
  let cl := 8 * die + coreCluster r.core
  { s with launches := mupd s.launches r.launch (fun l =>
      { l with dieTeams := msetD l.dieTeams die (mgetD l.dieTeams die 0 ||| 2 ^ r.index) 0,
               used := if l.used.contains cl then l.used else l.used ++ [cl] }) }

/-- R407 RESTORE_PLACEMENT: the oldest waiting restore of a front end is placed once its resources are free. -/
def execRestorePlacement (id : Nat) (s : State) : Out :=
  .next (match (s.fes.flatMap (fun f => f.2.restores.take 1)).find? (fun r => r.id == id) with
    | none => s
    | some r =>
      match s.saved.find? (fun v => v.launch == r.launch && v.index == r.index), mget s.launches r.launch with
      | some v, some l =>
        let allot (n : Nat) : Nat := fldN (imgW r.image (0x800 + n * recStride l.width + 0x60)) 0 9
        let live := (List.range l.size).filter (fun n => !zeroPart r.image (0x800 + n * recStride l.width) 0x100)
        let d : Demand := { demandOf l with allots := live.map (fun n => (n, allot n)) }
        if fitsOn s d r.core then
          updFe (placeRestored s r v l) r.fe (fun f => { f with restores := f.restores.drop 1 })
        else s
      | _, _ => updFe s r.fe (fun f => { f with restores := f.restores.drop 1 }))

/-! ### RESUME (R396, R438) -/

/-- R438 FE_RESUME; a halted group that has been restored starts too (R488). -/
def execFeResume (fe launch team group : Nat) (s : State) : Out :=
  .next (
    if !feTakes s fe (fun c => c.op == 3 && c.launch == launch && c.team == team && c.group == group) then s
    else
      match (teamNamed s fe launch team).bind (fun t => (teamGroups s t.1).find? (fun e => e.2.num == group)) with
      | some (loc, g) =>
        if g.stop == .system || g.stop == .halted true then feFinish (setGroup s loc { g with stop := .none }) fe fcOk else feFinish s fe fcNotfound
      | none => feFinish s fe fcNotfound)

end Sys2Proof.Machine
end

