-- ==== Sys2Proof/Machine/Enclave.lean ====
section
/-! DEFINITION. The requests to Basalt (R363 to R367, R381 to R387, R447, R448): creating and ending an enclave, the four
operations of potreq with sealed pages, and the read of a halted group's state. -/

namespace Sys2Proof.Machine

/-! ### The frame of a request (R363) -/

def bsOk : Nat := 0
def bsNoslot : Nat := 1
def bsBaddesc : Nat := 2
def bsFramestate : Nat := 3
def bsNoenclave : Nat := 4
def bsDenied : Nat := 5
def bsTier : Nat := 6

/-- The answer of a request: enclave and code. -/
def bsWord (code eid : Nat) : W64 := w64 (code + 256 * eid)

/-- A core's word completes with a value that lands in its destination as a deferred result. -/
def answer (s : State) (d : Sel) (v : W64) : Res := .done (issueWork s none (.scalar d) 0 (.value [] v)).2

/-- What Basalt makes of a request: it waits; it is answered; its answer is still to come. -/
inductive Reply
  | wait
  | code (v : W64) (s : State)
  | later (s : State)

/-- A word that reads a 64-byte structure as an ldm reads and hands it to Basalt (R363, R446). -/
def requestWord (i : Instr) (d a : Sel) (s : State) (serve : State → Quartz → List Byte → Reply) : Out :=
  quartzWord i s (fun s _ q =>
    coreAccess s (readReg s a) 0 0 64 .read (fun s locs _ =>
      if (pendOf s).any (fun p => !p.returned && (pendLocs p).any (fun l => locs.contains l)) then .stall s
      else
        match serve s q (locs.map (readLoc s)) with
        | .code v s => answer s d v
        | .later s => .done (issueWork s none (.scalar d) 0 .wait).2
        | .wait => .stall s))

/-- Partition of the context in which a core executes (R372). -/
def callerPart (s : State) (q : Quartz) : Nat := (quartzCtx s q).part

/-- A Live enclave of a partition (R363, R447). -/
def liveIn (s : State) (eid part : Nat) : Option Enclave :=
  (mget s.basalt.enclaves eid).filter (fun e => !e.ending && e.part == part)

/-! ### encmk (R364) -/

/-- Frames of physical memory that exist: PA[39:16] (R452; log 6). -/
def frameExists (f : Nat) : Bool := decide (f < 2 ^ 24)

/-- Whether a creation descriptor has a reserved field set or a value out of range (R364). -/
def encmkBad (b : List Byte) : Bool :=
  let w0 := imgW b 0
  fldN w0 0 8 != 1 || fldN w0 9 7 != 0 || fldN w0 16 16 == 0 || decide (256 < fldN w0 16 16) || fldN w0 48 16 != 0
  || fldN (imgW b 8) 46 18 != 0 || imgW b 8 % 8 != 0 || fldN (imgW b 0x10) 32 32 != 0
  || imgW b 0x10 == 0 || decide (2 ^ 24 < imgW b 0x10) || decide (2 ^ 40 < imgW b 8 + 8 * imgW b 0x10)
  || fldN (imgW b 0x18) 55 9 != 0 || fldN (imgW b 0x20) 55 9 != 0 || imgW b 0x20 % 1024 != 0
  || fldN (imgW b 0x28) 55 9 != 0 || imgW b 0x30 != 0 || imgW b 0x38 != 0

/-- The lowest EID not in use (R447). -/
def freeEid (s : State) : Option Nat := (List.range 4096).find? (fun n => (mget s.basalt.enclaves n).isNone)

/-- The root of a new enclave: its IPA through the creator's stage one, if stage two takes that to a listed frame (R372). -/
def encmkRoot (s : State) (q : Quartz) (va : Nat) (frames : List Nat) : Option Nat :=
  let c := quartzCtx s q
  match stage1 c va false false true s ([], []) with
  | (.ok ipa _, s, _) =>
    match stage2 { c with root2 := some (partRoot2 s c.part) } ipa false false s ([], []) with
    | (.ok pa _, _, _) => if frames.contains (pa / 65536) then some ipa else none
    | _ => none
  | _ => none

/-- Writes the save areas of a new enclave; those that its tables do not map yet are written once they do (R364, step 5; log 78). -/
def writeTsas (s : State) (eid : Nat) (e : Enclave) : State :=
  let s := { s with basalt := { s.basalt with enclaves := mput s.basalt.enclaves eid { e with tsaLeft := List.range e.threads } } }
  (List.range e.threads).foldl (fun s t =>
    match mget s.basalt.enclaves eid with | some e => tsaFirst s eid e t | none => s) s

/-- Shale writes every line of a frame as zeros under its new key and version (R381). -/
def assignFrame (s : State) (frame : Nat) (o : Own) : State :=
  let s := setOwn (tlbDropFrame s frame) frame o
  freshFrame { s with hbm := zeroBytes s.hbm (65536 * frame) 65536 } frame

/-- Copies of an enclave's slot, in the 16 base dies or the 16 controllers (R383, R448). -/
def loadSlots (m : KMap Keys) (eid : Nat) (key : Keys) : KMap Keys := (List.range 16).foldl (fun m d => mput m (4096 * d + eid) key) m
def eraseSlots (m : KMap Keys) (eid : Nat) : KMap Keys := m.filter (fun x => x.1 % 4096 != eid)

/-- A new enclave with its frames, measurement, key and queues (R364, steps 2 to 5): the frames are assigned as ASSIGN does. -/
def makeEnclave (s : State) (part eid root : Nat) (b : List Byte) (frames : List Nat) : State :=
  let w0 := imgW b 0
  let s := frames.foldl (fun s f =>
    assignFrame s f { cls := 3, part := part, eid := eid, version := ((ownOf s f).version + 1) % 2 ^ 24, zeroed := false, rst := false }) s
  let meas := Config.sha384 (b ++ frames.flatMap (fun f => readBytes s.hbm (65536 * f) 65536))
  let e : Enclave :=
    { part := part, threads := fldN w0 16 16, th := [], queues := w64 (fldN w0 32 16), root := root, tsa := imgW b 0x20,
      entry := imgW b 0x28, debug := bitN w0 8, meas := meas, key := some (nextKeys s), ending := false, tsaLeft := [], heap := [] }
  let s := { s with basalt := { s.basalt with keys := s.basalt.keys + 4, enclaves := mput s.basalt.enclaves eid e,
                                              baseKeys := loadSlots s.basalt.baseKeys eid (nextKeys s),
                                              ctlKeys := loadSlots s.basalt.ctlKeys eid (nextKeys s) } }
  let s := updFe s part (fun f => { f with queues := f.queues.map (fun u =>
    (u.1, if bit e.queues u.1 then { u.2 with enc := true, eid := eid } else u.2)) })
  writeTsas s eid e

/-- R364: the answer of encmk. -/
def serveEncmk (s : State) (q : Quartz) (b : List Byte) : Reply :=
  let part := callerPart s q
  if (feOf s part).ferst != 0 then .wait
  else if encmkBad b then .code (bsWord bsBaddesc 0) s
  else
    let list := readBytes s.hbm (imgW b 8) (8 * imgW b 0x10)
    let pas := (List.range (imgW b 0x10)).map (fun i => imgW list (8 * i))
    let frames := pas.map (· / 65536)
    if pas.any (fun a => a % 65536 != 0 || !frameExists (a / 65536)) || !runsOk s [(imgW b 8, list.length)] then
      .code (bsWord bsBaddesc 0) s
    else
      match freeEid s with
      | none => .code (bsWord bsNoslot 0) s
      | some eid =>
        if frames.eraseDups.length != frames.length
            || frames.any (fun f => let o := ownOf s f; o.cls != 0 || !o.zeroed || o.part != part) then
          .code (bsWord bsFramestate 0) s
        else
          match encmkRoot s q (imgW b 0x18) frames with
          | none => .code (bsWord bsBaddesc 0) s
          | some root =>
            if !mayReown s frames then .wait
            else .code (bsWord bsOk eid) (makeEnclave s part eid root b frames)

/-- R364 encmk. -/
def execEncmk (d a : Sel) (s : State) : Out := requestWord (.encmk d a) d a s serveEncmk

/-! ### The end of an enclave (R365, R445, R447, R464, R470) -/

/-- A queue of an ended enclave: Error with KILLED unless Idle, its packets in progress gone, its grant cleared (R365, R413). -/
def killQueue (u : Queue) : Queue :=
  { u with state := if u.state == .idle then .idle else .error, err := if u.state == .idle then u.err else eKilled,
           errIdx := if u.state == .idle then u.errIdx else u.lastIdx, enc := false, eid := 0, kicks := [], calls := [],
           ringArms := [], cancelled := [], ahead := [], out := [], placing := none, holds := [], sigDue := false, waits := [],
           wait := .none, pair := none, spillUsed := [] }

/-- Whether work of an engine belongs to an enclave whose launches and groups are those of two tests. -/
def workOf (eid : Nat) (launch loc : Nat → Bool) : Work → Bool
  | .copy c => c.eid == eid
  | .mvn m => m.eid == eid
  | .gath _ e _ _ _ _ => e == eid
  | .coll l _ _ _ => launch l
  | .pub l _ _ => loc l
  | .scrsz l _ _ _ _ _ => loc l
  | .restore .. => false

/-- Bindings of root ports and stream entries of an ended enclave go to their error states (R464, R470). -/
def endLinks (s : State) (eid : Nat) : State :=
  { s with
    roots := s.roots.map (fun (r : Nat × RootPort) => (r.1, { r.2 with binds := r.2.binds.map (fun (b : Nat × Bind) =>
      let st := fldN b.2.lo.toNat 28 4
      (b.1, if fldN b.2.lo.toNat 16 12 = eid && (st = 2 || st = 3)
        then { b.2 with lo := w64 (setFld b.2.lo.toNat 28 4 4), key := none } else b.2)) })),
    ue := s.ue.map (fun (p : Nat × UePort) => (p.1, { p.2 with table := p.2.table.map (fun (x : Nat × Stream) =>
      (x.1, if stEid x.2 = eid && stState x.2 != 0 then { x.2 with lo := w64 (setFld x.2.lo.toNat 12 4 3) } else x.2)) })) }

/-- The groups and teams of a set of launches leave their cores at once, with nothing saved. -/
def dropTeams (s : State) (launch : Nat → Bool) : State :=
  let gs := s.groups.filter (fun e => launch e.2.launch)
  let tids := (s.teams.filter (fun t => launch t.2.launch)).map (·.1)
  let s := { s with groups := s.groups.filter (fun e => !launch e.2.launch), teams := s.teams.filter (fun t => !launch t.2.launch),
                    launches := s.launches.map (fun (l : Nat × Launch) => (l.1, { l.2 with waiting := false })) }
  let locs := gs.map (·.1)
  let back (c : Nat) : Nat :=
    ((gs.filter (fun e => locCore e.1 == c)).map (fun e => poolBlocks (e.2.allot / 8) e.2.width)).foldl (· + ·) 0
  let clean (n : Nat) (c : Core) : Core :=
    { c with claims := c.claims.filter (fun k => !locs.contains k.loc), mat := c.mat.filter (fun w => !locs.contains w.loc),
             free := c.free + back n }
  let drop (d : Die) : Die := { d with lines := d.lines.filter (fun l => !tids.contains l.team) }
  { s with cores := s.cores.map (fun c => (c.1, clean c.1 c.2)), dies := s.dies.map (fun d => (d.1, drop d.2)) }

/-- The frames of an enclave pass to the free class and to Shale (R365, step 5). -/
def releaseFrames (s : State) (eid : Nat) : State :=
  let fs := (s.basalt.own.filter (fun o => o.2.cls == 3 && o.2.eid == eid)).map (·.1)
  let s := fs.foldl (fun s f =>
    let o := ownOf s f
    let n : Own := { cls := 0, part := o.part, eid := 0, version := o.version, zeroed := false, rst := false }
    reown (tlbDropFrame s f) f n) s
  { s with shale := { s.shale with scrub := s.shale.scrub ++ fs.map (fun f => (f, some eid)) } }

/-- The entry of an ended enclave: its key slot and every copy of it are erased (R448); its EID is free at once when no frame of it is to be
scrubbed (R447). -/
def endEntry (s : State) (eid : Nat) : State :=
  let e := if s.shale.scrub.any (fun f => f.2 == some eid) then
    mupd s.basalt.enclaves eid (fun e => { e with ending := true, th := [], heap := [], queues := 0, key := none })
  else mdel s.basalt.enclaves eid
  { s with basalt := { s.basalt with enclaves := e, baseKeys := eraseSlots s.basalt.baseKeys eid,
                                      ctlKeys := eraseSlots s.basalt.ctlKeys eid } }

/-- Stores of an ended enclave's threads that are still on their way never land: its frames are scrubbed (R365, R394). -/
def dropStores (s : State) (eid : Nat) : State :=
  let mine (l : MLoc) : Bool := match l with
    | .hbm pa => let o := ownOf s (pa / 65536); o.cls == 3 && o.eid == eid
    | _ => false
  { s with quartz := s.quartz.map (fun (q : Nat × Quartz) =>
      (q.1, { q.2 with pend := q.2.pend.filter (fun p => p.returned || p.dst != .none || !(pendLocs p).any mine) })) }

/-- A core that runs a thread of an ended enclave: descheduled with its registers gone, an OWNERSHIP entry at L2 (R365; log
18). -/
def descheduleThreads (s : State) (eid : Nat) : State :=
  (s.quartz.filter (fun q => qInside q.2 && qEid q.2 == eid)).foldl (fun s (q : Nat × Quartz) =>
    let r := freeAddr s
    quartzEntry (updQuartz r.2 q.1 (fun c => { c with pend := [] })) q.1 2 cOwnership 0 false false r.1 q.2.pc q.2.pc q.2.pc true false) s

/-- R365: an enclave ends. -/
def killEnclave (s : State) (eid : Nat) : State :=
  match mget s.basalt.enclaves eid with
  | none => s
  | some e =>
    let fe := e.part
    let mine (n : Nat) : Bool := match mget s.launches n with | some l => l.eid == eid | none => false
    let locs := (s.groups.filter (fun g => mine g.2.launch)).map (·.1)
    let s := { s with basalt := { s.basalt with enclaves := mput s.basalt.enclaves eid { e with ending := true } } }
    let s := descheduleThreads s eid
    let s := updFe s fe (fun f =>
      let g := match f.graph with
        | some g => if ((mget f.queues g.queue).map (·.eid)) == some eid then none else some g
        | none => none
      { f with queues := f.queues.map (fun u => (u.1, if u.2.enc && u.2.eid == eid then killQueue u.2 else u.2)), graph := g,
               pro := if f.pro.eid == eid && f.pro.queue.isSome then resetPrologue else f.pro,
               stops := f.stops.filter (fun r => r.eid != eid), sysc := f.sysc.filter (fun x => x.eid != eid),
               restores := f.restores.filter (fun r => !mine r.launch) })
    let ids := (s.fwd.filter (fun f => f.eid == eid)).flatMap (·.ids)
    let dbg : Debug := { s.dbox with
      armed := s.dbox.armed.filter (fun a => a.eid != eid), watches := s.dbox.watches.filter (fun w => w.eid != eid) }
    let sh : Shale := { s.shale with recording := mdel s.shale.recording eid, wset := mdel s.shale.wset eid }
    let s := { s with
      work := s.work.filter (fun w => !workOf eid mine (fun l => locs.contains l) w.2),
      saved := s.saved.filter (fun v => v.eid != eid), fwd := s.fwd.filter (fun f => f.eid != eid),
      late := s.late.filter (fun r => !ids.contains r.id),
      dbox := dbg, shale := sh }
    let s := dropTeams s mine
    let s := { s with launches := s.launches.filter (fun l => l.2.eid != eid),
                      dies := s.dies.map (fun (d : Nat × Die) => (d.1, { d.2 with lines := d.2.lines.filter (fun l => l.eid != eid) })) }
    let s := { s with tlb := s.tlb.filter (fun t => t.tag != 0xF000 + eid), walks := s.walks.filter (fun w => w.c.tag != 0xF000 + eid) }
    let s := dropStores (endLinks s eid) eid
    endEntry (releaseFrames s eid) eid

/-- R365 enckill. -/
def execEnckill (d a : Sel) (s : State) : Out :=
  quartzWord (.enckill d a) s (fun s _ q =>
    let eid := (readReg s a).toNat % 4096
    let part := callerPart s q
    if (feOf s part).ferst != 0 then .stall s
    else
      match liveIn s eid part with
      | none => answer s d (bsWord bsNoenclave eid)
      | some _ => answer (killEnclave s eid) d (bsWord bsOk eid))

/-! ### Sealed pages (R386, R387) -/

/-- The level-3 leaf of a page in an enclave's stage one: its physical address, tables being reached as a walk reaches them. -/
def leafGo (c : Ctx) (x : Nat) (s : State) : Nat → Nat → Nat → Option Nat
  | 0, _, _ => none
  | n + 1, l, t =>
    match stage2 c (t + 8 * fldN x (lvlShift l) (lvlBits 1 l)) false false s ([], []) with
    | (.ok p _, _, _) =>
      if !ownOk s c .table1 p || !lineOk s p then none
      else
        let e := readLe s.hbm p 8
        if !pteV e then none
        else if l = 3 then (if pteTbl e then none else some p)
        else if pteTbl e && !pteBad 1 l e then leafGo c x s n (l + 1) (pteAddr e)
        else none
    | _ => none

/-- The leaf of a page of an enclave. -/
def leafOf (s : State) (eid va : Nat) : Option Nat :=
  let c := encCtx s eid
  match c.root1 with
  | some r => if va / 2 ^ 55 ≠ 0 then none else leafGo c va s 3 1 r
  | none => none

/-- A leaf with a tier and address field. -/
def leafSet (e tier addr : Nat) : Nat := setFld (setFld e 8 2 tier) 16 30 addr

/-- The header of a sealed image with its tag (R386). -/
def sealHeader (eid version va : Nat) (tag : BitVec 128) : List Byte :=
  leBytes 8 (eid + 2 ^ 12 * version) ++ leBytes 8 (va / 65536 * 65536) ++ leBytes 16 tag.toNat ++ List.replicate 32 0#8

/-- The nonce of a page's seal: EID, version, VA[54:16] and 21 zero bits (R386). -/
def pageNonce (eid version va : Nat) : Nat := eid * 2 ^ 84 + version * 2 ^ 60 + fldN va 16 39 * 2 ^ 21

/-- The sealed image of a page's bytes: 65,536 of ciphertext and the header. -/
def sealImage (key eid version va : Nat) (plain : List Byte) : List Byte :=
  let ct := Config.cipher key (pageNonce eid version va) plain
  let body := (List.range 65536).map (fun i => ct.getD i 0)
  body ++ sealHeader eid version va (Config.gcmTag key (pageNonce eid version va) body)

/-- The bytes of a page that a seal stands for. -/
def sealPlain (x : Seal) : List Byte := readBytes x.plain 0 65536

/-- Key of a far memory: 2^32 × kind + target, kind 4 pooled memory and 5 an NVMe namespace (R286, R366). -/
def farKey (tier target : Nat) : Nat := 2 ^ 32 * (4 + tier) + target

def farDown (s : State) (tier target : Nat) : Bool := s.unreachable.contains (4 + tier, target)

/-- An image written to a far memory. -/
def farWrite (s : State) (tier target loc : Nat) (l : List Byte) : State :=
  let k := farKey tier target
  { s with far := mput s.far k (writeBytes (mgetD s.far k []) loc l) }

/-- A page sealed under a version: its image goes to the far memory (R386). -/
def sealPage (s : State) (eid frame version va tier target loc : Nat) : State :=
  let key := sealKey s eid
  let plain := readBytes s.hbm (65536 * frame) 65536
  let x : Seal := { key := key, version := version, vpage := va / 65536, plain := writeBytes [] 0 plain }
  let s := { s with basalt := { s.basalt with seals := s.basalt.seals ++ [x] } }
  farWrite s tier target loc (sealImage key eid version va plain)

/-- What an image opens to: the page that this module sealed under that key, version and address when it is that very image,
else what the tag check of a foreign image gives (R387, log 9). -/
def openImage (s : State) (key eid version va : Nat) (img : List Byte) : Option (List Byte) :=
  if (img.drop 65536).take 16 != (sealHeader eid version va 0).take 16 then none
  else if (img.drop 65568).any (· != 0) then none
  else
    match s.basalt.seals.find? (fun x => x.key == key && x.version == version && x.vpage == va / 65536) with
    | some x => if sealImage key eid version va (sealPlain x) == img then some (sealPlain x) else none
    | none => (Config.opened key version (va / 65536) img).map (fun l => (List.range 65536).map (fun i => l.getD i 0))

/-- Whether an EVICT of a frame may act: ownership, version, mapping by a leaf of a tier, verified lines, no hold (R381, R386, R472). -/
def evictAt (s : State) (tier eid part frame va : Nat) : Bool :=
  let o := ownOf s frame
  o.cls == 3 && o.eid == eid && o.part == part && !o.rst && decide (o.version < 2 ^ 24 - 1) && !(heldFrames s).contains frame
  && runsOk s [(65536 * frame, 65536)]
  && (match leafOf s eid va with
      | some p => let e := readLe s.hbm p 8; pteTier e == tier && pteAddr e == 65536 * frame
      | none => false)

def evictOk (s : State) (eid part frame va : Nat) : Bool := evictAt s 0 eid part frame va

/-- A frame released to the free class of a partition, for Shale to scrub (R381). -/
def releaseFrame (s : State) (frame part version : Nat) : State :=
  let n : Own := { cls := 0, part := part, eid := 0, version := version, zeroed := false, rst := false }
  let s := reown (tlbDropFrame s frame) frame n
  { s with shale := { s.shale with scrub := s.shale.scrub ++ [(frame, none)] } }

/-- The ownership change of an EVICT whose image is written: the leaf takes tier 2 and the version, the frame is reclaimed
(R381, R386). -/
def evictDone (s : State) (eid frame va : Nat) : State :=
  let o := ownOf s frame
  let s := match leafOf s eid va with
    | some p => { s with hbm := writeLe s.hbm p 8 (leafSet (readLe s.hbm p 8) 2 (o.version + 1)) }
    | none => s
  releaseFrame s frame o.part (o.version + 1)

/-- Writes a whole page: every line verifies again (R384, R387). -/
def writePage (s : State) (frame : Nat) (l : List Byte) : State :=
  freshFrame { s with hbm := writeBytes s.hbm (65536 * frame) l } frame

/-- A frame assigned to an enclave, awaiting a sealed image of a version (R381, RESTORE). -/
def awaitImage (s : State) (eid part frame version : Nat) : State :=
  reown (tlbDropFrame s frame) frame { cls := 3, part := part, eid := eid, version := version, zeroed := false, rst := true }

/-- Whether a frame awaits the image of a version for an enclave. -/
def awaits (s : State) (eid part frame version : Nat) : Bool :=
  ownOf s frame == { cls := 3, part := part, eid := eid, version := version, zeroed := false, rst := true }

/-- The load of an image into a frame that awaits it, its page's leaf having the tier lt (R387): whether it succeeded; on failure the
frame is reclaimed. A frame that awaits nothing is left alone. -/
def loadPage (s : State) (lt eid part frame version va tier target loc : Nat) : Bool × State :=
  if !awaits s eid part frame version then (false, s) else
  let key := sealKey s eid
  let img := readBytes (mgetD s.far (farKey tier target) []) loc 65600
  let n : Own := { cls := 3, part := part, eid := eid, version := version, zeroed := false, rst := false }
  match leafOf s eid va, openImage s key eid version va img with
  | some p, some l =>
    let e := readLe s.hbm p 8
    if fldN e 16 30 = version && pteTier e = lt then
      let s := writePage (setOwn s frame n) frame l
      (true, { s with hbm := writeLe s.hbm p 8 (leafSet e 0 frame) })
    else (false, releaseFrame s frame part version)
  | _, _ => (false, releaseFrame s frame part version)

/-! ### potreq (R366, R381, R382) -/

/-- A request's fields. -/
structure PotReq where
  op : Nat
  eid : Nat
  frames : List Nat
  version : Nat
  page : Nat
  loc : Nat
  tier : Nat
  target : Nat

/-- The request of a descriptor; none is BADDESC (R366). -/
def potOf (b : List Byte) : Option PotReq :=
  let w0 := imgW b 0
  let op := fldN w0 0 4
  let n := fldN w0 32 32
  let far := op = 2 || op = 3
  let w5 := imgW b 0x28
  if 3 < op || fldN w0 4 4 != 0 || fldN w0 20 12 != 0 || n = 0 || 65536 < n || fldN (imgW b 8) 46 18 != 0
      || imgW b 8 % 65536 != 0 || fldN (imgW b 0x10) 24 40 != 0 || (op != 3 && imgW b 0x10 != 0)
      || imgW b 0x18 % 65536 != 0 || fldN (imgW b 0x18) 55 9 != 0 || imgW b 0x20 % 4096 != 0 || fldN w5 4 28 != 0
      || imgW b 0x30 != 0 || imgW b 0x38 != 0 || (!far && (imgW b 0x18 != 0 || imgW b 0x20 != 0 || w5 != 0))
      || (far && 2 ≤ fldN w5 0 4) then none
  else some { op := op, eid := fldN w0 8 12, frames := (List.range n).map (fun i => imgW b 8 / 65536 + i), version := imgW b 0x10,
              page := imgW b 0x18, loc := imgW b 0x20, tier := fldN w5 0 4, target := fldN w5 32 32 }

/-- Page and image offset of frame number i of a request. -/
def potPage (r : PotReq) (i : Nat) : Nat := r.page + 65536 * i
def potLoc (r : PotReq) (i : Nat) : Nat := r.loc + 69632 * i

/-- Whether the form of L2 acts: ASSIGN and RECLAIM between free frames and the OS class (R381). -/
def potL2 (level : Nat) (r : PotReq) : Bool := decide (2 ≤ level) && decide (r.op < 2)

/-- The check of one frame (R381): DENIED, FRAMESTATE or OK. -/
def potFrame (s : State) (level part : Nat) (r : PotReq) (i frame : Nat) : Nat :=
  let o := ownOf s frame
  if level < 2 && (o.cls == 1 || o.part != part) then bsDenied
  else if !frameExists frame then bsFramestate
  else if r.op = 0 then (if o.cls == 0 && o.zeroed && (potL2 level r || o.part == part) then bsOk else bsFramestate)
  else if r.op = 1 then
    (if (if potL2 level r then o.cls == 2 else o.cls == 3 && o.eid == r.eid && o.part == part) && !(heldFrames s).contains frame
      then bsOk else bsFramestate)
  else if r.op = 2 then (if evictOk s r.eid part frame (potPage r i) then bsOk else bsFramestate)
  else if o.cls == 0 && o.zeroed && o.part == part then bsOk else bsFramestate

/-- The change of one frame of an accepted request. -/
def potApply (s : State) (level part : Nat) (r : PotReq) (i frame : Nat) : State :=
  let o := ownOf s frame
  let n : Own :=
    { cls := if potL2 level r then 2 else 3, part := if potL2 level r then r.eid % 16 else part,
      eid := if potL2 level r then 0 else r.eid, version := (o.version + 1) % 2 ^ 24, zeroed := false, rst := false }
  if r.op = 0 then assignFrame s frame n
  else if r.op = 1 then releaseFrame s frame (if potL2 level r then r.eid % 16 else o.part) o.version
  else if r.op = 2 then evictDone s r.eid frame (potPage r i)
  else awaitImage s r.eid part frame r.version

/-- The numbered frames of a request. -/
def potList (r : PotReq) : List (Nat × Nat) := (List.range r.frames.length).zip r.frames

/-- R366: the answer of potreq. That of a RESTORE comes when Shale has loaded the images into the frames, which await them (R387). -/
def servePotreq (s : State) (q : Quartz) (b : List Byte) : Reply :=
  let part := callerPart s q
  let eid := fldN (imgW b 0) 8 12
  if (feOf s part).ferst != 0 then .wait
  else
    match potOf b with
    | none => .code (bsWord bsBaddesc eid) s
    | some r =>
      if potL2 q.level r && decide (eid < 16) && (feOf s eid).ferst != 0 then .wait
      else if potL2 q.level r && 16 ≤ eid then .code (bsWord bsBaddesc eid) s
      else if !potL2 q.level r && (liveIn s eid part).isNone then .code (bsWord bsNoenclave eid) s
      else
        match (potList r).findSome? (fun x =>
            let k := potFrame s q.level part r x.1 x.2; if k = bsOk then none else some k) with
        | some k => .code (bsWord k eid) s
        | none =>
          if 2 ≤ r.op && farDown s r.tier r.target then .code (bsWord bsTier eid) s
          else if !mayReown s r.frames then .wait
          else
            let s := if r.op = 2 then (potList r).foldl (fun s (x : Nat × Nat) =>
              sealPage s eid x.2 ((ownOf s x.2).version + 1) (potPage r x.1) r.tier r.target (potLoc r x.1)) s else s
            let t := (potList r).foldl (fun s (x : Nat × Nat) => potApply s q.level part r x.1 x.2) s
            if r.op = 3 then
              .later { t with work := mput t.work t.fresh (.restore (match s.agent with | .quartz n => n | _ => 0) t.fresh eid part r.version
                r.tier r.target ((potList r).map (fun x => (x.2, potPage r x.1, potLoc r x.1, (ownOf s x.2).version)))) }
            else .code (bsWord bsOk eid) t

/-- Shale loads the images of a RESTORE into their frames, one after another: whether all of them were the ones that their pages and
versions call for. -/
def loadAll (eid part version tier target : Nat) : List (Nat × Nat × Nat × Nat) → State → Bool × State
  | [], s => (true, s)
  | (frame, page, loc, _) :: t, s =>
    match loadPage s 2 eid part frame version page tier target loc with
    | (true, s) => loadAll eid part version tier target t s
    | (false, s) => (false, s)

/-- The frames of a RESTORE that fails stand as they did before it: free and zeroed (R363, R366). -/
def unassign (part : Nat) (l : List (Nat × Nat × Nat × Nat)) (s : State) : State :=
  l.foldl (fun s x => setOwn s x.1 { cls := 0, part := part, eid := 0, version := x.2.2.2, zeroed := true, rst := false }) s

/-- The word's answer of a RESTORE is there: OK, or FRAMESTATE when one of its images was not the one called for, and then nothing has
changed (R363, R366, R387; log 80). -/
def loadStep (s : State) (id : Nat) : State :=
  match mget s.work id with
  | some (.restore q pid eid part version tier target l) =>
    let s := { s with work := mdel s.work id }
    let r := loadAll eid part version tier target l s
    updQuartz (if r.1 then r.2 else unassign part l s) q (fun c => { c with pend := c.pend.map (fun p =>
      if p.id == pid then { p with act := .value [] (bsWord (if r.1 then bsOk else bsFramestate) eid) } else p) })
  | _ => s

/-- R381 potreq ASSIGN. The operation is the one that the request names (log 12). -/
def execAssign (d a : Sel) (s : State) : Out := requestWord (.assign d a) d a s servePotreq

/-- R381 potreq RECLAIM. -/
def execReclaim (d a : Sel) (s : State) : Out := requestWord (.reclaim d a) d a s servePotreq

/-- R386 potreq EVICT. -/
def execEvict (d a : Sel) (s : State) : Out := requestWord (.evict d a) d a s servePotreq

/-- R387 potreq RESTORE. -/
def execRestoreFrames (d a : Sel) (s : State) : Out := requestWord (.restoreFrames d a) d a s servePotreq

/-! ### dbgrd (R367) -/

/-- The item of a halted group that a selector names; none gives PERM (R367). The layout of the slot states is not stated (log
19). -/
def dbgItem (g : Group) (x : Nat) : Option W64 :=
  let item := fldN x 18 8
  let r := fldN x 26 8
  let lane := fldN x 34 6
  if item = 0 then some (Config.slotStates (SlotState.code g.slot0.st) (SlotState.code g.slot1.st))
  else if item = 1 then some g.slot0.pc
  else if item = 2 then some g.slot1.pc
  else if item = 3 then some (live g false)
  else if item = 4 then some (live g true)
  else if item = 5 then some g.cause
  else if item = 6 then some g.caddr
  else if 0x40 ≤ item && item < 0x80 then some (sRead g.s (item - 0x40))
  else if 0x80 ≤ item && item < 0x90 then some (kRead g.k (item - 0x80))
  else if item = 0xC0 && r < g.allot && lane < g.width then some ((mgetD g.v (64 * r + lane) 0).setWidth 64)
  else none

/-- R367 dbgrd. -/
def execDbgrd (d a : Sel) (s : State) : Out :=
  quartzWord (.dbgrd d a) s (fun s _ _ =>
    let x := (readReg s a).toNat
    let fail : Res := .trap s { code := cPerm, lane := none, space := 4, addr := x, n := 0 } 0 none false
    match mget s.groups (x % 2 ^ 18) with
    | none => fail
    | some g =>
      if fldN x 40 24 != 0 || !isHalted g || !groupDebug s g then fail
      else
        match dbgItem g x with
        | some v => answer s d v
        | none => fail)

end Sys2Proof.Machine
end

