-- ==== Sys2Proof/Machine/Partition.lean ====
section
/-! DEFINITION. Device partitions (R441 to R446) and Shale (R450 to R455, R447): cluster ranges, colour sets, the reset of a
partition, working-set recording, tier moves and scrubbing. -/

namespace Sys2Proof.Machine

/-! ### FEPART (R412, R441) -/

/-- The bits of FEPART that a write stores. -/
def fepartBits (v : W64) : W64 := v &&& 0xF3F3F#64

/-- Whether two front ends share a cluster by their valid ranges. -/
def fesOverlap (a b : FrontEnd) : Bool :=
  feValid a && feValid b && decide (feBase a ≤ feLimit b) && decide (feBase b ≤ feLimit a)

/-- Whether a partition has a placed team or a queue that is not Idle (R441). -/
def partBusy (s : State) (fe : Nat) : Bool :=
  (feOf s fe).queues.any (fun u => u.2.state != .idle)
  || s.teams.any (fun t => match mget s.launches t.2.launch with | some l => l.part == fe | none => false)

/-- R441: a write of FEPART, not performed when it conflicts or the partition is busy. -/
def fepartWrite (s : State) (fe : Nat) (v : W64) : State :=
  let n : FrontEnd := { feOf s fe with fepart := fepartBits v }
  if partBusy s fe || s.fes.any (fun f => f.1 != fe && fesOverlap n f.2) then s
  else updFe s fe (fun f => { f with fepart := fepartBits v })

def execFepartWrite (fe : Nat) (v : W64) (s : State) : Out := .next (fepartWrite s fe v)

/-! ### COLSET (R442, R443) -/

/-- The colours of a COLSET value: first and count, none when v = 0. -/
def colourRange (v : Nat) : Option (Nat × Nat) := if bitN v 16 then some (fldN v 0 6, 2 ^ fldN v 8 3) else none

/-- Whether two ranges of colours meet. -/
def rangesMeet (a b : Nat × Nat) : Bool := decide (a.1 < b.1 + b.2) && decide (b.1 < a.1 + a.2)

/-- COLST code of a COLSET write (R442, R443). -/
def colsetCode (s : State) (die p : Nat) (v : Nat) : Nat :=
  let d := match mget s.dies die with | some d => d | none => resetDie
  match colourRange v with
  | some (f, n) =>
    if 6 < fldN v 8 3 || f % n != 0 then 1
    else if (List.range 16).any (fun q => q != p && (match colourRange (mgetD d.colset q 0).toNat with
        | some r => rangesMeet (f, n) r | none => false)) then 2
    else if busy then 3 else 0
  | none => if busy then 3 else 0
where
  busy : Bool :=
    s.teams.any (fun t => coreDie t.2.core == die && (match mget s.launches t.2.launch with | some l => l.part == p | none => false))
    || (linesOf s die).any (fun l => l.part == p)

/-- The array of a die with the colours zeroed that a test names. -/
def zeroColours (s : State) (die : Nat) (p : Nat → Bool) : State := zeroArray s die (fun a => p (a / 1572864))

/-- R443: a COLSET write. Colours that leave or join the partition are zeroed; kept ones stay as they lie. -/
def colsetWrite (s : State) (die p : Nat) (v : W64) : State :=
  let x := v.toNat % 64 + 256 * fldN v.toNat 8 3 + 65536 * fldN v.toNat 16 1
  let k := colsetCode s die p x
  let s := updDie s die (fun d => { d with colst := k })
  if k != 0 then s
  else
    let inn (r : Option (Nat × Nat)) (c : Nat) : Bool := match r with | some (f, n) => decide (f ≤ c) && decide (c < f + n) | none => false
    let old := colourRange (match mget s.dies die with | some d => (mgetD d.colset p 0).toNat | none => 0)
    let new := colourRange x
    updDie (zeroColours s die (fun c => inn old c != inn new c)) die (fun d => { d with colset := msetD d.colset p (w64 x) 0 })

def execColsetWrite (die part : Nat) (v : W64) (s : State) : Out := .next (colsetWrite s die part v)

/-! ### Reset of a partition (R445) -/

/-- Step 1: every queue that is not Idle enters Error with KILLED. -/
def resetQueues (s : State) (p : Nat) : State :=
  updFe s p (fun f => { f with queues := f.queues.map (fun u => (u.1,
    if u.2.state == .idle then u.2
    else { u.2 with state := .error, err := eKilled, errIdx := u.2.lastIdx, wait := .none, waits := [] })) })

/-- Step 2: every live enclave of the partition ends. -/
def resetEnclaves (s : State) (p : Nat) : State :=
  ((s.basalt.enclaves.filter (fun e => e.2.part == p && !e.2.ending)).map (·.1)).foldl killEnclave s

/-- Step 3: every team of the partition stops with nothing saved; what would still arrive for one is discarded. -/
def resetTeams (s : State) (p : Nat) : State :=
  let mine (n : Nat) : Bool := match mget s.launches n with | some l => l.part == p | none => false
  let locs := (s.groups.filter (fun g => mine g.2.launch)).map (·.1)
  let gone := s.fwd.filter (fun f => mine f.launch)
  let ids := gone.flatMap (·.ids)
  let out (w : Work) : Bool := match w with
    | .copy c => c.part == p
    | .mvn m => m.part == p
    | .gath _ _ q _ _ _ => q == p
    | .coll l _ _ _ => mine l
    | .pub l _ _ => locs.contains l
    | .scrsz _ q _ _ _ _ => q == p
    | .restore .. => false
  let s := dropTeams { s with
    work := s.work.filter (fun w => !out w.2), fwd := s.fwd.filter (fun f => !mine f.launch),
    late := s.late.filter (fun r => !ids.contains r.id), saved := s.saved.filter (fun v => !mine v.launch) } mine
  let s := { s with launches := s.launches.filter (fun l => l.2.part != p) }
  updFe s p (fun f => { f with graph := none, pro := resetPrologue, restores := [], sysc := [], stops := [], cmd := none })

/-- The colours of a partition zeroed on every die. -/
def clearPart (s : State) (p : Nat) : State :=
  (partDies s p).foldl (fun s d => match colours s d p with
    | some (f, b) => zeroColours s d (fun c => decide (f ≤ c) && decide (c < f + 2 ^ b))
    | none => s) s

/-- The clusters of a list of cores: die and cluster. -/
def clusters (l : List Nat) : List (Nat × Nat) := (l.map (fun c => (coreDie c, coreCluster c))).eraseDups

/-- CLPWR of a cluster whose power cycle is in progress (R442); whether it reads as powered meanwhile is not stated: a free value (log 83). -/
def cyclePower (s : State) : W64 := w64 (2 + (if Config.cyclePowered s.fresh then 1 else 0))

/-- Step 4 begins: the clusters' power cycles, the colours are zeroed, held translations and instruction lines are dropped. -/
def resetPower4 (s : State) (p : Nat) : State :=
  let cs := partCores (feOf s p)
  let cycle (c : Core) : Core :=
    { c with free := 1536, claims := [], tiles := [], mat := [], ticks := 0,
             sq := c.sq.map (fun q => (q.1, { q.2 with frozen := none })) }
  let cycle1 (d : Nat) (x : Die) : Die :=
    { x with lines := x.lines.filter (fun l => l.part != p),
             clpwr := (clusters cs).foldl (fun m c => if c.1 = d then msetD m c.2 (cyclePower s) 1 else m) x.clpwr }
  let s := clearPart s p
  { s with cores := s.cores.map (fun c => (c.1, if cs.contains c.1 then cycle c.2 else c.2)),
           dies := s.dies.map (fun d => (d.1, cycle1 d.1 d.2)), fresh := s.fresh + 1, tlb := s.tlb.filter (fun t => t.part != p),
           walks := s.walks.filter (fun w => w.c.part != p) }

/-- Step 4 ends: the clusters are powered again (R442). -/
def resetPower5 (s : State) (p : Nat) : State :=
  let cs := clusters (partCores (feOf s p))
  { s with dies := s.dies.map (fun d => (d.1, { d.2 with clpwr := cs.foldl (fun m c => if c.1 = d.1 then mdel m c.2 else m) d.2.clpwr })) }

/-- The next step of the reset of a partition; one not yet begun begins (R445). -/
def resetStep (s : State) (p : Nat) : State :=
  let n := max 1 (feOf s p).ferst
  let s := if n = 1 then resetQueues s p else if n = 2 then resetEnclaves s p else if n = 3 then resetTeams s p else if n = 4 then resetPower4 s p
    else resetPower5 s p
  updFe s p (fun f => { f with ferst := if 5 ≤ n then 0 else n + 1 })

/-- R445 PARTITION_RESET. -/
def execPartitionReset (part : Nat) (s : State) : Out := .next (resetStep s part)

/-- A write of FERST: a reset begins; one made while it runs is ignored (R445). -/
def ferstWrite (s : State) (p : Nat) (v : W64) : State :=
  updFe s p (fun f => if bit v 0 && f.ferst == 0 then { f with ferst := 1 } else f)

/-! ### Shale's commands (R450, R451) -/

def shBaddesc : Nat := 1
def shOwner : Nat := 2
def shNoenclave : Nat := 3
def shBusy : Nat := 4

/-- Translates pages in order; none when one does not translate. -/
def pagePlaces (c : Ctx) (acc : Acc) : List Nat → State → List Nat → Option (List Nat) × State
  | [], s, out => (some out, s)
  | va :: t, s, out =>
    match translate s c va acc false with
    | (.ok pa _, s) => pagePlaces c acc t s (out ++ [pa])
    | (_, s) => (none, s)

/-- Whether a MOVE entry has a reserved bit set or the wrong direction (R453). -/
def moveBad (up : Bool) (b : List Byte) : Bool :=
  let w := imgW b 0
  fldN w 0 2 != (if up then 1 else 0) || fldN w 2 2 != 0 || 1 < fldN w 4 4 || fldN w 46 2 != 0 || fldN w 60 4 != 0
  || imgW b 8 % 4096 != 0 || fldN (imgW b 0x10) 56 8 != 0 || imgW b 0x18 % 65536 != 0 || fldN (imgW b 0x18) 55 9 != 0

/-- Fields of a MOVE entry (R453). -/
def mvFrame (b : List Byte) : Nat := fldN (imgW b 0) 16 30
def mvEid (b : List Byte) : Nat := fldN (imgW b 0) 48 12
def mvTier (b : List Byte) : Nat := fldN (imgW b 0) 4 4
def mvLoc (b : List Byte) : Nat := imgW b 8
def mvTarget (b : List Byte) : Nat := fldN (imgW b 0x10) 0 32
def mvVersion (b : List Byte) : Nat := fldN (imgW b 0x10) 32 24
def mvPage (b : List Byte) : Nat := imgW b 0x18

/-- The checks of a command descriptor: the command, or its code (R450, R451). -/
def shCheck (s : State) (q : Quartz) (desc : Nat) (b : List Byte) : Except Nat ShCmd × State :=
  let c := quartzCtx s q
  let w0 := imgW b 0
  let op := fldN w0 0 4
  let nd := fldN (imgW b 0x10) 0 16
  let nu := fldN (imgW b 0x10) 16 16
  let eid := fldN w0 8 12
  let buf := imgW b 8
  let cmd : ShCmd :=
    { id := s.fresh, op := op, eid := eid, desc := desc, part := c.part, level := q.level, recs := [], list := [], ndown := nd,
      next := 0, mid := false, freed := [] }
  let base := fldN w0 4 4 != 0 || fldN w0 20 44 != 0 || fldN buf 55 9 != 0 || !zeroPart b 0x18 32 || fldN (imgW b 0x38) 9 55 != 0
  if base || op = 0 || 3 < op then (.error shBaddesc, s)
  else if op = 3 then
    if eid != 0 || buf % 32 != 0 || fldN (imgW b 0x10) 32 32 != 0 || 4096 < nd || 4096 < nu then (.error shBaddesc, s)
    else
      match pagePlaces c .write ((List.range (nd + nu)).map (fun i => buf + 32 * i)) s [] with
      | (none, s) => (.error shBaddesc, s)
      | (some l, s) =>
        if ((List.range (nd + nu)).zip l).any (fun x => !lineOk s x.2 || moveBad (decide (nd ≤ x.1)) (readBytes s.hbm x.2 32)) then
          (.error shBaddesc, s)
        else (.ok { cmd with list := l }, s)
  else if imgW b 0x10 != 0 || (op = 2 && buf != 0) || (op = 1 && buf % 65536 != 0) then (.error shBaddesc, s)
  else if (liveIn s eid c.part).isNone then (.error shNoenclave, s)
  else if op = 2 then (.ok cmd, s)
  else
    match pagePlaces c .write ((List.range 32).map (fun i => buf + 65536 * i)) s [] with
    | (none, s) => (.error shOwner, s)
    | (some l, s) =>
      let fs := l.map (· / 65536)
      if fs.any (fun f => (ownOf s f).cls != 2 || (ownOf s f).part != c.part) then (.error shOwner, s)
      else (.ok { cmd with recs := fs }, s)

/-- Enclaves of the up entries of an accepted MOVE: their recorded working sets begin with nothing resident (R455). -/
def beginSets (s : State) (c : ShCmd) : State :=
  let ups := (c.list.drop c.ndown).map (fun pa => mvEid (readBytes s.hbm pa 32))
  { s with shale := { s.shale with wset := ups.eraseDups.foldl (fun w e =>
      mput w e ((ups.filter (· == e)).length, 0, c.id)) s.shale.wset } }

/-- A write of SHCMD (R450): the code in SHCST, an accepted command in the queue of 16. -/
def shcmdWrite (s : State) (qn : Nat) (v : W64) : State :=
  let code (s : State) (k : Nat) : State := { s with shale := { s.shale with code := k } }
  match mget s.quartz qn with
  | none => s
  | some q =>
    if 16 ≤ s.shale.cmds.length then code s shBusy
    else if v.toNat % 64 != 0 then code s shBaddesc
    else
      match translate s (quartzCtx s q) v.toNat .write false with
      | (.ok pa _, s) =>
        if !lineOk s pa then code s shBaddesc
        else
          match shCheck s q pa (readBytes s.hbm pa 64) with
          | (.error k, s) => code s k
          | (.ok c, s) =>
            let s := beginSets (takeFresh s).2 c
            { s with shale := { s.shale with code := 0, cmds := s.shale.cmds ++ [c] } }
      | (_, s) => code s shBaddesc

/-- Writes a doubleword that other agents may watch. -/
def putWord (s : State) (pa v : Nat) : State :=
  performWrites s none (((List.range 8).map (fun j => MLoc.hbm (pa + j))).zip (leBytes 8 v))

/-- The command that Shale executes is done: its done field is written and it leaves the queue (R451). -/
def shDone (s : State) (c : ShCmd) (code : Nat) : State :=
  putWord { s with shale := { s.shale with cmds := s.shale.cmds.filter (fun x => x.id != c.id) } } (c.desc + 0x38) (code + 256)

/-- The command that Shale executes now, if it is of an operation: the first whose partition is not in reset, which holds no other
partition's (R446). -/
def shHead (s : State) (op : Nat) : Option ShCmd :=
  (s.shale.cmds.find? (fun c => (feOf s c.part).ferst == 0)).filter (fun c => c.op == op)

/-- R452 SHALE_RECORD: in the manner of tlbinv kind 0, which also tears down the enclave's outstanding fetches (R390). -/
def execShaleRecord (s : State) : Out :=
  .next (match shHead s 1 with
    | none => s
    | some c =>
      match liveIn s c.eid c.part with
      | none => shDone s c shNoenclave
      | some _ =>
        match tlbinvTry s [] 0 0 (0xF000 + c.eid) with
        | (false, s) => s
        | (true, s) =>
        let s := c.recs.foldl (fun s f => freshFrame { s with hbm := zeroBytes s.hbm (65536 * f) 65536 } f) s
        shDone { s with shale := { s.shale with recording := mput s.shale.recording c.eid c.recs } } c 0)

/-- R452 SHALE_STOP. -/
def execShaleStop (s : State) : Out :=
  .next (match shHead s 2 with
    | none => s
    | some c =>
      if (liveIn s c.eid c.part).isNone then shDone s c shNoenclave
      else shDone { s with shale := { s.shale with recording := mdel s.shale.recording c.eid } } c 0)

/-! ### MOVE (R453, R454, R455) -/

/-- Status codes of an entry. -/
def mvOk : Nat := 1
def mvFramestate : Nat := 2
def mvSeal : Nat := 3
def mvTierFail : Nat := 4

/-- Scrubs a frame: zeros, verified lines, zeroed set (R381). -/
def scrubFrame (s : State) (frame : Nat) : State :=
  let s := setOwn s frame { ownOf s frame with zeroed := true }
  freshFrame { s with hbm := zeroBytes s.hbm (65536 * frame) 65536 } frame

/-- The translations of an entry's page that are held for its enclave: none is used once the leaf is at tier 1 (R410, R454). -/
def pageCovers (b : List Byte) (t : Tlb) : Bool := t.tag == 0xF000 + mvEid b && t.page == mvPage b / 65536

/-- The leaf of an entry's page takes a tier, its address field kept (R454). -/
def setTier (s : State) (b : List Byte) (tier : Nat) : State :=
  match leafOf s (mvEid b) (mvPage b) with
  | some p => { s with hbm := writeLe s.hbm p 8 (setFld (readLe s.hbm p 8) 8 2 tier) }
  | none => s

/-- How an entry begins: it fails at once, or its page's leaf takes tier 1, so that walks that meet it wait, and the frame of an up entry
awaits its image (R454). The leaf of an up entry's page must have tier 2, and no other tier 1 than Shale's own (R387). -/
def moveBegin (s : State) (c : ShCmd) (b : List Byte) : Option Nat × State :=
  let eid := mvEid b
  let f := mvFrame b
  let o := ownOf s f
  let live := (liveIn s eid c.part).isSome
  if c.next < c.ndown then
    if live && evictOk s eid c.part f (mvPage b) then (none, setTier s b 1) else (some mvFramestate, s)
  else if !live || !(o.cls == 0 && o.zeroed && o.part == c.part) || !frameExists f then (some mvFramestate, s)
  else if farDown s (mvTier b) (mvTarget b) then (some mvTierFail, s)
  else
    let s := awaitImage s eid c.part f (mvVersion b)
    let e := ((leafOf s eid (mvPage b)).map (fun p => readLe s.hbm p 8)).getD 0
    if pteTier e = 2 && pteV e then (none, setTier s b 1) else (some mvSeal, releaseFrame s f c.part (mvVersion b))

/-- A down entry whose leaf is at tier 1: its status and the state after it (R454, step 1). -/
def moveDown (s : State) (c : ShCmd) (b : List Byte) : Nat × State :=
  let eid := mvEid b
  let f := mvFrame b
  if (liveIn s eid c.part).isNone || !evictAt s 1 eid c.part f (mvPage b) then (mvFramestate, setTier s b 0)
  else if farDown s (mvTier b) (mvTarget b) then (mvTierFail, setTier s b 0)
  else (mvOk, evictDone (sealPage s eid f ((ownOf s f).version + 1) (mvPage b) (mvTier b) (mvTarget b) (mvLoc b)) eid f (mvPage b))

/-- An up entry whose frame awaits the image: its status and the state after it; one that fails leaves the leaf at tier 2 (R387, R454,
step 3). -/
def moveUp (s : State) (c : ShCmd) (b : List Byte) : Nat × State :=
  let eid := mvEid b
  let f := mvFrame b
  let held := ((leafOf s eid (mvPage b)).map (fun p => pteTier (readLe s.hbm p 8))).getD 0 == 1
  if !awaits s eid c.part f (mvVersion b) then (mvFramestate, if held then setTier s b 2 else s)
  else if farDown s (mvTier b) (mvTarget b) then
    (mvTierFail, releaseFrame (if held then setTier s b 2 else s) f c.part (mvVersion b))
  else
    match loadPage s 1 eid c.part f (mvVersion b) (mvPage b) (mvTier b) (mvTarget b) (mvLoc b) with
    | (true, s) => (mvOk, s)
    | (false, s) => (mvSeal, if held then setTier s b 2 else s)

/-- Shale writes an entry's status; a down entry that is OK records the sealed version (R453). -/
def writeStatus (s : State) (pa st : Nat) (version : Option Nat) : State :=
  let s := putWord s pa (setFld (readLe s.hbm pa 8) 8 8 st)
  match version with
  | some v => putWord s (pa + 0x10) (setFld (readLe s.hbm (pa + 0x10) 8) 32 24 v)
  | none => s

/-- The recorded set of an enclave after an up entry's status (R455). -/
def countUp (s : State) (c : ShCmd) (eid st : Nat) : State :=
  match mget s.shale.wset eid with
  | some (n, r, id) =>
    if id != c.id then s
    else { s with shale := { s.shale with wset := mput s.shale.wset eid (if st = mvOk then (n, r + 1, id) else (n - 1, r, id)) } }
  | none => s

/-- One step of the MOVE that Shale executes: its next entry begins, or acts. Once all its down entries are done, and before its up
entries, the frames that they released are scrubbed (R454, step 2). -/
def moveStep (s : State) (c : ShCmd) : State :=
  let upd (f : ShCmd → ShCmd) (s : State) : State :=
    { s with shale := { s.shale with cmds := s.shale.cmds.map (fun x => if x.id == c.id then f x else x) } }
  let bump (s : State) : State := upd (fun x => { x with next := x.next + 1, mid := false }) s
  if c.next = c.ndown && !c.freed.isEmpty then
    let s := (c.freed.filter (fun f => s.shale.scrub.any (fun x => x.1 == f))).foldl scrubFrame s
    upd (fun x => { x with freed := [] })
      { s with shale := { s.shale with scrub := s.shale.scrub.filter (fun x => !c.freed.contains x.1) } }
  else
  match c.list[c.next]? with
  | none => shDone s c 0
  | some pa =>
    let b := readBytes s.hbm pa 32
    if !c.mid then
      if !mayReown s [mvFrame b] || !mayInvalidate s (pageCovers b) then s
      else
        match moveBegin (if c.next < c.ndown then invalidate s (pageCovers b) else s) c b with
        | (none, s) => upd (fun x => { x with mid := true }) s
        | (some st, s) =>
          let s := writeStatus s pa st none
          bump (if c.next < c.ndown then s else countUp s c (mvEid b) st)
    else if c.next < c.ndown then
      if !mayReown s [mvFrame b] then s
      else
        let v := (ownOf s (mvFrame b)).version + 1
        let (st, s) := moveDown s c b
        let s := if st = mvOk then upd (fun x => { x with freed := x.freed ++ [mvFrame b] }) s else s
        bump (writeStatus s pa st (if st = mvOk then some v else none))
    else
      let (st, s) := moveUp s c b
      bump (countUp (writeStatus s pa st none) c (mvEid b) st)

/-- R454 MOVE: Shale processes the next entry of the MOVE at the head, or reports it done. -/
def execMove (s : State) : Out :=
  .next (match shHead s 3 with
    | none => s
    | some c => moveStep s c)

/-! ### Scrubbing (R381, R447) -/

/-- R447 FRAME_SCRUB_COMPLETE: a released frame, that no MOVE in progress has still to scrub (R454), is zeroed; the EID of an ending enclave is free with its last frame. -/
def execFrameScrubComplete (frame : Nat) (s : State) : Out :=
  .next (match s.shale.scrub.find? (fun x => x.1 == frame && !s.shale.cmds.any (fun c => c.freed.contains frame)) with
    | none => s
    | some (_, e) =>
      let s := scrubFrame s frame
      let s := { s with shale := { s.shale with scrub := s.shale.scrub.filter (fun x => x.1 != frame) } }
      match e with
      | some eid =>
        if s.shale.scrub.any (fun x => x.2 == some eid) then s
        else { s with basalt := { s.basalt with enclaves := mdel s.basalt.enclaves eid } }
      | none => s)

end Sys2Proof.Machine
end

