-- ==== Sys2Proof/Machine/Attest.lean ====
section
/-! DEFINITION. Attestation and links (R456 to R470, R410): the SPDM responder, TDISP bindings, streams between modules,
migration, and what devices and peers write. -/

namespace Sys2Proof.Machine

/-! ### The SPDM responder (R458 to R462) -/

/-- Error codes of R460. -/
def spInvalid : Nat := 0x01
def spBusy : Nat := 0x03
def spUnexpected : Nat := 0x04
def spDecrypt : Nat := 0x06
def spLimit : Nat := 0x0A
def spVersion : Nat := 0x41

def spUnsupported : Nat := 0x07

def setReply (s : State) (r : SpdmReply) : State := { s with spdm := { s.spdm with reply := some r } }

/-- A response of a code with nothing in it; the version of every header is 1.3 (R458; log 21). -/
def plainReply (code : Nat) : SpdmReply :=
  { version := 0x13, code := code, error := 0, versions := [], caps := [], algs := [], digest := none, chain := [], count := 0,
    blocks := [], debug := false, sig := none }

/-- An ERROR answer (R460). -/
def spdmError (s : State) (k : Nat) : State := setReply s { plainReply 0x7F with error := k }

/-- The response to a request code: SPDM's response code is the request's with bit 7 clear (R458; log 21). -/
def replyTo (code : Nat) : SpdmReply := plainReply (code % 128)

/-- Where a request is accepted (R459). -/
inductive Where | connection (st : ConnSt) | handshake | established | either
  deriving DecidableEq, Repr

/-- The session that a request names. -/
def sessionOf (s : State) (m : SpdmMsg) : Option Sess := m.session.bind (fun id => s.spdm.sess.find? (fun x => x.id == id && x.ep == m.ep))

/-- Whether the connection or session of a request is in a state that accepts it. -/
def spdmTakes (c : Conn) (x : Option Sess) (inSession : Bool) : Where → Bool
  | .connection st => !inSession && c.st == st
  | .handshake => (match x with | some y => !y.established | none => false)
  | .established => (match x with | some y => y.established | none => false)
  | .either => if inSession then (match x with | some y => y.established | none => false) else c.st == .negotiated

/-- The bytes of a request and of its response, as transcripts take them in (R461). -/
def exchange (m : SpdmMsg) (r : SpdmReply) : List Byte := m.bytes ++ Config.spdmBytes r

/-- Changes the connection of a request, or the session it is sent in. -/
def updConn (s : State) (m : SpdmMsg) (f : Conn → Conn) : State :=
  { s with spdm := { s.spdm with conns := mupd s.spdm.conns m.ep f } }
def updSess (s : State) (m : SpdmMsg) (f : Sess → Sess) : State :=
  { s with spdm := { s.spdm with sess := s.spdm.sess.map (fun x => if some x.id == m.session && x.ep == m.ep then f x else x) } }

/-- The session of a request has ended. -/
def dropSess (s : State) (m : SpdmMsg) : State :=
  { s with spdm := { s.spdm with sess := s.spdm.sess.filter (fun x => !(some x.id == m.session && x.ep == m.ep)) } }

/-- A request of a session and its answer have used a sequence number each way: the session ends with the last of the 2^64, since
KEY_UPDATE is not supported (R461; the width is PRESUMED, log 89). -/
def countSess (s : State) (m : SpdmMsg) : State :=
  match sessionOf s m with
  | none => s
  | some x => if 2 ^ 64 ≤ x.seq + 1 then dropSess s m else updSess s m (fun x => { x with seq := x.seq + 1 })

/-- The frame of every request but GET_VERSION: decryption, version, state, form (R459, R460). -/
def spdmRequest (s : State) (m : SpdmMsg) (w : Where) (go : State → Conn → State) : State :=
  match mget s.spdm.conns m.ep with
  | none => spdmError s spUnexpected
  | some c =>
    if m.session.isSome && (!m.decryptOk || (sessionOf s m).isNone) then spdmError (dropSess s m) spDecrypt
    else if !m.versionOk then spdmError s spVersion
    else if !spdmTakes c (sessionOf s m) m.session.isSome w then spdmError s spUnexpected
    else if !m.formOk then spdmError s spInvalid
    else countSess (go s c) m

/-- A request whose code is not in R459 (R460). -/
def spdmOther (s : State) (m : SpdmMsg) : State :=
  if m.session.isSome && (!m.decryptOk || (sessionOf s m).isNone) then spdmError (dropSess s m) spDecrypt
  else if (mget s.spdm.conns m.ep).isSome && !m.versionOk then spdmError s spVersion
  else spdmError s spUnsupported

/-- Answers a request that message A takes in, and moves its connection to a stage (R459, R461). -/
def answerA (s : State) (m : SpdmMsg) (st : ConnSt) (r : SpdmReply) : State :=
  setReply (updConn s m (fun c => { c with st := st, a := c.a ++ exchange m r })) r

/-- Signs a transcript (R461): the digest is that of message A with what follows it and the exchange at hand. -/
def signOver (s : State) (l : List Byte) : BitVec 768 × State :=
  (Config.deviceSign s.spdm.signed (Config.sha384 l), { s with spdm := { s.spdm with signed := s.spdm.signed + 1 } })

/-- R459 GET_VERSION: restarts the connection of an endpoint and ends its sessions; at most 64 connections; not inside a session. -/
def execGetVersion (m : SpdmMsg) (s : State) : Out :=
  .next (
    if m.session.isSome then
      if !m.decryptOk || (sessionOf s m).isNone then spdmError (dropSess s m) spDecrypt else spdmError s spUnexpected
    else if !m.formOk then spdmError s spInvalid
    else if (mget s.spdm.conns m.ep).isNone && 64 ≤ s.spdm.conns.length then spdmError s spBusy
    else
      let r := { replyTo 0x84 with versions := [0x13] }
      let c : Conn := { st := .versioned, a := exchange m r, m1 := [], l1 := [] }
      setReply { s with spdm := { s.spdm with conns := mput s.spdm.conns m.ep c,
                                              sess := s.spdm.sess.filter (fun x => x.ep != m.ep) } } r)

/-- What the responder can do (R458). -/
def spdmCaps : List SpdmCap := [.cert, .chal, .measSig, .measFresh, .keyEx, .encrypt, .mac]

/-- What the responder negotiates (R458). -/
def spdmAlgs : List SpdmAlg := [.ecdsaP384, .sha384, .measSha384, .secp384r1, .aes256Gcm, .keySchedule]

/-- R459 GET_CAPABILITIES. -/
def execGetCapabilities (m : SpdmMsg) (s : State) : Out :=
  .next (spdmRequest s m (.connection .versioned) (fun s _ => answerA s m .capable { replyTo 0xE1 with caps := spdmCaps }))

/-- R458, R459 NEGOTIATE_ALGORITHMS: a request that offers none of a required algorithm is invalid. -/
def execNegotiateAlgorithms (m : SpdmMsg) (offered : Bool) (s : State) : Out :=
  .next (spdmRequest s { m with formOk := m.formOk && offered } (.connection .capable) (fun s _ =>
    answerA s m .negotiated { replyTo 0xE3 with algs := spdmAlgs }))

/-- Answers a request that M1 takes in outside a session (R461). -/
def answerB (s : State) (m : SpdmMsg) (r : SpdmReply) : State :=
  setReply (if m.session.isSome then s else updConn s m (fun c => { c with m1 := c.m1 ++ exchange m r })) r

/-- R459 GET_DIGESTS: the digest of the chain in slot 0. -/
def execGetDigests (m : SpdmMsg) (s : State) : Out :=
  .next (spdmRequest s m .either (fun s _ =>
    answerB s m { replyTo 0x81 with digest := some (Config.sha384 Config.deviceChain) }))

/-- R459 GET_CERTIFICATE: slots 1 to 7 are empty (R458). -/
def execGetCertificate (m : SpdmMsg) (slot : Nat) (s : State) : Out :=
  .next (spdmRequest s { m with formOk := m.formOk && slot == 0 } .either (fun s _ =>
    answerB s m { replyTo 0x82 with chain := Config.deviceChain }))

/-- R459 CHALLENGE: signed over M1, which begins anew after it (R461). -/
def execChallenge (m : SpdmMsg) (s : State) : Out :=
  .next (spdmRequest s m (.connection .negotiated) (fun s c =>
    let r := { replyTo 0x83 with digest := some (Config.sha384 Config.deviceChain) }
    let (g, s) := signOver s (c.a ++ c.m1 ++ exchange m r)
    setReply (updConn s m (fun c => { c with m1 := [] })) { r with sig := some g }))

/-- A measurement register; unlisted: 48 zero bytes (R456). -/
def mrOf (s : State) (n : Nat) : BitVec 384 := mgetD s.basalt.mr n 0

/-- The MEASUREMENTS answer of an index, none when it is invalid there (R459, R462). -/
def measurements (s : State) (x : Option Sess) (index : Nat) : Option SpdmReply :=
  let r (l : List (BitVec 384)) (d : Bool) : Option SpdmReply := some { plainReply 0x60 with count := l.length, blocks := l, debug := d }
  if index = 0 then some { plainReply 0x60 with count := 32 }
  else if index ≤ 32 then r [mrOf s (index - 1)] false
  else if index = 0xFF then r ((List.range 32).map (mrOf s)) false
  else if index = 0x80 then
    match x.bind (·.bound) with
    | some (_, meas, dbg) => r [meas] dbg
    | none => none
  else none

/-- The L1/L2 messages of a request's session, or of its connection, become l (R461). -/
def setL1 (s : State) (m : SpdmMsg) (l : List Byte) : State :=
  if m.session.isSome then updSess s m (fun x => { x with l1 := l }) else updConn s m (fun c => { c with l1 := l })

/-- R459, R462 GET_MEASUREMENTS, signed over L1/L2 when the request asks for it; L1/L2 begin anew after a signature (R461). -/
def execGetMeasurements (m : SpdmMsg) (index : BitVec 8) (s : State) : Out :=
  .next (
    let a := measurements s (sessionOf s m) index.toNat
    spdmRequest s { m with formOk := m.formOk && a.isSome } .either (fun s c =>
      let r := a.getD (plainReply 0x60)
      let l1 := (match sessionOf s m with | some x => x.l1 | none => c.l1) ++ exchange m r
      if m.sign then
        let (g, s) := signOver s (c.a ++ l1)
        setReply (setL1 s m []) { r with sig := some g }
      else setReply (setL1 s m l1) r))

/-- R459, R462 KEY_EXCHANGE: opens a session in Handshake, bound to the enclave it names if that is Live. Its TH begins with message A
and the digest of the chain, and gives its first secret (R461). -/
def execKeyExchange (m : SpdmMsg) (eid : Option Nat) (s : State) : Out :=
  .next (
    let e := eid.bind (fun n => ((mget s.basalt.enclaves n).filter (fun e => !e.ending)).map (fun e => (n, e.meas, e.debug)))
    spdmRequest s { m with formOk := m.formOk && (eid.isNone || e.isSome) } (.connection .negotiated) (fun s c =>
      if 256 ≤ s.spdm.sess.length || 32 ≤ (s.spdm.sess.filter (fun x => x.ep == m.ep)).length then spdmError s spLimit
      else
        let r := replyTo 0xE4
        let th := c.a ++ leBytes 48 (Config.sha384 Config.deviceChain).toNat ++ exchange m r
        let (g, s) := signOver s th
        let x : Sess :=
          { id := s.spdm.next, ep := m.ep, established := false, bound := e, th := th, l1 := [],
            key := Config.spdmSecret (Config.dheSecret s.spdm.next) (Config.sha384 th), exported := 0, seq := 0 }
        setReply { s with spdm := { s.spdm with sess := s.spdm.sess ++ [x], next := s.spdm.next + 1 } } { r with sig := some g }))

/-- R459 FINISH: its TH gives the session's secrets (R461). -/
def execFinish (m : SpdmMsg) (s : State) : Out :=
  .next (spdmRequest s m .handshake (fun s _ =>
    let r := replyTo 0xE5
    setReply (updSess s m (fun x =>
      let th := x.th ++ exchange m r
      { x with established := true, th := th, key := Config.spdmSecret x.key (Config.sha384 th),
               exported := Config.spdmExport x.key (Config.sha384 th) })) r))

/-- R459 END_SESSION. -/
def execEndSession (m : SpdmMsg) (s : State) : Out :=
  .next (spdmRequest s m .established (fun s _ => setReply (dropSess s m) (replyTo 0xEC)))

/-! ### TDISP bindings (R463 to R465) -/

def noBind : Bind := { lo := 0, hi := 0, fails := 0, key := none }
def rootOf (s : State) (r : Nat) : RootPort := match mget s.roots r with | some x => x | none => { rppart := 0, binds := [], reply := none }
def bindOf (s : State) (r i : Nat) : Bind := mgetD (rootOf s r).binds i noBind
def setBind (s : State) (r i : Nat) (b : Bind) : State :=
  { s with roots := mupd s.roots r (fun x => { x with binds := msetD x.binds i b noBind }) }

/-- Fields of a binding (R463). -/
def bdRid (b : Bind) : Nat := fldN b.lo.toNat 0 16
def bdEid (b : Bind) : Nat := fldN b.lo.toNat 16 12
def bdState (b : Bind) : Nat := fldN b.lo.toNat 28 4
def bdVa (b : Bind) : Nat := fldN b.hi.toNat 0 55
def bdTo (b : Bind) (st : Nat) : Bind := { b with lo := w64 (setFld b.lo.toNat 28 4 st) }

/-- RPPART's partition when valid (R463). -/
def rpPart (x : RootPort) : Option Nat := if bit x.rppart 4 then some (x.rppart.toNat % 16) else none

/-- Bytes of a digest, byte i being bits 8i + 7 to 8i. -/
def digestBytes (d : BitVec 384) : List Byte := leBytes 48 d.toNat

/-- Whether the acceptance record of a locked binding holds the digest of the device's report (R464). -/
def accepted (s : State) (r : Nat) (b : Bind) : Bool :=
  match placeRun s (encCtx s (bdEid b)) (bdVa b) 64 .read true with
  | (.ok l, s) => runsOk s l && (readRuns s l).take 48 == digestBytes (Config.sha384 (Config.deviceReport r (bdRid b)))
  | _ => false

/-- Basalt's next step with a binding (R464): 1 to 2 or 4, 2 to 3. -/
def bindStep (s : State) (r i : Nat) : State :=
  let b := bindOf s r i
  let live := match rpPart (rootOf s r) with | some p => (liveIn s (bdEid b) p).isSome | none => false
  if bdState b = 1 then setBind s r i (bdTo b (if live then 2 else 4))
  else if bdState b = 2 && accepted s r b then
    { (setBind s r i { bdTo b 3 with key := some s.basalt.keys, fails := 0 }) with
      basalt := { s.basalt with keys := s.basalt.keys + 1 } }
  else s

/-- A hypervisor write of a binding's doubleword 0: state 1 into a free one, state 1 again to a locked one, state 0 into one in
error; any other is ignored (R464). -/
def bindWrite (s : State) (r i : Nat) (v : W64) : State :=
  let b := bindOf s r i
  let st := fldN v.toNat 28 4
  if bdState b = 0 && st = 1 then
    bindStep (bindStep (setBind s r i { b with lo := w64 (v.toNat % 2 ^ 32), fails := 0 }) r i) r i
  else if bdState b = 2 && st = 1 then bindStep s r i
  else if bdState b = 4 && st = 0 then setBind s r i noBind
  else s

/-- A hypervisor write of a binding's doubleword 1 (R463). -/
def bindVaWrite (s : State) (r i : Nat) (v : W64) : State :=
  setBind s r i { bindOf s r i with hi := v &&& 0x7FFFFFFFFFFFC0#64 }

/-- R464 BIND_REQUEST. -/
def execBindRequest (r i : Nat) (lo hi : W64) (s : State) : Out :=
  .next (if r < 4 && i < 8 then bindWrite (bindVaWrite s r i hi) r i lo else s)

/-- R464 BIND_FREE. -/
def execBindFree (r i : Nat) (s : State) : Out := .next (if bdState (bindOf s r i) = 4 then setBind s r i noBind else s)

/-- A binding in state 2 or 3 goes to error; its keys are erased (R464). -/
def bindFail (s : State) (r i : Nat) : State :=
  let b := bindOf s r i
  if bdState b = 2 || bdState b = 3 then setBind s r i { bdTo b 4 with key := none } else s

/-- R464 TDISP_STOP. -/
def execTdispStop (r i : Nat) (s : State) : Out := .next (bindFail s r i)

/-- A write from outside lands through an enclave's translation, or is discarded (R162, R465): it is merged into lines that verify, whole
lines verify after it (R384), and a copy already begun keeps the contents that it found (R162). -/
def inbound (s : State) (eid va : Nat) (data : List Byte) : State :=
  match (mget s.basalt.enclaves eid).filter (fun e => !e.ending) with
  | none => s
  | some _ =>
    match placeRun s (encCtx s eid) va data.length .write false with
    | (.ok l, s) =>
      if mergeOk s l then
        mended (writeRuns (keepOld s (l.flatMap (fun r => (List.range r.2).map (fun j => r.1 + j)))) l data) l
      else s
    | (_, s) => s

/-- What a root port answers to its last request. -/
def setDevReply (s : State) (r : Nat) (x : Option DevReply) : State :=
  { s with roots := mupd s.roots r (fun p => { p with reply := x }) }

/-- The bytes that a device reads through an enclave's translation; none when they cannot be read or do not verify, which is answered as a
refused request is (PRESUMED, log 84). -/
def deviceRead (s : State) (eid va n : Nat) : Option (List Byte) × State :=
  match (mget s.basalt.enclaves eid).filter (fun e => !e.ending) with
  | none => (none, s)
  | some _ =>
    match placeRun s (encCtx s eid) va n .read false with
    | (.ok l, s) => (if runsOk s l then some (readRuns s l) else none, s)
    | (_, s) => (none, s)

/-- R465 DEVICE_REQUEST: a read is of as many bytes as data has. A request that is not accepted is answered with Unsupported Request. -/
def execDeviceRequest (r rid : Nat) (onStream ideOk write : Bool) (va : W64) (data : List Byte) (s : State) : Out :=
  .next (
    let refused (s : State) : State := setDevReply s r (some .unsupported)
    match (List.range 8).find? (fun i => bdRid (bindOf s r i) == rid && bdState (bindOf s r i) != 0) with
    | none => refused s
    | some i =>
      let b := bindOf s r i
      if bdState b = 3 && onStream && ideOk then
        if write then setDevReply (inbound s (bdEid b) va.toNat data) r none
        else
          match deviceRead s (bdEid b) va.toNat data.length with
          | (some l, s) => setDevReply s r (some (.data l))
          | (none, s) => refused s
      else if ideOk then refused s
      else
        let s := setBind (refused s) r i { b with fails := b.fails + 1 }
        if 16 ≤ b.fails + 1 then bindFail s r i else s)

/-- R162 INBOUND_WRITE. -/
def execInboundWrite (eid : Nat) (va : W64) (data : List Byte) (s : State) : Out := .next (inbound s eid va.toNat data)

/-! ### Streams (R466 to R468) -/

def noStream : Stream :=
  { lo := 0, hi := 0, high := none, seen := [], drops := 0, link := none, gen := 0, tx := 0, rx := 0, oldRx := 0, count := 0, oldUntil := none }
def ueOf (s : State) (p : Nat) : UePort := match mget s.ue p with | some x => x | none => { table := [], up := true, migreq := 0, migst := 0, migrating := none }
def streamOf (s : State) (p i : Nat) : Stream := mgetD (ueOf s p).table i noStream
def setStream (s : State) (p i : Nat) (x : Stream) : State :=
  { s with ue := mupd s.ue p (fun u => { u with table := msetD u.table i x noStream }) }
def stTo (x : Stream) (st : Nat) : Stream := { x with lo := w64 (setFld x.lo.toNat 12 4 st) }

/-- Copies of an enclave that exchange with a peer end with REMOTE (R291, R468). -/
def deadCopies (s : State) (eid peer : Nat) : State :=
  { s with work := s.work.map (fun w => (w.1, match w.2 with
      | .copy c => if c.eid == eid && (tSrck c.tmpl == 4 || tDstk c.tmpl == 4) && tEndpoint c.tmpl == peer
          then .copy { c with dead := true } else .copy c
      | x => x)) }

/-- The collectives of extent 2 of an enclave in progress end with REMOTE (R283, R468). -/
def deadColls (s : State) (eid : Nat) : State :=
  { s with work := s.work.map (fun w => (w.1, match w.2 with
      | .coll l t n cs => .coll l t n (if (mget s.launches l).any (fun x => x.eid == eid)
          then cs.map (fun c => { c with dead := c.dead || c.extent == 2 }) else cs)
      | x => x)) }

/-- A stream enters error: what spans it fails (R468). -/
def streamFail (s : State) (p i : Nat) : State :=
  let x := streamOf s p i
  let s := if stState x = 2 then deadColls s (stEid x) else s
  deadCopies (setStream s p i (stTo x 3)) (stEid x) (stPeer x)

/-- A hypervisor write of a stream entry's doubleword 0 with state 1: into a free entry (R466), or into a keyed or failed one of the same
enclave and rank, whose peer has migrated to another endpoint (R470). -/
def streamWrite (s : State) (p i : Nat) (v : W64) : State :=
  let x := streamOf s p i
  let y : Stream := { noStream with lo := v, hi := x.hi }
  if fldN v.toNat 12 4 = 1 && (stState x = 0 || ((stState x = 2 || stState x = 3) && stEid y == stEid x && stRank y == stRank x
      && stPeer y != stPeer x)) then setStream s p i y else s

/-- A hypervisor write of doubleword 1: this module's rank, into a free or requested entry. -/
def streamSelfWrite (s : State) (p i : Nat) (v : W64) : State :=
  let x := streamOf s p i
  if stState x ≤ 1 then setStream s p i { x with hi := v &&& 0xFFFF#64 } else s

/-- The next keys of a keyed stream, one for each direction, from the export secrets of both its sessions (R467, R468). -/
def rekeyed (x : Stream) : Stream :=
  match x.link with
  | none => x
  | some k => { x with gen := x.gen + 1, tx := Config.streamKey k.own k.peer x.gen, rx := Config.streamKey k.peer k.own x.gen,
                       oldRx := x.rx, count := 0 }

/-- A stream is rekeyed through its sessions; messages under the old key are accepted for 1 ms (R468). -/
def rekeyStream (s : State) (p i : Nat) : State :=
  setStream s p i { rekeyed (streamOf s p i) with oldUntil := some (s.time + 1000000) }

/-- R467 STREAM_REQUEST: Basalt keys a requested entry with the peer, once each has opened a session with the other, or puts it in
error. -/
def execStreamRequest (port i : Nat) (lo hi : W64) (peerHolds sameMeas peerLive : Bool) (s : State) : Out :=
  .next (
    if 16 ≤ port || 64 ≤ i then s
    else
      let s := streamWrite (streamSelfWrite s port i hi) port i lo
      let x := streamOf s port i
      let e := (mget s.basalt.enclaves (stEid x)).filter (fun e => !e.ending)
      if stState x != 1 || (match e with | some e => (feOf s e.part).ferst != 0 | none => false) then s
      else if peerHolds && sameMeas && peerLive && e.isSome then
        let k := Config.linkSecrets s.basalt.keys
        { (setStream s port i (rekeyed { stTo x 2 with link := some { own := k.1, peer := k.2 } })) with
          basalt := { s.basalt with keys := s.basalt.keys + 1 } }
      else streamFail s port i)

/-- Whether a receiver accepts a sequence number: above the highest, or within the 1,024 below it and not seen (R468). -/
def inWindow_ (x : Stream) (sq : Nat) : Bool :=
  match x.high with
  | none => true
  | some h => decide (h < sq) || (decide (h ≤ sq + 1024) && !x.seen.contains sq)

/-- R468 STREAM_MESSAGE. Basalt rekeys the stream before the 2^32nd message under one key is received. -/
def execStreamMessage (port i : Nat) (sq : Nat) (oldKey authentic : Bool) (s : State) : Out :=
  .next (
    let x := streamOf s port i
    let old := match x.oldUntil with | some t => decide (s.time < t) | none => false
    if stState x != 2 then s
    else if authentic && (!oldKey || old) && inWindow_ x sq then
      let h := max sq (x.high.getD 0)
      let y := { x with high := some h, seen := (sq :: x.seen).filter (fun n => decide (h ≤ n + 1024)),
                        count := if oldKey then x.count else x.count + 1 }
      let s := setStream s port i y
      if 2 ^ 32 ≤ y.count + 1 then rekeyStream s port i else s
    else
      let s := setStream s port i { x with drops := x.drops + 1 }
      if 16 ≤ x.drops + 1 then streamFail s port i else s)

/-- R468 STREAM_REKEY: Basalt rekeys a keyed stream. -/
def execStreamRekey (port i : Nat) (s : State) : Out :=
  .next (if stState (streamOf s port i) != 2 then s else rekeyStream s port i)

/-- R468 OLD_KEY_EXPIRY. -/
def execOldKeyExpiry (port i : Nat) (s : State) : Out :=
  .next (
    let x := streamOf s port i
    match x.oldUntil with
    | some t => if t ≤ s.time then setStream s port i { x with oldUntil := none } else s
    | none => s)

/-- R291, R468 PEER_UNREACHABLE: a peer endpoint (tier 0) or storage namespace (tier 1) fails: copies to it end with REMOTE, and
the streams with that peer enter error. -/
def execPeerUnreachable (tier target : Nat) (s : State) : Out :=
  .next (
    let s := { s with unreachable := if s.unreachable.contains (4 + tier, target) then s.unreachable
                                     else s.unreachable ++ [(4 + tier, target)] }
    if tier != 0 then s
    else
      (s.ue.flatMap (fun u => u.2.table.map (fun e => (u.1, e.1)))).foldl (fun s (x : Nat × Nat) =>
        if (stState (streamOf s x.1 x.2) = 1 || stState (streamOf s x.1 x.2) = 2) && stPeer (streamOf s x.1 x.2) = target
        then streamFail s x.1 x.2 else s) s)

/-! ### Migration (R409, R410, R470) -/

def updUe (s : State) (p : Nat) (f : UePort → UePort) : State := { s with ue := mupd s.ue p f }

/-- A write of MIGREQ: busy until Basalt has answered; one made while a migration runs is ignored (R470). -/
def migreqWrite (s : State) (p : Nat) (v : W64) : State :=
  updUe s p (fun u => if u.migst == 1 then u else { u with migreq := v &&& 0xFFFFFFFF0FFF#64, migst := 1 })

/-- Whether steps 1 and 2 of R409 are done for an enclave: its queues that are at work are frozen; every team of its launches has been placed
and saved, and none waits to be restored; its threads are trapped and its forwarding entries freed. -/
def migrateReady (s : State) (eid : Nat) : Bool :=
  let mine (n : Nat) : Bool := match mget s.launches n with | some l => l.eid == eid | none => false
  s.fes.all (fun f => f.2.queues.all (fun u => !(u.2.enc && u.2.eid == eid) || u.2.state == .frozen || u.2.state == .idle || u.2.state == .error))
  && s.launches.all (fun l => l.2.eid != eid || l.2.done || decide (l.2.gx * l.2.gy * l.2.gz ≤ l.2.next))
  && s.fes.all (fun f => f.2.restores.all (fun r => !mine r.launch)) && s.teams.all (fun t => !mine t.2.launch) && s.fwd.all (fun f => f.eid != eid)
  && s.quartz.all (fun q => !(qInside q.2 && qEid q.2 == eid))

/-- R470 MIGRATION_REQUEST: Basalt opens the sessions and hands over the key slot, once steps 1 and 2 of R409 are done; 2 when the EID is
live at the destination, 3 without a session. -/
def execMigrationRequest (port : Nat) (v : W64) (destLive session : Bool) (s : State) : Out :=
  .next (
    let s := migreqWrite s port v
    let u := ueOf s port
    let eid := u.migreq.toNat % 4096
    let end_ (k : Nat) : State := updUe s port (fun u => { u with migst := k })
    if u.migst != 1 || u.migrating.isSome || u.migreq != v &&& 0xFFFFFFFF0FFF#64 then s
    else if !session || ((mget s.basalt.enclaves eid).filter (fun e => !e.ending)).isNone then end_ 3
    else if destLive then end_ 2
    else if !migrateReady s eid then s
    else
      let s := updUe s port (fun u => { u with migrating := some eid })
      let mv := s.basalt.moved.filter (fun (x : Nat × Nat) => x.1 != eid) ++ [(eid, fldN u.migreq.toNat 16 32)]
      { s with basalt := { s.basalt with moved := mv } })

/-- R470 MIGRATION_RESTORE_REPORT: the source ends the enclave, and its stream entries become error. -/
def execMigrationRestoreReport (port : Nat) (s : State) : Out :=
  .next (match (ueOf s port).migrating with
    | none => s
    | some eid => updUe (killEnclave s eid) port (fun u => { u with migrating := none, migst := 0 }))

/-- The teams that come with an enclave, for its front end to restore (R409, step 5): resume entries and launches under numbers not in
use. -/
def importTeams (s : State) (eid part : Nat) : State :=
  let ls := (Config.movedLaunches eid).filter (fun l => decide (l.1 < s.fresh) && (mget s.launches l.1).isNone)
  let s := ls.foldl (fun (s : State) (l : Nat × Launch) =>
    { s with launches := mput s.launches l.1 { l.2 with fe := part, part := part, eid := eid } }) s
  let vs := (Config.movedTeams eid).filter (fun v => ls.any (fun l => l.1 == v.launch))
  { s with saved := s.saved ++ vs.map (fun v => { v with fe := part, eid := eid }) }

/-- R470 MIGRATION_KEY_IMPORT: a destination loads the key slot under the same EID. What else of the enclave the hand-over
carries is not stated: its root, save areas, threads and saved teams are free values (log 25). -/
def execMigrationKeyImport (eid part : Nat) (dbg : Bool) (meas : BitVec 384) (s : State) : Out :=
  .next (
    if 4096 ≤ eid || 16 ≤ part || (mget s.basalt.enclaves eid).isSome then s
    else
      let f (n : Nat) : Nat := Config.migrated eid n
      let e : Enclave :=
        { part := part, threads := f 0 % 257,
          th := (List.range (f 0 % 257)).map (fun t => (t, { expected := f (8 + t) % 2 ^ 32, soft := false })), queues := 0,
          root := f 1 % 2 ^ 30 * 65536, tsa := f 2 % 2 ^ 45 * 1024, entry := f 3 % 2 ^ 55, debug := dbg, meas := meas,
          key := some (nextKeys s), ending := false, tsaLeft := [], heap := [] }
      let s := { s with basalt := { s.basalt with keys := s.basalt.keys + 4, enclaves := mput s.basalt.enclaves eid e,
                                                  baseKeys := loadSlots s.basalt.baseKeys eid (nextKeys s),
                                                  ctlKeys := loadSlots s.basalt.ctlKeys eid (nextKeys s),
                                                  moved := s.basalt.moved.filter (fun x => x.1 != eid) } }
      importTeams s eid part)

/-- A remote atomic reaches its page (R410): it is performed; it is answered as moved, with the destination endpoint, once the page is
frozen, its leaf at tier 1, or has left with its migrating enclave; or it waits until its page is there, as a walk does that meets tier 1 (R374). A copy that has
begun keeps what it found (R162). -/
def remoteAtomic (s : State) (r : RemoteReq) : State :=
  let left := (s.basalt.moved.find? (fun x => x.1 == r.eid)).map (fun x => RemoteAnswer.moved x.2)
  let n := if r.w64 then 8 else 4
  match (mget s.basalt.enclaves r.eid).filter (fun e => !e.ending) with
  | none => { s with remoteReply := left }
  | some _ =>
    let later (s : State) : State :=
      if left.isSome then { s with remoteReply := left } else { s with remoteReply := none, remoteWait := s.remoteWait ++ [r] }
    if r.va.toNat % n != 0 then { s with remoteReply := none }
    else
      match translate s (encCtx s r.eid) r.va.toNat .atomic false with
      | (.ok pa _, s) =>
        if !lineOk s pa then { s with remoteReply := none }
        else
          let l := (List.range n).map (fun j => MLoc.hbm (pa + j))
          let (old, s) := performAtomic (keepOld s ((List.range n).map (fun j => pa + j))) none r.op r.w64 false l r.v 0
          { s with remoteReply := some (.value old) }
      | (.fault k _ _, s) => if k == cFartier then later s else { s with remoteReply := none }
      | (.wait, s) => later s

/-- R410 REMOTE_ATOMIC. -/
def execRemoteAtomic (eid : Nat) (va : W64) (w64_ : Bool) (op : AtomOp) (v : W64) (s : State) : Out :=
  .next (remoteAtomic s { eid := eid, va := va, w64 := w64_, op := op, v := v })

/-- The oldest waiting remote atomic is tried again (R374, R410). -/
def remoteAgain (s : State) : State :=
  match s.remoteWait with
  | [] => s
  | r :: t => remoteAtomic { s with remoteWait := t } r

end Sys2Proof.Machine
end

