-- ==== Sys2Proof/Machine/Debug.lean ====
section
/-! DEFINITION. The debug mailbox (R485 to R490): its commands, and the event ring. -/

namespace Sys2Proof.Machine

/-- Codes of R486. -/
def dbOk : Nat := 0
def dbBaddesc : Nat := 1
def dbNodebug : Nat := 2
def dbNotfound : Nat := 3
def dbPerm : Nat := 4

/-- Doubleword n of a command. -/
def dw (c : DbgCmd) (n : Nat) : Nat := (c.words.getD n 0).toNat
def dbOp (c : DbgCmd) : Nat := fldN (dw c 0) 0 4
def dbEid (c : DbgCmd) : Nat := fldN (dw c 0) 8 12

/-- Whether an unlisted bit or value makes the command BADDESC (R8, R486, R487): the doubleword 0x30 is a field of PATCH alone. -/
def dbgBad (c : DbgCmd) : Bool :=
  let a := dw c 1
  let b := dw c 2
  let x := dw c 3
  fldN (dw c 0) 4 4 != 0 || fldN (dw c 0) 20 44 != 0 || dw c 5 != 0 || (dbOp c != 2 && dw c 6 != 0) || fldN (dw c 7) 9 55 != 0 ||
  (match dbOp c with
    | 1 => decide (2 ≤ x) || dw c 4 != 0
    | 2 => a % 8 != 0 || x != 0 || dw c 4 != 0
    | 3 =>
      let len := fldN x 4 7
      decide (2 ^ 32 ≤ b) || decide (2 ^ 11 ≤ x) || len == 0 || decide (64 < len) || decide (64 < dw c 4 % 64 + len)
    | 4 => decide (2 ^ 18 ≤ a) || decide (16 ≤ b) || decide (2 ≤ b % 4) || dw c 4 != 0
    | _ => true)

/-- Writes a doubleword of the command through the caller's translation; a write that does not translate is not made. -/
def dbgPut (s : State) (c : DbgCmd) (off v : Nat) : State :=
  match placeRun s c.ctx (c.va + off) 8 .write false with
  | (.ok l, s) => if runsOk s l then writeRuns s l (leBytes 8 v) else s
  | (_, s) => s

/-- A command is done: busy clears, then the done doubleword is exchanged (R486). -/
def dbgDone (s : State) (c : DbgCmd) (code : Nat) : State :=
  dbgPut { s with dbox := { s.dbox with cmd := none, code := code } } c 0x38 (code + 256)

/-- A write of DBGCMD, bits [54:6] of it (R8): the command is read through the writer's translation; a write while busy is ignored
(R485, R486). -/
def dbgcmdWrite (s : State) (qn : Nat) (v : W64) : State :=
  match mget s.quartz qn with
  | none => s
  | some q =>
    if s.dbox.cmd.isSome then s
    else
      let bad (s : State) : State := { s with dbox := { s.dbox with code := dbBaddesc } }
      let va := (v &&& 0x7FFFFFFFFFFFC0#64).toNat
      match placeRun s (quartzCtx s q) va 64 .read false with
      | (.ok l, s) =>
        if !runsOk s l then bad s
        else
          let b := readRuns s l
          let c : DbgCmd := { q := qn, va := va, ctx := quartzCtx s q, words := (List.range 8).map (fun j => le64 b (8 * j)) }
          if dbgBad c then dbgDone s c dbBaddesc else { s with dbox := { s.dbox with cmd := some c } }
      | (_, s) => bad s

/-- The enclave of a command: Live in the caller's partition, with debug set (R486). -/
def dbgAllowed (s : State) (c : DbgCmd) : Bool :=
  match liveIn s (dbEid c) c.ctx.part with | some e => e.debug | none => false

/-- The frame of a command: the mailbox takes it if it is free, and acts on the one it has taken, by that core, at that VA and
with that operation. -/
def dbgCommand (q : Nat) (va : W64) (op : Nat) (go : State → DbgCmd → Nat × State) (s : State) : Out :=
  .next (
    let s := dbgcmdWrite s q va
    match s.dbox.cmd with
    | none => s
    | some c =>
      if c.q != q || c.va != (va &&& 0x7FFFFFFFFFFFC0#64).toNat || dbOp c != op then s
      else if !dbgAllowed s c then dbgDone s c dbNodebug
      else
        let r := go s c
        dbgDone r.2 c r.1)

/-! ### The commands (R487) -/

/-- R487 ARM. -/
def execDbgArm (q : Nat) (va : W64) (s : State) : Out :=
  dbgCommand q va 1 (fun s c =>
    let lid := dw c 1
    let team := dw c 2 % 2 ^ 32
    let m := w64 (dw c 2 / 2 ^ 32)
    let old := armedMask s (dbEid c) lid team
    let on := bitN (dw c 3) 0
    let new := if on then old ||| m else old &&& ~~~m
    let rest := s.dbox.armed.filter (fun a => !(a.eid == dbEid c && a.launch == lid && a.team == team))
    let l := if new = 0 then rest else rest ++ [{ eid := dbEid c, launch := lid, team := team, groups := new }]
    let s := { s with dbox := { s.dbox with armed := l } }
    (dbOk, { s with groups := s.groups.map (fun (e : Nat × Group) =>
      (e.1, if e.2.launch == lid && groupEid s e.2 == dbEid c && teamIndex s e.2 == team && bit m e.2.num
        then { e.2 with armed := on } else e.2)) })) s

/-- R487 PATCH: old and new are whole words, so no fetch sees a mix. -/
def execDbgPatch (q : Nat) (va : W64) (s : State) : Out :=
  dbgCommand q va 2 (fun s c =>
    match placeRun s (encCtx s (dbEid c)) (dw c 1) 8 .fetch true with
    | (.ok l, s) =>
      if !runsOk s l then (dbPerm, s)
      else
        let old := leNat (readRuns s l)
        (dbOk, dbgPut (writeRuns s l (leBytes 8 (dw c 2))) c 0x30 old)
    | (_, s) => (dbPerm, s)) s

/-- R487 WATCH. -/
def execDbgWatch (q : Nat) (va : W64) (s : State) : Out :=
  dbgCommand q va 3 (fun s c =>
    let lid := dw c 1
    let team := dw c 2
    let n := fldN (dw c 3) 0 2
    let acc := fldN (dw c 3) 2 2
    let lo := dw c 4
    let w : Watch := { lo := lo, hi := lo + fldN (dw c 3) 4 7, rd := bitN acc 0, wr := bitN acc 1 }
    let r : WatchRec := { eid := dbEid c, launch := lid, team := team, n := n, w := w }
    let rest := s.dbox.watches.filter (fun (x : WatchRec) => !(x.eid == dbEid c && x.launch == lid && x.team == team && x.n == n))
    (dbOk, { s with dbox := { s.dbox with watches := if acc = 0 then rest else rest ++ [r] } })) s

/-- R487, R488 RESUME. The replay records of a slot that goes on elsewhere are discarded (R153). -/
def execDbgResume (q : Nat) (va : W64) (s : State) : Out :=
  dbgCommand q va 4 (fun s c =>
    match mget s.groups (dw c 1) with
    | none => (dbNotfound, s)
    | some g =>
      if !isHalted g || groupEid s g != dbEid c then (dbNotfound, s)
      else
        let sl := bitN (dw c 2) 3
        let g := if dw c 3 = 0 || w64 (dw c 3) == (getSlot g sl).pc then g
          else { setSlot g sl { getSlot g sl with pc := w64 (dw c 3) } with replay := g.replay.filter (fun r => r.slot != sl) }
        let pass := if bitN (dw c 2) 2 then some sl else g.pass
        (dbOk, setGroup s (dw c 1) { g with stop := .none, stopSlot := sl, stepping := bitN (dw c 2) 0, pass := pass })) s

/-! ### The event ring (R485, R488, R489) -/

/-- A write of DBGRING, which the writer's context translates from then on. -/
def dbgringWrite (s : State) (q : Quartz) (v : W64) : State :=
  { s with dbox := { s.dbox with ring := v &&& 0x7FFFFFFFFFF001#64, root := quartzCtx s q } }

/-- R488 DEBUG_EVENT_WRITE: the oldest waiting record is written once the ring has room, and then counted. -/
def execDebugEventWrite (s : State) : Out :=
  .next (match s.dbox.queue with
    | [] => s
    | r :: t =>
      if !bit s.dbox.ring 0 || 64 ≤ (s.dbox.wr + 2 ^ 16 - s.dbox.rd) % 2 ^ 16 then s
      else
        match placeRun s s.dbox.root (fldN s.dbox.ring.toNat 12 43 * 4096 + 64 * (s.dbox.wr % 64)) 64 .write false with
        | (.ok l, s) =>
          let s := writeRuns s l (r.flatMap (fun w => leBytes 8 w.toNat))
          { s with dbox := { s.dbox with queue := t, wr := (s.dbox.wr + 1) % 2 ^ 16 } }
        | (_, s) => s)

/-- A write of DBGRD: a value above DBGWR is ignored (R485). -/
def dbgrdWrite (s : State) (v : W64) : State :=
  if s.dbox.wr < v.toNat % 2 ^ 16 then s else { s with dbox := { s.dbox with rd := v.toNat % 2 ^ 16 } }

/-- R485 DBG_EVENT_CONSUME. -/
def execDbgEventConsume (v : W64) (s : State) : Out := .next (dbgrdWrite s v)

/-- R358 DEBUG_PORT_ACK: IPEND[6] falls, which it does when every record written counts as consumed (R485; DEDUCED, log 91). -/
def execDebugPortAck (s : State) : Out := .next { s with dbox := { s.dbox with rd := s.dbox.wr } }

end Sys2Proof.Machine
end

