-- ==== Sys2Proof/Machine/VecFp.lean ====
section
/-! DEFINITION. The floating-point words and conversions (R225 to R233). -/

namespace Sys2Proof.Machine

/-- R226 fadd. -/
def execFadd (o : VOp) (s : State) : Out := fltWord2 (.fadd o) o fAddE s

/-- R226 fsub. -/
def execFsub (o : VOp) (s : State) : Out := fltWord2 (.fsub o) o fSubE s

/-- R226 fmul. -/
def execFmul (o : VOp) (s : State) : Out := fltWord2 (.fmul o) o fMulE s

/-- R226 ffma: one rounding. -/
def execFfma (o : VOp) (s : State) : Out :=
  laneWord (.ffma o) o false (fun s loc g sl j =>
    fFmaE (rctl g sl o.rm o.sat) o.ty (vVal s loc g sl false o.a j) (bVal s loc g sl o false j)
      (vVal s loc g sl false o.c j)) s

/-- R227 fmin. -/
def execFmin (o : VOp) (s : State) : Out := fltWord2 (.fmin o) o (fun c f x y => fMinMax false c.fzi f x y) s

/-- R227 fmax. -/
def execFmax (o : VOp) (s : State) : Out := fltWord2 (.fmax o) o (fun c f x y => fMinMax true c.fzi f x y) s

/-- R226 fabs: on the bits, no flag. -/
def execFabs (o : VOp) (s : State) : Out := fltWord1 (.fabs o) o (fun _ f x => (absBits f x, 0)) s

/-- R226 fneg: on the bits, no flag. -/
def execFneg (o : VOp) (s : State) : Out := fltWord1 (.fneg o) o (fun _ f x => (negBits f x, 0)) s

/-- R228 fcmp. -/
def execFcmp (c : FCond) (o : VOp) (s : State) : Out :=
  groupWord (.fcmp c o) s (fun s loc g sl =>
    let r := (actLanes g sl o.k).map (fun j =>
      (j, fCompare c (fmtFzi g sl) o.ty (vVal s loc g sl false o.a j) (bVal s loc g sl o false j)))
    let m := maskResult (gRead g o.d) g.width (r.map (fun x => (x.1, x.2.1)))
    .done (orFlags (writeReg s o.d m) (r.foldl (fun a x => a ||| x.2.2) 0)))

/-- R229 fclass. -/
def execFclass (o : VOp) (s : State) : Out := fltWord1 (.fclass o) o (fun _ f x => (fClass f x, 0)) s

/-- R226 fdiv. -/
def execFdiv (o : VOp) (s : State) : Out := fltWord2 (.fdiv o) o fDivE s

/-- R226 frcp. -/
def execFrcp (o : VOp) (s : State) : Out := fltWord1 (.frcp o) o fRcpE s

/-- R226 frsq. -/
def execFrsq (o : VOp) (s : State) : Out := fltWord1 (.frsq o) o fRsqE s

/-- R226 fsqrt. -/
def execFsqrt (o : VOp) (s : State) : Out := fltWord1 (.fsqrt o) o fSqrtE s

/-- R226 fexp2. -/
def execFexp2 (o : VOp) (s : State) : Out := fltWord1 (.fexp2 o) o fExp2E s

/-- R226 flog2. -/
def execFlog2 (o : VOp) (s : State) : Out := fltWord1 (.flog2 o) o fLog2E s

/-- R226 fsin. -/
def execFsin (o : VOp) (s : State) : Out := fltWord1 (.fsin o) o (fTrigE false) s

/-- R226 fcos. -/
def execFcos (o : VOp) (s : State) : Out := fltWord1 (.fcos o) o (fTrigE true) s

/-- R230 fround. -/
def execFround (o : VOp) (s : State) : Out := fltWord1 (.fround o) o fRoundE s

/-- Narrow float destinations that FMT.sat governs (R93, R231). -/
def fmtSatRules : VTy → Bool
  | .f16 | .bf16 | .e4m3 | .e5m2 | .fp4 | .dl8 => true
  | _ => false

/-- Saturation of a conversion: .sat, or FMT.sat for the narrow float destinations (R231). -/
def cvtSat (g : Group) (sl : Bool) (dest : VTy) (sat : Bool) : Bool := sat || (fmtSatRules dest && fmtSat g sl)

/-- The register image of a converted value: a 16-bit, 8-bit or 4-bit encoding in the low bits (R231). -/
def cvtImage (dest : VTy) (x : Nat) : Nat := if VTy.isInt dest then zextN (ibits dest) x else zextN (fbits dest) x

/-- R231 cvt. -/
def execCvt (o : VOp) (s : State) : Out :=
  laneWord (.cvt o) o (VTy.wide o.ty) (fun s loc g sl j =>
    let fr := (vtyOf (o.c.toNat % 64)).getD .b32
    let r := cvtVal fr o.ty (modeOf g sl o.rm) (cvtSat g sl o.ty o.sat) (fmtFzi g sl) (fmtFzo g sl)
      (vVal s loc g sl (VTy.wide fr) o.a j)
    (cvtImage o.ty r.1, r.2)) s

/-- Bits of an element of pack and unpk (R232). -/
def elemBits : VTy → Nat
  | .fp4 => 4
  | .f16 | .bf16 | .i16 | .n16 => 16
  | _ => 8

/-- One element of pack: the encoding and its flags (R232). -/
def packOne (g : Group) (sl : Bool) (o : VOp) (x : Nat) : Nat × Nat :=
  if VTy.isInt o.ty then
    let i : Int := if VTy.isSigned o.ty then sextN 32 x else (zextN 32 x : Nat)
    (wrapI (elemBits o.ty) (if o.sat then satint o.ty i else i), 0)
  else cvtVal .f32 o.ty (modeOf g sl o.rm) (cvtSat g sl o.ty o.sat) (fmtFzi g sl) (fmtFzo g sl) x

/-- R232 pack: elements 2p and 2p + 1 of vD. -/
def execPack (o : VOp) (s : State) : Out :=
  laneWord (.pack o) o false (fun s loc g sl j =>
    let n := elemBits o.ty
    let p := o.c.toNat
    let x := packOne g sl o (vVal s loc g sl false o.a j)
    let y := packOne g sl o (bVal s loc g sl o false j)
    (setFld (setFld (vVal s loc g sl false o.d j) (n * (2 * p)) n x.1) (n * (2 * p + 1)) n y.1, x.2 ||| y.2)) s

/-- R233 unpk: element p, widened. -/
def execUnpk (o : VOp) (s : State) : Out :=
  laneWord (.unpk o) o false (fun s loc g sl j =>
    let n := elemBits o.ty
    let x := fldN (vVal s loc g sl false o.a j) (n * o.c.toNat) n
    if VTy.isInt o.ty then (wrapI 32 (if VTy.isSigned o.ty then sextN n x else (x : Int)), 0)
    else cvtVal o.ty .f32 (modeOf g sl o.rm) false (fmtFzi g sl) (fmtFzo g sl) x) s

end Sys2Proof.Machine
end

