-- ==== Sys2Proof/Machine/Half.lean ====
section
/-! DEFINITION. The dual words (R174, R234): each is named by its half A and carries half B. Both halves read before
either writes. -/

namespace Sys2Proof.Machine

/-- A binary half d op a: value and flags (R234). -/
def halfTwo (op : HOp2) (c : RCtl) (x y : Nat) : Nat × Nat :=
  let i (r : Int) : Nat × Nat := (wrapI 32 r, 0)
  match op with
  | .vadd => i ((x : Int) + y)
  | .vsub => i ((x : Int) - y)
  | .vmul => i ((x : Int) * y)
  | .vand => (x &&& y, 0)
  | .vor => (x ||| y, 0)
  | .vxor => (x ^^^ y, 0)
  | .vandn => (andNot 32 x y, 0)
  | .vshl => (shlN 32 x (y % 256), 0)
  | .vshr => (shrN 32 x (y % 256), 0)
  | .vsra => i (sraN 32 x (y % 256))
  | .vminI => i (min (sextN 32 x) (sextN 32 y))
  | .vminN => (min x y, 0)
  | .vmaxI => i (max (sextN 32 x) (sextN 32 y))
  | .vmaxN => (max x y, 0)
  | .fadd => fAddE c .f32 x y
  | .fsub => fSubE c .f32 x y
  | .fmul => fMulE c .f32 x y
  | .fmin => fMinMax false c.fzi .f32 x y
  | .fmax => fMinMax true c.fzi .f32 x y

/-- A unary half: value and flags (R234). -/
def halfOne (op : HOp1) (x : Nat) : Nat × Nat :=
  match op with
  | .vmov => (x, 0)
  | .vabs => (wrapI 32 ((sextN 32 x).natAbs : Int), 0)
  | .vneg => (wrapI 32 (-(sextN 32 x)), 0)
  | .fabs => (absBits .f32 x, 0)
  | .fneg => (negBits .f32 x, 0)

/-- Source and destination formats of a half conversion (R174). -/
def halfPair : HalfCvt → VTy × VTy
  | .f32bf16 => (.f32, .bf16) | .f32f16 => (.f32, .f16) | .bf16f32 => (.bf16, .f32)
  | .f16f32 => (.f16, .f32) | .bf16f16 => (.bf16, .f16) | .f16bf16 => (.f16, .bf16)

/-- Lane j of a half: its value and flags, read from the state before the word. -/
def halfLane (s : State) (loc : Nat) (g : Group) (sl : Bool) (h : Half) (j : Nat) : Nat × Nat :=
  let c := rctl g sl none false
  let r (a : Sel) : Nat := vVal s loc g sl false a j
  match h with
  | .nop => (0, 0)
  | .two op d a => halfTwo op c (r d) (r a)
  | .one op _ a => halfOne op (r a)
  | .ffma d a b => fFmaE c .f32 (r a) (r b) (r d)
  | .vli _ imm => (wrapI 32 (sextN 8 imm.toNat), 0)
  | .cvt p _ a =>
    let x := cvtVal (halfPair p).1 (halfPair p).2 c.m (cvtSat g sl (halfPair p).2 false) c.fzi c.fzo (r a)
    (cvtImage (halfPair p).2 x.1, x.2)
  | .shflx m _ a =>
    let n := j ^^^ m.toNat
    (vVal s loc g sl false a (if n < g.width && bit (live g sl) n then n else j), 0)

/-- What a half writes: its lanes' values, computed from the state before the word. -/
def halfVals (s : State) (loc : Nat) (g : Group) (sl : Bool) (h : Half) : List (Nat × Nat × Nat) :=
  (lanesOf (live g sl) g.width).map (fun j => (j, halfLane s loc g sl h j))

/-- Writes a half's values into its destination. -/
def putHalf (s : State) (loc : Nat) (g : Group) (sl : Bool) (h : Half) (l : List (Nat × Nat × Nat)) : State :=
  match halfDest h with
  | some d => putLanes s loc g sl false d l
  | none => s

/-- The effect of a dual word of halves a and b: both read, then both write (R174). A core without lanes gets here with two nops only,
since every other half names a vector (R346). -/
def dualBody (a b : Half) (s : State) : Res :=
  match s.agent, curGroup s with
  | .group loc sl, some g =>
    let x := halfVals s loc g sl a
    let y := halfVals s loc g sl b
    .done (putHalf (putHalf s loc g sl a x) loc g sl b y)
  | _, _ => .done s

/-- A dual word of halves a and b. -/
def dualWord (i : Instr) (a b : Half) (s : State) : Out := word i s (dualBody a b)

/-- R174 nop beside half B. -/
def execHalfNop (b : Half) (s : State) : Out := dualWord (.halfNop b) .nop b s

/-- R234 half vadd. -/
def execHalfVadd (d a : Sel) (b : Half) (s : State) : Out := dualWord (.halfVadd d a b) (.two .vadd d a) b s

/-- R234 half vsub. -/
def execHalfVsub (d a : Sel) (b : Half) (s : State) : Out := dualWord (.halfVsub d a b) (.two .vsub d a) b s

/-- R234 half vmul. -/
def execHalfVmul (d a : Sel) (b : Half) (s : State) : Out := dualWord (.halfVmul d a b) (.two .vmul d a) b s

/-- R234 half vand. -/
def execHalfVand (d a : Sel) (b : Half) (s : State) : Out := dualWord (.halfVand d a b) (.two .vand d a) b s

/-- R234 half vor. -/
def execHalfVor (d a : Sel) (b : Half) (s : State) : Out := dualWord (.halfVor d a b) (.two .vor d a) b s

/-- R234 half vxor. -/
def execHalfVxor (d a : Sel) (b : Half) (s : State) : Out := dualWord (.halfVxor d a b) (.two .vxor d a) b s

/-- R234 half vandn. -/
def execHalfVandn (d a : Sel) (b : Half) (s : State) : Out := dualWord (.halfVandn d a b) (.two .vandn d a) b s

/-- R234 half vshl. -/
def execHalfVshl (d a : Sel) (b : Half) (s : State) : Out := dualWord (.halfVshl d a b) (.two .vshl d a) b s

/-- R234 half vshr. -/
def execHalfVshr (d a : Sel) (b : Half) (s : State) : Out := dualWord (.halfVshr d a b) (.two .vshr d a) b s

/-- R234 half vsra. -/
def execHalfVsra (d a : Sel) (b : Half) (s : State) : Out := dualWord (.halfVsra d a b) (.two .vsra d a) b s

/-- R234 half fadd. -/
def execHalfFadd (d a : Sel) (b : Half) (s : State) : Out := dualWord (.halfFadd d a b) (.two .fadd d a) b s

/-- R234 half fsub. -/
def execHalfFsub (d a : Sel) (b : Half) (s : State) : Out := dualWord (.halfFsub d a b) (.two .fsub d a) b s

/-- R234 half fmul. -/
def execHalfFmul (d a : Sel) (b : Half) (s : State) : Out := dualWord (.halfFmul d a b) (.two .fmul d a) b s

/-- R234 half fmin. -/
def execHalfFmin (d a : Sel) (b : Half) (s : State) : Out := dualWord (.halfFmin d a b) (.two .fmin d a) b s

/-- R234 half fmax. -/
def execHalfFmax (d a : Sel) (b : Half) (s : State) : Out := dualWord (.halfFmax d a b) (.two .fmax d a) b s

/-- R234 half vmin: .n32 when nat. -/
def execHalfVmin (nat : Bool) (d a : Sel) (b : Half) (s : State) : Out :=
  dualWord (.halfVmin nat d a b) (.two (if nat then .vminN else .vminI) d a) b s

/-- R234 half vmax: .n32 when nat. -/
def execHalfVmax (nat : Bool) (d a : Sel) (b : Half) (s : State) : Out :=
  dualWord (.halfVmax nat d a b) (.two (if nat then .vmaxN else .vmaxI) d a) b s

/-- R234 half vmov. -/
def execHalfVmov (d a : Sel) (b : Half) (s : State) : Out := dualWord (.halfVmov d a b) (.one .vmov d a) b s

/-- R234 half vabs. -/
def execHalfVabs (d a : Sel) (b : Half) (s : State) : Out := dualWord (.halfVabs d a b) (.one .vabs d a) b s

/-- R234 half vneg. -/
def execHalfVneg (d a : Sel) (b : Half) (s : State) : Out := dualWord (.halfVneg d a b) (.one .vneg d a) b s

/-- R234 half fabs. -/
def execHalfFabs (d a : Sel) (b : Half) (s : State) : Out := dualWord (.halfFabs d a b) (.one .fabs d a) b s

/-- R234 half fneg. -/
def execHalfFneg (d a : Sel) (b : Half) (s : State) : Out := dualWord (.halfFneg d a b) (.one .fneg d a) b s

/-- R234 half ffma. -/
def execHalfFfma (d a c : Sel) (b : Half) (s : State) : Out := dualWord (.halfFfma d a c b) (.ffma d a c) b s

/-- R234 half vli. -/
def execHalfVli (d : Sel) (imm : BitVec 8) (b : Half) (s : State) : Out := dualWord (.halfVli d imm b) (.vli d imm) b s

/-- R234 half cvt. -/
def execHalfCvt (c : HalfCvt) (d a : Sel) (b : Half) (s : State) : Out := dualWord (.halfCvt c d a b) (.cvt c d a) b s

/-- R174 half shflx. -/
def execHalfShflx (m : BitVec 6) (d a : Sel) (b : Half) (s : State) : Out :=
  dualWord (.halfShflx m d a b) (.shflx m d a) b s

end Sys2Proof.Machine
end

