-- ==== Sys2Proof/Machine/Service.lean ====
section
/-! DEFINITION. Boot, watchdog, live update, recovery, spare cores, recalibration, freeze and the module's limits (R495 to
R506), and MACHINE_CHECK (R320, R357, R503). -/

namespace Sys2Proof.Machine

/-! ### Measurement and images (R456, R495 to R497) -/

/-- R456: an extend by a digest. -/
def mrExtend (s : State) (n : Nat) (h : BitVec 384) : State :=
  { s with basalt := { s.basalt with mr := msetD s.basalt.mr n (Config.sha384 (digestBytes (mrOf s n) ++ digestBytes h)) 0 } }

/-- An image as Basalt checks it (R496, R497): its header fields, whether its reserved fields are zero, all of it is there and its
signature verifies, and the SHA-384 of bytes 0x00-0x7F and the body. -/
structure Image where
  magic : W32
  id : BitVec 8
  svn : BitVec 16
  len : W32
  reservedOk : Bool
  whole : Bool
  sigOk : Bool
  digest : BitVec 384
  deriving DecidableEq, Repr

/-- Largest body of an image (R496). -/
def bodyMax : Nat := 2 ^ 25

/-- The image that a byte string starts with (R496). -/
def imageOf (l : List Byte) : Image :=
  let n := 256 + (w32 (imgW l 8)).toNat
  { magic := w32 (imgW l 0), id := BitVec.ofNat 8 (fldN (imgW l 0) 32 8), svn := BitVec.ofNat 16 (fldN (imgW l 0) 48 16),
    len := w32 (imgW l 8),
    reservedOk := fldN (imgW l 0) 40 8 == 0 && fldN (imgW l 8) 32 32 == 0 && zeroPart l 0x10 112 && zeroPart l 0xE0 32,
    whole := decide (n ≤ l.length),
    sigOk := Config.signatureOk (l.take n), digest := Config.sha384 (l.take 128 ++ (l.take n).drop 256) }

def noBlock : Block := { released := false, held := false, svn := 0, fails := [], quiet := false }
def blockOf (s : State) (n : Nat) : Block := match mget s.basalt.blocks n with | some b => b | none => noBlock
def updBlock (s : State) (n : Nat) (f : Block → Block) : State :=
  { s with basalt := { s.basalt with blocks := mupd s.basalt.blocks n f } }

/-- Whether an id names a block (R495). -/
def isBlock (n : Nat) : Bool := 2 ≤ n && n ≤ 10

/-- Form and signature of an image (R497). -/
def imageForm (x : Image) : Bool :=
  x.magic == 0x56424D49#32 && x.reservedOk && x.whole && decide (x.len.toNat ≤ bodyMax) && x.sigOk

/-- R497: whether Basalt accepts an image for a block. -/
def imageAccepted (s : State) (n : Nat) (x : Image) : Bool :=
  imageForm x && x.id.toNat == n && decide ((blockOf s n).svn ≤ x.svn.toNat)

/-! ### The flash (R495) -/

/-- Entry i of the directory: block id, offset and size of an image. -/
def dirEntry (m : Bytes) (i : Nat) : Nat × Nat × Nat := (readLe m (16 * i) 1, readLe m (16 * i + 1) 4, readLe m (16 * i + 5) 4)

/-- The first entry with an id; that of id 0 is an empty one. -/
def dirFind (m : Bytes) (n : Nat) : Option Nat := (List.range 16).find? (fun i => (dirEntry m i).1 == n)

/-- The bytes of the image that the flash names for a block. -/
def flashImage (s : State) (n : Nat) : Option (List Byte) :=
  (dirFind s.basalt.flash n).map (fun i => readBytes s.basalt.flash (dirEntry s.basalt.flash i).2.1 (dirEntry s.basalt.flash i).2.2)

/-- The largest flash device (R495). -/
def flashMax : Nat := 2 ^ 28

/-- Whether bytes of the flash are clear of the directory, and of every image but that of entry i. -/
def flashRoom (m : Bytes) (i off n : Nat) : Bool :=
  256 ≤ off && off + n ≤ flashMax && (List.range 16).all (fun j =>
    let e := dirEntry m j
    j == i || e.1 == 0 || decide (off + n ≤ e.2.1) || decide (e.2.1 + e.2.2 ≤ off))

/-- The entry and offset at which an image of n bytes is written for a block: over the block's old one where it fits, else after the
images of the others (DESIGN CHOICE, log 92). -/
def flashPlace (m : Bytes) (block n : Nat) : Option (Nat × Nat) :=
  let old := dirFind m block
  match old.or (dirFind m 0) with
  | none => none
  | some i =>
    let off := (List.range 16).foldl (fun x j =>
      let e := dirEntry m j
      if j = i || e.1 = 0 then x else max x (e.2.1 + e.2.2)) 256
    if old.isSome && flashRoom m i (dirEntry m i).2.1 n then some (i, (dirEntry m i).2.1)
    else if flashRoom m i off n then some (i, off)
    else none

/-- Writes an image for a block to the flash and its entry to the directory; none where there is no room. -/
def flashWrite (m : Bytes) (block : Nat) (l : List Byte) : Option Bytes :=
  (flashPlace m block l.length).map (fun p =>
    writeBytes (writeLe m (16 * p.1) 9 (block + 2 ^ 8 * p.2 + 2 ^ 40 * l.length)) p.2 l)

/-! ### Blocks (R498, R499) -/

/-- What a block's reset leaves of its state (log 23): firmware of the service cores and the Quartz cores starts at PC 0. -/
def blockReset (s : State) (n : Nat) : State :=
  let cores (p : Nat → Bool) (s : State) : State :=
    { s with quartz := s.quartz.map (fun (q : Nat × Quartz) => (q.1, if p q.1 then resetQuartz q.1 else q.2)) }
  match n with
  | 2 => cores (fun q => 32 ≤ q && q < 36) { s with basalt := { s.basalt with svctl := 0 } }
  | 3 | 4 => cores (fun q => q < 32) s
  | 5 => { s with fes := s.fes.map (fun (f : Nat × FrontEnd) => (f.1, resetFrontEnd)) }
  | 6 => { s with shale := { s.shale with code := 0, cmds := [], recording := [], wset := [] } }
  | 7 => { s with ue := s.ue.map (fun (u : Nat × UePort) => (u.1, { table := [], up := u.2.up, migreq := 0, migst := 0, migrating := none })) }
  | 8 => { s with roots := State.reset.roots }
  | 10 =>
    let s := dropTeams s (fun _ => true)
    { s with cores := State.reset.cores, dies := State.reset.dies }
  | _ => s

/-- The cores of a block begin to issue. -/
def startCores (s : State) (n : Nat) : State :=
  let cores (p : Nat → Bool) (s : State) : State :=
    { s with quartz := s.quartz.map (fun (q : Nat × Quartz) => (q.1, if p q.1 then { q.2 with halted := false } else q.2)) }
  match n with
  | 2 => cores (fun q => 32 ≤ q && q < 36) s
  | 3 | 4 => cores (fun q => q < 32) s
  | _ => s

/-- A block leaves reset: the cores of its kind may issue, and the service cores serve every partition (R361). -/
def blockStart (s : State) (n : Nat) : State :=
  startCores (if n = 2 then { s with basalt := { s.basalt with svctl := 0xFFFF#64 } } else s) n

/-- A block is held in reset. -/
def blockHold (s : State) (n : Nat) : State := updBlock (blockReset s n) n (fun b => { b with released := false, quiet := false })

/-- The frames that Basalt fixes before any Quartz core runs (R498). -/
def fixFrames (s : State) : State :=
  Config.bootFrames.foldl (fun s (f : Nat × Bool) =>
    let o : Own := { ownOf s f.1 with cls := if f.2 then 4 else 1, zeroed := false }
    setOwn s f.1 o) s

/-- An image is loaded: measured, the fused counter raised, the block released (R497, R498). -/
def loadBlock (s : State) (n : Nat) (x : Image) : State :=
  let first := mrOf s 3 == 0
  let s := mrExtend s n x.digest
  let s := updBlock s n (fun b => { b with released := true, held := false, quiet := false, svn := max b.svn x.svn.toNat })
  blockStart (if n = 3 && first then fixFrames s else s) n

/-- The port that a recovery request goes out on: port 0, or the lowest reachable one (R501). -/
def recoveryPort (s : State) : Option Nat := (List.range 16).find? (fun p => match mget s.ue p with | some u => u.up | none => false)

/-- R501: Basalt asks for the image of a block. -/
def askImage (s : State) (n : Nat) : State :=
  { s with basalt := { s.basalt with recover := some { block := n, port := recoveryPort s, svn := (blockOf s n).svn } } }

/-- A port's link comes up or goes down; a recovery that is awaited is asked for on the port that is then the right one (R501). -/
def linkTurn (s : State) (port : Nat) (up : Bool) : State :=
  let s := { s with ue := mupd s.ue port (fun u => { u with up := up }) }
  match s.basalt.recover with
  | some r => { s with basalt := { s.basalt with recover := some { r with port := recoveryPort s } } }
  | none => s

/-- The flash image of a block, checked and loaded, or recovery awaited (R498). -/
def bootBlock (s : State) (n : Nat) : State :=
  match flashImage s n with
  | some l => if imageAccepted s n (imageOf l) then loadBlock s n (imageOf l) else askImage s n
  | none => askImage s n

/-- R498 BOOT: the next block in ascending id order; the first step extends MR0 and MR1 (R456). -/
def execBoot (s : State) : Out :=
  .next (
    let up := (s.basalt.blocks.filter (fun b => b.2.released || b.2.held)).length
    let s := if up = 0 && s.basalt.mr.isEmpty then mrExtend (mrExtend s 0 Config.romDigest) 1 Config.fuseDigest else s
    match s.basalt.recover with
    | some _ => s
    | none =>
      match s.basalt.blocks.find? (fun b => !b.2.released && !b.2.held) with
      | some b => bootBlock s b.1
      | none => s)

/-- R499 WATCHDOG_EXPIRY: a silent block is reloaded, or held after three failures within 10 s. -/
def execWatchdogExpiry (block : Nat) (s : State) : Out :=
  .next (
    if !(blockOf s block).released then s
    else
      let f := ((blockOf s block).fails.filter (fun t => decide (s.time < t + 10 ^ 10))) ++ [s.time]
      let s := updBlock (blockHold s block) block (fun b => { b with fails := f })
      if 3 ≤ f.length then report (updBlock s block (fun b => { b with held := true })) 2 block
      else report (bootBlock s block) 1 block)

/-- R501 RECOVERY: a reply arrives. The first image that passes is written to flash, and the block's steps are repeated. -/
def execRecovery (block : Nat) (img : List Byte) (s : State) : Out :=
  .next (
    match s.basalt.recover with
    | none => s
    | some r =>
      if r.block != block || r.port.isNone || !imageAccepted s block (imageOf img) then s
      else
        match flashWrite s.basalt.flash block img with
        | none => s
        | some m => bootBlock { s with basalt := { s.basalt with recover := none, flash := m } } block)

/-! ### Live update (R500, R502) -/

def upOk : Nat := 0
def upBadsig : Nat := 1
def upRollback : Nat := 2
def upBadblock : Nat := 3
def upLoadfail : Nat := 4
def upFlash : Nat := 5

/-- A write of UPDREQ, ignored while busy. -/
def updreqWrite (s : State) (v : W64) : State :=
  if s.basalt.updBusy then s
  else { s with basalt := { s.basalt with updBusy := true, updPa := (v &&& 0x3FFFFFFFFFC0#64).toNat } }

def updDone (s : State) (code : Nat) : State :=
  { s with basalt := { s.basalt with updBusy := false, updCode := code, update := none } }

/-- Whether a staged range lies in intact lines of hypervisor-class frames. -/
def stagedOk (s : State) (pa n : Nat) : Bool :=
  (List.range (n / 65536 + 2)).all (fun j =>
    decide (n ≤ 65536 * j - pa % 65536) || (ownOf s (pa / 65536 + j)).cls == 1) && runsOk s [(pa, n)]

/-- The staged image: its header and body; none when it is not where R500 has it. -/
def stagedImage (s : State) : Option (List Byte) :=
  let pa := s.basalt.updPa
  if !stagedOk s pa 256 then none
  else
    let n := readLe s.hbm (pa + 8) 4
    if bodyMax < n || !stagedOk s pa (256 + n) then none
    else some (readBytes s.hbm pa (256 + n))

/-- Step 1 of R500, on Basalt's own copy of the image: the check, and the hold of the block, or for ids 3 and 4 the flash write. -/
def updateCheck (s : State) : State :=
  match stagedImage s with
  | none => updDone s upBadsig
  | some l =>
    let x := imageOf l
    let n := x.id.toNat
    if !imageForm x then updDone s upBadsig
    else if !isBlock n then updDone s upBadblock
    else if x.svn.toNat < (blockOf s n).svn then updDone s upRollback
    else if n = 3 || n = 4 then { s with basalt := { s.basalt with update := some (.flash n l) } }
    else
      let s := if n = 10 then s else updBlock s n (fun b => { b with quiet := b.released })
      { s with basalt := { s.basalt with update := some (.quiesce n l 0) } }

/-- Whether a block that an update holds has come to rest: every queue of a front end is at a packet boundary, none in the middle of a
LAUNCH (R502). The hold of the others takes effect at once. -/
def quiesced (s : State) (n : Nat) : Bool :=
  n != 5 || s.fes.all (fun f => f.2.queues.all (fun u => u.2.pair.isNone && u.2.placing.isNone && u.2.holds.isEmpty))

/-- The cores of cluster n of the module. -/
def clusterCores (n : Nat) : List Nat := (List.range 8).map (fun j => 256 * (n / 6) + 16 * (n % 6) + j)

/-- R502: the cluster that is held like a retiring core goes on once no team is on it; its cores start afresh. -/
def clusterStep (s : State) (l : List Byte) (n : Nat) : State :=
  let cs := clusterCores n
  if cs.any (fun c => !(coreGroups s c).isEmpty || s.teams.any (fun t => teamOn t.2 c)) then s
  else
    let s := cs.foldl (fun s c => updCore s c (fun x =>
      { resetCore with ticks := x.ticks, retired := x.retired, spare := x.spare, checks := x.checks })) s
    { s with basalt := { s.basalt with update := some (.quiesce 10 l (n + 1)) } }

/-- An image is loaded over what a held block holds, which it keeps (R502); the cores of service firmware start afresh. -/
def loadOver (s : State) (n : Nat) (x : Image) : State :=
  if (blockOf s n).released then
    let s := mrExtend s n x.digest
    let s := updBlock s n (fun b => { b with quiet := false, svn := max b.svn x.svn.toNat })
    if n = 2 then startCores { s with quartz := s.quartz.map (fun q => (q.1, if 32 ≤ q.1 && q.1 < 36 then resetQuartz q.1 else q.2)) } 2
    else s
  else loadBlock s n x

/-- Steps 3 and 5 of R500: the load of a held block, or the flash image again, which is awaited by recovery if it fails its check. -/
def updateLoad (s : State) (n : Nat) (l : List Byte) : State :=
  let (k, s) := takeFresh s
  if Config.loadOk k then
    let s := loadOver s n (imageOf l)
    { s with basalt := { s.basalt with update := some (.flash n l) } }
  else
    match flashImage s n with
    | some old =>
      if imageAccepted s n (imageOf old) then updDone (loadOver s n (imageOf old)) upLoadfail
      else updDone (askImage (blockHold s n) n) upLoadfail
    | none => updDone (askImage (blockHold s n) n) upLoadfail

/-- Steps 2 and 4 of R500: the end of the flash write. -/
def updateFlash (s : State) (n : Nat) (l : List Byte) : State :=
  let (k, s) := takeFresh s
  match flashWrite s.basalt.flash n l with
  | some m => if Config.flashOk k then updDone { s with basalt := { s.basalt with flash := m } } upOk else updDone s upFlash
  | none => updDone s upFlash

/-- R500 LIVE_UPDATE: the next step of the update: its check; the hold of its block, and then the load; the end of the flash write. -/
def execLiveUpdate (s : State) : Out :=
  .next (
    if !s.basalt.updBusy then s
    else
      match s.basalt.update with
      | none => updateCheck s
      | some (.quiesce n l k) =>
        if n = 10 && k < 48 then clusterStep s l k else if quiesced s n then updateLoad s n l else s
      | some (.flash n l) => updateFlash s n l)

/-! ### Spare cores and recalibration (R503, R504) -/

/-- The code of logical core n of a die (R209). -/
def logicalCore (die n : Nat) : Nat := 256 * die + 16 * (n / 8) + n % 8

/-- A core is retired: it takes no new team; a spare is set aside for it if one is left. -/
def retireCore (s : State) (die n : Nat) : State :=
  let left := match mget s.dies die with | some d => d.spares | none => 0
  let s := updCore s (logicalCore die n) (fun c => { c with retired := true, spare := decide (0 < left) })
  report (updDie s die (fun d => { d with spares := d.spares - 1 })) 5 (256 * die + n)

/-- A write of CORERET (R503). A core already retired is left as it is: with its spare, or without
one. -/
def coreretWrite (s : State) (die : Nat) (v : W64) : State :=
  let n := v.toNat % 64
  let code (s : State) (k : Nat) : State := updDie s die (fun d => { d with coresp := k })
  match mget s.dies die with
  | none => s
  | some d =>
    if 48 ≤ n then code s 2
    else if (coreOf s (logicalCore die n)).retired then code s (if (coreOf s (logicalCore die n)).spare then 0 else 1)
    else if d.spares = 0 then code s 1
    else code (retireCore s die n) 0

/-- A retired core that holds no team any more is replaced by its spare under the same index. -/
def substitute (s : State) (core : Nat) : State :=
  if (coreOf s core).retired && (coreOf s core).spare && (coreGroups s core).isEmpty && !s.teams.any (fun t => teamOn t.2 core) then
    updCore s core (fun c => { resetCore with ticks := c.ticks })
  else s

/-- R503 CORE_RETIRE: the write of CORERET; for a core already retired, the spare takes its place once it is empty. -/
def execCoreRetire (die core : Nat) (s : State) : Out :=
  .next (
    let c := logicalCore die core
    if core < 48 && (coreOf s c).retired then substitute s c
    else substitute (coreretWrite s die (w64 core)) c)

/-- R504 PHY_RECALIBRATION: ordering, tags and results are unchanged; only timing differs. -/
def execPhyRecalibration (channel : Nat) (s : State) : Out :=
  let _ := channel
  .next s

/-! ### MACHINE_CHECK (R320, R357, R430, R503) -/

/-- A core's third MACHINE_CHECK within one hour retires it (R503). -/
def countCheck (s : State) (core : Nat) : State :=
  let l := ((coreOf s core).checks.filter (fun t => decide (s.time < t + 3600 * 10 ^ 9))) ++ [s.time]
  let s := updCore s core (fun c => { c with checks := l })
  if 3 ≤ l.length && !(coreOf s core).retired then
    retireCore s (coreDie core) (8 * (coreCluster core) + core % 8)
  else s

/-- R320 MACHINE_CHECK. A Quartz core takes it once its deferred results have returned (R357); a halted one takes nothing (R359). -/
def execMachineCheck (ag : Agent) (s : State) : Out :=
  .next (match ag with
    | .group loc sl =>
      match mget s.groups loc with
      | none => s
      | some g =>
        let s := countCheck s (locCore loc)
        if g.stop == .system then s else takeCause s loc sl (trapAt cMachineCheck (getSlot g sl).pc) none
    | .quartz n =>
      match mget s.quartz n with
      | none => s
      | some q => if q.halted || entryWaits s q then s else quartzCause s n (trapAt cMachineCheck q.pc) 0 false
    | .prologue fe => prologueFail s fe)

/-! ### Freeze (R505) -/

/-- A group of a scrubbed enclave: no register, no state of a path, nothing in flight or queued. -/
def blankGroup (g : Group) : Group :=
  let slot (p : Slot) : Slot :=
    { p with pc := 0, pm := 0, exec := 0, rpc := none, fmt := 0, spin := 0, back := none, counts := [], loaded := [], target := 0,
             wait := .none, lent := [] }
  { g with s := [], k := [], v := [], h := [], slot0 := slot g.slot0, slot1 := slot g.slot1, stack := [], exited := 0, flags := 0,
           flagsen := 0, cause := 0, caddr := 0, causeN := 0, shape := 0, region := (0, 0, 0), pend := [], queue := [], chan := [],
           donors := [], replay := [], coll := [] }

/-- The scrub of a live enclave created with debug = 0: its groups' registers and what their engines hold for them, tiles, shared memory,
colours, counted lines, thread registers, and its key slot with every copy. -/
def scrubEnclave (s : State) (eid : Nat) (e : Enclave) : State :=
  let mine (l : Nat) : Bool := match mget s.launches l with | some x => x.eid == eid | none => false
  let locs := (s.groups.filter (fun g => mine g.2.launch)).map (·.1)
  let tcores := (s.teams.filter (fun t => mine t.2.launch)).flatMap (fun t => teamCores t.2)
  let ids := (s.fwd.filter (fun f => f.eid == eid)).flatMap (·.ids)
  let qs (q : Quartz) : Quartz := if qInside q && qEid q == eid then { q with s := [], k := [], divzero := false, pend := [] } else q
  let s := clearPart s e.part
  { s with
    groups := s.groups.map (fun (g : Nat × Group) => (g.1, if mine g.2.launch then blankGroup g.2 else g.2)),
    teams := s.teams.map (fun (t : Nat × Team) => (t.1, if mine t.2.launch then { t.2 with shared := [], aliased := [] } else t.2)),
    cores := s.cores.map (fun (c : Nat × Core) => (c.1, if tcores.contains c.1 then
      { c.2 with tiles := [], mat := c.2.mat.filter (fun w => !locs.contains w.loc) } else c.2)),
    dies := s.dies.map (fun (d : Nat × Die) => (d.1, { d.2 with lines := d.2.lines.filter (fun l => l.eid != eid) })),
    quartz := s.quartz.map (fun (q : Nat × Quartz) => (q.1, qs q.2)),
    work := s.work.filter (fun w => !workOf eid mine (fun l => locs.contains l) w.2),
    late := s.late.filter (fun r => !ids.contains r.id), fwd := s.fwd.filter (fun f => f.eid != eid),
    basalt := { s.basalt with enclaves := mput s.basalt.enclaves eid { e with key := none },
                              baseKeys := eraseSlots s.basalt.baseKeys eid, ctlKeys := eraseSlots s.basalt.ctlKeys eid } }

/-- A freeze: the clocks stop; then Basalt scrubs, and only then sets FRZST. -/
def freezeStep (s : State) : State :=
  if !s.dbox.frozen then { s with dbox := { s.dbox with frozen := true } }
  else if s.dbox.frzst then s
  else
    let s := (s.basalt.enclaves.filter (fun (e : Nat × Enclave) => !e.2.ending && !e.2.debug)).foldl
      (fun s (e : Nat × Enclave) => scrubEnclave s e.1 e.2) s
    { s with dbox := { s.dbox with frzst := true } }

/-- R505: FREEZE_N. -/
def execFreezePin (s : State) : Out := .next (freezeStep s)

/-- R505: Basalt freezes the module, as FRZCTL has asked. -/
def execFreezeRequest (s : State) : Out := .next (if s.dbox.frzreq then freezeStep s else s)

/-- A write of FRZCTL. -/
def frzctlWrite (s : State) (v : W64) : State :=
  if bit v 0 then { s with dbox := { s.dbox with frzreq := true } } else s

/-- R505: scan read-out is refused until FRZST bit [0] is set. -/
def execScanReadOut (s : State) : Out := .next { s with dbox := { s.dbox with scan := some s.dbox.frzst } }

/-- R506: the junction temperature. At 115 °C Basalt freezes the module; from 105 °C clusters run at 1,200 MHz. -/
def execThermalLimit (celsius : Nat) (s : State) : Out :=
  .next (
    let s := { s with thermal := decide (105 ≤ celsius) }
    if 115 ≤ celsius then freezeStep s else s)

/-- A flash write that power cuts off leaves an image whose first bytes are not written (R500; log 92). -/
def tornFlash (s : State) : Bytes :=
  match s.basalt.update with
  | some (.flash n l) => (flashWrite s.basalt.flash n (List.replicate 4 0 ++ l.drop 4)).getD s.basalt.flash
  | _ => s.basalt.flash

/-- R500, R505 POWER_LOSS: the module starts again from reset. Flash, fused counters and memories outside the module stay; a
flash write in progress leaves an image that fails R497. Counters of the model's own go on. -/
def execPowerLoss (s : State) : Out :=
  .next (
    let r := State.reset
    let blocks := s.basalt.blocks.map (fun (b : Nat × Block) => (b.1, { noBlock with svn := b.2.svn }))
    { r with basalt := { r.basalt with flash := tornFlash s, blocks := blocks, keys := s.basalt.keys },
             ue := r.ue.map (fun (u : Nat × UePort) => (u.1, { u.2 with up := match mget s.ue u.1 with | some x => x.up | none => true })),
             far := s.far, unreachable := s.unreachable, fresh := s.fresh, script := s.script })

end Sys2Proof.Machine
end

