-- ==== Sys2Proof/Machine/Platform.lean ====
section
/-! DEFINITION. Platform registers (R360, R361, and the maps of R393, R412, R413, R438 to R442, R445, R450, R463, R466, R470,
R485, R500, R503, R505): which exist, at which level, and what reading and writing them does. -/

namespace Sys2Proof.Machine

def b2n (b : Bool) : Nat := if b then 1 else 0

/-! ### Reading -/

/-- The state that a queue of a held front end shows: Frozen from its packet boundary on (R502). -/
def heldState (u : Queue) : QState :=
  if (u.state == .running || u.state == .waiting) && u.pair.isNone then .frozen else u.state

/-- A queue's registers (R413, R414); held: a live update holds the front ends. -/
def queueRead (held : Bool) (u : Queue) (r : Nat) : Nat :=
  if r = 0x00 then u.base
  else if r = 0x08 then
    b2n (u.state != .idle) + 2 * b2n u.mode + 8 * b2n u.freeze + 16 * (u.n % 16) + 256 * (u.eid % 4096) + 2 ^ 20 * b2n u.enc
      + 2 ^ 21 * b2n u.ien
  else if r = 0x10 then u.sig
  else if r = 0x18 then u.qwr
  else if r = 0x20 then u.qrd
  else if r = 0x28 then (if held then heldState u else u.state).code + 256 * (u.err % 256) + 2 ^ 32 * (u.errIdx % 2 ^ 32)
  else if r = 0x30 then u.spill
  else u.spillLen

def feReadReg (s : State) (fe off : Nat) : W64 :=
  let f := feOf s fe
  if off = 0x000 then f.fepart
  else if off = 0x008 then f.fes2
  else if off = 0x010 then f.fering
  else if off = 0x018 then
    f.irqQ ||| w64 (f.irqCore * 65536 + 2 ^ 24 * b2n (stopPending f) + 2 ^ 25 * b2n f.irqSys)
  else if off = 0x028 then w64 (f.fecst + 256 * b2n f.cmd.isSome)
  else if off = 0x030 then w64 (b2n (f.ferst != 0))
  else if off = 0x038 then f.festop
  else if off = 0x040 then w64 f.stwr
  else if off = 0x048 then w64 f.strd
  else if 0x100 ≤ off then w64 (queueRead (blockOf s 5).quiet (queueOf s fe ((off - 0x100) / 64)) (off % 64))
  else 0

/-- SVST (R361). -/
def svst (s : State) : W64 :=
  w64 (((List.range 16).map (fun p => if (feOf s p).sysc.isEmpty then 0 else 2 ^ p)).foldl (· + ·) 0
    + 65536 * (s.basalt.replied % 65536))

/-- The value of a register, and what reading it changes: BMREP is consumed (R361). Write-only registers read 0. -/
def platRead (s : State) (block off : Nat) : W64 × State :=
  if block < 0x10 then (feReadReg s block off, s)
  else if block = 0x10 then
    (w64 (if off = 0x000 then s.prq.base else if off = 0x008 then s.prq.head else if off = 0x010 then s.prq.tail
          else if off = 0x108 then s.shale.code else 0), s)
  else if block = 0x11 then
    if off = 0x000 then (w64 (s.basalt.written + 65536 * s.basalt.read), s) else bmrepTake s
  else if block = 0x12 then
    (if off = 0x000 then s.basalt.svctl else if off = 0x008 then svst s
     else if off = 0x108 then w64 (s.basalt.updCode + 256 * b2n s.basalt.updBusy) else 0, s)
  else if block = 0x13 then (if off = 0x108 then s.bells else 0, s)
  else if block < 0x28 then
    let d := match mget s.dies (block - 0x20) with | some d => d | none => resetDie
    (if off < 0x080 then mgetD d.colset (off / 8) 0
     else if off = 0x080 then w64 d.colst
     else if off = 0x208 then w64 (d.spares + 256 * d.coresp)
     else if off = 0x200 then 0
     else mgetD d.clpwr ((off - 0x100) / 8) 1, s)
  else if block < 0x40 then
    let u := ueOf s (block - 0x30)
    (if off = 0x080 then u.migreq else if off = 0x088 then w64 u.migst
     else
       let x := streamOf s (block - 0x30) ((off - 0x100) / 16)
       if off % 16 = 0 then x.lo else x.hi, s)
  else if block < 0x44 then
    (if off = 0x000 then (rootOf s (block - 0x40)).rppart
     else
       let b := bindOf s (block - 0x40) ((off - 0x100) / 16)
       if off % 16 = 0 then b.lo else b.hi, s)
  else
    let d := s.dbox
    (if off = 0x008 then w64 (d.code + 256 * b2n d.cmd.isSome)
     else if off = 0x010 then d.ring
     else if off = 0x018 then w64 d.wr
     else if off = 0x020 then w64 d.rd
     else if off = 0x108 then w64 (b2n d.frzst) else 0, s)

/-! ### Writing -/

/-- A write of QCTL (R413, R414): mode, n and ien; en; freeze; resume. -/
def qctlWrite (s : State) (fe q : Nat) (v : W64) : State :=
  let was := (queueOf s fe q).freeze
  let s := updQueue s fe q (fun u =>
    { u with mode := bit v 1, n := fldN v.toNat 4 4, ien := bit v 21, ahead := if u.n = fldN v.toNat 4 4 then u.ahead else [] })
  let s := if bit v 3 == was then s else if bit v 3 then queueFreeze s fe q else queueUnfreeze s fe q
  let s := if bit v 0 then queueEnable s fe q else queueDisable s fe q
  if bit v 2 then queueResume s fe q else s

/-- A write of a queue's register. A ring in another place is read again (log 87). A queue that ran out of packets without a signal owes
a signal set later nothing (R415). -/
def queueWrite (s : State) (fe q r : Nat) (v : W64) : State :=
  if r = 0x00 then updQueue s fe q (fun u => { u with base := (v &&& 0x7FFFFFFFFFFFC0#64).toNat, ahead := [] })
  else if r = 0x08 then qctlWrite s fe q v
  else if r = 0x10 then updQueue s fe q (fun u => { u with sig := v.toNat % 2 ^ 55, sigDue := u.sigDue && !(u.sig == 0 && ranDry u) })
  else if r = 0x18 then queueDoorbell s fe q v
  else if r = 0x30 then updQueue s fe q (fun u => { u with spill := (v &&& 0x7FFFFFFFFF0000#64).toNat })
  else updQueue s fe q (fun u => { u with spillLen := v.toNat % 2 ^ 24 })

def feWriteReg (s : State) (qn fe off : Nat) (v : W64) : State :=
  if off = 0x000 then fepartWrite s fe v
  else if off = 0x008 then updFe s fe (fun f => { f with fes2 := v &&& 0x3FFFFFFF0000#64 })
  else if off = 0x010 then updFe s fe (fun f => { f with fering := v &&& 0x3FFFFFFF000F#64 })
  else if off = 0x018 then feirqWrite s fe v
  else if off = 0x020 then fecmdWrite s qn fe v
  else if off = 0x030 then ferstWrite s fe v
  else if off = 0x038 then updFe s fe (fun f => { f with festop := v &&& 0x3FFFFFFF000F#64 })
  else if off = 0x048 then festrdWrite s fe v
  else queueWrite s fe ((off - 0x100) / 64) (off % 64) v

/-- The image block of a platform block's unit (R360, R495); none for a unit that no image starts. -/
def unitBlock (block : Nat) : Option Nat :=
  if block < 0x10 then some 5
  else if block = 0x10 then some 6
  else if block = 0x12 then some 2
  else if 0x20 ≤ block && block < 0x28 then some 10
  else if 0x30 ≤ block && block < 0x40 then some 7
  else if 0x40 ≤ block && block < 0x44 then some 8
  else none

/-- Whether the unit of a platform block is held in reset (R498, R499). -/
def inReset (s : State) (block : Nat) : Bool :=
  match unitBlock block with | some n => !(blockOf s n).released | none => false

/-- A write of an existing, writable register by a Quartz core. A unit held in reset takes none (DESIGN CHOICE, log 23). -/
def platWrite (s : State) (qn : Nat) (block off : Nat) (v : W64) : State :=
  if inReset s block then s
  else if block < 0x10 then feWriteReg s qn block off v
  else if block = 0x10 then
    if off = 0x000 then { s with prq := { s.prq with base := (v &&& 0x3FFFFFFF0000#64).toNat } }
    else if off = 0x008 then prqheadWrite s v
    else if off = 0x018 then prqdoneWrite s v
    else shcmdWrite s qn v
  else if block = 0x12 then
    if off = 0x000 then { s with basalt := { s.basalt with svctl := v &&& 0xFFFF#64 } } else updreqWrite s v
  else if block = 0x13 then
    if off < 0x100 then doorbellRing s (off / 8) else doorbellClear s qn
  else if block < 0x28 then
    if off < 0x080 then colsetWrite s (block - 0x20) (off / 8) v else coreretWrite s (block - 0x20) v
  else if block < 0x40 then
    if off = 0x080 then migreqWrite s (block - 0x30) v
    else if off % 16 = 0 then streamWrite s (block - 0x30) ((off - 0x100) / 16) v
    else streamSelfWrite s (block - 0x30) ((off - 0x100) / 16) v
  else if block < 0x44 then
    if off = 0x000 then
      { s with roots := mupd s.roots (block - 0x40) (fun x => { x with rppart := v &&& 0x1F#64 }) }
    else if off % 16 = 0 then bindWrite s (block - 0x40) ((off - 0x100) / 16) v
    else bindVaWrite s (block - 0x40) ((off - 0x100) / 16) v
  else if off = 0x000 then dbgcmdWrite s qn v
  else if off = 0x010 then
    match mget s.quartz qn with | some q => dbgringWrite s q v | none => s
  else if off = 0x020 then dbgrdWrite s v
  else frzctlWrite s v

/-! ### The words -/

/-- Whether every earlier access of kind S, and every acquire, of a core has been performed: platform accesses are of kind S at
.dev (R149, R360). -/
def platformReady (l : List Pend) : Bool := l.all (fun p => p.returned || !(p.kind == .s || isAcq p))

/-- Whether a write is a request to Shale that waits for the reset of the caller's partition (R446). -/
def resetWaits (s : State) (q : Quartz) (block off : Nat) : Bool :=
  block == 0x10 && off == 0x100 && (feOf s (callerPart s q)).ferst != 0

/-- R360 mfp: the value is that of the moment of issue, and lands as a deferred result. -/
def execMfp (d : Sel) (block : BitVec 8) (off : BitVec 24) (s : State) : Out :=
  quartzWord (.mfp d block off) s (fun s _ q =>
    match platMap block.toNat off.toNat with
    | none => raise s cIllegalReg
    | some (_, acc) =>
      if !platformReady q.pend then .stall s
      else if acc = .wo then answer s d 0
      else
        let r := platRead s block.toNat off.toNat
        answer r.2 d r.1)

/-- R360 mtp. -/
def execMtp (block : BitVec 8) (off : BitVec 24) (a : Sel) (s : State) : Out :=
  quartzWord (.mtp block off a) s (fun s qn q =>
    match platMap block.toNat off.toNat with
    | none => raise s cIllegalReg
    | some (_, acc) =>
      if acc = .ro then raise s cIllegalReg
      else if !platformReady q.pend || resetWaits s q block.toNat off.toNat then .stall s
      else .done (platWrite s qn block.toNat off.toNat (readReg s a)))

/-- R360 PLATFORM_REGISTER_WRITE: a write by a core at its level; one that the word would not make changes nothing. -/
def execPlatformRegisterWrite (q : Nat) (block : BitVec 8) (off : BitVec 24) (v : W64) (s : State) : Out :=
  .next (match mget s.quartz q, platMap block.toNat off.toNat with
    | some c, some (lv, acc) =>
      if c.level < lv || acc = .ro || off.toNat % 8 != 0 || resetWaits s c block.toNat off.toNat then s
      else platWrite s q block.toNat off.toNat v
    | _, _ => s)

end Sys2Proof.Machine
end

