-- ==== Sys2Proof/Machine/Dispatch.lean ====
section
/-! DEFINITION. The dispatch: one arm per constructor of Instr. -/

namespace Sys2Proof.Machine

open Sys2Proof

/-- The effect of an instruction or event. -/
def exec (i : Instr) (s : State) : Host.Outcome State Fault Refusal :=
  match i with
  | .sadd t d a b => Sys2Proof.Machine.execSadd t d a b s
  | .ssub t d a b => Sys2Proof.Machine.execSsub t d a b s
  | .smul t d a b => Sys2Proof.Machine.execSmul t d a b s
  | .smulh t d a b => Sys2Proof.Machine.execSmulh t d a b s
  | .sdiv t d a b => Sys2Proof.Machine.execSdiv t d a b s
  | .srem t d a b => Sys2Proof.Machine.execSrem t d a b s
  | .sand t d a b => Sys2Proof.Machine.execSand t d a b s
  | .sor t d a b => Sys2Proof.Machine.execSor t d a b s
  | .sxor t d a b => Sys2Proof.Machine.execSxor t d a b s
  | .sandn t d a b => Sys2Proof.Machine.execSandn t d a b s
  | .sshl t d a b => Sys2Proof.Machine.execSshl t d a b s
  | .sshr t d a b => Sys2Proof.Machine.execSshr t d a b s
  | .ssra t d a b => Sys2Proof.Machine.execSsra t d a b s
  | .srot t d a b => Sys2Proof.Machine.execSrot t d a b s
  | .smin t d a b => Sys2Proof.Machine.execSmin t d a b s
  | .smax t d a b => Sys2Proof.Machine.execSmax t d a b s
  | .sabs t d a => Sys2Proof.Machine.execSabs t d a s
  | .sclz t d a => Sys2Proof.Machine.execSclz t d a s
  | .sctz t d a => Sys2Proof.Machine.execSctz t d a s
  | .spop t d a => Sys2Proof.Machine.execSpop t d a s
  | .sbfx t d a b => Sys2Proof.Machine.execSbfx t d a b s
  | .sbfi t d a b => Sys2Proof.Machine.execSbfi t d a b s
  | .sbrev t d a => Sys2Proof.Machine.execSbrev t d a s
  | .scmp t d a b => Sys2Proof.Machine.execScmp t d a b s
  | .ssel t d a b c => Sys2Proof.Machine.execSsel t d a b c s
  | .smov t d a => Sys2Proof.Machine.execSmov t d a s
  | .sli t d imm => Sys2Proof.Machine.execSli t d imm s
  | .slih d imm => Sys2Proof.Machine.execSlih d imm s
  | .slea t d a b sh => Sys2Proof.Machine.execSlea t d a b sh s
  | .br hint off => Sys2Proof.Machine.execBr hint off s
  | .bc cc creg hint off => Sys2Proof.Machine.execBc cc creg hint off s
  | .bv k off jd => Sys2Proof.Machine.execBv k off jd s
  | .bx d a imm => Sys2Proof.Machine.execBx d a imm s
  | .call hint off => Sys2Proof.Machine.execCall hint off s
  | .ret a => Sys2Proof.Machine.execRet a s
  | .join => Sys2Proof.Machine.execJoin s
  | .loop creg hint off => Sys2Proof.Machine.execLoop creg hint off s
  | .exit imm => Sys2Proof.Machine.execExit imm s
  | .ipf n off => Sys2Proof.Machine.execIpf n off s
  | .nop => Sys2Proof.Machine.execNop s
  | .setfmt d a imm => Sys2Proof.Machine.execSetfmt d a imm s
  | .mfs d num => Sys2Proof.Machine.execMfs d num s
  | .mts num a => Sys2Proof.Machine.execMts num a s
  | .sid d num => Sys2Proof.Machine.execSid d num s
  | .clk d num => Sys2Proof.Machine.execClk d num s
  | .vadd o => Sys2Proof.Machine.execVadd o s
  | .vsub o => Sys2Proof.Machine.execVsub o s
  | .vmul o => Sys2Proof.Machine.execVmul o s
  | .vmulh o => Sys2Proof.Machine.execVmulh o s
  | .vmad o => Sys2Proof.Machine.execVmad o s
  | .vdiv o => Sys2Proof.Machine.execVdiv o s
  | .vrem o => Sys2Proof.Machine.execVrem o s
  | .vand o => Sys2Proof.Machine.execVand o s
  | .vor o => Sys2Proof.Machine.execVor o s
  | .vxor o => Sys2Proof.Machine.execVxor o s
  | .vandn o => Sys2Proof.Machine.execVandn o s
  | .vnot o => Sys2Proof.Machine.execVnot o s
  | .vshl o => Sys2Proof.Machine.execVshl o s
  | .vshr o => Sys2Proof.Machine.execVshr o s
  | .vsra o => Sys2Proof.Machine.execVsra o s
  | .vmin o => Sys2Proof.Machine.execVmin o s
  | .vmax o => Sys2Proof.Machine.execVmax o s
  | .vabs o => Sys2Proof.Machine.execVabs o s
  | .vneg o => Sys2Proof.Machine.execVneg o s
  | .vclz o => Sys2Proof.Machine.execVclz o s
  | .vpop o => Sys2Proof.Machine.execVpop o s
  | .vbfx o => Sys2Proof.Machine.execVbfx o s
  | .vbfi o => Sys2Proof.Machine.execVbfi o s
  | .vcmp c o => Sys2Proof.Machine.execVcmp c o s
  | .vsel o => Sys2Proof.Machine.execVsel o s
  | .vmov o => Sys2Proof.Machine.execVmov o s
  | .vli d m imm => Sys2Proof.Machine.execVli d m imm s
  | .vmovs o => Sys2Proof.Machine.execVmovs o s
  | .vdot4 o => Sys2Proof.Machine.execVdot4 o s
  | .vdot2 o => Sys2Proof.Machine.execVdot2 o s
  | .fadd o => Sys2Proof.Machine.execFadd o s
  | .fsub o => Sys2Proof.Machine.execFsub o s
  | .fmul o => Sys2Proof.Machine.execFmul o s
  | .ffma o => Sys2Proof.Machine.execFfma o s
  | .fmin o => Sys2Proof.Machine.execFmin o s
  | .fmax o => Sys2Proof.Machine.execFmax o s
  | .fabs o => Sys2Proof.Machine.execFabs o s
  | .fneg o => Sys2Proof.Machine.execFneg o s
  | .fcmp c o => Sys2Proof.Machine.execFcmp c o s
  | .fclass o => Sys2Proof.Machine.execFclass o s
  | .fdiv o => Sys2Proof.Machine.execFdiv o s
  | .frcp o => Sys2Proof.Machine.execFrcp o s
  | .frsq o => Sys2Proof.Machine.execFrsq o s
  | .fsqrt o => Sys2Proof.Machine.execFsqrt o s
  | .fexp2 o => Sys2Proof.Machine.execFexp2 o s
  | .flog2 o => Sys2Proof.Machine.execFlog2 o s
  | .fsin o => Sys2Proof.Machine.execFsin o s
  | .fcos o => Sys2Proof.Machine.execFcos o s
  | .fround o => Sys2Proof.Machine.execFround o s
  | .cvt o => Sys2Proof.Machine.execCvt o s
  | .pack o => Sys2Proof.Machine.execPack o s
  | .unpk o => Sys2Proof.Machine.execUnpk o s
  | .shfl o => Sys2Proof.Machine.execShfl o s
  | .shflx o => Sys2Proof.Machine.execShflx o s
  | .shfld o => Sys2Proof.Machine.execShfld o s
  | .vote o => Sys2Proof.Machine.execVote o s
  | .ballot o => Sys2Proof.Machine.execBallot o s
  | .matchLanes o => Sys2Proof.Machine.execMatchLanes o s
  | .redi o => Sys2Proof.Machine.execRedi o s
  | .redf o => Sys2Proof.Machine.execRedf o s
  | .scan o => Sys2Proof.Machine.execScan o s
  | .bcast o => Sys2Proof.Machine.execBcast o s
  | .firstl o => Sys2Proof.Machine.execFirstl o s
  | .lanes o => Sys2Proof.Machine.execLanes o s
  | .halfNop b => Sys2Proof.Machine.execHalfNop b s
  | .halfVadd d a b => Sys2Proof.Machine.execHalfVadd d a b s
  | .halfVsub d a b => Sys2Proof.Machine.execHalfVsub d a b s
  | .halfVmul d a b => Sys2Proof.Machine.execHalfVmul d a b s
  | .halfVand d a b => Sys2Proof.Machine.execHalfVand d a b s
  | .halfVor d a b => Sys2Proof.Machine.execHalfVor d a b s
  | .halfVxor d a b => Sys2Proof.Machine.execHalfVxor d a b s
  | .halfVandn d a b => Sys2Proof.Machine.execHalfVandn d a b s
  | .halfVshl d a b => Sys2Proof.Machine.execHalfVshl d a b s
  | .halfVshr d a b => Sys2Proof.Machine.execHalfVshr d a b s
  | .halfVsra d a b => Sys2Proof.Machine.execHalfVsra d a b s
  | .halfVmin nat d a b => Sys2Proof.Machine.execHalfVmin nat d a b s
  | .halfVmax nat d a b => Sys2Proof.Machine.execHalfVmax nat d a b s
  | .halfVmov d a b => Sys2Proof.Machine.execHalfVmov d a b s
  | .halfVabs d a b => Sys2Proof.Machine.execHalfVabs d a b s
  | .halfVneg d a b => Sys2Proof.Machine.execHalfVneg d a b s
  | .halfFadd d a b => Sys2Proof.Machine.execHalfFadd d a b s
  | .halfFsub d a b => Sys2Proof.Machine.execHalfFsub d a b s
  | .halfFmul d a b => Sys2Proof.Machine.execHalfFmul d a b s
  | .halfFmin d a b => Sys2Proof.Machine.execHalfFmin d a b s
  | .halfFmax d a b => Sys2Proof.Machine.execHalfFmax d a b s
  | .halfFabs d a b => Sys2Proof.Machine.execHalfFabs d a b s
  | .halfFneg d a b => Sys2Proof.Machine.execHalfFneg d a b s
  | .halfFfma d a c b => Sys2Proof.Machine.execHalfFfma d a c b s
  | .halfVli d imm b => Sys2Proof.Machine.execHalfVli d imm b s
  | .halfCvt c d a b => Sys2Proof.Machine.execHalfCvt c d a b s
  | .halfShflx m d a b => Sys2Proof.Machine.execHalfShflx m d a b s
  | .ldp o => Sys2Proof.Machine.execLdp o s
  | .stp o => Sys2Proof.Machine.execStp o s
  | .lds o => Sys2Proof.Machine.execLds o s
  | .sts o => Sys2Proof.Machine.execSts o s
  | .ldx o => Sys2Proof.Machine.execLdx o s
  | .stx o => Sys2Proof.Machine.execStx o s
  | .ldt o => Sys2Proof.Machine.execLdt o s
  | .mfrag o => Sys2Proof.Machine.execMfrag o s
  | .prefx o => Sys2Proof.Machine.execPrefx o s
  | .atom o => Sys2Proof.Machine.execAtom o s
  | .cas o => Sys2Proof.Machine.execCas o s
  | .fence order scope hs => Sys2Proof.Machine.execFence order scope hs s
  | .hdef d a b => Sys2Proof.Machine.execHdef d a b s
  | .hdefAlias e a b c => Sys2Proof.Machine.execHdefAlias e a b c s
  | .waitc p a t => Sys2Proof.Machine.execWaitc p a t s
  | .scrsz d a n => Sys2Proof.Machine.execScrsz d a n s
  | .scrszComplete part => Sys2Proof.Machine.execScrszComplete part s
  | .cpy d ch tmpl arg => Sys2Proof.Machine.execCpy d ch tmpl arg s
  | .copyCompletion id => Sys2Proof.Machine.execCopyCompletion id s
  | .countedFillComplete die id => Sys2Proof.Machine.execCountedFillComplete die id s
  | .pub scope h => Sys2Proof.Machine.execPub scope h s
  | .pubSwap id => Sys2Proof.Machine.execPubSwap id s
  | .shape d m n k af bf sp => Sys2Proof.Machine.execShape d m n k af bf sp s
  | .mzero t => Sys2Proof.Machine.execMzero t s
  | .mloop hMeta t a b cnt inc sp => Sys2Proof.Machine.execMloop hMeta t a b cnt inc sp s
  | .mloopKStep core id => Sys2Proof.Machine.execMloopKStep core id s
  | .mdrain t hRow hCol o sat => Sys2Proof.Machine.execMdrain t hRow hCol o sat s
  | .mdrainRowPush core id => Sys2Proof.Machine.execMdrainRowPush core id s
  | .mvn d hB hX hY rows cols bf x8 => Sys2Proof.Machine.execMvn d hB hX hY rows cols bf x8 s
  | .mvnCompletion id => Sys2Proof.Machine.execMvnCompletion id s
  | .gath h v => Sys2Proof.Machine.execGath h v s
  | .gatherCompletion id => Sys2Proof.Machine.execGatherCompletion id s
  | .coll op ty v desc => Sys2Proof.Machine.execColl op ty v desc s
  | .collectiveCompletion id => Sys2Proof.Machine.execCollectiveCompletion id s
  | .rcrel h => Sys2Proof.Machine.execRcrel h s
  | .qstat d ch => Sys2Proof.Machine.execQstat d ch s
  | .bar b cnt => Sys2Proof.Machine.execBar b cnt s
  | .arrive d b cnt => Sys2Proof.Machine.execArrive d b cnt s
  | .await a b => Sys2Proof.Machine.execAwait a b s
  | .yield a n => Sys2Proof.Machine.execYield a n s
  | .mwait d base c w64 scr off timeout => Sys2Proof.Machine.execMwait d base c w64 scr off timeout s
  | .mwaitTimeout loc slot => Sys2Proof.Machine.execMwaitTimeout loc slot s
  | .role a n => Sys2Proof.Machine.execRole a n s
  | .regclm n => Sys2Proof.Machine.execRegclm n s
  | .regrel n => Sys2Proof.Machine.execRegrel n s
  | .claimGrant core => Sys2Proof.Machine.execClaimGrant core s
  | .regroup off => Sys2Proof.Machine.execRegroup off s
  | .tfence => Sys2Proof.Machine.execTfence s
  | .trap n => Sys2Proof.Machine.execTrap n s
  | .trapRet => Sys2Proof.Machine.execTrapRet s
  | .brk n => Sys2Proof.Machine.execBrk n s
  | .handlerEntry loc => Sys2Proof.Machine.execHandlerEntry loc s
  | .sysc d a svc wait t => Sys2Proof.Machine.execSysc d a svc wait t s
  | .alloc fe seq lane => Sys2Proof.Machine.execAlloc fe seq lane s
  | .free fe seq lane => Sys2Proof.Machine.execFree fe seq lane s
  | .syscDeadlineExpiry fe seq => Sys2Proof.Machine.execSyscDeadlineExpiry fe seq s
  | .deferredResultReturn ag id => Sys2Proof.Machine.execDeferredResultReturn ag id s
  | .teamPlacement launch => Sys2Proof.Machine.execTeamPlacement launch s
  | .groupRetirement loc => Sys2Proof.Machine.execGroupRetirement loc s
  | .pendingPromotion core sq => Sys2Proof.Machine.execPendingPromotion core sq s
  | .priorityAging core sq => Sys2Proof.Machine.execPriorityAging core sq s
  | .icacheLineArrival core sq => Sys2Proof.Machine.execIcacheLineArrival core sq s
  | .machineCheck ag => Sys2Proof.Machine.execMachineCheck ag s
  | .ldm o => Sys2Proof.Machine.execLdm o s
  | .stm o => Sys2Proof.Machine.execStm o s
  | .atomm o => Sys2Proof.Machine.execAtomm o s
  | .mfp d block off => Sys2Proof.Machine.execMfp d block off s
  | .mtp block off a => Sys2Proof.Machine.execMtp block off a s
  | .eret => Sys2Proof.Machine.execEret s
  | .wfi => Sys2Proof.Machine.execWfi s
  | .wfiWake q => Sys2Proof.Machine.execWfiWake q s
  | .halt => Sys2Proof.Machine.execHalt s
  | .tlbinvAsid a b => Sys2Proof.Machine.execTlbinvAsid a b s
  | .tlbinvVa a b => Sys2Proof.Machine.execTlbinvVa a b s
  | .tlbinvVmid a b => Sys2Proof.Machine.execTlbinvVmid a b s
  | .tlbinvIpa a b => Sys2Proof.Machine.execTlbinvIpa a b s
  | .tlbinvAll a b => Sys2Proof.Machine.execTlbinvAll a b s
  | .encmk d a => Sys2Proof.Machine.execEncmk d a s
  | .enckill d a => Sys2Proof.Machine.execEnckill d a s
  | .assign d a => Sys2Proof.Machine.execAssign d a s
  | .reclaim d a => Sys2Proof.Machine.execReclaim d a s
  | .evict d a => Sys2Proof.Machine.execEvict d a s
  | .restoreFrames d a => Sys2Proof.Machine.execRestoreFrames d a s
  | .dbgrd d a => Sys2Proof.Machine.execDbgrd d a s
  | .quartzTrapEntry q code n addr => Sys2Proof.Machine.execQuartzTrapEntry q code n addr s
  | .interruptEntry q => Sys2Proof.Machine.execInterruptEntry q s
  | .timerExpiry q => Sys2Proof.Machine.execTimerExpiry q s
  | .kick q v => Sys2Proof.Machine.execKick q v s
  | .tcmpWrite q v => Sys2Proof.Machine.execTcmpWrite q v s
  | .doorbellRing c => Sys2Proof.Machine.execDoorbellRing c s
  | .doorbellClear q => Sys2Proof.Machine.execDoorbellClear q s
  | .bmrepRead q => Sys2Proof.Machine.execBmrepRead q s
  | .translationWalk ag va acc => Sys2Proof.Machine.execTranslationWalk ag va acc s
  | .pageRequestEntry id => Sys2Proof.Machine.execPageRequestEntry id s
  | .prqheadWrite v => Sys2Proof.Machine.execPrqheadWrite v s
  | .prqdone v => Sys2Proof.Machine.execPrqdone v s
  | .preempt fe launch team deadline area => Sys2Proof.Machine.execPreempt fe launch team deadline area s
  | .forcedSave tid => Sys2Proof.Machine.execForcedSave tid s
  | .imageTaken tid => Sys2Proof.Machine.execImageTaken tid s
  | .lateResultArrival id => Sys2Proof.Machine.execLateResultArrival id s
  | .restore fe launch team area core => Sys2Proof.Machine.execRestore fe launch team area core s
  | .restorePlacement id => Sys2Proof.Machine.execRestorePlacement id s
  | .feResume fe launch team group => Sys2Proof.Machine.execFeResume fe launch team group s
  | .stopRecordWrite fe => Sys2Proof.Machine.execStopRecordWrite fe s
  | .festrdWrite fe v => Sys2Proof.Machine.execFestrdWrite fe v s
  | .feirqAck fe v => Sys2Proof.Machine.execFeirqAck fe v s
  | .queueEnable fe q => Sys2Proof.Machine.execQueueEnable fe q s
  | .queueDisable fe q => Sys2Proof.Machine.execQueueDisable fe q s
  | .queueFreeze fe q => Sys2Proof.Machine.execQueueFreeze fe q s
  | .queueUnfreeze fe q => Sys2Proof.Machine.execQueueUnfreeze fe q s
  | .queueResume fe q => Sys2Proof.Machine.execQueueResume fe q s
  | .queueDoorbell fe q v => Sys2Proof.Machine.execQueueDoorbell fe q v s
  | .launchPacket fe q => Sys2Proof.Machine.execLaunchPacket fe q s
  | .prologuePacket fe q => Sys2Proof.Machine.execProloguePacket fe q s
  | .prologueExit fe => Sys2Proof.Machine.execPrologueExit fe s
  | .prologueRunLimit fe => Sys2Proof.Machine.execPrologueRunLimit fe s
  | .barrierPacket fe q => Sys2Proof.Machine.execBarrierPacket fe q s
  | .barrierEvaluation fe q => Sys2Proof.Machine.execBarrierEvaluation fe q s
  | .signalPacket fe q => Sys2Proof.Machine.execSignalPacket fe q s
  | .copyPacket fe q => Sys2Proof.Machine.execCopyPacket fe q s
  | .predPacket fe q => Sys2Proof.Machine.execPredPacket fe q s
  | .callPacket fe q => Sys2Proof.Machine.execCallPacket fe q s
  | .joinPacket fe q => Sys2Proof.Machine.execJoinPacket fe q s
  | .graphPacket fe q => Sys2Proof.Machine.execGraphPacket fe q s
  | .abortPacket fe q => Sys2Proof.Machine.execAbortPacket fe q s
  | .gridCompletion launch => Sys2Proof.Machine.execGridCompletion launch s
  | .residencyGate fe q => Sys2Proof.Machine.execResidencyGate fe q s
  | .kernelNode fe idx => Sys2Proof.Machine.execKernelNode fe idx s
  | .copyNode fe idx => Sys2Proof.Machine.execCopyNode fe idx s
  | .condNode fe idx => Sys2Proof.Machine.execCondNode fe idx s
  | .whileNode fe idx => Sys2Proof.Machine.execWhileNode fe idx s
  | .graphJoinNode fe idx => Sys2Proof.Machine.execGraphJoinNode fe idx s
  | .endNode fe idx => Sys2Proof.Machine.execEndNode fe idx s
  | .fepartWrite fe v => Sys2Proof.Machine.execFepartWrite fe v s
  | .colsetWrite die part v => Sys2Proof.Machine.execColsetWrite die part v s
  | .partitionReset part => Sys2Proof.Machine.execPartitionReset part s
  | .shaleRecord => Sys2Proof.Machine.execShaleRecord s
  | .shaleStop => Sys2Proof.Machine.execShaleStop s
  | .move => Sys2Proof.Machine.execMove s
  | .getVersion m => Sys2Proof.Machine.execGetVersion m s
  | .getCapabilities m => Sys2Proof.Machine.execGetCapabilities m s
  | .negotiateAlgorithms m offered => Sys2Proof.Machine.execNegotiateAlgorithms m offered s
  | .getDigests m => Sys2Proof.Machine.execGetDigests m s
  | .getCertificate m slot => Sys2Proof.Machine.execGetCertificate m slot s
  | .challenge m => Sys2Proof.Machine.execChallenge m s
  | .getMeasurements m index => Sys2Proof.Machine.execGetMeasurements m index s
  | .keyExchange m eid => Sys2Proof.Machine.execKeyExchange m eid s
  | .finish m => Sys2Proof.Machine.execFinish m s
  | .endSession m => Sys2Proof.Machine.execEndSession m s
  | .bindRequest r idx lo hi => Sys2Proof.Machine.execBindRequest r idx lo hi s
  | .bindFree r idx => Sys2Proof.Machine.execBindFree r idx s
  | .tdispStop r idx => Sys2Proof.Machine.execTdispStop r idx s
  | .deviceRequest r rid onStream ideOk write va data => Sys2Proof.Machine.execDeviceRequest r rid onStream ideOk write va data s
  | .inboundWrite eid va data => Sys2Proof.Machine.execInboundWrite eid va data s
  | .streamRequest port idx lo hi peerHolds sameMeas peerLive => Sys2Proof.Machine.execStreamRequest port idx lo hi peerHolds sameMeas peerLive s
  | .streamMessage port idx sq oldKey authentic => Sys2Proof.Machine.execStreamMessage port idx sq oldKey authentic s
  | .streamRekey port idx => Sys2Proof.Machine.execStreamRekey port idx s
  | .oldKeyExpiry port idx => Sys2Proof.Machine.execOldKeyExpiry port idx s
  | .migrationRequest port v destLive session => Sys2Proof.Machine.execMigrationRequest port v destLive session s
  | .remoteAtomic eid va w64 op v => Sys2Proof.Machine.execRemoteAtomic eid va w64 op v s
  | .dbgArm q va => Sys2Proof.Machine.execDbgArm q va s
  | .dbgPatch q va => Sys2Proof.Machine.execDbgPatch q va s
  | .dbgWatch q va => Sys2Proof.Machine.execDbgWatch q va s
  | .dbgResume q va => Sys2Proof.Machine.execDbgResume q va s
  | .debugEventWrite => Sys2Proof.Machine.execDebugEventWrite s
  | .dbgEventConsume v => Sys2Proof.Machine.execDbgEventConsume v s
  | .boot => Sys2Proof.Machine.execBoot s
  | .watchdogExpiry block => Sys2Proof.Machine.execWatchdogExpiry block s
  | .liveUpdate => Sys2Proof.Machine.execLiveUpdate s
  | .recovery block img => Sys2Proof.Machine.execRecovery block img s
  | .coreRetire die core => Sys2Proof.Machine.execCoreRetire die core s
  | .phyRecalibration channel => Sys2Proof.Machine.execPhyRecalibration channel s
  | .freezePin => Sys2Proof.Machine.execFreezePin s
  | .freezeRequest => Sys2Proof.Machine.execFreezeRequest s
  | .thermalLimit celsius => Sys2Proof.Machine.execThermalLimit celsius s
  | .platformRegisterWrite q block off v => Sys2Proof.Machine.execPlatformRegisterWrite q block off v s
  | .accessReturn ag id => Sys2Proof.Machine.execAccessReturn ag id s
  | .frameScrubComplete frame => Sys2Proof.Machine.execFrameScrubComplete frame s
  | .fetcherStaleTimeout => Sys2Proof.Machine.execFetcherStaleTimeout s
  | .peerUnreachable tier target => Sys2Proof.Machine.execPeerUnreachable tier target s
  | .powerLoss => Sys2Proof.Machine.execPowerLoss s
  | .illegalOpcode w => Sys2Proof.Machine.execIllegalOpcode w s
  | .migrationRestoreReport port => Sys2Proof.Machine.execMigrationRestoreReport port s
  | .migrationKeyImport eid part dbg meas => Sys2Proof.Machine.execMigrationKeyImport eid part dbg meas s
  | .debugPortAck => Sys2Proof.Machine.execDebugPortAck s
  | .scanReadOut => Sys2Proof.Machine.execScanReadOut s

end Sys2Proof.Machine
end

