-- ==== Sys2Proof/Machine/Fetch.lean ====
section
/-! DEFINITION. What a step does around exec: the turns of the units (R24 to R30, R358, R359, R429), the fetch of a word
(R163), the fate of a word that holds no instruction (R179 to R181), the settle marker (R79), and what the machine sees to
after every turn (R26, R43, R308, R311, R312, R317). Step.lean only calls it. -/

namespace Sys2Proof.Machine

/-! ### A word's end -/

/-- What a result leaves of the unit that issues. -/
def finish (s0 : State) (r : Res) : State :=
  match s0.agent with
  | .group loc sl => finishGroup .nop s0 loc sl r
  | .quartz n => finishQuartz n s0 r
  | .prologue n => finishPrologue n r

/-- Minimum level of a word that is refused for a reserved field (R178, R355, R359, R360, R362). -/
def rawLevel (s : State) (op : Nat) (w : W64) : Nat :=
  let imm := (fld w 6 32).toNat
  if op = 0x2C || op = 0x2D then
    if imm % 256 < 0x80 then 0
    else match engineOf s.agent with | .quartz => (srLevel (imm % 256)).getD 0 | .array => 1 | .prologue => 0
  else if op = 0xF3 && (fld w 0 6).toNat = 1 then 2
  else if op = 0xF4 && 2 ≤ fldN imm 8 4 && fldN imm 8 4 ≤ 4 then 2
  else if op = 0xF0 || op = 0xF1 then platLevel (imm / 2 ^ 24) (imm % 2 ^ 24)
  else if isPrivileged op then 1 else 0

/-- Whether such a word is a vector memory word (R181): sv 0 or 1, or mfrag. -/
def rawVecMemory (op : Nat) (w : W64) : Bool :=
  op == 0x87 || ((0x80 ≤ op && op ≤ 0x86 || op == 0x8B) && decide ((fld w 4 2).toNat ≤ 1))

/-- The result of a word with a reserved or unused field set (R180, R181). -/
def reservedWord (s : State) (op : Nat) (w : W64) : Res :=
  if !inProfile (engineOf s.agent) op || wordAbsent s op (bit w 37) then raise s cIllegalOpcode
  else if emptyExec s && vecOpcode op then .done s
  else if levelOf s < rawLevel s op w then raise s cPrivilege
  else if emptyExec s && rawVecMemory op w then .done s
  else raise s cReservedBits

/-! ### Fetch -/

/-- What a fetch gives: the word, or the result that ends the turn. -/
inductive Fetch
  | word (w : W64) (s : State)
  | ends (r : Res)

/-- A fetch fault, at the word that is fetched: CADDR space 5 (R70, R197). -/
def fetchFault (s : State) (c : Ctx) (k st pg : Nat) (pc : W64) : Res :=
  let t := trapAt k pc
  match s.agent with
  | .group _ _ =>
    if pageCause k then
      let (id, s) := pageRequest s c k st pg .fetch
      .trap s t st id false
    else .trap s t st none false
  | .quartz _ => .trap s { t with space := 4 } st none false
  | .prologue _ => coreFault s c k st pg .fetch pc.toNat

/-- R163: the word at the unit's PC, through its translation (R377) and the check of its line (R385). Basalt runs from its ROM alone
(R346; log 79). -/
def fetchWord (s : State) : Fetch :=
  let pc := readPc s
  if pc.toNat % 8 != 0 then .ends (raise s cAlign)
  else if s.agent == .quartz 36 then .word (w64 (readLe s.rom pc.toNat 8)) s
  else
    let c := coreCtx s
    match translate s c pc.toNat .fetch false with
    | (.wait, s) => .ends (.stall s)
    | (.fault k st pg, s) => .ends (fetchFault s c k st pg pc)
    | (.ok pa _, s) =>
      if lineOk s pa then .word (w64 (readLe s.hbm pa 8)) s else .ends (fetchFault s c cIntegrity 0 0 pc)

/-! ### Issuing one word -/

/-- The request that a potreq word makes, as its operation structure names it (R366); the four have one word. -/
def requestNamed (s : State) : Instr → Instr
  | .assign d a =>
    match translate s (coreCtx s) (readReg s a).toNat .read false with
    | (.ok pa _, _) =>
      let op := readLe s.hbm pa 8 % 16
      if op = 1 then .reclaim d a else if op = 2 then .evict d a else if op = 3 then .restoreFrames d a else .assign d a
    | _ => .assign d a
  | i => i

/-- The settle marker of a word that has issued (R79). -/
def setSettle (s : State) (b : Bool) : State :=
  match s.agent with
  | .group loc _ => updGroup s loc (fun g => { g with settle := b })
  | .quartz n => updQuartz s n (fun q => { q with settle := b })
  | .prologue n => updPro s n (fun p => { p with settle := b })

/-- Whether the word that a group has issued completed in raising its cause (R323). -/
def completedTrap (s : State) : Bool :=
  s.last == .faulted && (match curGroup s with | some g => completes (g.cause.toNat % 256) | none => false)

/-- A unit about to issue its next word: a settle marker that held it is satisfied (R79). -/
def beforeWord (s : State) : State :=
  match s.agent with
  | .group loc sl => updGroup s loc (fun g => setSlot { g with settle := false } sl { getSlot g sl with sbit := false })
  | _ => s

/-- What the S bit of the word that a unit has issued leaves: a settle marker once the word has completed, were it in a trap; a word that
waits keeps it until then (R79, R164). -/
def afterWord (settle : Bool) (s : State) : State :=
  match s.agent with
  | .group loc sl =>
    if !settle then s
    else if s.last == .issued || completedTrap s then setSettle s true
    else if s.last == .parked || (s.last == .stalled && scrszLeft s loc) then updGroup s loc (fun g => setSlot g sl { getSlot g sl with sbit := true })
    else s
  | _ => if s.last == .issued then setSettle s settle else s

/-- Runs the word w of the unit that issues. -/
def runWord (s : State) (w : W64) : Out :=
  let s := beforeWord s
  match decode w with
  | .ok d =>
    match exec (requestNamed s d.instr) s with
    | .next t => .next (afterWord d.settle t)
    | r => r
  | .error .illegal => exec (.illegalOpcode w) s
  | .error (.reserved op) => .next (afterWord (bit w 63) (finish s (reservedWord s op w)))

/-- Fetches and runs the next word of the unit that issues. -/
def issueWord (s : State) : Out :=
  match fetchWord s with
  | .word w s => runWord s w
  | .ends r => .next (finish s r)

/-! ### Speculative atomics performed early (R153) -/

/-- Whether a word whose fault checks are still to be made may stand before a speculative atomic that is performed early: a memory
word of another space. DESIGN CHOICE (log 71): R153 does not say which earlier words leave a fault unresolved. -/
def mayPrecede (scr : Bool) : Instr → Bool
  | .ldp _ | .stp _ | .ldt _ | .prefx _ => true
  | .lds _ | .sts _ => scr
  | .ldx _ | .stx _ => !scr
  | .mfrag o => (o.wt == .fragShared) == scr
  | _ => false

/-- Scoreboard keys of the registers that a memory word writes. -/
def loadKeys (width : Nat) : Instr → List Nat
  | .ldp o | .lds o | .ldx o | .ldt o => dstKeys (if o.sv == .s2 then .scalar o.data else .vec o.data (MWidth.regs o.wt))
  | .mfrag o => dstKeys (.vec o.data (256 / width))
  | _ => []

/-- The instruction at an address of a unit's code, without the settle marker, if its page and line let it be fetched. -/
def wordAt (s : State) (pc : Nat) : Option Instr :=
  match translate s (coreCtx s) pc .fetch false with
  | (.ok pa _, _) =>
    if lineOk s pa then
      match decode (w64 (readLe s.hbm pa 8)) with | .ok d => if d.settle then none else some d.instr | .error _ => none
    else none
  | _ => none

/-- An atomic word of declared use speculative: whether it is on scratch, and its operands. -/
def speculative : Instr → Option AOp
  | .atom o | .cas o => if o.use == .speculative then some o else none
  | _ => none

/-- R153: the speculative atomic n words after a slot's PC is performed while the words before it have still to be checked. Its old
values are kept in a replay record, which the word consumes when it issues, whether or not an earlier word has faulted. -/
def earlyStep (s : State) (loc : Nat) (sl : Bool) (n : Nat) : State :=
  match mget s.groups loc with
  | none => s
  | some g =>
    let here := { s with agent := .group loc sl }
    let pc := readPc here
    match wordAt here (pc.toNat + 8 * n) with
    | none => s
    | some i =>
      match speculative i with
      | none => s
      | some o =>
        let before := (List.range n).map (fun j => wordAt here (pc.toNat + 8 * j))
        let keys := (regsOf g.width i).flatMap useKeys
        let plain := before.all (fun x => match x with
          | some x => mayPrecede o.scr x && !(loadKeys g.width x).any (fun k => keys.contains k)
          | none => false)
        if n = 0 || 4 ≤ g.replay.length || g.stop != .none || g.settle || (getSlot g sl).st != .running
            || (getSlot g sl).wait != .none || !plain then s
        else
          match exec i (writePc here (pc + w64 (8 * n))) with
          | .next t =>
            let new := (pendAt t (.group loc sl)).filter (fun p => decide (s.fresh ≤ p.id))
            if t.last != .issued || new.isEmpty || !new.all (fun p => g.pend.all (fun x => !mustFollow s x p)) then s
            else
              let r := performAll (.group loc sl) new s []
              let old (p : Pend) : Nat := ((r.1.find? (fun x => x.1 == p.id)).map (·.2)).getD 0
              let rec_ : Replay :=
                { pc := pc + w64 (8 * n), slot := sl, sval := w64 ((new.map old).headD 0),
                  vals := new.flatMap (fun p => (lanesOf p.lanes 64).map (fun l => (l, splitVal o.w64 (old p)))) }
              updGroup r.2 loc (fun g => { g with replay := g.replay ++ [rec_] })
          | _ => s

/-! ### Walks ahead of their accesses (R377, R389) -/

/-- R377, R389: a walk begins, or reads its next stage-one entry, for the access of a unit, a copy or a fetcher to come. -/
def walkTurn (s : State) (w : Walker) (va : Nat) (acc : Acc) (ign : Bool) : State :=
  match w with
  | .unit ag => walkStep s (agentCtx s ag) va acc ign
  | .copy id => match mget s.work id with | some (.copy c) => walkStep s (copyCtx s c) va acc ign | _ => s
  | .fetcher fe q => walkStep s (queueCtx s fe q) va acc ign

/-! ### After every turn -/

/-- What the machine sees to at once, whatever moved: exchanges of Demoted slots (R47), merges and barriers of every team (R43, R308, R311, R312), claim deadlocks
(R317), and the exchanges of R26. -/
def tidy (s : State) : State :=
  let s := exchangeAll s
  let s := s.teams.foldl (fun s (t : Nat × Team) => barsAgain (teamCheck s t.1) t.1) s
  let s := ((s.groups.map (fun (e : Nat × Group) => locCore e.1)).eraseDups).foldl claimDeadlock s
  balance s

/-! ### Turns -/

/-- A sequencer's choice with the groups passed over in this cycle left out (R25, R28). -/
def chooseBut (s : State) (core q : Nat) (passed : List Nat) : Option Nat :=
  chooseGroup { s with groups := s.groups.filter (fun e => !passed.contains e.1) } core q

/-- A sequencer's cycle: the chosen group issues a word; one that stalls on the scoreboard is passed over (R25). The fuel bounds
the groups looked at. -/
def seqGo (core q : Nat) : Nat → List Nat → State → Out
  | 0, _, s => .next s
  | n + 1, passed, s =>
    match chooseBut s core q passed with
    | none => .next s
    | some loc =>
      match mget s.groups loc with
      | none => .next s
      | some g =>
        match issueWord { s with agent := .group loc (chooseSlot s g) } with
        | .next t =>
          if t.last == .stalled then seqGo core q n (loc :: passed) t
          else .next (updSeq t core q (fun x => { x with pos := locPos loc }))
        | r => r

/-- A turn of a sequencer: one unfrozen cycle, with the promotion and the ageing that fall due in it (R24, R27, R28, R30, R48, R49). -/
def seqTurn (core q : Nat) (s : State) : Out :=
  if (seqOf s core q).frozen.isSome then .next s
  else
    let s := updSeq s core q (fun x => { x with cycle := x.cycle + 1 })
    seqGo core q 32 [] (ageGroups (promote s core q) core q)

/-- A turn of a Quartz core: it is halted; it waits for its settle marker or in wfi; an interrupt is taken between words; or a
word issues (R79, R358, R359). -/
def quartzTurn (n : Nat) (s : State) : Out :=
  match mget s.quartz n with
  | none => .next s
  | some q =>
    if q.halted then .next s
    else if q.parked then execWfiWake n s
    else if (deliverable s n q).isSome then execInterruptEntry n s
    else if q.settle && coreBusy q then .next s
    else issueWord { s with agent := .quartz n }

/-- A turn of a prologue engine: it runs a routine that waits on no page request (R391, R429). -/
def prologueTurn (n : Nat) (s : State) : Out :=
  match mget s.fes n with
  | none => .next s
  | some f =>
    let p := f.pro
    if p.queue.isNone || p.code.isSome || p.page.isSome then .next s
    else if p.settle && p.pend.any (fun x => !x.returned && x.dst != .none) then .next s
    else issueWord { s with agent := .prologue n }

/-- Whether Basalt has a block to bring up (R498). -/
def bootLeft (s : State) : Bool :=
  s.basalt.recover.isNone && s.basalt.blocks.any (fun b => !b.2.released && !b.2.held)

/-- A turn of Basalt: the next block, and once none is left Quartz core 0 is the unit that moves (log 1). -/
def basaltTurn (s : State) : Out :=
  if bootLeft s then exec .boot s else .next { s with mover := .quartz 0 }

/-! ### Blocks held in reset or by a live update (R498, R499, R502) -/

/-- A block is out of reset, and where its hold matters, no live update holds it. -/
def blockUp (s : State) (need : Nat × Bool) : Bool :=
  (blockOf s need.1).released && !(need.2 && (blockOf s need.1).quiet)

/-- The HBM controllers, without which nothing outside Basalt runs; R504 has their hold change no result. -/
def hbmBlock : Nat × Bool := (9, false)

/-- The blocks that a unit's turn needs. A routine of a held front end runs on to the packet boundary. -/
def unitNeeds : Mover → List (Nat × Bool)
  | .basalt => []
  | .seq _ _ => [hbmBlock, (10, false)]
  | .quartz n => if n = 36 then [] else if n < 32 then [hbmBlock] else [hbmBlock, (2, true)]
  | .prologue _ => [hbmBlock, (5, false)]

/-- The blocks that a copy's progress needs: the ports it reaches, and at its end the front end that applies its completion. -/
def copyNeeds (s : State) (id : Nat) (ends : Bool) : List (Nat × Bool) :=
  match mget s.work id with
  | some (.copy c) =>
    let far (k : Nat) : Bool := tSrck c.tmpl == k || tDstk c.tmpl == k
    hbmBlock :: ((if far 4 then [(7, true)] else []) ++ (if far 5 then [(8, true)] else [])
      ++ (match c.owner with | .group _ => [] | _ => if ends then [(5, true)] else []))
  | _ => [hbmBlock]

/-- The blocks that an event needs: that of the unit which makes it happen. The hold of the front ends leaves their registers, the end
of a routine and the placement of a LAUNCH in progress (R502). -/
def eventNeeds (s : State) : Instr → List (Nat × Bool)
  | .launchPacket _ _ | .prologuePacket _ _ | .barrierPacket _ _ | .barrierEvaluation _ _ | .signalPacket _ _ | .copyPacket _ _
  | .predPacket _ _ | .callPacket _ _ | .joinPacket _ _ | .graphPacket _ _ | .abortPacket _ _ | .gridCompletion _
  | .residencyGate _ _ | .kernelNode _ _ | .copyNode _ _ | .condNode _ _ | .whileNode _ _ | .graphJoinNode _ _ | .endNode _ _
  | .preempt _ _ _ _ _ | .restore _ _ _ _ _ | .feResume _ _ _ _ | .stopRecordWrite _ => [hbmBlock, (5, true)]
  | .restorePlacement _ => [hbmBlock, (5, true), (10, false)]
  | .teamPlacement _ => [hbmBlock, (5, false), (10, false)]
  | .kick _ _ | .queueEnable _ _ | .queueDisable _ _ | .queueFreeze _ _ | .queueUnfreeze _ _ | .queueResume _ _
  | .queueDoorbell _ _ _ | .prologueExit _ | .prologueRunLimit _ | .festrdWrite _ _ | .feirqAck _ _ | .fepartWrite _ _
  | .partitionReset _ => [hbmBlock, (5, false)]
  | .shaleRecord | .shaleStop | .move => [hbmBlock, (6, true)]
  | .translationWalk _ _ _ | .pageRequestEntry _ | .prqheadWrite _ | .prqdone _ => [hbmBlock, (6, false)]
  | .inboundWrite _ _ _ | .remoteAtomic _ _ _ _ _ | .streamRequest _ _ _ _ _ _ _ | .streamMessage _ _ _ _ _ | .streamRekey _ _
  | .migrationRequest _ _ _ _ | .migrationRestoreReport _ => [hbmBlock, (7, true)]
  | .bindRequest _ _ _ _ | .bindFree _ _ | .tdispStop _ _ | .deviceRequest _ _ _ _ _ _ _ => [hbmBlock, (8, true)]
  | .colsetWrite _ _ _ => [(10, false)]
  | .copyCompletion id => copyNeeds s id true
  | .countedFillComplete _ id => copyNeeds s id false
  | .collectiveCompletion id =>
    match mget s.work id with
    | some (.coll _ _ _ cs) => if cs.any (fun c => c.extent == 2) then [hbmBlock, (7, true)] else [hbmBlock]
    | _ => [hbmBlock]
  | _ => []

/-- Whether every block of a list is up. -/
def allUp (s : State) (l : List (Nat × Bool)) : Bool := l.all (blockUp s)

/-- A turn of a unit. -/
def unitTurn (m : Mover) (s : State) : Out :=
  if !allUp s (unitNeeds m) then .next s
  else
    match m with
    | .basalt => basaltTurn s
    | .seq core q => seqTurn core q s
    | .quartz n => quartzTurn n s
    | .prologue n => prologueTurn n s

/-- R30: a sequencer misses the instruction line of the word it would issue next. -/
def missTurn (core q : Nat) (s : State) : State :=
  match (if (seqOf s core q).frozen.isSome then none else chooseGroup s core q) with
  | none => s
  | some loc =>
    match mget s.groups loc with
    | none => s
    | some g =>
      let line := (getSlot g (chooseSlot s g)).pc &&& 0xFFFFFFFFFFFFFFC0#64
      updSeq s core q (fun x => { x with frozen := some line, slips := x.slips + 1 })

/-- Whether a constructor is a system event, which a script may name. -/
def isEvent (i : Instr) : Bool :=
  !isWord i && (match i with | .illegalOpcode _ => false | _ => true)

/-- Turns of a frozen module: Basalt and the debug port keep their clocks, power may go, and what the world outside does goes on
(R505). -/
def runsFrozen : Turn → Bool
  | .unit (.quartz n) => n == 36
  | .event i =>
    (match i with
      | .freezePin | .freezeRequest | .thermalLimit _ | .powerLoss | .scanReadOut | .debugPortAck => true
      | _ => false)
  | .time _ | .ecc _ | .link _ _ => true
  | _ => false

/-- A turn of the script, the clocks that it needs running. What needs a block that is held waits: its turn passes, and another may come
(R498, R502). -/
def turnGo (s : State) : Turn → Out
  | .unit m => unitTurn m { s with mover := m }
  | .event i => if isEvent i && allUp s (eventNeeds s i) then exec i s else .next s
  | .miss core q => .next (if allUp s [hbmBlock, (10, false)] then missTurn core q s else s)
  | .copy id c => .next (if allUp s (copyNeeds s id false) then copyStep s id c else s)
  | .early loc sl n => .next (if allUp s [hbmBlock, (10, false)] then earlyStep s loc sl n else s)
  | .walk w va acc ign => .next (if allUp s [hbmBlock] then walkTurn s w va acc ign else s)
  | .ecc line => .next { s with badLines := mput s.badLines line true }
  | .load id => .next (if allUp s [hbmBlock] then loadStep s id else s)
  | .remote => .next (if allUp s [hbmBlock, (7, true)] then remoteAgain s else s)
  | .ahead fe q n => .next (if allUp s [hbmBlock, (5, true)] then aheadStep s fe q n else s)
  | .spdm m => .next (spdmOther s m)
  | .link port up => .next (linkTurn s port up)
  | .time n => .next (if s.dbox.frozen then passFrozen s n else passTime s n)

/-- One turn of the script; an empty script gives another turn to the unit that moved last. -/
def turn (s : State) : Out :=
  match s.script with
  | [] => if s.dbox.frozen && !runsFrozen (.unit s.mover) then .next s else unitTurn s.mover s
  | x :: t => if s.dbox.frozen && !runsFrozen x then .next { s with script := t } else turnGo { s with script := t } x

/-! ### A program placed from outside (log 5) -/

/-- The frame that withFetchWord uses: PA 0x1000000, and the VA at which a group has it. -/
def placePa : Nat := 0x1000000

/-- Whether a word is one of the Quartz profile alone, so that a Quartz core runs it (R178). -/
def quartzOnly (i : Instr) : Bool :=
  match opcodeOf i with
  | some op => op == 0x8C || op == 0x8D || op == 0xA3 || isPrivileged op
  | none => false

/-- The launch and the enclave that a placed group belongs to. -/
def placeLaunch : Launch :=
  { fe := 0, queue := 0, part := 0, eid := 0, fmt := 0, flagsen := 0, cls := 0, handler := 0, args := [], gx := 1, gy := 1,
    gz := 1, width := 64, vregs := 256, size := 1, mx := true, roles := [], tmpl := [], region := [], handles := [], shared := 0,
    spill := 0, sig := 0, cores := false, pair := false, code := w64 placePa, next := 1, retired := 0, lastCore := some 0,
    node := none, prologue := false, idx := 0, dieTeams := [], done := false, waiting := false, used := [0] }

def placeEnclave : Enclave :=
  { part := 0, threads := 1, th := [], queues := 0, root := 0, tsa := 0, entry := 0, debug := false, meas := 0, key := none,
    ending := false, tsaLeft := [], heap := [] }

/-- A group of 64 lanes alone on core 0, sequencer 0, its code page held in the TLB. -/
def placeGroup (s : State) : State :=
  let g : Group := { newGroup placeLaunch 0 0 0 0 with active := true }
  let t : Tlb :=
    { unit := .core 0, part := 0, tag := 0xF000, page := placePa / 65536, frame := placePa / 65536, kind := 0, w := false, x := true, u := true,
      d := false, frames := [placePa / 65536], ipas := [] }
  let tm : Team := { newTeam placeLaunch 0 0 0 with groups := [0] }
  let gs := s.groups.filter (fun (e : Nat × Group) => !(locCore e.1 == 0 && locSq e.1 == 0))
  { s with groups := mput gs 0 g, teams := mput s.teams 0 tm, launches := mput s.launches 0 placeLaunch,
           basalt := { s.basalt with enclaves := mput s.basalt.enclaves 0 placeEnclave }, tlb := t :: s.tlb,
           cores := mupd s.cores 0 (fun c => { c with sq := mupd c.sq 0 (fun x => { x with frozen := none }) }),
           mover := .seq 0 0 }

/-- Quartz core 0 at L2, about to fetch from a hypervisor frame. -/
def placeQuartz (s : State) : State :=
  let q : Quartz := { resetQuartz 0 with halted := false, pc := w64 placePa }
  let o : Own := { cls := 1, part := 0, eid := 0, version := 0, zeroed := false, rst := false }
  { setOwn s (placePa / 65536) o with quartz := mput s.quartz 0 q, mover := .quartz 0 }

/-- A state in which the next step fetches and runs the word w. -/
def placeWord (s : State) (w : W64) : State :=
  let q := match decode w with | .ok d => quartzOnly d.instr | .error _ => false
  let s := if q then placeQuartz s else placeGroup s
  { s with script := [], dbox := { s.dbox with frozen := false },
           basalt := { s.basalt with blocks := s.basalt.blocks.map (fun (b : Nat × Block) =>
             (b.1, { b.2 with released := true, held := false, quiet := false })) }, hbm := writeLe s.hbm placePa 8 w.toNat,
           badLines := s.badLines.filter (fun (b : Nat × Bool) => b.1 != placePa / 64) }

end Sys2Proof.Machine
end

