-- ==== Sys2Proof/Machine/Step.lean ====
section
/-! DEFINITION. One step of the machine: a turn, then what the machine sees to at once. -/

namespace Sys2Proof.Machine

/-- One step (log 1). -/
def step (s : State) : Host.Outcome State Fault Refusal :=
  match turn s with
  | .next t => .next (tidy t)
  | r => r

/-- s with the word stored where the next step fetches it (log 5). -/
def State.withFetchWord (s : State) (nbits w : Nat) : State := placeWord s (BitVec.ofNat 64 (w % 2 ^ nbits % 2 ^ 64))

end Sys2Proof.Machine
end

