-- ==== Sys2Proof/Safety.lean ====
section
/-! DEFINITION. The terms that claims use: when a word issues and runs, what its completion may touch beside its effect, and
the one canonical form of every table of the state. -/

namespace Sys2Proof

open Machine

/-- An outcome that is a next state with a property. -/
def GoesTo (o : Host.Outcome State Fault Refusal) (p : State → Prop) : Prop := ∃ t, o = .next t ∧ p t

/-! ### When a word runs -/

/-- The unit that State.agent names exists. -/
def unitThere (s : State) : Bool :=
  match s.agent with
  | .group loc _ => (mget s.groups loc).isSome
  | .quartz n => (mget s.quartz n).isSome
  | .prologue n => (mget s.fes n).isSome

/-- No single step of the debugger is in force on the issuing group (R487). -/
def notStepping (s : State) : Bool := match curGroup s with | some g => !g.stepping | none => true

/-- A routine of a prologue engine may issue another word (R430). -/
def wordsLeft (s : State) : Bool :=
  match s.agent with
  | .prologue n => (match mget s.fes n with | some f => decide (f.pro.words < 2 ^ 20) | none => true)
  | _ => true

/-- A word passes every check of R180 and R181, names no register with a pending mark (R76), is not one that handler mode
forbids (R326), its group is not being stepped, and its routine is within its limit: its own effect then happens. -/
def ready (i : Instr) (s : State) : Bool :=
  unitThere s && precheck s i == .ok && !hazard s (regsOf (widthOf s) i) && !(inHandler s && handlerForbids i)
    && notStepping s && wordsLeft s

/-! ### What completion touches beside the effect -/

/-- A slot without its spin detector, watched locations, wait, mark of a stall and settle bit of a word that waits; a demotion that a
state change lifts does not show (R46, R47, R76, R79). -/
def plainSlot (p : Slot) : Slot :=
  { p with st := if p.st = .demoted then .running else p.st, spin := 0, back := none, counts := [], loaded := [],
           wait := .none, held := false, sbit := false }

/-- A group without the round robin, ageing, settle and pass marks (R28, R29, R79, R487). -/
def plainGroup (g : Group) : Group :=
  { g with slot0 := plainSlot g.slot0, slot1 := plainSlot g.slot1, eff := 0, issuedAt := 0, agedAt := 0,
           lastSlot := false, settle := false, pass := none }

/-- A front end without its count of prologue words (R430). -/
def plainFe (f : FrontEnd) : FrontEnd := { f with pro := { f.pro with words := 0 } }

/-- A state without what every completed word touches: two states with the same plain form agree on every register, flag,
mask, queue, memory and control field. -/
def plain (s : State) : State :=
  { s with groups := s.groups.map (fun e => (e.1, plainGroup e.2)), fes := s.fes.map (fun e => (e.1, plainFe e.2)),
           last := .issued }

/-- The executing unit goes on at PC + 8. -/
def advance (s : State) : State := writePc s (readPc s + 8)

/-- The word answers a next state that is w at PC + 8 but for what completion touches, and every byte of memory reads as
before the word. -/
def Does (i : Instr) (s w : State) : Prop :=
  ∃ t, exec i s = .next t ∧ plain t = plain (advance w) ∧ readPc t = readPc s + 8 ∧ ∀ l, readLoc t l = readLoc s l

/-- The same for a word that goes on at another PC. -/
def Jumps (i : Instr) (s w : State) (pc : W64) : Prop :=
  ∃ t, exec i s = .next t ∧ plain t = plain (writePc w pc) ∧ ∀ l, readLoc t l = readLoc s l

/-- The branch would not be the 64th in a row of R46, after which a path may be demoted (R47). -/
def spinLow (s : State) : Bool :=
  match curGroup s with | some g => decide ((getSlot g (curSlot s)).spin < 63) | none => true

/-- The issuing group at a location, through one of its slots. -/
def Issues (s : State) (loc : Nat) (sl : Bool) (g : Group) : Prop :=
  s.agent = .group loc sl ∧ mget s.groups loc = some g

/-- A word of a group raises a cause: CAUSE and CADDR hold it, the slot stays at the word, and no register, mask, flag, stack
entry or byte of memory has changed (R11, R70). -/
def Faults (i : Instr) (s : State) (cause caddr : W64) : Prop :=
  ∀ loc sl g, Issues s loc sl g → g.stop ≠ .saving → g.stop ≠ .system → isHalted g = false →
    ∃ t g', exec i s = .next t ∧ t.last = .faulted ∧ mget t.groups loc = some g' ∧ g'.cause = cause ∧ g'.caddr = caddr ∧
      (getSlot g' sl).pc = (getSlot g sl).pc ∧ (getSlot g' sl).exec = (getSlot g sl).exec ∧ g'.s = g.s ∧ g'.k = g.k ∧
      g'.v = g.v ∧ g'.h = g.h ∧ g'.flags = g.flags ∧ g'.stack = g.stack ∧ g'.exited = g.exited ∧ g'.pend = g.pend ∧
      ∀ l, readLoc t l = readLoc s l

/-- CADDR of a cause without an address: space 5 and the PC of the word (R70). -/
def pcAddr (s : State) : W64 := BitVec.ofNat 64 ((readPc s).toNat % 2 ^ 55 + 5 * 2 ^ 55)

/-- A group whose slot has met a stall: the first turn of a stall counts one hazard (R76). -/
def stalled (g : Group) (sl : Bool) : Group :=
  if (getSlot g sl).held then g else setSlot { g with hazards := g.hazards + 1 } sl { getSlot g sl with held := true }

/-- A word that stalls at issue: nothing changes but the hazards, of which one stall counts once (R76). -/
def Stalls (i : Instr) (s : State) (loc : Nat) (sl : Bool) (g : Group) : Prop :=
  exec i s = .next { setGroup s loc (stalled g sl) with last := .stalled }

/-- A word whose slot waits: nothing changes but the wait, and a stall that came before is over (R25). -/
def Parks (i : Instr) (s : State) (loc : Nat) (sl : Bool) (g : Group) (w : Wait) : Prop :=
  exec i s = .next { setGroup s loc (setSlot g sl { getSlot g sl with wait := w, held := false }) with last := .parked }

/-! ### The divergence stack in memory -/

/-- The 32 bytes of a stack entry: the PC with its tag and frame bit, the mask, the reconvergence PC or 1, FMT (R37). -/
def entryBytes (e : SEntry) : List Byte :=
  leBytes 8 (e.pc.toNat / 8 * 8 + 2 * e.tag + (if e.frame then 1 else 0)) ++ leBytes 8 e.mask.toNat
  ++ leBytes 8 (match e.rpc with | some r => r.toNat | none => 1) ++ leBytes 8 e.fmt.toNat

/-- A group's stack lies in its spill memory as the group keeps it, and the entries from any number on, up to two above its top, can be
read and written without a fault (R37, R109). -/
def StackThere (s : State) (loc : Nat) (g : Group) : Prop :=
  g.stackNewer = false ∧ viewed s loc = s ∧
  ∀ i n, i < n → n ≤ g.stack.length + 2 →
    (∃ l, stackPlace s loc g i n .read = (.ok l, s) ∧ runsOk s l = true) ∧
    (∃ l, stackPlace s loc g i n .write = (.ok l, s) ∧ mergeOk s l = true)

/-- A byte of device memory that lies in translated runs. -/
def inRuns (l : List (Nat × Nat)) (x : MLoc) : Prop := ∃ r ∈ l, ∃ j, j < r.2 ∧ x = .hbm (r.1 + j)

/-! ### The canonical form of the state -/

/-- The register tables of a group are canonical. -/
def canonGroup (g : Group) : Bool := mwf (0 : W64) g.s && mwf (0 : W64) g.k && mwf (0 : W32) g.v

/-- The tables of groups, teams, cores, dies, Quartz cores, front ends, launches and far memories have strictly rising
keys. -/
def canonKeys (s : State) : Bool :=
  mrising none s.groups && mrising none s.teams && mrising none s.cores && mrising none s.dies && mrising none s.quartz
  && mrising none s.fes && mrising none s.launches && mrising none s.far

/-- Every memory is in its one canonical form: strictly rising addresses and no entry 0. -/
def canonMemory (s : State) : Bool :=
  memWf s.hbm && s.teams.all (fun t => memWf t.2.shared) && s.dies.all (fun d => memWf d.2.array)
  && s.far.all (fun f => memWf f.2) && memWf s.rom && memWf s.basalt.flash

/-- Every register table is canonical: of the groups, of the Quartz cores, of the prologue engines. -/
def canonRegisters (s : State) : Bool :=
  s.groups.all (fun g => canonGroup g.2) && s.quartz.all (fun q => mwf (0 : W64) q.2.s && mwf (0 : W64) q.2.k)
  && s.fes.all (fun f => mwf (0 : W64) f.2.pro.s && mwf (0 : W64) f.2.pro.k)

/-- The one canonical form of the state. -/
def canon (s : State) : Bool := canonKeys s && canonMemory s && canonRegisters s

end Sys2Proof
end

