-- ==== Sys2Proof/Safety/Alu.lean ====
section
/-! DEFINITION. The values that R82, R187, R190 to R192, R215, R218 and R219 give the integer words, said once over bit
vectors of n bits: the claims compare the machine, which computes over integers, with these. -/

namespace Sys2Proof

open Machine

/-- The integer operations of two sources. -/
inductive AluOp
  | add | sub | mul | mulh | div | rem | and | or | xor | andn | shl | shr | sra | rot | min | max
  deriving DecidableEq, Repr

/-- A field of n bits as its type reads it (R187). -/
def asInt {n : Nat} (sgn : Bool) (x : BitVec n) : Int := if sgn then x.toInt else (x.toNat : Int)

/-- The exact integer result of the arithmetic operations; a zero divisor gives quotient 0 and the dividend as remainder
(R82). -/
def aluExact (op : AluOp) (n : Nat) (x y : Int) : Option Int :=
  match op with
  | .add => some (x + y)
  | .sub => some (x - y)
  | .mul => some (x * y)
  | .mulh => some (x * y / (2 ^ n : Nat))
  | .div => some (if y = 0 then 0 else x.tdiv y)
  | .rem => some (if y = 0 then x else x.tmod y)
  | .min => some (if x ≤ y then x else y)
  | .max => some (if x ≤ y then y else x)
  | _ => none

/-- The result of n bits without saturation; a shift reads the low 8 bits of y (R191, R219). -/
def aluBits (op : AluOp) (sgn : Bool) {n : Nat} (x y : BitVec n) : BitVec n :=
  let k := y.toNat % 256
  match op with
  | .add => x + y
  | .sub => x - y
  | .mul => x * y
  | .and => x &&& y
  | .or => x ||| y
  | .xor => x ^^^ y
  | .andn => x &&& ~~~y
  | .shl => x <<< k
  | .shr => x >>> k
  | .sra => x.sshiftRight k
  | .rot => x.rotateRight (k % n)
  | op => BitVec.ofInt n ((aluExact op n (asInt sgn x) (asInt sgn y)).getD 0)

/-- A field of 32 bits or the whole register, extended into 64 bits under the type (R187). -/
def scalarOut (t : SType) (x : W64) : W64 :=
  match t with
  | .i32 => (x.truncate 32).signExtend 64
  | .n32 => (x.truncate 32).zeroExtend 64
  | _ => x

/-- The scalar result of an operation (R187, R190, R191). -/
def scalarBits (op : AluOp) (t : SType) (x y : W64) : W64 :=
  match t with
  | .i32 => (aluBits op true (x.truncate 32) (y.truncate 32)).signExtend 64
  | .n32 => (aluBits op false (x.truncate 32) (y.truncate 32)).zeroExtend 64
  | .i64 => aluBits op true x y
  | .n64 | .b64 => aluBits op false x y

/-- The number of leading zeros, trailing zeros and ones of an n-bit field (R190). -/
def leadingZeros (n x : Nat) : Nat := if x = 0 then n else n - 1 - x.log2
def trailingZeros (n x : Nat) : Nat := ((List.range n).find? (fun i => x.testBit i)).getD n
def onesOf (n x : Nat) : Nat := ((List.range n).filter (fun i => x.testBit i)).length

/-- The n-bit field with its bits reversed (R190). -/
def reversed (n x : Nat) : Nat := (BitVec.ofNat n x).reverse.toNat

/-- The scalar operations of one source. -/
inductive UnOp | abs | clz | ctz | pop | brev
  deriving DecidableEq, Repr

/-- The scalar result of an operation of one source. -/
def scalarUnary (op : UnOp) (t : SType) (x : W64) : W64 :=
  let n := SType.bits t
  let v := x.toNat % 2 ^ n
  match op with
  | .abs => scalarOut t (if SType.signed t && v.testBit (n - 1) then -x else x)
  | .clz => BitVec.ofNat 64 (leadingZeros n v)
  | .ctz => BitVec.ofNat 64 (trailingZeros n v)
  | .pop => BitVec.ofNat 64 (onesOf n v)
  | .brev => scalarOut t (BitVec.ofNat 64 (reversed n v))

/-- Position and width of the field that a control value names (R192). -/
def fieldPos (ctl : Nat) : Nat := ctl % 64
def fieldLen (n ctl : Nat) : Nat :=
  let len := min (ctl / 256 % 128) 64
  if n ≤ fieldPos ctl then 0 else min len (n - fieldPos ctl)

/-- The extracted field, signed under the .i types (R192). -/
def fieldOut (n : Nat) (sgn : Bool) (x ctl : Nat) : Int :=
  let w := fieldLen n ctl
  let f := x % 2 ^ n / 2 ^ fieldPos ctl % 2 ^ w
  if sgn && 0 < w && f.testBit (w - 1) then (f : Int) - (2 ^ w : Nat) else f

/-- The n-bit register with the field inserted (R192). -/
def fieldIn (n d x ctl : Nat) : Nat :=
  let w := fieldLen n ctl
  let p := 2 ^ fieldPos ctl
  d % 2 ^ n - (d % 2 ^ n / p % 2 ^ w) * p + (x % 2 ^ w) * p

end Sys2Proof
end

