-- ==== Sys2Proof/Safety/Terms.lean ====
section
/-! DEFINITION. The tables that claims range over: which instructions share a shape, and sample words. -/

namespace Sys2Proof

open Machine

/-- The instruction to which the word of an instruction decodes: the four potreq requests share one word (R366). -/
def wordOwner : Instr → Instr
  | .reclaim d a => .assign d a
  | .evict d a => .assign d a
  | .restoreFrames d a => .assign d a
  | i => i

/-- Words with the instructions they stand for: those that the manual's worked examples spell out, and others written out from
its encodings, one at least of every form. -/
def sampleWords : List (W64 × Instr) :=
  [(0x06C1C00000000160, .sli .i64 7 5),
   (0x00420200000001C0, .sadd .i64 8 8 (.reg 7)),
   (0x06024200000003E0, .scmp .i64 9 8 (.imm 15)),
   (0x0842400000000200, .bc .eqz 9 .none 2),
   (0x09C1C0FFFFFFFF00, .loop 7 .none 0xFFFFFFFF),
   (0x0890C00000002040, .bv 0x43 0x20 64),
   (0x0A80000000000000, .nop),
   (0x12C2810142902280,
     .ffma { d := 10, a := 4, b := 5, c := 10, bs := true, ty := .f32, sat := false, rm := some .rtz, k := 2 }),
   (0x1DC2008020100400,
     .redf { d := 8, a := 2, b := 0, c := 0x80, bs := false, ty := .f32, sat := false, rm := none, k := 4 }),
   (0x21C4168000100220,
     .mfrag { data := 16, base := 0x5A, index := 0, off := 0x400, wt := .fragShared, sv := .s2, k := 0 }),
   (0x280200C082402444,
     .atom { d := 8, base := 3, index := 2, data := 9, op := .add, order := .rlx, scope := .die, use := .commutative,
             w64 := false, scr := true, k := 1, uni := false }),
   (0x2880000001812000, .fence .rel .die 6),
   (0x2C85054585C00000, .shape 0x14 0x15 0x16 0x17 .bf16 .bf16 false),
   (0x2D0000C6064686C0, .mloop 0 3 24 25 26 27 false),
   (0x3840000000000140, .trap 5),
   (0x3C80000000000000, .eret),
   (0x3D0001400000C180, .tlbinvIpa 5 6)]

/-- The dual word of the manual's example: a half at bits 61 to 31 and one at 30 to 0 (R174). -/
def sampleDual : W64 × Instr := (1#2 ++ 0x40202400#31 ++ 0x042C2800#31, .halfFadd 8 9 (.two .vadd 11 10))

/-- The target of a branch: PC + 8 × sext(off32) (R172). -/
def branchTo (s : State) (off : W32) : W64 := readPc s + BitVec.ofInt 64 (8 * off.toInt)

/-- The conditions of bc over the register's value and lanes_live() (R197). -/
def branchIf (cc : Cond) (x l : W64) : Prop :=
  match cc with
  | .eqz => x = 0
  | .nez => x ≠ 0
  | .ltz => x.toInt < 0
  | .gez => 0 ≤ x.toInt
  | .gtz => 0 < x.toInt
  | .lez => x.toInt ≤ 0
  | .any => x &&& l ≠ 0
  | .all => x &&& l = l
  | .none => x &&& l = 0

/-- No path or stack entry of a group holds a lane of another group (R44). -/
def noneLent (g : Group) : Bool :=
  g.slot0.lent.isEmpty && g.slot1.lent.isEmpty && g.stack.all (fun e => e.lent.isEmpty)

/-- A word of the table that is no other unit's event. -/
def isMeantWord (i : Instr) : Bool := isWord i

/-- The special registers that a group reads at L0 with their values (R64 to R73). -/
def groupSpecials : List (Nat × (State → Group → Bool → W64)) :=
  [(0x00, fun _ g sl => live g sl),
   (0x01, fun _ _ sl => if sl then 1 else 0),
   (0x02, fun _ g _ => BitVec.ofNat 64 g.stack.length),
   (0x03, fun _ g sl => (getSlot g sl).fmt.zeroExtend 64),
   (0x04, fun _ g _ => g.flags),
   (0x05, fun _ g _ => g.flagsen),
   (0x06, fun _ g _ => g.cause),
   (0x07, fun _ g _ => g.caddr),
   (0x08, fun _ g _ => if g.preq then 1 else 0),
   (0x09, fun s g _ => if g.preq then BitVec.ofNat 64 ((g.pdlAt - s.time) % 2 ^ 32) else 0),
   (0x0B, fun _ g _ => g.shape)]

/-- The privileged registers that mts of a Quartz core writes, with the bits that are not reserved (R355, R356, R370, R371). -/
def quartzWritable : List (Nat × W64) :=
  [(0x81, BitVec.allOnes 64), (0x82, 0x00000FFFFFFF1FFF), (0x83, BitVec.allOnes 64), (0x84, BitVec.allOnes 64), (0x85, 7),
   (0x86, BitVec.allOnes 64), (0x87, 1), (0x89, BitVec.allOnes 64), (0x8A, BitVec.allOnes 64), (0x8B, 0x800000000FFF0FFF),
   (0x8C, 0x00003FFFFFFF0001), (0x8D, 0xFFFF), (0x8E, 0x00003FFFFFFF0001), (0x8F, 0xF)]

/-- The copy of a banked register that a number reaches: that of the executing level, L3 with L2's, or through 0x91 to 0x97 L1's (R355;
log 18). -/
def quartzBank (q : Quartz) (n : Nat) : Nat :=
  if 0x91 ≤ n ∧ n ≤ 0x97 then 1 else if 0x81 ≤ n ∧ n ≤ 0x87 then (if q.level = 1 then 1 else 2) else 0

/-- The identity values of a group at a location of launch l and team t, by selector (R209). -/
def groupIdentity (loc : Nat) (g : Group) (l : Launch) (t : Team) : List (Nat × Nat) :=
  [(0x00, t.index % l.gx), (0x01, t.index / l.gx % l.gy), (0x02, t.index / l.gx / l.gy), (0x03, l.gx), (0x04, l.gy), (0x05, l.gz),
   (0x06, g.num), (0x07, l.size), (0x08, g.width), (0x09, locCore loc), (0x0A, locSq loc + 4 * locPos loc), (0x0B, g.allot),
   (0x0C, t.index)]

/-- The identity values of a Quartz, service or Basalt core, by selector; at L0 TID [44] says inside, [43:32] the EID, [27:16] the thread
(R354). -/
def coreIdentity (n : Nat) (q : Quartz) : List (Nat × Nat) :=
  let tid := (srGet q 0 0x12).toNat
  let inside := tid.testBit 44 && q.level == 0
  [(0x00, n), (0x01, if inside then tid / 2 ^ 16 % 2 ^ 12 else 0), (0x02, if inside then tid / 2 ^ 32 % 2 ^ 12 else 0),
   (0x03, if inside then 1 else 0), (0x04, q.level)]

/-- The identity values of the prologue engine of front end n, by selector: the front end, the queue, the enclave, the iteration (R429). -/
def prologueIdentity (n : Nat) (p : Prologue) : List (Nat × Nat) :=
  [(0x00, n), (0x01, p.queue.getD 0), (0x02, p.eid), (0x03, p.iter)]

/-- An image that FMT may hold: reserved bits zero and both element formats assigned (R66, R67). -/
def fmtImageOk (v : W32) : Prop := v.toNat < 2 ^ 13 ∧ v.toNat % 16 ≤ 5 ∧ v.toNat / 16 % 16 ≤ 5

/-- The scalar operations of two sources without a flag (R190, R191). -/
def scalarBinary : List ((SType → Sel → Sel → SSrc → Instr) × AluOp) :=
  [(.sadd, .add), (.ssub, .sub), (.smul, .mul), (.smulh, .mulh), (.sand, .and), (.sor, .or), (.sxor, .xor),
   (.sandn, .andn), (.sshl, .shl), (.sshr, .shr), (.ssra, .sra), (.srot, .rot), (.smin, .min), (.smax, .max)]

/-- The scalar divisions (R82, R190). -/
def scalarDivide : List ((SType → Sel → Sel → SSrc → Instr) × AluOp) := [(.sdiv, .div), (.srem, .rem)]

/-- The scalar operations of one source (R190). -/
def scalarUnaryOps : List ((SType → Sel → Sel → Instr) × UnOp) :=
  [(.sabs, .abs), (.sclz, .clz), (.sctz, .ctz), (.spop, .pop), (.sbrev, .brev)]

end Sys2Proof
end

