-- ==== Sys2Proof/Safety/Lanes.lean ====
section
/-! DEFINITION. What claims say of the vector words: the value of every computed lane, every other lane of every register
unchanged, the flags of all computed lanes, and nothing else touched (R212 to R216). -/

namespace Sys2Proof

open Machine

/-- The group that every lane of a path is at home in exists (R44). -/
def lanesHome (s : State) (loc : Nat) (g : Group) (sl : Bool) : Prop :=
  ∀ j, j < 64 → (mget s.groups (homeLoc s loc g sl j)).isSome = true

/-- A state without vector registers. -/
def noVectors (s : State) : State := { s with groups := s.groups.map (fun e => (e.1, { e.2 with v := [] })) }

/-- The flags that the computed lanes raise together (R212). -/
def lanesFlags (l : List Nat) (f : Nat → Nat × Nat) : Nat := l.foldl (fun a j => a ||| (f j).2) 0

/-- The word puts (f j).1 into lane j of d, or of the pair from d on, for each lane j of a list, in the lane's home group; every other
lane of every vector register of every group keeps its value; FLAGS gains the flags of those lanes; the PC advances; nothing
else changes and no byte of memory does. -/
def LaneDoes (i : Instr) (s : State) (loc : Nat) (sl : Bool) (g : Group) (l : List Nat) (wide : Bool) (d : Sel)
    (f : Nat → Nat × Nat) : Prop :=
  ∃ t g', exec i s = .next t ∧ mget t.groups loc = some g' ∧
    (∀ j ∈ l, vVal t loc g' sl wide d j = (f j).1) ∧
    (∀ m r j, j < 64 →
      ¬ (j ∈ l ∧ m = homeLoc s loc g sl j ∧ d.toNat ≤ r ∧ r < d.toNat + (if wide then 2 else 1)) →
      vAt t m r j = vAt s m r j) ∧
    plain (noVectors t) = plain (noVectors (advance (orFlags s (lanesFlags l f)))) ∧
    ∀ m, readLoc t m = readLoc s m

/-- What the claims about vector words assume of the issuing group. -/
def LaneUnit (i : Instr) (s : State) (loc : Nat) (sl : Bool) (g : Group) : Prop :=
  canon s = true ∧ ready i s = true ∧ Issues s loc sl g ∧ lanesHome s loc g sl

/-- The integer result of two sources of a lane: the bits of the type's width, or clamped under .sat (R215, R218, R219). -/
def laneBits (op : AluOp) (o : VOp) (x y : Nat) : Nat :=
  let n := ibits o.ty
  let sgn := VTy.isSigned o.ty
  let a := BitVec.ofNat n x
  let b := BitVec.ofNat n y
  match o.sat, aluExact op n (asInt sgn a) (asInt sgn b) with
  | true, some r => (BitVec.ofInt n (satint o.ty r)).toNat
  | _, _ => (aluBits op sgn a b).toNat

/-- The vector operations of two sources (R218, R219). -/
def laneBinary : List ((VOp → Instr) × AluOp) :=
  [(.vadd, .add), (.vsub, .sub), (.vmul, .mul), (.vmulh, .mulh), (.vdiv, .div), (.vrem, .rem), (.vand, .and), (.vor, .or),
   (.vxor, .xor), (.vandn, .andn), (.vshl, .shl), (.vshr, .shr), (.vsra, .sra), (.vmin, .min), (.vmax, .max)]

/-- The exact integer result of one source of a lane (R218). -/
def laneUnaryExact (op : Nat) (o : VOp) (x : Nat) : Int :=
  let n := ibits o.ty
  let v := asInt (VTy.isSigned o.ty) (BitVec.ofNat n x)
  match op with
  | 0 => v.natAbs
  | 1 => -v
  | 2 => (2 ^ n : Nat) - 1 - (x % 2 ^ n : Nat)
  | 3 => leadingZeros n (x % 2 ^ n)
  | _ => onesOf n (x % 2 ^ n)

/-- The vector operations of one source (R218). -/
def laneUnary : List ((VOp → Instr) × Nat) := [(.vabs, 0), (.vneg, 1), (.vnot, 2), (.vclz, 3), (.vpop, 4)]

/-- An exact result as a lane holds it (R215). -/
def laneHeld (o : VOp) (r : Int) : Nat :=
  (BitVec.ofInt (ibits o.ty) (if o.sat then satint o.ty r else r)).toNat

/-- The dot product of the elements of e bits of x and y added to the accumulator (R221). -/
def dotSum (sgn : Bool) (e n x y : Nat) (acc : Int) : Int :=
  (List.range n).foldl (fun a j =>
    let u (z : Nat) : BitVec e := BitVec.ofNat e (z / 2 ^ (e * j))
    a + asInt sgn (u x) * asInt sgn (u y)) acc

/-- The floating-point words of two sources with the function of R98, R99 and R227 that each lane gets. -/
def floatBinary : List ((VOp → Instr) × (RCtl → VTy → Nat → Nat → Nat × Nat)) :=
  [(.fadd, fAddE), (.fsub, fSubE), (.fmul, fMulE), (.fdiv, fDivE),
   (.fmin, fun c f x y => fMinMax false c.fzi f x y), (.fmax, fun c f x y => fMinMax true c.fzi f x y)]

/-- Exponent and fraction widths of the formats of the floating-point words (R83). -/
def expWidth : VTy → Nat | .f16 => 5 | _ => 8
def fracWidth : VTy → Nat | .f16 => 10 | .bf16 => 7 | _ => 23

/-- The number of the one bit that fclass sets for an encoding (R229). -/
def classBit (f : VTy) (x : Nat) : Nat :=
  let e := x / 2 ^ fracWidth f % 2 ^ expWidth f
  let m := x % 2 ^ fracWidth f
  let neg := x.testBit (expWidth f + fracWidth f)
  if e = 2 ^ expWidth f - 1 then
    (if m = 0 then (if neg then 0 else 7) else if m.testBit (fracWidth f - 1) then 9 else 8)
  else if e = 0 then
    (if m = 0 then (if neg then 3 else 4) else (if neg then 2 else 5))
  else if neg then 1 else 6

/-- The canonical NaN of a format (R83), and an infinity with a sign. -/
def quietNan : VTy → Nat | .f16 => 0x7E00 | .bf16 => 0x7FC0 | _ => 0x7FC00000
def infinity (f : VTy) (neg : Bool) : Nat :=
  (2 ^ expWidth f - 1) * 2 ^ fracWidth f + (if neg then 2 ^ (expWidth f + fracWidth f) else 0)

/-- The special results of R85 and R99 for operands a, b and z read as x, y and w after FMT.fzi: a NaN operand gives the canonical NaN,
with invalid for a signalling one only; an invalid operation the canonical NaN with invalid; a finite value over zero, and the reciprocal
root of zero, an infinity with divzero. -/
def floatSpecials (c : RCtl) (f : VTy) (a b z : Nat) : Prop :=
  let x := srcVal c f a
  let y := srcVal c f b
  let w := srcVal c f z
  let quiet (l : List Nat) : Nat × Nat := (quietNan f, if l.any (fun e => classBit f e == 8) then 1 else 0)
  let invalid : Nat × Nat := (quietNan f, 1)
  (x = .nan ∨ y = .nan → fAddE c f a b = quiet [a, b] ∧ fSubE c f a b = quiet [a, b] ∧ fMulE c f a b = quiet [a, b] ∧
    fDivE c f a b = quiet [a, b]) ∧
  (w = .nan → fFmaE c f a b z = quiet [a, b, z]) ∧
  (x = .nan → fSqrtE c f a = quiet [a] ∧ fRsqE c f a = quiet [a] ∧ fRcpE c f a = quiet [a] ∧ fRoundE c f a = quiet [a]) ∧
  (∀ s t, x = .inf s → y = .inf t → fDivE c f a b = invalid ∧
    (s ≠ t → fAddE c f a b = invalid) ∧ (s = t → fSubE c f a b = invalid)) ∧
  (∀ s t d, x = .inf s → y = .fin t 0 d → fMulE c f a b = invalid ∧ fMulE c f b a = invalid ∧
    (w ≠ .nan → fFmaE c f a b z = invalid)) ∧
  (∀ s t d e, x = .fin s 0 d → y = .fin t 0 e → fDivE c f a b = invalid) ∧
  (∀ s t n d e, x = .fin s n d → n ≠ 0 → y = .fin t 0 e → fDivE c f a b = (infinity f (s != t), 2)) ∧
  (∀ n d, x = .inf true ∨ x = .fin true n d ∧ n ≠ 0 → fSqrtE c f a = invalid ∧ fRsqE c f a = invalid) ∧
  (∀ s d, x = .fin s 0 d → fRsqE c f a = (infinity f s, 2) ∧ fRcpE c f a = (infinity f s, 2))

/-- A result is one rounding of the exact value v / den, not zero, in whatever fraction it is written (R10, R91). -/
def roundedOnce (c : RCtl) (f : VTy) (r : Nat × Nat) (v : Int) (den : Nat) : Prop :=
  ∃ n d, 0 < d ∧ n * den = v.natAbs * d ∧ r = rnd c f (.fin (decide (v < 0)) n d)

/-- Finite operands: product, quotient, sum, difference and fused product and sum are each one rounding of their exact value; an exact
sum of 0 is −0 when both terms are, and else under rounding down alone, unless both are +0 (R91, R95, R226). -/
def floatExact (c : RCtl) (f : VTy) (a b z : Nat) : Prop :=
  ∀ s n d t k e, srcVal c f a = .fin s n d → srcVal c f b = .fin t k e →
    let x : Int := if s then -(n : Int) else n
    let y : Int := if t then -(k : Int) else k
    let zero (neg : Bool) : Nat × Nat := (2 ^ (fbits f - 1) * (if neg then 1 else 0), 0)
    fMulE c f a b = rnd c f (.fin (s != t) (n * k) (d * e)) ∧
    (k ≠ 0 → fDivE c f a b = rnd c f (.fin (s != t) (n * e) (d * k))) ∧
    (x * e + y * d ≠ 0 → roundedOnce c f (fAddE c f a b) (x * e + y * d) (d * e)) ∧
    (x * e - y * d ≠ 0 → roundedOnce c f (fSubE c f a b) (x * e - y * d) (d * e)) ∧
    (f = .f32 ∨ f = .f16 ∨ f = .bf16 → x * e + y * d = 0 → fAddE c f a b =
      zero (n = 0 ∧ k = 0 ∧ s = t ∧ s = true ∨ c.m = .rdn ∧ ¬ (n = 0 ∧ k = 0 ∧ s = false ∧ t = false))) ∧
    (∀ u m g, srcVal c f z = .fin u m g →
      let w : Int := if u then -(m : Int) else m
      let p : Int := if s = t then (n : Int) * k else -((n : Int) * k)
      p * g + w * (d * e : Nat) ≠ 0 → roundedOnce c f (fFmaE c f a b z) (p * g + w * (d * e : Nat)) (d * e * g))

/-- The floating-point words of one source (R98, R99, R226, R229, R230). -/
def floatUnary : List ((VOp → Instr) × (RCtl → VTy → Nat → Nat × Nat)) :=
  [(.frcp, fRcpE), (.frsq, fRsqE), (.fsqrt, fSqrtE), (.fexp2, fExp2E), (.flog2, fLog2E), (.fsin, fTrigE false),
   (.fcos, fTrigE true), (.fround, fRoundE), (.fabs, fun _ f x => (x % 2 ^ (fbits f - 1), 0)),
   (.fneg, fun _ f x => ((x + 2 ^ (fbits f - 1)) % 2 ^ fbits f, 0)), (.fclass, fun _ f x => (2 ^ classBit f x, 0))]

/-- The narrow float types that FMT.sat governs (R93, R231). -/
def narrowFloat : VTy → Bool
  | .f16 | .bf16 | .e4m3 | .e5m2 | .fp4 | .dl8 => true
  | _ => false

/-- Bits of an element of pack and unpk (R232). -/
def elementBits : VTy → Nat
  | .fp4 => 4
  | .f16 | .bf16 | .i16 | .n16 => 16
  | _ => 8

/-- Whether an encoding is a signalling NaN (R85). -/
def signals (f : VTy) (x : Nat) : Bool :=
  match f with
  | .f32 | .f16 | .bf16 => classBit f x == 8
  | .e5m2 => x % 128 == 0x7D
  | _ => false

/-- The canonical NaN of every format, for FP4 its zero (R83, R94). -/
def formatNan : VTy → Nat
  | .e5m2 => 0x7E | .e4m3 => 0x7F | .dl8 => 0x80 | .e8m0 => 0xFF | .fp4 => 0 | f => quietNan f

/-- y is the integer to which a mode rounds x / d (R91). -/
def roundsTo (m : RMode) (x : Int) (d : Nat) (y : Int) : Prop :=
  match m with
  | .rdn => y * d ≤ x ∧ x < (y + 1) * d
  | .rup => (y - 1) * d < x ∧ x ≤ y * d
  | .rtz => if 0 ≤ x then 0 ≤ y ∧ y * d ≤ x ∧ x < (y + 1) * d else y ≤ 0 ∧ (y - 1) * d < x ∧ x ≤ y * d
  | .rne => 2 * (x - y * d) ≤ d ∧ 2 * (y * d - x) ≤ d ∧ ((2 * (x - y * d)).natAbs = d → y % 2 = 0)

/-- A conversion is one rounding of the exact source value (R96, R97): an integer or floating-point source that is no NaN is rounded once
into a float destination; into an integer one it is rounded to an integer, clamped with invalid when that lies outside the type, inexact when
it differs from the value; a NaN gives the canonical NaN, or the integer 0 with invalid. A signalling NaN and the DL8 code 0x80 set invalid. -/
def convertExact (m : RMode) (sat fzi fzo : Bool) (fr dest : VTy) (x : Nat) : Prop :=
  let r := cvtVal fr dest m sat fzi fzo x
  let c : RCtl := { m := m, sat := sat && !(fr == .dl8 && dest == .f32), fzi := fzi, fzo := fzo }
  let bad : Nat := if signals fr x || (fr == .dl8 && x % 256 == 0x80) then 1 else 0
  let n := ibits dest
  let lo := (intRange dest).1
  let hi := (intRange dest).2
  let bits (i : Int) : Nat := (BitVec.ofInt n i).toNat
  (VTy.isInt fr = true → let i := asInt (VTy.isSigned fr) (BitVec.ofNat (ibits fr) x); r = rnd c dest (.fin (decide (i < 0)) i.natAbs 1)) ∧
  (VTy.isInt fr = false → VTy.isInt dest = false →
    (srcVal c fr x = .nan → r = (formatNan dest, bad ||| (if dest = .fp4 then 1 else 0))) ∧
    (srcVal c fr x ≠ .nan → r = rnd c dest (srcVal c fr x))) ∧
  (VTy.isInt fr = false → VTy.isInt dest = true →
    (srcVal c fr x = .nan → r = (0, 1)) ∧
    (∀ s, srcVal c fr x = .inf s → r = (bits (if s then lo else hi), 1)) ∧
    (∀ s k d, srcVal c fr x = .fin s k d →
      let v : Int := if s then -(k : Int) else k
      ∃ y, roundsTo m v d y ∧
        r = if y < lo then (bits lo, 1) else if hi < y then (bits hi, 1) else (bits y, if y * d = v then 0 else 16)))

/-- Order of two values: none with a NaN, else whether the first is below the second, and the second below the first; −0 and +0 are
equal (R228). -/
def valueBelow : XVal → XVal → Bool
  | .nan, _ | _, .nan => false
  | .inf s, .inf t => s && !t
  | .inf s, .fin _ _ _ => s
  | .fin _ _ _, .inf t => !t
  | .fin s n d, .fin t k e => decide ((if s then -(n : Int) else n) * e < (if t then -(k : Int) else k) * d)

/-- R228: the condition of fcmp on the decoded values, and its flag: invalid for a signalling NaN, and for any NaN under the ordered
relations. -/
def compared (fc : FCond) (fzi : Bool) (f : VTy) (x y : Nat) : Bool × Nat :=
  let c : RCtl := { m := .rne, sat := false, fzi := fzi, fzo := false }
  let u := srcVal c f x
  let v := srcVal c f y
  let nan : Bool := decide (u = .nan ∨ v = .nan)
  let lt := valueBelow u v
  let gt := valueBelow v u
  let sn : Nat := if signals f x || signals f y then 1 else 0
  let any : Nat := if nan then 1 else sn
  match fc with
  | .eq => (!nan && !lt && !gt, sn)
  | .ne => (nan || lt || gt, sn)
  | .lt => (lt, any)
  | .le => (!nan && !gt, any)
  | .gt => (gt, any)
  | .ge => (!nan && !lt, any)
  | .uo => (nan, sn)
  | .ord => (!nan, sn)

/-- Bits of a converted value (R81, R83). -/
def typeBits (t : VTy) : Nat := if VTy.isInt t then ibits t else fbits t

/-- x with its n bits from lo on replaced by those of y. -/
def putBits (x lo n y : Nat) : Nat := x - (x / 2 ^ lo % 2 ^ n) * 2 ^ lo + (y % 2 ^ n) * 2 ^ lo

/-- A mask register after a comparison: bit i of a computed lane is its condition, the other bits below width are kept, the rest
is 0 (R222). -/
def comparedMask (old : W64) (width : Nat) (l : List Nat) (c : Nat → Bool) : W64 :=
  BitVec.ofNat 64 ((List.range width).foldl (fun m i =>
    if (if l.contains i then c i else old.getLsbD i) then m + 2 ^ i else m) 0)

/-- The lanes that a vector word computes: those of EXEC and of kK below the width (R10, R212). -/
def computed (g : Group) (sl : Bool) (k : BitVec 4) : List Nat := lanesOf (live g sl &&& kRead g.k k.toNat) g.width

/-- What a shuffle puts into lane j: the value of lane n when n is present, its own otherwise (R238, R242). -/
def laneFrom (l : List Nat) (v : Nat → Nat) (j : Nat) (n : Option Nat) : Nat :=
  match n with
  | some n => if l.contains n then v n else v j
  | none => v j

/-- The exact integer combination of values under a type, the identity for none (R237, R247). -/
def reduced (op : RedOp) (t : VTy) (l : List Int) : Int :=
  let n := ibits t
  let bits (f : BitVec n → BitVec n → BitVec n) (e : BitVec n) : Int :=
    ((l.foldr (fun x y => f (BitVec.ofInt n x) y) e).toNat : Nat)
  match op with
  | .add => l.sum
  | .min => l.foldr min (if VTy.isSigned t then (2 ^ (n - 1) : Nat) - 1 else (2 ^ n : Nat) - 1)
  | .max => l.foldr max (if VTy.isSigned t then -(2 ^ (n - 1) : Nat) else 0)
  | .and => bits (· &&& ·) (BitVec.allOnes n)
  | .or => bits (· ||| ·) 0
  | .xor => bits (· ^^^ ·) 0

/-- The fixed tree of R246 over 2 ^ n lane positions from i × 2 ^ n on: the value of a node with two children present combines
them, one with a single child passes it on; with it the flags of the nodes. -/
def floatTree (op : RedOp) (fzo : Bool) (leaf : Nat → Option Nat) : Nat → Nat → Option Nat × Nat
  | 0, i => (leaf i, 0)
  | n + 1, i =>
    let x := floatTree op fzo leaf n (2 * i)
    let y := floatTree op fzo leaf n (2 * i + 1)
    match x.1, y.1 with
    | some u, some v =>
      let r := match op with
        | .min => fMinMax false false .f32 u v
        | .max => fMinMax true false .f32 u v
        | _ => fAddE { m := .rne, sat := false, fzi := false, fzo := fzo } .f32 u v
      (some r.1, x.2 ||| y.2 ||| r.2)
    | some u, none => (some u, x.2 ||| y.2)
    | none, z => (z, x.2 ||| y.2)

/-- The FP32 combination of the values of lanes below 2 ^ n with its flags: leaves flushed under FMT.fzi, a NaN leaf canonical, a
signalling one invalid; +0, +∞ or −∞ for no lane (R237, R246). -/
def floatReduced (op : RedOp) (fzi fzo : Bool) (n : Nat) (l : List Nat) (v : Nat → Nat) : Nat × Nat :=
  let leaf (j : Nat) : Nat :=
    let x := if fzi && v j / 2 ^ 23 % 256 == 0 then v j / 2 ^ 31 * 2 ^ 31 else v j
    if x / 2 ^ 23 % 256 = 255 ∧ x % 2 ^ 23 ≠ 0 then 0x7FC00000 else x
  let r := floatTree op fzo (fun j => if l.contains j then some (leaf j) else none) n 0
  let inv := l.any (fun j => v j / 2 ^ 22 % 512 == 510 && v j % 2 ^ 22 != 0)
  (r.1.getD (match op with | .min => 0x7F800000 | .max => 0xFF800000 | _ => 0), r.2 ||| (if inv then 1 else 0))

/-- A lane value as a scalar register holds it (R224, R237). -/
def laneScalar (t : VTy) (x : Nat) : W64 :=
  if t = .i32 then ((BitVec.ofNat 32 x)).signExtend 64 else BitVec.ofNat 64 x

/-- The mask whose bits are those of the numbers below 64 with a property. -/
def maskWhere (p : Nat → Bool) : W64 :=
  BitVec.ofNat 64 ((List.range 64).foldl (fun m i => if p i then m + 2 ^ i else m) 0)

/-! ### Dual words -/

/-- What a half of a dual word gives lane j of its destination, with the flags: what the full word of its name with d as first
source would, on .i32, .n32 or .f32 without .sat and in the mode of FMT (R174, R234). -/
def halfGives (s : State) (loc : Nat) (g : Group) (sl : Bool) (h : Half) (j : Nat) : Nat × Nat :=
  let fmt := (getSlot g sl).fmt.toNat
  let m : RMode := match fmt / 256 % 4 with | 0 => .rne | 1 => .rtz | 2 => .rup | _ => .rdn
  let c : RCtl := { m := m, sat := false, fzi := fmt.testBit 10, fzo := fmt.testBit 11 }
  let v (a : Sel) : Nat := vVal s loc g sl false a j
  let bits (x : BitVec 32) : Nat × Nat := (x.toNat, 0)
  match h with
  | .nop => (0, 0)
  | .two op d a =>
    let int (o : AluOp) (sgn : Bool) : Nat × Nat := bits (aluBits o sgn (BitVec.ofNat 32 (v d)) (BitVec.ofNat 32 (v a)))
    match op with
    | .vadd => int .add true | .vsub => int .sub true | .vmul => int .mul true
    | .vand => int .and false | .vor => int .or false | .vxor => int .xor false | .vandn => int .andn false
    | .vshl => int .shl false | .vshr => int .shr false | .vsra => int .sra true
    | .vminI => int .min true | .vminN => int .min false | .vmaxI => int .max true | .vmaxN => int .max false
    | .fadd => fAddE c .f32 (v d) (v a) | .fsub => fSubE c .f32 (v d) (v a) | .fmul => fMulE c .f32 (v d) (v a)
    | .fmin => fMinMax false c.fzi .f32 (v d) (v a) | .fmax => fMinMax true c.fzi .f32 (v d) (v a)
  | .one op _ a =>
    let x : BitVec 32 := BitVec.ofNat 32 (v a)
    match op with
    | .vmov => bits x
    | .vabs => bits (if x.msb then -x else x)
    | .vneg => bits (-x)
    | .fabs => bits (x &&& 0x7FFFFFFF#32)
    | .fneg => bits (x ^^^ 0x80000000#32)
  | .ffma d a b => fFmaE c .f32 (v a) (v b) (v d)
  | .vli _ imm => bits (imm.signExtend 32)
  | .cvt p _ a =>
    let t : VTy × VTy := match p with
      | .f32bf16 => (.f32, .bf16) | .f32f16 => (.f32, .f16) | .bf16f32 => (.bf16, .f32)
      | .f16f32 => (.f16, .f32) | .bf16f16 => (.bf16, .f16) | .f16bf16 => (.f16, .bf16)
    let x := cvtVal t.1 t.2 m (fmt.testBit 12 && narrowFloat t.2) c.fzi c.fzo (v a)
    (x.1 % 2 ^ typeBits t.2, x.2)
  | .shflx n _ a =>
    (laneFrom (lanesOf (live g sl) g.width) (fun i => vVal s loc g sl false a i) j (some (j ^^^ n.toNat)), 0)

end Sys2Proof
end

