-- ==== Sys2Proof/Safety/Memory.lean ====
section
/-! DEFINITION. What claims say of memory words: the address of each lane, the work in flight that a word adds, when its
checks pass, and what a return writes (R106 to R149, R251 to R268). -/

namespace Sys2Proof

open Machine

/-- The word answers a next state that is w at PC + 8, but for what completion touches; memory reads as in w. -/
def Becomes (i : Instr) (s w : State) : Prop := ∃ t, exec i s = .next t ∧ plain t = plain (advance w)

/-- A group with work appended to what it has in flight, numbered from the model's counter on. -/
def withWork (s : State) (loc : Nat) (l : List Pend) : State :=
  { s with groups := mupd s.groups loc (fun g => { g with pend := g.pend ++ l }), fresh := s.fresh + l.length }

/-- The entry of an access of size bytes at a in a target's space. -/
def accessEntry (s : State) (g : Group) (sl : Bool) (path : Path) (t : Target) (id size : Nat) (kind : Kind) (a : Nat)
    (dst : Dst) (lanes : W64) (act : Act) : Pend :=
  { id := id, slot := sl, path := some path, kind := kind, order := .rlx, cov := coverage s g t.space a (a + size), dst := dst,
    lanes := lanes, act := act, flags := 0, returned := false, aliased := t.aliased.toList, src := 0,
    homes := (getSlot g sl).lent, comb := none, quantum := none }

/-- The lanes of a memory word: lane 0 alone for a uniform one (R251, R255). -/
def accessLanes (g : Group) (sl : Bool) (k : BitVec 4) (uni : Bool) : List Nat := if uni then [0] else computed g sl k

/-- Address of a lane of a form M word: base + index + sext(off20), and lane × bytes when contiguous outside spill (R252). -/
def laneAddress (o : MOp) (space : Nat) (s : State) (loc : Nat) (g : Group) (sl : Bool) (b j : Nat) : Int :=
  (b : Int) + (if o.sv = .s1 then ((vRead s loc g sl o.index j).toNat : Int) else ((gRead g o.index).toNat : Int))
    + o.off.toInt + (if o.sv = .s0 ∧ space ≠ 1 then ((j * MWidth.bytes o.wt : Nat) : Int) else 0)

/-- Address of a lane of an atomic: base + index (R263). -/
def atomAddress (o : AOp) (s : State) (loc : Nat) (g : Group) (sl : Bool) (b j : Nat) : Int :=
  (b : Int) + (if o.uni then ((gRead g o.index).toNat : Int) else ((vRead s loc g sl o.index j).toNat : Int))

/-- No lane's check fails, waits, is held by a change of W, which holds an access before its other checks (R275), or by an earlier S
access (R147), or meets a watchpoint (R490). -/
def checksPass (s : State) (loc : Nat) (g : Group) (t : Target) (rd wr watched : Bool) (size : Nat)
    (cs : List (Nat × LChk)) : Bool :=
  cs.all (fun c => match c.2 with
    | .ok _ k a => !shrinkHolds s loc g t.space a size && !(sOutstanding g && k == .s)
    | .aperture _ => !sOutstanding g
    | _ => false)
  && (!watched || (watchHit s g t rd wr size cs).isNone)

/-- The granted lanes of a list of checks with their number in it: lane, bytes, kind, address. -/
def granted (cs : List (Nat × LChk)) : List (Nat × List MLoc × Kind × Nat) :=
  cs.filterMap (fun c => match c.2 with | .ok locs k a => some (c.1, locs, k, a) | _ => none)

/-- Entries numbered from n on. -/
def numbered (n : Nat) (l : List (Nat → Pend)) : List Pend := (l.zip (List.range l.length)).map (fun p => p.1 (n + p.2))

/-- The bytes that a lane stores: the low bytes of its registers from data on, or of the scalar (R253). -/
def storedBytes (o : MOp) (s : State) (loc : Nat) (g : Group) (sl : Bool) (j : Nat) : List Byte :=
  (List.range (MWidth.bytes o.wt)).map (fun n =>
    if o.sv = .s2 then BitVec.ofNat 8 ((gRead g o.data).toNat / 2 ^ (8 * n))
    else BitVec.ofNat 8 ((vRead s loc g sl (o.data + BitVec.ofNat 8 (n / 4)) j).toNat / 2 ^ (8 * (n % 4))))

/-- A loaded number as a 32-bit register and as a scalar hold it: .i8 and .i16 sign-extended (R253). -/
def loadedWord (wt : MWidth) (v k : Nat) : W32 :=
  match wt with
  | .i8 => (BitVec.ofNat 8 v).signExtend 32
  | .i16 => (BitVec.ofNat 16 v).signExtend 32
  | _ => BitVec.ofNat 32 (v / 2 ^ (32 * k))
def loadedScalar (wt : MWidth) (v : Nat) : W64 :=
  match wt with
  | .i8 => (BitVec.ofNat 8 v).signExtend 64
  | .i16 => (BitVec.ofNat 16 v).signExtend 64
  | _ => BitVec.ofNat 64 v

/-- The memory that a byte lies in exists. -/
def locThere (s : State) : MLoc → Bool
  | .shared tid _ => (mget s.teams tid).isSome
  | .array d _ => (mget s.dies d).isSome
  | .hbm _ => true
  | .counted _ _ _ => false

/-- What atom and cas store for an old value and operands of n bits (R264, R266). -/
def atomStores (op : AtomOp) (cas : Bool) (n old y cmp : Nat) : Nat :=
  let o : BitVec n := BitVec.ofNat n old
  let b : BitVec n := BitVec.ofNat n y
  (if cas then (if o = BitVec.ofNat n cmp then b else o)
   else match op with
    | .add => o + b
    | .and => o &&& b
    | .or => o ||| b
    | .xor => o ^^^ b
    | .minS => if b.toInt < o.toInt then b else o
    | .maxS => if o.toInt < b.toInt then b else o
    | .minN => if b.toNat < o.toNat then b else o
    | .maxN => if o.toNat < b.toNat then b else o
    | .xchg => b).toNat

/-- The bytes of locations that no quantum application in force holds another view of (R152). -/
def settledAt (s : State) (l : List MLoc) : Prop := ∀ q ∈ s.quanta, ∀ m ∈ l, m ∉ q.locs

/-- The entry of a load shares its bytes with no other lane of its word that is still outstanding (R144). -/
def loadsAlone (g : Group) (p : Pend) : Prop :=
  p.comb = none ∨ ∀ x ∈ g.pend, x.id = p.id ∨ x.comb ≠ p.comb ∨ x.returned = true ∨ pendLocs x ≠ pendLocs p

/-- A unit of a group some of whose lanes have not exited, the lent lanes' home groups of an entry present. -/
def landsAt (s : State) (loc : Nat) (p : Pend) (g : Group) : Prop :=
  mget s.groups loc = some g ∧ allExited g = false ∧
  ∀ j, j < 64 → (mget s.groups (homeLoc s loc (setSlot g p.slot { getSlot g p.slot with lent := p.homes }) p.slot j)).isSome
    = true

/-- The home location of a lane of an entry in flight (R78). -/
def landHome (s : State) (loc : Nat) (g : Group) (p : Pend) (j : Nat) : Nat :=
  homeLoc s loc (setSlot g p.slot { getSlot g p.slot with lent := p.homes }) p.slot j

/-- What a return leaves of a state w in which its effect stands: the entry is gone or held by an older one of its path (R134), and
nothing else differs but what completion touches. -/
def Returned (t w : State) (ag : Agent) (id : Nat) : Prop :=
  plain t = plain (setPendAt w ag (markReturned (pendAt w ag) id))

/-- Work in flight that an engine or another agent finishes: id, path, destination, lanes, and what its result is. -/
def taskEntry (g : Group) (sl : Bool) (id : Nat) (path : Path) (dst : Dst) (lanes : W64) (act : Act) (cov src : W64) : Pend :=
  { id := id, slot := sl, path := some path, kind := .priv, order := .rlx, cov := cov, dst := dst, lanes := lanes, act := act,
    flags := 0, returned := false, aliased := [], src := src, homes := (getSlot g sl).lent, comb := none, quantum := none }

/-- A destination register, none for s0 (R284). -/
def toReg (d : Sel) : Dst := if d = 0 then .none else .scalar d

/-- The state with work of an engine under the model's next number. -/
def withTask (s : State) (w : Work) : State := { s with work := mput s.work s.fresh w }

/-- The state with an element at the end of a group's queue (R280). -/
def withElem (s : State) (loc q : Nat) (e : QElem) : State :=
  { s with groups := mupd s.groups loc (fun g => { g with queue := msetD g.queue q (mgetD g.queue q [] ++ [e]) [] }) }

/-- Doubleword n of a copy's template (R286). -/
def templateDw (t : List Byte) (n : Nat) : Nat := leNat ((t.drop (8 * n)).take 8)

/-- Counted lines of a die that a drop removes are gone; one of them above zero sets underread in the group (R130). -/
def linesDropped (s : State) (loc : Nat) (p : CLine → Bool) : State :=
  match mget s.dies (locDie loc) with
  | none => s
  | some d =>
    let s1 := { s with dies := mput s.dies (locDie loc) { d with lines := d.lines.filter (fun l => !p l) } }
    if d.lines.any (fun l => p l && l.st != .poisoned)
    then { s1 with groups := mupd s1.groups loc (fun g => { g with flags := g.flags ||| 0x20#64 }) } else s1

end Sys2Proof
end

