-- ==== Sys2Proof/Safety/Engine.lean ====
section
/-! DEFINITION. What claims say of the engines: a tile word that is queued or performed at once, a result that reaches its group,
the places of a copy (R75, R76, R283, R286, R295 to R302). -/

namespace Sys2Proof

open Machine

/-- No operation of a core's queue of tile words could complete now, and each has a number below the model's counter of its
own (R297). -/
def tilesSettled (s : State) (c : Core) : Prop :=
  (c.mat.map (·.id)).Nodup ∧ ∀ w ∈ c.mat, w.id < s.fresh ∧ (firstOnTile c.mat w = true →
    match w.op with
    | .zero _ => False
    | .loop _ _ _ _ _ step cnt _ _ => step < cnt
    | .drain _ _ _ _ _ _ _ => True)

/-- Whether a tile has a queued operation. -/
def tileBusy (c : Core) (t : Nat) : Bool := c.mat.any (fun w => MatOp.tile w.op == t)

/-- What a tile word leaves of its group and core: the tile queue l, the tiles, one more entry in flight on the engine counter, which
has returned when the word was performed at once; registers, flags and memory as before, PC + 8. -/
def Tiles (i : Instr) (s : State) (loc : Nat) (sl : Bool) (g : Group) (l : List MatWork) (tile : Nat → W32) (done : Bool) : Prop :=
  ∃ u g' c' p, exec i s = .next u ∧ mget u.groups loc = some g' ∧ mget u.cores (locCore loc) = some c' ∧
    c'.mat = l ∧ (∀ key, mgetD c'.tiles key 0 = tile key) ∧
    g'.pend = (if done then markReturned (g.pend ++ [p]) s.fresh else g.pend ++ [p]) ∧
    p.id = s.fresh ∧ p.path = some .engine ∧ p.dst = .none ∧ p.act = .wait ∧ p.returned = false ∧ p.slot = sl ∧
    readPc u = readPc s + 8 ∧ g'.s = g.s ∧ g'.k = g.k ∧ g'.v = g.v ∧ g'.h = g.h ∧ g'.flags = g.flags ∧ g'.queue = g.queue ∧
    ∀ m, readLoc u m = readLoc s m

/-- The state in which a result has reached its group: the channel's last status, the place in the queue or the scalar register,
the flags that come with a scalar, and the counters (R69, R76, R283, R292). -/
def delivered (s : State) (loc : Nat) (r : Late) (dst : Dst) : State :=
  { s with groups := mupd s.groups loc (fun g =>
      let g := match r.chan with | some c => { g with chan := msetD g.chan c r.status 0 } | none => g
      let g := match r.queue with
        | some q => { g with queue := msetD g.queue q ((mgetD g.queue q []).map (fun e =>
            if e.work = r.id ∧ e.ready = false
            then { e with ready := true, header := r.status, lanes := r.lanes, flags := r.flags } else e)) [] }
        | none => g
      let g := match dst with | .scalar a | .pop a _ => gWrite g a r.status | _ => g
      { g with flags := g.flags ||| BitVec.ofNat 64 (if r.queue.isSome then 0 else r.flags), pend := markReturned g.pend r.id }) }

/-- The group that has a piece of work in flight, not all of whose lanes have exited, and no forwarding entry for it. -/
def Owns (s : State) (loc : Nat) (g : Group) (p : Pend) : Prop :=
  pendLoc s p.id = some loc ∧ mget s.groups loc = some g ∧ allExited g = false ∧
  g.pend.find? (fun x => x.id == p.id) = some p ∧ s.fwd.all (fun f => !f.ids.contains p.id) = true

/-- Byte a of a copy's space: 2 scratch, 3 shared (R286). -/
def copyPlace (s : State) (c : Copy) (kind a : Nat) : MLoc :=
  if kind = 2 then scratchLoc s (coreDie c.core) c.part a else .shared c.team a

/-- Size of a copy's space. -/
def copyBound (s : State) (c : Copy) (kind : Nat) : Nat :=
  if kind = 2 then capacity s (coreDie c.core) c.part
  else match mget s.launches c.launch with | some l => l.shared | none => 0

/-- A copy reaches, for a read or a write, the byte at a in a space of kind 1 device, 2 scratch or 3 shared: the location is inside the
bound and no read-only region, or the address translates at once and its line verifies (R123, R286, R291, R385). -/
def copyReaches (s : State) (c : Copy) (kind : Nat) (wr : Bool) (a : Int) (l : MLoc) : Prop :=
  0 ≤ a ∧ a < 2 ^ 64 ∧
  ((kind = 1 ∧ ∃ pa k, translate s (copyCtx s c) a.toNat (if wr then .write else .read) false = (.ok pa k, s) ∧
      lineOk s pa = true ∧ l = .hbm pa) ∨
   (kind = 2 ∨ kind = 3) ∧ a.toNat < copyBound s c kind ∧ l = copyPlace s c kind a.toNat ∧
      (kind = 2 → wr = true → ∀ x, mget s.launches c.launch = some x → (mgetD x.region (a.toNat / 65536) 1).testBit 2 = false))

/-- Source and destination addresses of the elements of a copy, in the order of R286: element (i0, i1, i2, i3) lies at the start plus
i0 times the element size plus each other index times the stride of its dimension. -/
def copyElems (t : List Byte) (src dst : Int) : List (Int × Int) :=
  let n (d : Nat) : List Nat := List.range (if d ≤ tNdim t then tCount t d else 1)
  (n 3).flatMap (fun (i3 : Nat) => (n 2).flatMap (fun (i2 : Nat) => (n 1).flatMap (fun (i1 : Nat) => (n 0).map (fun (i0 : Nat) =>
    (src + i0 * (srcBits t / 8 : Nat) + i1 * tSstr t 1 + i2 * tSstr t 2 + i3 * tSstr t 3,
     dst + i0 * (dstBits t / 8 : Nat) + i1 * tDstr t 1 + i2 * tDstr t 2 + i3 * tDstr t 3)))))

/-- The bytes that a copy writes for the bytes of one element: the same, or its value rounded once to the other format under rne
(R288). -/
def copyElem (t : List Byte) (x : List Byte) : List Byte :=
  let f := convPair (tConv t)
  if tConv t = 0 then x else leBytes (dstBits t / 8) (round f.2 .rne (tSat t) false (val f.1 (leNat x))).1

/-- The result of a collective for a contribution: err and, in each lane that it named, the value there (R283, R306). -/
def collResult (err : Nat) (v : Nat → Nat) (flags : Nat) (k : Contrib) : Late :=
  { id := k.pend, chan := none, status := BitVec.ofNat 64 (256 * err),
    lanes := k.vals.map (fun x => (x.1, if VTy.wide k.ty then [BitVec.ofNat 32 (v x.1), BitVec.ofNat 32 (v x.1 / 2 ^ 32)]
      else [BitVec.ofNat 32 (v x.1)])), flags := flags, queue := some 3 }

/-- The state in which every contribution of a list has its result. -/
def allDelivered (s : State) (f : Contrib → Late) : List Contrib → State
  | [] => s
  | k :: t => allDelivered (delivered s k.loc (f k) .none) f t

/-- Every contribution of a list waits for its result in its group, with no earlier acquire still to read (R140, R306). -/
def contributionsWait (s : State) (cs : List Contrib) : Prop :=
  (cs.map (·.pend)).Nodup ∧ ∀ k ∈ cs, k.die < 8 ∧ ∃ g p, Owns s k.loc g p ∧ k.pend = p.id ∧ p.returned = false ∧ p.dst = .none ∧
    acquireLeft g p.id = false

end Sys2Proof
end

