-- ==== Sys2Proof/Safety/Team.lean ====
section
/-! DEFINITION. What claims say of barriers, claims, traps and system calls (R308 to R330). -/

namespace Sys2Proof

open Machine

/-- The state with a team's barrier at a value. -/
def withBar (s : State) (tid b : Nat) (r : Bar) : State :=
  { s with teams := mupd s.teams tid (fun t => { t with bars := msetD t.bars b r noBar }) }

/-- The barrier after a group's arrival with a count, and whether its phase is complete then (R308, R310): the count is reached, or
every group awake has arrived. -/
def barAfter (s : State) (g : Group) (b cnt : Nat) : Bar × Bool :=
  let r := teamBar s g.team b
  let a := r.arrived ||| BitVec.ofNat 64 (2 ^ g.num)
  let full : Bool := if cnt = 0 then awake s g.team &&& ~~~a == 0 else decide (cnt ≤ onesOf 64 a.toNat)
  (if full then { phase := (r.phase + 1) % 2 ^ 32, count := 0, arrived := 0 } else { phase := r.phase, count := cnt, arrived := a },
   full)

/-- Whether R310 allows the arrival: the count is no larger than the team, the group has not arrived, and the count is that of the
phase. -/
def mayArrive (s : State) (g : Group) (b cnt : Nat) : Prop :=
  let r := teamBar s g.team b
  cnt ≤ teamSize s g.team ∧ r.arrived.getLsbD g.num = false ∧ (r.arrived = 0 ∨ r.count = cnt)

/-- The trap words: the cause is recorded with n, and the word has completed, so that the slot stands at PC + 8; the registers, masks,
flags and memory stay (R322, R323). -/
def Traps (i : Instr) (s : State) (cause n : Nat) : Prop :=
  ∀ loc sl g, Issues s loc sl g → g.stop ≠ .saving → g.stop ≠ .system → isHalted g = false →
    ∃ t g', exec i s = .next t ∧ t.last = .faulted ∧ mget t.groups loc = some g' ∧ g'.cause = BitVec.ofNat 64 cause ∧
      g'.caddr = pcAddr s ∧ g'.causeN = n ∧ g'.stopSlot = sl ∧ g'.stop ≠ .none ∧ (getSlot g' sl).pc = (getSlot g sl).pc + 8 ∧
      (getSlot g' sl).exec = (getSlot g sl).exec ∧ g'.s = g.s ∧ g'.k = g.k ∧ g'.v = g.v ∧ g'.flags = g.flags ∧
      g'.stack = g.stack ∧ ∀ l, readLoc t l = readLoc s l

/-- Doubleword at an offset of a list of bytes, little-endian. -/
def dword (l : List Byte) (off : Nat) : W64 := BitVec.ofNat 64 (leNat ((l.drop off).take 8))

/-- A ring entry whose lanes have all been answered gives its group's pair vD the replies, and its ring position says replied
(R328, R439). -/
def entryReplied (s : State) (fe : Nat) (e : SysEntry) (lane : Nat) (v : W64) (t : State) : Prop :=
  let pos := syscPos (feOf s fe) e.seq
  readLe t.hbm (pos + 0x20) 8 = 2 ∧ readLe t.hbm (pos + 0x40 + 8 * lane) 8 = v.toNat ∧
  (∀ x ∈ (feOf t fe).sysc, x.seq ≠ e.seq) ∧ (feOf t fe).irqSys = true ∧
  (∀ a, a < pos + 0x20 ∨ pos + 0x28 ≤ a → a < pos + 0x40 + 8 * lane ∨ pos + 0x48 + 8 * lane ≤ a →
    readByte t.hbm a = readByte s.hbm a)

end Sys2Proof
end

