-- ==== Sys2Proof/Safety/Queue.lean ====
section
/-! DEFINITION. What claims say of the command front ends: a queue whose next packet can issue, a packet that has been passed, a
graph node that can start (R411 to R435). -/

namespace Sys2Proof

open Machine

/-- A queue of a front end, with the front end's tables in their canonical form. -/
def HasQueue (s : State) (fe q : Nat) (f : FrontEnd) (u : Queue) : Prop :=
  canon s = true ∧ mget s.fes fe = some f ∧ mrising none f.queues = true ∧ mget f.queues q = some u

/-- The next packet of a queue that can issue, of a kind k, read ahead (R428) or through translations that are held: its source and
bytes. No packet of the queue is cancelled, no hold bit keeps it (R415, R423). -/
def Head (s : State) (fe q : Nat) (f : FrontEnd) (u : Queue) (k : Nat) (src : Src) (p : List Byte) : Prop :=
  HasQueue s fe q f u ∧ canTake u = true ∧ u.cancelled = [] ∧
  ∃ va, nextPacket u = some (src, va) ∧ packetRead s fe q q (nextRef u) va (.packet src) = (.ok p, s) ∧
    (dword p 0).toNat % 16 = k ∧ ((dword p 0).getLsbD 4 = false ∨ u.out = [])

/-- Field of n bits at a bit of a doubleword of a packet or node. -/
def dwFld (p : List Byte) (d lo n : Nat) : Nat := (dword p (8 * d)).toNat / 2 ^ lo % 2 ^ n

/-- The state with one queue of a front end at a value. -/
def withQueue (s : State) (fe q : Nat) (u : Queue) : State :=
  { s with fes := mupd s.fes fe (fun f => { f with queues := mput f.queues q u }) }

/-- A queue that runs again, nothing of its own packet waited for (R414): Frozen under a freeze between packets, Waiting while an access
of an earlier packet, a launch or a routine is unfinished. -/
def runs (u : Queue) : Queue :=
  { u with
    wait := .none,
    state := if u.freeze = true ∧ u.pair = none then .frozen
             else if u.waits = [] ∧ u.placing = none ∧ u.holds = [] ∧ u.pair = none then .running else .waiting }

/-- A queue after its next packet has issued, nothing kept waiting (R414, R415): Frozen at a freeze, else Running. -/
def afterPacket (u : Queue) (src : Src) : Queue := { runs (passOne u src) with sigDue := true }

/-- A queue in Running or Waiting after one of its waiting accesses has gone: Running with nothing left to wait for (R414, R507). -/
def again (u : Queue) : Queue :=
  if u.state = .running ∨ u.state = .waiting then
    { u with state := if u.freeze = true ∧ u.pair = none then .frozen
                      else if u.wait = .none ∧ u.waits = [] ∧ u.placing = none ∧ u.holds = [] ∧ u.pair = none then .running else .waiting }
  else u

/-- The queue has no signal that running dry would lower (R415). -/
def noSignal (u : Queue) : Prop := u.sig = 0

/-- A doubleword of device memory at a physical address holds a value, and every byte outside it reads as before. -/
def OneDword (s t : State) (pa : Nat) (v : Nat) : Prop :=
  readLe t.hbm pa 8 = v % 2 ^ 64 ∧ ∀ l, (∀ j, j < 8 → l ≠ .hbm (pa + j)) → readLoc t l = readLoc s l

/-- A node that is one of the next to start, of a kind, read through translations that are held (R431, R432). -/
def NodeReady (s : State) (fe i k : Nat) (f : FrontEnd) (g : Graph) (n : List Byte) : Prop :=
  mget s.fes fe = some f ∧ f.graph = some g ∧ (g.ready.take (64 - g.running.length)).contains i = true ∧
  feRead s fe g.queue (g.base + 64 * i) 64 (.node i) = (.ok n, s) ∧ nodeBad n g.count = false ∧ nodeMalformed n = false ∧ dwFld n 0 0 4 = k

/-- The state with the graph of a front end at a value. -/
def withGraph (s : State) (fe : Nat) (g : Option Graph) : State := { s with fes := mupd s.fes fe (fun f => { f with graph := g }) }

/-- A graph that has not come to its end: no END reached, or a node running or ready. -/
def goesOn (g : Graph) : Prop := ¬ (g.ending = true ∧ g.running = [] ∧ g.ready = [])

end Sys2Proof
end

