-- ==== Sys2Proof/Safety/Launch.lean ====
section
/-! DEFINITION. What claims say of launches: the kernel that a LAUNCH packet names, and an error of a packet (R416 to R420, R435). -/

namespace Sys2Proof

open Machine

/-- The queue enters Error at a packet, which has no other effect (R414, R416, R435). -/
def PacketErr (i : Instr) (s : State) (fe q : Nat) (u : Queue) (src : Src) (code : Nat) : Prop :=
  ∃ t f' x, exec i s = .next t ∧ mget t.fes fe = some f' ∧ mget f'.queues q = some x ∧
    x.state = .error ∧ x.err = code ∧ x.errIdx = nextIndex u ∧ x.qrd = (passOne u src).qrd ∧ ∀ l, readLoc t l = readLoc s l

/-- The kernel descriptor that a LAUNCH packet names, well formed, read through translations that are held (R417, R418). -/
def DescriptorOf (s : State) (fe q : Nat) (who : QWho) (p d : List Byte) : Prop :=
  launchBad p = false ∧ feRead s fe q (dwFld p 1 0 55) 64 who = (.ok d, s) ∧ descBad d = false

/-- The tables of a kernel descriptor that are checked, well formed, read through translations that are held (R418). -/
def TablesRead (s : State) (fe q : Nat) (who : QWho) (d : List Byte) (t : Tables) : Prop :=
  ∃ roles hnds rgn,
    feReadAll fe q who [(dwFld d 3 0 55, 16 * dwFld d 3 55 5), (dwFld d 5 0 55, if dwFld d 5 55 1 = 1 then 128 else 0),
      (dwFld d 6 0 55, 4 * dwFld d 1 40 11)] s [] = (.ok [roles, hnds, rgn], s) ∧
    tablesOf d roles hnds rgn = some t

/-- The `.scratch` image and the template slots that a launch loads, read through translations that are held (R418, R419). -/
def ImagesRead (s : State) (fe q : Nat) (who : QWho) (d img tmpl : List Byte) : Prop :=
  feReadAll fe q who [(dwFld d 7 0 55, 1024 * dwFld d 2 17 15), (dwFld d 4 0 55, 64 * dwFld d 4 55 9)] s [] = (.ok [img, tmpl], s)

end Sys2Proof
end

