-- ==== Sys2Proof/Safety/Quartz.lean ====
section
/-! DEFINITION. What claims say of Quartz cores: accesses in flight, a cause that the core takes, the entry at its target level, a
thread sealed into its save area (R345 to R358, R368). -/

namespace Sys2Proof

open Machine

/-- The core that executes. -/
def OnQuartz (s : State) (n : Nat) (q : Quartz) : Prop :=
  canon s = true ∧ s.agent = .quartz n ∧ mget s.quartz n = some q ∧ mrising none q.sr = true

/-- An access of a core or prologue engine in flight: a fence that names no handle covers it (R141, R368). -/
def coreEntry (id : Nat) (kind : Kind) (order : Order) (dst : Dst) (act : Act) : Pend :=
  { id := id, slot := false, path := none, kind := kind, order := order, cov := 0x100, dst := dst, lanes := 0, act := act,
    flags := 0, returned := false, aliased := [], src := 0, homes := [], comb := none, quantum := none }

/-- The executing unit with work appended to what it has in flight, numbered by the model's counter. -/
def withCore (s : State) (p : Pend) : State := { setPend s (pendOf s ++ [p]) with fresh := s.fresh + 1 }

/-- A value that a word delivers later: its destination is marked until it lands (R76, R360, R363). -/
def later (s : State) (d : Sel) (v : W64) : State :=
  withCore s { coreEntry s.fresh .priv .rlx (.scalar d) (.value [] v) with cov := 0 }

/-- A cause with its address and n. -/
def causeOf (code : Nat) (addr : W64) (n : Nat) : Trap := { code := code, lane := none, space := 4, addr := addr.toNat, n := n }

/-- The word raises a cause without an address on its core, whose deferred results have all returned and whose save area, if one is
needed, is in place (R350, R357). -/
def QRaises (i : Instr) (s : State) (n : Nat) (q : Quartz) (code k : Nat) : Prop :=
  entryWaits s q = false →
    exec i s = .next { quartzCause s n { trapAt code q.pc with n := k } 0 false with last := .faulted }

/-- The word raises a cause with an address on its core, under the same conditions. -/
def QTraps (i : Instr) (s : State) (n : Nat) (q : Quartz) (code : Nat) (addr : W64) (k : Nat) : Prop :=
  entryWaits s q = false → exec i s = .next { quartzCause s n (causeOf code addr k) 0 false with last := .faulted }

/-- The level at which a cause is taken (R357); stage is that of a translation fault, else 0. -/
def entryLevel (level code stage : Nat) : Nat :=
  if level = 2 ∨ code = 0x01 ∨ code = 0x23 ∨ (stage = 2 ∧ (code = 0x20 ∨ code = 0x21 ∨ code = 0x22))
    ∨ (level = 1 ∧ 0xA0 ≤ code ∧ code ≤ 0xA3) then 2 else 1

/-- TCAUSE as an entry writes it (R356). -/
def tcause (q : Quartz) (code k : Nat) (irq enc : Bool) (eid : Nat) : W64 :=
  BitVec.ofNat 64 (code + 256 * q.level + (if enc then 2 ^ 10 else 0) + (if irq then 2 ^ 12 else 0) + 2 ^ 16 * k + 2 ^ 32 * eid)

/-- The special registers that an entry at a level leaves as they are. -/
def srKept (q q' : Quartz) (x : Nat) : Prop :=
  ∀ b m, m < 256 → ¬ (b = x ∧ (m = 0x82 ∨ m = 0x83 ∨ m = 0x84 ∨ m = 0x85 ∨ m = 0x87)) → ¬ (b = 0 ∧ (m = 0x12 ∨ m = 0x8B)) →
    srGet q' b m = srGet q b m

/-- What an entry at level x does whoever was running: the level, the PC, TCAUSE, TSTAT, IEN, TID (R353, R357). -/
def entryFrame (q q' : Quartz) (x : Nat) (cause addr tpc : W64) : Prop :=
  q'.level = x ∧ q'.pc = srGet q x 0x81 ∧ q'.halted = decide (srGet q x 0x81 = 0) ∧ q'.parked = false ∧
  srGet q' x 0x82 = cause ∧ srGet q' x 0x83 = addr ∧ srGet q' x 0x84 = tpc ∧
  srGet q' x 0x85 = BitVec.ofNat 64 (q.level + 4 * ((srGet q x 0x87).toNat % 2)) ∧ srGet q' x 0x87 = 0 ∧ srGet q' 0 0x12 = 0 ∧
  srKept q q' x ∧ q'.pend = q.pend

/-- An entry from outside every enclave thread: every register stays, and every byte of memory. -/
def EntersPlain (s t : State) (n : Nat) (q : Quartz) (x : Nat) (cause addr tpc : W64) : Prop :=
  ∃ q', mget t.quartz n = some q' ∧ entryFrame q q' x cause addr tpc ∧ q'.s = q.s ∧ q'.k = q.k ∧ q'.divzero = q.divzero ∧
    srGet q' 0 0x8B = srGet q 0 0x8B ∧ ∀ l, readLoc t l = readLoc s l

/-- An entry from an enclave thread: its state is in the save area at pa, its registers are zero but for s1 to s8 of a trap n, ETHR
names it, and its expected save count has risen (R349, R350). -/
def EntersSealed (s1 t : State) (n : Nat) (q : Quartz) (e : Enclave) (pa x : Nat) (cause addr resume : W64) (soft : Bool) : Prop :=
  let th := mgetD e.th (qThread q) { expected := 0, soft := false }
  let seq := (th.expected + 1) % 2 ^ 32
  let f := readBytes t.hbm pa 1024
  ∃ q' e', mget t.quartz n = some q' ∧ entryFrame q q' x cause addr 0 ∧
    srGet q' 0 0x8B = BitVec.ofNat 64 (qEid q + 2 ^ 16 * qThread q + 2 ^ 63) ∧
    (∀ m, m < 64 → sRead q'.s m = if soft = true ∧ m ≤ 8 then sRead q.s m else 0) ∧ q'.k = [] ∧ q'.divzero = false ∧
    mget t.basalt.enclaves (qEid q) = some e' ∧ mget e'.th (qThread q) = some { expected := seq, soft := soft } ∧
    dword f 0 = resume ∧ dword f 8 = q.pc ∧ dword f 0x10 = (if q.divzero then 1 else 0) ∧
    (∀ m, 1 ≤ m → m < 64 → dword f (0x38 + 8 * m) = sRead q.s m) ∧
    (∀ m, 1 ≤ m → m < 16 → dword f (0x230 + 8 * m) = kRead q.k m) ∧ dword f 0x2B0 = BitVec.ofNat 64 seq ∧
    ∀ a, a < pa ∨ pa + 1024 ≤ a → readByte t.hbm a = readByte s1.hbm a

end Sys2Proof
end

