-- ==== Sys2Proof/Safety/Walk.lean ====
section
/-! DEFINITION. What claims say of translation and of the page-request queue: a table entry that a walk reads, the effect of the leaf
(R370 to R378, R391 to R393). -/

namespace Sys2Proof

open Machine

/-- A stage-one table entry that a walk reads at a physical address: owned for tables, its line verified, valid, well formed
(R373, R374, R380, R385). -/
def EntryAt (s : State) (c : Ctx) (level p e : Nat) : Prop :=
  ownOk s c .table1 p = true ∧ lineOk s p = true ∧ readLe s.hbm p 8 = e ∧ pteV e = true ∧ pteBad 1 level e = false

/-- The address of the entry of a level in a table (R370). -/
def entryAddr (table va level : Nat) : Nat := table + 8 * (va / 2 ^ (if level = 1 then 42 else if level = 2 then 29 else 16) % 2 ^ 13)

/-- The permissions of a leaf allow the access (R374). -/
def leafAllows (c : Ctx) (e : Nat) (acc : Acc) : Prop :=
  ((acc = .write ∨ acc = .atomic) → pteW e = true) ∧ (acc = .fetch → pteX e = true) ∧ (c.l0 = true → pteU e = true)

/-- A leaf after an access: its accessed bit set, and its dirty bit for a write or atomic (R376). -/
def leafUsed (e : Nat) (acc : Acc) : Nat := e ||| 0x40 ||| (if acc = .write ∨ acc = .atomic then 0x80 else 0)

/-- The context names a table for stage one and none for stage two, and holds no translation of the page. -/
def oneStage (s : State) (c : Ctx) (va root : Nat) : Prop :=
  c.eid = none ∧ c.root1 = some root ∧ c.root2 = none ∧ tlbFind s c (va / 65536) = none ∧ va < 2 ^ 55

end Sys2Proof
end

