-- ==== Sys2Proof/Safety/Basalt.lean ====
section
/-! DEFINITION. What claims say of Basalt's requests and of page ownership: a request structure read whole, a creation descriptor,
what the end of an enclave removes, a page released or sealed (R363 to R367, R379 to R387, R447). -/

namespace Sys2Proof

open Machine

/-- The tables of Basalt and Shale have rising keys. -/
def basaltKeys (s : State) : Prop :=
  mrising none s.basalt.own = true ∧ mrising none s.basalt.enclaves = true ∧ mrising none s.shale.recording = true ∧
  mrising none s.shale.wset = true ∧ mrising none s.basalt.baseKeys = true ∧ mrising none s.basalt.ctlKeys = true ∧ mrising none s.stale = true

/-- A core whose request structure of 64 bytes reads whole through a held or walked translation, with no access of its own in
flight to it: the state after the walk and the bytes (R363, R368). -/
def RequestRead (s s1 : State) (n : Nat) (q : Quartz) (a : Sel) (b : List Byte) : Prop :=
  OnQuartz s n q ∧ basaltKeys s ∧ (readReg s a).toNat % 64 = 0 ∧
  ∃ pa kind, translate s (coreCtx s) (readReg s a).toNat .read false = (.ok pa kind, s1) ∧ lineOk s1 pa = true ∧
    (∀ p ∈ q.pend, p.returned = false → (kind = .s → p.kind ≠ .s) ∧ ∀ l ∈ pendLocs p, ∀ j, j < 64 → l ≠ .hbm (pa + j)) ∧
    b = readBytes s1.hbm pa 64

/-- Partition that the executing core acts for (R372). -/
def actsFor (q : Quartz) : Nat := (srGet q 0 0x8F).toNat % 16

/-- No reset of the partition is in progress (R446). -/
def notResetting (s : State) (part : Nat) : Prop := ∃ f, mget s.fes part = some f ∧ f.ferst = 0

/-- The word answers a code and an enclave, in a state with a property. -/
def Served (i : Instr) (s : State) (d : Sel) (code eid : Nat) (p : State → Prop) : Prop :=
  ∃ w, p w ∧ Becomes i s (later w d (BitVec.ofNat 64 (code + 256 * eid)))

/-- A creation descriptor without a reserved bit set or a field out of its range (R364). -/
def creationOk (b : List Byte) : Prop :=
  dwFld b 0 0 8 = 1 ∧ dwFld b 0 9 7 = 0 ∧ 1 ≤ dwFld b 0 16 16 ∧ dwFld b 0 16 16 ≤ 256 ∧ dwFld b 0 48 16 = 0 ∧
  (dword b 8).toNat % 8 = 0 ∧ 1 ≤ (dword b 0x10).toNat ∧ (dword b 0x10).toNat ≤ 2 ^ 24 ∧
  (dword b 8).toNat + 8 * (dword b 0x10).toNat ≤ 2 ^ 40 ∧ (dword b 0x18).toNat < 2 ^ 55 ∧ (dword b 0x20).toNat < 2 ^ 55 ∧
  (dword b 0x20).toNat % 1024 = 0 ∧ (dword b 0x28).toNat < 2 ^ 55 ∧ dword b 0x30 = 0 ∧ dword b 0x38 = 0

/-- The list of a creation descriptor names these frames, all of memory that exists, and its lines verify (R364). -/
def listsFrames (s : State) (b : List Byte) (l : List Nat) : Prop :=
  l.length = (dword b 0x10).toNat ∧ runsOk s [((dword b 8).toNat, 8 * l.length)] = true ∧
  ∀ (i f : Nat), l[i]? = some f → f < 2 ^ 24 ∧ readLe s.hbm ((dword b 8).toNat + 8 * i) 8 = 65536 * f

/-- A new enclave as its descriptor describes it, with a set of keys of its own, in its slot, the copies in 16 base dies and the 16 controllers; its frames,
measured as the zeros they hold, change class and version (R364, R379, R383). -/
def Created (s w : State) (part eid root : Nat) (b : List Byte) (l : List Nat) : Prop :=
  w.basalt.keys = s.basalt.keys + 4 ∧
  (∃ e, mget w.basalt.enclaves eid = some e ∧ e.part = part ∧ e.threads = dwFld b 0 16 16 ∧ e.th = [] ∧ e.ending = false ∧
    e.queues = BitVec.ofNat 64 (dwFld b 0 32 16) ∧ e.root = root ∧ e.tsa = (dword b 0x20).toNat ∧
    e.entry = (dword b 0x28).toNat ∧ e.debug = (dword b 0).getLsbD 8 ∧ e.key = some (nextKeys s) ∧
    e.meas = Config.sha384 (b ++ l.flatMap (fun _ => List.replicate 65536 0#8))) ∧
  (∀ d, d < 16 → mget w.basalt.baseKeys (4096 * d + eid) = some (nextKeys s) ∧ mget w.basalt.ctlKeys (4096 * d + eid) = some (nextKeys s)) ∧
  (∀ x, x ≠ eid → mget w.basalt.enclaves x = mget s.basalt.enclaves x) ∧
  (∀ f, ownOf w f = if f ∈ l then { cls := 3, part := part, eid := eid, version := ((ownOf s f).version + 1) % 2 ^ 24,
                                     zeroed := false, rst := false } else ownOf s f) ∧
  (∀ f q u, mget s.fes part = some f → mget f.queues q = some u → ∃ f', mget w.fes part = some f' ∧
    mget f'.queues q = some (if (dword b 0).getLsbD (32 + q) ∧ q < 16 then { u with enc := true, eid := eid } else u))

/-- A store on its way into a frame of an enclave. -/
def storesInto (s : State) (eid : Nat) (p : Pend) : Prop :=
  p.returned = false ∧ p.dst = .none ∧ ∃ pa, .hbm pa ∈ pendLocs p ∧ (ownOf s (pa / 65536)).cls = 3 ∧ (ownOf s (pa / 65536)).eid = eid

/-- What the end of an enclave leaves: nothing of its launches, groups and queues, no held translation or walk of it, its frames
free and due to be scrubbed, no store on its way into one, its keys erased in every copy; threads of it have left their cores; nothing of
another enclave has changed, but that launches may look for room again (R365, R388, R447, R448). -/
def Ended (s w : State) (eid : Nat) (e : Enclave) : Prop :=
  (mget w.basalt.enclaves eid = none ∨ ∃ e', mget w.basalt.enclaves eid = some e' ∧ e'.ending = true ∧ e'.key = none) ∧
  (∀ d, d < 16 → mget w.basalt.baseKeys (4096 * d + eid) = none ∧ mget w.basalt.ctlKeys (4096 * d + eid) = none) ∧
  (∀ x, x ≠ eid → mget w.basalt.enclaves x = mget s.basalt.enclaves x) ∧
  (∀ f, ((ownOf s f).cls = 3 ∧ (ownOf s f).eid = eid →
      ownOf w f = { ownOf s f with cls := 0, eid := 0, zeroed := false, rst := false } ∧ (f, some eid) ∈ w.shale.scrub) ∧
    (¬ ((ownOf s f).cls = 3 ∧ (ownOf s f).eid = eid) → ownOf w f = ownOf s f)) ∧
  (∀ x ∈ w.tlb, x.tag ≠ 0xF000 + eid) ∧ (∀ x ∈ w.walks, x.c.tag ≠ 0xF000 + eid) ∧
  (∀ n l, mget s.launches n = some l → mget w.launches n = if l.eid = eid then none else some { l with waiting := false }) ∧
  (∀ loc g l, mget s.groups loc = some g → mget s.launches g.launch = some l →
    mget w.groups loc = if l.eid = eid then none else some g) ∧
  (∀ f q u, mget s.fes e.part = some f → mget f.queues q = some u → ∃ f', mget w.fes e.part = some f' ∧
    ∃ u', mget f'.queues q = some u' ∧ if u.enc = true ∧ u.eid = eid then
        u'.enc = false ∧ u'.out = [] ∧ (u.state = .idle → u'.state = .idle) ∧ (u.state ≠ .idle → u'.state = .error ∧ u'.err = 9)
      else u' = u) ∧
  (∀ m c, mget s.quartz m = some c → mrising none c.sr = true →
    (qInside c = true → qEid c = eid → ∃ c', mget w.quartz m = some c' ∧ c'.level = 2 ∧ c'.s = [] ∧ c'.k = [] ∧ c'.pend = [] ∧
      c'.pc = srGet c 2 0x81 ∧ srGet c' 2 0x82 = tcause c 0x23 0 false true eid) ∧
    (¬ (qInside c = true ∧ qEid c = eid) → ∃ c', mget w.quartz m = some c' ∧ c = { c' with pend := c.pend } ∧
      ∀ p, p ∈ c'.pend ↔ p ∈ c.pend ∧ ¬ storesInto s eid p)) ∧
  w.hbm = s.hbm

/-- A potreq structure for one frame (R366). -/
def OneFrame (b : List Byte) (op eid frame version page loc tier target : Nat) : Prop :=
  dword b 0 = BitVec.ofNat 64 (op + 256 * eid + 2 ^ 32) ∧ dword b 8 = BitVec.ofNat 64 (65536 * frame) ∧
  dword b 0x10 = BitVec.ofNat 64 version ∧ dword b 0x18 = BitVec.ofNat 64 page ∧ dword b 0x20 = BitVec.ofNat 64 loc ∧
  dword b 0x28 = BitVec.ofNat 64 (tier + 2 ^ 32 * target) ∧ dword b 0x30 = 0 ∧ dword b 0x38 = 0 ∧
  op < 4 ∧ eid < 4096 ∧ frame < 2 ^ 24 ∧ version < 2 ^ 24 ∧ page < 2 ^ 55 ∧ page % 65536 = 0 ∧ loc < 2 ^ 64 ∧ loc % 4096 = 0 ∧
  tier < 2 ∧ target < 2 ^ 32 ∧ (op ≠ 3 → version = 0) ∧ (op < 2 → page = 0 ∧ loc = 0 ∧ tier = 0 ∧ target = 0)

/-- A frame holds zeros and all its lines verify (R381, R384). -/
def Zeroed (w : State) (frame : Nat) : Prop :=
  ∀ j, j < 65536 → readByte w.hbm (65536 * frame + j) = 0 ∧ lineOk w (65536 * frame + j) = true

/-- A frame's entry changes; no held translation used it; every other frame keeps its entry (R379, R382). -/
def OwnBecomes (s w : State) (frame : Nat) (o : Own) : Prop :=
  ownOf w frame = o ∧ (∀ f, f ≠ frame → ownOf w f = ownOf s f) ∧ ∀ x ∈ w.tlb, frame ∉ x.frames

/-- Every byte outside a frame reads as before. -/
def OutsideFrame (s w : State) (frame : Nat) : Prop := ∀ l, (∀ j, j < 65536 → l ≠ .hbm (65536 * frame + j)) → readLoc w l = readLoc s l

/-- A frame that enters the free class of a partition, not zeroed (R381). -/
def freedOwn (version part : Nat) : Own := { cls := 0, part := part, eid := 0, version := version, zeroed := false, rst := false }

/-- A frame of an enclave under a version, which awaits its image or holds it (R379, R381). -/
def heldOwn (part eid version : Nat) (rst : Bool) : Own :=
  { cls := 3, part := part, eid := eid, version := version, zeroed := false, rst := rst }

/-- A frame is free and due to be scrubbed (R381). -/
def Released (s w : State) (frame version part : Nat) : Prop :=
  OwnBecomes s w frame (freedOwn version part) ∧ w.shale.scrub = s.shale.scrub ++ [(frame, none)]

/-- Every byte outside one doubleword of device memory reads as before. -/
def OutsideWord (s w : State) (pa : Nat) : Prop := ∀ l, (∀ j, j < 8 → l ≠ .hbm (pa + j)) → readLoc w l = readLoc s l

/-- The status field of a MOVE entry takes a code, the rest of its doubleword stays (R453). -/
def StatusOf (s t : State) (pa code : Nat) : Prop :=
  let x := readLe s.hbm pa 8
  let y := readLe t.hbm pa 8
  y / 2 ^ 8 % 2 ^ 8 = code ∧ y % 2 ^ 8 = x % 2 ^ 8 ∧ y / 2 ^ 16 = x / 2 ^ 16

end Sys2Proof
end

