-- ==== Sys2Proof/Safety/Save.lean ====
section
/-! DEFINITION. What claims say of pre-emption, the save image and the restore: a front end's command and its code, a team by launch
and index, the fields of an image (R395 to R410, R438). -/

namespace Sys2Proof

open Machine

/-- A front end with no command in progress (R438). -/
def FeIdle (s : State) (fe : Nat) (f : FrontEnd) : Prop := canon s = true ∧ mget s.fes fe = some f ∧ f.cmd = none

/-- The one team of a front end's launch with an index. -/
def NamedTeam (s : State) (fe lid idx tid : Nat) (t : Team) (l : Launch) : Prop :=
  mget s.teams tid = some t ∧ t.launch = lid ∧ t.index = idx ∧ mget s.launches lid = some l ∧ l.fe = fe ∧
  ∀ x u, mget s.teams x = some u → u.launch = lid → u.index = idx → x = tid

/-- No team of a front end has that launch and index. -/
def noTeam (s : State) (fe lid idx : Nat) : Prop :=
  ∀ x u l, mget s.teams x = some u → u.launch = lid → u.index = idx → mget s.launches lid = some l → l.fe ≠ fe

/-- A command ends with a code in FECST (R438), in a state with a property. -/
def Reports (i : Instr) (s : State) (fe code : Nat) (p : State → Prop) : Prop :=
  GoesTo (exec i s) (fun t => ∃ f, mget t.fes fe = some f ∧ f.fecst = code ∧ f.cmd = none ∧ p t)

/-- Nothing of any team or group has changed. -/
def sameTeams (s t : State) : Prop := t.teams = s.teams ∧ t.groups = s.groups ∧ t.saved = s.saved

/-- Location of a team's group by number, not retired. -/
def GroupAt (s : State) (t : Team) (n loc : Nat) (g : Group) : Prop :=
  t.groups[n]? = some loc ∧ t.retired.getLsbD n = false ∧ n < 64 ∧ mget s.groups loc = some g

/-- A slot forced at a word boundary: a barrier whose arrival stands goes on waiting, as does a regroup with its S bit;
every other word issues again (R79, R399). -/
def forced (p : Slot) : Slot := match p.wait with | .barrier _ _ _ => p | _ => { p with wait := .none, sbit := p.sbit && p.st == .regrouping }

/-- Physical runs of which no two share a byte. -/
def runsApart (l : List (Nat × Nat)) : Prop :=
  ∀ (i j : Nat) (x y : Nat × Nat), i < j → l[i]? = some x → l[j]? = some y → x.1 + x.2 ≤ y.1 ∨ y.1 + y.2 ≤ x.1

/-- A group within the bounds of its record: width, registers, donor and replay records (R43, R153, R404). -/
def recordFits (l : Launch) (g : Group) : Prop :=
  g.width = l.width ∧ g.allot ≤ 256 ∧ g.keep ≤ 256 ∧ g.donors.length ≤ 31 ∧ g.replay.length ≤ 4

/-- A group's record of an image (R404). -/
def recordOf (l : Launch) (img : List Byte) (n : Nat) : List Byte :=
  (img.drop (0x800 + n * (0x1100 + 1024 * l.width))).take (0x1100 + 1024 * l.width)

/-- The fields of a group in its record (R406). -/
def RecordHolds (l : Launch) (r : List Byte) (g : Group) : Prop :=
  (∀ m, 1 ≤ m → m < 64 → dword r (0xF8 + 8 * m) = sRead g.s m) ∧ (∀ m, 1 ≤ m → m < 16 → dword r (0x2F0 + 8 * m) = kRead g.k m) ∧
  (∀ m, m < 8 → dword r (0x370 + 16 * m) = (getH g m).base ∧ dword r (0x378 + 16 * m) = (getH g m).desc) ∧
  dword r 0x70 = g.flagsen ∧ dword r 0x78 = g.cause ∧ dword r 0x80 = g.caddr ∧ dword r 0x88 = g.shape ∧ dword r 0x98 = g.spill ∧
  (∀ m i, m < (if g.yielding then g.keep else g.allot) → i < l.width →
    leNat ((r.drop (0x1100 + 4 * (l.width * m + i))).take 4) = (mgetD g.v (64 * m + i) 0).toNat) ∧
  (g.slot0.st ≠ .free → (∀ b f n, g.slot0.wait ≠ .barrier b f n) → dword r 0 = g.slot0.pc ∧ dword r 8 = g.slot0.pm ∧
    dword r 0x10 = g.slot0.exec ∧ dword r 0x28 = g.slot0.target)

end Sys2Proof
end

