-- ==== Sys2Proof/Safety/Link.lean ====
section
/-! DEFINITION. What claims say of partitions, of the SPDM responder and of the links to devices and peers (R441 to R446, R456 to
R470). -/

namespace Sys2Proof

open Machine

/-! ### Partitions -/

/-- A cluster lies in a FEPART value whose range is valid (R412, R441). -/
def inRange (v : W64) (c : Nat) : Prop := v.toNat / 2 ^ 8 % 64 ≤ 47 ∧ v.toNat % 64 ≤ c ∧ c ≤ v.toNat / 2 ^ 8 % 64

/-- A colour lies in a COLSET value that is valid (R116, R442). -/
def inColours (v : W64) (c : Nat) : Prop := v.getLsbD 16 = true ∧ v.toNat % 64 ≤ c ∧ c < v.toNat % 64 + 2 ^ (v.toNat / 2 ^ 8 % 8)

/-- The partition of a launch, by number. -/
def launchIn (s : State) (n part : Nat) : Prop := ∃ l, mget s.launches n = some l ∧ l.part = part

/-- The state with one die at a value. -/
def withDie (s : State) (d : Nat) (x : Die) : State := { s with dies := mput s.dies d x }

/-- A byte of a die's array after some colours have been zeroed (R116). -/
def ColoursZeroed (s t : State) (die : Nat) (z : Nat → Prop) : Prop :=
  ∀ a, (z (a / 1572864) → readLoc t (.array die a) = 0) ∧ (¬ z (a / 1572864) → readLoc t (.array die a) = readLoc s (.array die a))

/-! ### The SPDM responder -/

/-- A state that has answered. -/
def answered (s : State) (r : SpdmReply) : State := { s with spdm := { s.spdm with reply := some r } }

/-- An ERROR answer with its code (R460). -/
def errorReply (k : Nat) : SpdmReply := 
  { version := 0x13, code := 0x7F, error := k, versions := [], caps := [], algs := [], digest := none, chain := [], count := 0, blocks := [],
    debug := false, sig := none }

/-- A request whose own form allows an answer, with its code and where it is accepted (R458, R459). -/
def SpdmReq (i : Instr) (m : SpdmMsg) (code : Nat) (w : Where) : Prop :=
  (i = .getCapabilities m ∧ code = 0xE1 ∧ w = .connection .versioned) ∨
  (i = .negotiateAlgorithms m true ∧ code = 0xE3 ∧ w = .connection .capable) ∨
  (i = .getDigests m ∧ code = 0x81 ∧ w = .either) ∨ (i = .getCertificate m 0 ∧ code = 0x82 ∧ w = .either) ∨
  (i = .challenge m ∧ code = 0x83 ∧ w = .connection .negotiated) ∨
  (∃ x : BitVec 8, (x.toNat ≤ 32 ∨ x.toNat = 0xFF) ∧ i = .getMeasurements m x ∧ code = 0xE0 ∧ w = .either) ∨
  (i = .finish m ∧ code = 0xE5 ∧ w = .handshake) ∨ (i = .endSession m ∧ code = 0xEC ∧ w = .established)

/-- What each answer holds: the version, what the responder can do and negotiates, the chain of slot 0 and its digest (R458). -/
def replyHolds (i : Instr) (m : SpdmMsg) (r : SpdmReply) : Prop :=
  r.version = 0x13 ∧ (i = .getCapabilities m → r.caps = [.cert, .chal, .measSig, .measFresh, .keyEx, .encrypt, .mac]) ∧
  (i = .negotiateAlgorithms m true → r.algs = [.ecdsaP384, .sha384, .measSha384, .secp384r1, .aes256Gcm, .keySchedule]) ∧
  (i = .getDigests m ∨ i = .challenge m → r.digest = some (Config.sha384 Config.deviceChain)) ∧
  (i = .getCertificate m 0 → r.chain = Config.deviceChain)

/-- A request and its answer without the signature, as a transcript takes them in (R461). -/
def spoken (m : SpdmMsg) (r : SpdmReply) : List Byte := m.bytes ++ Config.spdmBytes { r with sig := none }

/-- The messages of a connection after an answered request outside a session: A and the stage, M1 after A, L1/L2 after A (R459, R461). -/
def connAfter (i : Instr) (m : SpdmMsg) (c : Conn) (x : List Byte) : Conn :=
  match i with
  | .getCapabilities _ => { c with st := .capable, a := c.a ++ x }
  | .negotiateAlgorithms _ _ => { c with st := .negotiated, a := c.a ++ x }
  | .getDigests _ | .getCertificate _ _ => { c with m1 := c.m1 ++ x }
  | .challenge _ => { c with m1 := [] }
  | .getMeasurements _ _ => { c with l1 := if m.sign then [] else c.l1 ++ x }
  | _ => c

/-- A session after an answered request in it: its transcripts, the secrets that FINISH gives it, one more sequence number used (R461). -/
def sessAfter (i : Instr) (m : SpdmMsg) (y : Sess) (x : List Byte) : Sess :=
  match i with
  | .finish _ =>
    { y with established := true, th := y.th ++ x, key := Config.spdmSecret y.key (Config.sha384 (y.th ++ x)),
             exported := Config.spdmExport y.key (Config.sha384 (y.th ++ x)), seq := y.seq + 1 }
  | .getMeasurements _ _ => { y with l1 := if m.sign then [] else y.l1 ++ x, seq := y.seq + 1 }
  | _ => { y with seq := y.seq + 1 }

/-- What the signature of an answer is over: M1 for CHALLENGE, L1/L2 for MEASUREMENTS that asks for one (R461). -/
def signsOver (i : Instr) (m : SpdmMsg) (c : Conn) (y : Option Sess) (x : List Byte) : Option (List Byte) :=
  match i with
  | .challenge _ => some (c.a ++ c.m1 ++ x)
  | .getMeasurements _ _ => if m.sign then some (c.a ++ (match y with | some z => z.l1 | none => c.l1) ++ x) else none
  | _ => none

/-- The session that a request names is its own endpoint's, and the request was decrypted (R459, R460). -/
def sessionFits (s : State) (m : SpdmMsg) : Prop := m.session = none ∨ m.decryptOk = true ∧ sessionOf s m ≠ none

/-! ### Links -/

/-- Fields of a binding's doubleword 0 and of a stream entry's (R463, R466). -/
def bindSt (b : Bind) : Nat := b.lo.toNat / 2 ^ 28 % 16
def streamSt (x : Stream) : Nat := x.lo.toNat / 2 ^ 12 % 16

/-- A binding changes, and no other binding, register or byte of memory. -/
def BindOnly (s t : State) (r i : Nat) (b : Bind) : Prop :=
  bindOf t r i = b ∧ (∀ x y, ¬ (x = r ∧ y = i) → bindOf t x y = bindOf s x y) ∧ { t with roots := s.roots } = s

/-- The stream table of a port, with its canonical keys. -/
def HasStream (s : State) (p i : Nat) (x : Stream) : Prop :=
  canon s = true ∧ mrising none s.ue = true ∧ ∃ u, mget s.ue p = some u ∧ mwf noStream u.table = true ∧ streamOf s p i = x

/-- A stream entry changes, and no other entry of any port, and nothing but streams and copies. -/
def StreamOnly (s t : State) (p i : Nat) (x : Stream) : Prop :=
  streamOf t p i = x ∧ (∀ y j, ¬ (y = p ∧ j = i) → streamOf t y j = streamOf s y j) ∧ { t with ue := s.ue, work := s.work } = s

/-- A stream entry in error (R468). -/
def failed (x : Stream) : Stream := { x with lo := BitVec.ofNat 64 (x.lo.toNat - 2 ^ 12 * streamSt x + 2 ^ 12 * 3) }

/-- A root port's bindings, with canonical keys. -/
def HasRoot (s : State) (r : Nat) (x : RootPort) : Prop :=
  canon s = true ∧ mrising none s.roots = true ∧ mget s.roots r = some x ∧ mwf noBind x.binds = true

/-- A binding in error, its keys erased (R464). -/
def bindErr (b : Bind) : Bind := { b with lo := BitVec.ofNat 64 (b.lo.toNat - 2 ^ 28 * bindSt b + 2 ^ 28 * 4), key := none }

/-- A device's request is answered with Unsupported Request, and has no other effect (R465). -/
def RefusedAt (s t : State) (r : Nat) : Prop :=
  { t with roots := s.roots } = s ∧ (∀ y j, bindOf t y j = bindOf s y j) ∧
  ∀ x, mget s.roots r = some x → ∃ y, mget t.roots r = some y ∧ y.reply = some .unsupported

/-- A stream with the next keys of its sessions, one for each direction (R467, R468). -/
def nextKeyed (x : Stream) (k : Link) : Stream :=
  { x with gen := x.gen + 1, tx := Config.streamKey k.own k.peer x.gen, rx := Config.streamKey k.peer k.own x.gen, oldRx := x.rx, count := 0 }

/-- Bytes land at runs of device memory, and nothing else of memory changes. -/
def LandsAt (s t : State) (l : List (Nat × Nat)) (b : List Byte) : Prop :=
  readRuns t l = b ∧ ∀ x, (∀ r ∈ l, ∀ j, j < r.2 → x ≠ .hbm (r.1 + j)) → readLoc t x = readLoc s x

end Sys2Proof
end

