-- ==== Sys2Proof/Safety/Service.lean ====
section
/-! DEFINITION. What claims say of the debug mailbox and of Basalt's service of the module: a command read, its answer, an image that
Basalt accepts, a measurement register extended (R456, R485 to R506). -/

namespace Sys2Proof

open Machine

/-! ### The debug mailbox -/

/-- The command that a core writes to the idle mailbox, read whole through its translation, with an operation and no reserved bit of
its common part set (R485, R486). -/
def CommandRead (s s1 : State) (n : Nat) (q : Quartz) (va : W64) (b : List Byte) (c : DbgCmd) (op : Nat) : Prop :=
  canon s = true ∧ mget s.quartz n = some q ∧ s.dbox.cmd = none ∧
  (∃ l, placeRun s (quartzCtx s q) c.va 64 .read false = (.ok l, s1) ∧ runsOk s1 l = true ∧ b = readRuns s1 l) ∧
  c = { q := n, va := (va &&& 0x7FFFFFFFFFFFC0#64).toNat, ctx := quartzCtx s q,
        words := (List.range 8).map (fun j => dword b (8 * j)) } ∧
  dwFld b 0 0 4 = op ∧ dwFld b 0 4 4 = 0 ∧ dwFld b 0 20 44 = 0 ∧ dword b 0x28 = 0 ∧
  dwFld b 7 9 55 = 0 ∧ (op ≠ 2 → dword b 0x30 = 0)

/-- The enclave of a command is live in the caller's partition with debug set (R486). -/
def debugs (s : State) (c : DbgCmd) (b : List Byte) : Prop :=
  ∃ e, mget s.basalt.enclaves (dwFld b 0 8 12) = some e ∧ e.part = c.ctx.part ∧ e.ending = false ∧ e.debug = true

/-- The word's command is answered with a code from a state with a property: the code in DBGCST, the mailbox free, and the done
doubleword exchanged where it translates (R486). -/
def CommandDone (i : Instr) (s : State) (c : DbgCmd) (code : Nat) (p : State → Prop) : Prop :=
  ∃ w, p w ∧ exec i s = .next
    (dbgPut { w with dbox := { w.dbox with cmd := none, code := code } } c 0x38 (code + 256))

/-- Two states that differ in the mailbox's command only. -/
def sameButCommand (s w : State) : Prop := { w with dbox := { w.dbox with cmd := s.dbox.cmd } } = s

/-! ### Service -/

/-- The bytes of an image have the form of R496, all of its body is there, and its signature verifies. -/
def ImageForm (l : List Byte) : Prop :=
  dwFld l 0 0 32 = 0x56424D49 ∧ dwFld l 0 40 8 = 0 ∧ dwFld l 1 0 32 ≤ 2 ^ 25 ∧ dwFld l 1 32 32 = 0 ∧
  zeroPart l 0x10 112 = true ∧ zeroPart l 0xE0 32 = true ∧ 256 + dwFld l 1 0 32 ≤ l.length ∧
  Config.signatureOk (l.take (256 + dwFld l 1 0 32)) = true

/-- The block and the security version that an image names (R496). -/
def imageId (l : List Byte) : Nat := dwFld l 0 32 8
def imageSvn (l : List Byte) : Nat := dwFld l 0 48 16

/-- SHA-384 of bytes 0x00 to 0x7F of an image and its body (R496). -/
def imageDigest (l : List Byte) : BitVec 384 := Config.sha384 (l.take 128 ++ (l.take (256 + dwFld l 1 0 32)).drop 256)

/-- An image that Basalt accepts for a block: form, signature, id and version (R496, R497). -/
def Accepted (s : State) (n : Nat) (l : List Byte) : Prop :=
  ImageForm l ∧ imageId l = n ∧ ∀ b, mget s.basalt.blocks n = some b → b.svn ≤ imageSvn l

/-- The flash directory names an image for a block, the first of its entries with that id (R495). -/
def FlashHas (m : Bytes) (n : Nat) (l : List Byte) : Prop :=
  ∃ i, i < 16 ∧ readLe m (16 * i) 1 = n ∧ (∀ j, j < i → readLe m (16 * j) 1 ≠ n) ∧
    l = readBytes m (readLe m (16 * i + 1) 4) (readLe m (16 * i + 5) 4)

/-- Recovery of a block is awaited: the request names its id and fused version, on port 0 or the lowest reachable one (R501). -/
def Awaits (s t : State) (n svn : Nat) : Prop :=
  let up (p : Nat) : Prop := p < 16 ∧ ∃ u, mget s.ue p = some u ∧ u.up = true
  ∃ r, t.basalt.recover = some r ∧ r.block = n ∧ r.svn = svn ∧
    (∀ p, r.port = some p → up p ∧ ∀ k, k < p → ¬ up k) ∧ (r.port = none → ∀ p, ¬ up p)

/-- A measurement register after an extend (R456). -/
def extended (s : State) (n : Nat) (d : BitVec 384) : BitVec 384 :=
  Config.sha384 (digestBytes (mgetD s.basalt.mr n 0) ++ digestBytes d)

/-- The tables of Basalt's blocks, with a block in them. -/
def HasBlock (s : State) (n : Nat) (b : Block) : Prop :=
  canon s = true ∧ basaltKeys s ∧ mrising none s.basalt.blocks = true ∧ memWf s.basalt.flash = true ∧
  mwf (0 : BitVec 384) s.basalt.mr = true ∧ mget s.basalt.blocks n = some b

/-- A block is loaded with an image: measured, its fused counter raised, released (R497, R498). -/
def Loaded (s t : State) (n : Nat) (b : Block) (l : List Byte) : Prop :=
  mgetD t.basalt.mr n 0 = extended s n (imageDigest l) ∧
  ∃ b', mget t.basalt.blocks n = some b' ∧ b'.released = true ∧ b'.held = b.held ∧ b'.quiet = false ∧ b'.svn = max b.svn (imageSvn l)

/-- A group of a debug = 0 enclave holds nothing after a freeze: no register, no path, nothing in flight or queued (R505). -/
def isBlank (g : Group) : Prop :=
  g.s = [] ∧ g.k = [] ∧ g.v = [] ∧ g.h = [] ∧ g.flags = 0 ∧ g.cause = 0 ∧ g.caddr = 0 ∧ g.shape = 0 ∧ g.stack = [] ∧ g.pend = [] ∧
  g.queue = [] ∧ g.replay = [] ∧ g.slot0.pc = 0 ∧ g.slot0.exec = 0 ∧ g.slot0.fmt = 0 ∧ g.slot1.pc = 0 ∧ g.slot1.exec = 0 ∧ g.slot1.fmt = 0

end Sys2Proof
end

