-- ==== Sys2Proof/Certificates/Slice0/Obligations.lean ====
section
/-! DEFINITION. The statements about the machine that a proof is asked for. Each is a proposition Obligations.<Name>, with its
rules in its docstring; the words they share stand in Sys2Proof/Safety.lean and Sys2Proof/Safety/. -/

open Sys2Proof Sys2Proof.Machine

/-! ### Encoding -/

/-- Decoding the word of an encodable instruction gives the instruction back, with every operand at every value its
encoding admits (R163 to R177). The four potreq requests have one word, which decodes to the first of them (R366). -/
def Obligations.DecodeOfEncode : Prop :=
  ∀ i : Instr, Encodable i → decode (encode i) = .ok { settle := false, instr := wordOwner i }

/-- Every word that decodes is the encoding of its instruction with the settle bit set as bit 63 says: no other word holds
the same instruction, so no bit of a word is ignored (R163 to R177). -/
def Obligations.EncodeOfDecode : Prop :=
  ∀ (w : W64) (d : Decoded), decode w = .ok d →
    d.settle = w.getLsbD 63 ∧ encode d.instr = w &&& 0x7FFFFFFFFFFFFFFF#64

/-- Words written out from the encodings of R165 to R177 decode to the instructions they stand for. nop is the one word of opcode 0x2A
with every field zero, with S = 1 it is marked as a settle marker and is otherwise the same, and it has no effect (R206). -/
def Obligations.DecodeWords : Prop :=
  (∀ p ∈ sampleDual :: sampleWords, decode p.1 = .ok { settle := false, instr := p.2 }) ∧
  (∀ (w : W64) (b : Bool), decode w = .ok { settle := b, instr := .nop } ↔
    w = (if b then 0x8A80000000000000#64 else 0x0A80000000000000#64)) ∧
  ∀ s, canon s = true → ready .nop s = true → Does .nop s s

/-! ### The step -/

/-- A sequencer's turn whose chosen group fetches a word that decodes runs exec of its instruction at that state, and does around
it only this: the cycle is counted, a promotion and the ageing that fall due are made (R27, R28), a settle marker that held the
group is satisfied and the word's own is noted (R79), the position issued from is kept (R28), and the machine sees to what follows
at once (R26, R43, R47, R308, R317). A Quartz core's turn does the same without the sequencer. A fetch reads the eight bytes at
the PC's translation, little-endian (R163), Basalt's core the bytes of its ROM (R346). The blocks that the unit needs are out of
reset (R498). The model's choices: which unit takes the turn is the script's (log 1); promotion and ageing are made with the turn
(log 16); the four potreq requests are told apart by what they name (log 12); what the machine sees to follows at once (log 69);
Basalt's core runs from its ROM (log 79). -/
def Obligations.StepRunsDecoded : Prop :=
  (∀ (s s1 t : State) (core q loc : Nat) (g : Group) (w : W64) (d : Decoded),
    let c := ageGroups (promote (updSeq s core q (fun x => { x with cycle := x.cycle + 1 })) core q) core q
    s.script = [] → s.dbox.frozen = false → allUp s (unitNeeds (.seq core q)) = true → s.mover = .seq core q → (seqOf s core q).frozen = none →
    chooseBut c core q [] = some loc → mget c.groups loc = some g →
    fetchWord { c with agent := .group loc (chooseSlot c g) } = .word w s1 → decode w = .ok d →
    exec (requestNamed (beforeWord s1) d.instr) (beforeWord s1) = .next t → t.last ≠ .stalled →
    step s = .next (tidy (updSeq (afterWord d.settle t) core q (fun x => { x with pos := locPos loc })))) ∧
  (∀ (s s1 t : State) (n : Nat) (q : Quartz) (w : W64) (d : Decoded),
    s.script = [] → s.dbox.frozen = false → allUp s (unitNeeds (.quartz n)) = true → s.mover = .quartz n → mget s.quartz n = some q → q.halted = false →
    q.parked = false → deliverable s n q = none → (q.settle && coreBusy q) = false →
    fetchWord { s with agent := .quartz n } = .word w s1 → decode w = .ok d →
    exec (requestNamed (beforeWord s1) d.instr) (beforeWord s1) = .next t → step s = .next (tidy (afterWord d.settle t))) ∧
  (∀ (s s1 : State) (pa : Nat) (k : Kind), (readPc s).toNat % 8 = 0 → s.agent ≠ .quartz 36 →
    translate s (coreCtx s) (readPc s).toNat .fetch false = (.ok pa k, s1) → lineOk s1 pa = true →
    fetchWord s = .word (BitVec.ofNat 64 (readLe s1.hbm pa 8)) s1) ∧
  (∀ s : State, (readPc s).toNat % 8 = 0 → s.agent = .quartz 36 →
    fetchWord s = .word (BitVec.ofNat 64 (readLe s.rom (readPc s).toNat 8)) s)

/-- The state after reset is in canonical form. -/
def Sys2Proof.Claims.ResetCanon : Prop := canon State.reset = true

/-- What the spec says holds at power-on: TCMP of every core is all ones, every block but Basalt is held, every measurement register is
zero (R355, R456, R498). -/
def Sys2Proof.Claims.ResetValues : Prop :=
  (∀ n q, mget State.reset.quartz n = some q → srGet q 0 0x8A = BitVec.allOnes 64 ∧ q.halted = decide (n ≠ 36)) ∧
  (∀ n b, mget State.reset.basalt.blocks n = some b → b.released = false ∧ b.held = false) ∧
  (∀ n, mrOf State.reset n = 0) ∧ State.reset.groups = [] ∧ State.reset.teams = [] ∧ State.reset.basalt.enclaves = []

/-- What reset leaves: every table of the state in its one canonical form, and the values that the spec gives (R355, R456, R498). -/
def Obligations.ResetState : Prop :=
  Sys2Proof.Claims.ResetCanon ∧ Sys2Proof.Claims.ResetValues

/-- Every step keeps the canonical form of every memory and every register table, and of the tables that hold them. -/
def Obligations.StepKeepsCanon : Prop := ∀ s t : State, canon s = true → step s = .next t → canon t = true

/-! ### Scalar registers and arithmetic -/

/-- A write of a scalar-class register is what the next read gives; s0 reads 0 and k0 all ones whatever is written, and every
other register keeps its value (R58, R59). -/
def Obligations.RegisterWriteRead : Prop :=
  ∀ (s : State) (d e : Sel) (v : W64), canon s = true → unitThere s = true → selIsS d = true ∨ selIsK d = true →
    readReg (writeReg s d v) d = (if d = 0 then 0 else if d = 0x40 then BitVec.allOnes 64 else v) ∧
    (e ≠ d → readReg (writeReg s d v) e = readReg s e)

/-- The scalar operations of two sources write d with the result of their type's width, extended into 64 bits; a shift reads the
low eight bits of its amount; a division by zero gives quotient 0 and the dividend as remainder and sets divzero. Nothing else
changes (R82, R187, R190, R191). -/
def Sys2Proof.Claims.ScalarBinary : Prop :=
  ∀ (s : State) (t : SType) (d a : Sel) (b : SSrc), canon s = true →
    (∀ p ∈ scalarBinary, ready (p.1 t d a b) s = true →
      Does (p.1 t d a b) s (writeReg s d (scalarBits p.2 t (readReg s a) (sSrc s t b)))) ∧
    (∀ p ∈ scalarDivide, ready (p.1 t d a b) s = true →
      Does (p.1 t d a b) s
        (orFlags (writeReg s d (scalarBits p.2 t (readReg s a) (sSrc s t b)))
          (if (sSrc s t b).toNat % 2 ^ SType.bits t = 0 then 2 else 0)))

/-- The scalar operations of one source (R190). -/
def Sys2Proof.Claims.ScalarUnary : Prop :=
  ∀ (s : State) (t : SType) (d a : Sel), canon s = true →
    ∀ p ∈ scalarUnaryOps, ready (p.1 t d a) s = true → Does (p.1 t d a) s (writeReg s d (scalarUnary p.2 t (readReg s a)))

/-- The scalar instructions of two and of one source write the result of their rule to the destination and go on at PC + 8, changing nothing
else (R183 to R196). -/
def Obligations.ScalarArithmetic : Prop :=
  Sys2Proof.Claims.ScalarBinary ∧ Sys2Proof.Claims.ScalarUnary

/-- Comparison gives -1, 0 or 1 in all 64 bits; selection tests c as a whole register; the address sum, the immediates and the
bit fields give the values of R188, R190, R192, R193 and R195; nothing else changes. -/
def Obligations.ScalarOthers : Prop :=
  ∀ (s : State) (t : SType) (d a c : Sel) (b : SSrc) (r : Sel) (imm : W32) (sh : BitVec 6), canon s = true →
    (ready (.scmp t d a b) s = true → Does (.scmp t d a b) s (writeReg s d
      (let x := sInt t (readReg s a); let y := sInt t (sSrc s t b)
       if x < y then BitVec.ofInt 64 (-1) else if x = y then 0 else 1))) ∧
    (ready (.ssel t d a r c) s = true → Does (.ssel t d a r c) s (writeReg s d
      (scalarOut t (if readReg s c = 0 then readReg s r else readReg s a)))) ∧
    (ready (.slea t d a r sh) s = true → Does (.slea t d a r sh) s (writeReg s d
      (scalarOut t (readReg s a + readReg s r <<< sh.toNat)))) ∧
    (ready (.sli t d imm) s = true → Does (.sli t d imm) s (writeReg s d (scalarOut t (sSrc s t (.imm imm))))) ∧
    (ready (.slih d imm) s = true → Does (.slih d imm) s (writeReg s d
      (BitVec.ofNat 64 (imm.toNat * 2 ^ 32 + (readReg s d).toNat % 2 ^ 32)))) ∧
    (ready (.sbfx t d a b) s = true → Does (.sbfx t d a b) s (writeReg s d
      (scalarOut t (BitVec.ofInt 64 (fieldOut (SType.bits t) (SType.signed t) (readReg s a).toNat (sSrc s t b).toNat))))) ∧
    (ready (.sbfi t d a b) s = true → Does (.sbfi t d a b) s (writeReg s d
      (scalarOut t (BitVec.ofNat 64 (fieldIn (SType.bits t) (readReg s d).toNat (readReg s a).toNat (sSrc s t b).toNat))))) ∧
    (selIsQ a = false → ready (.smov t d a) s = true →
      Does (.smov t d a) s (writeReg s d (scalarOut t (readReg s a))))

/-! ### Control -/

/-- A taken br, bc, call, loop, bx or ret goes on at its target, PC + 8 × sext(off32) or the register's, with the link or the
decremented counter written first; one not taken goes on at PC + 8. Nothing else changes (R172, R196 to R199, R205, R206). -/
def Sys2Proof.Claims.TakenBranches : Prop :=
  ∀ (s : State) (h : Hint) (off imm : W32) (cc : Cond) (c d a : Sel), canon s = true → spinLow s = true →
    (ready (.br h off) s = true → Jumps (.br h off) s s (branchTo s off)) ∧
    (ready (.bc cc c h off) s = true → branchIf cc (readReg s c) (liveSet s) →
      Jumps (.bc cc c h off) s s (branchTo s off)) ∧
    (ready (.bc cc c h off) s = true → ¬ branchIf cc (readReg s c) (liveSet s) → Does (.bc cc c h off) s s) ∧
    (ready (.call h off) s = true →
      Jumps (.call h off) s (writeReg s 63 (readPc s + 8)) (branchTo s off)) ∧
    (ready (.loop c h off) s = true → readReg s c ≠ 1 →
      Jumps (.loop c h off) s (writeReg s c (readReg s c - 1)) (branchTo s off)) ∧
    (ready (.loop c h off) s = true → readReg s c = 1 → Does (.loop c h off) s (writeReg s c 0)) ∧
    (ready (.bx d a imm) s = true → (readReg s a + imm.signExtend 64).toNat % 8 = 0 →
      Jumps (.bx d a imm) s (writeReg s d (readPc s + 8)) (readReg s a + imm.signExtend 64)) ∧
    (ready (.ret a) s = true → (readReg s a).toNat % 8 = 0 → Jumps (.ret a) s s (readReg s a)) ∧
    (ready .nop s = true → Does .nop s s) ∧
    (ready (.ipf c off) s = true → Does (.ipf c off) s s)

/-- bx and ret to an address that is no multiple of 8 raise ALIGN with that address and change nothing, the link register
included (R163, R196). -/
def Sys2Proof.Claims.MisalignedTarget : Prop :=
  ∀ (s : State) (d a : Sel) (imm : W32), canon s = true →
    (ready (.bx d a imm) s = true → (readReg s a + imm.signExtend 64).toNat % 8 ≠ 0 →
      Faults (.bx d a imm) s 0x25
        (BitVec.ofNat 64 ((readReg s a + imm.signExtend 64).toNat % 2 ^ 55 + 5 * 2 ^ 55))) ∧
    (ready (.ret a) s = true → (readReg s a).toNat % 8 ≠ 0 →
      Faults (.ret a) s 0x25 (BitVec.ofNat 64 ((readReg s a).toNat % 2 ^ 55 + 5 * 2 ^ 55)))

/-- Scalar branches, calls and returns go where their rule says; a register target that is no multiple of 8 raises ALIGN and changes
nothing (R197 to R201). -/
def Obligations.Branches : Prop :=
  Sys2Proof.Claims.TakenBranches ∧ Sys2Proof.Claims.MisalignedTarget

/-- bv splits the path of a slot whose sibling is free: the taken lanes run in the sibling from the target, the others go on in
this slot, both with the join address as reconvergence PC, and a shared frame records the path (R38, R40). With the sibling
busy the smaller part waits on the stack above the slot's own frame. What is pushed is written to the stack in spill memory (R37), and no
other byte of memory changes. With no lane taken the slot goes on, with every live lane taken it jumps, with nothing pushed; a split for
which the stack has no room raises DSTACK_OVERFLOW and changes nothing (R38). -/
def Obligations.BvSplits : Prop :=
  ∀ (s : State) (k : Sel) (off : W32) (jd : BitVec 14) (loc : Nat) (sl : Bool) (g : Group),
    canon s = true → ready (.bv k off jd) s = true → Issues s loc sl g →
    let p := getSlot g sl
    let o := getSlot g (!sl)
    let t := live g sl &&& gRead g k
    let n := p.pm &&& ~~~t
    let j := p.pc + BitVec.ofNat 64 (8 * jd.toNat)
    let frame (tag : Nat) : SEntry :=
      { pc := j, tag := tag, frame := true, mask := p.pm, rpc := p.rpc, fmt := p.fmt, lent := p.lent }
    let pushed (u : State) (l : List SEntry) : Prop :=
      ∃ w, stackPlace s loc g g.stack.length (g.stack.length + l.length) .write = (.ok w, s) ∧
        ∀ x, readLoc u x = readLoc (writeRuns s w (l.flatMap entryBytes)) x
    (t = 0 → Does (.bv k off jd) s s) ∧
    (t ≠ 0 → live g sl &&& ~~~t = 0 → spinLow s = true → Jumps (.bv k off jd) s s (branchTo s off)) ∧
    (t ≠ 0 → live g sl &&& ~~~t ≠ 0 → 64 < g.stack.length + (if o.st = .free then 1 else 2) →
      Faults (.bv k off jd) s 0x82 (pcAddr s)) ∧
    (t ≠ 0 → live g sl &&& ~~~t ≠ 0 → StackThere s loc g →
    (o.st = .free → g.stack.length < 64 → ∃ u g', exec (.bv k off jd) s = .next u ∧ mget u.groups loc = some g' ∧
      (let q := getSlot g' (!sl)
       q.st = .running ∧ q.pc = branchTo s off ∧ q.pm = t ∧ q.exec = t ∧ q.rpc = some j ∧ q.fmt = p.fmt) ∧
      (let q := getSlot g' sl
       q.pc = p.pc + 8 ∧ q.pm = n ∧ q.exec = p.exec &&& n ∧ q.rpc = some j ∧ q.fmt = p.fmt) ∧
      g'.stack = frame 2 :: g.stack ∧ g'.s = g.s ∧ g'.k = g.k ∧ g'.v = g.v ∧ pushed u [frame 2]) ∧
    (o.st ≠ .free → g.stack.length < 63 → pop64 t ≤ pop64 n →
      ∃ u g', exec (.bv k off jd) s = .next u ∧ mget u.groups loc = some g' ∧
      (let q := getSlot g' sl
       q.pc = p.pc + 8 ∧ q.pm = n ∧ q.exec = p.exec &&& n ∧ q.rpc = some j) ∧
      g'.stack.tail = frame (if sl then 1 else 0) :: g.stack ∧
      (∃ e, g'.stack.head? = some e ∧ e.pc = branchTo s off ∧ e.frame = false ∧ e.mask = t ∧ e.rpc = some j ∧
        e.fmt = p.fmt ∧ (e.tag = if sl then 1 else 0) ∧ pushed u [frame (if sl then 1 else 0), e]) ∧
      g'.s = g.s ∧ g'.k = g.k ∧ g'.v = g.v) ∧
    (o.st ≠ .free → g.stack.length < 63 → pop64 n < pop64 t →
      ∃ u g', exec (.bv k off jd) s = .next u ∧ mget u.groups loc = some g' ∧
      (let q := getSlot g' sl
       q.pc = branchTo s off ∧ q.pm = t ∧ q.exec = t ∧ q.rpc = some j) ∧
      g'.stack.tail = frame (if sl then 1 else 0) :: g.stack ∧
      (∃ e, g'.stack.head? = some e ∧ e.pc = p.pc + 8 ∧ e.frame = false ∧ e.mask = n ∧ e.rpc = some j ∧
        e.fmt = p.fmt ∧ (e.tag = if sl then 1 else 0) ∧ pushed u [frame (if sl then 1 else 0), e]) ∧
      g'.s = g.s ∧ g'.k = g.k ∧ g'.v = g.v))

/-- A join that is not at the path's reconvergence PC gives EXEC every lane of the path and goes on at PC + 8, with no access to the
stack. At the reconvergence PC, with a frame of both slots on top and the sibling free or Joined, the last path of the split resumes the
path of the frame at the frame's PC + 8 in slot 0 and slot 1 is free; with the sibling still running the slot waits as Joined. With a path
entry of its own tag on top the slot goes on with that path. Registers, flags and every byte outside the stack keep their values (R39,
R201). No merge is in force (R45 is not at issue). -/
def Obligations.JoinResumes : Prop :=
  ∀ (s : State) (loc : Nat) (sl : Bool) (g : Group) (e : SEntry) (rest : List SEntry),
    canon s = true → ready .join s = true → Issues s loc sl g → g.donors = [] → StackThere s loc g →
    (∃ x ∈ teamGroups s g.team, x.1 = loc) →
    let p := getSlot g sl
    let o := getSlot g (!sl)
    let own (f : SEntry) : Prop := f.tag = if sl then 1 else 0
    let kept (u : State) (h : Group) : Prop :=
      h.s = g.s ∧ h.k = g.k ∧ h.v = g.v ∧ h.h = g.h ∧ h.flags = g.flags ∧ h.exited = g.exited ∧ ∀ x, readLoc u x = readLoc s x
    (p.st = .running → o.st = .free → p.pm ≠ 0 → p.rpc ≠ some p.pc → ∃ u h, exec .join s = .next u ∧
      mget u.groups loc = some h ∧ (getSlot h sl).exec = p.pm ∧ (getSlot h sl).pm = p.pm ∧
      (getSlot h sl).pc = p.pc + 8 ∧ (getSlot h sl).rpc = p.rpc ∧ h.stack = g.stack ∧ kept u h) ∧
    (p.rpc = some p.pc → g.stack = e :: rest → e.frame = true → e.tag = 2 → e.mask ≠ 0 → o.st = .free ∨ o.st = .joined →
      (∀ f ∈ rest, f.tag ≠ 1) → ∃ u h, exec .join s = .next u ∧ mget u.groups loc = some h ∧
      h.slot0.st = .running ∧ h.slot0.pc = e.pc + 8 ∧ h.slot0.pm = e.mask ∧ h.slot0.exec = e.mask ∧ h.slot0.rpc = e.rpc ∧
      h.slot0.fmt = e.fmt ∧ h.slot1.st = .free ∧ h.stack = rest ∧ kept u h) ∧
    (p.rpc = some p.pc → p.st = .running → g.stack = e :: rest → e.frame = true → e.tag = 2 → o.st = .running →
      ∃ u h, exec .join s = .next u ∧ mget u.groups loc = some h ∧ (getSlot h sl).st = .joined ∧ (getSlot h sl).pc = p.pc ∧
      (getSlot h sl).pm = p.pm ∧ h.stack = g.stack ∧ kept u h) ∧
    (p.rpc = some p.pc → p.st = .running → g.stack = e :: rest → e.frame = false → own e → o.st = .free →
      ∃ u h, exec .join s = .next u ∧ mget u.groups loc = some h ∧ (getSlot h sl).st = .running ∧ (getSlot h sl).pc = e.pc ∧
      (getSlot h sl).pm = e.mask ∧ (getSlot h sl).exec = e.mask ∧ (getSlot h sl).rpc = e.rpc ∧ (getSlot h sl).fmt = e.fmt ∧
      h.stack = rest ∧ kept u h)

/-- exit retires the live lanes of the path: they are exited, and no path mask and no stack entry holds them any more; registers and flags
keep their values, and of memory only the entries of the group's stack that have changed are written (R34, R37, R202). With no live lane
it only goes on. No lane of the team is lent, and no group of it waits to merge. -/
def Obligations.ExitRetiresLanes : Prop :=
  ∀ (s : State) (imm : W32) (loc : Nat) (sl : Bool) (g : Group),
    canon s = true → ready (.exit imm) s = true → Issues s loc sl g →
    (live g sl = 0 → Does (.exit imm) s s) ∧
    (live g sl ≠ 0 → StackThere s loc g → (∀ x ∈ s.groups, x.2.donors = [] ∧ noneLent x.2 = true ∧ x.2.stackNewer = false) →
    (∀ x ∈ teamGroups s g.team, (x.2.num = g.num → x.1 = loc) ∧ x.2.slot0.st ≠ .regrouping ∧ x.2.slot1.st ≠ .regrouping) →
    g.slot0.st ≠ .regrouping → g.slot1.st ≠ .regrouping →
    ∃ u h, exec (.exit imm) s = .next u ∧ mget u.groups loc = some h ∧ h.exited = g.exited ||| live g sl ∧
      h.slot0.pm &&& live g sl = 0 ∧ h.slot1.pm &&& live g sl = 0 ∧
      (∀ e ∈ h.stack, e.mask &&& live g sl = 0) ∧ h.s = g.s ∧ h.k = g.k ∧ h.v = g.v ∧ h.flags = g.flags ∧
      ∀ x, (∀ i w, stackChange g.stack h.stack = some i → stackPlace s loc g i h.stack.length .write = (.ok w, s) → ¬ inRuns w x) →
        readLoc u x = readLoc s x)

/-! ### Checks in their order -/

/-- A word is checked in the order of R180: a privileged word of a group faults with PRIVILEGE, whatever else is wrong with it; a word
outside the engine's profile with ILLEGAL_OPCODE; then a reserved field with RESERVED_BITS; then a register of the wrong class or
outside the allotment with ILLEGAL_REG; then a pairing fault (R178, R180). With EXEC empty a word of 0x30 to 0x62 or a dual word,
and a vector memory word, only advances the PC (R181). -/
def Sys2Proof.Claims.ChecksInOrder : Prop :=
  ∀ (s : State) (i : Instr) (loc : Nat) (sl : Bool) (g : Group), canon s = true → Issues s loc sl g → isMeantWord i = true →
    let op := (opcodeOf i).getD 0
    let empty := live g sl = 0
    (op = 0x8C ∨ op = 0x8D ∨ op = 0xA3 → Faults i s 0x40 (pcAddr s)) ∧
    (op = 0xE4 ∨ (0xF0 ≤ op ∧ op ≤ 0xF7) → Faults i s 0x44 (pcAddr s)) ∧
    (¬ empty → inProfile .array op = true → minLevel s i = 0 →
      ((reservedOk i && !dynReserved s i) = false → Faults i s 0x43 (pcAddr s)) ∧
      ((reservedOk i && !dynReserved s i) = true →
        ((regsOf g.width i).all (RUse.ok g.allot) = false → Faults i s 0x41 (pcAddr s)) ∧
        ((regsOf g.width i).all (RUse.ok g.allot) = true → pairOk i = false → Faults i s 0x42 (pcAddr s)))) ∧
    (empty → notStepping s = true → vecOpcode op = true → Does i s s) ∧
    (empty → notStepping s = true → vecMemory i = true → Does i s s)

/-- A word that names a register with a pending mark stalls at issue: nothing changes but the count of hazards, which one stall raises
once (R76). -/
def Sys2Proof.Claims.ScoreboardStalls : Prop :=
  ∀ (s : State) (i : Instr) (loc : Nat) (sl : Bool) (g : Group), canon s = true → Issues s loc sl g → isMeantWord i = true →
    precheck s i = .ok → hazard s (regsOf (widthOf s) i) = true →
    Stalls i s loc sl g

/-- In handler mode bv, join, regroup, role, bar, arrive, await, yield and tfence fault with BARRIER_MISUSE (R326). -/
def Sys2Proof.Claims.HandlerForbids : Prop :=
  ∀ (s : State) (i : Instr) (loc : Nat) (sl : Bool) (g : Group), canon s = true → Issues s loc sl g → g.handler = true →
    precheck s i = .ok → hazard s (regsOf (widthOf s) i) = false →
    (∃ k off jd, i = .bv k off jd) ∨ i = .join ∨ (∃ off, i = .regroup off) ∨ (∃ a n, i = .role a n) ∨ (∃ b c, i = .bar b c) ∨
      (∃ d b c, i = .arrive d b c) ∨ (∃ a b, i = .await a b) ∨ (∃ a n, i = .yield a n) ∨ i = .tfence →
    Faults i s 0x81 (pcAddr s)

/-- The checks of a word before its effect: in the order of R180, with the cases of R181; a word that names a register with a
pending mark stalls (R76); a word that handler mode forbids raises its cause (R326). The place of privilege and of the engine's
profile among the checks follows R178 and R180 (log 63), and the families of R205 and R240 log 76. -/
def Obligations.CheckOrder : Prop :=
  Sys2Proof.Claims.ChecksInOrder ∧ Sys2Proof.Claims.ScoreboardStalls ∧ Sys2Proof.Claims.HandlerForbids

/-- A cause of a group goes to system software when the launch names no handler, when the group is in handler mode, and for a
machine check; the stop is then reported with the cause code and the PC of the word. Otherwise the group waits for its handler
(R324, R326). -/
def Obligations.CauseRouting : Prop :=
  ∀ (s : State) (loc : Nat) (sl : Bool) (g : Group) (l : Launch) (f : FrontEnd) (c : Nat) (addr : Nat),
    canon s = true → mget s.groups loc = some g → mget s.launches g.launch = some l → mget s.fes l.fe = some f → g.stop ≠ .saving → g.stop ≠ .system →
    isHalted g = false → 0x40 ≤ c ∧ c ≤ 0x44 ∨ 0x24 ≤ c ∧ c ≤ 0x28 ∨ c = 0x01 →
    let t := takeCause s loc sl { code := c, lane := none, space := 5, addr := addr, n := 0 } none
    (g.handler = false → l.handler ≠ 0 → c ≠ 0x01 → ∃ g', mget t.groups loc = some g' ∧ g'.stop = .handler ∧ g'.stopSlot = sl) ∧
    (g.handler = true ∨ l.handler = 0 ∨ c = 0x01 → ∃ g', mget t.groups loc = some g' ∧ g'.stop = .system) ∧
    (g.handler = true ∨ l.handler = 0 ∨ c = 0x01 → f.festop ≠ 0 →
      ∃ f' r, mget t.fes l.fe = some f' ∧ f'.stops = f.stops ++ [r] ∧ r.loc = loc ∧ r.code = c ∧ r.num = g.num ∧
        r.pc = (getSlot g sl).pc)

/-! ### Special registers -/

/-- mfs reads the special registers of R64 with the values of R65 to R73, POOL the free blocks of the core and the group's allotment;
any other number below 0x80 faults with ILLEGAL_REG. -/
def Sys2Proof.Claims.GroupSpecialReads : Prop :=
  ∀ (s : State) (d : Sel) (n : BitVec 8) (loc : Nat) (sl : Bool) (g : Group), canon s = true → Issues s loc sl g →
    ready (.mfs d n) s = true →
    (∀ p ∈ groupSpecials, n.toNat = p.1 → Does (.mfs d n) s (writeReg s d (p.2 s g sl))) ∧
    (n = 0x0A → ∀ c, mget s.cores (locCore loc) = some c →
      Does (.mfs d n) s (writeReg s d (BitVec.ofNat 64 (c.free + 2 ^ 16 * g.allot)))) ∧
    (0x0C ≤ n.toNat → n.toNat < 0x80 → Faults (.mfs d n) s 0x41 (pcAddr s))

/-- mts writes EXEC within the path mask, FMT, FLAGS, FLAGSEN, CAUSE, whose codes from 0xC0 on are stored as 0xFF, and CADDR, with
reserved bits dropped; a read-only or unlisted number faults with ILLEGAL_REG, a number from 0x80 on with PRIVILEGE, which mfs of it does
too, and a bad FMT image with RESERVED_BITS (R33, R64, R66, R68, R70, R208). setfmt writes the old FMT to d and the new one to the slot
(R207). -/
def Sys2Proof.Claims.GroupSpecialWrites : Prop :=
  ∀ (s : State) (d a : Sel) (imm : W32) (n : BitVec 8) (loc : Nat) (sl : Bool) (g : Group), canon s = true →
    Issues s loc sl g →
    let p := getSlot g sl
    let v := gRead g a
    let put (q : Slot) : State := setGroup s loc (setSlot g sl q)
    (ready (.mts n a) s = true →
      (n = 0 → Does (.mts n a) s (put { p with exec := v &&& p.pm })) ∧
      (n = 3 → fmtImageOk (v.truncate 32) → Does (.mts n a) s (put { p with fmt := v.truncate 32 })) ∧
      (n = 3 → ¬ fmtImageOk (v.truncate 32) → Faults (.mts n a) s 0x43 (pcAddr s)) ∧
      (n = 4 → Does (.mts n a) s (setGroup s loc { g with flags := v &&& 0x3F#64 })) ∧
      (n = 5 → Does (.mts n a) s (setGroup s loc { g with flagsen := v &&& 0x3F#64 })) ∧
      (n = 6 → v.toNat % 256 < 0xC0 → Does (.mts n a) s (setGroup s loc { g with cause := v &&& 0x7FFF#64 })) ∧
      (n = 6 → 0xC0 ≤ v.toNat % 256 → Does (.mts n a) s (setGroup s loc { g with cause := (v &&& 0x7FFF#64) ||| 0xFF#64 })) ∧
      (n = 7 → Does (.mts n a) s (setGroup s loc { g with caddr := v &&& 0x3FFFFFFFFFFFFFF#64 })) ∧
      (n = 1 ∨ n = 2 ∨ 8 ≤ n.toNat ∧ n.toNat < 0x80 → Faults (.mts n a) s 0x41 (pcAddr s))) ∧
    (0x80 ≤ n.toNat → Faults (.mts n a) s 0x44 (pcAddr s) ∧ Faults (.mfs d n) s 0x44 (pcAddr s)) ∧
    (ready (.setfmt d a imm) s = true → fmtImageOk (v.truncate 32 ||| imm) →
      Does (.setfmt d a imm) s
        (setGroup s loc (setSlot (gWrite g d (p.fmt.zeroExtend 64)) sl { p with fmt := v.truncate 32 ||| imm }))) ∧
    (ready (.setfmt d a imm) s = true → ¬ fmtImageOk (v.truncate 32 ||| imm) → Faults (.setfmt d a imm) s 0x43 (pcAddr s))

/-- mfs and mts of a group: each special register reads as its rule says, and a write stores what its rule lets it store (R64 to
R74, R208). That a cause code which R320 does not list reads as written is the model's choice (log 85). -/
def Obligations.GroupSpecials : Prop :=
  Sys2Proof.Claims.GroupSpecialReads ∧ Sys2Proof.Claims.GroupSpecialWrites

/-- sid writes d with the identity value that its selector names: on a group by the table of R209, on a Quartz, service or Basalt core by
that of R354, on the prologue engine by that of R429. clk writes the module timestamp, the cycles of the executing core, or its frequency:
that of the group's cluster, which the thermal limit holds at 1,200 MHz or below, 3,200 MHz on a Quartz core (R210, R354, R506). -/
def Obligations.IdentityAndTime : Prop :=
  ∀ (s : State) (d : Sel) (n : BitVec 8), canon s = true →
    (ready (.sid d n) s = true →
      (∀ loc sl g l t, Issues s loc sl g → mget s.launches g.launch = some l → mget s.teams g.team = some t →
        ∀ p ∈ groupIdentity loc g l t, n.toNat = p.1 → Does (.sid d n) s (writeReg s d (BitVec.ofNat 64 p.2))) ∧
      (∀ c q, s.agent = .quartz c → mget s.quartz c = some q →
        ∀ p ∈ coreIdentity c q, n.toNat = p.1 → Does (.sid d n) s (writeReg s d (BitVec.ofNat 64 p.2))) ∧
      (∀ c f, s.agent = .prologue c → mget s.fes c = some f →
        ∀ p ∈ prologueIdentity c f.pro, n.toNat = p.1 → Does (.sid d n) s (writeReg s d (BitVec.ofNat 64 p.2)))) ∧
    (ready (.clk d n) s = true →
      (n = 0 → Does (.clk d n) s (writeReg s d (BitVec.ofNat 64 s.time))) ∧
      (∀ loc sl g, Issues s loc sl g →
        (n = 1 → ∀ c, mget s.cores (locCore loc) = some c → Does (.clk d n) s (writeReg s d (BitVec.ofNat 64 c.ticks))) ∧
        (n = 2 → ∀ e, mget s.dies (locCore loc / 256 % 8) = some e →
          let f := mgetD e.freq (locCore loc / 16 % 16) 1400
          Does (.clk d n) s (writeReg s d (BitVec.ofNat 64 (if s.thermal ∧ 1200 < f then 1200 else f))))) ∧
      (∀ c q, s.agent = .quartz c → mget s.quartz c = some q →
        (n = 1 → Does (.clk d n) s (writeReg s d (BitVec.ofNat 64 q.ticks))) ∧
        (n = 2 → c < 32 → Does (.clk d n) s (writeReg s d 3200))))

/-- On a Quartz core mfs reads a listed register, LVL and IPEND among them, and mts stores the writable bits of a listed one, in the copy
of its level, which the next mfs gives back; LVL and IPEND are read-only, and an mts of one, a misaligned TVEC or an ASID from 0xF000 on
raises ILLEGAL_REG (R353, R355, R358, R371). -/
def Obligations.QuartzSpecials : Prop :=
  ∀ (s : State) (d a : Sel) (n : BitVec 8) (c : Nat) (q : Quartz), canon s = true → s.agent = .quartz c →
    mget s.quartz c = some q →
    (ready (.mfs d n) s = true →
      (n = 0x04 → Does (.mfs d n) s (writeReg s d (if q.divzero then 2 else 0))) ∧
      (n = 0x10 → Does (.mfs d n) s (writeReg s d 0)) ∧
      (n = 0x80 → Does (.mfs d n) s (writeReg s d (BitVec.ofNat 64 q.level))) ∧
      (n = 0x88 → Does (.mfs d n) s (writeReg s d (ipend s c))) ∧
      (n.toNat = 0x81 ∨ 0x82 ≤ n.toNat ∧ n.toNat ≤ 0x87 →
        Does (.mfs d n) s (writeReg s d (srGet q (if q.level = 1 then 1 else 2) n.toNat))) ∧
      (0x89 ≤ n.toNat ∧ n.toNat ≤ 0x8F → Does (.mfs d n) s (writeReg s d (srGet q 0 n.toNat))) ∧
      (0x91 ≤ n.toNat ∧ n.toNat ≤ 0x97 → Does (.mfs d n) s (writeReg s d (srGet q 1 (n.toNat - 0x10))))) ∧
    (ready (.mts n a) s = true →
      (n = 0x04 → Does (.mts n a) s { s with quartz := mput s.quartz c { q with divzero := (readReg s a).getLsbD 1 } }) ∧
      (∀ p ∈ quartzWritable, n.toNat = p.1 ∨ n.toNat = p.1 + 0x10 ∧ p.1 ≤ 0x87 →
        (p.1 = 0x81 → (readReg s a).toNat % 8 = 0) → (p.1 = 0x8D → (readReg s a).toNat % 2 ^ 16 < 0xF000) →
        Does (.mts n a) s { s with quartz := mput s.quartz c (srSet q (quartzBank q n.toNat) p.1 (readReg s a &&& p.2)) } ∧
        ∀ t, exec (.mts n a) s = .next t → ready (.mfs d n) t = true →
          Does (.mfs d n) t (writeReg t d (readReg s a &&& p.2))) ∧
      (n = 0x80 ∨ n = 0x88 ∨ (n = 0x81 ∨ n = 0x91) ∧ (readReg s a).toNat % 8 ≠ 0 ∨ n = 0x8D ∧ 0xF000 ≤ (readReg s a).toNat % 2 ^ 16 →
        entryWaits s q = false →
        exec (.mts n a) s = .next { (quartzCause s c (trapAt 0x41 (readPc s)) 0 false) with last := .faulted }))

/-! ### Vector words -/

/-- The vector integer words put the result of R218 to R221 into every lane of active(k): wrapped, or clamped under .sat; a lane
divided by zero sets divzero. -/
def Obligations.VectorInteger : Prop :=
  ∀ (s : State) (o : VOp) (loc : Nat) (sl : Bool) (g : Group),
    let w := VTy.wide o.ty
    let l := actLanes g sl o.k
    let a (j : Nat) : Nat := vVal s loc g sl w o.a j
    let b (j : Nat) : Nat := bVal s loc g sl o w j
    let c (j : Nat) : Nat := vVal s loc g sl w o.c j
    let d (j : Nat) : Nat := vVal s loc g sl w o.d j
    let n := ibits o.ty
    let sgn := VTy.isSigned o.ty
    let int (x : Nat) : Int := asInt sgn (BitVec.ofNat n x)
    (∀ p ∈ laneBinary, LaneUnit (p.1 o) s loc sl g →
      LaneDoes (p.1 o) s loc sl g l w o.d (fun j => (laneBits p.2 o (a j) (b j),
        if (p.2 = .div ∨ p.2 = .rem) ∧ b j % 2 ^ n = 0 then 2 else 0))) ∧
    (∀ p ∈ laneUnary, LaneUnit (p.1 o) s loc sl g →
      LaneDoes (p.1 o) s loc sl g l w o.d (fun j => (laneHeld o (laneUnaryExact p.2 o (a j)), 0))) ∧
    (LaneUnit (.vmad o) s loc sl g →
      LaneDoes (.vmad o) s loc sl g l w o.d (fun j => (laneHeld o (int (a j) * int (b j) + int (c j)), 0))) ∧
    (LaneUnit (.vbfx o) s loc sl g →
      LaneDoes (.vbfx o) s loc sl g l w o.d (fun j => ((BitVec.ofInt n (fieldOut n sgn (a j) (b j))).toNat, 0))) ∧
    (LaneUnit (.vbfi o) s loc sl g →
      LaneDoes (.vbfi o) s loc sl g l w o.d (fun j => (fieldIn n (d j) (a j) (b j) % 2 ^ n, 0))) ∧
    (LaneUnit (.vdot4 o) s loc sl g →
      LaneDoes (.vdot4 o) s loc sl g l false o.d (fun j =>
        let r := dotSum sgn 8 4 (a j) (b j) (asInt sgn (BitVec.ofNat 32 (c j)))
        ((BitVec.ofInt 32 (if o.sat then satint (if sgn then .i32 else .n32) r else r)).toNat, 0))) ∧
    (LaneUnit (.vdot2 o) s loc sl g →
      LaneDoes (.vdot2 o) s loc sl g l false o.d (fun j =>
        let r := dotSum sgn 16 2 (a j) (b j) (asInt sgn (BitVec.ofNat 32 (c j)))
        ((BitVec.ofInt 32 (if o.sat then satint (if sgn then .i32 else .n32) r else r)).toNat, 0)))

/-- Comparisons write kD as R222 says, fcmp by the conditions of R228 on the decoded values, with invalid for a signalling NaN and, in an
ordered relation, for any NaN; vsel picks by the bits of kC (R223); vmov, vli and vmovs move lanes, an immediate, one
named lane (R224). -/
def Obligations.VectorCompareAndMove : Prop :=
  ∀ (s : State) (o : VOp) (ic : ICond) (fc : FCond) (d m : Sel) (imm : W32) (loc : Nat) (sl : Bool) (g : Group),
    let w := VTy.wide o.ty
    let l := actLanes g sl o.k
    let a (j : Nat) : Nat := vVal s loc g sl w o.a j
    let b (j : Nat) : Nat := bVal s loc g sl o w j
    let int (x : Nat) : Int := asInt (VTy.isSigned o.ty) (BitVec.ofNat (ibits o.ty) x)
    (LaneUnit (.vcmp ic o) s loc sl g →
      Does (.vcmp ic o) s (writeReg s o.d (comparedMask (gRead g o.d) g.width l (fun j =>
        match ic with
        | .eq => int (a j) = int (b j) | .ne => int (a j) ≠ int (b j) | .lt => int (a j) < int (b j)
        | .le => int (a j) ≤ int (b j) | .gt => int (a j) > int (b j) | .ge => int (a j) ≥ int (b j))))) ∧
    (LaneUnit (.fcmp fc o) s loc sl g →
      let r (j : Nat) : Bool × Nat :=
        compared fc ((getSlot g sl).fmt.toNat.testBit 10) o.ty (vVal s loc g sl false o.a j) (bVal s loc g sl o false j)
      Does (.fcmp fc o) s (orFlags (writeReg s o.d (comparedMask (gRead g o.d) g.width l (fun j => (r j).1)))
        (l.foldl (fun f j => f ||| (r j).2) 0))) ∧
    (LaneUnit (.vsel o) s loc sl g →
      LaneDoes (.vsel o) s loc sl g l w o.d (fun j => (if (gRead g o.c).getLsbD j then a j else b j, 0))) ∧
    (LaneUnit (.vmov o) s loc sl g →
      LaneDoes (.vmov o) s loc sl g l w o.d (fun j => (if o.bs then b j else a j, 0))) ∧
    (LaneUnit (.vli d m imm) s loc sl g →
      LaneDoes (.vli d m imm) s loc sl g (lanesOf (live g sl &&& gRead g m) g.width) false d (fun _ => (imm.toNat, 0))) ∧
    (LaneUnit (.vmovs o) s loc sl g →
      Does (.vmovs o) s (writeReg s o.d
        (let x := BitVec.ofNat 64 (a ((gRead g o.b).toNat % g.width))
         if o.ty = .i32 then (x.truncate 32).signExtend 64 else x)))

/-- Every floating-point word completes: each lane of active(k) gets the value and the flags that the function of the word (fAddE,
fMulE and so on, the model's rounding and enclosures; fabs, fneg and fclass on the bits) gives for its operands in the mode and
with the flushing that the word or FMT names; no other lane, register, flag or byte changes (R225 to R230). Those functions give
the special results of R85 and R99. A transcendental result that the model's precision does not decide is free (log 11); that a
NaN addend of ffma beside zero times infinity sets no invalid is the model's reading (log 74). -/
def Obligations.VectorFloat : Prop :=
  ∀ (s : State) (o : VOp) (loc : Nat) (sl : Bool) (g : Group),
    let l := actLanes g sl o.k
    let a (j : Nat) : Nat := vVal s loc g sl false o.a j
    let b (j : Nat) : Nat := bVal s loc g sl o false j
    let fmt := (getSlot g sl).fmt.toNat
    let m := o.rm.getD (match fmt / 256 % 4 with | 0 => .rne | 1 => .rtz | 2 => .rup | _ => .rdn)
    let c : RCtl := { m := m, sat := o.sat, fzi := fmt.testBit 10, fzo := fmt.testBit 11 }
    (∀ p ∈ floatBinary, LaneUnit (p.1 o) s loc sl g →
      LaneDoes (p.1 o) s loc sl g l false o.d (fun j => p.2 c o.ty (a j) (b j))) ∧
    (∀ p ∈ floatUnary, LaneUnit (p.1 o) s loc sl g →
      LaneDoes (p.1 o) s loc sl g l false o.d (fun j => p.2 c o.ty (a j))) ∧
    (LaneUnit (.ffma o) s loc sl g →
      LaneDoes (.ffma o) s loc sl g l false o.d (fun j =>
        fFmaE c o.ty (a j) (b j) (vVal s loc g sl false o.c j))) ∧
    (∀ x y z, o.ty = .f32 ∨ o.ty = .f16 ∨ o.ty = .bf16 → floatSpecials c o.ty x y z ∧ floatExact c o.ty x y z)

/-- Conversion puts one rounding of the exact source value into the low bits of the lane, an integer one clamped (R96, R97, R231); pack keeps the bits
that it does not write (R232); unpk widens element p (R233). FMT.sat saturates the narrow float destinations. -/
def Obligations.VectorConvert : Prop :=
  ∀ (s : State) (o : VOp) (loc : Nat) (sl : Bool) (g : Group),
    let l := actLanes g sl o.k
    let fmt := (getSlot g sl).fmt.toNat
    let m := o.rm.getD (match fmt / 256 % 4 with | 0 => .rne | 1 => .rtz | 2 => .rup | _ => .rdn)
    let sat := o.sat || (fmt.testBit 12 && narrowFloat o.ty)
    let conv (fr dest : VTy) (st : Bool) (x : Nat) : Nat × Nat :=
      cvtVal fr dest m st (fmt.testBit 10) (fmt.testBit 11) x
    let a (j : Nat) : Nat := vVal s loc g sl false o.a j
    let b (j : Nat) : Nat := bVal s loc g sl o false j
    let p := o.c.toNat
    let n := elementBits o.ty
    (∀ fr dest st x, VTy.isB fr = false → VTy.isB dest = false → convertExact m st (fmt.testBit 10) (fmt.testBit 11) fr dest x) ∧
    (∀ fr, vtyOf (o.c.toNat % 64) = some fr → LaneUnit (.cvt o) s loc sl g →
      LaneDoes (.cvt o) s loc sl g l (VTy.wide o.ty) o.d (fun j =>
        let r := conv fr o.ty sat (vVal s loc g sl (VTy.wide fr) o.a j)
        (r.1 % 2 ^ typeBits o.ty, r.2))) ∧
    (LaneUnit (.pack o) s loc sl g →
      LaneDoes (.pack o) s loc sl g l false o.d (fun j =>
        let one (x : Nat) : Nat × Nat :=
          if VTy.isInt o.ty then
            let i := asInt (VTy.isSigned o.ty) (BitVec.ofNat 32 x)
            ((BitVec.ofInt n (if o.sat then satint o.ty i else i)).toNat, 0)
          else conv .f32 o.ty sat x
        let x := one (a j)
        let y := one (b j)
        (putBits (putBits (vVal s loc g sl false o.d j) (n * (2 * p)) n x.1) (n * (2 * p + 1)) n y.1, x.2 ||| y.2))) ∧
    (LaneUnit (.unpk o) s loc sl g →
      LaneDoes (.unpk o) s loc sl g l false o.d (fun j =>
        let x := a j / 2 ^ (n * p) % 2 ^ n
        if VTy.isInt o.ty then
          ((BitVec.ofInt 32 (asInt (VTy.isSigned o.ty) (BitVec.ofNat n x))).toNat, 0)
        else conv o.ty .f32 false x))

/-! ### Lane exchange and dual words -/

/-- Shuffles, votes, ballot, match and the lane counts give the values of R238 and R242 to R245 and R250 over the lanes of
active(k); an absent source lane leaves the lane its own value. -/
def Obligations.LaneExchange : Prop :=
  ∀ (s : State) (o : VOp) (loc : Nat) (sl : Bool) (g : Group),
    let w := VTy.wide o.ty
    let l := computed g sl o.k
    let a (j : Nat) : Nat := vVal s loc g sl w o.a j
    let c := o.c.toNat
    let p := maskWhere (fun i => l.contains i && (gRead g o.a).getLsbD i)
    (LaneUnit (.shfl o) s loc sl g →
      LaneDoes (.shfl o) s loc sl g l w o.d (fun j =>
        (laneFrom l a j (some (bVal s loc g sl o false j % g.width)), 0))) ∧
    (LaneUnit (.shflx o) s loc sl g →
      LaneDoes (.shflx o) s loc sl g l w o.d (fun j => (laneFrom l a j (some (j ^^^ c)), 0))) ∧
    (LaneUnit (.shfld o) s loc sl g →
      LaneDoes (.shfld o) s loc sl g l w o.d (fun j =>
        (laneFrom l a j (if c.testBit 7 then some (j + c % 64) else if c % 64 ≤ j then some (j - c % 64) else none), 0))) ∧
    (LaneUnit (.bcast o) s loc sl g →
      LaneDoes (.bcast o) s loc sl g l w o.d (fun j => (laneFrom l a j (some ((gRead g o.b).toNat % g.width)), 0))) ∧
    (LaneUnit (.vote o) s loc sl g →
      let r : Prop := match c % 4 with
        | 0 => ∃ j ∈ l, a j ≠ 0
        | 1 => ∀ j ∈ l, a j ≠ 0
        | _ => ∀ i ∈ l, ∀ j ∈ l, a i = a j
      (r → Does (.vote o) s (writeReg s o.d 1)) ∧ (¬ r → Does (.vote o) s (writeReg s o.d 0))) ∧
    (LaneUnit (.ballot o) s loc sl g →
      Does (.ballot o) s (writeReg s o.d (maskWhere (fun j => l.contains j && a j != 0)))) ∧
    (LaneUnit (.matchLanes o) s loc sl g →
      LaneDoes (.matchLanes o) s loc sl g l true o.d (fun j =>
        ((maskWhere (fun i => l.contains i && a i == a j)).toNat, 0))) ∧
    (LaneUnit (.firstl o) s loc sl g →
      Does (.firstl o) s (writeReg s o.d (BitVec.ofNat 64 (((List.range 64).find? (fun i => p.getLsbD i)).getD 64)))) ∧
    (LaneUnit (.lanes o) s loc sl g → o.c.getLsbD 7 = true →
      Does (.lanes o) s (writeReg s o.d (BitVec.ofNat 64 (onesOf 64 p.toNat)))) ∧
    (LaneUnit (.lanes o) s loc sl g → o.c.getLsbD 7 = false →
      LaneDoes (.lanes o) s loc sl g l false o.d (fun j => (onesOf j p.toNat, 0)))

/-- redi, redf and scan combine the values of the lanes of active(k), or of each lane's prefix: integers exactly and then wrapped or
clamped, FP32 in the fixed tree of R246 over the lane positions; no lane gives the identity (R237, R246 to R249). -/
def Obligations.LaneReduction : Prop :=
  ∀ (s : State) (o : VOp) (loc : Nat) (sl : Bool) (g : Group) (n : Nat) (op : RedOp),
    redOpOf (o.c.toNat % 8) = some op → g.width = 2 ^ n → n ≤ 6 →
    let w := VTy.wide o.ty
    let l := computed g sl o.k
    let a (j : Nat) : Nat := vVal s loc g sl w o.a j
    let int (j : Nat) : Int := asInt (VTy.isSigned o.ty) (BitVec.ofNat (ibits o.ty) (a j))
    let fmt := (getSlot g sl).fmt.toNat
    let flt (m : List Nat) : Nat × Nat := floatReduced op (fmt.testBit 10) (fmt.testBit 11) n m a
    let pre (j : Nat) : List Nat := l.filter (fun i => if o.c.getLsbD 6 then decide (i < j) else decide (i ≤ j))
    (LaneUnit (.redi o) s loc sl g →
      let r := laneHeld o (reduced op o.ty (l.map int))
      (o.c.getLsbD 7 = true → Does (.redi o) s (writeReg s o.d (laneScalar o.ty r))) ∧
      (o.c.getLsbD 7 = false → LaneDoes (.redi o) s loc sl g l w o.d (fun _ => (r, 0)))) ∧
    (LaneUnit (.redf o) s loc sl g →
      (o.c.getLsbD 7 = true → Does (.redf o) s (orFlags (writeReg s o.d (BitVec.ofNat 64 (flt l).1)) (flt l).2)) ∧
      (o.c.getLsbD 7 = false → LaneDoes (.redf o) s loc sl g l false o.d (fun _ => flt l))) ∧
    (LaneUnit (.scan o) s loc sl g →
      LaneDoes (.scan o) s loc sl g l w o.d (fun j =>
        if o.ty = .f32 then flt (pre j) else (laneHeld o (reduced op o.ty ((pre j).map int)), 0)))

/-- A dual word, whichever of the 27 its half A makes it, does what its two halves do as full words, both on the state before the
word: every live lane of each half's destination gets its half's value, FLAGS gains the flags of both, nothing else changes
(R174, R234). -/
def Obligations.DualWords : Prop :=
  ∀ (s : State) (i : Instr) (x y : Half) (loc : Nat) (sl : Bool) (g : Group),
    halves i = some (x, y) → LaneUnit i s loc sl g →
    let l := lanesOf (live g sl) g.width
    let into (h : Half) (r : Nat) : Prop := ∃ d, halfDest h = some d ∧ r = d.toNat
    ∃ t g', exec i s = .next t ∧ mget t.groups loc = some g' ∧
      (∀ j ∈ l, ∀ h, h = x ∨ h = y → ∀ d, halfDest h = some d → vVal t loc g' sl false d j = (halfGives s loc g sl h j).1) ∧
      (∀ m r j, j < 64 → ¬ (j ∈ l ∧ m = homeLoc s loc g sl j ∧ (into x r ∨ into y r)) → vAt t m r j = vAt s m r j) ∧
      plain (noVectors t) = plain (noVectors (advance (orFlags s
        (lanesFlags l (halfGives s loc g sl x) ||| lanesFlags l (halfGives s loc g sl y))))) ∧
      ∀ m, readLoc t m = readLoc s m

/-! ### Memory -/

/-- A load word of any space whose lanes pass their checks reads nothing yet: it adds one access per lane, in ascending lane
order, with the lane's bytes, its destination and the counters that cover it, and goes on; registers, masks and flags stay, and
memory is as the checks left it, which only a page walk of a spill access touches (R76, R109, R134, R251 to R256). mfrag adds the
64 sector accesses of its block, each of the kind of its own region (R108, R125, R259, R260). Lanes of one load that read the same
bytes are marked as one (R144). That each lane's access is an entry of its own, performed at its return, is the model's reading
(log 2). -/
def Obligations.LoadsIssue : Prop :=
  ∀ (s s1 : State) (o : MOp) (loc : Nat) (sl : Bool) (g : Group) (t : Target) (b : Nat) (cs : List (Nat × LChk)),
    live g sl &&& kRead g.k o.k.toNat ≠ 0 →
    (∀ i space path, (i, space, path) ∈ [((.ldp o : Instr), 1, Path.spill), (.lds o, 2, .shared), (.ldx o, 3, .scratch)] →
      LaneUnit i s loc sl g → target_ s g o.base [space] = some (t, b) →
      let uni : Bool := o.sv = .s2
      let n := MWidth.bytes o.wt
      checkLanes s loc g sl t true false n
        ((accessLanes g sl o.k uni).map (fun j => (j, laneAddress o space s loc g sl b j))) = (cs, s1) →
      checksPass s1 loc g t true false (space == 3) n cs = true → counterFull s1 path cs.length = false →
      Becomes i s (withWork s1 loc (numbered s1.fresh ((granted cs).map (fun c id =>
        { accessEntry s1 g sl path t id n c.2.2.1 c.2.2.2
            (if uni then .scalar o.data else .vec o.data (if o.wt = .b128 then 4 else if o.wt = .b64 then 2 else 1))
            (BitVec.ofNat 64 (2 ^ c.1)) (.load o.wt [{ lane := c.1, locs := c.2.1 }]) with comb := some s1.fresh }))))) ∧
    (LaneUnit (.mfrag o) s loc sl g →
      let sh : Bool := o.wt = .fragShared
      let path := if sh then Path.shared else .scratch
      target_ s g o.base [if sh then 2 else 3] = some (t, b) →
      ∀ locs kind a, checkLanes s loc g sl t true false 1024 [(0, (b : Int) + (gRead g o.index).toNat + o.off.toInt)] =
        ([(0, .ok locs kind a)], s1) →
      checksPass s1 loc g t true false true 1024 [(0, .ok locs kind a)] = true → counterFull s1 path 64 = false →
      Becomes (.mfrag o) s (withWork s1 loc (numbered s1.fresh ((List.range 64).map (fun n id =>
        accessEntry s1 g sl path t id 16 (spaceKind s1 g t.space (a + 16 * n) 16) (a + 16 * n) (.vec o.data (256 / g.width))
          (live g sl &&& kRead g.k o.k.toNat) (.frag o.sv n ((locs.drop (16 * n)).take 16)))))))

/-- A store word of any space whose lanes pass their checks adds one access per lane with the bytes it will store, and writes
nothing yet; a lane that stores to the copy aperture starts the copy of its channel instead, in ascending lane order (R121, R122,
R251 to R257). That each lane's access is an entry of its own, performed at its return, is the model's reading (log 2). -/
def Obligations.StoresIssue : Prop :=
  ∀ (s s1 : State) (o : MOp) (loc : Nat) (sl : Bool) (g : Group) (t : Target) (b : Nat) (cs : List (Nat × LChk)) (i : Instr)
    (space : Nat) (path : Path),
    (i, space, path) ∈ [((.stp o : Instr), 1, Path.spill), (.sts o, 2, .shared), (.stx o, 3, .scratch)] →
    live g sl &&& kRead g.k o.k.toNat ≠ 0 → LaneUnit i s loc sl g → target_ s g o.base [space] = some (t, b) →
    let uni : Bool := o.sv = .s2
    let n := MWidth.bytes o.wt
    let stores := granted cs
    let copies : List (Nat × Nat) := cs.filterMap (fun c => match c.2 with | .aperture ch => some (c.1, ch) | _ => none)
    let data (j : Nat) : Nat := leNat (storedBytes o s1 loc g sl j)
    checkLanes s loc g sl t false true n
      ((accessLanes g sl o.k uni).map (fun j => (j, laneAddress o space s loc g sl b j))) = (cs, s1) →
    checksPass s1 loc g t false true (space == 3) n cs = true → counterFull s1 path stores.length = false →
    counterFull s1 .copy copies.length = false → copiesOn s1 (locCore loc) + copies.length ≤ 64 →
    (∀ c ∈ copies, argReady s1 loc g (data c.1 / 65536) = true) →
    let s2 := copies.foldl (fun u c => startCopy u loc sl c.2 (data c.1 % 65536) (data c.1 / 65536) .none) s1
    Becomes i s (withWork s2 loc (numbered s2.fresh (stores.map (fun c id =>
      accessEntry s1 g sl path t id n c.2.2.1 c.2.2.2 .none (BitVec.ofNat 64 (2 ^ c.1))
        (.store (c.2.1.zip (storedBytes o s1 loc g sl c.1))))))) ∧
    (copies = [] → s2 = s1)

/-- atom and cas whose lanes pass their checks add one access per lane with its operation, operands, order and marks; a
speculative one whose PC has a replay record performs nothing and gives the kept values (R151, R153, R263 to R268). Entries of
single lanes are the model's reading (logs 2, 14). -/
def Obligations.AtomicsIssue : Prop :=
  ∀ (s s1 : State) (o : AOp) (loc : Nat) (sl : Bool) (g : Group) (t : Target) (b : Nat) (cs : List (Nat × LChk)) (i : Instr)
    (cas : Bool), (i, cas) ∈ [(.atom o, false), (.cas o, true)] →
    live g sl &&& kRead g.k o.k.toNat ≠ 0 → LaneUnit i s loc sl g →
    target_ s g o.base [if o.scr then 3 else 2] = some (t, b) →
    let path := if o.scr then Path.scratch else .shared
    let n := if o.w64 then 8 else 4
    let dst : Dst := if o.uni then .scalar o.d else .vec o.d (if o.w64 then 2 else 1)
    let val (r : Sel) (j : Nat) : W64 := BitVec.ofNat 64
      (if o.uni then (gRead g r).toNat % (if o.w64 then 2 ^ 64 else 2 ^ 32) else vVal s1 loc g sl o.w64 r j)
    let spec : Bool := o.use = .speculative
    checkLanes s loc g sl t true true n ((accessLanes g sl o.k o.uni).map (fun j => (j, atomAddress o s loc g sl b j))) = (cs, s1) →
    checksPass s1 loc g t true true o.scr n cs = true →
    ((spec = false ∨ ∀ r ∈ g.replay, ¬ (r.pc = readPc s ∧ r.slot = sl)) → counterFull s1 path cs.length = false →
      Becomes i s (withWork s1 loc (numbered s1.fresh ((granted cs).map (fun c id =>
        { accessEntry s1 g sl path t id n c.2.2.1 c.2.2.2 dst (BitVec.ofNat 64 (2 ^ c.1))
            (.atomic o.op o.w64 cas [({ lane := c.1, locs := c.2.1 }, val o.data c.1, val o.d c.1)]) with
          order := o.order, comb := if o.use = .commutative then some s1.fresh else none,
          quantum := if o.use = .quantum then some (t.space, c.2.2.2) else none }))))) ∧
    (spec = true → ∀ r, g.replay.find? (fun r => decide (r.pc = readPc s ∧ r.slot = sl)) = some r →
      ∃ u g' p, exec i s = .next u ∧ mget u.groups loc = some g' ∧
        g'.pend = g.pend ++ [p] ∧ p.dst = dst ∧ p.path = none ∧
        p.act = .value (r.vals.map (fun x => (x.1, x.2.take (if o.w64 then 2 else 1)))) r.sval ∧
        g'.replay = g.replay.filter (fun x => !decide (x.pc = r.pc ∧ x.slot = sl)) ∧ readPc u = readPc s + 8 ∧
        g'.s = g.s ∧ g'.k = g.k ∧ g'.v = g.v ∧ ∀ l, readLoc u l = readLoc s1 l)

/-- ldt of lanes whose lines are Counted, with no acquire outstanding (R140), gives the bytes of those lines, and each line touched loses one of its count, or is
dropped at one; memory is not read (R130, R131, R258). prefx changes no value: it adds one staging per lane (R262; the number of them is the
model's choice, log 71). -/
def Obligations.CountedLoadAndPrefetch : Prop :=
  ∀ (s : State) (o : MOp) (loc : Nat) (sl : Bool) (g : Group) (t : Target) (b : Nat) (d : Die),
    let uni : Bool := o.sv = .s2
    let n := MWidth.bytes o.wt
    let lanes := accessLanes g sl o.k uni
    let at_ (j : Nat) : Int := laneAddress o 4 s loc g sl b j
    let line (j : Nat) : Option CLine :=
      d.lines.find? (fun x => x.line == (at_ j).toNat / 64 && x.eid == groupEid s g)
    let value (j : Nat) : Nat := match line j with | some x => leNat ((x.data.drop ((at_ j).toNat % 64)).take n) | none => 0
    let hit (x : CLine) : Bool := x.eid == groupEid s g && lanes.any (fun j => x.line == (at_ j).toNat / 64)
    live g sl &&& kRead g.k o.k.toNat ≠ 0 →
    (LaneUnit (.ldt o) s loc sl g → target_ s g o.base [5] = some (t, b) → mget s.dies (locDie loc) = some d →
      (∀ j ∈ lanes, checkAccess s loc g t true false (at_ j) n = none ∧ ∃ x, line j = some x ∧ x.st = .counted) →
      g.pend.any isAcq = false →
      counterFull s .scratch lanes.length = false →
      let lines := d.lines.filterMap (fun x =>
        if hit x then (if x.count ≤ 1 then none else some { x with count := x.count - 1 }) else some x)
      let s1 := { s with dies := mput s.dies (locDie loc) { d with lines := lines } }
      Becomes (.ldt o) s (withWork s1 loc (numbered s.fresh (lanes.map (fun j id =>
        accessEntry s g sl .scratch t id n .r (at_ j).toNat
          (if uni then .scalar o.data else .vec o.data (if o.wt = .b128 then 4 else if o.wt = .b64 then 2 else 1))
          (BitVec.ofNat 64 (2 ^ j))
          (.value (if uni then [] else [(j, (List.range (if o.wt = .b128 then 4 else if o.wt = .b64 then 2 else 1)).map
              (fun k => loadedWord o.wt (value j) k))])
            (loadedScalar o.wt (value j)))))))) ∧
    (LaneUnit (.prefx o) s loc sl g → counterFull s .scratch lanes.length = false →
      Becomes (.prefx o) s (withWork s loc (numbered s.fresh (List.replicate lanes.length (fun id =>
        { id := id, slot := sl, path := some .scratch, kind := .priv, order := .rlx, cov := 0, dst := .none, lanes := 0,
          act := .nothing, flags := 0, returned := false, aliased := [], src := 0,
          homes := (getSlot g sl).lent, comb := none, quantum := none })))))

/-- A memory word performs nothing with an empty active(k), raises BADHANDLE on a base that does not reach its space, and on a
lane whose check fails raises that lane's cause, the lowest lane's first, with its space and address, with registers and memory
unchanged (R11, R109, R255), unless a change of W holds it (R275). A spill lane that passes its first checks is also walked, and
INTEGRITY of any lane comes before every other cause. ldt raises OVERREAD on a lane whose line is Absent and INTEGRITY on a
Poisoned one, and no count changes (R131, R258). The checks come in the order bounds, permission, alignment; an access that
touches the aperture window in any other way than R121 allows fails first of all. Which region a misaligned access is checked
against and that an access reaching into the aperture is in it are the model's choice (log 75). -/
def Obligations.MemoryFaults : Prop :=
  (∀ (s : State) (o : MOp) (a : AOp) (loc : Nat) (sl : Bool) (g : Group) (i : Instr) (space : Nat) (wr : Bool) (k : BitVec 4)
    (base : Sel) (n : Nat) (at_ : Nat → Nat → Int) (uni : Bool),
    (i, space, wr, k, base, n, uni) ∈ [((.lds o : Instr), 2, false, o.k, o.base, MWidth.bytes o.wt, decide (o.sv = .s2)),
      (.ldx o, 3, false, o.k, o.base, MWidth.bytes o.wt, decide (o.sv = .s2)),
      (.sts o, 2, true, o.k, o.base, MWidth.bytes o.wt, decide (o.sv = .s2)),
      (.stx o, 3, true, o.k, o.base, MWidth.bytes o.wt, decide (o.sv = .s2)),
      (.ldp o, 1, false, o.k, o.base, MWidth.bytes o.wt, decide (o.sv = .s2)),
      (.stp o, 1, true, o.k, o.base, MWidth.bytes o.wt, decide (o.sv = .s2)),
      (.ldt o, 5, false, o.k, o.base, MWidth.bytes o.wt, decide (o.sv = .s2)),
      (.mfrag o, if o.wt = .fragShared then 2 else 3, false, o.k, o.base, 1024, true),
      (.atom a, if a.scr then 3 else 2, true, a.k, a.base, if a.w64 then 8 else 4, a.uni),
      (.cas a, if a.scr then 3 else 2, true, a.k, a.base, if a.w64 then 8 else 4, a.uni)] →
    (at_ = fun b j => match i with
      | .atom _ | .cas _ => atomAddress a s loc g sl b j
      | .mfrag _ => (b : Int) + ((gRead g o.index).toNat : Int) + o.off.toInt
      | _ => laneAddress o space s loc g sl b j) →
    LaneUnit i s loc sl g →
    let rd : Bool := !(i == .sts o || i == .stx o || i == .stp o)
    let takes : Prop := g.stop ≠ .saving ∧ g.stop ≠ .system ∧ isHalted g = false
    let each (b : Nat) : List (Nat × Int) := (accessLanes g sl k uni).map (fun j => (j, at_ b j))
    let stays (g' : Group) : Prop :=
      g'.s = g.s ∧ g'.k = g.k ∧ g'.v = g.v ∧ g'.h = g.h ∧ g'.flags = g.flags ∧ g'.pend = g.pend ∧
        (getSlot g' sl).pc = (getSlot g sl).pc ∧ (getSlot g' sl).exec = (getSlot g sl).exec
    (live g sl &&& kRead g.k k.toNat = 0 → Does i s s) ∧
    (live g sl &&& kRead g.k k.toNat ≠ 0 → target_ s g base [space] = none → takes →
      ∃ t g', exec i s = .next t ∧ t.last = .faulted ∧ mget t.groups loc = some g' ∧ g'.cause.toNat % 256 = 0x27 ∧
        stays g' ∧ ∀ l, readLoc t l = readLoc s l) ∧
    (∀ t b, live g sl &&& kRead g.k k.toNat ≠ 0 → target_ s g base [space] = some (t, b) → takes →
      (∀ x ∈ each b, shrinkHolds s loc g t.space (x.2 + t.shift) n = false) →
      (space = 2 ∨ space = 3 → ∀ x ∈ each b, ∀ c, checkAccess s loc g t rd wr x.2 n = some c →
        (∀ y ∈ each b, y.1 < x.1 → checkAccess s loc g t rd wr y.2 n = none) →
        ∃ u g', exec i s = .next u ∧ u.last = .faulted ∧ mget u.groups loc = some g' ∧ g'.cause.toNat % 256 = c ∧
          g'.caddr = BitVec.ofNat 64 ((BitVec.ofInt 55 (x.2 + t.shift)).toNat + t.space * 2 ^ 55) ∧
          stays g' ∧ ∀ l, readLoc u l = readLoc s l) ∧
      (space = 1 → ∀ cs s1 j c a st pg, checkLanes s loc g sl t rd wr n (each b) = (cs, s1) →
        (j, .bad c 1 a st pg) ∈ cs → (c = 0x02 ∨ ∀ x ∈ cs, ∀ p q st pg, x.2 ≠ .bad 0x02 p q st pg) →
        (∀ x ∈ cs, x.1 < j → ∀ d p q st pg, x.2 = .bad d p q st pg → c = 0x02 ∧ d ≠ 0x02) →
        ∃ u g', exec i s = .next u ∧ u.last = .faulted ∧ mget u.groups loc = some g' ∧ g'.cause.toNat % 256 = c % 256 ∧
          g'.caddr = BitVec.ofNat 64 (a % 2 ^ 55 + 2 ^ 55) ∧ stays g' ∧
          (c ∉ [0x20, 0x22, 0x23] → ∀ l, readLoc u l = readLoc s1 l)) ∧
      (space = 5 → ∀ d, mget s.dies (locDie loc) = some d → g.pend.any isAcq = false →
        let line (a : Int) : Option CLine := d.lines.find? (fun x => x.line == a.toNat / 64 && x.eid == groupEid s g)
        let code (a : Int) : Option Nat := match checkAccess s loc g t true false a n with
          | some c => some c
          | none => match line a with
            | none => some 0x26
            | some l => if l.st = .poisoned then some 0x02 else none
        (∀ x ∈ each b, ∀ l, line x.2 = some l → l.st ≠ .filling) →
        ∀ x ∈ each b, ∀ c, code x.2 = some c → (c = 0x02 ∨ ∀ y ∈ each b, code y.2 ≠ some 0x02) →
        (∀ y ∈ each b, y.1 < x.1 → ∀ e, code y.2 = some e → c = 0x02 ∧ e ≠ 0x02) →
        ∃ u g', exec i s = .next u ∧ u.last = .faulted ∧ mget u.groups loc = some g' ∧ g'.cause.toNat % 256 = c ∧
          g'.caddr = BitVec.ofNat 64 ((BitVec.ofInt 55 x.2).toNat + 4 * 2 ^ 55) ∧ stays g' ∧ u.dies = s.dies ∧
          ∀ l, readLoc u l = readLoc s l))) ∧
  (∀ (s : State) (loc : Nat) (g : Group) (t : Target) (rd wr : Bool) (a n : Nat),
    (n = 1 ∨ n = 2 ∨ n = 4 ∨ n = 8 ∨ n = 16 ∨ n = 1024) → t.shift = 0 →
    (t.space = 2 →
      checkAccess s loc g t rd wr a n =
        (if a < t.lo ∨ t.hi < a + n ∨ sharedOf s g < a + n then some 0x24
         else if (rd = true ∧ t.rd = false) ∨ (wr = true ∧ t.wr = false) then some 0x21
         else if a % min n 16 ≠ 0 then some 0x25 else none)) ∧
    (t.space = 3 → (a + n ≤ 0x7F000000 ∨ 0x7F000400 ≤ a) →
      checkAccess s loc g t rd wr a n =
        (if a < t.lo ∨ t.hi < a + n ∨ capacity s (locDie loc) (groupPart s g) < a + n then some 0x24
         else if (rd = true ∧ t.rd = false) ∨ (wr = true ∧ (t.wr = false ∨ (regionOf s g a).testBit 2 = true)) then some 0x21
         else if a % min n 16 ≠ 0 then some 0x25 else none)) ∧
    (t.space = 3 → a < 0x7F000400 → 0x7F000000 < a + n →
      ¬ (wr = true ∧ rd = false ∧ n = 8 ∧ 0x7F000000 ≤ a ∧ a % 64 = 0) → checkAccess s loc g t rd wr a n = some 0x28))

/-- A store that returns writes its bytes and no other: each listed location reads as its byte after, every other as before, and
no register, flag or PC changes. A staging that returns changes nothing. Both let their counters fall (R134, R256). That an access
is performed in the step of its return is the model's reading (log 2). -/
def Obligations.StoreReturns : Prop :=
  ∀ (s : State) (ag : Agent) (p : Pend) (l : List (MLoc × Byte)), canon s = true →
    (pendAt s ag).find? (fun x => x.id == p.id) = some p → canReturn s ag p = true →
    (p.act = .store l → (∀ x ∈ l, locThere s x.1 = true) → (l.map (·.1)).Nodup →
      ∃ t, exec (.accessReturn ag p.id) s = .next t ∧
        Returned t { writeLocs s l with quanta := s.quanta.filter (fun q => !q.locs.any (fun m => (l.map (·.1)).contains m)) } ag p.id ∧
        (∀ x ∈ l, readLoc t x.1 = x.2) ∧ (∀ m, m ∉ l.map (·.1) → readLoc t m = readLoc s m)) ∧
    (p.act = .nothing →
      ∃ t, exec (.accessReturn ag p.id) s = .next t ∧ Returned t s ag p.id ∧ ∀ m, readLoc t m = readLoc s m)

/-- A load that returns reads its bytes then, little-endian, and lands them in its destination under its width; a value ready since
issue lands as it is; a sector of a fragment lands its bytes in the registers of the lanes of active(k), whose other bytes stay. Every
other lane and register of the group, and every byte of memory, stays (R76 to R78, R253, R256, R260). The other lanes of the word that read
the same bytes take the same value (R144). -/
def Sys2Proof.Claims.LoadsLand : Prop :=
  ∀ (s : State) (loc : Nat) (g : Group) (p : Pend), canon s = true → landsAt s loc p g →
    g.pend.find? (fun x => x.id == p.id) = some p → canReturn s (.group loc false) p = true →
    let go (ok : State → Group → Prop) : Prop :=
      ∃ t g', exec (.deferredResultReturn (.group loc false) p.id) s = .next t ∧ mget t.groups loc = some g' ∧
        g'.pend = markReturned g.pend p.id ∧ g'.flags = g.flags ||| BitVec.ofNat 64 p.flags ∧
        g'.slot0.pc = g.slot0.pc ∧ g'.slot1.pc = g.slot1.pc ∧ (∀ m, readLoc t m = readLoc s m) ∧ ok t g'
    let scalar (a : Sel) (v : W64) : Prop :=
      go (fun t _ => plain t = plain (updGroup s loc (fun g => { gWrite g a v with
        pend := markReturned g.pend p.id, flags := g.flags ||| BitVec.ofNat 64 p.flags })))
    let lane (r : Sel) (j : Nat) (v : List W32) : Prop :=
      go (fun t g' => (∀ k x, v[k]? = some x → vAt t (landHome s loc g p j) (r.toNat + k) j = x) ∧
        (∀ m q i, i < 64 → ¬ (m = landHome s loc g p j ∧ i = j ∧ r.toNat ≤ q ∧ q < r.toNat + v.length) →
          vAt t m q i = vAt s m q i) ∧ g'.s = g.s ∧ g'.k = g.k)
    (∀ wt j locs a, p.act = .load wt [{ lane := j, locs := locs }] → p.dst = .scalar a → settledAt s locs → loadsAlone g p →
      scalar a (loadedScalar wt (leNat (locs.map (readLoc s))))) ∧
    (∀ wt i j locs n x, p.act = .load wt [{ lane := i, locs := locs }] → settledAt s locs → x ∈ g.pend → x.id ≠ p.id →
      x.comb = p.comb → x.comb ≠ none → x.returned = false → x.act = .load wt [{ lane := j, locs := locs }] →
      n = (if wt = .b128 then 4 else if wt = .b64 then 2 else 1) →
      ∃ t g', exec (.deferredResultReturn (.group loc false) p.id) s = .next t ∧ mget t.groups loc = some g' ∧
        ∃ y ∈ g'.pend, y.id = x.id ∧ y.returned = false ∧
          y.act = .value [(j, (List.range n).map (fun k => loadedWord wt (leNat (locs.map (readLoc s))) k))]
            (loadedScalar wt (leNat (locs.map (readLoc s))))) ∧
    (∀ wt j locs r n, p.act = .load wt [{ lane := j, locs := locs }] → p.dst = .vec r n → j < 64 → settledAt s locs →
      loadsAlone g p →
      n = (if wt = .b128 then 4 else if wt = .b64 then 2 else 1) →
      lane r j ((List.range n).map (fun k => loadedWord wt (leNat (locs.map (readLoc s))) k))) ∧
    (∀ v a, p.act = .value [] v → p.dst = .scalar a → scalar a v) ∧
    (∀ j v w r n, p.act = .value [(j, v)] w → p.dst = .vec r n → j < 64 → lane r j v) ∧
    (∀ tr sec locs r n, p.act = .frag tr sec locs → p.dst = .vec r n → g.width ∣ 256 → locs.length = 16 → p.homes = [] →
      settledAt s locs → r.toNat + 256 / g.width ≤ 256 →
      go (fun t g' => (∀ j k, j < 64 → k < 256 / g.width →
        vAt t loc (r.toNat + k) j =
          if j < g.width ∧ p.lanes.getLsbD j = true then
            BitVec.ofNat 32 (leNat ((List.range 4).map (fun q =>
              let b := fragIndex tr (j * (1024 / g.width) + 4 * k + q)
              if b / 16 = sec then (locs.map (readLoc s)).getD (b % 16) 0
              else BitVec.ofNat 8 ((vAt s loc (r.toNat + k) j).toNat / 2 ^ (8 * q)))))
          else vAt s loc (r.toNat + k) j) ∧
        (∀ m q i, i < 64 → ¬ (m = loc ∧ r.toNat ≤ q ∧ q < r.toNat + 256 / g.width) → vAt t m q i = vAt s m q i) ∧
        g'.s = g.s ∧ g'.k = g.k))

/-- An atomic that returns is one read and write of its location: the old value lands, and the location holds the value of R264 or
R266; a compare that fails writes nothing. Every other byte of memory stays (R76, R264, R266). So it is of a quantum one, whose landed value
is one that its group may see (R152), and of a commutative one that no earlier lane is combined with (R151). -/
def Sys2Proof.Claims.AtomicReturns : Prop :=
  ∀ (s : State) (loc : Nat) (g : Group) (p : Pend) (op : AtomOp) (w64 cas : Bool) (j : Nat) (locs : List MLoc) (y c : W64),
    canon s = true → landsAt s loc p g → g.pend.find? (fun x => x.id == p.id) = some p →
    canReturn s (.group loc false) p = true → combined g.pend p = [p] →
    p.act = .atomic op w64 cas [({ lane := j, locs := locs }, y, c)] → j < 64 → (p.quantum ≠ none → cas = false) →
    (∀ l ∈ locs, locThere s l = true) → locs.Nodup → locs.length = (if w64 then 8 else 4) →
    let n := if w64 then 64 else 32
    let old := leNat (locs.map (readLoc s))
    let new := atomStores op cas n old y.toNat c.toNat
    ∃ t g', exec (.deferredResultReturn (.group loc false) p.id) s = .next t ∧ mget t.groups loc = some g' ∧
      leNat (locs.map (readLoc t)) = new ∧ (∀ m, m ∉ locs → readLoc t m = readLoc s m) ∧
      g'.pend = markReturned g.pend p.id ∧ g'.slot0.pc = g.slot0.pc ∧ g'.slot1.pc = g.slot1.pc ∧
      (∀ a, p.quantum = none → p.dst = .scalar a → g'.v = g.v ∧ ∀ e, gRead g' e = gRead (gWrite g a (BitVec.ofNat 64 old)) e) ∧
      (∀ r k, p.quantum = none → p.dst = .vec r k → g'.s = g.s ∧ g'.k = g.k ∧
        vAt t (landHome s loc g p j) r.toNat j = BitVec.ofNat 32 old ∧
        (w64 = true → vAt t (landHome s loc g p j) (r.toNat + 1) j = BitVec.ofNat 32 (old / 2 ^ 32)))

/-- What returns of loads and of atomics do: the value of memory at the return lands in the registers of the lanes, and an atomic
stores its result (R76 to R78, R134, R253, R263 to R267). That an access is performed in the step of its return is the model's
reading (log 2). -/
def Obligations.LoadReturns : Prop :=
  Sys2Proof.Claims.LoadsLand ∧ Sys2Proof.Claims.AtomicReturns

/-! ### Fences, handles, counters and the way count -/

/-- fence goes on when every counter it covers is zero, which is a quantum boundary of what it covers (R152), and its slot waits
otherwise (R127, R270); waitc goes on when its path's
counter is at or below the threshold or the threshold is 255 or more (R273). -/
def Sys2Proof.Claims.FencesAndCounters : Prop :=
  ∀ (s : State) (o : Order) (sc : Scope) (hs : BitVec 8) (p : Path) (a : Sel) (t : BitVec 8), canon s = true →
    (ready (.fence o sc hs) s = true →
      (∀ x ∈ pendOf s, x.returned = false → ∀ n, n < 9 → x.cov.getLsbD n = false) →
      (∀ loc sl, s.agent ≠ .group loc sl) → Does (.fence o sc hs) s s) ∧
    (∀ loc sl g, Issues s loc sl g →
      let boundary : State := { s with quanta := s.quanta.map (fun q =>
        if (match q.locs with | .shared t _ :: _ => t == g.team | .array d _ :: _ => d == locDie loc | _ => false)
            && (hs == 0 || (List.range 8).any (fun n => hs.getLsbD n && coversAny (coverRange s g (getH g n)) q))
        then { q with seen := mput q.seen (quantumWho g) q.apps.length } else q) }
      let covered (n : Nat) : Prop := n < 9 ∧ (hs = 0 ∨ n < 8 ∧ hs.getLsbD n = true ∧ hSpace (getH g n) ≠ 0)
      let left (n : Nat) : Prop := ∃ x ∈ g.pend, x.cov.getLsbD n = true ∧ x.returned = false
      let few : Prop := 255 ≤ (if a = 0 then t.toNat else (gRead g a).toNat) ∨
        (g.pend.filter (fun x => x.path == some p)).length ≤ (if a = 0 then t.toNat else (gRead g a).toNat)
      (ready (.fence o sc hs) s = true → (∀ n, covered n → ¬ left n) → Does (.fence o sc hs) s boundary) ∧
      (ready (.fence o sc hs) s = true → ∀ n, covered n → left n →
        ∃ c, (∀ m, c.getLsbD m = true ↔ covered m) ∧ Parks (.fence o sc hs) s loc sl g (.fence c)) ∧
      (ready (.waitc p a t) s = true → few → Does (.waitc p a t) s s) ∧
      (ready (.waitc p a t) s = true → ¬ few →
        Parks (.waitc p a t) s loc sl g (.count p (if a = 0 then t.toNat else (gRead g a).toNat))))

/-- hdef sets hN to the two registers, or to the undefined handle for space 0; it stalls while an access covered by the old handle
is outstanding, and raises BADHANDLE on an image R271 forbids. Redefining a counted handle drops its lines (R130). The alias form
sets entry E of the team under the rules of R272. -/
def Sys2Proof.Claims.HandleDefinition : Prop :=
  ∀ (s : State) (d a b c : Sel) (e : BitVec 4) (loc : Nat) (sl : Bool) (g : Group), canon s = true → Issues s loc sl g →
    let base := gRead g a
    let desc := gRead g b
    let n := d.toNat - 0x58
    let sp := desc.toNat / 2 ^ 40 % 8
    let bad : Prop := desc.toNat / 2 ^ 51 ≠ 0 ∨ desc.toNat / 2 ^ 43 % 32 ≠ 0 ∨ sp = 7 ∨ (sp ≠ 6 ∧ desc.getLsbD 50 = true) ∨
      (sp = 6 ∧ base.toNat / 2 ^ 40 % 2 ^ 20 ≠ 0)
    let left : Prop := ∃ x ∈ g.pend, x.cov.getLsbD n = true ∧ x.returned = false
    let old := getH g n
    let new : Handle := if sp = 0 then { base := 0, desc := 0 } else { base := base, desc := desc }
    let put (u : State) : State := { u with groups := mupd u.groups loc (fun g => { g with h := msetD g.h n new noHandle }) }
    (ready (.hdef d a b) s = true →
      (bad → Faults (.hdef d a b) s 0x27 (pcAddr s)) ∧
      (¬ bad → left → Stalls (.hdef d a b) s loc sl g) ∧
      (¬ bad → ¬ left → hSpace old ≠ 5 → Does (.hdef d a b) s (put s)) ∧
      (¬ bad → ¬ left → hSpace old = 5 → (mget s.dies (locDie loc)).isSome = true →
        Does (.hdef d a b) s (put (linesDropped s loc (fun l => l.eid == groupEid s g && decide (hLen old ≠ 0)
          && decide (64 * l.line < old.base.toNat + hLen old) && decide (old.base.toNat < 64 * l.line + 64)))))) ∧
    (ready (.hdefAlias e a b c) s = true →
      let ctl := gRead g c
      let asp := ctl.toNat / 2 ^ 40 % 8
      let abad : Prop := ctl.toNat / 2 ^ 46 ≠ 0 ∨ (ctl.getLsbD 44 = true ∧ asp ≠ 3 ∧ asp ≠ 4) ∨
        (ctl.getLsbD 43 = true ∧ ctl.getLsbD 45 = false)
      let aleft : Prop := ∃ x ∈ g.pend, x.returned = false ∧ e.toNat ∈ x.aliased
      let anew : Alias := if ctl.getLsbD 44 then
        { bufa := gRead g a, bufb := if ctl.getLsbD 45 then gRead g b else 0, ctl := ctl } else { bufa := 0, bufb := 0, ctl := 0 }
      (abad → Faults (.hdefAlias e a b c) s 0x27 (pcAddr s)) ∧
      (¬ abad → aleft → Stalls (.hdefAlias e a b c) s loc sl g) ∧
      (¬ abad → ¬ aleft → ∀ t, mget s.teams g.team = some t →
        Does (.hdefAlias e a b c) s
          { s with teams := mput s.teams g.team { t with aliased := msetD t.aliased e.toNat anew noAlias } }))

/-- fence, waitc and hdef: a fence waits for the accesses it covers, waitc for a counter, and hdef defines a range handle (R141, R269 to R273). -/
def Obligations.FencesAndHandles : Prop :=
  Sys2Proof.Claims.FencesAndCounters ∧ Sys2Proof.Claims.HandleDefinition

/-- scrsz answers code 2 above 16 ways and code 0 for the way count in force; else it begins a change and is passed over until
that has ended, and then writes its result and goes on. The change is of the partition's one way count, in its colours on every
die. A growth is refused with code 1 while a counted line pins one of the ways, else the new ways read as zero; a reduction waits
for the accesses above the new capacity. No other byte of memory changes (R117, R119, R274, R275). That a change holds on every
die of the partition is the model's reading (log 33). -/
def Obligations.WayCount : Prop :=
  ∀ (s : State) (d a : Sel) (n : BitVec 5) (loc : Nat) (sl : Bool) (g : Group), canon s = true → Issues s loc sl g →
    let part := groupPart s g
    let w := if a = 0 then n.toNat else (gRead g a).toNat
    let old := waysOf s part
    let res (code new : Nat) : W64 := BitVec.ofNat 64 (code + 256 * old + 65536 * new)
    let mine (x : Nat × Work) : Bool := match x.2 with | .scrsz l _ _ k _ _ => l == loc && k == sl | _ => false
    let busy (x : Nat × Work) : Bool := match x.2 with | .scrsz _ p _ _ none _ => p == part | _ => false
    (ready (.scrsz d a n) s = true →
      (∀ id l p m k v e, s.work.find? mine = some (id, .scrsz l p m k (some v) e) →
        Does (.scrsz d a n) s (writeReg { s with work := mdel s.work id } d v)) ∧
      (∀ id l p m k e, s.work.find? mine = some (id, .scrsz l p m k none e) → Stalls (.scrsz d a n) s loc sl g) ∧
      (s.work.any mine = false → s.work.any busy = true → Stalls (.scrsz d a n) s loc sl g) ∧
      (s.work.any mine = false → s.work.any busy = false →
        (16 < w → Does (.scrsz d a n) s (writeReg s d (res 2 old))) ∧
        (w ≤ 16 → w = old → Does (.scrsz d a n) s (writeReg s d (res 0 old))) ∧
        (w ≤ 16 → w ≠ old → exec (.scrsz d a n) s = .next
          { (setGroup { s with work := mput s.work s.fresh (.scrsz loc part w sl none d), fresh := s.fresh + 1 } loc
              (stalled g sl)) with last := .stalled }))) ∧
    (∀ id l m k e, s.work.find? busy = some (id, .scrsz l part m k none e) →
      let mem (lo hi : Nat) : MLoc → Prop
        | .array x y => x < 8 ∧ ∃ first b, colours s x part = some (first, b) ∧
            first ≤ y / 1572864 ∧ y / 1572864 < first + 2 ^ b ∧ lo ≤ y / 98304 % 16 ∧ y / 98304 % 16 < hi
        | _ => False
      let ends (code new : Nat) (t : State) : Prop :=
        mget t.work id = some (.scrsz l part m k (some (res code new)) e) ∧ t.groups = s.groups ∧
        t.ways = (if new = old then s.ways else msetD s.ways part new 0)
      let pins : Prop := ∃ x, x < 8 ∧ (colours s x part).isSome = true ∧
        ∃ c ∈ linesOf s x, c.part = part ∧ c.st ≠ .poisoned ∧ old ≤ c.way ∧ c.way < m
      let held : Prop := ∃ x, x < 8 ∧ (colours s x part).isSome = true ∧ scratchBusy s x part m = true
      (old < m → pins → GoesTo (exec (.scrszComplete part) s) (fun t => ends 1 old t ∧ ∀ l, readLoc t l = readLoc s l)) ∧
      (old < m → ¬ pins → GoesTo (exec (.scrszComplete part) s) (fun t => ends 0 m t ∧
        (∀ l, mem old m l → readLoc t l = 0) ∧ ∀ l, ¬ mem old m l → readLoc t l = readLoc s l)) ∧
      (m < old → held → exec (.scrszComplete part) s = .next s) ∧
      (m < old → ¬ held → GoesTo (exec (.scrszComplete part) s) (fun t => ends 0 m t ∧
        ∀ l, ¬ mem m old l → readLoc t l = readLoc s l)))

/-! ### Engine words -/

/-- The copy word starts a copy of its channel from its template and argument block, with the status to its register, and goes on;
pub starts a swap of its alias; rcrel drops the counted lines of its handle and counts as one engine operation; qstat gives the last status of a channel; gath and coll
take a place in q2 and q3; mvn in q1 when it names no register. The other registers, the flags (but for underread) and memory
stay (R284, R285, R287, R292 to R294, R303, R305, R306). -/
def Sys2Proof.Claims.EngineWordsIssue : Prop :=
  ∀ (s : State) (d ch tmpl arg h v desc : Sel) (sc : Scope) (loc : Nat) (sl : Bool) (g : Group), canon s = true →
    Issues s loc sl g →
    let id := s.fresh
    let hd := getH g (h.toNat - 0x58)
    (ready (.cpy d ch tmpl arg) s = true → counterFull s .copy 1 = false → copiesOn s (locCore loc) < 64 →
      argReady s loc g (gRead g arg).toNat = true →
      let c := groupCopy s loc g ch.toNat tmpl.toNat (gRead g arg).toNat
      (c.err ≠ 0 ∨ templateDw c.tmpl 0 / 2 ^ 24 % 256 = 0 →
        ∃ t, exec (.cpy d ch tmpl arg) s = .next t ∧ mget t.work id = some (.copy c) ∧ readPc t = readPc s + 8 ∧
          (∃ g' p, mget t.groups loc = some g' ∧ g'.pend = g.pend ++ [p] ∧ p.id = id ∧ p.path = some .copy ∧ p.dst = toReg d ∧
            p.act = .wait ∧ p.returned = false ∧ g'.s = g.s ∧ g'.k = g.k ∧ g'.v = g.v ∧ g'.flags = g.flags) ∧
          t.dies = s.dies ∧ ∀ l, readLoc t l = readLoc s l) ∧
      (c.err = 0 → 0 < templateDw c.tmpl 0 / 2 ^ 24 % 256 → (mget s.dies (locDie loc)).isSome = true →
        ∃ t, exec (.cpy d ch tmpl arg) s = .next t ∧ mget t.work id = some (.copy c) ∧ readPc t = readPc s + 8 ∧
          (let n := tCount c.tmpl 0 * 2 ^ tEsz c.tmpl / 64
           let first := (c.arg.headD 0).toNat / 64
           let mine (l : CLine) : Bool := (l.tmpl == c.slot && l.launch == c.launch)
             || (l.eid == c.eid && decide (first ≤ l.line) && decide (l.line < first + n))
           let was := (linesOf s (locDie loc)).filter (fun l => !mine l)
           (linesOf t (locDie loc)).take was.length = was ∧ (linesOf t (locDie loc)).length = was.length + n ∧
           ∀ j, j < n → ∃ l, (linesOf t (locDie loc))[was.length + j]? = some l ∧ l.line = first + j ∧ l.eid = c.eid ∧
             l.st = .filling ∧ l.count = templateDw c.tmpl 0 / 2 ^ 24 % 256 ∧ l.copy = id) ∧
          ∀ l, readLoc t l = readLoc s l)) ∧
    (ready (.pub sc h) s = true →
      let al := aliasOf s g.team (hd.base.toNat / 2 ^ 60)
      (hSpace hd ≠ 6 ∨ alValid al = false ∨ alShadow al = false → Faults (.pub sc h) s 0x27 (pcAddr s)) ∧
      (hSpace hd = 6 → alValid al = true → alShadow al = true → counterFull s .copy 1 = false →
        Becomes (.pub sc h) s (withWork (withTask s (.pub loc g.team (hd.base.toNat / 2 ^ 60))) loc
          [{ taskEntry g sl id .copy .none 0 .wait 0x100 0 with aliased := [hd.base.toNat / 2 ^ 60] }]))) ∧
    (ready (.rcrel h) s = true →
      (hSpace hd ≠ 5 → Faults (.rcrel h) s 0x27 (pcAddr s)) ∧
      (hSpace hd = 5 → counterFull s .engine 1 = false →
        Becomes (.rcrel h) s (withWork (linesDropped s loc (fun l => l.eid == groupEid s g && decide (hLen hd ≠ 0)
          && decide (64 * l.line < hd.base.toNat + hLen hd) && decide (hd.base.toNat < 64 * l.line + 64))) loc
          [taskEntry g sl id .engine .none 0 .nothing 0 0]))) ∧
    (ready (.qstat d ch) s = true → Does (.qstat d ch) s (writeReg s d (mgetD g.chan ch.toNat 0))) ∧
    (ready (.gath h v) s = true → hSpace hd = 4 →
      let lanes := (lanesOf (live g sl) g.width).map (fun j => (j, hd.base.toNat + 16 * (vRead s loc g sl v j).toNat))
      let cov := rangesCover s g (lanes.map (fun x => (4, x.2, 16)))
      (∀ x ∈ lanes, x.2 + 16 ≤ hd.base.toNat + hLen hd ∧ x.2 % 16 = 0) → hRd hd = true →
      counterFull s .engine 1 = false → (mgetD g.queue 2 []).length < 64 →
      Becomes (.gath h v) s (withElem (withWork (withTask s (.gath loc (groupEid s g) (groupPart s g) lanes none 0)) loc
        [taskEntry g sl id .engine .none (live g sl) .wait cov cov]) loc 2
        { work := id, ready := false, last := false, header := 0, lanes := lanes.map (fun x => (x.1, [0, 0, 0, 0])), regs := 4,
          flags := 0 })) ∧
    (∀ op ty, ready (.coll op ty v desc) s = true → counterFull s .engine 1 = false → (mgetD g.queue 3 []).length < 4 →
      let x := (gRead g desc).toNat
      let tag := x / 256 % 256
      let turn := mgetD g.coll tag 0
      let wide := VTy.wide ty
      let lanes := lanesOf (live g sl) g.width
      let k : Contrib :=
        { dead := false, fzi := (getSlot g sl).fmt.getLsbD 10, fzo := (getSlot g sl).fmt.getLsbD 11, loc := loc, pend := id,
          team := g.team, index := teamIndex s g, die := locDie loc, num := g.num, op := op, ty := ty,
          extent := x % 4, bad := decide (x / 65536 ≠ 0 ∨ x / 4 % 64 ≠ 0 ∨ x % 4 = 3),
          vals := lanes.map (fun j => (j, vVal s loc g sl wide v j)), time := s.time }
      let u := withElem (withWork s loc [taskEntry g sl id .engine .none (live g sl) .wait 0x100 0]) loc 3
        { work := id, ready := false, last := false, header := 0, lanes := lanes.map (fun j => (j, if wide then [0, 0] else [0])),
          regs := if wide then 2 else 1, flags := 0 }
      let u := { u with groups := mupd u.groups loc (fun g => { g with coll := mput g.coll tag (turn + 1) }) }
      let same (w : Nat × Work) : Bool := match w.2 with
        | .coll l t n _ => l == g.launch && t == tag && n == turn
        | _ => false
      (s.work.any same = false →
        Becomes (.coll op ty v desc) s { u with work := mput s.work (id + 1) (.coll g.launch tag turn [k]), fresh := id + 2 }) ∧
      (∀ wid l t n cs, s.work.find? same = some (wid, .coll l t n cs) →
        Becomes (.coll op ty v desc) s { u with work := mput s.work wid (.coll l t n (cs ++ [k])) })) ∧
    (∀ hX hY rows cols bf x8, ready (.mvn d h hX hY rows cols bf x8) s = true →
      let x := getH g (hX.toNat - 0x58)
      let y := getH g (hY.toNat - 0x58)
      let r := (gRead g rows).toNat
      let c := (gRead g cols).toNat
      hSpace hd = 4 → hSpace x = 2 ∨ hSpace x = 3 → hSpace y = 3 → mvnFault s loc g hd x y r c bf x8 = none →
      counterFull s .engine 1 = false →
      let nB := r * mvnPitch c bf + (if bf = .fp4 then r else 0)
      let src := rangesCover s g [(4, hd.base.toNat, nB)] |||
        rangesCover s g [(hSpace x, x.base.toNat, c * (if x8 then 1 else 2))]
      let cov := rangesCover s g [(4, hd.base.toNat, nB), (hSpace x, x.base.toNat, c * (if x8 then 1 else 2)),
        (3, y.base.toNat, 4 * r)]
      let m : Mvn :=
        { loc := loc, team := g.team, part := groupPart s g, eid := groupEid s g, core := locCore loc, rows := r, cols := c,
          bf := bf, x8 := x8, b := hd.base.toNat, x := x.base.toNat, xs := hSpace x, y := y.base.toNat, toQ := d == 0,
          page := none, pageFail := none, waitAt := 0 }
      let u := withWork (withTask s (.mvn m)) loc [taskEntry g sl id .engine (toReg d) 0 .wait cov src]
      (d ≠ 0 → Becomes (.mvn d h hX hY rows cols bf x8) s u) ∧
      (d = 0 → Becomes (.mvn d h hX hY rows cols bf x8) s (withElem u loc 1
        { work := id, ready := false, last := false, header := 0, lanes := [], regs := 0, flags := 0 })))

/-- smov from a queue takes its first element when that is ready: the header goes to d and the element's registers of the live lanes
to the vector registers from the same number on, with its flags, as a deferred result on the engine counter (R194, R281 to
R283); with none ready the slot waits. -/
def Sys2Proof.Claims.QueuePop : Prop :=
  ∀ (s : State) (t : SType) (d a : Sel) (loc : Nat) (sl : Bool) (g : Group), canon s = true → Issues s loc sl g →
    selIsQ a = true → ready (.smov t d a) s = true → selIsS d = true →
    let q := a.toNat - 0x50
    let l := mgetD g.queue q []
    landOk g q d.toNat l.head? = true →
    (∀ k ∈ markedKeys s, ∀ j, j < landCount q l.head? → k ≠ 256 + d.toNat + j) → counterFull s .engine 1 = false →
    (∀ e rest, l = e :: rest → e.ready = true →
      Becomes (.smov t d a) s (withWork { s with groups := mput s.groups loc { g with queue := msetD g.queue q rest [] } } loc
        [{ taskEntry g sl s.fresh .engine (.pop d (if q = 0 then 1 else if q = 1 then 0 else if q = 2 then 4
              else e.regs)) (live g sl)
            (.value (e.lanes.filter (fun x => (live g sl).getLsbD x.1)) e.header) 0 0 with flags := e.flags }])) ∧
    ((l = [] ∨ ∃ e rest, l = e :: rest ∧ e.ready = false) → Parks (.smov t d a) s loc sl g (.pop q))

/-- The words that start an engine put their work in flight with the operands of their rule; a pop takes the head of its queue, or waits
for one (R280 to R296). -/
def Obligations.EngineWords : Prop :=
  Sys2Proof.Claims.EngineWordsIssue ∧ Sys2Proof.Claims.QueuePop

/-! ### The matrix engine -/

/-- shape answers a grant with its sizes and formats, or codes 1 to 3, and sets SHAPE and the region (R73, R295). mzero, mloop and
mdrain join the core's queue of tile words with the region of the grant; an mzero, or an mloop of no steps, whose tile has nothing
queued is performed at once (R296 to R300, R302). -/
def Sys2Proof.Claims.MatrixWords : Prop :=
  ∀ (s : State) (d m n k t a b cnt inc hM hR hC : Sel) (af bf : EFmt) (sp : Bool) (o : VTy) (sat : Bool) (loc : Nat) (sl : Bool)
    (g : Group) (c : Core), canon s = true → Issues s loc sl g → counterFull s .engine 1 = false →
    (let M := (gRead g m).toNat
     let N := (gRead g n).toNat
     let ks := (kStep af bf sp).getD 32
     let K := ((gRead g k).toNat + ks - 1) / ks * ks
     let code (x : Nat) : Nat := if x ≤ 16 then 0 else if x ≤ 32 then 1 else 2
     let refused : Nat := if M = 0 ∨ 64 < M then 1 else if N = 0 ∨ 64 < N then 2
       else if (gRead g k).toNat = 0 ∨ 65535 < K then 3 else 0
     let word : W64 := BitVec.ofNat 64 (code M + 4 * code N + 16 * ks + 2 ^ 12 * EFmt.code af + 2 ^ 16 * EFmt.code bf
       + (if sp then 2 ^ 20 else 0) + 2 ^ 32 * K + 2 ^ 63)
     let put (x : W64) (r : Nat × Nat × Nat) (v : W64) : State :=
       withWork { s with groups := mput s.groups loc { g with shape := x, region := r } } loc
         [taskEntry g sl s.fresh .engine (.scalar d) 0 (.value [] v) 0 0]
     ready (.shape d m n k af bf sp) s = true →
     (refused = 0 → Becomes (.shape d m n k af bf sp) s (put word (M, N, (gRead g k).toNat) word)) ∧
     (refused ≠ 0 → Becomes (.shape d m n k af bf sp) s (put 0 (0, 0, 0) (BitVec.ofNat 64 refused)))) ∧
    (let x := t.toNat % 32
     let work (op : MatOp) : MatWork := { id := s.fresh, loc := loc, shape := g.shape, region := g.region, op := op }
     let old (key : Nat) : W32 := mgetD c.tiles key 0
     shapeLeft g = false → g.shape.getLsbD 63 = true → mget s.cores (locCore loc) = some c → c.mat.length < 16 → tilesSettled s c →
     (ready (.mzero t) s = true →
       (tileBusy c x = true → Tiles (.mzero t) s loc sl g (c.mat ++ [work (.zero x)]) old false) ∧
       (tileBusy c x = false →
         Tiles (.mzero t) s loc sl g c.mat (fun key => if key / 4096 = x then 0 else old key) true)) ∧
     (ready (.mloop hM t a b cnt inc sp) s = true → g.shape.getLsbD 20 = sp →
       let av := (gRead g a).toNat
       let bv := (gRead g b).toNat
       let w := (gRead g cnt).toNat % 65536
       let ia := (gRead g inc).toNat % 2 ^ 32
       let ib := (gRead g inc).toNat / 2 ^ 32
       let ks := shKs g.shape
       let steps := enteringSteps w ks g.region.2.2
       let len := if steps = 0 then 0 else (steps - 1) * shM g.shape * (ks / 8) + g.region.1 * (ks / 8)
       (0 < steps → av < 2 ^ 33 ∧ bv < 2 ^ 33 ∧ ia % 64 = 0 ∧ ib % 64 = 0) →
       rangeFault s loc g 64 (opRanges (opSpace av) (opOff av) ia (64 * g.region.1) steps
         ++ opRanges (opSpace bv) (opOff bv) ib (colBytes sp * g.region.2.1) steps) = none →
       ∀ mh : Option Handle, (sp = false → mh = none) →
       (sp = true → ∃ h y z, target_ s g hM [2, 3] = some (y, z) ∧ mh = some h ∧
         h = { base := BitVec.ofNat 64 (z + y.shift), desc := BitVec.ofNat 64 (y.space * 2 ^ 40) } ∧
         (0 < steps → y.rd = true ∧ z + len ≤ y.hi) ∧
         rangeFault s loc g 1 ((List.range steps).map (fun j =>
           (hSpace h, h.base.toNat + j * shM g.shape * (ks / 8), g.region.1 * (ks / 8)))) = none) →
       let op := MatOp.loop x av bv ia ib 0 w mh sp
       (0 < w ∨ tileBusy c x = true → Tiles (.mloop hM t a b cnt inc sp) s loc sl g (c.mat ++ [work op]) old false) ∧
       (w = 0 → tileBusy c x = false → Tiles (.mloop hM t a b cnt inc sp) s loc sl g c.mat old true)) ∧
     (let scale (h : Sel) (n : Nat) (r : Option (Nat × Nat)) : Prop := (h = 0 ∧ r = none) ∨ (h ≠ 0 ∧ ∃ y z,
        target_ s g h [2, 3] = some (y, z) ∧ y.rd = true ∧ z + n ≤ y.hi ∧
        rangeFault s loc g 1 [(y.space, z + y.shift, n)] = none ∧ r = some (y.space, z + y.shift))
      ready (.mdrain t hR hC o sat) s = true → ∀ r q, scale hR g.region.1 r → scale hC g.region.2.1 q →
       Tiles (.mdrain t hR hC o sat) s loc sl g (c.mat ++ [work (.drain x r q none o sat 0)]) old false))

/-- A K-step adds to each element of the requested region the exact sum of its products and its old value, rounded once, with the
flags of all elements; every other element of every tile stays (R100, R299 to R301). A drain's step pushes one row in 64 / width
elements of q0 with headers (R101, R302). Each operation leaves the queue after its last step. -/
def Sys2Proof.Claims.MatrixSteps : Prop :=
  ∀ (s : State) (w : MatWork) (g : Group) (c : Core) (core : Nat), canon s = true →
    mget s.groups w.loc = some g → core = locCore w.loc →
    mget s.cores core = some c → mwf (0 : W32) c.tiles = true → tilesSettled s c → w ∈ c.mat → firstOnTile c.mat w = true →
    sourceReady g w.id = true → w.region.1 ≤ 64 → w.region.2.1 ≤ 64 →
    let bytes (sp off n : Nat) : List Byte := (spaceLocs s w.loc g sp off n).map (readLoc s)
    let rest := c.mat.filter (fun x => x.id != w.id)
    let alone : Prop := ∀ x ∈ rest, MatOp.tile x.op ≠ MatOp.tile w.op
    (∀ t a b ia ib step cnt mh sp, w.op = .loop t a b ia ib step cnt mh sp → step < cnt →
      let ks := shKs w.shape
      let hit (i j : Nat) : W32 × Nat :=
        accStep (mgetD c.tiles (4096 * t + 64 * i + j) 0) (stepProducts (shAf w.shape) (shBf w.shape)
          (bytes (opSpace a) (opOff a + step * ia + 64 * i) 64)
          (bytes (opSpace b) (opOff b + step * ib + colBytes sp * j) (colBytes sp))
          (enters sp ks step w.region.2.2 (match sp, mh with
            | true, some h => bytes (hSpace h) (h.base.toNat + step * shM w.shape * (ks / 8) + i * (ks / 8)) (ks / 8)
            | _, _ => [])))
      let enters_ : Bool := decide (step < enteringSteps cnt ks w.region.2.2)
      (mh.isSome = sp) →
      ∃ u g' c', exec (.mloopKStep core w.id) s = .next u ∧ mget u.groups w.loc = some g' ∧ mget u.cores core = some c' ∧
        (∀ i j, i < w.region.1 → j < w.region.2.1 → mgetD c'.tiles (4096 * t + 64 * i + j) 0 =
          if enters_ then (hit i j).1 else mgetD c.tiles (4096 * t + 64 * i + j) 0) ∧
        (∀ key, (∀ i j, i < w.region.1 → j < w.region.2.1 → key ≠ 4096 * t + 64 * i + j) →
          mgetD c'.tiles key 0 = mgetD c.tiles key 0) ∧
        g'.flags = g.flags ||| BitVec.ofNat 64 (if enters_ then (List.range w.region.1).foldl (fun f i =>
          (List.range w.region.2.1).foldl (fun f j => f ||| (hit i j).2) f) 0 else 0) ∧
        g'.s = g.s ∧ g'.v = g.v ∧ g'.queue = g.queue ∧
        (step + 1 < cnt → c'.mat = c.mat.map (fun x => if x.id = w.id then
          { x with op := .loop t a b ia ib (step + 1) cnt mh sp } else x) ∧ g'.pend = g.pend) ∧
        (step + 1 = cnt → alone → c'.mat = rest ∧ g'.pend = markReturned g.pend w.id) ∧
        ∀ l, readLoc u l = readLoc s l) ∧
    (∀ t r q sc o sat i, w.op = .drain t r q sc o sat i → 0 < g.width →
      (∀ x ∈ c.mat.takeWhile (fun x => x.id != w.id), x.loc = w.loc → ∀ a1 a2 a3 a4 a5 a6 a7, x.op ≠ .drain a1 a2 a3 a4 a5 a6 a7) →
      let old := mgetD g.queue 0 []
      (∀ e ∈ old, e.work = w.id → e.ready = true) → old.length + 64 / g.width ≤ 256 →
      let rs := (sc.getD (scaleBytes s w.loc g r w.region.1, scaleBytes s w.loc g q w.region.2.1)).1
      let cs := (sc.getD (scaleBytes s w.loc g r w.region.1, scaleBytes s w.loc g q w.region.2.1)).2
      ∃ u g' c' es, exec (.mdrainRowPush core w.id) s = .next u ∧ mget u.groups w.loc = some g' ∧ mget u.cores core = some c' ∧
        mgetD g'.queue 0 [] = old ++ es ∧ es.length = 64 / g.width ∧
        (∀ p e, es[p]? = some e → e.ready = true ∧
          e.last = decide (i + 1 = shM w.shape ∧ p + 1 = 64 / g.width) ∧
          e.header = BitVec.ofNat 64 (i + 64 * p + 256 * t + (if i + 1 = shM w.shape ∧ p + 1 = 64 / g.width then 2 ^ 13 else 0)
            + 2 ^ 16 * VTy.code o) ∧
          ∀ n, n < g.width → e.lanes[n]? = some (n, [BitVec.ofNat 32 (let j := p * g.width + n
            if i < w.region.1 ∧ j < w.region.2.1 then
              (drainElem o sat (mgetD c.tiles (4096 * t + 64 * i + j) 0) rs[i]? cs[j]?).1 % 2 ^ fbits o
            else 0)])) ∧
        c'.tiles = c.tiles ∧ g'.s = g.s ∧ g'.v = g.v ∧ g'.flags = g.flags ∧
        (i + 1 ≠ shM w.shape → c'.mat = c.mat.map (fun x => if x.id = w.id then
          { x with op := .drain t r q (some (rs, cs)) o sat (i + 1) } else x) ∧ g'.pend = g.pend) ∧
        (i + 1 = shM w.shape → alone → c'.mat = rest ∧ g'.pend = markReturned g.pend w.id) ∧
        ∀ l, readLoc u l = readLoc s l)

/-- The matrix words enter the core's queue, and the engine performs its operations step by step (R295 to R302). The scale byte
0xFF of a DL8 drain and CADDR of a misaligned increment follow logs 73 and 84. -/
def Obligations.MatrixEngine : Prop :=
  Sys2Proof.Claims.MatrixWords ∧ Sys2Proof.Claims.MatrixSteps

/-! ### Engine completions -/

/-- A copy of any number of dimensions between device memory, shared memory and scratch, with no conversion or one whose elements are whole
bytes, moves its elements, all read before any is written, and touches no other byte; it then gives its status (done, channel, bytes) to
its channel and register (R284, R286, R288 to R290). The signal of a copy is added to its word before that. A rejected copy reports its
error and moves nothing (R287). A counted copy's line is filled with the 64 bytes of its device line, as they were when the copy began
where an inbound write has replaced them (R162), or poisoned when that fails to verify (R130); once no line is Filling the copy ends. -/
def Sys2Proof.Claims.CopiesComplete : Prop :=
  ∀ (s : State) (c : Copy) (p : Pend) (loc : Nat) (g : Group), canon s = true → mget s.work p.id = some (.copy c) →
    let t := c.tmpl
    let done (v : Nat) : Late :=
      { id := p.id, chan := some c.chan, status := BitVec.ofNat 64 (1 + 16 * (c.chan % 16) + v), lanes := [], flags := 0, queue := none }
    let gone (u : State) : State := { u with work := mdel u.work p.id }
    (∀ x, c.owner = .group x → Owns s loc g p → copyMoves s p.id c = true →
      (c.err = 1 ∨ c.err = 2 → ∃ u, exec (.copyCompletion p.id) s = .next u ∧
        plain u = plain (delivered (gone s) loc (done (256 * c.err)) p.dst) ∧ ∀ l, readLoc u l = readLoc s l) ∧
      (let ssz := srcBits t / 8
       let dsz := dstBits t / 8
       let es := copyElems t (c.arg.headD 0).toNat (c.arg.getD 1 0).toNat
       c.err = 0 → c.buf = none → c.sent = none → c.page = none → c.pageFail = none → c.moved = [] → c.held = [] → c.fin = none →
       c.old = [] → c.wrote = 0 → c.bad = [] → c.merge = false → tReaders t = 0 → tSignal t = false →
       tConv t ≤ 12 → tConv t ≠ 5 → tConv t ≠ 11 → (∀ d, d < 4 → (tCount t d = 0 ↔ tNdim t < d)) →
       tSrck t ∈ [1, 2, 3] → tDstk t ∈ [1, 2, 3] →
       ∀ (from_ dest : List (List MLoc)), from_.length = es.length → dest.length = es.length →
       (∀ (j : Nat) e x y, es[j]? = some e → from_[j]? = some x → dest[j]? = some y → x.length = ssz ∧ y.length = dsz ∧
         (∀ (b : Nat) l, x[b]? = some l → copyReaches s c (tSrck t) false (e.1 + b) l) ∧
         (∀ (b : Nat) l, y[b]? = some l → copyReaches s c (tDstk t) true (e.2 + b) l)) →
       dest.flatten.Nodup → (∀ x ∈ dest.flatten, locThere s x = true) →
       let w := (dest.zip from_).flatMap (fun q => q.1.zip (copyElem t (q.2.map (readLoc s))))
       ∃ u, exec (.copyCompletion p.id) s = .next u ∧
         plain { u with badLines := s.badLines } =
           plain (delivered (gone (dropQuanta (writeLocs s w) dest.flatten)) loc (done (2 ^ 24 * (es.length * dsz))) p.dst) ∧
         (∀ (j : Nat) x y, dest[j]? = some x → from_[j]? = some y → x.map (readLoc u) = copyElem t (y.map (readLoc s))) ∧
         ∀ l, l ∉ dest.flatten → readLoc u l = readLoc s l) ∧
      (∀ bytes badsec err, c.err ≠ 1 → c.err ≠ 2 → c.fin = some (bytes, badsec, err) → tSignal t = true → c.pageFail = none →
       ∀ pa : List Nat, pa.length = 8 → pa.Nodup → (∀ (j : Nat) x, pa[j]? = some x →
         lineOk s x = true ∧ ∃ k, translate s (copyCtx s c) ((c.arg.getD 4 0).toNat + j) .atomic false = (.ok x k, s)) →
       let ls := pa.map MLoc.hbm
       let v := leNat (ls.map (readLoc s)) + (c.arg.getD 5 0).toNat
       ∃ u, exec (.copyCompletion p.id) s = .next u ∧
         plain { u with badLines := s.badLines } = plain (delivered (gone (dropQuanta (writeLocs s (ls.zip (leBytes 8 v))) ls)) loc
           (done (256 * err + 65536 * min badsec 255 + 2 ^ 24 * bytes)) p.dst) ∧
         leNat (ls.map (readLoc u)) = v % 2 ^ 64 ∧ ∀ l, l ∉ ls → readLoc u l = readLoc s l) ∧
      (c.err ≠ 1 → c.err ≠ 2 → c.fin = none → 0 < tReaders t → tSignal t = false → fillingOf s (coreDie c.core) p.id = [] →
       ∃ u, exec (.copyCompletion p.id) s = .next u ∧
         plain u = plain (delivered (gone s) loc (done (256 * (if c.err ≠ 0 then c.err else if c.badsec ≠ 0 then 6 else 0)
           + 65536 * min c.badsec 255 + 2 ^ 24 * (64 * c.filled))) p.dst) ∧
         ∀ l, readLoc u l = readLoc s l)) ∧
    (∀ (die pa way : Nat) (kind : Kind) (l : CLine) (rest : List CLine) (s1 : State), coreDie c.core = die → 0 < tReaders t → c.err = 0 →
      c.page = none → c.pageFail = none → mayBegin s p.id c = true → (∀ y h, pendLoc s p.id = some y → mget s.groups y = some h → sourceReady h p.id = true) →
      fillingOf s die p.id = l :: rest → (mget s.dies die).isSome = true →
      (l.way < 16 ∧ way = l.way ∨ 16 ≤ l.way ∧ freeWay s die c.part l.line = some way) →
      translate s (copyCtx s c) (64 * l.line) .read false = (.ok pa kind, s1) →
      let put (x : CLine) : List CLine := (linesOf s die).map (fun y =>
        if y.copy = p.id ∧ y.line = l.line ∧ y.st = .filling then x else y)
      (lineOk s1 pa = true → ∃ u, exec (.countedFillComplete die p.id) s = .next u ∧
        linesOf u die = put { l with st := .counted, way := way,
                                      data := (List.range 64).map (fun j => mgetD c.old (pa + j) (readByte s1.hbm (pa + j))) } ∧
        mget u.work p.id = some (.copy { c with filled := c.filled + 1, begun := true }) ∧ u.groups = s.groups ∧
        ∀ m, readLoc u m = readLoc s1 m) ∧
      (lineOk s1 pa = false → ∃ u, exec (.countedFillComplete die p.id) s = .next u ∧
        linesOf u die = put { l with st := .poisoned, way := way } ∧
        mget u.work p.id = some (.copy { c with badsec := c.badsec + 4, begun := true }) ∧ u.groups = s.groups ∧
        ∀ m, readLoc u m = readLoc s1 m))

/-- A swap turns the front of its alias once the group's earlier writes to its buffers have returned, a quantum boundary (R152, R158); a near-memory product writes its rows
and delivers its status; a gather delivers the sixteen bytes of each lane's sector; a collective of any number of contributions that agree
delivers their combination over its die, package or module to each contributing group; contributions that differ in operation, type or
extent, or are malformed, get err 0x02, those whose stream has failed 0x07 (R283, R304 to R306, R468, R469). -/
def Sys2Proof.Claims.EnginesComplete : Prop :=
  ∀ (s : State) (p : Pend) (loc : Nat) (g : Group), canon s = true → Owns s loc g p →
    let gone (u : State) : State := { u with work := mdel u.work p.id }
    (∀ l team e t, mget s.work p.id = some (.pub l team e) → writesLeft s loc g (aliasOf s team e) p.id = false → acquireLeft g p.id = false →
      mget s.teams team = some t →
      alValid (mgetD t.aliased e noAlias) = true → alShadow (mgetD t.aliased e noAlias) = true →
      ∃ u t', exec (.pubSwap p.id) s = .next u ∧ mget u.teams team = some t' ∧
        (let x := mgetD t.aliased e noAlias
         let y := mgetD t'.aliased e noAlias
         alFront y = !alFront x ∧ y.bufa = x.bufa ∧ y.bufb = x.bufb ∧ alLen y = alLen x ∧ alSpace y = alSpace x ∧
         alValid y = true ∧ alShadow y = true) ∧
        (∀ e', e' ≠ e → mgetD t'.aliased e' noAlias = mgetD t.aliased e' noAlias) ∧
        u.quanta = s.quanta.map (fun q =>
          if (match q.locs with | .shared t _ :: _ => t == g.team | .array d _ :: _ => d == locDie loc | _ => false)
              && (bufferRanges (aliasOf s team e)).any (fun r => coversAny (some r) q)
          then { q with seen := mput q.seen (quantumWho g) q.apps.length } else q) ∧
        plain { u with teams := s.teams, quanta := s.quanta } = plain (delivered (gone s) loc
          { id := p.id, chan := none, status := 0, lanes := [], flags := 0, queue := none } .none) ∧
        ∀ l, readLoc u l = readLoc s l) ∧
    (∀ (m : Mvn) (s1 : State) rows bad fl err, mget s.work p.id = some (.mvn m) → sourceReady g p.id = true → m.page = none →
      (m.toQ = true → ((mgetD g.queue 1 []).take 16).any (fun e => e.work == p.id) = true) →
      let place (u : State) (j : Nat) : MLoc := scratchLoc u (coreDie m.core) m.part j
      mvnScan m ((List.range (m.cols * (if m.x8 then 1 else 2))).map (fun j =>
        readLoc s (if m.xs = 2 then .shared m.team (m.x + j) else place s (m.x + j)))) (List.range m.rows) s [] [] 0 =
        (.ready rows bad fl err, s1) → s1.groups = s.groups → s1.fwd = s.fwd →
      let w := rows.flatMap (fun r => ((List.range 4).map (fun j => place s1 (m.y + 4 * r.1 + j))).zip
        ((List.range 4).map (fun j => BitVec.ofNat 8 (r.2 / 2 ^ (8 * j)))))
      let code := if err ≠ 0 then err else if bad = [] then 0 else 6
      ∃ u, exec (.mvnCompletion p.id) s = .next u ∧
        plain u = plain (delivered (gone (dropQuanta (writeLocs s1 w) (w.map (·.1)))) loc
          { id := p.id, chan := none,
            status := BitVec.ofNat 64 (3 + 256 * code + 65536 * min bad.eraseDups.length 255 + 2 ^ 24 * (4 * rows.length)),
            lanes := [], flags := fl, queue := if m.toQ then some 1 else none } p.dst) ∧
        ∀ l, l ∉ w.map (·.1) → readLoc u l = readLoc s1 l) ∧
    (∀ l eid part (lanes : List (Nat × Nat × Nat)), mget s.work p.id = some
        (.gath l eid part (lanes.map (fun x => (x.1, x.2.1))) none 0) → sourceReady g p.id = true → p.dst = .none →
      (∀ x ∈ lanes, ∃ k, translate s (encCtx s eid) x.2.1 .read false = (.ok x.2.2 k, s)) →
      ∃ u, exec (.gatherCompletion p.id) s = .next u ∧
        plain u = plain (delivered (gone s) loc
          { id := p.id, chan := none,
            status := (lanes.filter (fun x => !lineOk s x.2.2)).foldl (fun a x => a ||| BitVec.ofNat 64 (2 ^ x.1)) 0,
            lanes := lanes.map (fun x => (x.1, (List.range 4).map (fun j =>
              if lineOk s x.2.2 then BitVec.ofNat 32 (readLe s.hbm (x.2.2 + 4 * j) 4) else 0))),
            flags := 0, queue := some 2 } .none) ∧ ∀ m, readLoc u m = readLoc s m) ∧
    (∀ id launch tag n (cs : List Contrib) (k : Contrib) (l : Launch), mget s.work id = some (.coll launch tag n cs) → k ∈ cs →
      contributionsWait s cs → (∀ x ∈ cs, x.pend ≠ id) → mget s.launches launch = some l →
      let agree : Prop := ∀ x ∈ cs, x.bad = false ∧ x.op = k.op ∧ x.ty = k.ty ∧ x.extent = k.extent
      let full (v : Nat → Option Nat × Nat) : Contrib → Late :=
        collResult 0 (fun j => if j < l.width then (v j).1.getD 0 else 0) ((List.range l.width).foldl (fun a j => a ||| (v j).2) 0)
      let fzo := collFzo id cs
      let ends (f : Contrib → Late) (w : State) : Prop :=
        ∃ u, exec (.collectiveCompletion id) s = .next u ∧ plain u = plain (allDelivered w f cs) ∧ ∀ m, readLoc u m = readLoc s m
      let w : State := { (if l.cores then shiftPower s launch cs else s) with work := mdel s.work id }
      let all : Prop := ∀ i, i < l.gx * l.gy * l.gz → teamIn s launch l cs i = true
      (¬ agree → (∀ x ∈ cs, ∃ y ∈ cs, y.die = x.die ∧ y.extent ≠ 0) ∨ (∃ d, ∀ x ∈ cs, x.die = d ∧ x.extent = 0) →
        ends (collResult 2 (fun _ => 0) 0) s) ∧
      (agree → k.extent = 0 → (∀ x ∈ cs, x.die = k.die) → l.gx * l.gy * l.gz ≤ l.next →
        (∀ i ∈ dieTeamsOf l cs k.die, teamIn s launch l cs i = true) →
        ends (full (dieLane fzo l k.op k.ty cs k.die)) { s with work := mdel s.work id }) ∧
      (agree → k.extent = 1 → all → ends (full (packageLane fzo l k.op k.ty cs)) w) ∧
      (agree → k.extent = 2 → all → (∃ x ∈ cs, x.dead = true) → ends (collResult 7 (fun _ => 0) 0) w) ∧
      (agree → k.extent = 2 → all → (∀ x ∈ cs, x.dead = false) →
        (∀ e, collectiveSet s l.eid = .error e → ends (collResult e (fun _ => 0) 0) w) ∧
        (∀ ranks self, collectiveSet s l.eid = .ok (ranks, self) →
          ends (full (fun j => moduleLane fzo ranks self s.fresh k.op k.ty (packageLane fzo l k.op k.ty cs j) j))
            { w with fresh := s.fresh + 1 })))

/-- Copies and the other engines complete: the bytes they move, the results they deliver, and the status they answer (R284 to
R306). As far as no earlier turn has moved it, data moves in the step of the completion (log 3). Peers' values are free (log 26),
and so are an fzo that contributions differ in (log 73) and a withheld gain (log 40). -/
def Obligations.EngineCompletion : Prop :=
  Sys2Proof.Claims.CopiesComplete ∧ Sys2Proof.Claims.EnginesComplete

/-! ### Barriers, waits, the register pool, regroup -/

/-- An arrival of a group whose other slot takes no part counts the group, and completes the phase when its condition holds: bar then
goes on, or its slot waits for the phase; arrive goes on with the token (R308 to R310). One that R310 forbids raises
BARRIER_MISUSE; one while an earlier access is left stalls (R154); with the other slot still to arrive the slot waits for it, and one that
differs from the word in which the other slot waits raises BARRIER_MISUSE (R309).
await goes on when the token's phase is past, waits when it is the current one, and faults otherwise; its token is read
once. -/
def Sys2Proof.Claims.Barriers : Prop :=
  ∀ (s : State) (b : BitVec 4) (cnt : BitVec 6) (d a : Sel) (loc : Nat) (sl : Bool) (g : Group) (t : Team), canon s = true →
    Issues s loc sl g → mget s.teams g.team = some t → mrising none t.bars = true → g.num < 64 →
    let o := getSlot g (!sl)
    let after := barAfter s g b.toNat cnt.toNat
    let tok : W64 := BitVec.ofNat 64 (b.toNat * 2 ^ 32 + (teamBar s g.team b.toNat).phase)
    let past := withBar s g.team b.toNat after.1
    let fresh : Prop := ∀ x y z, (getSlot g sl).wait ≠ .barrier x y z
    let alone : Prop := o.st = .free ∨ o.st = .joined ∨ o.st = .lent
    let unpaired : Prop := (∀ x y z, o.wait ≠ .pair x y z) ∧ ∀ x y z, o.wait = .barrier x y (some z) → (teamBar s g.team x).phase ≠ y
    let apart (z : Bool) : Prop := (∃ x y w, o.wait = .pair x y w ∧ (x ≠ b.toNat ∨ y ≠ cnt.toNat ∨ w.isSome ≠ z)) ∨
      ∃ x y, o.wait = .barrier x (teamBar s g.team x).phase (some y)
    let waits (v : Option Nat) : State :=
      { (setGroup past loc (setSlot (noteChange g sl) sl { getSlot (noteChange g sl) sl with
          wait := .barrier b.toNat (teamBar s g.team b.toNat).phase v, held := false })) with last := .parked }
    (ready (.bar b cnt) s = true → fresh →
      (alone → accessesLeft g = false → mayArrive s g b.toNat cnt.toNat →
        (after.2 = true → Does (.bar b cnt) s past) ∧
        (after.2 = false → exec (.bar b cnt) s = .next (waits (some cnt.toNat)))) ∧
      (alone → accessesLeft g = false → ¬ mayArrive s g b.toNat cnt.toNat → Faults (.bar b cnt) s 0x81 (pcAddr s)) ∧
      (alone → accessesLeft g = true → Stalls (.bar b cnt) s loc sl g) ∧
      (¬ alone → apart false → Faults (.bar b cnt) s 0x81 (pcAddr s)) ∧
      (¬ alone → unpaired → Parks (.bar b cnt) s loc sl g (.pair b.toNat cnt.toNat none))) ∧
    (∀ x ph z, (getSlot g sl).wait = .barrier x ph z →
      ((teamBar s g.team x).phase ≠ ph → (ready (.bar b cnt) s = true → Does (.bar b cnt) s s) ∧
        (ready (.await a b) s = true → Does (.await a b) s s)) ∧
      ((teamBar s g.team x).phase = ph → (ready (.bar b cnt) s = true → Parks (.bar b cnt) s loc sl g (.barrier x ph z)) ∧
        (ready (.await a b) s = true → Parks (.await a b) s loc sl g (.barrier x ph z)))) ∧
    (ready (.arrive d b cnt) s = true → fresh →
      (alone → accessesLeft g = false → mayArrive s g b.toNat cnt.toNat → Does (.arrive d b cnt) s (writeReg past d tok)) ∧
      (alone → accessesLeft g = false → ¬ mayArrive s g b.toNat cnt.toNat → Faults (.arrive d b cnt) s 0x81 (pcAddr s)) ∧
      (alone → accessesLeft g = true → Stalls (.arrive d b cnt) s loc sl g) ∧
      (¬ alone → apart true → Faults (.arrive d b cnt) s 0x81 (pcAddr s)) ∧
      (¬ alone → unpaired → Parks (.arrive d b cnt) s loc sl g (.pair b.toNat cnt.toNat (some d)))) ∧
    (ready (.await a b) s = true → fresh →
      let v := (gRead g a).toNat
      let p := (teamBar s g.team b.toNat).phase
      let bad : Prop := v / 2 ^ 36 ≠ 0 ∨ v / 2 ^ 32 % 16 ≠ b.toNat ∨ 2 ^ 31 ≤ (p + 2 ^ 32 - v % 2 ^ 32) % 2 ^ 32
      (bad → Faults (.await a b) s 0x81 (pcAddr s)) ∧
      (¬ bad → p ≠ v % 2 ^ 32 → Does (.await a b) s s) ∧
      (¬ bad → p = v % 2 ^ 32 → Parks (.await a b) s loc sl g (.barrier b.toNat p none)))

/-- mwait reads its location: a value that differs from the compared one goes on with the value in d; else the slot waits with its
deadline, and a wait that has ended, by a wake or past its deadline, goes on with the value that the location then has, without further
checks (R313). MWAIT_TIMEOUT ends a wait past its deadline. yield goes on at once with PREQ 0; with PREQ 1 it clears PREQ and leaves its
group to its save with the registers that it keeps (R71, R319). -/
def Sys2Proof.Claims.WaitsAndYields : Prop :=
  (∀ (s : State) (d base c : Sel) (w64 scr : Bool) (off : BitVec 10) (tm : BitVec 12) (loc : Nat) (sl : Bool) (g : Group),
    canon s = true → Issues s loc sl g → ready (.mwait d base c w64 scr off tm) s = true →
    let i : Instr := .mwait d base c w64 scr off tm
    let n := if w64 then 8 else 4
    let want := (gRead g c).toNat % 2 ^ (8 * n)
    (∀ l x dl k, (getSlot g sl).wait = .mwait l x dl k →
      let ends : Prop := k = true ∨ ∃ e, dl = some e ∧ e ≤ s.time
      (ends → Does i s (writeReg s d (BitVec.ofNat 64 (leNat (l.map (readLoc s)))))) ∧
      (¬ ends → Parks i s loc sl g (.mwait l x dl k))) ∧
    (∀ (t : Target) (b : Nat) (locs : List MLoc) (k : Kind) (at_ : Nat), (∀ l x dl k, (getSlot g sl).wait ≠ .mwait l x dl k) →
      target_ s g base [if scr then 3 else 2] = some (t, b) →
      laneAccess s loc g sl t true false 0 ((b + off.toNat : Nat) : Int) n = (.ok locs k at_, s) →
      shrinkHolds s loc g t.space at_ n = false → watchHit s g t true false n [(0, .ok locs k at_)] = none →
      (∀ p ∈ g.pend, p.returned = false → ∀ l ∈ pendLocs p, l ∉ locs) →
      let v := leNat (locs.map (readLoc s))
      (v ≠ want → Does i s (writeReg s d (BitVec.ofNat 64 v))) ∧
      (v = want → Parks i s loc sl (setSlot g sl { getSlot g sl with loaded := locs ++ (getSlot g sl).loaded }) (.mwait locs want (if tm = 0 then none else some (s.time + 1024 * tm.toNat)) false)))) ∧
  (∀ (s : State) (loc : Nat) (slot : Bool) (g : Group) l v dl x, canon s = true → mget s.groups loc = some g →
    (getSlot g slot).wait = .mwait l v (some dl) x →
    exec (.mwaitTimeout loc slot) s = .next
      (setGroup s loc (if dl ≤ s.time then setSlot g slot { getSlot g slot with wait := .mwait l v (some dl) true } else g))) ∧
  (∀ (s : State) (a : Sel) (n : BitVec 9) (loc : Nat) (sl : Bool) (g : Group), canon s = true → Issues s loc sl g →
    ready (.yield a n) s = true →
    let k := min 256 (if a = 0 then n.toNat else (gRead g a).toNat)
    (g.preq = false → Does (.yield a n) s s) ∧
    (g.preq = true → Does (.yield a n) s
      (setGroup s loc { g with yielding := true, preq := false, keep := min ((k + 7) / 8 * 8) g.allot, stop := .saving })))

/-- Barriers, waits on memory and yields: who waits, what releases them, and the tokens and phases (R307 to R319). mwait reads
again after its wake (log 41). -/
def Obligations.BarriersAndWaits : Prop :=
  Sys2Proof.Claims.Barriers ∧ Sys2Proof.Claims.WaitsAndYields

/-- regclm takes 8 n registers from the pool, or waits in the core's list; regrel gives them back; role moves the group to its entry
with the entry's allotment and class (R57, R314 to R316). Sizes out of range raise ILLEGAL_REG, a role that R316 forbids
BARRIER_MISUSE. CLAIM_GRANT grants the oldest claim when it fits. -/
def Sys2Proof.Claims.PoolWords : Prop :=
  ∀ (s : State) (n : BitVec 6) (a : Sel) (r : BitVec 4) (loc : Nat) (sl : Bool) (g : Group) (c : Core), canon s = true →
    Issues s loc sl g → mget s.cores (locCore loc) = some c →
    let blocks (u : Nat) : Nat := u * g.width / 16
    let core (x : Core) (h : Group) : State :=
      { s with cores := mput s.cores (locCore loc) x, groups := mput s.groups loc h }
    let listed (k : Claim) : State :=
      { (core { c with claims := c.claims ++ [k] } (setSlot g sl { getSlot g sl with wait := .claim, held := false })) with last := .parked }
    (ready (.regclm n) s = true → (getSlot g sl).wait ≠ .claim →
      let k : Claim := { loc := loc, slot := sl, role := none, dest := g.allot + 8 * n.toNat }
      (256 < g.allot + 8 * n.toNat → Faults (.regclm n) s 0x41 (pcAddr s)) ∧
      (g.allot + 8 * n.toNat ≤ 256 → lendsOrHolds g = true → Faults (.regclm n) s 0x81 (pcAddr s)) ∧
      (g.allot + 8 * n.toNat ≤ 256 → lendsOrHolds g = false → c.claims = [] → blocks n.toNat ≤ c.free →
        Does (.regclm n) s (core { c with free := c.free - blocks n.toNat } { g with allot := g.allot + 8 * n.toNat })) ∧
      (g.allot + 8 * n.toNat ≤ 256 → lendsOrHolds g = false → c.claims ≠ [] ∨ c.free < blocks n.toNat →
        exec (.regclm n) s = .next (listed k))) ∧
    (ready (.regrel n) s = true →
      (g.allot < 8 * n.toNat → Faults (.regrel n) s 0x41 (pcAddr s)) ∧
      (8 * n.toNat ≤ g.allot → lendsOrHolds g = true → Faults (.regrel n) s 0x81 (pcAddr s)) ∧
      (8 * n.toNat ≤ g.allot → lendsOrHolds g = false → dstAbove s g (g.allot - 8 * n.toNat) = true → Stalls (.regrel n) s loc sl g) ∧
      (8 * n.toNat ≤ g.allot → lendsOrHolds g = false → dstAbove s g (g.allot - 8 * n.toNat) = false → c.claims = [] →
        Does (.regrel n) s (core { c with free := c.free + blocks n.toNat }
          { g with allot := g.allot - 8 * n.toNat, v := g.v.filter (fun e => decide (e.1 < 64 * (g.allot - 8 * n.toNat))) }))) ∧
    (ready (.role a r) s = true → (getSlot g sl).wait ≠ .claim →
      let i := if a = 0 then r.toNat else (gRead g a).toNat
      ((rolesOf s g)[i]? = none → Faults (.role a r) s 0x81 (pcAddr s)) ∧
      (∀ pc new cls, (rolesOf s g)[i]? = some (pc, new, cls) →
        let free : Prop := (getSlot g (!sl)).st = .free ∧ g.stack = [] ∧ lendsOrHolds g = false
        let there (x : Core) (h : Group) : Prop := ∃ t, exec (.role a r) s = .next t ∧
          plain t = plain (core x (setSlot { h with base := cls } sl { getSlot g sl with pc := pc, exec := (getSlot g sl).pm }))
        (¬ free → Faults (.role a r) s 0x81 (pcAddr s)) ∧
        (free → new = g.allot → there c g) ∧
        (free → new < g.allot → dstAbove s g new = true → Stalls (.role a r) s loc sl g) ∧
        (free → new < g.allot → dstAbove s g new = false → c.claims = [] →
          there { c with free := c.free + blocks ((g.allot - new) / 8) }
            { g with allot := new, v := g.v.filter (fun e => decide (e.1 < 64 * new)) }) ∧
        (free → g.allot < new → c.claims = [] → blocks ((new - g.allot) / 8) ≤ c.free →
          there { c with free := c.free - blocks ((new - g.allot) / 8) } { g with allot := new }) ∧
        (free → g.allot < new → c.claims ≠ [] ∨ c.free < blocks ((new - g.allot) / 8) →
          exec (.role a r) s = .next (listed { loc := loc, slot := sl, role := some i, dest := new })))) ∧
    (∀ k, c.claims = [k] → k.loc = loc → g.stepping = false →
      (c.free < blocks ((k.dest - g.allot) / 8) → exec (.claimGrant (locCore loc)) s = .next s) ∧
      (blocks ((k.dest - g.allot) / 8) ≤ c.free → k.role = none → ∃ t, exec (.claimGrant (locCore loc)) s = .next t ∧
        plain t = plain (core { c with claims := [], free := c.free - blocks ((k.dest - g.allot) / 8) }
          (setSlot { g with allot := k.dest } k.slot { getSlot g k.slot with pc := (getSlot g k.slot).pc + 8 }))) ∧
      (∀ n pc new cls, blocks ((k.dest - g.allot) / 8) ≤ c.free → k.role = some n → (rolesOf s g)[n]? = some (pc, new, cls) →
        ∃ t, exec (.claimGrant (locCore loc)) s = .next t ∧
        plain t = plain (core { c with claims := [], free := c.free - blocks ((k.dest - g.allot) / 8) }
          (setSlot { g with allot := k.dest, base := cls } k.slot
            { getSlot g k.slot with pc := pc, exec := (getSlot g k.slot).pm }))))

/-- regroup of the only group of a team goes on at its target with its whole path; the last of two groups of one core with equal
allotment and disjoint paths lends its lanes to the lower-numbered one, which goes on with both paths; one that is not the last waits
(R43, R312, R318). -/
def Sys2Proof.Claims.RegroupMerges : Prop :=
  ∀ (s : State) (off : W32) (loc : Nat) (sl : Bool) (g : Group) (t : Team), canon s = true → ready (.regroup off) s = true →
    Issues s loc sl g → mget s.teams g.team = some t → g.handler = false → (getSlot g (!sl)).st = .free →
    let p := getSlot g sl
    let goal := branchTo s off
    (g.donors.length = 31 → ∃ u, exec (.regroup off) s = .next u ∧ plain u = plain (writePc s goal)) ∧
    (g.donors = [] → t.groups = [loc] → t.retired = 0 → ∃ u, exec (.regroup off) s = .next u ∧
      plain u = plain (setGroup s loc (setSlot g sl { p with st := .running, pc := goal, exec := p.pm, target := goal }))) ∧
    (∀ l0 h, t.groups = [l0, loc] → t.retired = 0 → l0 ≠ loc → mget s.groups l0 = some h → h.num = 0 → g.num = 1 →
      locCore l0 = locCore loc → h.allot = g.allot → g.donors = [] → h.donors = [] → h.stack = [] → h.stackNewer = false → h.slot1.st = .free → h.slot0.lent = [] →
      p.lent = [] →
      (h.slot0.st = .regrouping → h.slot0.target = goal → h.slot0.pm &&& p.pm = 0 → p.pm ≠ 0 →
        ∃ u g' h', exec (.regroup off) s = .next u ∧ mget u.groups loc = some g' ∧ mget u.groups l0 = some h' ∧
          (getSlot g' sl).st = .lent ∧ (getSlot g' sl).pm = 0 ∧ h'.slot0.st = .running ∧ h'.slot0.pc = goal ∧
          h'.slot0.pm = h.slot0.pm ||| p.pm ∧ h'.slot0.exec = h.slot0.pm ||| p.pm ∧ h'.slot0.lent = [(1, p.pm)] ∧
          h'.donors = [{ g := 1, slot := sl, mask := p.pm, rpc := p.rpc, homes := [(1, p.pm)] }] ∧ g'.v = g.v ∧ h'.v = h.v ∧ h'.s = h.s) ∧
      (h.slot0.st = .running → h.slot0.wait = .none →
        ∃ u g', exec (.regroup off) s = .next u ∧ mget u.groups loc = some g' ∧ (getSlot g' sl).st = .regrouping ∧
          (getSlot g' sl).target = goal ∧ (getSlot g' sl).pm = p.pm ∧ g'.v = g.v ∧ mget u.groups l0 = some h))

/-- The register pool grants and takes back registers, oldest claim first; regroup moves lanes between the groups of a team (R43, R44, R57,
R314 to R318). -/
def Obligations.RegisterPool : Prop :=
  Sys2Proof.Claims.PoolWords ∧ Sys2Proof.Claims.RegroupMerges

/-! ### Traps, the handler, the sequencer's own steps -/

/-- trap and brk raise SOFTTRAP and BREAK with n; tfence raises the lowest flag that FLAGSEN enables, and goes on with none
(R322, R323). A word with an unassigned opcode raises ILLEGAL_OPCODE and nothing else (R179). -/
def Sys2Proof.Claims.GroupTrapWords : Prop :=
  ∀ (s : State) (n : BitVec 16) (w : W64) (loc : Nat) (sl : Bool) (g : Group), canon s = true → Issues s loc sl g →
    (ready (.trap n) s = true → Traps (.trap n) s 0xA3 n.toNat) ∧
    (ready (.brk n) s = true → Traps (.brk n) s 0xA0 n.toNat) ∧
    (ready .tfence s = true → g.flags &&& g.flagsen &&& 0x3F#64 = 0 → Does .tfence s s) ∧
    (∀ k, ready .tfence s = true → k < 6 → (g.flags &&& g.flagsen).getLsbD k = true →
      (∀ j, j < k → (g.flags &&& g.flagsen).getLsbD j = false) → Traps .tfence s (0x60 + k) 0) ∧
    (decode w = .error .illegal → Faults (.illegalOpcode w) s 0x40 (pcAddr s))

/-- HANDLER_ENTRY writes the trap frame to every lane's trap area and starts the slot at the handler with s1 to s4 set; trap.ret
restores s, k, EXEC within the path, FMT and the PC from lane 0's frame, and leaves handler mode (R325 to R327); it stalls while a
scalar or mask register has a pending mark (R76). The frame holds the
cause, CADDR, the cause's PC, the resume PC, EXEC, the slot and FMT, FLAGS, n, s1 to s63 and k1 to k15. -/
def Sys2Proof.Claims.HandlerEntryAndReturn : Prop :=
  (∀ (s s1 : State) (loc : Nat) (g : Group) (l : List (Nat × Nat)), canon s = true → mget s.groups loc = some g → g.stop = .handler →
    translateRuns (groupCtx s loc g) .write true
      ((List.range g.width).flatMap (fun i => runsOf (trapVa s g i) 1024)) s [] = (.ok l, s1) → runsOk s1 l = true →
    ∃ u g', exec (.handlerEntry loc) s = .next u ∧ mget u.groups loc = some g' ∧ g'.handler = true ∧
      g'.stop = (if g.preq then .saving else .none) ∧ (getSlot g' g.stopSlot).pc = groupHandler s g ∧
      gRead g' 1 = g.cause ∧ gRead g' 2 = g.caddr ∧ gRead g' 3 = BitVec.ofNat 64 (spillOf s g + 0x800) ∧ gRead g' 4 = causePc g ∧
      (∀ n, n < 64 → 5 ≤ n → sRead g'.s n = sRead g.s n) ∧ g'.k = g.k ∧ g'.v = g.v ∧ g'.flags = g.flags ∧
      ∀ m, readLoc u m = readLoc (writeRuns s1 l ((List.range g.width).flatMap (fun _ => trapFrame g))) m) ∧
  (∀ g : Group, let f := trapFrame g
    let p := getSlot g g.stopSlot
    f.length = 1024 ∧ dword f 0 = g.cause ∧ dword f 8 = g.caddr ∧ dword f 0x10 = causePc g ∧ dword f 0x18 = p.pc ∧
    dword f 0x20 = p.exec ∧ dword f 0x28 = p.fmt.zeroExtend 64 <<< 32 ||| (if g.stopSlot then 1 else 0) ∧ dword f 0x30 = g.flags ∧
    dword f 0x38 = BitVec.ofNat 64 g.causeN ∧ (∀ n, 1 ≤ n → n < 64 → dword f (0x38 + 8 * n) = sRead g.s n) ∧
    ∀ n, 1 ≤ n → n < 16 → dword f (0x230 + 8 * n) = kRead g.k n) ∧
  (∀ (s s1 : State) (loc : Nat) (sl : Bool) (g : Group) (l : List (Nat × Nat)), canon s = true → Issues s loc sl g →
    (g.handler = false → Faults .trapRet s 0x40 (pcAddr s)) ∧
    (g.handler = true → ready .trapRet s = true → (∃ k ∈ markedKeys s, k < 0x50) → Stalls .trapRet s loc sl g) ∧
    (g.handler = true → ready .trapRet s = true → (∀ k ∈ markedKeys s, 0x50 ≤ k) → placeRun s (groupCtx s loc g) (trapVa s g 0) 1024 .read true = (.ok l, s1) → runsOk s1 l = true →
      let f := readRuns s1 l
      (dword f 0x18).toNat % 8 = 0 →
      ∃ u g', exec .trapRet s = .next u ∧ mget u.groups loc = some g' ∧ g'.handler = false ∧
        (getSlot g' sl).pc = dword f 0x18 ∧ (getSlot g' sl).exec = dword f 0x20 &&& (getSlot g sl).pm ∧
        (getSlot g' sl).fmt = (dword f 0x28).extractLsb' 32 32 &&& 0x1FFF#32 ∧
        (∀ n, 1 ≤ n → n < 64 → sRead g'.s n = dword f (0x38 + 8 * n)) ∧
        (∀ n, 1 ≤ n → n < 16 → kRead g'.k n = dword f (0x230 + 8 * n)) ∧
        g'.v = g.v ∧ g'.h = g.h ∧ g'.flags = g.flags ∧ g'.stack = g.stack ∧ ∀ m, readLoc u m = readLoc s1 m))

/-- trap words of a group, the entry of the in-enclave handler with its frame, and the return from it (R323 to R327). EXEC after
an unmerged regroup and the lane of INTEGRITY in the trap area follow log 85. -/
def Obligations.TrapWords : Prop :=
  Sys2Proof.Claims.GroupTrapWords ∧ Sys2Proof.Claims.HandlerEntryAndReturn

/-- The oldest pending group that has been ready for 4,096 cycles changes places with the ready active group of the lowest class,
the last to issue among equals (R27); every ready active group that has not issued for 256 cycles gains a class, up to 3 (R28);
the arrival of a missed instruction line lets its sequencer issue again (R30). Nothing else changes. From when ready time and the
waits count, and which of two equals moves, is the model's choice (log 70). -/
def Obligations.SequencerSteps : Prop :=
  ∀ (s : State) (core sq : Nat), canon s = true →
    let l := seqGroups s core sq
    let q := seqOf s core sq
    let pend := l.filter (fun e => !e.2.active && !parked s e.2)
    let act := l.filter (fun e => e.2.active && !parked s e.2)
    (∀ p a, leastBy (fun e => e.2.readyAt * 2 ^ 32 + e.2.enteredAt) pend = some p → p.2.readyAt + 4096 ≤ q.cycle →
      leastBy (fun e => e.2.eff * 2 ^ 64 + (2 ^ 64 - 1 - e.2.issuedAt)) act = some a →
      GoesTo (exec (.pendingPromotion core sq) s) (fun t =>
        mget t.groups p.1 = some { p.2 with active := true } ∧
        mget t.groups a.1 = some { a.2 with active := false, enteredAt := q.entered, readyAt := q.cycle } ∧
        (∀ n, n ≠ p.1 → n ≠ a.1 → mget t.groups n = mget s.groups n) ∧ ∀ m, readLoc t m = readLoc s m)) ∧
    ((∀ p ∈ pend, q.cycle < p.2.readyAt + 4096) → exec (.pendingPromotion core sq) s = .next s) ∧
    GoesTo (exec (.priorityAging core sq) s) (fun t => ∀ n g, mget s.groups n = some g →
      mget t.groups n = some (if (n, g) ∈ act ∧ max g.agedAt g.readyAt + 256 ≤ q.cycle
        then { g with eff := min 3 (g.eff + 1), agedAt := q.cycle } else g)) ∧
    GoesTo (exec (.icacheLineArrival core sq) s) (fun t => (seqOf t core sq).frozen = none ∧ t.groups = s.groups ∧
      (seqOf t core sq).pos = q.pos ∧ (seqOf t core sq).cycle = q.cycle ∧ ∀ m, readLoc t m = readLoc s m)

/-! ### System calls -/

/-- A system call of a served enclave posts a 1 KiB entry in the partition's ring and leaves a deferred result for the pair d;
without service every lane is answered NOSERVICE at once (R328). ALLOC and FREE answer the lowest open lane as R329 says, the
block of an allocation being the least power of two that holds the request and 256, and EXHAUSTED for a request that no free block
fits; a lane still open at its deadline is served one last time (R330). Which free block is taken is free (log 27). -/
def Obligations.SystemCalls : Prop :=
  (∀ (s : State) (d a : Sel) (svc : BitVec 8) (wait : Bool) (tm : BitVec 16) (loc : Nat) (sl : Bool) (g : Group) (f : FrontEnd),
    canon s = true → Issues s loc sl g → ready (.sysc d a svc wait tm) s = true → lanesHome s loc g sl →
    let i : Instr := .sysc d a svc wait tm
    let fe := groupPart s g
    mget s.fes fe = some f → live g sl ≠ 0 → counterFull s .syscall 1 = false →
    (∀ x ∈ f.sysc, syscPos f x.seq ≠ syscPos f f.seq) →
    let pos := syscPos f f.seq
    let lanes := lanesOf (live g sl) g.width
    let byte (n v : Nat) : List Byte := (List.range n).map (fun j => BitVec.ofNat 8 (v / 2 ^ (8 * j)))
    let image : List Byte :=
      byte 8 (svc.toNat + (if wait then 256 else 0) + 512 * (if g.width = 16 then 0 else if g.width = 32 then 1 else 2)
        + 65536 * groupEid s g + 2 ^ 32 * (f.seq % 2 ^ 32))
      ++ byte 8 (live g sl &&& fullMask g.width).toNat ++ byte 8 (if wait then s.time + 1024 * tm.toNat else 0)
      ++ byte 8 (locCore loc + 65536 * locSq loc + 2 ^ 18 * locPos loc) ++ byte 8 1 ++ byte 24 0
      ++ (List.range 64).flatMap (fun j => byte 8 (if lanes.contains j then (vRead64 s loc g sl a j).toNat else 0)) ++ byte 448 0
    served s fe = true → svc.toNat < 2 →
    ∃ t g' p x f', exec i s = .next t ∧ mget t.groups loc = some g' ∧ mget t.fes fe = some f' ∧ g'.pend = g.pend ++ [p] ∧
      p.id = s.fresh ∧ p.dst = .vec d 2 ∧ p.path = some .syscall ∧ p.act = .wait ∧ f'.sysc = f.sysc ++ [x] ∧ x.id = p.id ∧
      x.seq = f.seq ∧ x.svc = svc.toNat ∧ x.wait = wait ∧ x.todo = lanes.map (fun j => (j, vRead64 s loc g sl a j)) ∧
      x.replies = [] ∧ f'.seq = (f.seq + 1) % 2 ^ 32 ∧ readPc t = readPc s + 8 ∧ g'.s = g.s ∧ g'.v = g.v ∧
      readBytes t.hbm pos 1024 = image ∧
      ∀ l, (∀ j, j < 1024 → l ≠ .hbm (pos + j)) → readLoc t l = readLoc s l) ∧
  (∀ (s : State) (d a : Sel) (svc : BitVec 8) (wait : Bool) (tm : BitVec 16) (loc : Nat) (sl : Bool) (g : Group) (f : FrontEnd),
    canon s = true → Issues s loc sl g → ready (.sysc d a svc wait tm) s = true → (getSlot g sl).lent = [] →
    let fe := groupPart s g
    mget s.fes fe = some f → live g sl ≠ 0 → counterFull s .syscall 1 = false →
    (∀ x ∈ f.sysc, x.seq ≠ f.seq ∧ syscPos f x.seq ≠ syscPos f f.seq) → s.fwd = [] →
    (∀ x ∈ s.groups, ∀ p ∈ x.2.pend, p.id ≠ s.fresh) → served s fe = false ∨ 2 ≤ svc.toNat → allExited g = false →
    ∃ t g' f', exec (.sysc d a svc wait tm) s = .next t ∧ mget t.groups loc = some g' ∧ mget t.fes fe = some f' ∧
      (∀ j ∈ lanesOf (live g sl) g.width, vRead64 t loc g' sl d j = BitVec.ofNat 64 (3 * 2 ^ 56)) ∧
      f'.sysc = f.sysc ∧ f'.seq = (f.seq + 1) % 2 ^ 32 ∧ readLe t.hbm (syscPos f f.seq + 0x20) 8 = 2 ∧
      readPc t = readPc s + 8 ∧ g'.s = g.s ∧ g'.k = g.k) ∧
  (∀ (s : State) (fe lane : Nat) (f : FrontEnd) (e : SysEntry) (v : W64) (x : Enclave), canon s = true → mget s.fes fe = some f →
    f.sysc.find? (fun y => y.seq == e.seq) = some e → e.todo = [(lane, v)] → lane < 64 →
    mget s.basalt.enclaves e.eid = some x →
    let size := blockSize v.toNat
    let due : Prop := e.wait = true ∧ e.deadline ≤ s.time
    let span := Config.heapSpan e.eid
    let fits (b : Nat) : Prop := b % size = 0 ∧ span.1 ≤ b ∧ b + size ≤ span.1 + span.2 ∧ b + size ≤ 2 ^ 55 ∧
      ∀ y ∈ x.heap, y.1 + y.2 ≤ b ∨ b + size ≤ y.1
    let ends (i : Instr) (status base : Nat) (heap : KMap Nat) : Prop :=
      GoesTo (exec i s) (fun t => entryReplied s fe e lane (BitVec.ofNat 64 (2 ^ 56 * status + base)) t ∧
        ∃ x', mget t.basalt.enclaves e.eid = some x' ∧ x' = { x with heap := heap })
    let answers (i : Instr) (status base : Nat) (heap : KMap Nat) : Prop :=
      ends i status base heap ∧ (due → ends (.syscDeadlineExpiry fe e.seq) status base heap)
    (e.svc = 0 → (v = 0 ∨ 2 ^ 40 < v.toNat) → answers (.alloc fe e.seq lane) 2 0 x.heap) ∧
    (e.svc = 0 → v ≠ 0 → v.toNat ≤ 2 ^ 40 →
      256 ≤ size ∧ v.toNat ≤ size ∧ (∃ n, size = 2 ^ n) ∧ (256 < size → size < 2 * v.toNat) ∧
      (∀ b, heapPlace s e.eid x size = some b → fits b ∧ answers (.alloc fe e.seq lane) 0 b (mput x.heap b size)) ∧
      (heapPlace s e.eid x size = none → (∀ b, ¬ fits b) ∧
        (e.wait = false → ends (.alloc fe e.seq lane) 1 0 x.heap) ∧
        (e.wait = true → exec (.alloc fe e.seq lane) s = .next { s with fresh := s.fresh + 1 }) ∧
        (due → ends (.syscDeadlineExpiry fe e.seq) 1 0 x.heap))) ∧
    (e.svc = 1 → v = 0 → answers (.free fe e.seq lane) 0 0 x.heap) ∧
    (e.svc = 1 → v ≠ 0 → mget x.heap v.toNat = none → answers (.free fe e.seq lane) 2 0 x.heap) ∧
    (e.svc = 1 → v ≠ 0 → (mget x.heap v.toNat).isSome = true → answers (.free fe e.seq lane) 0 0 (mdel x.heap v.toNat)) ∧
    (¬ due → exec (.syscDeadlineExpiry fe e.seq) s = .next s))

/-! ### Queues and packets -/

/-- The control of a queue changes its state as R414 says; the doorbell moves its write index (R415); a kick of a thread reaches the
granted queue of its index, with the result code in KSTAT (R352). -/
def Obligations.QueueControl : Prop :=
  (∀ (s : State) (fe q : Nat) (f : FrontEnd) (u : Queue) (v : W64), HasQueue s fe q f u →
    let is (i : Instr) (u' : Queue) : Prop := exec i s = .next (withQueue s fe q u')
    (feValid f = true → u.enc = true → u.state = .idle →
      is (.queueEnable fe q) (runs u)) ∧
    (feValid f = false ∨ u.enc = false ∨ u.state ≠ .idle → exec (.queueEnable fe q) s = .next s) ∧
    (u.enc = true → is (.queueDisable fe q) { u with state := .idle, wait := .none, waits := u.waits.filter (fun a => !isPacket a.who), ahead := [] }) ∧
    (u.enc = false → exec (.queueDisable fe q) s = .next s) ∧
    is (.queueFreeze fe q) { u with
      freeze := true,
      state := if (u.state = .running ∨ u.state = .waiting) ∧ u.pair = none then .frozen else u.state } ∧
    is (.queueUnfreeze fe q) (if u.state = .frozen then runs { u with freeze := false } else { u with freeze := false }) ∧
    (u.enc = true → u.state = .error → is (.queueResume fe q) (runs u)) ∧
    (u.enc = false ∨ u.state ≠ .error → exec (.queueResume fe q) s = .next s) ∧
    is (.queueDoorbell fe q v) { u with qwr := v.toNat }) ∧
  (∀ (s : State) (n : Nat) (c : Quartz) (v : W64), mget s.quartz n = some c → storesDone c.pend = true →
    let ends (code : Nat) (u : State) : Prop := exec (.kick n v) s = .next { u with quartz := mput s.quartz n (srSet c 0 0x11 (BitVec.ofNat 64 code)) }
    let eid := qEid c
    let bad : Prop := v.toNat % 64 ≠ 0 ∨ v.toNat / 2 ^ 55 % 32 ≠ 0
    (qInside c = false → ends 3 s) ∧
    (qInside c = true → bad → ends 2 s) ∧
    (∀ e, qInside c = true → ¬ bad → mget s.basalt.enclaves eid = some e →
      let l := (List.range 16).filter (fun j => e.queues.getLsbD j)
      (l[v.toNat / 2 ^ 60]? = none → ends 1 s) ∧
      (∀ q f u, l[v.toNat / 2 ^ 60]? = some q → HasQueue s e.part q f u →
        (e.ending = true ∨ u.enc = false ∨ u.eid ≠ eid → ends 1 s) ∧
        (e.ending = false → u.enc = true → u.eid = eid → u.kicks.length < 16 →
          ends 0 (withQueue s e.part q { u with kicks := u.kicks ++ [v.toNat % 2 ^ 55] })) ∧
        (e.ending = false → u.enc = true → u.eid = eid → 16 ≤ u.kicks.length → exec (.kick n v) s = .next s))))

/-- Each packet of a queue has the effect of its kind and is passed: SIGNAL stores or adds, BARRIER passes when all its signals
are zero, waits while one is above, and with one below aborts its queue and stays for the resume to pass, COPY starts a copy, PRED
runs one arm, CALL opens a level, ABORT puts the other queue in Error, JOIN only passes; a packet that breaks its layout gives
MALFORMED and has no effect (R415, R416, R422 to R428, R434, R435). Corners of malformed packets follow log 44; what is read ahead
and when it is dropped log 87. -/
def Obligations.Packets : Prop :=
  ∀ (s : State) (fe q : Nat) (f : FrontEnd) (u : Queue) (src : Src) (p : List Byte), noSignal u →
    let w (n : Nat) : Nat := (dword p (8 * n)).toNat
    let u' := afterPacket u src
    let q' (x : Queue) : State := withQueue s fe q x
    let err (i : Instr) (code : Nat) : Prop := ∃ t f' x, exec i s = .next t ∧ mget t.fes fe = some f' ∧ mget f'.queues q = some x ∧
      x.state = .error ∧ x.err = code ∧ x.errIdx = nextIndex u ∧ x.qrd = (passOne u src).qrd ∧ ∀ l, readLoc t l = readLoc s l
    (Head s fe q f u 4 src p →
      let va := w 1
      let bad : Prop := packetBad p 0xFF [2 ^ 55 - 1, 2 ^ 64 - 1] = true ∨ 2 ≤ w 0 / 64 % 4 ∨ va % 8 ≠ 0
      (bad → err (.signalPacket fe q) 1) ∧
      (∀ pa, ¬ bad → fePlace s fe q va 8 .atomic (.packet src) = (.ok [(pa, 8)], s) →
        GoesTo (exec (.signalPacket fe q) s) (fun t => mget t.fes fe = some { f with queues := mput f.queues q u' } ∧
          OneDword s t pa (if w 0 / 64 % 4 = 0 then w 2 else readLe s.hbm pa 8 + w 2)))) ∧
    (Head s fe q f u 8 src p →
      (packetBad p 0x3F [] = true → err (.joinPacket fe q) 1) ∧
      (packetBad p 0x3F [] = false → exec (.joinPacket fe q) s = .next (q' u'))) ∧
    (Head s fe q f u 3 src p →
      let sigs := ((List.range 4).map (fun j => w (j + 1))).filter (· != 0)
      let bad : Prop := packetBad p 0x3F [2 ^ 55 - 1, 2 ^ 55 - 1, 2 ^ 55 - 1, 2 ^ 55 - 1] = true ∨ sigs = [] ∨ ∃ a ∈ sigs, a % 8 ≠ 0
      let waits : Queue := { u with state := .waiting, wait := .barrier }
      (bad → err (.barrierPacket fe q) 1) ∧
      (∀ l : List Int, ¬ bad → readSignals fe q (.packet src) sigs s [] = (.ok l, s) →
        ((∀ x ∈ l, x = 0) → exec (.barrierPacket fe q) s = .next (q' u') ∧
          (u.wait = .barrier → exec (.barrierEvaluation fe q) s = .next (q' u'))) ∧
        ((∀ x ∈ l, 0 ≤ x) → (∃ x ∈ l, x ≠ 0) → exec (.barrierPacket fe q) s = .next (q' waits) ∧
          (u.wait = .barrier → exec (.barrierEvaluation fe q) s = .next (q' waits))) ∧
        ((∃ x ∈ l, x < 0) → laterPackets u = [] → ∃ t f' x, exec (.barrierPacket fe q) s = .next t ∧
          mget t.fes fe = some f' ∧ mget f'.queues q = some x ∧ x.state = .error ∧ x.err = 2 ∧ x.errIdx = nextIndex u ∧
          x.qrd = u.qrd ∧ x.kicks = u.kicks ∧ x.calls = u.calls ∧ x.cancelled = [nextRef u] ∧
          ∀ m, readLoc t m = readLoc s m)) ∧
      (u.wait ≠ .barrier → exec (.barrierEvaluation fe q) s = .next s)) ∧
    (Head s fe q f u 5 src p → ∀ c, packetCopy s fe q p none (nextIndex u) (.packet src) = (.ok c, s) → c.err ≠ 0 ∨ tReaders c.tmpl = 0 →
      exec (.copyPacket fe q) s = .next
        (let x := afterPacket { u with out := u.out ++ [{ idx := nextIndex u, work := s.fresh }] } src
         withQueue { s with work := mput s.work s.fresh (.copy { c with team := s.fresh }), fresh := s.fresh + 1 } fe q x)) ∧
    (Head s fe q f u 6 src p →
      let bad : Prop := packetBad p 0xFFFF01FF [2 ^ 55 - 1, 2 ^ 64 - 1] = true ∨ 4 ≤ w 0 / 64 % 8 ∨ w 1 % 8 ≠ 0
      let nt := w 0 / 2 ^ 16 % 256
      let nf := w 0 / 2 ^ 24 % 256
      (bad → err (.predPacket fe q) 1) ∧
      (∀ b : List Byte, ¬ bad → src = .ring → u.ringArms = [] → feRead s fe q (w 1) 8 (.packet src) = (.ok b, s) →
        let x : Int := (dword b 0).toInt
        let c : Int := (dword p 16).toInt
        let holds : Prop := match w 0 / 64 % 8 with | 0 => x = c | 1 => x ≠ c | 2 => x < c | _ => c ≤ x
        ∃ t f' u2, exec (.predPacket fe q) s = .next t ∧ mget t.fes fe = some f' ∧ mget f'.queues q = some u2 ∧
          (holds → u2.qrd = u.qrd + (if nt = 0 then 1 + nf else 1) ∧ u2.ringArms = if nt = 0 then [] else [(nt, nf)]) ∧
          (¬ holds → u2.qrd = u.qrd + (1 + nt) ∧ u2.ringArms = []) ∧ ∀ l, readLoc t l = readLoc s l)) ∧
    (Head s fe q f u 7 src p →
      let bad : Prop := packetBad p 0x3F [2 ^ 55 - 1, 0xFFFF] = true ∨ w 2 = 0 ∨ w 1 % 64 ≠ 0
      (bad → err (.callPacket fe q) 1) ∧
      (¬ bad → 8 ≤ u.calls.length → err (.callPacket fe q) 8) ∧
      (¬ bad → u.calls.length < 8 → src = .ring → ∃ t f' x, exec (.callPacket fe q) s = .next t ∧ mget t.fes fe = some f' ∧
        mget f'.queues q = some x ∧ x.calls = { next := w 1, left := w 2, arms := [], path := aheadKey u (nextRef u) } :: u.calls ∧
        nextPacket x = some (.call, w 1) ∧ ∀ l, readLoc t l = readLoc s l)) ∧
    (Head s fe q f u 10 src p → ∀ v, w 1 < 16 → w 1 ≠ q → mget f.queues (w 1) = some v →
      (packetBad p 0x3F [0xF] = false → v.enc = true → v.eid = u.eid → v.state = .running → v.sig = 0 → validPackets v = [] →
        ∃ t f' x y, exec (.abortPacket fe q) s = .next t ∧ mget t.fes fe = some f' ∧ mget f'.queues q = some x ∧
          mget f'.queues (w 1) = some y ∧ x = u' ∧ y.state = .error ∧ y.err = 2 ∧ y.errIdx = nextIndex v ∧
          ∀ l, readLoc t l = readLoc s l) ∧
      (v.enc = false ∨ v.eid ≠ u.eid → err (.abortPacket fe q) 1))

/-- A PROLOGUE with a LAUNCH behind it starts its routine on the engine with s1 to s15 set; exit 0 ends the pair, exit 1 launches the
image in s8 to s15, and a run of more than 2^20 words is an error (R429, R430). -/
def Sys2Proof.Claims.Prologues : Prop :=
  ∀ (s : State) (fe q : Nat) (f : FrontEnd) (u : Queue), noSignal u →
    let w (p : List Byte) (n : Nat) : W64 := dword p (8 * n)
    (∀ p img va, Head s fe q f u 2 .ring p → packetBad p 0x3F ((2 ^ 55 - 1) :: List.replicate 6 (2 ^ 64 - 1)) = false →
      (w p 1).toNat % 8 = 0 → followPacket u .ring = some va → packetRead s fe q q va.1 va.2 (.packet .ring) = (.ok img, s) → (w img 0).toNat % 16 = 1 →
      f.pro.queue = none → ∃ t f' x pr, exec (.prologuePacket fe q) s = .next t ∧ mget t.fes fe = some f' ∧
        mget f'.queues q = some x ∧ x.pair = some pr ∧ pr.iter = 0 ∧ f'.pro.queue = some q ∧ f'.pro.pc = w p 1 ∧ f'.pro.words = 0 ∧
        sRead f'.pro.s 1 = 0 ∧ (∀ j, j < 6 → sRead f'.pro.s (j + 2) = w p (j + 2)) ∧
        (∀ j, j < 8 → sRead f'.pro.s (j + 8) = w img j) ∧ f'.pro.code = none ∧ f'.pro.pend = [] ∧
        ∀ l, readLoc t l = readLoc s l) ∧
    (∀ pr, HasQueue s fe q f u → u.pair = some pr → f.pro.queue = some q → (∀ e ∈ f.pro.pend, e.returned = true) →
      (f.pro.code = some 0 → (w pr.img 3).toNat % 2 ^ 55 = 0 →
        ∃ t f' x, exec (.prologueExit fe) s = .next t ∧ mget t.fes fe = some f' ∧ mget f'.queues q = some x ∧
          x.pair = none ∧ f'.pro.queue = none ∧ f'.pro.code = none ∧ x.out = u.out ∧ x.placing = u.placing ∧
          (u.ien = true → f'.irqQ.getLsbD q = decide (q < 64)) ∧ ∀ l, readLoc t l = readLoc s l) ∧
      (∀ lid s1 f1 u1, let img := (List.range 8).flatMap (fun j => leBytes 8 (sRead f.pro.s (j + 8)).toNat)
        f.pro.code = some 1 → ((w img 0).getLsbD 4 = false ∨ u.out = []) →
        startLaunch s fe q img none false u.lastIdx .pair = (.ok lid, s1) → HasQueue s1 fe q f1 u1 →
        ∃ t f' x, exec (.prologueExit fe) s = .next t ∧ mget t.fes fe = some f' ∧ mget f'.queues q = some x ∧
          x.pair = none ∧ x.placing = some lid ∧ x.out = u1.out ++ [{ idx := u1.lastIdx, work := lid }] ∧ f'.pro.queue = none ∧
          t.launches = s1.launches)) ∧
    (HasQueue s fe q f u → f.pro.queue = some q → f.pro.code = none →
      (2 ^ 20 < f.pro.words → ∃ t f' x, exec (.prologueRunLimit fe) s = .next t ∧ mget t.fes fe = some f' ∧
        mget f'.queues q = some x ∧ x.state = .error ∧ x.err = 6 ∧ x.pair = none ∧ f'.pro.queue = none) ∧
      (f.pro.words ≤ 2 ^ 20 → exec (.prologueRunLimit fe) s = .next s))

/-- GRAPH starts at its first node; a kernel or copy node runs its work, and the launch of a kernel node holds its queue while it waits or
its teams are placed (R420, R436); a COND node makes one successor ready, a WHILE node its body
while its condition holds and its count allows, a JOIN node its successor at its last arrival, and END ends the graph once nothing
runs (R431 to R433). -/
def Sys2Proof.Claims.Graphs : Prop :=
  (∀ (s : State) (fe q : Nat) (f : FrontEnd) (u : Queue) (src : Src) (p : List Byte), noSignal u → Head s fe q f u 9 src p →
    let n := dwFld p 2 0 16
    let first := dwFld p 2 16 16
    let id := s.fresh
    packetBad p 0x3F [2 ^ 55 - 1, 0xFFFFFFFF] = false → (dword p 8).toNat % 64 = 0 → 1 ≤ n → n ≤ 4096 → first < n →
    f.graph = none → ∃ t f' x, exec (.graphPacket fe q) s = .next t ∧ mget t.fes fe = some f' ∧ mget f'.queues q = some x ∧
      (let g : Graph :=
        { id := id, queue := q, idx := nextIndex u, base := (dword p 8).toNat, count := n, running := [], ready := [first],
          joins := [], iters := [], ending := false }
       f'.graph = some g) ∧ x.out = u.out ++ [{ idx := nextIndex u, work := id }] ∧
      x.qrd = (passOne u src).qrd ∧ ∀ l, readLoc t l = readLoc s l) ∧
  (∀ (s : State) (fe i : Nat) (f : FrontEnd) (g : Graph) (n : List Byte), canon s = true →
    let next (j : Nat) : Nat := dwFld n 1 (16 * j) 16
    let started (l : List Nat) : List Nat := g.ready.erase i ++ l.filter (· != 0xFFFF)
    let run (w : Nat) : GNode := { i := i, work := w, next0 := next 0, next1 := next 1 }
    (∀ pk lid s1, NodeReady s fe i 1 f g n → feRead s fe g.queue (dword n 16).toNat 64 (.node i) = (.ok pk, s) →
      (dword pk 0).toNat % 16 ≠ 2 → startLaunch s fe g.queue pk (some i) false g.idx (.node i) = (.ok lid, s1) →
      (feOf s1 fe).graph = some g → ∀ f1 u1, HasQueue s1 fe g.queue f1 u1 →
      exec (.kernelNode fe i) s = .next (withGraph (withQueue s1 fe g.queue
          (again { u1 with holds := u1.holds.filter (fun x => x != (false, i)) ++ [(true, lid)] })) fe
        (some { g with ready := g.ready.erase i, running := g.running ++ [run lid] }))) ∧
    (∀ pk s1, NodeReady s fe i 1 f g n → feRead s fe g.queue (dword n 16).toNat 64 (.node i) = (.ok pk, s) →
      (dword pk 0).toNat % 16 ≠ 2 → startLaunch s fe g.queue pk (some i) false g.idx (.node i) = (.wait, s1) →
      ∀ f1 u1, HasQueue s1 fe g.queue f1 u1 →
      exec (.kernelNode fe i) s = .next (withQueue s1 fe g.queue
        (again { u1 with holds := u1.holds.filter (fun x => x != (false, i)) ++ [(false, i)] }))) ∧
    (∀ pk c, NodeReady s fe i 2 f g n → feRead s fe g.queue (dword n 16).toNat 64 (.node i) = (.ok pk, s) →
      packetCopy s fe g.queue pk (some i) g.idx (.node i) = (.ok c, s) → c.err ≠ 0 ∨ tReaders c.tmpl = 0 →
      exec (.copyNode fe i) s = .next (withGraph
        { s with work := mput s.work s.fresh (.copy { c with team := s.fresh }), fresh := s.fresh + 1 } fe
        (some { g with ready := g.ready.erase i, running := g.running ++ [run s.fresh] }))) ∧
    (∀ b : List Byte, feRead s fe g.queue (dword n 16).toNat 8 (.node i) = (.ok b, s) →
      let x : Int := (dword b 0).toInt
      let c : Int := (dword n 24).toInt
      let holds : Bool := match dwFld n 4 0 3 with | 0 => decide (x = c) | 1 => decide (x ≠ c) | 2 => decide (x < c) | _ => decide (c ≤ x)
      (NodeReady s fe i 3 f g n →
        let g' : Graph := { g with ready := started [if holds then next 0 else next 1] }
        goesOn g' → exec (.condNode fe i) s = .next (withGraph s fe (some g'))) ∧
      (NodeReady s fe i 4 f g n →
        let it := mgetD g.iters i 0
        let off : Graph := { g with ready := started [next 1], iters := msetD g.iters i 0 0 }
        let on : Graph := { g with ready := started [next 0], iters := msetD g.iters i (it + 1) 0 }
        (holds = false → goesOn off → exec (.whileNode fe i) s = .next (withGraph s fe (some off))) ∧
        (holds = true → it < dwFld n 4 32 32 → goesOn on → exec (.whileNode fe i) s = .next (withGraph s fe (some on))) ∧
        (holds = true → dwFld n 4 32 32 ≤ it → GoesTo (exec (.whileNode fe i) s) (fun t =>
          (feOf t fe).graph = none ∧ ∀ u, mget f.queues g.queue = some u → ∃ x, mget (feOf t fe).queues g.queue = some x ∧
            x.state = .error ∧ x.err = 7 ∧ x.errIdx = g.idx)))) ∧
    (NodeReady s fe i 5 f g n →
      let c := mgetD g.joins i 0 + 1
      let last : Graph := { g with ready := started [next 0], joins := msetD g.joins i 0 0 }
      let more : Graph := { g with ready := started [], joins := msetD g.joins i c 0 }
      (c = dwFld n 0 8 8 → goesOn last → exec (.graphJoinNode fe i) s = .next (withGraph s fe (some last))) ∧
      (c ≠ dwFld n 0 8 8 → goesOn more → exec (.graphJoinNode fe i) s = .next (withGraph s fe (some more)))) ∧
    (NodeReady s fe i 6 f g n →
      let g' : Graph := { g with ready := started [], ending := true }
      (goesOn g' → exec (.endNode fe i) s = .next (withGraph s fe (some g'))) ∧
      (¬ goesOn g' → ∀ u, mget f.queues g.queue = some u → noSignal u → ∃ x, exec (.endNode fe i) s = .next
        (withQueue (withGraph s fe none) fe g.queue x) ∧ x = { u with out := u.out.erase { idx := g.idx, work := g.id } })))

/-- Prologue routines run before their launch and end as their exit code says; a graph starts its nodes, counts joins and loops,
and ends (R428 to R433). Corners of graphs follow log 46. -/
def Obligations.ProloguesAndGraphs : Prop :=
  Sys2Proof.Claims.Prologues ∧ Sys2Proof.Claims.Graphs

/-! ### Launches -/

/-- A LAUNCH packet starts the launch that its fields and its kernel descriptor describe; the queue waits while its teams are placed. A
packet or descriptor outside its layout, or a spill pool too small for one team, gives MALFORMED; a co-resident grid that cannot be
resident NORESIDE; with too little of the working set resident the queue waits, and RESIDENCY_GATE looks again (R417 to R420,
R436, R508). -/
def Sys2Proof.Claims.LaunchPackets : Prop :=
  ∀ (s : State) (fe q : Nat) (f : FrontEnd) (u : Queue) (src : Src) (p d : List Byte) (tb : Tables), noSignal u →
    Head s fe q f u 1 src p →
    let lid := fe + 16 * q + 256 * u.launches
    let width := 16 * 2 ^ dwFld d 1 0 2
    let size := dwFld d 1 24 5 + 1
    let spill := dwFld d 2 0 17
    let thr := dwFld p 1 56 8
    let l0 := makeLaunch fe q u.eid p d tb none false (nextIndex u)
    (launchBad p = true → PacketErr (.launchPacket fe q) s fe q u src 1) ∧
    (launchBad p = false → feRead s fe q (dwFld p 1 0 55) 64 (.packet src) = (.ok d, s) → descBad d = true →
      PacketErr (.launchPacket fe q) s fe q u src 1) ∧
    (DescriptorOf s fe q (.packet src) p d → TablesRead s fe q (.packet src) d tb →
      (65536 * u.spillLen < size * (width * (spill + 0xC00)) → PacketErr (.launchPacket fe q) s fe q u src 1) ∧
      (size * (width * (spill + 0xC00)) ≤ 65536 * u.spillLen →
        ((dword p 0).getLsbD 6 = true → canReside s lid l0 = false → PacketErr (.launchPacket fe q) s fe q u src 4) ∧
        ((dword p 0).getLsbD 6 = false ∨ canReside s lid l0 = true →
          (residentEnough s u.eid thr = false →
            let w : State := withQueue s fe q { u with state := .waiting, wait := .residency }
            exec (.launchPacket fe q) s = .next w ∧ (u.wait = .residency → exec (.residencyGate fe q) s = .next w)) ∧
          (∀ img tmpl, residentEnough s u.eid thr = true → dwFld p 0 8 5 = 31 → ImagesRead s fe q (.packet src) d img tmpl →
            let starts (i : Instr) : Prop := ∃ t f' x l, exec i s = .next t ∧ mget t.fes fe = some f' ∧
              mget f'.queues q = some x ∧ mget t.launches lid = some l ∧
              x.state = .waiting ∧ x.placing = some lid ∧ x.out = u.out ++ [{ idx := nextIndex u, work := lid }] ∧
              x.qrd = (passOne u src).qrd ∧ x.launches = u.launches + 1 ∧
              l.gx = dwFld p 2 0 32 ∧ l.gy = dwFld p 2 32 16 ∧ l.gz = dwFld p 2 48 16 ∧ l.fmt.toNat = dwFld p 0 16 13 ∧
              l.flagsen.toNat = dwFld p 0 32 6 ∧ l.cls = dwFld p 0 13 2 ∧ l.sig = dwFld p 3 0 55 ∧
              (∀ j, j < 4 → l.args.getD j 0 = dword p (32 + 8 * j)) ∧ l.code.toNat = dwFld d 0 0 55 ∧ l.width = width ∧
              l.vregs = dwFld d 1 8 9 ∧ l.size = size ∧ l.spill = spill ∧ l.shared = dwFld d 2 32 21 ∧
              l.handler.toNat = (if dwFld p 0 40 24 = 0 then 0 else dwFld d 0 0 55 + 8 * dwFld p 0 40 24) ∧
              l.roles = tb.roles ∧ l.tmpl = slotsOf d tmpl ∧ l.region = tb.region ∧ l.handles = tb.handles ∧ l.next = 0 ∧ l.retired = 0 ∧ l.done = false ∧
              ∀ m, readLoc t m = readLoc (loadImage s fe img) m
            starts (.launchPacket fe q) ∧ (u.wait = .residency → starts (.residencyGate fe q)))))) ∧
    (u.wait ≠ .residency → exec (.residencyGate fe q) s = .next s)

/-- The next team of a launch is placed on the first core in the order of R420 on which it fits: every group at a free position of its
sequencer, at the kernel's first word with every lane live, s1 to s4 the arguments and s62 the spill size, all else zero; its spill
memory and shared memory read zero. Where nothing fits, the placement of the launch waits, until a team of the partition retires (R17 to
R22, R74, R420, R508). -/
def Sys2Proof.Claims.TeamPlacement : Prop :=
  ∀ (s s1 : State) (lid c : Nat) (l : Launch) (f : FrontEnd) (u : Queue) (b : List Nat) (used : List (Nat × Nat)),
    mget s.launches lid = some l → HasQueue s l.fe l.queue f u → l.cores = false → f.restores = [] → u.state ≠ .error →
    accessWaits u (.spill lid) = false →
    let bytes := l.width * (l.spill + 0xC00)
    let area := spillTake u.spill (65536 * u.spillLen) bytes l.size u.spillUsed []
    (l.next < gridSize l → l.done = false → l.waiting = false → findCore s l = some c → area = some (b, used) →
      puts s l.fe l.queue (b.map (fun x => .zero x bytes)) (.spill lid) = (.ok (), s1) →
      ∃ t T l' core core', exec (.teamPlacement lid) s = .next t ∧ mget t.teams s.fresh = some T ∧ mget t.launches lid = some l' ∧
        mget s.cores c = some core ∧ mget t.cores c = some core' ∧
        T.launch = lid ∧ T.index = l.next ∧ T.core = c ∧ T.groups.length = l.size ∧ l'.next = l.next + 1 ∧ l'.lastCore = some c ∧
        (l.pair = false → core'.free = core.free - l.size * (l.vregs / 8 * l.width / 16)) ∧
        (∀ n, n < l.size → ∃ g, let loc := T.groups.getD n 0
          mget t.groups loc = some g ∧ mget s.groups loc = none ∧
          (locCore loc, locSq loc) = (if l.pair then (c + n % 2, n / 2 % 4) else (c, n % 4)) ∧
          g.team = s.fresh ∧ g.launch = lid ∧ g.num = n ∧ g.width = l.width ∧ g.allot = l.vregs ∧ g.h = l.handles ∧
          g.slot0.st = .running ∧ g.slot0.pc = l.code ∧ g.slot0.pm = fullMask l.width ∧ g.slot0.exec = fullMask l.width ∧
          g.slot0.fmt = l.fmt ∧ g.slot1.st = .free ∧ (∀ j, j < 4 → sRead g.s (j + 1) = l.args.getD j 0) ∧
          sRead g.s 62 = BitVec.ofNat 64 l.spill ∧ (∀ j, 5 ≤ j → j ≠ 62 → sRead g.s j = 0) ∧ g.k = [] ∧ g.v = [] ∧
          g.stack = [] ∧ g.exited = 0 ∧ g.flags = 0 ∧ g.flagsen = l.flagsen ∧ g.pend = [] ∧ g.base = l.cls ∧
          g.spill = BitVec.ofNat 64 (b.getD n 0)) ∧
        (∀ a, readLoc t (.hbm a) = readLoc s1 (.hbm a)) ∧ (∀ o, readLoc t (.shared s.fresh o) = 0) ∧
        (l.next + 1 = gridSize l → ∀ x, mget (feOf t l.fe).queues l.queue = some x → x.placing ≠ some lid)) ∧
    (gridSize l ≤ l.next ∨ l.done = true ∨ l.waiting = true → exec (.teamPlacement lid) s = .next s) ∧
    (l.next < gridSize l → l.done = false → l.waiting = false → findCore s l = none ∨ area = none →
      exec (.teamPlacement lid) s = .next { s with launches := mput s.launches lid { l with waiting := true } })

/-- A launch starts as its packet and descriptor describe it, and its teams are placed on the cores on which they fit (R17 to R22,
R417 to R420, R436, R508). That a launch's way count holds on every die of the partition (log 33), when W changes (log 88) and
when a waiting placement resumes (log 81) are the model's reading. -/
def Obligations.Launches : Prop :=
  Sys2Proof.Claims.LaunchPackets ∧ Sys2Proof.Claims.TeamPlacement

/-- A group whose lanes have all exited, with nothing in flight, leaves its core: its registers return to the pool, and with its last
group the team goes, the launch counts it, and a placement that waited resumes; a group that has not done so stays (R23, R203, R420). -/
def Sys2Proof.Claims.GroupRetirement : Prop :=
  ∀ (s : State) (loc : Nat) (g : Group) (t : Team) (l : Launch) (c : Core), canon s = true → mget s.groups loc = some g →
    mget s.teams g.team = some t → mget s.launches g.launch = some l → mget s.cores (locCore loc) = some c → g.num < 64 →
    let may : Prop := allExited g = true ∧ ∀ p ∈ [Path.spill, .shared, .scratch, .copy, .engine, .syscall], pathCount g.pend p = 0
    (¬ may → exec (.groupRetirement loc) s = .next s) ∧
    (may → c.claims = [] → ∃ u c', exec (.groupRetirement loc) s = .next u ∧ mget u.groups loc = none ∧
      mget u.cores (locCore loc) = some c' ∧ c'.free = c.free + g.allot / 8 * g.width / 16 ∧
      (candidates s g.team = [] → ∀ a, readByte u.hbm a = readByte s.hbm a) ∧
      ((∀ n, n < t.groups.length → n ≠ g.num → t.retired.getLsbD n = true) →
        mget u.teams g.team = none ∧ mget u.launches g.launch = some { l with retired := l.retired + 1, waiting := false }) ∧
      (∀ n, n < t.groups.length → n ≠ g.num → t.retired.getLsbD n = false →
        mget u.launches g.launch = some l ∧ ∃ t', mget u.teams g.team = some t' ∧ t'.retired.getLsbD g.num = true))

/-- A grid completes when its last team has retired, once: its packet has completed and its completion signal falls by one, the
queue's interrupt rises when ien is 1, the clusters of a co-resident grid return to 1,400 MHz; a graph's node makes its successors
ready, a prologue's pair runs again (R415, R421, R430, R433, R437). -/
def Sys2Proof.Claims.GridCompletion : Prop :=
  ∀ (s : State) (lid : Nat) (l : Launch) (f : FrontEnd) (u : Queue), mget s.launches lid = some l → HasQueue s l.fe l.queue f u →
    noSignal u →
    let ends (p : State → Prop) : Prop := GoesTo (exec (.gridCompletion lid) s) (fun t =>
      p t ∧ (∃ l', mget t.launches lid = some l' ∧ l'.done = true) ∧
      (u.ien = true → (feOf t l.fe).irqQ.getLsbD l.queue = decide (l.queue < 64)) ∧
      (l.cores = true → s.thermal = false → ∀ n ∈ l.used, ∀ d, mget s.dies (n / 8) = some d → mrising none d.freq = true →
        ∃ d', mget t.dies (n / 8) = some d' ∧ mgetD d'.freq (n % 8) 1400 = 1400))
    let quiet (t : State) : Prop := ∀ m, readLoc t m = readLoc s m
    let passed : Prop := l.done = false ∧ gridSize l ≤ l.next ∧ gridSize l ≤ l.retired
    let queue (t : State) (x : Queue) : Prop := mget (feOf t l.fe).queues l.queue = some x
    (¬ passed → exec (.gridCompletion lid) s = .next s) ∧
    (passed → l.sig = 0 → l.node = none → l.prologue = false → ends (fun t => quiet t ∧ ∃ x, queue t x ∧
      x.out = u.out.erase { idx := l.idx, work := lid } ∧ x.state = u.state ∧ x.placing = u.placing)) ∧
    (∀ pa, passed → l.sig ≠ 0 → fePlace s l.fe l.queue l.sig 8 .atomic (.grid lid) = (.ok [(pa, 8)], s) → l.node = none → l.prologue = false →
      ends (fun t => OneDword s t pa (readLe s.hbm pa 8 + (2 ^ 64 - 1)) ∧ ∃ x, queue t x ∧
        x.out = u.out.erase { idx := l.idx, work := lid })) ∧
    (∀ pr, passed → l.sig = 0 → l.node = none → l.prologue = true → u.pair = some pr → ends (fun t => quiet t ∧ ∃ x pr', queue t x ∧
      x.pair = some pr' ∧ pr'.again = true ∧ pr'.iter = pr.iter + 1 ∧ x.out = u.out.erase { idx := l.idx, work := lid })) ∧
    (∀ i g r, passed → l.sig = 0 → l.node = some i → f.graph = some g → g.running.find? (fun n => n.i == i && n.work == lid) = some r →
      let g' : Graph := { g with running := g.running.erase r, ready := g.ready ++ [r.next0, r.next1].filter (· != 0xFFFF) }
      goesOn g' → ends (fun t => quiet t ∧ (feOf t l.fe).graph = some g'))

/-- A group whose lanes have all exited retires and gives its registers back, a team with its last group, a grid with its last team (R202, R203,
R421). -/
def Obligations.Retirement : Prop :=
  Sys2Proof.Claims.GroupRetirement ∧ Sys2Proof.Claims.GridCompletion

/-! ### Quartz cores -/

/-- ldm, stm and atomm of a Quartz core or a prologue engine translate base + index + offset, go in flight as one access of the page's
kind and go on; an address that is not a multiple of the size traps with ALIGN; a second S access waits for the first. The sum
does not wrap: one outside the 55-bit space raises NOTMAPPED (R10, R369). What a core's access returns lands then (R108, R147, R347, R368,
R429). -/
def Obligations.QuartzMemory : Prop :=
  (∀ (s s1 : State) (o : MOp) (r : AOp) (pa : Nat) (kind : Kind), canon s = true → (∀ loc sl, s.agent ≠ .group loc sl) →
    let va : W64 := readReg s o.base + readReg s o.index + o.off.signExtend 64
    let vr : W64 := readReg s r.base + readReg s r.index
    let ea : Int := (readReg s o.base).toNat + (readReg s o.index).toNat + o.off.toInt
    let er : Int := (readReg s r.base).toNat + (readReg s r.index).toNat
    let inside (x : Int) (k : Nat) : Prop := 0 ≤ x ∧ x + k ≤ 2 ^ 55
    let size := MWidth.bytes o.wt
    let sr := if r.w64 then 8 else 4
    let locs (n : Nat) : List MLoc := (List.range n).map (fun j => .hbm (pa + j))
    let held : Prop := kind = .s ∧ ∃ p ∈ pendOf s1, p.kind = .s ∧ p.returned = false
    (ready (.ldm o) s = true → va.toNat % size = 0 → inside ea size → translate s (coreCtx s) va.toNat .read false = (.ok pa kind, s1) →
      lineOk s1 pa = true →
      (¬ held → Becomes (.ldm o) s (withCore s1 (coreEntry s1.fresh kind .rlx (.scalar o.data)
        (.load o.wt [{ lane := 0, locs := locs size }])))) ∧
      (held → exec (.ldm o) s = .next { s1 with last := .stalled })) ∧
    (ready (.stm o) s = true → va.toNat % size = 0 → inside ea size → translate s (coreCtx s) va.toNat .write false = (.ok pa kind, s1) →
      lineOk s1 pa = true →
      (¬ held → Becomes (.stm o) s (withCore s1 (coreEntry s1.fresh kind .rlx .none
        (.store ((locs size).zip ((List.range size).map (fun j => BitVec.ofNat 8 ((readReg s1 o.data).toNat / 2 ^ (8 * j))))))))) ∧
      (held → exec (.stm o) s = .next { s1 with last := .stalled })) ∧
    (ready (.atomm r) s = true → vr.toNat % sr = 0 → inside er sr → translate s (coreCtx s) vr.toNat .atomic false = (.ok pa kind, s1) →
      lineOk s1 pa = true →
      (¬ held → Becomes (.atomm r) s (withCore s1 (coreEntry s1.fresh kind r.order (.scalar r.d)
        (.atomic r.op r.w64 false [({ lane := 0, locs := locs sr }, readReg s1 r.data, 0)])))) ∧
      (held → exec (.atomm r) s = .next { s1 with last := .stalled })) ∧
    (∀ n q, OnQuartz s n q →
      (ready (.ldm o) s = true → va.toNat % size ≠ 0 → QTraps (.ldm o) s n q 0x25 va 0) ∧
      (ready (.stm o) s = true → va.toNat % size ≠ 0 → QTraps (.stm o) s n q 0x25 va 0) ∧
      (ready (.atomm r) s = true → vr.toNat % sr ≠ 0 → QTraps (.atomm r) s n q 0x25 vr 0) ∧
      (entryWaits s q = false →
        (ready (.ldm o) s = true → va.toNat % size = 0 → ¬ inside ea size →
          exec (.ldm o) s = .next { quartzCause s n (causeOf 0x20 va 0) 1 false with last := .faulted }) ∧
        (ready (.stm o) s = true → va.toNat % size = 0 → ¬ inside ea size →
          exec (.stm o) s = .next { quartzCause s n (causeOf 0x20 va 0) 1 false with last := .faulted }) ∧
        (ready (.atomm r) s = true → vr.toNat % sr = 0 → ¬ inside er sr →
          exec (.atomm r) s = .next { quartzCause s n (causeOf 0x20 vr 0) 1 false with last := .faulted })) ∧
      (∀ k st pg, ready (.ldm o) s = true → va.toNat % size = 0 → inside ea size → entryWaits s q = false →
        translate s (coreCtx s) va.toNat .read false = (.fault k st pg, s1) →
        exec (.ldm o) s = .next { quartzCause s1 n (causeOf k va 0) st false with last := .faulted }))) ∧
  (∀ (s : State) (n : Nat) (q : Quartz) (p : Pend) (a : Sel), canon s = true → mget s.quartz n = some q →
    q.pend.find? (fun x => x.id == p.id) = some p → canReturn s (.quartz n) p = true → p.dst = .scalar a → p.comb = none →
    let lands (w : State) (v : W64) : Prop := GoesTo (exec (.deferredResultReturn (.quartz n) p.id) s) (fun t =>
      Returned t (landScalar w (.quartz n) a v) (.quartz n) p.id ∧ ∀ l, readLoc t l = readLoc w l)
    (∀ wt lane locs, p.act = .load wt [{ lane := lane, locs := locs }] →
      lands s (loadedScalar wt (leNat (locs.map (readLoc s))))) ∧
    (∀ v, p.act = .value [] v → lands s v) ∧
    (∀ op w64 lane locs y, p.act = .atomic op w64 false [({ lane := lane, locs := locs }, y, 0)] →
      (∀ l ∈ locs, locThere s l = true) → locs.Nodup → locs.length = (if w64 then 8 else 4) →
      let bits := if w64 then 64 else 32
      let old := leNat (locs.map (readLoc s))
      let new := atomStores op false bits old y.toNat 0
      lands (dropQuanta (writeLocs s (locs.zip ((List.range locs.length).map (fun j => BitVec.ofNat 8 (new / 2 ^ (8 * j)))))) locs)
        (BitVec.ofNat 64 old)))

/-- A cause on a Quartz core is taken at the level of R357, with TCAUSE, TADDR, TPC, TSTAT and IEN written and the PC at TVEC; a TVEC of
0 halts the core and is reported. The PC to go on at is PC + 8 after a trap or brk, and the word's own otherwise; in the save area of an
enclave thread, which is sealed first, after a trap only (R349, R350, R355 to R357). trap and brk raise their causes with n, and a word of
a level too low PRIVILEGE. TADDR of a cause without an address is a free value (log 18). -/
def Obligations.QuartzCauses : Prop :=
  (∀ (s : State) (n : Nat) (q : Quartz) (code : BitVec 8) (k : BitVec 16) (addr : W64), OnQuartz s n q → q.halted = false →
    entryWaits s q = false → q.level ≤ 2 →
    let x := entryLevel q.level code.toNat 1
    let resume : W64 := if code = 0xA0#8 ∨ code = 0xA3#8 then q.pc + 8 else q.pc
    let sealedPc : W64 := if code = 0xA3#8 then q.pc + 8 else q.pc
    let i : Instr := .quartzTrapEntry n code k addr
    (qInside q = false → GoesTo (exec i s) (fun t =>
      EntersPlain s t n q x (tcause q code.toNat k.toNat false false 0) addr resume ∧
      (code ≠ 1 → t.basalt.written = if srGet q x 0x81 = 0 then (s.basalt.written + 1) % 65536 else s.basalt.written))) ∧
    (∀ e s1 pa kind, qInside q = true → mget s.basalt.enclaves (qEid q) = some e → e.ending = false →
      translate s (encCtx s (qEid q)) (tsaVa e (qThread q)) .write true = (.ok pa kind, s1) →
      let a : W64 := if 0x20 ≤ code.toNat ∧ code.toNat ≤ 0x28 then addr &&& 0xFFFFFFFFFFFF0000#64 else 0
      GoesTo (exec i s) (fun t =>
        EntersSealed s1 t n q e pa x (tcause q code.toNat k.toNat false true (qEid q)) a sealedPc (code == 0xA3#8)))) ∧
  (∀ (s : State) (n : Nat) (q : Quartz) (k : BitVec 16), OnQuartz s n q →
    let free : State := { s with fresh := s.fresh + 1 }
    (ready (.trap k) s = true → QRaises (.trap k) s n q 0xA3 k.toNat ∧ (entryWaits s q = false → q.level = 0 → qInside q = false →
      GoesTo (exec (.trap k) s) (fun t =>
        EntersPlain free t n q 1 (tcause q 0xA3 k.toNat false false 0) (Config.freeTaddr s.fresh) (q.pc + 8)))) ∧
    (ready (.brk k) s = true → QRaises (.brk k) s n q 0xA0 k.toNat) ∧
    (q.level = 0 → ∀ i, i = .eret ∨ i = .wfi ∨ i = .halt ∨ (∃ d a, i = .encmk d a) ∨ (∃ d a, i = .enckill d a) ∨
      (∃ d a, i = .dbgrd d a) ∨ (∃ d b o, i = .mfp d b o) ∨ (∃ b o a, i = .mtp b o a) ∨ (∃ a b, i = .tlbinvAsid a b) →
      QRaises i s n q 0x44 0))

/-- eret goes back to the level of TSTAT with IEN restored, at TPC; with ETHR.v it resumes the enclave thread from its save area, whose
save count must be the expected one. wfi waits until an interrupt is pending, halt stops the core (R351, R359). -/
def Sys2Proof.Claims.ReturnsOfCores : Prop :=
  ∀ (s : State) (n : Nat) (q : Quartz), OnQuartz s n q → q.level ≤ 2 →
    let b := if q.level = 1 then 1 else 2
    let tstat := (srGet q b 0x85).toNat
    let ethr := (srGet q 0 0x8B).toNat
    let eid := ethr % 2 ^ 12
    let t := ethr / 2 ^ 16 % 2 ^ 12
    let quiet (u : State) : Prop := ∀ l, readLoc u l = readLoc s l
    (ready .eret s = true → ethr / 2 ^ 63 = 0 →
      (tstat % 4 ≤ q.level → GoesTo (exec .eret s) (fun u => quiet u ∧ ∃ q', mget u.quartz n = some q' ∧ q'.level = tstat % 4 ∧
        q'.pc = srGet q b 0x84 ∧ srGet q' b 0x87 = BitVec.ofNat 64 (tstat / 4 % 2) ∧ q'.s = q.s ∧ q'.k = q.k ∧ q'.pend = q.pend ∧
        ∀ c m, m < 256 → ¬ (c = b ∧ m = 0x87) → srGet q' c m = srGet q c m)) ∧
      (q.level < tstat % 4 → QRaises .eret s n q 0x44 0)) ∧
    (∀ e s1 l, ready .eret s = true → ethr / 2 ^ 63 = 1 → tstat % 4 = 0 → coreBusy q = false → mget s.basalt.enclaves eid = some e →
      t < e.threads → e.ending = false → placeRun (tsaFirst s eid e t) (encCtx s eid) (tsaVa e t) 1024 .read true = (.ok l, s1) →
      runsOk s1 l = true →
      let f := readRuns s1 l
      let th := mgetD e.th t { expected := 0, soft := false }
      ((dword f 0x2B0).toNat % 2 ^ 32 = th.expected → GoesTo (exec .eret s) (fun u => ∃ q', mget u.quartz n = some q' ∧
        q'.level = 0 ∧ q'.pc = dword f 0 ∧ srGet q' b 0x87 = BitVec.ofNat 64 (tstat / 4 % 2) ∧ srGet q' 0 0x8B = 0 ∧
        qInside q' = true ∧ qEid q' = eid ∧ qThread q' = t ∧ q'.divzero = (dword f 0x10).getLsbD 0 ∧
        (∀ m, 1 ≤ m → m < 64 → sRead q'.s m = if th.soft = true ∧ m ≤ 8 then sRead q.s m else dword f (0x38 + 8 * m)) ∧
        (∀ m, 1 ≤ m → m < 16 → kRead q'.k m = dword f (0x230 + 8 * m)) ∧ ∀ a, readLoc u a = readLoc s1 a)) ∧
      ((dword f 0x2B0).toNat % 2 ^ 32 ≠ th.expected → GoesTo (exec .eret s) (fun u =>
        EntersPlain s1 u n q q.level (tcause q 2 0 false false 0) (BitVec.ofNat 64 (tsaVa e t)) q.pc))) ∧
    (ready .eret s = true → ethr / 2 ^ 63 = 1 → tstat % 4 = 0 → coreBusy q = false → mget s.basalt.enclaves eid = none →
      GoesTo (exec .eret s) (fun u => EntersPlain s u n q q.level (tcause q 0x23 0 false false 0) 0 q.pc)) ∧
    (ready .wfi s = true →
      (ipend s n = 0 → Does .wfi s { s with quartz := mput s.quartz n { q with parked := true } }) ∧
      (ipend s n ≠ 0 → Does .wfi s s)) ∧
    (ready .halt s = true → Does .halt s { s with quartz := mput s.quartz n { q with halted := true } })

/-- The lowest pending interrupt that IROUTE gives a level with IEN 1, at or above the executing one, is taken there, with its number in
n (R358). The timer is pending once the timestamp has reached TCMP; a doorbell pends on its core until it is cleared; a parked core goes
on once anything is pending; a read of BMREP consumes the oldest report (R358, R359, R361). -/
def Sys2Proof.Claims.Interrupts : Prop :=
  ∀ (s : State) (n : Nat) (q : Quartz), canon s = true → mget s.quartz n = some q → mrising none q.sr = true →
    let lvl (j : Nat) : Nat := if (srGet q 0 0x89).getLsbD j then 2 else 1
    let may (j : Nat) : Prop := (ipend s n).getLsbD j = true ∧ srGet q (lvl j) 0x87 = 1 ∧ q.level ≤ lvl j
    (∀ j, j < 7 → may j → (∀ m, m < j → ¬ may m) → q.halted = false → entryWaits s q = false → qInside q = false →
      GoesTo (exec (.interruptEntry n) s) (fun t => EntersPlain s t n q (lvl j) (tcause q 0 j true false 0)
        (Config.freeTaddr s.fresh) q.pc)) ∧
    ((∀ j, j < 7 → ¬ may j) ∨ q.halted = true → exec (.interruptEntry n) s = .next s) ∧
    (∀ v, exec (.tcmpWrite n v) s = .next { s with quartz := mput s.quartz n (srSet q 0 0x8A v) }) ∧
    GoesTo (exec (.timerExpiry n) s) (fun t => t.time = max s.time (srGet q 0 0x8A).toNat ∧ (ipend t n).getLsbD 0 = true ∧
      ∀ l, readLoc t l = readLoc s l) ∧
    (ipend s n ≠ 0 → exec (.wfiWake n) s = .next { s with quartz := mput s.quartz n { q with parked := false } }) ∧
    (ipend s n = 0 → exec (.wfiWake n) s = .next s) ∧
    (n < 32 → exec (.doorbellRing n) s = .next { s with bells := s.bells ||| BitVec.ofNat 64 (2 ^ n) } ∧
      exec (.doorbellClear n) s = .next { s with bells := s.bells &&& ~~~(BitVec.ofNat 64 (2 ^ n)) }) ∧
    (∀ r l, s.basalt.reports = r :: l → exec (.bmrepRead n) s = .next
      { s with basalt := { s.basalt with reports := l, read := (s.basalt.read + 1) % 65536 } }) ∧
    (s.basalt.reports = [] → exec (.bmrepRead n) s = .next s)

/-- Returns from exceptions, waits and interrupts of the Quartz cores (R351, R358, R359, R361). Which core the debug port's
routing names is free (log 91). -/
def Obligations.QuartzReturns : Prop :=
  Sys2Proof.Claims.ReturnsOfCores ∧ Sys2Proof.Claims.Interrupts

/-! ### Translation, invalidation, page requests -/

/-- A walk of a unit's context, none being in flight for its page, reads the three tables of stage one, sets the accessed bit of the leaf, and the dirty bit for a write, and
holds the translation with the leaf's permissions; an entry that is not valid ends it without a trace; a held translation that permits the
access is used as it is. The TLB of an array core holds at most 1,024; what other holders have stays, but for those that shared the walk,
which get its result; a request beyond the 64 walks of a cluster's walker waits in arrival order (R370, R373 to R378). -/
def Sys2Proof.Claims.TranslationWalks : Prop :=
  ∀ (s : State) (ag : Agent) (va : W64) (acc : Acc) (root e1 e2 e3 : Nat), canon s = true →
    let c := agentCtx s ag
    let a := va.toNat
    let p1 := entryAddr root a 1
    let p2 := entryAddr (pteAddr e1) a 2
    let p3 := entryAddr (pteAddr e2) a 3
    let frame := e3 / 2 ^ 16 % 2 ^ 30
    (oneStage s c a root → s.walks.any (walkFor c a acc false) = false → walkRuns s c a acc false = true → EntryAt s c 1 p1 e1 → pteTbl e1 = true → EntryAt s c 2 p2 e2 → pteTbl e2 = true →
      (EntryAt s c 3 p3 e3 → pteTier e3 = 0 → leafAllows c e3 acc → ownOk s c .final (65536 * frame) = true →
        let held : Tlb :=
          { unit := c.unit, part := c.part, tag := c.tag, page := a / 65536, frame := frame, kind := pteKind e3, w := pteW e3,
            x := pteX e3, u := pteU e3, d := pteD e3 || acc == .write || acc == .atomic,
            frames := [frame, p3 / 65536, p2 / 65536, p1 / 65536], ipas := [] }
        GoesTo (exec (.translationWalk ag va acc) s) (fun t =>
          ((∀ n, c.unit ≠ .core n) → t.tlb = held :: s.tlb) ∧
          readLe t.hbm p3 8 = leafUsed e3 acc ∧ (∀ l, (∀ j, j < 8 → l ≠ .hbm (p3 + j)) → readLoc t l = readLoc s l) ∧
          translate t c a acc false = (.ok (65536 * frame + a % 65536) (kindOf (pteKind e3)), t))) ∧
      (ownOk s c .table1 p3 = true → lineOk s p3 = true → pteV (readLe s.hbm p3 8) = false →
        exec (.translationWalk ag va acc) s = .next s ∧ (translate s c a acc false).1 = .fault 0x20 1 (a / 65536))) ∧
    (∀ h, a < 2 ^ 55 → tlbFind s c (a / 65536) = some h → ((acc = .write ∨ acc = .atomic) → h.w = true ∧ h.d = true) →
      (acc = .fetch → h.x = true) → (c.l0 = true → h.u = true) →
      exec (.translationWalk ag va acc) s = .next s ∧
      (translate s c a acc false).1 = .ok (h.frame * 65536 + a % 65536) (kindOf h.kind)) ∧
    (let of (t : State) (n : Nat) : List Tlb := t.tlb.filter (fun o => o.unit == .core n)
     (∀ n, (of s n).length ≤ 1024) → GoesTo (exec (.translationWalk ag va acc) s) (fun t => (∀ n, (of t n).length ≤ 1024) ∧
       (t.tlb = s.tlb ∨ ∃ h rest, t.tlb = h :: rest ∧ h.unit = c.unit ∧ h.page = a / 65536) ∧
       (s.walks.any (walkFor c a acc false) = false → ∀ o ∈ s.tlb, o.unit ≠ c.unit → o ∈ t.tlb))) ∧
    (∀ w pa k t, tlbFind s c (a / 65536) = none → s.walks.find? (walkFor c a acc false) = some w →
      translate s c a acc false = (.ok pa k, t) →
      exec (.translationWalk ag va acc) s = .next t ∧
      ∀ u ∈ w.c.unit :: w.units, ∃ h, tlbFind t { c with unit := u } (a / 65536) = some h ∧ h.frame = pa / 65536) ∧
    (∀ n, c.unit = .core n → a < 2 ^ 55 → tlbFind s c (a / 65536) = none → s.walks.any (walkFor c a acc false) = false →
      64 ≤ (s.walks.filter (fun w => walkerOf w.c.unit == .core (n / 16))).length →
      exec (.translationWalk ag va acc) s = .next { s with walks := s.walks ++ [newWalk c a acc false 1] } ∧
      (translate s c a acc false).1 = .wait)

/-- tlbinv removes the held translations of its kind, and no other, and makes the walks start again that have used an entry of them, once
the core's stores are done and no access is under way through them or through one that has been replaced; before that it stalls, and for a walk that has started again eight
times it waits. A front end's access whose teardown began 64 µs ago is forced stale (R362, R388 to R390). -/
def Sys2Proof.Claims.Invalidation : Prop :=
  (∀ (s : State) (n : Nat) (q : Quartz) (a b : Sel), OnQuartz s n q →
    let va := (readReg s a).toNat
    let v := (readReg s b).toNat
    let drop (i : Instr) (p : Tlb → Bool) : Prop := ready i s = true →
      let used (w : Walk) : Bool := w.level != 1 && p w.entry
      let busy : Prop := framesBusy s ((s.tlb.filter p).map (·.frame)) = true ∨
        ∃ e ∈ s.tlbGone, p e.1 = true ∧ framesUsed s (fun id f => decide (id < e.2) && f == e.1.frame) = true
      (storesDone q.pend = true → ¬ busy →
        (∀ f ∈ s.fes, ∀ u ∈ f.2.queues, u.2.waits = []) → (∀ w ∈ s.walks, used w = true → w.n < 9) →
        Does i s { s with
          tlb := s.tlb.filter (fun t => !p t),
          walks := s.walks.map (fun w => if used w then
            { w with n := w.n + 1, level := 1, table := w.c.root1.getD 0, frames := [], ipas := [] } else w) }) ∧
      (storesDone q.pend = false ∨ busy ∨ (∃ w ∈ s.walks, used w = true ∧ 9 ≤ w.n) → exec i s = .next { s with last := .stalled })
    drop (.tlbinvAsid a b) (fun t => t.tag == v % 65536) ∧
    drop (.tlbinvVa a b) (fun t => t.tag == v % 65536 && t.page == va / 2 ^ 16 % 2 ^ 39) ∧
    drop (.tlbinvVmid a b) (fun t => t.part == v % 16) ∧
    drop (.tlbinvIpa a b) (fun t => t.part == v % 16 && t.ipas.contains (va / 2 ^ 16 % 2 ^ 30)) ∧
    drop (.tlbinvAll a b) (fun _ => true)) ∧
  (∀ s : State, canon s = true → GoesTo (exec .fetcherStaleTimeout s) (fun t =>
    (∀ l, readLoc t l = readLoc s l) ∧ ∀ fe q f u, HasQueue s fe q f u → ∃ f', mget t.fes fe = some f' ∧
      mget f'.queues q = some (again { u with waits := u.waits.filter (fun a =>
        match a.torn with | some t0 => decide (s.time < t0 + 64000) | none => true) })))

/-- The page-request queue: a group that found no position goes on once its partition has room; PRQHEAD moves the head over held
positions only, and the entries that it passes stay; PRQDONE resolves an entry the head has passed, and every group that waits on it
goes on, or takes its cause when the resolution failed; a queue whose packet waits on it goes on, or enters Error with FAULT at that packet;
resolving an entry of a partition in reset affects nothing else (R391 to R393, R446, R507). -/
def Sys2Proof.Claims.PageRequests : Prop :=
  (∀ (s : State) (loc : Nat) (g : Group) (l : Launch), canon s = true → mget s.groups loc = some g →
    mget s.launches g.launch = some l →
    let slot (p : Slot) : Slot := if p.wait = .position ∧ prRoom s.prq l.part = true then { p with wait := .none } else p
    exec (.pageRequestEntry loc) s = .next (setGroup s loc { g with slot0 := slot g.slot0, slot1 := slot g.slot1 })) ∧
  (∀ (s : State) (v : W64),
    let q := s.prq
    let h := v.toNat % 2 ^ 13
    let n := (h + 2 ^ 13 - q.head) % 2 ^ 13
    (n ≤ (q.tail + 2 ^ 13 - q.head) % 2 ^ 13 → exec (.prqheadWrite v) s = .next
      { s with prq := { q with
          head := h,
          entries := q.entries.map (fun e => { e with passed := e.passed || decide ((e.idx + 2 ^ 13 - q.head) % 2 ^ 13 < n) }) } }) ∧
    ((q.tail + 2 ^ 13 - q.head) % 2 ^ 13 < n → exec (.prqheadWrite v) s = .next s)) ∧
  (∀ (s : State) (v : W64), canon s = true →
    let id := v.toNat % 2 ^ 32
    let open_ := s.prq.entries.find? (fun e => e.seq == id)
    let fail := v.getLsbD 32
    let others (fe q : Nat) : Prop := ∀ n f m u, mget s.fes n = some f → mget f.queues m = some u → (n, m) ≠ (fe, q) →
      ∀ a ∈ u.waits, a.page ≠ some id
    (open_ = none ∨ (∃ e, open_ = some e ∧ e.passed = false) → exec (.prqdone v) s = .next s) ∧
    (∀ e, open_ = some e → e.passed = true →
      let prq : PrQueue := { s.prq with entries := s.prq.entries.filter (fun x => x != e) }
      let live : Prop := (feOf s e.part).ferst = 0
      (¬ live → exec (.prqdone v) s = .next { s with prq := prq }) ∧
      (live → (∀ n f m u, mget s.fes n = some f → mget f.queues m = some u → ∀ a ∈ u.waits, a.page ≠ some id) →
        GoesTo (exec (.prqdone v) s) (fun t => t.prq = prq ∧ (∀ l, readLoc t l = readLoc s l) ∧
          ∀ loc g, mget s.groups loc = some g →
            (g.stop = .page id → fail = false → mget t.groups loc =
              some { g with stop := if g.handler = true ∧ g.preq = true then .saving else .none }) ∧
            (g.stop = .page id → fail = true → g.handler = false → groupHandler s g ≠ 0 →
              mget t.groups loc = some { g with stop := .handler, stepping := false }) ∧
            (g.stop = .page id → fail = true → (g.handler = true ∨ groupHandler s g = 0) →
              mget t.groups loc = some { g with stop := .system, stepping := false }) ∧
            (g.stop = .frame id → fail = true → mget t.groups loc = some { g with stop := .system }) ∧
            (g.stop = .frame id → fail = false → mget t.groups loc = some { g with stop := .handler }) ∧
            (g.stop ≠ .page id → g.stop ≠ .frame id → mget t.groups loc = some g))) ∧
      (∀ fe q f u src, live → HasQueue s fe q f u → others fe q →
        u.waits = [{ who := .packet src, page := some id, torn := none }] → noSignal u →
        GoesTo (exec (.prqdone v) s) (fun t => t.prq = prq ∧ (∀ l, readLoc t l = readLoc s l) ∧
          ∃ f' x, mget t.fes fe = some f' ∧ mget f'.queues q = some x ∧
            (fail = false → x = again { u with waits := [] }) ∧
            (fail = true → x.state = .error ∧ x.err = 3 ∧ x.errIdx = srcIndex u src ∧ x.qrd = (passOne u src).qrd)))))

/-- Translation: what a walk reads, sets and holds, what an invalidation removes, and how page requests are queued and resolved
(R362, R370 to R378, R388 to R393). Which entry a full TLB replaces is free (log 15). -/
def Obligations.Translation : Prop :=
  Sys2Proof.Claims.TranslationWalks ∧ Sys2Proof.Claims.Invalidation ∧ Sys2Proof.Claims.PageRequests

/-! ### Platform registers -/

/-- mfp delivers the register's value of the moment of issue; mtp writes the register's bits that are not reserved, as a
platform-register write of its core does, the unit being out of reset; a register that does not exist, or a write of a read-only one, raises ILLEGAL_REG, a level too
low PRIVILEGE, and an earlier S access or acquire of the core holds the word (R360, R361, R393, R412, R413, R440, R463). -/
def Sys2Proof.Claims.PlatformRegisters : Prop :=
  ∀ (s : State) (n : Nat) (q : Quartz), OnQuartz s n q →
    let reads (block off : Nat) (v : W64) : Prop := ∀ (d : Sel) (b : BitVec 8) (o : BitVec 24), b.toNat = block → o.toNat = off →
      q.level = 2 → ready (.mfp d b o) s = true → platformReady q.pend = true → Does (.mfp d b o) s (later s d v)
    let writes (block off : Nat) (w : W64 → State) : Prop := ∀ (b : BitVec 8) (o : BitVec 24), b.toNat = block → o.toNat = off →
      q.level = 2 → inReset s block = false → (∀ a, ready (.mtp b o a) s = true → platformReady q.pend = true → Does (.mtp b o a) s (w (readReg s a))) ∧
        ∀ v, exec (.platformRegisterWrite n b o v) s = .next (w v)
    (∀ fe f, fe < 16 → mget s.fes fe = some f →
      let has (x : FrontEnd) : State := { s with fes := mput s.fes fe x }
      reads fe 0x000 f.fepart ∧ reads fe 0x008 f.fes2 ∧ reads fe 0x010 f.fering ∧ reads fe 0x020 0 ∧ reads fe 0x038 f.festop ∧
      reads fe 0x040 (BitVec.ofNat 64 f.stwr) ∧ reads fe 0x048 (BitVec.ofNat 64 f.strd) ∧
      writes fe 0x008 (fun v => has { f with fes2 := v &&& 0x3FFFFFFF0000#64 }) ∧
      writes fe 0x010 (fun v => has { f with fering := v &&& 0x3FFFFFFF000F#64 }) ∧
      writes fe 0x038 (fun v => has { f with festop := v &&& 0x3FFFFFFF000F#64 }) ∧
      (∀ x u, x < 16 → mget f.queues x = some u →
        let r := 0x100 + 64 * x
        reads fe r (BitVec.ofNat 64 u.base) ∧ reads fe (r + 0x10) (BitVec.ofNat 64 u.sig) ∧
        reads fe (r + 0x18) (BitVec.ofNat 64 u.qwr) ∧ reads fe (r + 0x20) (BitVec.ofNat 64 u.qrd) ∧
        ((blockOf s 5).quiet = false → reads fe (r + 0x28) (BitVec.ofNat 64 (u.state.code + 256 * (u.err % 256) + 2 ^ 32 * (u.errIdx % 2 ^ 32)))) ∧
        writes fe r (fun v => withQueue s fe x { u with base := (v &&& 0x7FFFFFFFFFFFC0#64).toNat, ahead := [] }) ∧
        (u.sigDue = false → writes fe (r + 0x10) (fun v => withQueue s fe x { u with sig := v.toNat % 2 ^ 55 })) ∧
        writes fe (r + 0x18) (fun v => withQueue s fe x { u with qwr := v.toNat }) ∧
        writes fe (r + 0x30) (fun v => withQueue s fe x { u with spill := (v &&& 0x7FFFFFFFFF0000#64).toNat }) ∧
        writes fe (r + 0x38) (fun v => withQueue s fe x { u with spillLen := v.toNat % 2 ^ 24 }))) ∧
    reads 0x10 0x000 (BitVec.ofNat 64 s.prq.base) ∧ reads 0x10 0x008 (BitVec.ofNat 64 s.prq.head) ∧
    reads 0x10 0x010 (BitVec.ofNat 64 s.prq.tail) ∧ reads 0x11 0x000 (BitVec.ofNat 64 (s.basalt.written + 65536 * s.basalt.read)) ∧
    reads 0x12 0x000 s.basalt.svctl ∧ reads 0x13 0x108 s.bells ∧ reads 0x50 0x020 (BitVec.ofNat 64 s.dbox.rd) ∧
    writes 0x10 0x000 (fun v => { s with prq := { s.prq with base := (v &&& 0x3FFFFFFF0000#64).toNat } }) ∧
    writes 0x12 0x000 (fun v => { s with basalt := { s.basalt with svctl := v &&& 0xFFFF#64 } }) ∧
    (∀ c, c < 32 → writes 0x13 (8 * c) (fun _ => { s with bells := s.bells ||| BitVec.ofNat 64 (2 ^ c) })) ∧
    writes 0x13 0x100 (fun _ => { s with bells := s.bells &&& ~~~(BitVec.ofNat 64 (2 ^ n)) }) ∧
    (∀ r p, r < 4 → mget s.roots r = some p →
      writes (0x40 + r) 0x000 (fun v => { s with roots := mput s.roots r { p with rppart := v &&& 0x1F#64 } })) ∧
    (∀ d a b o, q.level < platLevel b.toNat o.toNat → QRaises (.mfp d b o) s n q 0x44 0 ∧ QRaises (.mtp b o a) s n q 0x44 0) ∧
    (∀ d a b o,
      (platMap b.toNat o.toNat = none →
        (ready (.mfp d b o) s = true → QRaises (.mfp d b o) s n q 0x41 0) ∧
        (ready (.mtp b o a) s = true → QRaises (.mtp b o a) s n q 0x41 0)) ∧
      (∀ lv acc, platMap b.toNat o.toNat = some (lv, acc) → lv ≤ q.level →
        (ready (.mtp b o a) s = true → acc = .ro → QRaises (.mtp b o a) s n q 0x41 0) ∧
        (ready (.mfp d b o) s = true → platformReady q.pend = false → exec (.mfp d b o) s = .next { s with last := .stalled })))

/-- A stop is written to the front end's ring as its 64-byte record once the ring has room, oldest first; FESTRD consumes records; FEIRQ
acknowledges the bits written 1 and names the target core (R412, R440). -/
def Sys2Proof.Claims.StopRing : Prop :=
  ∀ (s : State) (fe : Nat) (f : FrontEnd) (v : W64), canon s = true → mget s.fes fe = some f →
    let has (x : FrontEnd) : State := { s with fes := mput s.fes fe x }
    let ring := f.festop.toNat / 2 ^ 16 % 2 ^ 30
    let size := 2 ^ (f.festop.toNat % 16)
    let pa := 65536 * ring + 64 * (f.stwr % size)
    let used := (f.stwr + 2 ^ 16 - f.strd) % 2 ^ 16
    (∀ r l, f.stops = r :: l → f.festop ≠ 0 → used < size → r.code < 256 → r.eid < 4096 → r.team < 2 ^ 32 → r.num < 2 ^ 32 →
      r.launch < 2 ^ 64 → r.loc < 2 ^ 64 → r.time < 2 ^ 64 → f.stwr < 2 ^ 16 →
      GoesTo (exec (.stopRecordWrite fe) s) (fun t =>
        let b := readBytes t.hbm pa 64
        mget t.fes fe = some { f with stops := l, stwr := (f.stwr + 1) % 2 ^ 16 } ∧
        (dword b 0).toNat = r.code + 256 * r.eid + (if r.dbg then 2 ^ 20 else 0) ∧ (dword b 8).toNat = r.launch ∧
        (dword b 16).toNat = r.team + 2 ^ 32 * r.num ∧ (dword b 24).toNat = r.loc ∧
        dword b 32 = (if r.dbg then r.caddr else 0) ∧ dword b 40 = (if r.dbg then r.pc else 0) ∧ (dword b 48).toNat = r.time ∧
        (dword b 56).toNat = f.stwr ∧ ∀ l, (∀ j, j < 64 → l ≠ .hbm (pa + j)) → readLoc t l = readLoc s l)) ∧
    (f.stops = [] ∨ f.festop = 0 ∨ size ≤ used → exec (.stopRecordWrite fe) s = .next s) ∧
    (v.toNat % 2 ^ 16 ≤ f.stwr → exec (.festrdWrite fe v) s = .next (has { f with strd := v.toNat % 2 ^ 16 })) ∧
    (f.stwr < v.toNat % 2 ^ 16 → exec (.festrdWrite fe v) s = .next s) ∧
    exec (.feirqAck fe v) s = .next (has { f with
      irqQ := f.irqQ &&& ~~~v, irqSys := f.irqSys && !v.getLsbD 25, irqCore := v.toNat / 2 ^ 16 % 32 })

/-- Platform registers and the stop ring: what mfp and mtp read and store, and how stops are recorded for system software (R360,
R412, R440). Reserved bits of a write are dropped (log 61). -/
def Obligations.PlatformAndStops : Prop :=
  Sys2Proof.Claims.PlatformRegisters ∧ Sys2Proof.Claims.StopRing

/-! ### Enclaves and page ownership -/

/-- encmk checks a creation descriptor and the frames it lists, in order, and makes a live enclave of the lowest free EID; a bad
descriptor, no free EID or a frame that is not free and zeroed is answered with its code and changes nothing. enckill ends a live
enclave of the caller's partition. dbgrd reads an item of a halted group of an enclave with the debug bit, and traps with PERM
otherwise; both requests wait while their partition is in reset (R363 to R367, R446, R447). Item 0x00 of dbgrd is a free value
(log 19). -/
def Obligations.EnclaveRequests : Prop :=
  (∀ (s s1 : State) (n : Nat) (q : Quartz) (d a : Sel) (b : List Byte) (l : List Nat), RequestRead s s1 n q a b →
    ready (.encmk d a) s = true →
    let part := actsFor q
    let unused (k : Nat) : Prop := k < 4096 ∧ mget s.basalt.enclaves k = none
    (notResetting s part →
      (¬ creationOk b → Served (.encmk d a) s d 2 0 (fun w => w = s1)) ∧
      (creationOk b → listsFrames s1 b l →
        ((∀ k, ¬ unused k) → Served (.encmk d a) s d 1 0 (fun w => w = s1)) ∧
        (∀ eid, unused eid → (∀ k, k < eid → ¬ unused k) →
          (¬ l.Nodup ∨ (∃ f ∈ l, (ownOf s f).cls ≠ 0 ∨ (ownOf s f).zeroed = false ∨ (ownOf s f).part ≠ part) →
            Served (.encmk d a) s d 3 0 (fun w => w = s1)) ∧
          (l.Nodup → (∀ f ∈ l, (ownOf s f).cls = 0 ∧ (ownOf s f).zeroed = true ∧ (ownOf s f).part = part) →
            (encmkRoot s1 q (dword b 0x18).toNat l = none → Served (.encmk d a) s d 2 0 (fun w => w = s1)) ∧
            (∀ root, encmkRoot s1 q (dword b 0x18).toNat l = some root → mayReown s1 l = true →
              Served (.encmk d a) s d 0 eid (fun w => Created s1 w part eid root b l)))))) ∧
    (∀ f, mget s.fes part = some f → f.ferst ≠ 0 → exec (.encmk d a) s = .next { s1 with last := .stalled })) ∧
  (∀ (s : State) (n : Nat) (q : Quartz) (d a : Sel), OnQuartz s n q → basaltKeys s → ready (.enckill d a) s = true →
    let eid := (readReg s a).toNat % 4096
    (notResetting s (actsFor q) →
      (∀ e, mget s.basalt.enclaves eid = some e → e.part = actsFor q → e.ending = false →
        Served (.enckill d a) s d 0 eid (fun w => Ended s w eid e)) ∧
      ((∀ e, mget s.basalt.enclaves eid = some e → e.part ≠ actsFor q ∨ e.ending = true) →
        Served (.enckill d a) s d 4 eid (fun w => w = s))) ∧
    (∀ f, mget s.fes (actsFor q) = some f → f.ferst ≠ 0 → exec (.enckill d a) s = .next { s with last := .stalled })) ∧
  (∀ (s : State) (n : Nat) (q : Quartz) (d a : Sel), OnQuartz s n q → ready (.dbgrd d a) s = true →
    let x := (readReg s a).toNat
    let loc := x % 2 ^ 18
    let item := x / 2 ^ 18 % 256
    let r := x / 2 ^ 26 % 256
    let lane := x / 2 ^ 34 % 64
    (∀ g l e h, mget s.groups loc = some g → g.stop = .halted h → mget s.launches g.launch = some l →
      mget s.basalt.enclaves l.eid = some e → e.debug = true → x < 2 ^ 40 →
      let reads (v : W64) : Prop := Becomes (.dbgrd d a) s (later s d v)
      (item = 1 → reads g.slot0.pc) ∧ (item = 2 → reads g.slot1.pc) ∧ (item = 3 → reads (live g false)) ∧
      (item = 4 → reads (live g true)) ∧ (item = 5 → reads g.cause) ∧ (item = 6 → reads g.caddr) ∧
      (item = 0 → ∃ v, reads v) ∧
      (∀ j, j < 64 → item = 0x40 + j → reads (sRead g.s j)) ∧ (∀ j, j < 16 → item = 0x80 + j → reads (kRead g.k j)) ∧
      (item = 0xC0 → r < g.allot → lane < g.width → reads ((mgetD g.v (64 * r + lane) 0).setWidth 64)) ∧
      (7 ≤ item ∧ item < 0x40 ∨ 0x90 ≤ item ∧ item ≠ 0xC0 ∨ item = 0xC0 ∧ (g.allot ≤ r ∨ g.width ≤ lane) →
        QTraps (.dbgrd d a) s n q 0x21 (readReg s a) 0)) ∧
    ((∀ g, mget s.groups loc = some g → (∀ h, g.stop ≠ .halted h) ∨ groupDebug s g = false) ∨ 2 ^ 40 ≤ x →
      QTraps (.dbgrd d a) s n q 0x21 (readReg s a) 0))

/-- A potreq of one frame at L1: ASSIGN gives a free zeroed frame of the partition to a live enclave, RECLAIM returns one, EVICT seals a
page and writes its image to the far memory, RESTORE makes a free frame await it, and answers when Shale has opened the image into it, or with
FRAMESTATE and the frame free and zeroed again when the image is not right; at L2 the first two move frames between the free
and the OS class. Each changes its own frame alone; a refused frame is answered with its code and changes nothing (R366, R379 to
R387). A released frame is free again once it has been scrubbed, and with the last of them the EID of an ended enclave (R381, R447). -/
def Sys2Proof.Claims.PotRequests : Prop :=
  (∀ (s s1 : State) (n : Nat) (q : Quartz) (d a : Sel) (b : List Byte) (i : Instr)
      (op eid frame version page loc tier target : Nat),
    (i = .assign d a ∨ i = .reclaim d a ∨ i = .evict d a ∨ i = .restoreFrames d a) → RequestRead s s1 n q a b →
    ready i s = true → notResetting s (actsFor q) → OneFrame b op eid frame version page loc tier target →
    let part := actsFor q
    let o := ownOf s frame
    let held : Prop := frame ∈ heldFrames s1
    let key := sealKey s1 eid
    let quiet : Prop := mayReown s1 [frame] = true
    let same (k : Nat) : Prop := Served i s d k eid (fun w => w = s1)
    let up : Nat := (o.version + 1) % 2 ^ 24
    (q.level < 2 → ∀ e, mget s.basalt.enclaves eid = some e → e.part = part → e.ending = false →
      (o.cls = 1 ∨ o.part ≠ part → same 5) ∧
      (o.cls ≠ 1 → o.part = part →
        (op = 0 →
          (o.cls = 0 → o.zeroed = true → quiet → Served i s d 0 eid (fun w => OwnBecomes s1 w frame
            (heldOwn part eid up false) ∧ Zeroed w frame ∧
            OutsideFrame s1 w frame)) ∧
          (o.cls ≠ 0 ∨ o.zeroed = false → same 3)) ∧
        (op = 1 →
          (o.cls = 3 → o.eid = eid → ¬ held → quiet → Served i s d 0 eid (fun w => Released s1 w frame o.version part ∧ w.hbm = s1.hbm)) ∧
          (o.cls ≠ 3 ∨ o.eid ≠ eid ∨ held → same 3)) ∧
        (op = 2 →
          (∀ p, o.cls = 3 → o.eid = eid → o.rst = false → o.version + 1 < 2 ^ 24 → ¬ held →
            runsOk s1 [(65536 * frame, 65536)] = true → leafOf s1 eid page = some p →
            pteTier (readLe s1.hbm p 8) = 0 → pteAddr (readLe s1.hbm p 8) = 65536 * frame → farDown s tier target = false → quiet →
            let plain := readBytes s1.hbm (65536 * frame) 65536
            Served i s d 0 eid (fun w => Released s1 w frame (o.version + 1) part ∧
              readBytes (mgetD w.far (farKey tier target) []) loc 65600 = sealImage key eid (o.version + 1) page plain ∧
              pteTier (readLe w.hbm p 8) = 2 ∧ readLe w.hbm p 8 / 2 ^ 16 % 2 ^ 30 = o.version + 1 ∧ OutsideWord s1 w p ∧
              ∃ x ∈ w.basalt.seals, x.key = key ∧ x.version = o.version + 1 ∧ x.vpage = page / 65536 ∧ sealPlain x = plain)) ∧
          (o.cls ≠ 3 ∨ o.eid ≠ eid ∨ o.rst = true ∨ o.version = 2 ^ 24 - 1 ∨ held → same 3)) ∧
        (op = 3 →
          (o.cls = 0 → o.zeroed = true →
            (farDown s tier target = true → same 6) ∧
            (farDown s tier target = false → quiet → ∃ w id, OwnBecomes s1 w frame (heldOwn part eid version true) ∧
              w.hbm = s1.hbm ∧ mget w.work id = some (.restore n w.fresh eid part version tier target [(frame, page, loc, o.version)]) ∧
              Becomes i s (withCore w { coreEntry w.fresh .priv .rlx (.scalar d) .wait with cov := 0 }))) ∧
          (o.cls ≠ 0 ∨ o.zeroed = false → same 3)))) ∧
    (q.level < 2 → (∀ e, mget s.basalt.enclaves eid = some e → e.part ≠ part ∨ e.ending = true) → same 4) ∧
    (q.level = 2 →
      (op < 2 → 16 ≤ eid → same 2) ∧
      (op = 0 → eid < 16 →
        (o.cls = 0 → o.zeroed = true → quiet → Served i s d 0 eid (fun w => OwnBecomes s1 w frame
          { cls := 2, part := eid, eid := 0, version := up, zeroed := false, rst := false } ∧ Zeroed w frame ∧
          OutsideFrame s1 w frame)) ∧
        (o.cls ≠ 0 ∨ o.zeroed = false → same 3)) ∧
      (op = 1 → eid < 16 →
        (o.cls = 2 → ¬ held → quiet → Served i s d 0 eid (fun w => Released s1 w frame o.version eid ∧ w.hbm = s1.hbm)) ∧
        (o.cls ≠ 2 ∨ held → same 3)))) ∧
  (∀ (s : State) (id m pid eid part version tier target frame page loc was : Nat) (q : Quartz), canon s = true →
    basaltKeys s → mget s.work id = some (.restore m pid eid part version tier target [(frame, page, loc, was)]) →
    mget s.quartz m = some q → ownOf s frame = heldOwn part eid version true →
    let img := readBytes (mgetD s.far (farKey tier target) []) loc 65600
    let good (p : Nat) (l : List Byte) : Prop := leafOf s eid page = some p ∧ openImage s (sealKey s eid) eid version page img = some l ∧
      readLe s.hbm p 8 / 2 ^ 16 % 2 ^ 30 = version ∧ pteTier (readLe s.hbm p 8) = 2
    let answers (t : State) (code : Nat) : Prop := ∃ c, mget t.quartz m = some c ∧
      ∀ x ∈ c.pend, x.id = pid → x.act = .value [] (BitVec.ofNat 64 (code + 256 * eid))
    (∀ p l, good p l → p % 8 = 0 → p / 65536 ≠ frame → frame < 2 ^ 24 → l.length = 65536 →
      let t := loadStep s id
      ownOf t frame = heldOwn part eid version false ∧ (∀ f, f ≠ frame → ownOf t f = ownOf s f) ∧
      readBytes t.hbm (65536 * frame) 65536 = l ∧ (∀ j, j < 65536 → lineOk t (65536 * frame + j) = true) ∧
      pteTier (readLe t.hbm p 8) = 0 ∧ pteAddr (readLe t.hbm p 8) = 65536 * frame ∧ answers t 0) ∧
    ((∀ p l, ¬ good p l) →
      ownOf (loadStep s id) frame = { freedOwn was part with zeroed := true } ∧
      (∀ f, f ≠ frame → ownOf (loadStep s id) f = ownOf s f) ∧ (loadStep s id).hbm = s.hbm ∧ answers (loadStep s id) 3)) ∧
  (∀ (s : State) (frame : Nat), canon s = true → basaltKeys s →
    let rest := s.shale.scrub.filter (fun x => x.1 != frame)
    let ours : Prop := ∃ c ∈ s.shale.cmds, frame ∈ c.freed
    (∀ e, ¬ ours → s.shale.scrub.find? (fun x => x.1 == frame) = some (frame, e) → GoesTo (exec (.frameScrubComplete frame) s) (fun t =>
      ownOf t frame = { ownOf s frame with zeroed := true } ∧ (∀ f, f ≠ frame → ownOf t f = ownOf s f) ∧ Zeroed t frame ∧
      OutsideFrame s t frame ∧ t.shale.scrub = rest ∧
      (∀ x, mget t.basalt.enclaves x =
        if e = some x ∧ (∀ r ∈ rest, r.2 ≠ some x) then none else mget s.basalt.enclaves x))) ∧
    (s.shale.scrub.find? (fun x => x.1 == frame) = none ∨ ours → exec (.frameScrubComplete frame) s = .next s))

/-- Shale's commands at the head of its queue: RECORD zeroes the record frames and forgets the enclave's held translations, STOP ends
the record, MOVE takes one entry at a time: its page's leaf takes tier 1, then the page is sealed and its frame released, or the page is
opened into a free frame that awaits it, and the status is written to the entry; the released frames are scrubbed once all down entries
are done, before the first up entry. A done command's descriptor says so, and the next command follows (R450 to R455). -/
def Sys2Proof.Claims.ShaleCommands : Prop :=
  ∀ (s : State) (c : ShCmd) (l : List ShCmd), canon s = true → basaltKeys s → s.shale.cmds = c :: l → notResetting s c.part →
    c.desc % 64 = 0 → c.eid < 4096 → (∀ x ∈ l, x.id ≠ c.id) →
    let done (i : Instr) (code : Nat) (p : State → Prop) : Prop := GoesTo (exec i s) (fun t =>
      t.shale.cmds = l ∧ readLe t.hbm (c.desc + 0x38) 8 = code + 256 ∧ p t)
    let liveNow (eid : Nat) (e : Enclave) : Prop := mget s.basalt.enclaves eid = some e ∧ e.part = c.part ∧ e.ending = false
    let dead (eid : Nat) : Prop := ∀ e, ¬ liveNow eid e
    let only : State → Prop := fun t => OutsideWord s t (c.desc + 0x38)
    (c.op = 1 →
      (∀ e, liveNow c.eid e → mayInvalidate s (tlbCovers 0 0 (0xF000 + c.eid)) = true →
        (∀ f ∈ s.fes, ∀ u ∈ f.2.queues, u.2.waits = []) → (∀ f ∈ c.recs, f ≠ c.desc / 65536) → done .shaleRecord 0 (fun t =>
        mget t.shale.recording c.eid = some c.recs ∧ (∀ f ∈ c.recs, Zeroed t f) ∧
        t.tlb = s.tlb.filter (fun x => x.tag != 0xF000 + c.eid) ∧
        ∀ a, a / 65536 ∉ c.recs → (a < c.desc + 0x38 ∨ c.desc + 0x40 ≤ a) → readByte t.hbm a = readByte s.hbm a)) ∧
      (∀ e, liveNow c.eid e → mayInvalidate s (tlbCovers 0 0 (0xF000 + c.eid)) = false → exec .shaleRecord s = .next s) ∧
      (dead c.eid → done .shaleRecord 3 only)) ∧
    (c.op = 2 →
      (∀ e, liveNow c.eid e → done .shaleStop 0 (fun t => mget t.shale.recording c.eid = none ∧ only t)) ∧
      (dead c.eid → done .shaleStop 3 only)) ∧
    (c.op ≠ 1 → exec .shaleRecord s = .next s) ∧ (c.op ≠ 2 → exec .shaleStop s = .next s) ∧ (c.op ≠ 3 → exec .move s = .next s) ∧
    (c.op = 3 → c.next = c.ndown → c.freed ≠ [] → GoesTo (exec .move s) (fun t =>
      t.shale.cmds = { c with freed := [] } :: l ∧ t.shale.scrub = s.shale.scrub.filter (fun x => !c.freed.contains x.1) ∧
      (∀ f ∈ c.freed, (∃ e, (f, e) ∈ s.shale.scrub) → ownOf t f = { ownOf s f with zeroed := true } ∧ Zeroed t f) ∧
      (∀ f, f ∉ c.freed → ownOf t f = ownOf s f) ∧ ∀ a, a / 65536 ∉ c.freed → readByte t.hbm a = readByte s.hbm a)) ∧
    (c.op = 3 → (c.next = c.ndown → c.freed = []) →
      (c.list.length ≤ c.next → done .move 0 only) ∧
      (∀ pa, c.list[c.next]? = some pa → pa % 32 = 0 →
        let b := readBytes s.hbm pa 32
        let frame := dwFld b 0 16 30
        let eid := dwFld b 0 48 12
        let far := farKey (dwFld b 0 4 4) (dwFld b 2 0 32)
        let loc := (dword b 8).toNat
        let page := (dword b 0x18).toNat
        let o := ownOf s frame
        let ver := dwFld b 2 32 24
        let ok : Prop := mayReown s [frame] = true
        let clear : Prop := mayInvalidate s (pageCovers b) = true
        let down : Bool := farDown s (dwFld b 0 4 4) (dwFld b 2 0 32)
        let apart (p : Nat) : Prop := p % 8 = 0 ∧ p / 65536 ≠ frame ∧ pa / 65536 ≠ frame ∧ (p + 8 ≤ pa ∨ pa + 32 ≤ p)
        let begins (p : State → Prop) : Prop := GoesTo (exec .move s) (fun t => t.shale.cmds.head? = some { c with mid := true } ∧ p t)
        let stepTo (fr : List Nat) (code : Nat) (p : State → Prop) : Prop := GoesTo (exec .move s) (fun t =>
          t.shale.cmds.head? = some { c with next := c.next + 1, mid := false, freed := fr } ∧ StatusOf s t pa code ∧ p t)
        let step := stepTo c.freed
        let key := sealKey s eid
        let aw := awaitImage s eid c.part frame ver
        let sameOwn (t : State) : Prop := ∀ f, ownOf t f = ownOf s f
        let kept (t : State) : Prop := sameOwn t ∧ OutsideWord s t pa
        let count (t : State) (good : Bool) : Prop := ∀ k r, mget s.shale.wset eid = some (k, r, c.id) →
          mget t.shale.wset eid = some (if good then (k, r + 1, c.id) else (k - 1, r, c.id))
        (c.mid = false → ¬ ok ∨ ¬ clear → exec .move s = .next s) ∧
        (c.next < c.ndown → c.mid = false → ok → clear →
          (∀ e p, liveNow eid e → o.cls = 3 → o.eid = eid → o.part = c.part → o.rst = false → o.version + 1 < 2 ^ 24 →
            frame ∉ heldFrames s → runsOk s [(65536 * frame, 65536)] = true → leafOf s eid page = some p →
            pteTier (readLe s.hbm p 8) = 0 → pteAddr (readLe s.hbm p 8) = 65536 * frame →
            begins (fun t => sameOwn t ∧ pteTier (readLe t.hbm p 8) = 1 ∧ pteAddr (readLe t.hbm p 8) = 65536 * frame ∧
              OutsideWord s t p ∧ ∀ x ∈ t.tlb, x.tag ≠ 0xF000 + eid ∨ x.page ≠ page / 65536)) ∧
          (dead eid ∨ o.cls ≠ 3 ∨ o.eid ≠ eid ∨ o.part ≠ c.part ∨ frame ∈ heldFrames s → step 2 kept)) ∧
        (c.next < c.ndown → c.mid = true →
          (¬ ok → exec .move s = .next s) ∧
          (∀ e p, ok → liveNow eid e → o.cls = 3 → o.eid = eid → o.part = c.part → o.rst = false → o.version + 1 < 2 ^ 24 →
            frame ∉ heldFrames s → runsOk s [(65536 * frame, 65536)] = true → leafOf s eid page = some p → apart p →
            pteTier (readLe s.hbm p 8) = 1 → pteAddr (readLe s.hbm p 8) = 65536 * frame →
            (down = false → stepTo (c.freed ++ [frame]) 1 (fun t => Released s t frame (o.version + 1) c.part ∧
              readLe t.hbm (pa + 0x10) 8 / 2 ^ 32 % 2 ^ 24 = o.version + 1 ∧
              readBytes (mgetD t.far far []) loc 65600 =
                sealImage key eid (o.version + 1) page (readBytes s.hbm (65536 * frame) 65536) ∧
              pteTier (readLe t.hbm p 8) = 2 ∧ readLe t.hbm p 8 / 2 ^ 16 % 2 ^ 30 = o.version + 1)) ∧
            (down = true → step 4 (fun t => sameOwn t ∧ pteTier (readLe t.hbm p 8) = 0 ∧
              pteAddr (readLe t.hbm p 8) = 65536 * frame))) ∧
          (∀ p, ok → dead eid ∨ o.cls ≠ 3 ∨ o.eid ≠ eid ∨ o.part ≠ c.part ∨ frame ∈ heldFrames s → leafOf s eid page = some p →
            apart p → step 2 (fun t => sameOwn t ∧ pteTier (readLe t.hbm p 8) = 0))) ∧
        (c.ndown ≤ c.next → c.mid = false → ok → clear →
          (∀ e, liveNow eid e → o.cls = 0 → o.zeroed = true → o.part = c.part → frame < 2 ^ 24 →
            (down = false → ∀ p, leafOf aw eid page = some p → pteTier (readLe s.hbm p 8) = 2 →
              begins (fun t => OwnBecomes s t frame (heldOwn c.part eid ver true) ∧ pteTier (readLe t.hbm p 8) = 1 ∧ OutsideWord s t p)) ∧
            (down = false → (leafOf aw eid page = none ∨ ∃ p, leafOf aw eid page = some p ∧ pteTier (readLe s.hbm p 8) ≠ 2) →
              step 3 (fun t => Released s t frame ver c.part ∧ OutsideWord s t pa ∧ count t false)) ∧
            (down = true → step 4 (fun t => kept t ∧ count t false))) ∧
          (dead eid ∨ o.cls ≠ 0 ∨ o.zeroed = false ∨ o.part ≠ c.part → step 2 (fun t => kept t ∧ count t false))) ∧
        (c.ndown ≤ c.next → c.mid = true → o = heldOwn c.part eid ver true → down = false →
          (∀ p m, leafOf s eid page = some p → apart p → frame < 2 ^ 24 →
            openImage s key eid ver page (readBytes (mgetD s.far far []) loc 65600) = some m → m.length = 65536 →
            readLe s.hbm p 8 / 2 ^ 16 % 2 ^ 30 = ver → pteTier (readLe s.hbm p 8) = 1 →
            step 1 (fun t => ownOf t frame = heldOwn c.part eid ver false ∧ (∀ f, f ≠ frame → ownOf t f = ownOf s f) ∧
              readBytes t.hbm (65536 * frame) 65536 = m ∧ pteTier (readLe t.hbm p 8) = 0 ∧
              pteAddr (readLe t.hbm p 8) = 65536 * frame ∧ count t true)) ∧
          (leafOf s eid page = none →
            step 3 (fun t => Released s t frame ver c.part ∧ OutsideWord s t pa ∧ count t false))) ∧
        (c.ndown ≤ c.next → c.mid = true → o ≠ heldOwn c.part eid ver true → leafOf s eid page = none →
          step 2 (fun t => kept t ∧ count t false))))

/-- Page ownership: the four operations of potreq, scrubbing, and Shale's commands (R366, R379 to R387, R447, R450 to R455). Seals
and ciphers are uninterpreted (log 9); the answer to a RESTORE whose image fails follows log 80. -/
def Obligations.PageOwnership : Prop :=
  Sys2Proof.Claims.PotRequests ∧ Sys2Proof.Claims.ShaleCommands

/-! ### Saves and restores -/

/-- PREEMPT puts its request and deadline on every group of the team at once, which ends a wait in mwait, or is answered with its code and changes no team; at the
deadline the groups that have not reached their save are forced to a word boundary; RESUME starts a stopped group (R396 to R399,
R438). -/
def Sys2Proof.Claims.Preemption : Prop :=
  (∀ (s : State) (fe lid idx dl : Nat) (area : W64) (f : FrontEnd), FeIdle s fe f →
    let i : Instr := .preempt fe lid idx dl area
    (∀ tid t l s1, NamedTeam s fe lid idx tid t l →
      let ready := pagesReady (encCtx s l.eid) .write (areaPages area.toNat 0 (layoutOf t.groups.length l).shdEnd) s
      (t.preempt = none ∨ t.imgFail = true → area.toNat % 65536 = 0 →
        (ready = (true, s1) → Reports i s fe 0 (fun w =>
          mget w.teams tid = some { t with preempt := some (s.time + dl % 2 ^ 32, area), imgFail := false } ∧
          (∀ n loc g, GroupAt s t n loc g → mget w.groups loc = some { g with
            preq := true, pdlAt := s.time + dl % 2 ^ 32,
            slot0 := if g.preq then g.slot0 else wakeSlot g.slot0, slot1 := if g.preq then g.slot1 else wakeSlot g.slot1,
            stop := if g.handler = true ∧ (match g.stop with | .none => true | .page _ => true | _ => false) = true then .saving else g.stop }) ∧
          (∀ loc, loc ∉ t.groups → mget w.groups loc = mget s.groups loc) ∧ w.saved = s.saved)) ∧
        (ready = (false, s1) → Reports i s fe 3 (sameTeams s))) ∧
      (t.preempt = none → area.toNat % 65536 ≠ 0 → Reports i s fe 3 (sameTeams s)) ∧
      (t.preempt ≠ none → t.imgFail = false → Reports i s fe 5 (sameTeams s))) ∧
    (noTeam s fe lid idx → Reports i s fe 4 (sameTeams s))) ∧
  (∀ (s : State) (tid : Nat) (t : Team) (dl : Nat) (area : W64), canon s = true → mget s.teams tid = some t →
    t.preempt = some (dl, area) →
    (dl ≤ s.time → GoesTo (exec (.forcedSave tid) s) (fun w => w.teams = s.teams ∧ (∀ l, readLoc w l = readLoc s l) ∧
      ∀ n loc g, GroupAt s t n loc g →
        let takes : Prop := (g.stop = .none ∨ ∃ id, g.stop = .page id) ∧ scrszLeft s loc = false
        (takes → mget w.groups loc = some { g with stop := .saving, slot0 := forced g.slot0, slot1 := forced g.slot1 } ∧
          ∀ c, mget w.cores (locCore loc) = some c → ∀ k ∈ c.claims, k.loc ≠ loc) ∧
        (¬ takes → mget w.groups loc = some g))) ∧
    (s.time < dl → exec (.forcedSave tid) s = .next s)) ∧
  (∀ (s : State) (fe lid idx n : Nat) (f : FrontEnd), FeIdle s fe f →
    let i : Instr := .feResume fe lid idx n
    (∀ tid t l loc g, NamedTeam s fe lid idx tid t l → GroupAt s t n loc g → g.num = n →
      (∀ m loc' g', GroupAt s t m loc' g' → g'.num = m) →
      (g.stop = .system ∨ g.stop = .halted true → Reports i s fe 0 (fun w =>
        w = { setGroup s loc { g with stop := .none } with fes := w.fes })) ∧
      (g.stop ≠ .system → g.stop ≠ .halted true → Reports i s fe 4 (sameTeams s))) ∧
    (noTeam s fe lid idx → Reports i s fe 4 (sameTeams s)))

/-- The image of a team is taken once every group has reached its save and its work has drained: the divergence stacks go to spill
memory, the image with its seal to the save area, a resume entry with the next sequence number is made, and the team leaves
its core. A late result waits in its forwarding entry, 16 at most, and is delivered once the group is placed (R400 to R406, R509). -/
def Sys2Proof.Claims.Saves : Prop :=
  (∀ (s : State) (tid : Nat) (t : Team) (l : Launch) (dl : Nat) (area : W64), canon s = true → mget s.teams tid = some t →
    t.preempt = some (dl, area) → mget s.launches t.launch = some l →
    ((∃ e ∈ teamGroups s tid, reachedSave e.2 = false ∨ drained s e.1 e.2 = false) ∨ t.imgFail = true →
      exec (.imageTaken tid) s = .next s) ∧
    (∀ s1 s2 s3 runs, t.imgFail = false → l.mx = false →
      (∀ e ∈ teamGroups s tid, reachedSave e.2 = true ∧ drained s e.1 e.2 = true) → fwdRoom s (teamGroups s tid) = true →
      let c := encCtx s l.eid
      let s0 := (teamGroups s tid).foldl (fun s e => finishScrsz s e.1) s
      let gs := teamGroups s1 tid
      let p := imageParts s1 t l gs [] []
      let size := (imageBytes t l p 0).length
      writeStacks c (teamGroups s0 tid) s0 = (true, s1) → pagesReady c .write (areaPages area.toNat 0 size) s1 = (true, s2) →
      placeRun s2 c area.toNat size .write true = (.ok runs, s3) → runsApart runs →
      t.groups.length ≤ 32 → t.launch < 2 ^ 64 → t.index < 2 ^ 32 → t.seq + 1 < 2 ^ 64 →
      (∀ x ∈ gs, recordFits l x.2) →
      GoesTo (exec (.imageTaken tid) s) (fun w =>
        let img := readRuns w runs
        let tag := Config.gcmTag (sealKey s l.eid) (saveNonce l.eid (t.seq + 1)) (sealedBytes img)
        img = imageBytes t l p tag.toNat ∧ (dword img 8).toNat = t.seq + 1 ∧ (dword img 0x10).toNat = t.launch ∧
        (dword img 0x18).toNat = t.index ∧ leNat ((img.drop 0x40).take 16) = tag.toNat ∧
        (∀ x ∈ gs, x.2.num < t.groups.length → (∀ y ∈ gs, y.2.num = x.2.num → y = x) → RecordHolds l (recordOf l img x.2.num) x.2) ∧
        mget w.teams tid = none ∧ (∀ x ∈ gs, mget w.groups x.1 = none) ∧
        (∃ v ∈ w.saved, v.tid = tid ∧ v.fe = l.fe ∧ v.launch = t.launch ∧ v.index = t.index ∧ v.eid = l.eid ∧ v.seq = t.seq + 1 ∧
          v.consumed = false) ∧
        (∀ v ∈ w.saved, v.launch = t.launch → v.index = t.index → v.seq = t.seq + 1 ∧ v.consumed = false)))) ∧
  (∀ (s : State) (id : Nat), canon s = true →
    let late := s.late.filter (fun x => x.id != id)
    let dest := s.fwd.reverse.find? (fun f => f.ids.contains id)
    let i : Instr := .lateResultArrival id
    (∀ r, s.late.find? (fun x => x.id == id) = some r →
      (∀ f, dest = some f → f.place = none →
        (f.stored.length < 16 → exec i s = .next { s with
          late := late, fwd := s.fwd.map (fun x => if x = f then { x with stored := x.stored ++ [r] } else x) }) ∧
        (16 ≤ f.stored.length → exec i s = .next s)) ∧
      (∀ f loc g p a, dest = some f → f.place = some loc → mget s.groups loc = some g → allExited g = false → r.chan = none →
        r.queue = none → r.flags < 2 ^ 64 → g.pend.find? (fun x => x.id == id) = some p → p.dst = .scalar a →
        GoesTo (exec i s) (fun w =>
          Returned w { s with groups := mput s.groups loc { gWrite g a r.status with flags := g.flags ||| BitVec.ofNat 64 r.flags },
                              late := late, fwd := fwdDone s.fwd id } (.group loc p.slot) id ∧
          ∀ l, readLoc w l = readLoc s l)) ∧
      (dest = none → exec i s = .next { s with late := late })) ∧
    (s.late.find? (fun x => x.id == id) = none → exec i s = .next s))

/-- RESTORE takes an image only if its seal, its sequence number, its launch and index and its layout check, and then consumes the
resume entry; an entry is restored once at most. The checked team is placed once its core has room, with the registers, masks, barriers and
shared memory of the image (R402, R407, R408). -/
def Sys2Proof.Claims.Restores : Prop :=
  (∀ (s : State) (fe lid idx core : Nat) (area : W64) (f : FrontEnd), FeIdle s fe f →
    let i : Instr := .restore fe lid idx area core
    let check := restoreCheck s fe lid idx area core
    (∀ img st s1, check = (.ok (img, st), s1) →
      (∃ v ∈ s.saved, v.fe = fe ∧ v.launch = lid ∧ v.index = idx ∧ v.consumed = false ∧ (dword img 8).toNat = v.seq ∧
        (dword img 0x10).toNat = lid ∧ (dword img 0x18).toNat = idx ∧ ∃ l e, mget s.launches lid = some l ∧
          mget s.basalt.enclaves l.eid = some e ∧ e.ending = false ∧
          leNat ((img.drop 0x40).take 16) = (Config.gcmTag (sealKey s l.eid) (saveNonce l.eid v.seq) (sealedBytes img)).toNat) ∧
      Reports i s fe 0 (fun w => w.teams = s.teams ∧ w.groups = s.groups ∧
        (∀ v ∈ w.saved, v.launch = lid → v.index = idx → v.consumed = true) ∧
        ∃ f', mget w.fes fe = some f' ∧ ∃ r, f'.restores = f.restores ++ [r] ∧ r.launch = lid ∧ r.index = idx ∧ r.core = core ∧
          r.image = img)) ∧
    (∀ k s1, check = (.error k, s1) → Reports i s fe k (sameTeams s)) ∧
    ((∀ v ∈ s.saved, ¬ (v.fe = fe ∧ v.launch = lid ∧ v.index = idx)) → Reports i s fe 4 (sameTeams s)) ∧
    (∀ v l, s.saved.find? (fun x => x.fe == fe && x.launch == lid && x.index == idx) = some v → v.consumed = true →
      mget s.launches lid = some l → ∃ k, k ≠ 0 ∧ Reports i s fe k (sameTeams s))) ∧
  (∀ (s : State) (r : Restore) (l : Launch) (v : Saved) (f : FrontEnd), canon s = true → mget s.fes r.fe = some f →
    f.restores.head? = some r → (∀ fe x y, fe ≠ r.fe → mget s.fes fe = some x → x.restores.head? = some y → y.id ≠ r.id) →
    s.saved.find? (fun x => x.launch == r.launch && x.index == r.index) = some v → mget s.launches r.launch = some l →
    let rec_ (n : Nat) : List Byte := recordOf l r.image n
    let live := (List.range l.size).filter (fun n => !zeroPart (rec_ n) 0 0x100)
    let d : Demand := { demandOf l with allots := live.map (fun n => (n, (dword (rec_ n) 0x60).toNat % 2 ^ 9)) }
    (fitsOn s d r.core = false → exec (.restorePlacement r.id) s = .next s) ∧
    (fitsOn s d r.core = true → l.mx = false → l.pair = false → l.size ≤ 32 → mget s.teams v.tid = none →
      (∀ x ∈ s.fwd, ¬ (x.launch = r.launch ∧ x.team = r.index)) →
      GoesTo (exec (.restorePlacement r.id) s) (fun t => ∃ T f', mget t.teams v.tid = some T ∧ mget t.fes r.fe = some f' ∧
        f'.restores = f.restores.drop 1 ∧ T.launch = r.launch ∧ T.index = r.index ∧ T.core = r.core ∧ T.seq = v.seq ∧
        T.preempt = none ∧ T.groups.length = l.size ∧ t.hbm = s.hbm ∧
        (∀ a, a < l.shared → a + (layoutOf l.size l).shd < r.image.length →
          readLoc t (.shared v.tid a) = r.image.getD ((layoutOf l.size l).shd + a) 0) ∧
        (∀ b, b < 16 → let x := (dword r.image (0x100 + 16 * b)).toNat
          mgetD T.bars b noBar = { phase := x % 2 ^ 32, count := x / 2 ^ 32 % 2 ^ 6, arrived := dword r.image (0x108 + 16 * b) }) ∧
        ∀ n ∈ live, ∃ loc g, T.groups[n]? = some loc ∧ T.retired.getLsbD n = false ∧ mget t.groups loc = some g ∧
          locCore loc = r.core ∧ mget s.groups loc = none ∧ g.team = v.tid ∧ g.launch = r.launch ∧ g.num = n ∧ g.width = l.width ∧
          (∀ m, 1 ≤ m → m < 64 → sRead g.s m = dword (rec_ n) (0xF8 + 8 * m)) ∧
          (∀ m, 1 ≤ m → m < 16 → kRead g.k m = dword (rec_ n) (0x2F0 + 8 * m)) ∧
          g.flags = dword (rec_ n) 0x68 ∧ g.flagsen = dword (rec_ n) 0x70 ∧ g.cause = dword (rec_ n) 0x78 ∧
          g.caddr = dword (rec_ n) 0x80 ∧ g.shape = dword (rec_ n) 0x88 ∧ g.spill = dword (rec_ n) 0x98 ∧
          g.allot = (dword (rec_ n) 0x60).toNat % 2 ^ 9 ∧
          (∀ m j, m < (dword (rec_ n) 0x60).toNat / 2 ^ 9 % 2 ^ 9 → j < l.width → l.width ≤ 64 →
            (mgetD g.v (64 * m + j) 0).toNat = leNat (((rec_ n).drop (0x1100 + 4 * (l.width * m + j))).take 4)) ∧
          ((dword (rec_ n) 0x20).toNat / 2 ^ 39 % 8 = 1 → g.slot0.st = .running ∧ g.slot0.pc = dword (rec_ n) 0 ∧
            g.slot0.pm = dword (rec_ n) 8 ∧ g.slot0.exec = dword (rec_ n) 0x10))))

/-- Pre-emption of a team, the image that a save writes, and the restore of it (R395 to R410, R438, R509). What the image has no
field for is kept beside it (log 10); seals are uninterpreted (log 9). -/
def Obligations.SavesAndRestores : Prop :=
  Sys2Proof.Claims.Preemption ∧ Sys2Proof.Claims.Saves ∧ Sys2Proof.Claims.Restores

/-! ### Partitions and attestation -/

/-- FEPART and COLSET are written only without a conflict: no cluster of two valid ranges, no colour of two valid sets, nothing of
the partition running; COLST has the reason, and a colour that joins or leaves the set reads zero. PARTITION_RESET acts in four
steps: its queues, its enclaves, its teams, its clusters, colours and held translations, CLPWR showing their power cycle until it
ends; FEPART, FES2 and COLSET survive (R441 to R446). What CLPWR[0] reads during a power cycle is free (log 83). -/
def Obligations.Partitions : Prop :=
  (∀ (s : State) (fe : Nat) (f : FrontEnd) (v : W64), canon s = true → mget s.fes fe = some f →
    let x := v &&& 0xF3F3F#64
    let busy : Prop := (∃ u ∈ f.queues, u.2.state ≠ .idle) ∨ ∃ n t, mget s.teams n = some t ∧ launchIn s t.launch fe
    let shared : Prop := ∃ o g c, o ≠ fe ∧ mget s.fes o = some g ∧ inRange x c ∧ inRange g.fepart c
    (busy ∨ shared → exec (.fepartWrite fe v) s = .next s) ∧
    (¬ busy → ¬ shared → exec (.fepartWrite fe v) s = .next { s with fes := mput s.fes fe { f with fepart := x } })) ∧
  (∀ (s : State) (die p : Nat) (d : Die) (v : W64), canon s = true → mget s.dies die = some d → mwf (0 : W64) d.colset = true → p < 16 →
    let x := v &&& 0x1073F#64
    let i : Instr := .colsetWrite die p v
    let valid : Prop := x.getLsbD 16 = true
    let aligned : Prop := x.toNat / 2 ^ 8 % 8 ≤ 6 ∧ x.toNat % 64 % 2 ^ (x.toNat / 2 ^ 8 % 8) = 0
    let overlaps : Prop := ∃ q c, q < 16 ∧ q ≠ p ∧ inColours x c ∧ inColours (mgetD d.colset q 0) c
    let busy : Prop := (∃ n t, mget s.teams n = some t ∧ coreDie t.core = die ∧ launchIn s t.launch p) ∨ ∃ l ∈ d.lines, l.part = p
    let refused (k : Nat) : Prop := exec i s = .next (withDie s die { d with colst := k })
    (valid → ¬ aligned → refused 1) ∧ (valid → aligned → overlaps → refused 2) ∧
    ((valid → aligned ∧ ¬ overlaps) → busy → refused 3) ∧
    ((valid → aligned ∧ ¬ overlaps) → ¬ busy → GoesTo (exec i s) (fun t => ∃ d', mget t.dies die = some d' ∧ d'.colst = 0 ∧
      mgetD d'.colset p 0 = x ∧ (∀ q, q ≠ p → mgetD d'.colset q 0 = mgetD d.colset q 0) ∧ d'.lines = d.lines ∧
      ColoursZeroed s t die (fun c => ¬ (inColours (mgetD d.colset p 0) c ↔ inColours x c)) ∧ { t with dies := s.dies, quanta := s.quanta } = s))) ∧
  (∀ (s : State) (p : Nat) (f : FrontEnd), canon s = true → basaltKeys s → mget s.fes p = some f → mrising none f.queues = true →
    let cycled (die k : Nat) : Bool := (partCores f).any (fun c => coreDie c == die && coreCluster c == k)
    let stepTo (n : Nat) (g : State → FrontEnd → Prop) : Prop := GoesTo (exec (.partitionReset p) s) (fun t =>
      ∃ f', mget t.fes p = some f' ∧ f'.ferst = n ∧ f'.fepart = f.fepart ∧ f'.fes2 = f.fes2 ∧ t.hbm = s.hbm ∧ g t f')
    (f.ferst ≤ 1 → stepTo 2 (fun t f' => t.groups = s.groups ∧ t.basalt = s.basalt ∧ ∀ q u, mget f.queues q = some u →
      ∃ u', mget f'.queues q = some u' ∧ (u.state = .idle → u' = u) ∧
        (u.state ≠ .idle → u'.state = .error ∧ u'.err = 9 ∧ u'.qwr = u.qwr ∧ u'.qrd = u.qrd))) ∧
    (f.ferst = 2 → stepTo 3 (fun t _ => ∀ eid e, mget s.basalt.enclaves eid = some e →
      (e.part = p → mget t.basalt.enclaves eid = none ∨ ∃ e', mget t.basalt.enclaves eid = some e' ∧ e'.ending = true) ∧
      (e.part ≠ p → mget t.basalt.enclaves eid = some e))) ∧
    (f.ferst = 3 → stepTo 4 (fun t f' => f'.graph = none ∧ f'.restores = [] ∧ f'.sysc = [] ∧ f'.stops = [] ∧
      (∀ n l, mget s.launches n = some l → mget t.launches n = if l.part = p then none else some { l with waiting := false }) ∧
      (∀ loc g l, mget s.groups loc = some g → mget s.launches g.launch = some l →
        mget t.groups loc = if l.part = p then none else some g) ∧
      (∀ v ∈ t.saved, v ∈ s.saved ∧ ¬ launchIn s v.launch p) ∧ (∀ v ∈ t.fwd, v ∈ s.fwd ∧ ¬ launchIn s v.launch p))) ∧
    (f.ferst = 4 → stepTo 5 (fun t _ => (∀ c k, mget s.cores c = some k → ∃ k', mget t.cores c = some k' ∧
        (c ∈ partCores f → k'.free = 1536 ∧ k'.claims = [] ∧ k'.tiles = [] ∧ k'.mat = []) ∧ (c ∉ partCores f → k' = k)) ∧
      (∀ die d, die < 8 → mget s.dies die = some d → mwf (0 : W64) d.colset = true → mwf (1 : W64) d.clpwr = true →
        ColoursZeroed s t die (inColours (mgetD d.colset p 0)) ∧ ∃ d', mget t.dies die = some d' ∧ d'.colset = d.colset ∧
          d'.lines = d.lines.filter (fun l => l.part != p) ∧
          ∀ k, (cycled die k → (mgetD d'.clpwr k 1).getLsbD 1 = true) ∧ (¬ cycled die k → mgetD d'.clpwr k 1 = mgetD d.clpwr k 1)) ∧
      t.tlb = s.tlb.filter (fun x => x.part != p) ∧ t.walks = s.walks.filter (fun x => x.c.part != p))) ∧
    (f.ferst = 5 → stepTo 0 (fun t _ => t.groups = s.groups ∧ t.cores = s.cores ∧ t.basalt = s.basalt ∧
      ∀ die d, mget s.dies die = some d → mwf (1 : W64) d.clpwr = true → ∃ d', mget t.dies die = some d' ∧ d'.colset = d.colset ∧
        ∀ k, mgetD d'.clpwr k 1 = if cycled die k then 1 else mgetD d.clpwr k 1)))

/-- The SPDM responder: a request is answered with its error when no connection is open, its session cannot be decrypted, its
version or its form is wrong, its stage does not accept it or its code is none of R459; an accepted request is answered with what
R458 has the responder say, its transcript hashes take it and its answer in, signatures and session secrets are made over them,
and its connection or session moves on; a session whose sequence numbers are used up ends. A session may be bound to a live
enclave, whose measurement it then reports (R456, R458 to R462). The response codes are SPDM's own (log 21), the layout of
messages, the key schedule and the 64 bits of a sequence number are the model's (log 89). Response codes are taken from SPDM (log
21), and so are transcripts and key schedule (log 89). -/
def Obligations.Attestation : Prop :=
  (∀ (s : State) (m : SpdmMsg), mrising none s.spdm.conns = true →
    let fails (k : Nat) : Prop := exec (.getVersion m) s = .next (answered s (errorReply k))
    (m.session = none → m.formOk = true →
      (mget s.spdm.conns m.ep ≠ none ∨ s.spdm.conns.length < 64 → GoesTo (exec (.getVersion m) s) (fun t =>
        t.spdm.sess = s.spdm.sess.filter (fun x => x.ep != m.ep) ∧ (∀ x, x ≠ m.ep → mget t.spdm.conns x = mget s.spdm.conns x) ∧
        (∃ r, t.spdm.reply = some r ∧ r.code = 0x04 ∧ r.version = 0x13 ∧ r.versions = [0x13] ∧
          mget t.spdm.conns m.ep = some { st := .versioned, a := spoken m r, m1 := [], l1 := [] }) ∧ { t with spdm := s.spdm } = s)) ∧
      (mget s.spdm.conns m.ep = none → 64 ≤ s.spdm.conns.length → fails 0x03)) ∧
    (m.session = none → m.formOk = false → fails 0x01) ∧
    (m.session ≠ none → sessionFits s m → fails 0x04) ∧
    (m.session = none → m.versionOk = true → turnGo s (.spdm m) = .next (answered s (errorReply 0x07)))) ∧
  (∀ (s : State) (m : SpdmMsg) (i : Instr) (code : Nat) (w : Where), SpdmReq i m code w → mrising none s.spdm.conns = true →
    let fails (u : State) (k : Nat) : Prop := exec i s = .next (answered u (errorReply k))
    (mget s.spdm.conns m.ep = none → fails s 0x04) ∧
    (∀ c, mget s.spdm.conns m.ep = some c →
      let takes := spdmTakes c (sessionOf s m) m.session.isSome w
      (∀ id, m.session = some id → (m.decryptOk = false ∨ sessionOf s m = none) →
        fails { s with spdm := { s.spdm with sess := s.spdm.sess.filter (fun x => !(x.id == id && x.ep == m.ep)) } } 0x06) ∧
      (sessionFits s m →
        (m.versionOk = false → fails s 0x41) ∧ (m.versionOk = true → takes = false → fails s 0x04) ∧
        (m.versionOk = true → takes = true → m.formOk = false → fails s 0x01) ∧
        (m.versionOk = true → takes = true → m.formOk = true → GoesTo (exec i s) (fun t => ∃ r, t.spdm.reply = some r ∧
          let x := spoken m r
          let over_ := signsOver i m c (sessionOf s m) x
          { t with spdm := s.spdm } = s ∧ t.spdm.next = s.spdm.next ∧ r.code = code % 128 ∧ r.error = 0 ∧ replyHolds i m r ∧
          (over_ = none → r.sig = none ∧ t.spdm.signed = s.spdm.signed) ∧
          (∀ l, over_ = some l → r.sig = some (Config.deviceSign s.spdm.signed (Config.sha384 l)) ∧ t.spdm.signed = s.spdm.signed + 1) ∧
          (∀ n, i = .getMeasurements m n →
            (n.toNat = 0 → r.count = 32) ∧ (1 ≤ n.toNat → n.toNat ≤ 32 → r.blocks = [mgetD s.basalt.mr (n.toNat - 1) 0]) ∧
            (n.toNat = 0xFF → r.blocks = (List.range 32).map (fun j => mgetD s.basalt.mr j 0))) ∧
          (m.session = none → mget t.spdm.conns m.ep = some (connAfter i m c x) ∧ t.spdm.sess = s.spdm.sess) ∧
          (m.session ≠ none → t.spdm.conns = s.spdm.conns ∧
            ∀ y, sessionOf s m = some y → sessionOf t m =
              if i = .endSession m ∨ 2 ^ 64 ≤ y.seq + 1 then none else some (sessAfter i m y x))))))) ∧
  (∀ (s : State) (m : SpdmMsg) (c : Conn) (x : Sess), mrising none s.spdm.conns = true → mget s.spdm.conns m.ep = some c →
    m.versionOk = true → m.formOk = true →
    let invalid (i : Instr) : Prop := exec i s = .next (answered s (errorReply 0x01))
    (m.session = none → c.st = .capable → invalid (.negotiateAlgorithms m false)) ∧
    (m.session = none → c.st = .negotiated → invalid (.getMeasurements m 0x80#8) ∧ ∀ slot, slot ≠ 0 →
      invalid (.getCertificate m slot)) ∧
    (sessionOf s m = some x → m.decryptOk = true → x.established = true →
      (∀ eid d dbg, x.bound = some (eid, d, dbg) → GoesTo (exec (.getMeasurements m 0x80#8) s) (fun t =>
        ∃ r, t.spdm.reply = some r ∧ r.code = 0x60 ∧ r.blocks = [d] ∧ r.debug = dbg)) ∧
      (x.bound = none → invalid (.getMeasurements m 0x80#8))) ∧
    (m.session = none → c.st = .negotiated →
      let room : Prop := s.spdm.sess.length < 256 ∧ (s.spdm.sess.filter (fun y => y.ep == m.ep)).length < 32
      let opens (eid : Option Nat) (b : Option (Nat × BitVec 384 × Bool)) : Prop := GoesTo (exec (.keyExchange m eid) s) (fun t =>
        ∃ r, t.spdm.reply = some r ∧ r.code = 0x64 ∧
        let th := c.a ++ leBytes 48 (Config.sha384 Config.deviceChain).toNat ++ spoken m r
        t.spdm.sess = s.spdm.sess ++ [{ id := s.spdm.next, ep := m.ep, established := false, bound := b, th := th, l1 := [],
                                        key := Config.spdmSecret (Config.dheSecret s.spdm.next) (Config.sha384 th), exported := 0, seq := 0 }] ∧
        r.sig = some (Config.deviceSign s.spdm.signed (Config.sha384 th)) ∧
        t.spdm.next = s.spdm.next + 1 ∧ { t with spdm := s.spdm } = s)
      (room → opens none none ∧ ∀ n e, mget s.basalt.enclaves n = some e →
        (e.ending = false → opens (some n) (some (n, e.meas, e.debug))) ∧ (e.ending = true → invalid (.keyExchange m (some n)))) ∧
      (room → ∀ n, mget s.basalt.enclaves n = none → invalid (.keyExchange m (some n))) ∧
      (¬ room → exec (.keyExchange m none) s = .next (answered s (errorReply 0x0A)))))

/-! ### Links to devices and peers -/

/-- A binding goes from requested to locked or to error as its enclave is live in the root port's partition, and to run once the
acceptance record holds the digest of the device's report; an end, a STOP or sixteen integrity failures put it in error with its keys
erased, where it can be freed. A device's request acts on memory only in run, on its stream and intact: a write lands, a read is answered
with the bytes, every other request with Unsupported Request; an inbound write lands
through the enclave's translation (R162, R463 to R465). -/
def Sys2Proof.Claims.Bindings : Prop :=
  (∀ (s : State) (r i : Nat) (x : RootPort) (b : Bind) (lo hi : W64), HasRoot s r x → r < 4 → i < 8 → bindOf s r i = b →
    let want := lo.toNat / 2 ^ 28 % 16
    let eid := lo.toNat / 2 ^ 16 % 2 ^ 12
    let b1 : Bind := { b with hi := hi &&& 0x7FFFFFFFFFFFC0#64 }
    let at_ (n : Nat) : W64 := BitVec.ofNat 64 (lo.toNat % 2 ^ 28 + 2 ^ 28 * n)
    let live : Prop := x.rppart.getLsbD 4 = true ∧ ∃ e, mget s.basalt.enclaves eid = some e ∧ e.part = x.rppart.toNat % 16 ∧
      e.ending = false
    let i_ : Instr := .bindRequest r i lo hi
    let goes (p : State → Prop) : Prop := GoesTo (exec i_ s) p
    (bindSt b = 0 → want = 1 →
      (¬ live → goes (fun t => BindOnly s t r i { b1 with lo := at_ 4, fails := 0 })) ∧
      (live →
        (accepted s r { b1 with lo := at_ 2, fails := 0 } = false → goes (fun t => BindOnly s t r i { b1 with lo := at_ 2, fails := 0 })) ∧
        (accepted s r { b1 with lo := at_ 2, fails := 0 } = true → goes (fun t =>
          bindOf t r i = { b1 with lo := at_ 3, fails := 0, key := some s.basalt.keys } ∧ t.basalt.keys = s.basalt.keys + 1 ∧
          t.hbm = s.hbm)))) ∧
    (bindSt b = 4 → want = 0 → goes (fun t => BindOnly s t r i noBind)) ∧
    (bindSt b = 3 ∨ bindSt b = 4 ∧ want ≠ 0 ∨ bindSt b = 0 ∧ want ≠ 1 → goes (fun t => BindOnly s t r i b1)) ∧
    (bindSt b = 4 → GoesTo (exec (.bindFree r i) s) (fun t => BindOnly s t r i noBind)) ∧
    (bindSt b ≠ 4 → exec (.bindFree r i) s = .next s) ∧
    (bindSt b = 2 ∨ bindSt b = 3 → GoesTo (exec (.tdispStop r i) s) (fun t => BindOnly s t r i (bindErr b))) ∧
    (bindSt b ≠ 2 → bindSt b ≠ 3 → exec (.tdispStop r i) s = .next s)) ∧
  (∀ (s : State) (r i rid : Nat) (x : RootPort) (b : Bind) (on ok wr : Bool) (va : W64) (data : List Byte), HasRoot s r x → i < 8 →
    bindOf s r i = b → b.lo.toNat % 2 ^ 16 = rid → bindSt b ≠ 0 →
    (∀ j, j < i → ¬ ((bindOf s r j).lo.toNat % 2 ^ 16 = rid ∧ bindSt (bindOf s r j) ≠ 0)) →
    let eid := b.lo.toNat / 2 ^ 16 % 2 ^ 12
    let k : Instr := .deviceRequest r rid on ok wr va data
    let replied (t : State) (a : Option DevReply) : Prop := ∃ y, mget t.roots r = some y ∧ y.reply = a
    (∀ e l s1, bindSt b = 3 → on = true → ok = true → wr = true → mget s.basalt.enclaves eid = some e → e.ending = false →
      placeRun s (encCtx s eid) va.toNat data.length .write false = (.ok l, s1) → mergeOk s1 l = true → runsApart l →
      GoesTo (exec k s) (fun t => LandsAt s1 t l data ∧ replied t none)) ∧
    (∀ e l s1, bindSt b = 3 → on = true → ok = true → wr = false → mget s.basalt.enclaves eid = some e → e.ending = false →
      placeRun s (encCtx s eid) va.toNat data.length .read false = (.ok l, s1) → runsOk s1 l = true →
      GoesTo (exec k s) (fun t => replied t (some (.data (readRuns s1 l))) ∧ ∀ x, readLoc t x = readLoc s1 x)) ∧
    (bindSt b ≠ 3 ∨ on = false → ok = true → GoesTo (exec k s) (fun t => RefusedAt s t r)) ∧
    (ok = false → b.fails + 1 < 16 → GoesTo (exec k s) (fun t => BindOnly s t r i { b with fails := b.fails + 1 } ∧ replied t (some .unsupported))) ∧
    (ok = false → 16 ≤ b.fails + 1 → (bindSt b = 2 ∨ bindSt b = 3) → GoesTo (exec k s) (fun t =>
      BindOnly s t r i (bindErr { b with fails := b.fails + 1 }) ∧ replied t (some .unsupported)))) ∧
  (∀ (s : State) (r rid : Nat) (on ok wr : Bool) (va : W64) (data : List Byte),
    (∀ j, j < 8 → ¬ ((bindOf s r j).lo.toNat % 2 ^ 16 = rid ∧ bindSt (bindOf s r j) ≠ 0)) →
    GoesTo (exec (.deviceRequest r rid on ok wr va data) s) (fun t => RefusedAt s t r)) ∧
  (∀ (s : State) (eid : Nat) (va : W64) (data : List Byte), canon s = true →
    (∀ e l s1, mget s.basalt.enclaves eid = some e → e.ending = false →
      placeRun s (encCtx s eid) va.toNat data.length .write false = (.ok l, s1) →
      (mergeOk s1 l = true → runsApart l → GoesTo (exec (.inboundWrite eid va data) s) (fun t => LandsAt s1 t l data ∧
        ∀ a, (∃ r ∈ l, r.1 ≤ 64 * a ∧ 64 * a + 64 ≤ r.1 + r.2) → mgetD t.badLines a false = false)) ∧
      (mergeOk s1 l = false → exec (.inboundWrite eid va data) s = .next s1)) ∧
    ((∀ e, mget s.basalt.enclaves eid = some e → e.ending = true) → exec (.inboundWrite eid va data) s = .next s))

/-- Streams: a requested entry is keyed when both modules hold the enclave with one measurement, else it goes to error; a message is
accepted under a current key when its number is new within the window of 1,024, and the sixteenth dropped one puts the entry in
error; a rekey, which the last message before the 2^32nd under a key brings on, gives both directions their next keys and accepts the old
one for 1 ms; an entry is rewritten for a peer that has moved; an unreachable peer's streams go to error and its copies end. Migration hands an
enclave's key slot over once its queues are frozen and its teams saved, and ends it at the source; an atomic from a peer is performed at its page, or answered as moved once the page is frozen or gone, or waits (R291, R409,
R410, R466 to R470). -/
def Sys2Proof.Claims.Streams : Prop :=
  (∀ (s : State) (p i : Nat) (x : Stream) (lo hi : W64) (a b c : Bool), HasStream s p i x → p < 16 → i < 64 →
    (streamSt x = 0 ∨ (streamSt x = 2 ∨ streamSt x = 3) ∧ lo.toNat % 2 ^ 12 = x.lo.toNat % 2 ^ 12 ∧ lo.toNat / 2 ^ 48 = x.lo.toNat / 2 ^ 48 ∧
      lo.toNat / 2 ^ 16 % 2 ^ 32 ≠ x.lo.toNat / 2 ^ 16 % 2 ^ 32) →
    lo.toNat / 2 ^ 12 % 16 = 1 →
    let eid := lo.toNat % 2 ^ 12
    let k : Instr := .streamRequest p i lo hi a b c
    let y : Stream := { noStream with lo := lo, hi := if streamSt x = 0 then hi &&& 0xFFFF#64 else x.hi }
    let l : Link := { own := (Config.linkSecrets s.basalt.keys).1, peer := (Config.linkSecrets s.basalt.keys).2 }
    (∀ e, mget s.basalt.enclaves eid = some e → e.ending = false → notResetting s e.part →
      (a = true → b = true → c = true → GoesTo (exec k s) (fun t =>
        streamOf t p i = nextKeyed { y with lo := BitVec.ofNat 64 (lo.toNat + 2 ^ 12), link := some l } l ∧ t.basalt.keys = s.basalt.keys + 1 ∧
        t.hbm = s.hbm)) ∧
      ((a && b && c) = false → GoesTo (exec k s) (fun t => StreamOnly s t p i (failed y)))) ∧
    ((∀ e, mget s.basalt.enclaves eid = some e → e.ending = true) → GoesTo (exec k s) (fun t => StreamOnly s t p i (failed y)))) ∧
  (∀ (s : State) (p i sq : Nat) (x : Stream) (old auth : Bool), HasStream s p i x →
    let k : Instr := .streamMessage p i sq old auth
    let fresh : Prop := ∀ h, x.high = some h → h < sq ∨ (h ≤ sq + 1024 ∧ sq ∉ x.seen)
    let keyed : Prop := old = true → ∃ u, x.oldUntil = some u ∧ s.time < u
    let top := max sq (x.high.getD 0)
    let y : Stream := { x with high := some top, seen := (sq :: x.seen).filter (fun n => decide (top ≤ n + 1024)),
                               count := if old = true then x.count else x.count + 1 }
    (streamSt x = 2 → auth = true → keyed → fresh →
      (y.count + 1 < 2 ^ 32 → GoesTo (exec k s) (fun t => StreamOnly s t p i y)) ∧
      (2 ^ 32 ≤ y.count + 1 → ∀ l, x.link = some l → GoesTo (exec k s) (fun t =>
        StreamOnly s t p i { nextKeyed y l with oldUntil := some (s.time + 1000000) }))) ∧
    (streamSt x = 2 → (auth = false ∨ ¬ keyed ∨ ¬ fresh) →
      (x.drops + 1 < 16 → GoesTo (exec k s) (fun t => StreamOnly s t p i { x with drops := x.drops + 1 })) ∧
      (16 ≤ x.drops + 1 → GoesTo (exec k s) (fun t => StreamOnly s t p i (failed { x with drops := x.drops + 1 })))) ∧
    (streamSt x ≠ 2 → exec k s = .next s ∧ exec (.streamRekey p i) s = .next s) ∧
    (streamSt x = 2 → ∀ l, x.link = some l → GoesTo (exec (.streamRekey p i) s) (fun t =>
      StreamOnly s t p i { nextKeyed x l with oldUntil := some (s.time + 1000000) })) ∧
    (∀ u, x.oldUntil = some u →
      (u ≤ s.time → GoesTo (exec (.oldKeyExpiry p i) s) (fun t => StreamOnly s t p i { x with oldUntil := none })) ∧
      (s.time < u → exec (.oldKeyExpiry p i) s = .next s)) ∧
    (x.oldUntil = none → exec (.oldKeyExpiry p i) s = .next s)) ∧
  (∀ (s : State) (tier target : Nat), canon s = true → mrising none s.ue = true →
    (∀ p ∈ s.ue, p.1 < 16 ∧ mwf noStream p.2.table = true ∧ ∀ x ∈ p.2.table, x.1 < 64) →
    GoesTo (exec (.peerUnreachable tier target) s) (fun t => (4 + tier, target) ∈ t.unreachable ∧ t.hbm = s.hbm ∧
      (∀ p i, let x := streamOf s p i
        streamOf t p i = if tier = 0 ∧ (streamSt x = 1 ∨ streamSt x = 2) ∧ x.lo.toNat / 2 ^ 16 % 2 ^ 32 = target then failed x else x))) ∧
  (∀ (s : State) (port : Nat) (u : UePort) (v : W64) (live sess : Bool), canon s = true → basaltKeys s → mrising none s.ue = true →
    mget s.ue port = some u → u.migst ≠ 1 → u.migrating = none →
    let i : Instr := .migrationRequest port v live sess
    let eid := v.toNat % 2 ^ 12
    let m := v &&& 0xFFFFFFFF0FFF#64
    let answers (k : Nat) (w : Option Nat) : State := { s with ue := mput s.ue port { u with migreq := m, migst := k, migrating := w } }
    ((sess = false ∨ ∀ e, mget s.basalt.enclaves eid = some e → e.ending = true) → exec i s = .next (answers 3 none)) ∧
    (∀ e, sess = true → mget s.basalt.enclaves eid = some e → e.ending = false →
      (live = true → exec i s = .next (answers 2 none)) ∧
      (live = false → migrateReady s eid = false → exec i s = .next (answers 1 none)) ∧
      (live = false → migrateReady s eid = true → exec i s = .next { answers 1 (some eid) with basalt := { s.basalt with
        moved := s.basalt.moved.filter (fun (x : Nat × Nat) => x.1 != eid) ++ [(eid, v.toNat / 2 ^ 16 % 2 ^ 32)] } }))) ∧
  (∀ (s : State) (port eid : Nat) (u : UePort) (e : Enclave), canon s = true → basaltKeys s → mrising none s.ue = true →
    mget s.ue port = some u → eid < 4096 → (∀ f ∈ s.fes, mrising none f.2.queues = true) →
    (u.migrating = some eid → mget s.basalt.enclaves eid = some e → GoesTo (exec (.migrationRestoreReport port) s) (fun t =>
      Ended s t eid e ∧ ∃ u', mget t.ue port = some u' ∧ u'.migst = 0 ∧ u'.migrating = none)) ∧
    (u.migrating = none → exec (.migrationRestoreReport port) s = .next s)) ∧
  (∀ (s : State) (eid part : Nat) (dbg : Bool) (meas : BitVec 384), basaltKeys s → eid < 4096 → part < 16 →
    let i : Instr := .migrationKeyImport eid part dbg meas
    (mget s.basalt.enclaves eid = none → GoesTo (exec i s) (fun t =>
      { t with basalt := s.basalt, launches := s.launches, saved := s.saved } = s ∧
      (∀ n l, mget s.launches n = some l → mget t.launches n = some l) ∧ (∀ v ∈ s.saved, v ∈ t.saved) ∧
      (∀ v ∈ t.saved, v ∈ s.saved ∨ v.fe = part ∧ v.eid = eid) ∧
      t.basalt.keys = s.basalt.keys + 4 ∧
      (∀ d, d < 16 → mget t.basalt.baseKeys (4096 * d + eid) = some (nextKeys s) ∧ mget t.basalt.ctlKeys (4096 * d + eid) = some (nextKeys s)) ∧
      ∃ e, mget t.basalt.enclaves eid = some e ∧ e.part = part ∧ e.debug = dbg ∧ e.meas = meas ∧
        e.key = some (nextKeys s) ∧ e.ending = false ∧ e.queues = 0)) ∧
    (mget s.basalt.enclaves eid ≠ none → exec i s = .next s)) ∧
  (∀ (s s1 : State) (eid : Nat) (va v : W64) (wide : Bool) (op : AtomOp) (e : Enclave), canon s = true →
    let i : Instr := .remoteAtomic eid va wide op v
    let n := if wide then 8 else 4
    let left := (s.basalt.moved.find? (fun x => x.1 == eid)).map (fun x => RemoteAnswer.moved x.2)
    (∀ pa kind, mget s.basalt.enclaves eid = some e → e.ending = false → va.toNat % n = 0 →
      translate s (encCtx s eid) va.toNat .atomic false = (.ok pa kind, s1) → lineOk s1 pa = true →
      GoesTo (exec i s) (fun t => t.remoteReply = some (.value (BitVec.ofNat 64 (readLe s1.hbm pa n))) ∧
        readLe t.hbm pa n = atomStores op false (8 * n) (readLe s1.hbm pa n) v.toNat 0 ∧
        ∀ l, (∀ j, j < n → l ≠ .hbm (pa + j)) → readLoc t l = readLoc s1 l)) ∧
    (mget s.basalt.enclaves eid = some e → e.ending = false → va.toNat % n = 0 →
      (translate s (encCtx s eid) va.toNat .atomic false = (.wait, s1) ∨
        ∃ st pg, translate s (encCtx s eid) va.toNat .atomic false = (.fault 0x22 st pg, s1)) →
      (∀ d, s1.basalt.moved.find? (fun x => x.1 == eid) = some (eid, d) → exec i s = .next { s1 with remoteReply := some (.moved d) }) ∧
      (s1.basalt.moved.find? (fun x => x.1 == eid) = none → exec i s = .next
        { s1 with remoteReply := none, remoteWait := s1.remoteWait ++ [{ eid := eid, va := va, w64 := wide, op := op, v := v }] })) ∧
    (mget s.basalt.enclaves eid = none → exec i s = .next { s with remoteReply := left }))

/-- Links: TDISP bindings, inbound writes, streams between modules, migration (R162, R410, R463 to R470). What a migration carries
beside its listed fields is free (log 25); what a transit answers follows log 59; an unreadable device read log 84; stream keys
log 89. -/
def Obligations.Links : Prop :=
  Sys2Proof.Claims.Bindings ∧ Sys2Proof.Claims.Streams

/-! ### The debug mailbox -/

/-- A debug command acts for an enclave of the caller's partition with the debug bit, and is otherwise answered NODEBUG; a reserved
bit or an unknown operation gives BADDESC. ARM marks groups, PATCH exchanges a code word and hands the old one back, WATCH sets or
clears a team's watchpoint, RESUME runs or steps a halted group, without the replay records of a slot that goes on elsewhere (R153, R485 to R487). -/
def Sys2Proof.Claims.DebugCommands : Prop :=
  (∀ (s s1 : State) (n : Nat) (q : Quartz) (va : W64) (b : List Byte) (c : DbgCmd) (op : Nat) (i : Instr),
    CommandRead s s1 n q va b c op →
    (op = 1 ∧ i = .dbgArm n va ∨ op = 2 ∧ i = .dbgPatch n va ∨ op = 3 ∧ i = .dbgWatch n va ∨ op = 4 ∧ i = .dbgResume n va) →
    let eid := dwFld b 0 8 12
    let is (p : State → Prop) : State → Prop := p
    (¬ debugs s c b → dbgBad c = false → CommandDone i s c 2 (is (sameButCommand s1))) ∧
    (op = 1 → (2 ≤ (dword b 0x18).toNat ∨ dword b 0x20 ≠ 0) → CommandDone i s c 1 (is (sameButCommand s1))) ∧
    (op = 1 → debugs s c b → (dword b 0x18).toNat < 2 → dword b 0x20 = 0 →
      let lid := (dword b 8).toNat
      let team := dwFld b 2 0 32
      let m : W64 := BitVec.ofNat 64 (dwFld b 2 32 32)
      let on := (dword b 0x18).getLsbD 0
      let old := armedMask s eid lid team
      CommandDone i s c 0 (fun w => armedMask w eid lid team = (if on then old ||| m else old &&& ~~~m) ∧ w.hbm = s1.hbm ∧
        ∀ loc g t l, mget s.groups loc = some g → mget s.teams g.team = some t → mget s.launches g.launch = some l →
          mget w.groups loc = some { g with
            armed := if g.launch = lid ∧ l.eid = eid ∧ t.index = team ∧ m.getLsbD g.num then on else g.armed })) ∧
    (op = 2 → ((dword b 8).toNat % 8 ≠ 0 ∨ dword b 0x18 ≠ 0 ∨ dword b 0x20 ≠ 0) → CommandDone i s c 1 (is (sameButCommand s1))) ∧
    (∀ l s2 e, op = 2 → debugs s c b → (dword b 8).toNat % 8 = 0 → dword b 0x18 = 0 → dword b 0x20 = 0 →
      mget s.basalt.enclaves eid = some e →
      let new := (List.range 8).map (fun j => BitVec.ofNat 8 ((dword b 0x10).toNat / 2 ^ (8 * j)))
      (placeRun s1 (encCtx s1 eid) (dword b 8).toNat 8 .fetch true = (.ok l, s2) → runsOk s2 l = true →
        CommandDone i s c 0 (fun w => ∃ u, LandsAt s2 u l new ∧ w = dbgPut u c 0x30 (leNat (readRuns s2 l)))) ∧
      (∀ k st pg, placeRun s1 (encCtx s1 eid) (dword b 8).toNat 8 .fetch true = (.fault k st pg, s2) →
        CommandDone i s c 4 (is (sameButCommand s2)))) ∧
    (op = 3 → debugs s c b →
      let len := dwFld b 3 4 7
      let acc := dwFld b 3 2 2
      let lo := (dword b 0x20).toNat
      let team := (dword b 0x10).toNat
      let mine (x : WatchRec) : Bool := x.eid == eid && x.launch == (dword b 8).toNat && x.team == team && x.n == dwFld b 3 0 2
      let others := s.dbox.watches.filter (fun x => !mine x)
      (team < 2 ^ 32 → (dword b 0x18).toNat < 2 ^ 11 → 1 ≤ len → lo % 64 + len ≤ 64 →
        (acc = 0 → CommandDone i s c 0 (fun w => w.dbox.watches = others ∧ w.hbm = s1.hbm)) ∧
        (acc ≠ 0 → CommandDone i s c 0 (fun w => w.hbm = s1.hbm ∧ ∃ x, mine x = true ∧ w.dbox.watches = others ++ [x] ∧
          x.w = { lo := lo, hi := lo + len, rd := acc.testBit 0, wr := acc.testBit 1 }))) ∧
      (len = 0 ∨ 64 < lo % 64 + len → CommandDone i s c 1 (is (sameButCommand s1)))) ∧
    (op = 4 → debugs s c b → (dword b 8).toNat < 2 ^ 18 → (dword b 0x10).toNat < 16 → dword b 0x20 = 0 → dwFld b 2 0 2 < 2 →
      let loc := (dword b 8).toNat
      let sl := (dword b 0x10).getLsbD 3
      (∀ g l h, mget s.groups loc = some g → g.stop = .halted h → mget s.launches g.launch = some l → l.eid = eid →
        CommandDone i s c 0 (fun w => w.hbm = s1.hbm ∧ ∃ g', mget w.groups loc = some g' ∧ g'.stop = .none ∧ g'.stopSlot = sl ∧
          g'.stepping = (dword b 0x10).getLsbD 0 ∧ g'.pass = (if (dword b 0x10).getLsbD 2 then some sl else g.pass) ∧
          (getSlot g' sl).pc = (if dword b 0x18 = 0 then (getSlot g sl).pc else dword b 0x18) ∧ getSlot g' (!sl) = getSlot g (!sl) ∧
          g'.replay = (if dword b 0x18 = 0 ∨ dword b 0x18 = (getSlot g sl).pc then g.replay else g.replay.filter (fun r => r.slot != sl)) ∧
          g'.s = g.s ∧ g'.k = g.k ∧ g'.v = g.v)) ∧
      ((∀ g, mget s.groups loc = some g → ∀ h, g.stop ≠ .halted h) → CommandDone i s c 3 (is (sameButCommand s1))))) ∧
  (∀ (s : State) (n : Nat) (q : Quartz) (va : W64) (b : List Byte) (c : DbgCmd) (l : List (Nat × Nat)) (s1 : State), canon s = true →
    mget s.quartz n = some q → s.dbox.cmd = none →
    c = { q := n, va := (va &&& 0x7FFFFFFFFFFFC0#64).toNat, ctx := quartzCtx s q,
          words := (List.range 8).map (fun j => dword b (8 * j)) } →
    placeRun s (quartzCtx s q) c.va 64 .read false = (.ok l, s1) → runsOk s1 l = true → b = readRuns s1 l →
    (dwFld b 0 0 4 = 0 ∨ 4 < dwFld b 0 0 4 ∨ dwFld b 0 4 4 ≠ 0 ∨ dwFld b 0 20 44 ≠ 0 ∨ dword b 0x28 ≠ 0 ∨ dwFld b 7 9 55 ≠ 0 ∨
      dwFld b 0 0 4 ≠ 2 ∧ dword b 0x30 ≠ 0) →
    ∀ i, (i = .dbgArm n va ∨ i = .dbgPatch n va ∨ i = .dbgWatch n va ∨ i = .dbgResume n va) →
      CommandDone i s c 1 (sameButCommand s1))

/-- A halt's record is written to the event ring of 64 entries once the ring has room, oldest first, and then counted; DBGRD consumes
records up to the write count; the debug port's acknowledgement, which clears IPEND[6], consumes all of them (R358, R485, R488; that it does
so is the model's reading, log 91). -/
def Sys2Proof.Claims.DebugEvents : Prop :=
  (∀ (s s1 : State) (r : List W64) (t : List (List W64)) (l : List (Nat × Nat)), canon s = true → s.dbox.queue = r :: t → r.length = 8 →
    let room : Prop := s.dbox.ring.getLsbD 0 = true ∧ (s.dbox.wr + 2 ^ 16 - s.dbox.rd) % 2 ^ 16 < 64
    let va := s.dbox.ring.toNat / 2 ^ 12 % 2 ^ 43 * 4096 + 64 * (s.dbox.wr % 64)
    (room → placeRun s s.dbox.root va 64 .write false = (.ok l, s1) → runsApart l → GoesTo (exec .debugEventWrite s) (fun w =>
      w.dbox = { s.dbox with queue := t, wr := (s.dbox.wr + 1) % 2 ^ 16 } ∧
      (∀ j, j < 8 → dword (readRuns w l) (8 * j) = r.getD j 0) ∧
      ∀ x, (∀ y ∈ l, ∀ j, j < y.2 → x ≠ .hbm (y.1 + j)) → readLoc w x = readLoc s1 x)) ∧
    (¬ room → exec .debugEventWrite s = .next s)) ∧
  (∀ (s : State) (v : W64), (s.dbox.queue = [] → exec .debugEventWrite s = .next s) ∧
    (v.toNat % 2 ^ 16 ≤ s.dbox.wr →
      exec (.dbgEventConsume v) s = .next { s with dbox := { s.dbox with rd := v.toNat % 2 ^ 16 } }) ∧
    (s.dbox.wr < v.toNat % 2 ^ 16 → exec (.dbgEventConsume v) s = .next s) ∧
    exec .debugPortAck s = .next { s with dbox := { s.dbox with rd := s.dbox.wr } })

/-- The debug mailbox's commands and the event ring (R358, R485 to R489). Corners of debug commands follow log 60; what
DEBUG_PORT_ACK consumes log 91. -/
def Obligations.Debugger : Prop :=
  Sys2Proof.Claims.DebugCommands ∧ Sys2Proof.Claims.DebugEvents

/-! ### Bring-up and service -/

/-- BOOT measures its own firmware once, then loads the blocks in ascending id: the image that the flash directory names is checked, and
one that passes is measured into the block's register, raises its fused counter and releases it; one that fails waits for RECOVERY, which
takes the first image that passes and writes it to flash. A silent block is reset and reloaded, or held at its third failure within 10 s.
Units of a block that is not released do not run (R456, R495 to R501). Where an image is written to flash is the model's choice (log 92). -/
def Sys2Proof.Claims.Blocks : Prop :=
  (∀ (s : State) (n : Nat) (b : Block), HasBlock s n b → 2 ≤ n → n ≤ 10 → b.released = false → b.held = false →
    (∀ m, m < n → ∀ x, mget s.basalt.blocks m = some x → x.released = true ∨ x.held = true) → s.basalt.recover = none →
    (s.basalt.mr = [] → (∀ m x, mget s.basalt.blocks m = some x → x.released = false ∧ x.held = false) → GoesTo (exec .boot s) (fun t =>
      mgetD t.basalt.mr 0 0 = extended s 0 Config.romDigest ∧ mgetD t.basalt.mr 1 0 = extended s 1 Config.fuseDigest)) ∧
    (∀ l, FlashHas s.basalt.flash n l → Accepted s n l →
      GoesTo (exec .boot s) (fun t => Loaded s t n b l ∧ t.basalt.recover = none ∧ t.hbm = s.hbm ∧
        (n = 2 → t.basalt.svctl = 0xFFFF ∧ ∀ k q, 32 ≤ k → k < 36 → mget s.quartz k = some q →
          mget t.quartz k = some { q with halted := false }) ∧
        (n = 3 ∨ n = 4 → ∀ k q, k < 32 → mget s.quartz k = some q → mget t.quartz k = some { q with halted := false }))) ∧
    ((∀ l, FlashHas s.basalt.flash n l → ¬ Accepted s n l) → GoesTo (exec .boot s) (fun t => Awaits s t n b.svn ∧
      t.basalt.blocks = s.basalt.blocks ∧ t.quartz = s.quartz))) ∧
  (∀ s : State, s.basalt.mr ≠ [] → (s.basalt.recover ≠ none ∨
    (∀ e ∈ s.basalt.blocks, e.2.released = true ∨ e.2.held = true)) → exec .boot s = .next s) ∧
  (∀ (s : State) (n : Nat) (b : Block) (l : List Byte), HasBlock s n b → 2 ≤ n → n ≤ 10 → b.held = false →
    (∀ r, s.basalt.recover = some r →
      (r.block = n → r.port ≠ none → Accepted s n l → flashPlace s.basalt.flash n l.length ≠ none →
        GoesTo (exec (.recovery n l) s) (fun t => Loaded s t n b l ∧ FlashHas t.basalt.flash n l ∧ t.basalt.recover = none)) ∧
      (r.block ≠ n ∨ r.port = none ∨ ¬ Accepted s n l → exec (.recovery n l) s = .next s)) ∧
    (s.basalt.recover = none → exec (.recovery n l) s = .next s)) ∧
  (∀ (s : State) (n : Nat) (b : Block), HasBlock s n b → 2 ≤ n → n ≤ 10 →
    let fails := b.fails.filter (fun t => decide (s.time < t + 10 ^ 10)) ++ [s.time]
    let reports (t : State) : Prop := t.basalt.written = (s.basalt.written + 1) % 65536
    (b.released = false → exec (.watchdogExpiry n) s = .next s) ∧
    (b.released = true → 3 ≤ fails.length → GoesTo (exec (.watchdogExpiry n) s) (fun t =>
      mget t.basalt.blocks n = some { b with released := false, held := true, quiet := false, fails := fails } ∧ reports t)) ∧
    (b.released = true → b.held = false → fails.length < 3 →
      (∀ l, FlashHas s.basalt.flash n l → Accepted s n l →
        GoesTo (exec (.watchdogExpiry n) s) (fun t => Loaded s t n b l ∧ reports t ∧
          ∃ b', mget t.basalt.blocks n = some b' ∧ b'.fails = fails)) ∧
      ((∀ l, FlashHas s.basalt.flash n l → ¬ Accepted s n l) → GoesTo (exec (.watchdogExpiry n) s) (fun t => Awaits s t n b.svn ∧
        reports t ∧ mget t.basalt.blocks n = some { b with released := false, quiet := false, fails := fails })))) ∧
  (∀ (s : State) (n : Nat) (b : Block) (m : Mover), mget s.basalt.blocks n = some b → b.released = false →
    (n = 10 ∧ (∃ c q, m = .seq c q) ∨ n = 5 ∧ (∃ fe, m = .prologue fe) ∨ n = 2 ∧ (∃ q, m = .quartz q ∧ 32 ≤ q ∧ q < 36) ∨
      n = 9 ∧ (∃ q, m = .quartz q ∧ q < 36)) → turnGo s (.unit m) = .next { s with mover := m })

/-- A live update is checked in order and answered with its code: a bad signature, an id that names no block, a version below the fused
counter; else its block is held, front ends at a packet boundary, the array dies cluster by cluster as each is empty, and
the image is loaded over what the block keeps and measured; or, if that load fails, the flash image is; at the next event the image is
written to flash. A core is retired while a spare is left, and replaced once it is empty; a core's third MACHINE_CHECK within an hour
retires it. A machine check stops its group for system software (R320, R500, R502 to R504). Whether a load or a flash write succeeds is
free (log 20). -/
def Sys2Proof.Claims.ServiceOfCores : Prop :=
  (∀ s : State, (s.basalt.updBusy = false → exec .liveUpdate s = .next s) ∧
    (s.basalt.updBusy = true → s.basalt.update = none →
      let ends (k : Nat) : Prop := exec .liveUpdate s = .next
        { s with basalt := { s.basalt with updBusy := false, updCode := k, update := none } }
      let goes (u : Upd) (bl : KMap Block) : Prop := exec .liveUpdate s = .next
        { s with basalt := { s.basalt with update := some u, blocks := bl } }
      (stagedImage s = none → ends 1) ∧
      (∀ l, stagedImage s = some l →
        let n := imageId l
        (¬ ImageForm l → ends 1) ∧
        (ImageForm l →
          (n < 2 ∨ 10 < n → ends 3) ∧
          (∀ b, HasBlock s n b → 2 ≤ n → n ≤ 10 →
            (imageSvn l < b.svn → ends 2) ∧
            (b.svn ≤ imageSvn l →
              (n = 3 ∨ n = 4 → goes (.flash n l) s.basalt.blocks) ∧
              (n = 10 → goes (.quiesce n l 0) s.basalt.blocks) ∧
              (n ≠ 3 → n ≠ 4 → n ≠ 10 → goes (.quiesce n l 0) (mput s.basalt.blocks n { b with quiet := b.released }))))))) ∧
    (∀ n l k b, s.basalt.updBusy = true → s.basalt.update = some (.quiesce n l k) → HasBlock s n b →
      let rest : Prop := (n = 5 → ∀ f ∈ s.fes, ∀ u ∈ f.2.queues, u.2.pair = none ∧ u.2.placing = none ∧ u.2.holds = []) ∧ (n = 10 → 48 ≤ k)
      let old (x : List Byte) : Prop := FlashHas s.basalt.flash n x ∧ Accepted s n x
      (n = 5 → ¬ rest → exec .liveUpdate s = .next s) ∧
      (rest → Config.loadOk s.fresh = true → GoesTo (exec .liveUpdate s) (fun t => Loaded s t n { b with held := b.released && b.held } l ∧
        t.basalt.update = some (.flash n l) ∧ t.basalt.updBusy = true ∧ t.basalt.updCode = s.basalt.updCode ∧ t.hbm = s.hbm ∧
        (n ≠ 2 → b.released = true → t.quartz = s.quartz ∧ t.fes = s.fes ∧ t.ue = s.ue ∧ t.roots = s.roots ∧ t.shale = s.shale) ∧
        (n = 2 → ∀ q, 32 ≤ q → q < 36 → b.released = true → ∀ c, mget s.quartz q = some c →
          mget t.quartz q = some { resetQuartz q with halted := false }))) ∧
      (rest → Config.loadOk s.fresh = false → ∀ x, old x → GoesTo (exec .liveUpdate s) (fun t => Loaded s t n { b with held := b.released && b.held } x ∧
        t.basalt.updCode = 4 ∧ t.basalt.updBusy = false ∧ t.basalt.update = none ∧ t.basalt.flash = s.basalt.flash)) ∧
      (rest → Config.loadOk s.fresh = false → (∀ x, ¬ old x) → GoesTo (exec .liveUpdate s) (fun t => Awaits s t n b.svn ∧
        t.basalt.updCode = 4 ∧ t.basalt.updBusy = false ∧ ∃ b', mget t.basalt.blocks n = some b' ∧ b'.released = false))) ∧
    (∀ l k, s.basalt.updBusy = true → s.basalt.update = some (.quiesce 10 l k) → k < 48 → canon s = true →
      let mine (c : Nat) : Prop := ∃ j, j < 8 ∧ c = 256 * (k / 6) + 16 * (k % 6) + j
      let busy : Prop := ∃ c, mine c ∧ (coreGroups s c ≠ [] ∨ ∃ x ∈ s.teams, teamOn x.2 c = true)
      (busy → exec .liveUpdate s = .next s) ∧
      (¬ busy → GoesTo (exec .liveUpdate s) (fun t => t.basalt.update = some (.quiesce 10 l (k + 1)) ∧
        ∀ c x, mget s.cores c = some x → mget t.cores c = some
          (if coreDie c = k / 6 ∧ coreCluster c = k % 6 ∧ c % 16 < 8 ∧ c < 2048 then
            { resetCore with ticks := x.ticks, retired := x.retired, spare := x.spare, checks := x.checks } else x)))) ∧
    (∀ n l, s.basalt.updBusy = true → s.basalt.update = some (.flash n l) → 256 ≤ l.length → memWf s.basalt.flash = true →
      2 ≤ n → n ≤ 10 →
      (Config.flashOk s.fresh = true → flashPlace s.basalt.flash n l.length ≠ none → GoesTo (exec .liveUpdate s) (fun t =>
        t.basalt.updCode = 0 ∧ t.basalt.updBusy = false ∧ FlashHas t.basalt.flash n l)) ∧
      (Config.flashOk s.fresh = false → GoesTo (exec .liveUpdate s) (fun t => t.basalt.updCode = 5 ∧ t.basalt.updBusy = false ∧
        t.basalt.flash = s.basalt.flash)))) ∧
  (∀ (s : State) (die n : Nat) (d : Die) (k : Core), canon s = true → die < 8 → mget s.dies die = some d →
    let code := 256 * die + 16 * (n / 8) + n % 8
    (n < 48 → mget s.cores code = some k → k.retired = false →
      (d.spares = 0 → exec (.coreRetire die n) s = .next (withDie s die { d with coresp := 1 })) ∧
      (0 < d.spares → GoesTo (exec (.coreRetire die n) s) (fun t => t.basalt.written = (s.basalt.written + 1) % 65536 ∧
        mget t.dies die = some { d with spares := d.spares - 1, coresp := 0 } ∧
        ∃ k', mget t.cores code = some k' ∧
          if coreGroups s code = [] ∧ s.teams.all (fun x => !teamOn x.2 code) = true then k' = { resetCore with ticks := k.ticks }
          else k' = { k with retired := true, spare := true }))) ∧
    (n < 48 → mget s.cores code = some k → k.retired = true →
      exec (.coreRetire die n) s = .next (if k.spare = true ∧ coreGroups s code = [] ∧ s.teams.all (fun x => !teamOn x.2 code) = true then
        { s with cores := mput s.cores code { resetCore with ticks := k.ticks } } else s)) ∧
    (48 ≤ n → n < 64 → mget s.cores code = none → exec (.coreRetire die n) s = .next (withDie s die { d with coresp := 2 })) ∧
    (∀ ch, exec (.phyRecalibration ch) s = .next s)) ∧
  (∀ (s : State) (loc : Nat) (sl : Bool) (g : Group) (k : Core), canon s = true → mget s.groups loc = some g →
    locCore loc ∈ coreCodes → mget s.cores (locCore loc) = some k → g.stop ≠ .system → g.stop ≠ .saving → isHalted g = false → debuggerTakes s g 0x01 = false →
    let recent := k.checks.filter (fun t => decide (s.time < t + 3600 * 10 ^ 9)) ++ [s.time]
    GoesTo (exec (.machineCheck (.group loc sl)) s) (fun t =>
      (∃ g', mget t.groups loc = some g' ∧ g'.stop = .system ∧ g'.cause.toNat % 256 = 1 ∧ g'.s = g.s ∧ g'.k = g.k ∧ g'.v = g.v ∧
        g'.slot0 = g.slot0 ∧ g'.slot1 = g.slot1) ∧
      (∃ k', mget t.cores (locCore loc) = some k' ∧ k'.checks = recent ∧
        k'.retired = (k.retired || decide (3 ≤ recent.length))) ∧
      ∀ l, readLoc t l = readLoc s l)) ∧
  (∀ (s : State) (n : Nat) (q : Quartz), OnQuartz s n q →
    (q.halted = true ∨ entryWaits s q = true → exec (.machineCheck (.quartz n)) s = .next s) ∧
    (q.halted = false → q.level ≤ 2 → entryWaits s q = false → qInside q = false → GoesTo (exec (.machineCheck (.quartz n)) s) (fun t =>
      EntersPlain s t n q 2 (tcause q 1 0 false false 0) (Config.freeTaddr s.fresh) q.pc)))

/-- A freeze stops the clocks, then scrubs every enclave without the debug bit, and only then sets FRZST; scan read-out is refused until
that bit is set. From 105 °C clusters run at 1,200 MHz, and at 115 °C the module freezes. A loss of power resets all but flash, fused
counters and memories outside the module (R500, R505, R506). -/
def Sys2Proof.Claims.Freezes : Prop :=
  (∀ s : State, canon s = true → basaltKeys s →
    let frozen (i : Instr) : Prop :=
      (s.dbox.frozen = false → exec i s = .next { s with dbox := { s.dbox with frozen := true } }) ∧
      (s.dbox.frozen = true → s.dbox.frzst = true → exec i s = .next s) ∧
      (s.dbox.frozen = true → s.dbox.frzst = false → GoesTo (exec i s) (fun t =>
        t.dbox = { s.dbox with frzst := true } ∧ t.hbm = s.hbm ∧
        (∀ loc g l e, mget s.groups loc = some g → mget s.launches g.launch = some l → mget s.basalt.enclaves l.eid = some e →
          e.ending = false → ∃ g', mget t.groups loc = some g' ∧ (e.debug = false → isBlank g') ∧ (e.debug = true → g' = g)) ∧
        (∀ tid T l e o, mget s.teams tid = some T → mget s.launches T.launch = some l → mget s.basalt.enclaves l.eid = some e →
          e.ending = false → (e.debug = false → readLoc t (.shared tid o) = 0) ∧
            (e.debug = true → readLoc t (.shared tid o) = readLoc s (.shared tid o))) ∧
        (∀ n q e, mget s.quartz n = some q → qInside q = true → mget s.basalt.enclaves (qEid q) = some e → e.ending = false →
          e.debug = false → ∃ q', mget t.quartz n = some q' ∧ q'.s = [] ∧ q'.k = []) ∧
        (∀ eid e, mget s.basalt.enclaves eid = some e → e.ending = false → ∃ e', mget t.basalt.enclaves eid = some e' ∧
          (e.debug = false → e'.key = none ∧ (eid < 4096 → ∀ d, d < 16 →
            mget t.basalt.baseKeys (4096 * d + eid) = none ∧ mget t.basalt.ctlKeys (4096 * d + eid) = none)) ∧ (e.debug = true → e' = e)) ∧
        (∀ tid T l e k, mget s.teams tid = some T → mget s.launches T.launch = some l → mget s.basalt.enclaves l.eid = some e →
          e.ending = false → e.debug = false → mget t.cores T.core = some k → k.tiles = []) ∧
        ∀ x ∈ t.fwd, ∀ e, mget s.basalt.enclaves x.eid = some e → e.ending = false → e.debug = true))
    frozen .freezePin ∧ (s.dbox.frzreq = true → frozen .freezeRequest) ∧
    (s.dbox.frzreq = false → exec .freezeRequest s = .next s)) ∧
  (∀ s : State, exec .scanReadOut s = .next { s with dbox := { s.dbox with scan := some s.dbox.frzst } }) ∧
  (∀ (s : State) (c : Nat), (c < 105 → exec (.thermalLimit c) s = .next { s with thermal := false }) ∧
    (105 ≤ c → c < 115 → exec (.thermalLimit c) s = .next { s with thermal := true }) ∧
    (115 ≤ c → s.dbox.frozen = false →
      exec (.thermalLimit c) s = .next { s with thermal := true, dbox := { s.dbox with frozen := true } })) ∧
  (∀ s : State, memWf s.basalt.flash = true → GoesTo (exec .powerLoss s) (fun t => t.far = s.far ∧
    t.groups = [] ∧ t.teams = [] ∧ t.hbm = [] ∧ t.basalt.enclaves = [] ∧ t.basalt.own = [] ∧ t.basalt.mr = [] ∧
    t.quartz = State.reset.quartz ∧ t.fes = State.reset.fes ∧ t.dies = State.reset.dies ∧ t.cores = State.reset.cores ∧
    ((∀ n l, s.basalt.update ≠ some (.flash n l)) → t.basalt.flash = s.basalt.flash) ∧
    (∀ n l, s.basalt.update = some (.flash n l) → 2 ≤ n → n ≤ 10 → 256 ≤ l.length → flashPlace s.basalt.flash n l.length ≠ none →
      ∀ x, FlashHas t.basalt.flash n x → ¬ ImageForm x) ∧
    ∀ n b, mget s.basalt.blocks n = some b → ∃ b', mget t.basalt.blocks n = some b' ∧ b'.svn = b.svn ∧ b'.released = false ∧
      b'.held = false))

/-- Bring-up and service of the module: blocks, live update, cores, freeze, power (R320, R456, R495 to R506). Whether a load or a
flash write succeeds is free (log 20); what a block's reset leaves (log 23) and where an image lies in flash (log 92) are the
model's choice. -/
def Obligations.BringUpAndService : Prop :=
  Sys2Proof.Claims.Blocks ∧ Sys2Proof.Claims.ServiceOfCores ∧ Sys2Proof.Claims.Freezes
end

