-- ==== Sys2Proof/Laws/Map.lean ====
section
/-! SUPPORT. Laws of the sparse tables and of the byte memories: what a read after a write gives, and that every operation
keeps the one canonical form. -/

namespace Sys2Proof.Machine

variable {α : Type}

/-! ### Reads after writes -/

@[simp] theorem mget_nil (k : Nat) : mget ([] : KMap α) k = none := rfl

@[simp] theorem mget_mput_self (l : KMap α) (k : Nat) (v : α) : mget (mput l k v) k = some v := by
  induction l with
  | nil => simp [mput, mget]
  | cons e t ih =>
    simp only [mput]
    split
    · simp [mget]
    · split
      · simp [mget]
      · next h => simp [mget, Ne.symm h, ih]

theorem mget_mput_other (l : KMap α) {j k : Nat} (v : α) (h : j ≠ k) : mget (mput l k v) j = mget l j := by
  induction l with
  | nil => simp [mput, mget, Ne.symm h]
  | cons e t ih =>
    simp only [mput]
    split
    · simp [mget, Ne.symm h]
    · split
      · next hk => simp [mget, ← hk, Ne.symm h]
      · simp [mget, ih]

theorem mget_mdel_other (l : KMap α) {j k : Nat} (h : j ≠ k) : mget (mdel l k) j = mget l j := by
  induction l with
  | nil => rfl
  | cons e t ih =>
    simp only [mdel]
    split
    · next hk => simp [mget, hk, Ne.symm h]
    · simp [mget, ih]

/-! ### Rising keys -/

theorem mrising_weaken {l : KMap α} {a b : Nat} (h : mrising (some b) l = true) (hab : a ≤ b) : mrising (some a) l = true := by
  cases l with
  | nil => rfl
  | cons e t =>
    simp only [mrising, Bool.and_eq_true, decide_eq_true_eq] at h ⊢
    exact ⟨by omega, h.2⟩

theorem mrising_none {l : KMap α} {b : Nat} (h : mrising (some b) l = true) : mrising none l = true := by
  cases l with
  | nil => rfl
  | cons e t => simp only [mrising, Bool.and_eq_true] at h ⊢; exact h.2

theorem mget_below {l : KMap α} {b k : Nat} (h : mrising (some b) l = true) (hk : k ≤ b) : mget l k = none := by
  induction l generalizing b with
  | nil => rfl
  | cons e t ih =>
    simp only [mrising, Bool.and_eq_true, decide_eq_true_eq] at h
    simp only [mget]
    rw [if_neg (by omega)]
    exact ih h.2 (by omega)

theorem mrising_mput_some {l : KMap α} {b k : Nat} {v : α} (h : mrising (some b) l = true) (hk : b < k) :
    mrising (some b) (mput l k v) = true := by
  induction l generalizing b with
  | nil => simp [mput, mrising, hk]
  | cons e t ih =>
    simp only [mrising, Bool.and_eq_true, decide_eq_true_eq] at h
    simp only [mput]
    split
    · next hlt => simp [mrising, hk, h.2, hlt]
    · split
      · next _ he => simp [mrising, hk, he ▸ h.2]
      · simp only [mrising, Bool.and_eq_true, decide_eq_true_eq]
        exact ⟨h.1, ih h.2 (by omega)⟩

theorem mrising_mput {l : KMap α} {k : Nat} {v : α} (h : mrising none l = true) : mrising none (mput l k v) = true := by
  cases l with
  | nil => rfl
  | cons e t =>
    simp only [mrising] at h
    simp only [mput]
    split
    · next hlt => simp [mrising, h, hlt]
    · split
      · next _ he => simp [mrising, he ▸ h]
      · exact mrising_mput_some (b := e.1) h (by omega)

theorem mrising_mdel_some {l : KMap α} {b k : Nat} (h : mrising (some b) l = true) : mrising (some b) (mdel l k) = true := by
  induction l generalizing b with
  | nil => rfl
  | cons e t ih =>
    simp only [mrising, Bool.and_eq_true, decide_eq_true_eq] at h
    simp only [mdel]
    split
    · exact mrising_weaken h.2 (by omega)
    · simp only [mrising, Bool.and_eq_true, decide_eq_true_eq]
      exact ⟨h.1, ih h.2⟩

theorem mrising_mdel {l : KMap α} {k : Nat} (h : mrising none l = true) : mrising none (mdel l k) = true := by
  cases l with
  | nil => rfl
  | cons e t =>
    simp only [mrising] at h
    simp only [mdel]
    split
    · exact mrising_none h
    · exact mrising_mdel_some (b := e.1) h

theorem mget_mdel_self {l : KMap α} {k : Nat} (h : mrising none l = true) : mget (mdel l k) k = none := by
  have go : ∀ (l : KMap α) (b : Nat), mrising (some b) l = true → mget (mdel l k) k = none := by
    intro l
    induction l with
    | nil => intros; rfl
    | cons e t ih =>
      intro b hb
      simp only [mrising, Bool.and_eq_true, decide_eq_true_eq] at hb
      simp only [mdel]
      split
      · next he => exact mget_below (he ▸ hb.2) (Nat.le_refl _)
      · next he => simp only [mget, if_neg he]; exact ih _ hb.2
  cases l with
  | nil => rfl
  | cons e t =>
    simp only [mrising] at h
    simp only [mdel]
    split
    · next he => exact mget_below (he ▸ h) (Nat.le_refl _)
    · next he => simp only [mget, if_neg he]; exact go _ _ h

theorem mrising_filter_some {l : KMap α} {b : Nat} (p : Nat × α → Bool) (h : mrising (some b) l = true) :
    mrising (some b) (l.filter p) = true := by
  induction l generalizing b with
  | nil => rfl
  | cons e t ih =>
    simp only [mrising, Bool.and_eq_true, decide_eq_true_eq] at h
    simp only [List.filter_cons]
    split
    · simp only [mrising, Bool.and_eq_true, decide_eq_true_eq]; exact ⟨h.1, ih h.2⟩
    · exact mrising_weaken (ih h.2) (by omega)

theorem mrising_filter {l : KMap α} (p : Nat × α → Bool) (h : mrising none l = true) : mrising none (l.filter p) = true := by
  cases l with
  | nil => rfl
  | cons e t =>
    simp only [mrising] at h
    simp only [List.filter_cons]
    split
    · simp only [mrising]; exact mrising_filter_some p h
    · exact mrising_none (mrising_filter_some p h)

/-- A table with entries removed by key reads as before at the keys that stay, and as empty at the others. -/
theorem mget_filter (l : KMap α) (p : Nat → Bool) (k : Nat) :
    mget (l.filter (fun e => p e.1)) k = if p k then mget l k else none := by
  induction l with
  | nil => simp
  | cons e t ih =>
    obtain ⟨j, w⟩ := e
    by_cases hj : j = k
    · subst hj; cases hp : p j <;> simp [hp, mget, ih]
    · cases hp : p j <;> simp [hp, mget, hj, ih]

/-- A table with every entry's value changed keeps its keys. -/
theorem mget_map {β : Type} (l : KMap α) (f : Nat → α → β) (k : Nat) :
    mget (l.map (fun e => (e.1, f e.1 e.2))) k = (mget l k).map (f k) := by
  induction l with
  | nil => rfl
  | cons e t ih =>
    simp only [List.map_cons, mget]
    split
    · next h => simp [h]
    · exact ih

theorem mrising_map {β : Type} (b : Option Nat) (l : KMap α) (f : Nat × α → β) :
    mrising b (l.map (fun e => (e.1, f e))) = mrising b l := by
  induction l generalizing b with
  | nil => rfl
  | cons e t ih => cases b <;> simp [mrising, ih]

/-! ### Updates -/

@[simp] theorem mget_mupd_self (l : KMap α) (k : Nat) (f : α → α) : mget (mupd l k f) k = (mget l k).map f := by
  unfold mupd; cases h : mget l k <;> simp [h]

theorem mget_mupd_other (l : KMap α) {j k : Nat} (f : α → α) (h : j ≠ k) : mget (mupd l k f) j = mget l j := by
  unfold mupd; cases mget l k <;> simp [mget_mput_other _ _ h]

theorem mrising_mupd {l : KMap α} {k : Nat} {f : α → α} (h : mrising none l = true) : mrising none (mupd l k f) = true := by
  unfold mupd; cases mget l k <;> simp [h, mrising_mput]

/-! ### Tables with a default -/

theorem mgetD_msetD_self [DecidableEq α] {l : KMap α} {d : α} (k : Nat) (v : α) (h : mrising none l = true) :
    mgetD (msetD l k v d) k d = v := by
  unfold msetD mgetD
  split
  · next hv => simp [mget_mdel_self h, hv]
  · simp

theorem mgetD_msetD_other [DecidableEq α] (l : KMap α) {d : α} {j k : Nat} (v : α) (h : j ≠ k) :
    mgetD (msetD l k v d) j d = mgetD l j d := by
  unfold msetD mgetD
  split
  · rw [mget_mdel_other l h]
  · rw [mget_mput_other l v h]

theorem mem_mput {l : KMap α} {k : Nat} {v : α} {e : Nat × α} (h : e ∈ mput l k v) : e = (k, v) ∨ e ∈ l := by
  induction l with
  | nil => simp [mput] at h; exact .inl h
  | cons x t ih =>
    simp only [mput] at h
    split at h
    · simpa using h
    · split at h
      · rcases List.mem_cons.1 h with h | h
        · exact .inl h
        · exact .inr (List.mem_cons_of_mem _ h)
      · rcases List.mem_cons.1 h with h | h
        · exact .inr (h ▸ List.mem_cons_self)
        · rcases ih h with h | h
          · exact .inl h
          · exact .inr (List.mem_cons_of_mem _ h)

theorem mem_mdel {l : KMap α} {k : Nat} {e : Nat × α} (h : e ∈ mdel l k) : e ∈ l := by
  induction l with
  | nil => simp [mdel] at h
  | cons x t ih =>
    simp only [mdel] at h
    split at h
    · exact List.mem_cons_of_mem _ h
    · rcases List.mem_cons.1 h with h | h
      · exact h ▸ List.mem_cons_self
      · exact List.mem_cons_of_mem _ (ih h)

theorem mwf_rising [DecidableEq α] {l : KMap α} {d : α} (h : mwf d l = true) : mrising none l = true := by
  simp only [mwf, Bool.and_eq_true] at h; exact h.1

/-- Setting a value keeps the canonical form. -/
theorem mwf_msetD [DecidableEq α] {l : KMap α} {d : α} (k : Nat) (v : α) (h : mwf d l = true) : mwf d (msetD l k v d) = true := by
  simp only [mwf, Bool.and_eq_true, List.all_eq_true, decide_eq_true_eq] at h ⊢
  unfold msetD
  split
  · exact ⟨mrising_mdel h.1, fun e he => h.2 e (mem_mdel he)⟩
  · next hv =>
    refine ⟨mrising_mput h.1, fun e he => ?_⟩
    rcases mem_mput he with rfl | he
    · exact hv
    · exact h.2 e he

/-- Removing entries keeps the canonical form. -/
theorem mwf_filter [DecidableEq α] {l : KMap α} {d : α} (p : Nat × α → Bool) (h : mwf d l = true) : mwf d (l.filter p) = true := by
  simp only [mwf, Bool.and_eq_true, List.all_eq_true, decide_eq_true_eq] at h ⊢
  exact ⟨mrising_filter p h.1, fun e he => h.2 e (List.mem_filter.1 he).1⟩

/-! ### Byte memories -/

theorem memWf_nil : memWf [] = true := rfl

theorem memWf_writeByte {m : Bytes} (a : Nat) (b : Byte) (h : memWf m = true) : memWf (writeByte m a b) = true :=
  mwf_msetD a b h

theorem memWf_writeBytes {m : Bytes} (a : Nat) (l : List Byte) (h : memWf m = true) : memWf (writeBytes m a l) = true := by
  induction l generalizing m a with
  | nil => exact h
  | cons b t ih => exact ih (a + 1) (memWf_writeByte a b h)

theorem memWf_writeLe {m : Bytes} (a n x : Nat) (h : memWf m = true) : memWf (writeLe m a n x) = true :=
  memWf_writeBytes a _ h

theorem memWf_zeroBytes {m : Bytes} (a n : Nat) (h : memWf m = true) : memWf (zeroBytes m a n) = true :=
  mwf_filter _ h

theorem readByte_writeByte_self {m : Bytes} (a : Nat) (b : Byte) (h : memWf m = true) : readByte (writeByte m a b) a = b :=
  mgetD_msetD_self a b (mwf_rising h)

theorem readByte_writeByte_other (m : Bytes) {a c : Nat} (b : Byte) (h : c ≠ a) : readByte (writeByte m a b) c = readByte m c :=
  mgetD_msetD_other m b h

theorem readByte_writeBytes_other (m : Bytes) {a c : Nat} (l : List Byte) (h : c < a ∨ a + l.length ≤ c) :
    readByte (writeBytes m a l) c = readByte m c := by
  induction l generalizing m a with
  | nil => rfl
  | cons b t ih =>
    simp only [List.length_cons] at h
    rw [writeBytes, ih (a := a + 1) _ (by omega), readByte_writeByte_other m b (by omega)]

theorem readByte_writeBytes {m : Bytes} (a j : Nat) (l : List Byte) (h : memWf m = true) (hj : j < l.length) :
    readByte (writeBytes m a l) (a + j) = l.getD j 0 := by
  induction l generalizing m a j with
  | nil => simp at hj
  | cons b t ih =>
    simp only [List.length_cons] at hj
    rw [writeBytes]
    cases j with
    | zero =>
      rw [readByte_writeBytes_other _ _ (by omega)]
      simpa using readByte_writeByte_self a b h
    | succ n =>
      have := ih (a := a + 1) (j := n) (memWf_writeByte a b h) (by omega)
      rw [show a + (n + 1) = a + 1 + n by omega, this]
      simp

@[simp] theorem readBytes_length (m : Bytes) (a n : Nat) : (readBytes m a n).length = n := by
  induction n generalizing a with
  | zero => rfl
  | succ n ih => simp [readBytes, ih]

/-- Bytes written are read back. -/
theorem readBytes_writeBytes {m : Bytes} (a : Nat) (l : List Byte) (h : memWf m = true) :
    readBytes (writeBytes m a l) a l.length = l := by
  induction l generalizing m a with
  | nil => rfl
  | cons b t ih =>
    simp only [List.length_cons, readBytes, writeBytes]
    rw [ih (a + 1) (memWf_writeByte a b h), readByte_writeBytes_other _ _ (by omega), readByte_writeByte_self a b h]

theorem readByte_zeroBytes (m : Bytes) (a n c : Nat) :
    readByte (zeroBytes m a n) c = if c < a ∨ a + n ≤ c then readByte m c else 0 := by
  unfold readByte zeroBytes mgetD
  rw [mget_filter m (fun k => decide (k < a ∨ a + n ≤ k)) c]
  by_cases h : c < a ∨ a + n ≤ c <;> simp [h]

end Sys2Proof.Machine
end

