-- ==== Sys2Proof/Laws/State.lean ====
section
/-! SUPPORT. The fields of the state and of a group after each named update: one lemma per field per update. -/

namespace Sys2Proof.Machine

/-! ### setGroup -/

@[simp] theorem setGroup_agent (s : State) (loc : Nat) (g : Group) : (setGroup s loc g).agent = s.agent := rfl
@[simp] theorem setGroup_groups (s : State) (loc : Nat) (g : Group) : (setGroup s loc g).groups = mput s.groups loc g := rfl
@[simp] theorem setGroup_teams (s : State) (loc : Nat) (g : Group) : (setGroup s loc g).teams = s.teams := rfl
@[simp] theorem setGroup_cores (s : State) (loc : Nat) (g : Group) : (setGroup s loc g).cores = s.cores := rfl
@[simp] theorem setGroup_dies (s : State) (loc : Nat) (g : Group) : (setGroup s loc g).dies = s.dies := rfl
@[simp] theorem setGroup_hbm (s : State) (loc : Nat) (g : Group) : (setGroup s loc g).hbm = s.hbm := rfl
@[simp] theorem setGroup_quartz (s : State) (loc : Nat) (g : Group) : (setGroup s loc g).quartz = s.quartz := rfl
@[simp] theorem setGroup_fes (s : State) (loc : Nat) (g : Group) : (setGroup s loc g).fes = s.fes := rfl
@[simp] theorem setGroup_launches (s : State) (loc : Nat) (g : Group) : (setGroup s loc g).launches = s.launches := rfl
@[simp] theorem setGroup_saved (s : State) (loc : Nat) (g : Group) : (setGroup s loc g).saved = s.saved := rfl
@[simp] theorem setGroup_tlb (s : State) (loc : Nat) (g : Group) : (setGroup s loc g).tlb = s.tlb := rfl
@[simp] theorem setGroup_tlbGone (s : State) (loc : Nat) (g : Group) : (setGroup s loc g).tlbGone = s.tlbGone := rfl
@[simp] theorem setGroup_walks (s : State) (loc : Nat) (g : Group) : (setGroup s loc g).walks = s.walks := rfl
@[simp] theorem setGroup_prq (s : State) (loc : Nat) (g : Group) : (setGroup s loc g).prq = s.prq := rfl
@[simp] theorem setGroup_basalt (s : State) (loc : Nat) (g : Group) : (setGroup s loc g).basalt = s.basalt := rfl
@[simp] theorem setGroup_badLines (s : State) (loc : Nat) (g : Group) : (setGroup s loc g).badLines = s.badLines := rfl
@[simp] theorem setGroup_stale (s : State) (loc : Nat) (g : Group) : (setGroup s loc g).stale = s.stale := rfl
@[simp] theorem setGroup_rom (s : State) (loc : Nat) (g : Group) : (setGroup s loc g).rom = s.rom := rfl
@[simp] theorem setGroup_ways (s : State) (loc : Nat) (g : Group) : (setGroup s loc g).ways = s.ways := rfl
@[simp] theorem setGroup_quanta (s : State) (loc : Nat) (g : Group) : (setGroup s loc g).quanta = s.quanta := rfl
@[simp] theorem setGroup_work (s : State) (loc : Nat) (g : Group) : (setGroup s loc g).work = s.work := rfl
@[simp] theorem setGroup_late (s : State) (loc : Nat) (g : Group) : (setGroup s loc g).late = s.late := rfl
@[simp] theorem setGroup_fwd (s : State) (loc : Nat) (g : Group) : (setGroup s loc g).fwd = s.fwd := rfl
@[simp] theorem setGroup_shale (s : State) (loc : Nat) (g : Group) : (setGroup s loc g).shale = s.shale := rfl
@[simp] theorem setGroup_dbox (s : State) (loc : Nat) (g : Group) : (setGroup s loc g).dbox = s.dbox := rfl
@[simp] theorem setGroup_spdm (s : State) (loc : Nat) (g : Group) : (setGroup s loc g).spdm = s.spdm := rfl
@[simp] theorem setGroup_roots (s : State) (loc : Nat) (g : Group) : (setGroup s loc g).roots = s.roots := rfl
@[simp] theorem setGroup_ue (s : State) (loc : Nat) (g : Group) : (setGroup s loc g).ue = s.ue := rfl
@[simp] theorem setGroup_bells (s : State) (loc : Nat) (g : Group) : (setGroup s loc g).bells = s.bells := rfl
@[simp] theorem setGroup_far (s : State) (loc : Nat) (g : Group) : (setGroup s loc g).far = s.far := rfl
@[simp] theorem setGroup_unreachable (s : State) (loc : Nat) (g : Group) : (setGroup s loc g).unreachable = s.unreachable := rfl
@[simp] theorem setGroup_remoteReply (s : State) (loc : Nat) (g : Group) : (setGroup s loc g).remoteReply = s.remoteReply := rfl
@[simp] theorem setGroup_remoteWait (s : State) (loc : Nat) (g : Group) : (setGroup s loc g).remoteWait = s.remoteWait := rfl
@[simp] theorem setGroup_thermal (s : State) (loc : Nat) (g : Group) : (setGroup s loc g).thermal = s.thermal := rfl
@[simp] theorem setGroup_time (s : State) (loc : Nat) (g : Group) : (setGroup s loc g).time = s.time := rfl
@[simp] theorem setGroup_fresh (s : State) (loc : Nat) (g : Group) : (setGroup s loc g).fresh = s.fresh := rfl
@[simp] theorem setGroup_script (s : State) (loc : Nat) (g : Group) : (setGroup s loc g).script = s.script := rfl
@[simp] theorem setGroup_mover (s : State) (loc : Nat) (g : Group) : (setGroup s loc g).mover = s.mover := rfl
@[simp] theorem setGroup_last (s : State) (loc : Nat) (g : Group) : (setGroup s loc g).last = s.last := rfl

/-! ### updGroup -/

@[simp] theorem updGroup_agent (s : State) (loc : Nat) (f : Group → Group) : (updGroup s loc f).agent = s.agent := rfl
@[simp] theorem updGroup_groups (s : State) (loc : Nat) (f : Group → Group) : (updGroup s loc f).groups = mupd s.groups loc f := rfl
@[simp] theorem updGroup_teams (s : State) (loc : Nat) (f : Group → Group) : (updGroup s loc f).teams = s.teams := rfl
@[simp] theorem updGroup_cores (s : State) (loc : Nat) (f : Group → Group) : (updGroup s loc f).cores = s.cores := rfl
@[simp] theorem updGroup_dies (s : State) (loc : Nat) (f : Group → Group) : (updGroup s loc f).dies = s.dies := rfl
@[simp] theorem updGroup_hbm (s : State) (loc : Nat) (f : Group → Group) : (updGroup s loc f).hbm = s.hbm := rfl
@[simp] theorem updGroup_quartz (s : State) (loc : Nat) (f : Group → Group) : (updGroup s loc f).quartz = s.quartz := rfl
@[simp] theorem updGroup_fes (s : State) (loc : Nat) (f : Group → Group) : (updGroup s loc f).fes = s.fes := rfl
@[simp] theorem updGroup_launches (s : State) (loc : Nat) (f : Group → Group) : (updGroup s loc f).launches = s.launches := rfl
@[simp] theorem updGroup_saved (s : State) (loc : Nat) (f : Group → Group) : (updGroup s loc f).saved = s.saved := rfl
@[simp] theorem updGroup_tlb (s : State) (loc : Nat) (f : Group → Group) : (updGroup s loc f).tlb = s.tlb := rfl
@[simp] theorem updGroup_tlbGone (s : State) (loc : Nat) (f : Group → Group) : (updGroup s loc f).tlbGone = s.tlbGone := rfl
@[simp] theorem updGroup_walks (s : State) (loc : Nat) (f : Group → Group) : (updGroup s loc f).walks = s.walks := rfl
@[simp] theorem updGroup_prq (s : State) (loc : Nat) (f : Group → Group) : (updGroup s loc f).prq = s.prq := rfl
@[simp] theorem updGroup_basalt (s : State) (loc : Nat) (f : Group → Group) : (updGroup s loc f).basalt = s.basalt := rfl
@[simp] theorem updGroup_badLines (s : State) (loc : Nat) (f : Group → Group) : (updGroup s loc f).badLines = s.badLines := rfl
@[simp] theorem updGroup_stale (s : State) (loc : Nat) (f : Group → Group) : (updGroup s loc f).stale = s.stale := rfl
@[simp] theorem updGroup_rom (s : State) (loc : Nat) (f : Group → Group) : (updGroup s loc f).rom = s.rom := rfl
@[simp] theorem updGroup_ways (s : State) (loc : Nat) (f : Group → Group) : (updGroup s loc f).ways = s.ways := rfl
@[simp] theorem updGroup_quanta (s : State) (loc : Nat) (f : Group → Group) : (updGroup s loc f).quanta = s.quanta := rfl
@[simp] theorem updGroup_work (s : State) (loc : Nat) (f : Group → Group) : (updGroup s loc f).work = s.work := rfl
@[simp] theorem updGroup_late (s : State) (loc : Nat) (f : Group → Group) : (updGroup s loc f).late = s.late := rfl
@[simp] theorem updGroup_fwd (s : State) (loc : Nat) (f : Group → Group) : (updGroup s loc f).fwd = s.fwd := rfl
@[simp] theorem updGroup_shale (s : State) (loc : Nat) (f : Group → Group) : (updGroup s loc f).shale = s.shale := rfl
@[simp] theorem updGroup_dbox (s : State) (loc : Nat) (f : Group → Group) : (updGroup s loc f).dbox = s.dbox := rfl
@[simp] theorem updGroup_spdm (s : State) (loc : Nat) (f : Group → Group) : (updGroup s loc f).spdm = s.spdm := rfl
@[simp] theorem updGroup_roots (s : State) (loc : Nat) (f : Group → Group) : (updGroup s loc f).roots = s.roots := rfl
@[simp] theorem updGroup_ue (s : State) (loc : Nat) (f : Group → Group) : (updGroup s loc f).ue = s.ue := rfl
@[simp] theorem updGroup_bells (s : State) (loc : Nat) (f : Group → Group) : (updGroup s loc f).bells = s.bells := rfl
@[simp] theorem updGroup_far (s : State) (loc : Nat) (f : Group → Group) : (updGroup s loc f).far = s.far := rfl
@[simp] theorem updGroup_unreachable (s : State) (loc : Nat) (f : Group → Group) : (updGroup s loc f).unreachable = s.unreachable := rfl
@[simp] theorem updGroup_remoteReply (s : State) (loc : Nat) (f : Group → Group) : (updGroup s loc f).remoteReply = s.remoteReply := rfl
@[simp] theorem updGroup_remoteWait (s : State) (loc : Nat) (f : Group → Group) : (updGroup s loc f).remoteWait = s.remoteWait := rfl
@[simp] theorem updGroup_thermal (s : State) (loc : Nat) (f : Group → Group) : (updGroup s loc f).thermal = s.thermal := rfl
@[simp] theorem updGroup_time (s : State) (loc : Nat) (f : Group → Group) : (updGroup s loc f).time = s.time := rfl
@[simp] theorem updGroup_fresh (s : State) (loc : Nat) (f : Group → Group) : (updGroup s loc f).fresh = s.fresh := rfl
@[simp] theorem updGroup_script (s : State) (loc : Nat) (f : Group → Group) : (updGroup s loc f).script = s.script := rfl
@[simp] theorem updGroup_mover (s : State) (loc : Nat) (f : Group → Group) : (updGroup s loc f).mover = s.mover := rfl
@[simp] theorem updGroup_last (s : State) (loc : Nat) (f : Group → Group) : (updGroup s loc f).last = s.last := rfl

/-! ### updTeam -/

@[simp] theorem updTeam_agent (s : State) (t : Nat) (f : Team → Team) : (updTeam s t f).agent = s.agent := rfl
@[simp] theorem updTeam_groups (s : State) (t : Nat) (f : Team → Team) : (updTeam s t f).groups = s.groups := rfl
@[simp] theorem updTeam_teams (s : State) (t : Nat) (f : Team → Team) : (updTeam s t f).teams = mupd s.teams t f := rfl
@[simp] theorem updTeam_cores (s : State) (t : Nat) (f : Team → Team) : (updTeam s t f).cores = s.cores := rfl
@[simp] theorem updTeam_dies (s : State) (t : Nat) (f : Team → Team) : (updTeam s t f).dies = s.dies := rfl
@[simp] theorem updTeam_hbm (s : State) (t : Nat) (f : Team → Team) : (updTeam s t f).hbm = s.hbm := rfl
@[simp] theorem updTeam_quartz (s : State) (t : Nat) (f : Team → Team) : (updTeam s t f).quartz = s.quartz := rfl
@[simp] theorem updTeam_fes (s : State) (t : Nat) (f : Team → Team) : (updTeam s t f).fes = s.fes := rfl
@[simp] theorem updTeam_launches (s : State) (t : Nat) (f : Team → Team) : (updTeam s t f).launches = s.launches := rfl
@[simp] theorem updTeam_saved (s : State) (t : Nat) (f : Team → Team) : (updTeam s t f).saved = s.saved := rfl
@[simp] theorem updTeam_tlb (s : State) (t : Nat) (f : Team → Team) : (updTeam s t f).tlb = s.tlb := rfl
@[simp] theorem updTeam_tlbGone (s : State) (t : Nat) (f : Team → Team) : (updTeam s t f).tlbGone = s.tlbGone := rfl
@[simp] theorem updTeam_walks (s : State) (t : Nat) (f : Team → Team) : (updTeam s t f).walks = s.walks := rfl
@[simp] theorem updTeam_prq (s : State) (t : Nat) (f : Team → Team) : (updTeam s t f).prq = s.prq := rfl
@[simp] theorem updTeam_basalt (s : State) (t : Nat) (f : Team → Team) : (updTeam s t f).basalt = s.basalt := rfl
@[simp] theorem updTeam_badLines (s : State) (t : Nat) (f : Team → Team) : (updTeam s t f).badLines = s.badLines := rfl
@[simp] theorem updTeam_stale (s : State) (t : Nat) (f : Team → Team) : (updTeam s t f).stale = s.stale := rfl
@[simp] theorem updTeam_rom (s : State) (t : Nat) (f : Team → Team) : (updTeam s t f).rom = s.rom := rfl
@[simp] theorem updTeam_ways (s : State) (t : Nat) (f : Team → Team) : (updTeam s t f).ways = s.ways := rfl
@[simp] theorem updTeam_quanta (s : State) (t : Nat) (f : Team → Team) : (updTeam s t f).quanta = s.quanta := rfl
@[simp] theorem updTeam_work (s : State) (t : Nat) (f : Team → Team) : (updTeam s t f).work = s.work := rfl
@[simp] theorem updTeam_late (s : State) (t : Nat) (f : Team → Team) : (updTeam s t f).late = s.late := rfl
@[simp] theorem updTeam_fwd (s : State) (t : Nat) (f : Team → Team) : (updTeam s t f).fwd = s.fwd := rfl
@[simp] theorem updTeam_shale (s : State) (t : Nat) (f : Team → Team) : (updTeam s t f).shale = s.shale := rfl
@[simp] theorem updTeam_dbox (s : State) (t : Nat) (f : Team → Team) : (updTeam s t f).dbox = s.dbox := rfl
@[simp] theorem updTeam_spdm (s : State) (t : Nat) (f : Team → Team) : (updTeam s t f).spdm = s.spdm := rfl
@[simp] theorem updTeam_roots (s : State) (t : Nat) (f : Team → Team) : (updTeam s t f).roots = s.roots := rfl
@[simp] theorem updTeam_ue (s : State) (t : Nat) (f : Team → Team) : (updTeam s t f).ue = s.ue := rfl
@[simp] theorem updTeam_bells (s : State) (t : Nat) (f : Team → Team) : (updTeam s t f).bells = s.bells := rfl
@[simp] theorem updTeam_far (s : State) (t : Nat) (f : Team → Team) : (updTeam s t f).far = s.far := rfl
@[simp] theorem updTeam_unreachable (s : State) (t : Nat) (f : Team → Team) : (updTeam s t f).unreachable = s.unreachable := rfl
@[simp] theorem updTeam_remoteReply (s : State) (t : Nat) (f : Team → Team) : (updTeam s t f).remoteReply = s.remoteReply := rfl
@[simp] theorem updTeam_remoteWait (s : State) (t : Nat) (f : Team → Team) : (updTeam s t f).remoteWait = s.remoteWait := rfl
@[simp] theorem updTeam_thermal (s : State) (t : Nat) (f : Team → Team) : (updTeam s t f).thermal = s.thermal := rfl
@[simp] theorem updTeam_time (s : State) (t : Nat) (f : Team → Team) : (updTeam s t f).time = s.time := rfl
@[simp] theorem updTeam_fresh (s : State) (t : Nat) (f : Team → Team) : (updTeam s t f).fresh = s.fresh := rfl
@[simp] theorem updTeam_script (s : State) (t : Nat) (f : Team → Team) : (updTeam s t f).script = s.script := rfl
@[simp] theorem updTeam_mover (s : State) (t : Nat) (f : Team → Team) : (updTeam s t f).mover = s.mover := rfl
@[simp] theorem updTeam_last (s : State) (t : Nat) (f : Team → Team) : (updTeam s t f).last = s.last := rfl

/-! ### updCore -/

@[simp] theorem updCore_agent (s : State) (c : Nat) (f : Core → Core) : (updCore s c f).agent = s.agent := rfl
@[simp] theorem updCore_groups (s : State) (c : Nat) (f : Core → Core) : (updCore s c f).groups = s.groups := rfl
@[simp] theorem updCore_teams (s : State) (c : Nat) (f : Core → Core) : (updCore s c f).teams = s.teams := rfl
@[simp] theorem updCore_cores (s : State) (c : Nat) (f : Core → Core) : (updCore s c f).cores = mupd s.cores c f := rfl
@[simp] theorem updCore_dies (s : State) (c : Nat) (f : Core → Core) : (updCore s c f).dies = s.dies := rfl
@[simp] theorem updCore_hbm (s : State) (c : Nat) (f : Core → Core) : (updCore s c f).hbm = s.hbm := rfl
@[simp] theorem updCore_quartz (s : State) (c : Nat) (f : Core → Core) : (updCore s c f).quartz = s.quartz := rfl
@[simp] theorem updCore_fes (s : State) (c : Nat) (f : Core → Core) : (updCore s c f).fes = s.fes := rfl
@[simp] theorem updCore_launches (s : State) (c : Nat) (f : Core → Core) : (updCore s c f).launches = s.launches := rfl
@[simp] theorem updCore_saved (s : State) (c : Nat) (f : Core → Core) : (updCore s c f).saved = s.saved := rfl
@[simp] theorem updCore_tlb (s : State) (c : Nat) (f : Core → Core) : (updCore s c f).tlb = s.tlb := rfl
@[simp] theorem updCore_tlbGone (s : State) (c : Nat) (f : Core → Core) : (updCore s c f).tlbGone = s.tlbGone := rfl
@[simp] theorem updCore_walks (s : State) (c : Nat) (f : Core → Core) : (updCore s c f).walks = s.walks := rfl
@[simp] theorem updCore_prq (s : State) (c : Nat) (f : Core → Core) : (updCore s c f).prq = s.prq := rfl
@[simp] theorem updCore_basalt (s : State) (c : Nat) (f : Core → Core) : (updCore s c f).basalt = s.basalt := rfl
@[simp] theorem updCore_badLines (s : State) (c : Nat) (f : Core → Core) : (updCore s c f).badLines = s.badLines := rfl
@[simp] theorem updCore_stale (s : State) (c : Nat) (f : Core → Core) : (updCore s c f).stale = s.stale := rfl
@[simp] theorem updCore_rom (s : State) (c : Nat) (f : Core → Core) : (updCore s c f).rom = s.rom := rfl
@[simp] theorem updCore_ways (s : State) (c : Nat) (f : Core → Core) : (updCore s c f).ways = s.ways := rfl
@[simp] theorem updCore_quanta (s : State) (c : Nat) (f : Core → Core) : (updCore s c f).quanta = s.quanta := rfl
@[simp] theorem updCore_work (s : State) (c : Nat) (f : Core → Core) : (updCore s c f).work = s.work := rfl
@[simp] theorem updCore_late (s : State) (c : Nat) (f : Core → Core) : (updCore s c f).late = s.late := rfl
@[simp] theorem updCore_fwd (s : State) (c : Nat) (f : Core → Core) : (updCore s c f).fwd = s.fwd := rfl
@[simp] theorem updCore_shale (s : State) (c : Nat) (f : Core → Core) : (updCore s c f).shale = s.shale := rfl
@[simp] theorem updCore_dbox (s : State) (c : Nat) (f : Core → Core) : (updCore s c f).dbox = s.dbox := rfl
@[simp] theorem updCore_spdm (s : State) (c : Nat) (f : Core → Core) : (updCore s c f).spdm = s.spdm := rfl
@[simp] theorem updCore_roots (s : State) (c : Nat) (f : Core → Core) : (updCore s c f).roots = s.roots := rfl
@[simp] theorem updCore_ue (s : State) (c : Nat) (f : Core → Core) : (updCore s c f).ue = s.ue := rfl
@[simp] theorem updCore_bells (s : State) (c : Nat) (f : Core → Core) : (updCore s c f).bells = s.bells := rfl
@[simp] theorem updCore_far (s : State) (c : Nat) (f : Core → Core) : (updCore s c f).far = s.far := rfl
@[simp] theorem updCore_unreachable (s : State) (c : Nat) (f : Core → Core) : (updCore s c f).unreachable = s.unreachable := rfl
@[simp] theorem updCore_remoteReply (s : State) (c : Nat) (f : Core → Core) : (updCore s c f).remoteReply = s.remoteReply := rfl
@[simp] theorem updCore_remoteWait (s : State) (c : Nat) (f : Core → Core) : (updCore s c f).remoteWait = s.remoteWait := rfl
@[simp] theorem updCore_thermal (s : State) (c : Nat) (f : Core → Core) : (updCore s c f).thermal = s.thermal := rfl
@[simp] theorem updCore_time (s : State) (c : Nat) (f : Core → Core) : (updCore s c f).time = s.time := rfl
@[simp] theorem updCore_fresh (s : State) (c : Nat) (f : Core → Core) : (updCore s c f).fresh = s.fresh := rfl
@[simp] theorem updCore_script (s : State) (c : Nat) (f : Core → Core) : (updCore s c f).script = s.script := rfl
@[simp] theorem updCore_mover (s : State) (c : Nat) (f : Core → Core) : (updCore s c f).mover = s.mover := rfl
@[simp] theorem updCore_last (s : State) (c : Nat) (f : Core → Core) : (updCore s c f).last = s.last := rfl

/-! ### updDie -/

@[simp] theorem updDie_agent (s : State) (d : Nat) (f : Die → Die) : (updDie s d f).agent = s.agent := rfl
@[simp] theorem updDie_groups (s : State) (d : Nat) (f : Die → Die) : (updDie s d f).groups = s.groups := rfl
@[simp] theorem updDie_teams (s : State) (d : Nat) (f : Die → Die) : (updDie s d f).teams = s.teams := rfl
@[simp] theorem updDie_cores (s : State) (d : Nat) (f : Die → Die) : (updDie s d f).cores = s.cores := rfl
@[simp] theorem updDie_dies (s : State) (d : Nat) (f : Die → Die) : (updDie s d f).dies = mupd s.dies d f := rfl
@[simp] theorem updDie_hbm (s : State) (d : Nat) (f : Die → Die) : (updDie s d f).hbm = s.hbm := rfl
@[simp] theorem updDie_quartz (s : State) (d : Nat) (f : Die → Die) : (updDie s d f).quartz = s.quartz := rfl
@[simp] theorem updDie_fes (s : State) (d : Nat) (f : Die → Die) : (updDie s d f).fes = s.fes := rfl
@[simp] theorem updDie_launches (s : State) (d : Nat) (f : Die → Die) : (updDie s d f).launches = s.launches := rfl
@[simp] theorem updDie_saved (s : State) (d : Nat) (f : Die → Die) : (updDie s d f).saved = s.saved := rfl
@[simp] theorem updDie_tlb (s : State) (d : Nat) (f : Die → Die) : (updDie s d f).tlb = s.tlb := rfl
@[simp] theorem updDie_tlbGone (s : State) (d : Nat) (f : Die → Die) : (updDie s d f).tlbGone = s.tlbGone := rfl
@[simp] theorem updDie_walks (s : State) (d : Nat) (f : Die → Die) : (updDie s d f).walks = s.walks := rfl
@[simp] theorem updDie_prq (s : State) (d : Nat) (f : Die → Die) : (updDie s d f).prq = s.prq := rfl
@[simp] theorem updDie_basalt (s : State) (d : Nat) (f : Die → Die) : (updDie s d f).basalt = s.basalt := rfl
@[simp] theorem updDie_badLines (s : State) (d : Nat) (f : Die → Die) : (updDie s d f).badLines = s.badLines := rfl
@[simp] theorem updDie_stale (s : State) (d : Nat) (f : Die → Die) : (updDie s d f).stale = s.stale := rfl
@[simp] theorem updDie_rom (s : State) (d : Nat) (f : Die → Die) : (updDie s d f).rom = s.rom := rfl
@[simp] theorem updDie_ways (s : State) (d : Nat) (f : Die → Die) : (updDie s d f).ways = s.ways := rfl
@[simp] theorem updDie_quanta (s : State) (d : Nat) (f : Die → Die) : (updDie s d f).quanta = s.quanta := rfl
@[simp] theorem updDie_work (s : State) (d : Nat) (f : Die → Die) : (updDie s d f).work = s.work := rfl
@[simp] theorem updDie_late (s : State) (d : Nat) (f : Die → Die) : (updDie s d f).late = s.late := rfl
@[simp] theorem updDie_fwd (s : State) (d : Nat) (f : Die → Die) : (updDie s d f).fwd = s.fwd := rfl
@[simp] theorem updDie_shale (s : State) (d : Nat) (f : Die → Die) : (updDie s d f).shale = s.shale := rfl
@[simp] theorem updDie_dbox (s : State) (d : Nat) (f : Die → Die) : (updDie s d f).dbox = s.dbox := rfl
@[simp] theorem updDie_spdm (s : State) (d : Nat) (f : Die → Die) : (updDie s d f).spdm = s.spdm := rfl
@[simp] theorem updDie_roots (s : State) (d : Nat) (f : Die → Die) : (updDie s d f).roots = s.roots := rfl
@[simp] theorem updDie_ue (s : State) (d : Nat) (f : Die → Die) : (updDie s d f).ue = s.ue := rfl
@[simp] theorem updDie_bells (s : State) (d : Nat) (f : Die → Die) : (updDie s d f).bells = s.bells := rfl
@[simp] theorem updDie_far (s : State) (d : Nat) (f : Die → Die) : (updDie s d f).far = s.far := rfl
@[simp] theorem updDie_unreachable (s : State) (d : Nat) (f : Die → Die) : (updDie s d f).unreachable = s.unreachable := rfl
@[simp] theorem updDie_remoteReply (s : State) (d : Nat) (f : Die → Die) : (updDie s d f).remoteReply = s.remoteReply := rfl
@[simp] theorem updDie_remoteWait (s : State) (d : Nat) (f : Die → Die) : (updDie s d f).remoteWait = s.remoteWait := rfl
@[simp] theorem updDie_thermal (s : State) (d : Nat) (f : Die → Die) : (updDie s d f).thermal = s.thermal := rfl
@[simp] theorem updDie_time (s : State) (d : Nat) (f : Die → Die) : (updDie s d f).time = s.time := rfl
@[simp] theorem updDie_fresh (s : State) (d : Nat) (f : Die → Die) : (updDie s d f).fresh = s.fresh := rfl
@[simp] theorem updDie_script (s : State) (d : Nat) (f : Die → Die) : (updDie s d f).script = s.script := rfl
@[simp] theorem updDie_mover (s : State) (d : Nat) (f : Die → Die) : (updDie s d f).mover = s.mover := rfl
@[simp] theorem updDie_last (s : State) (d : Nat) (f : Die → Die) : (updDie s d f).last = s.last := rfl

/-! ### updQuartz -/

@[simp] theorem updQuartz_agent (s : State) (q : Nat) (f : Quartz → Quartz) : (updQuartz s q f).agent = s.agent := rfl
@[simp] theorem updQuartz_groups (s : State) (q : Nat) (f : Quartz → Quartz) : (updQuartz s q f).groups = s.groups := rfl
@[simp] theorem updQuartz_teams (s : State) (q : Nat) (f : Quartz → Quartz) : (updQuartz s q f).teams = s.teams := rfl
@[simp] theorem updQuartz_cores (s : State) (q : Nat) (f : Quartz → Quartz) : (updQuartz s q f).cores = s.cores := rfl
@[simp] theorem updQuartz_dies (s : State) (q : Nat) (f : Quartz → Quartz) : (updQuartz s q f).dies = s.dies := rfl
@[simp] theorem updQuartz_hbm (s : State) (q : Nat) (f : Quartz → Quartz) : (updQuartz s q f).hbm = s.hbm := rfl
@[simp] theorem updQuartz_quartz (s : State) (q : Nat) (f : Quartz → Quartz) : (updQuartz s q f).quartz = mupd s.quartz q f := rfl
@[simp] theorem updQuartz_fes (s : State) (q : Nat) (f : Quartz → Quartz) : (updQuartz s q f).fes = s.fes := rfl
@[simp] theorem updQuartz_launches (s : State) (q : Nat) (f : Quartz → Quartz) : (updQuartz s q f).launches = s.launches := rfl
@[simp] theorem updQuartz_saved (s : State) (q : Nat) (f : Quartz → Quartz) : (updQuartz s q f).saved = s.saved := rfl
@[simp] theorem updQuartz_tlb (s : State) (q : Nat) (f : Quartz → Quartz) : (updQuartz s q f).tlb = s.tlb := rfl
@[simp] theorem updQuartz_tlbGone (s : State) (q : Nat) (f : Quartz → Quartz) : (updQuartz s q f).tlbGone = s.tlbGone := rfl
@[simp] theorem updQuartz_walks (s : State) (q : Nat) (f : Quartz → Quartz) : (updQuartz s q f).walks = s.walks := rfl
@[simp] theorem updQuartz_prq (s : State) (q : Nat) (f : Quartz → Quartz) : (updQuartz s q f).prq = s.prq := rfl
@[simp] theorem updQuartz_basalt (s : State) (q : Nat) (f : Quartz → Quartz) : (updQuartz s q f).basalt = s.basalt := rfl
@[simp] theorem updQuartz_badLines (s : State) (q : Nat) (f : Quartz → Quartz) : (updQuartz s q f).badLines = s.badLines := rfl
@[simp] theorem updQuartz_stale (s : State) (q : Nat) (f : Quartz → Quartz) : (updQuartz s q f).stale = s.stale := rfl
@[simp] theorem updQuartz_rom (s : State) (q : Nat) (f : Quartz → Quartz) : (updQuartz s q f).rom = s.rom := rfl
@[simp] theorem updQuartz_ways (s : State) (q : Nat) (f : Quartz → Quartz) : (updQuartz s q f).ways = s.ways := rfl
@[simp] theorem updQuartz_quanta (s : State) (q : Nat) (f : Quartz → Quartz) : (updQuartz s q f).quanta = s.quanta := rfl
@[simp] theorem updQuartz_work (s : State) (q : Nat) (f : Quartz → Quartz) : (updQuartz s q f).work = s.work := rfl
@[simp] theorem updQuartz_late (s : State) (q : Nat) (f : Quartz → Quartz) : (updQuartz s q f).late = s.late := rfl
@[simp] theorem updQuartz_fwd (s : State) (q : Nat) (f : Quartz → Quartz) : (updQuartz s q f).fwd = s.fwd := rfl
@[simp] theorem updQuartz_shale (s : State) (q : Nat) (f : Quartz → Quartz) : (updQuartz s q f).shale = s.shale := rfl
@[simp] theorem updQuartz_dbox (s : State) (q : Nat) (f : Quartz → Quartz) : (updQuartz s q f).dbox = s.dbox := rfl
@[simp] theorem updQuartz_spdm (s : State) (q : Nat) (f : Quartz → Quartz) : (updQuartz s q f).spdm = s.spdm := rfl
@[simp] theorem updQuartz_roots (s : State) (q : Nat) (f : Quartz → Quartz) : (updQuartz s q f).roots = s.roots := rfl
@[simp] theorem updQuartz_ue (s : State) (q : Nat) (f : Quartz → Quartz) : (updQuartz s q f).ue = s.ue := rfl
@[simp] theorem updQuartz_bells (s : State) (q : Nat) (f : Quartz → Quartz) : (updQuartz s q f).bells = s.bells := rfl
@[simp] theorem updQuartz_far (s : State) (q : Nat) (f : Quartz → Quartz) : (updQuartz s q f).far = s.far := rfl
@[simp] theorem updQuartz_unreachable (s : State) (q : Nat) (f : Quartz → Quartz) : (updQuartz s q f).unreachable = s.unreachable := rfl
@[simp] theorem updQuartz_remoteReply (s : State) (q : Nat) (f : Quartz → Quartz) : (updQuartz s q f).remoteReply = s.remoteReply := rfl
@[simp] theorem updQuartz_remoteWait (s : State) (q : Nat) (f : Quartz → Quartz) : (updQuartz s q f).remoteWait = s.remoteWait := rfl
@[simp] theorem updQuartz_thermal (s : State) (q : Nat) (f : Quartz → Quartz) : (updQuartz s q f).thermal = s.thermal := rfl
@[simp] theorem updQuartz_time (s : State) (q : Nat) (f : Quartz → Quartz) : (updQuartz s q f).time = s.time := rfl
@[simp] theorem updQuartz_fresh (s : State) (q : Nat) (f : Quartz → Quartz) : (updQuartz s q f).fresh = s.fresh := rfl
@[simp] theorem updQuartz_script (s : State) (q : Nat) (f : Quartz → Quartz) : (updQuartz s q f).script = s.script := rfl
@[simp] theorem updQuartz_mover (s : State) (q : Nat) (f : Quartz → Quartz) : (updQuartz s q f).mover = s.mover := rfl
@[simp] theorem updQuartz_last (s : State) (q : Nat) (f : Quartz → Quartz) : (updQuartz s q f).last = s.last := rfl

/-! ### updFe -/

@[simp] theorem updFe_agent (s : State) (n : Nat) (f : FrontEnd → FrontEnd) : (updFe s n f).agent = s.agent := rfl
@[simp] theorem updFe_groups (s : State) (n : Nat) (f : FrontEnd → FrontEnd) : (updFe s n f).groups = s.groups := rfl
@[simp] theorem updFe_teams (s : State) (n : Nat) (f : FrontEnd → FrontEnd) : (updFe s n f).teams = s.teams := rfl
@[simp] theorem updFe_cores (s : State) (n : Nat) (f : FrontEnd → FrontEnd) : (updFe s n f).cores = s.cores := rfl
@[simp] theorem updFe_dies (s : State) (n : Nat) (f : FrontEnd → FrontEnd) : (updFe s n f).dies = s.dies := rfl
@[simp] theorem updFe_hbm (s : State) (n : Nat) (f : FrontEnd → FrontEnd) : (updFe s n f).hbm = s.hbm := rfl
@[simp] theorem updFe_quartz (s : State) (n : Nat) (f : FrontEnd → FrontEnd) : (updFe s n f).quartz = s.quartz := rfl
@[simp] theorem updFe_fes (s : State) (n : Nat) (f : FrontEnd → FrontEnd) : (updFe s n f).fes = mupd s.fes n f := rfl
@[simp] theorem updFe_launches (s : State) (n : Nat) (f : FrontEnd → FrontEnd) : (updFe s n f).launches = s.launches := rfl
@[simp] theorem updFe_saved (s : State) (n : Nat) (f : FrontEnd → FrontEnd) : (updFe s n f).saved = s.saved := rfl
@[simp] theorem updFe_tlb (s : State) (n : Nat) (f : FrontEnd → FrontEnd) : (updFe s n f).tlb = s.tlb := rfl
@[simp] theorem updFe_tlbGone (s : State) (n : Nat) (f : FrontEnd → FrontEnd) : (updFe s n f).tlbGone = s.tlbGone := rfl
@[simp] theorem updFe_walks (s : State) (n : Nat) (f : FrontEnd → FrontEnd) : (updFe s n f).walks = s.walks := rfl
@[simp] theorem updFe_prq (s : State) (n : Nat) (f : FrontEnd → FrontEnd) : (updFe s n f).prq = s.prq := rfl
@[simp] theorem updFe_basalt (s : State) (n : Nat) (f : FrontEnd → FrontEnd) : (updFe s n f).basalt = s.basalt := rfl
@[simp] theorem updFe_badLines (s : State) (n : Nat) (f : FrontEnd → FrontEnd) : (updFe s n f).badLines = s.badLines := rfl
@[simp] theorem updFe_stale (s : State) (n : Nat) (f : FrontEnd → FrontEnd) : (updFe s n f).stale = s.stale := rfl
@[simp] theorem updFe_rom (s : State) (n : Nat) (f : FrontEnd → FrontEnd) : (updFe s n f).rom = s.rom := rfl
@[simp] theorem updFe_ways (s : State) (n : Nat) (f : FrontEnd → FrontEnd) : (updFe s n f).ways = s.ways := rfl
@[simp] theorem updFe_quanta (s : State) (n : Nat) (f : FrontEnd → FrontEnd) : (updFe s n f).quanta = s.quanta := rfl
@[simp] theorem updFe_work (s : State) (n : Nat) (f : FrontEnd → FrontEnd) : (updFe s n f).work = s.work := rfl
@[simp] theorem updFe_late (s : State) (n : Nat) (f : FrontEnd → FrontEnd) : (updFe s n f).late = s.late := rfl
@[simp] theorem updFe_fwd (s : State) (n : Nat) (f : FrontEnd → FrontEnd) : (updFe s n f).fwd = s.fwd := rfl
@[simp] theorem updFe_shale (s : State) (n : Nat) (f : FrontEnd → FrontEnd) : (updFe s n f).shale = s.shale := rfl
@[simp] theorem updFe_dbox (s : State) (n : Nat) (f : FrontEnd → FrontEnd) : (updFe s n f).dbox = s.dbox := rfl
@[simp] theorem updFe_spdm (s : State) (n : Nat) (f : FrontEnd → FrontEnd) : (updFe s n f).spdm = s.spdm := rfl
@[simp] theorem updFe_roots (s : State) (n : Nat) (f : FrontEnd → FrontEnd) : (updFe s n f).roots = s.roots := rfl
@[simp] theorem updFe_ue (s : State) (n : Nat) (f : FrontEnd → FrontEnd) : (updFe s n f).ue = s.ue := rfl
@[simp] theorem updFe_bells (s : State) (n : Nat) (f : FrontEnd → FrontEnd) : (updFe s n f).bells = s.bells := rfl
@[simp] theorem updFe_far (s : State) (n : Nat) (f : FrontEnd → FrontEnd) : (updFe s n f).far = s.far := rfl
@[simp] theorem updFe_unreachable (s : State) (n : Nat) (f : FrontEnd → FrontEnd) : (updFe s n f).unreachable = s.unreachable := rfl
@[simp] theorem updFe_remoteReply (s : State) (n : Nat) (f : FrontEnd → FrontEnd) : (updFe s n f).remoteReply = s.remoteReply := rfl
@[simp] theorem updFe_remoteWait (s : State) (n : Nat) (f : FrontEnd → FrontEnd) : (updFe s n f).remoteWait = s.remoteWait := rfl
@[simp] theorem updFe_thermal (s : State) (n : Nat) (f : FrontEnd → FrontEnd) : (updFe s n f).thermal = s.thermal := rfl
@[simp] theorem updFe_time (s : State) (n : Nat) (f : FrontEnd → FrontEnd) : (updFe s n f).time = s.time := rfl
@[simp] theorem updFe_fresh (s : State) (n : Nat) (f : FrontEnd → FrontEnd) : (updFe s n f).fresh = s.fresh := rfl
@[simp] theorem updFe_script (s : State) (n : Nat) (f : FrontEnd → FrontEnd) : (updFe s n f).script = s.script := rfl
@[simp] theorem updFe_mover (s : State) (n : Nat) (f : FrontEnd → FrontEnd) : (updFe s n f).mover = s.mover := rfl
@[simp] theorem updFe_last (s : State) (n : Nat) (f : FrontEnd → FrontEnd) : (updFe s n f).last = s.last := rfl

/-! ### updPro -/

@[simp] theorem updPro_agent (s : State) (n : Nat) (f : Prologue → Prologue) : (updPro s n f).agent = s.agent := rfl
@[simp] theorem updPro_groups (s : State) (n : Nat) (f : Prologue → Prologue) : (updPro s n f).groups = s.groups := rfl
@[simp] theorem updPro_teams (s : State) (n : Nat) (f : Prologue → Prologue) : (updPro s n f).teams = s.teams := rfl
@[simp] theorem updPro_cores (s : State) (n : Nat) (f : Prologue → Prologue) : (updPro s n f).cores = s.cores := rfl
@[simp] theorem updPro_dies (s : State) (n : Nat) (f : Prologue → Prologue) : (updPro s n f).dies = s.dies := rfl
@[simp] theorem updPro_hbm (s : State) (n : Nat) (f : Prologue → Prologue) : (updPro s n f).hbm = s.hbm := rfl
@[simp] theorem updPro_quartz (s : State) (n : Nat) (f : Prologue → Prologue) : (updPro s n f).quartz = s.quartz := rfl
@[simp] theorem updPro_fes (s : State) (n : Nat) (f : Prologue → Prologue) : (updPro s n f).fes = mupd s.fes n (fun e => { e with pro := f e.pro }) := rfl
@[simp] theorem updPro_launches (s : State) (n : Nat) (f : Prologue → Prologue) : (updPro s n f).launches = s.launches := rfl
@[simp] theorem updPro_saved (s : State) (n : Nat) (f : Prologue → Prologue) : (updPro s n f).saved = s.saved := rfl
@[simp] theorem updPro_tlb (s : State) (n : Nat) (f : Prologue → Prologue) : (updPro s n f).tlb = s.tlb := rfl
@[simp] theorem updPro_tlbGone (s : State) (n : Nat) (f : Prologue → Prologue) : (updPro s n f).tlbGone = s.tlbGone := rfl
@[simp] theorem updPro_walks (s : State) (n : Nat) (f : Prologue → Prologue) : (updPro s n f).walks = s.walks := rfl
@[simp] theorem updPro_prq (s : State) (n : Nat) (f : Prologue → Prologue) : (updPro s n f).prq = s.prq := rfl
@[simp] theorem updPro_basalt (s : State) (n : Nat) (f : Prologue → Prologue) : (updPro s n f).basalt = s.basalt := rfl
@[simp] theorem updPro_badLines (s : State) (n : Nat) (f : Prologue → Prologue) : (updPro s n f).badLines = s.badLines := rfl
@[simp] theorem updPro_stale (s : State) (n : Nat) (f : Prologue → Prologue) : (updPro s n f).stale = s.stale := rfl
@[simp] theorem updPro_rom (s : State) (n : Nat) (f : Prologue → Prologue) : (updPro s n f).rom = s.rom := rfl
@[simp] theorem updPro_ways (s : State) (n : Nat) (f : Prologue → Prologue) : (updPro s n f).ways = s.ways := rfl
@[simp] theorem updPro_quanta (s : State) (n : Nat) (f : Prologue → Prologue) : (updPro s n f).quanta = s.quanta := rfl
@[simp] theorem updPro_work (s : State) (n : Nat) (f : Prologue → Prologue) : (updPro s n f).work = s.work := rfl
@[simp] theorem updPro_late (s : State) (n : Nat) (f : Prologue → Prologue) : (updPro s n f).late = s.late := rfl
@[simp] theorem updPro_fwd (s : State) (n : Nat) (f : Prologue → Prologue) : (updPro s n f).fwd = s.fwd := rfl
@[simp] theorem updPro_shale (s : State) (n : Nat) (f : Prologue → Prologue) : (updPro s n f).shale = s.shale := rfl
@[simp] theorem updPro_dbox (s : State) (n : Nat) (f : Prologue → Prologue) : (updPro s n f).dbox = s.dbox := rfl
@[simp] theorem updPro_spdm (s : State) (n : Nat) (f : Prologue → Prologue) : (updPro s n f).spdm = s.spdm := rfl
@[simp] theorem updPro_roots (s : State) (n : Nat) (f : Prologue → Prologue) : (updPro s n f).roots = s.roots := rfl
@[simp] theorem updPro_ue (s : State) (n : Nat) (f : Prologue → Prologue) : (updPro s n f).ue = s.ue := rfl
@[simp] theorem updPro_bells (s : State) (n : Nat) (f : Prologue → Prologue) : (updPro s n f).bells = s.bells := rfl
@[simp] theorem updPro_far (s : State) (n : Nat) (f : Prologue → Prologue) : (updPro s n f).far = s.far := rfl
@[simp] theorem updPro_unreachable (s : State) (n : Nat) (f : Prologue → Prologue) : (updPro s n f).unreachable = s.unreachable := rfl
@[simp] theorem updPro_remoteReply (s : State) (n : Nat) (f : Prologue → Prologue) : (updPro s n f).remoteReply = s.remoteReply := rfl
@[simp] theorem updPro_remoteWait (s : State) (n : Nat) (f : Prologue → Prologue) : (updPro s n f).remoteWait = s.remoteWait := rfl
@[simp] theorem updPro_thermal (s : State) (n : Nat) (f : Prologue → Prologue) : (updPro s n f).thermal = s.thermal := rfl
@[simp] theorem updPro_time (s : State) (n : Nat) (f : Prologue → Prologue) : (updPro s n f).time = s.time := rfl
@[simp] theorem updPro_fresh (s : State) (n : Nat) (f : Prologue → Prologue) : (updPro s n f).fresh = s.fresh := rfl
@[simp] theorem updPro_script (s : State) (n : Nat) (f : Prologue → Prologue) : (updPro s n f).script = s.script := rfl
@[simp] theorem updPro_mover (s : State) (n : Nat) (f : Prologue → Prologue) : (updPro s n f).mover = s.mover := rfl
@[simp] theorem updPro_last (s : State) (n : Nat) (f : Prologue → Prologue) : (updPro s n f).last = s.last := rfl

/-! ### takeFresh -/

@[simp] theorem takeFresh_agent (s : State) : ((takeFresh s).2).agent = s.agent := rfl
@[simp] theorem takeFresh_groups (s : State) : ((takeFresh s).2).groups = s.groups := rfl
@[simp] theorem takeFresh_teams (s : State) : ((takeFresh s).2).teams = s.teams := rfl
@[simp] theorem takeFresh_cores (s : State) : ((takeFresh s).2).cores = s.cores := rfl
@[simp] theorem takeFresh_dies (s : State) : ((takeFresh s).2).dies = s.dies := rfl
@[simp] theorem takeFresh_hbm (s : State) : ((takeFresh s).2).hbm = s.hbm := rfl
@[simp] theorem takeFresh_quartz (s : State) : ((takeFresh s).2).quartz = s.quartz := rfl
@[simp] theorem takeFresh_fes (s : State) : ((takeFresh s).2).fes = s.fes := rfl
@[simp] theorem takeFresh_launches (s : State) : ((takeFresh s).2).launches = s.launches := rfl
@[simp] theorem takeFresh_saved (s : State) : ((takeFresh s).2).saved = s.saved := rfl
@[simp] theorem takeFresh_tlb (s : State) : ((takeFresh s).2).tlb = s.tlb := rfl
@[simp] theorem takeFresh_tlbGone (s : State) : ((takeFresh s).2).tlbGone = s.tlbGone := rfl
@[simp] theorem takeFresh_walks (s : State) : ((takeFresh s).2).walks = s.walks := rfl
@[simp] theorem takeFresh_prq (s : State) : ((takeFresh s).2).prq = s.prq := rfl
@[simp] theorem takeFresh_basalt (s : State) : ((takeFresh s).2).basalt = s.basalt := rfl
@[simp] theorem takeFresh_badLines (s : State) : ((takeFresh s).2).badLines = s.badLines := rfl
@[simp] theorem takeFresh_stale (s : State) : ((takeFresh s).2).stale = s.stale := rfl
@[simp] theorem takeFresh_rom (s : State) : ((takeFresh s).2).rom = s.rom := rfl
@[simp] theorem takeFresh_ways (s : State) : ((takeFresh s).2).ways = s.ways := rfl
@[simp] theorem takeFresh_quanta (s : State) : ((takeFresh s).2).quanta = s.quanta := rfl
@[simp] theorem takeFresh_work (s : State) : ((takeFresh s).2).work = s.work := rfl
@[simp] theorem takeFresh_late (s : State) : ((takeFresh s).2).late = s.late := rfl
@[simp] theorem takeFresh_fwd (s : State) : ((takeFresh s).2).fwd = s.fwd := rfl
@[simp] theorem takeFresh_shale (s : State) : ((takeFresh s).2).shale = s.shale := rfl
@[simp] theorem takeFresh_dbox (s : State) : ((takeFresh s).2).dbox = s.dbox := rfl
@[simp] theorem takeFresh_spdm (s : State) : ((takeFresh s).2).spdm = s.spdm := rfl
@[simp] theorem takeFresh_roots (s : State) : ((takeFresh s).2).roots = s.roots := rfl
@[simp] theorem takeFresh_ue (s : State) : ((takeFresh s).2).ue = s.ue := rfl
@[simp] theorem takeFresh_bells (s : State) : ((takeFresh s).2).bells = s.bells := rfl
@[simp] theorem takeFresh_far (s : State) : ((takeFresh s).2).far = s.far := rfl
@[simp] theorem takeFresh_unreachable (s : State) : ((takeFresh s).2).unreachable = s.unreachable := rfl
@[simp] theorem takeFresh_remoteReply (s : State) : ((takeFresh s).2).remoteReply = s.remoteReply := rfl
@[simp] theorem takeFresh_remoteWait (s : State) : ((takeFresh s).2).remoteWait = s.remoteWait := rfl
@[simp] theorem takeFresh_thermal (s : State) : ((takeFresh s).2).thermal = s.thermal := rfl
@[simp] theorem takeFresh_time (s : State) : ((takeFresh s).2).time = s.time := rfl
@[simp] theorem takeFresh_fresh (s : State) : ((takeFresh s).2).fresh = s.fresh + 1 := rfl
@[simp] theorem takeFresh_script (s : State) : ((takeFresh s).2).script = s.script := rfl
@[simp] theorem takeFresh_mover (s : State) : ((takeFresh s).2).mover = s.mover := rfl
@[simp] theorem takeFresh_last (s : State) : ((takeFresh s).2).last = s.last := rfl

/-! ### setOwn -/

@[simp] theorem setOwn_agent (s : State) (n : Nat) (o : Own) : (setOwn s n o).agent = s.agent := rfl
@[simp] theorem setOwn_groups (s : State) (n : Nat) (o : Own) : (setOwn s n o).groups = s.groups := rfl
@[simp] theorem setOwn_teams (s : State) (n : Nat) (o : Own) : (setOwn s n o).teams = s.teams := rfl
@[simp] theorem setOwn_cores (s : State) (n : Nat) (o : Own) : (setOwn s n o).cores = s.cores := rfl
@[simp] theorem setOwn_dies (s : State) (n : Nat) (o : Own) : (setOwn s n o).dies = s.dies := rfl
@[simp] theorem setOwn_hbm (s : State) (n : Nat) (o : Own) : (setOwn s n o).hbm = s.hbm := rfl
@[simp] theorem setOwn_quartz (s : State) (n : Nat) (o : Own) : (setOwn s n o).quartz = s.quartz := rfl
@[simp] theorem setOwn_fes (s : State) (n : Nat) (o : Own) : (setOwn s n o).fes = s.fes := rfl
@[simp] theorem setOwn_launches (s : State) (n : Nat) (o : Own) : (setOwn s n o).launches = s.launches := rfl
@[simp] theorem setOwn_saved (s : State) (n : Nat) (o : Own) : (setOwn s n o).saved = s.saved := rfl
@[simp] theorem setOwn_tlb (s : State) (n : Nat) (o : Own) : (setOwn s n o).tlb = s.tlb := rfl
@[simp] theorem setOwn_tlbGone (s : State) (n : Nat) (o : Own) : (setOwn s n o).tlbGone = s.tlbGone := rfl
@[simp] theorem setOwn_walks (s : State) (n : Nat) (o : Own) : (setOwn s n o).walks = s.walks := rfl
@[simp] theorem setOwn_prq (s : State) (n : Nat) (o : Own) : (setOwn s n o).prq = s.prq := rfl
@[simp] theorem setOwn_basalt (s : State) (n : Nat) (o : Own) : (setOwn s n o).basalt = { s.basalt with own := msetD s.basalt.own n o freeOwn } := rfl
@[simp] theorem setOwn_badLines (s : State) (n : Nat) (o : Own) : (setOwn s n o).badLines = s.badLines := rfl
@[simp] theorem setOwn_stale (s : State) (n : Nat) (o : Own) : (setOwn s n o).stale = s.stale := rfl
@[simp] theorem setOwn_rom (s : State) (n : Nat) (o : Own) : (setOwn s n o).rom = s.rom := rfl
@[simp] theorem setOwn_ways (s : State) (n : Nat) (o : Own) : (setOwn s n o).ways = s.ways := rfl
@[simp] theorem setOwn_quanta (s : State) (n : Nat) (o : Own) : (setOwn s n o).quanta = s.quanta := rfl
@[simp] theorem setOwn_work (s : State) (n : Nat) (o : Own) : (setOwn s n o).work = s.work := rfl
@[simp] theorem setOwn_late (s : State) (n : Nat) (o : Own) : (setOwn s n o).late = s.late := rfl
@[simp] theorem setOwn_fwd (s : State) (n : Nat) (o : Own) : (setOwn s n o).fwd = s.fwd := rfl
@[simp] theorem setOwn_shale (s : State) (n : Nat) (o : Own) : (setOwn s n o).shale = s.shale := rfl
@[simp] theorem setOwn_dbox (s : State) (n : Nat) (o : Own) : (setOwn s n o).dbox = s.dbox := rfl
@[simp] theorem setOwn_spdm (s : State) (n : Nat) (o : Own) : (setOwn s n o).spdm = s.spdm := rfl
@[simp] theorem setOwn_roots (s : State) (n : Nat) (o : Own) : (setOwn s n o).roots = s.roots := rfl
@[simp] theorem setOwn_ue (s : State) (n : Nat) (o : Own) : (setOwn s n o).ue = s.ue := rfl
@[simp] theorem setOwn_bells (s : State) (n : Nat) (o : Own) : (setOwn s n o).bells = s.bells := rfl
@[simp] theorem setOwn_far (s : State) (n : Nat) (o : Own) : (setOwn s n o).far = s.far := rfl
@[simp] theorem setOwn_unreachable (s : State) (n : Nat) (o : Own) : (setOwn s n o).unreachable = s.unreachable := rfl
@[simp] theorem setOwn_remoteReply (s : State) (n : Nat) (o : Own) : (setOwn s n o).remoteReply = s.remoteReply := rfl
@[simp] theorem setOwn_remoteWait (s : State) (n : Nat) (o : Own) : (setOwn s n o).remoteWait = s.remoteWait := rfl
@[simp] theorem setOwn_thermal (s : State) (n : Nat) (o : Own) : (setOwn s n o).thermal = s.thermal := rfl
@[simp] theorem setOwn_time (s : State) (n : Nat) (o : Own) : (setOwn s n o).time = s.time := rfl
@[simp] theorem setOwn_fresh (s : State) (n : Nat) (o : Own) : (setOwn s n o).fresh = s.fresh := rfl
@[simp] theorem setOwn_script (s : State) (n : Nat) (o : Own) : (setOwn s n o).script = s.script := rfl
@[simp] theorem setOwn_mover (s : State) (n : Nat) (o : Own) : (setOwn s n o).mover = s.mover := rfl
@[simp] theorem setOwn_last (s : State) (n : Nat) (o : Own) : (setOwn s n o).last = s.last := rfl

/-! ### invalidate -/

@[simp] theorem invalidate_agent (s : State) (p : Tlb → Bool) : (invalidate s p).agent = s.agent := rfl
@[simp] theorem invalidate_groups (s : State) (p : Tlb → Bool) : (invalidate s p).groups = s.groups := rfl
@[simp] theorem invalidate_teams (s : State) (p : Tlb → Bool) : (invalidate s p).teams = s.teams := rfl
@[simp] theorem invalidate_cores (s : State) (p : Tlb → Bool) : (invalidate s p).cores = s.cores := rfl
@[simp] theorem invalidate_dies (s : State) (p : Tlb → Bool) : (invalidate s p).dies = s.dies := rfl
@[simp] theorem invalidate_hbm (s : State) (p : Tlb → Bool) : (invalidate s p).hbm = s.hbm := rfl
@[simp] theorem invalidate_quartz (s : State) (p : Tlb → Bool) : (invalidate s p).quartz = s.quartz := rfl
@[simp] theorem invalidate_fes (s : State) (p : Tlb → Bool) : (invalidate s p).fes = s.fes := rfl
@[simp] theorem invalidate_launches (s : State) (p : Tlb → Bool) : (invalidate s p).launches = s.launches := rfl
@[simp] theorem invalidate_saved (s : State) (p : Tlb → Bool) : (invalidate s p).saved = s.saved := rfl
@[simp] theorem invalidate_tlb (s : State) (p : Tlb → Bool) : (invalidate s p).tlb = s.tlb.filter (fun t => !p t) := rfl
@[simp] theorem invalidate_tlbGone (s : State) (p : Tlb → Bool) : (invalidate s p).tlbGone = s.tlbGone := rfl
@[simp] theorem invalidate_walks (s : State) (p : Tlb → Bool) : (invalidate s p).walks = s.walks.map (fun w => if walkHit p w && decide (w.n < 9) then w.again else w) := rfl
@[simp] theorem invalidate_prq (s : State) (p : Tlb → Bool) : (invalidate s p).prq = s.prq := rfl
@[simp] theorem invalidate_basalt (s : State) (p : Tlb → Bool) : (invalidate s p).basalt = s.basalt := rfl
@[simp] theorem invalidate_badLines (s : State) (p : Tlb → Bool) : (invalidate s p).badLines = s.badLines := rfl
@[simp] theorem invalidate_stale (s : State) (p : Tlb → Bool) : (invalidate s p).stale = s.stale := rfl
@[simp] theorem invalidate_rom (s : State) (p : Tlb → Bool) : (invalidate s p).rom = s.rom := rfl
@[simp] theorem invalidate_ways (s : State) (p : Tlb → Bool) : (invalidate s p).ways = s.ways := rfl
@[simp] theorem invalidate_quanta (s : State) (p : Tlb → Bool) : (invalidate s p).quanta = s.quanta := rfl
@[simp] theorem invalidate_work (s : State) (p : Tlb → Bool) : (invalidate s p).work = s.work := rfl
@[simp] theorem invalidate_late (s : State) (p : Tlb → Bool) : (invalidate s p).late = s.late := rfl
@[simp] theorem invalidate_fwd (s : State) (p : Tlb → Bool) : (invalidate s p).fwd = s.fwd := rfl
@[simp] theorem invalidate_shale (s : State) (p : Tlb → Bool) : (invalidate s p).shale = s.shale := rfl
@[simp] theorem invalidate_dbox (s : State) (p : Tlb → Bool) : (invalidate s p).dbox = s.dbox := rfl
@[simp] theorem invalidate_spdm (s : State) (p : Tlb → Bool) : (invalidate s p).spdm = s.spdm := rfl
@[simp] theorem invalidate_roots (s : State) (p : Tlb → Bool) : (invalidate s p).roots = s.roots := rfl
@[simp] theorem invalidate_ue (s : State) (p : Tlb → Bool) : (invalidate s p).ue = s.ue := rfl
@[simp] theorem invalidate_bells (s : State) (p : Tlb → Bool) : (invalidate s p).bells = s.bells := rfl
@[simp] theorem invalidate_far (s : State) (p : Tlb → Bool) : (invalidate s p).far = s.far := rfl
@[simp] theorem invalidate_unreachable (s : State) (p : Tlb → Bool) : (invalidate s p).unreachable = s.unreachable := rfl
@[simp] theorem invalidate_remoteReply (s : State) (p : Tlb → Bool) : (invalidate s p).remoteReply = s.remoteReply := rfl
@[simp] theorem invalidate_remoteWait (s : State) (p : Tlb → Bool) : (invalidate s p).remoteWait = s.remoteWait := rfl
@[simp] theorem invalidate_thermal (s : State) (p : Tlb → Bool) : (invalidate s p).thermal = s.thermal := rfl
@[simp] theorem invalidate_time (s : State) (p : Tlb → Bool) : (invalidate s p).time = s.time := rfl
@[simp] theorem invalidate_fresh (s : State) (p : Tlb → Bool) : (invalidate s p).fresh = s.fresh := rfl
@[simp] theorem invalidate_script (s : State) (p : Tlb → Bool) : (invalidate s p).script = s.script := rfl
@[simp] theorem invalidate_mover (s : State) (p : Tlb → Bool) : (invalidate s p).mover = s.mover := rfl
@[simp] theorem invalidate_last (s : State) (p : Tlb → Bool) : (invalidate s p).last = s.last := rfl

/-! ### reown -/

@[simp] theorem reown_agent (s : State) (n : Nat) (o : Own) : (reown s n o).agent = s.agent := rfl
@[simp] theorem reown_groups (s : State) (n : Nat) (o : Own) : (reown s n o).groups = s.groups := rfl
@[simp] theorem reown_teams (s : State) (n : Nat) (o : Own) : (reown s n o).teams = s.teams := rfl
@[simp] theorem reown_cores (s : State) (n : Nat) (o : Own) : (reown s n o).cores = s.cores := rfl
@[simp] theorem reown_dies (s : State) (n : Nat) (o : Own) : (reown s n o).dies = s.dies := rfl
@[simp] theorem reown_hbm (s : State) (n : Nat) (o : Own) : (reown s n o).hbm = s.hbm := rfl
@[simp] theorem reown_quartz (s : State) (n : Nat) (o : Own) : (reown s n o).quartz = s.quartz := rfl
@[simp] theorem reown_fes (s : State) (n : Nat) (o : Own) : (reown s n o).fes = s.fes := rfl
@[simp] theorem reown_launches (s : State) (n : Nat) (o : Own) : (reown s n o).launches = s.launches := rfl
@[simp] theorem reown_saved (s : State) (n : Nat) (o : Own) : (reown s n o).saved = s.saved := rfl
@[simp] theorem reown_tlb (s : State) (n : Nat) (o : Own) : (reown s n o).tlb = s.tlb := rfl
@[simp] theorem reown_tlbGone (s : State) (n : Nat) (o : Own) : (reown s n o).tlbGone = s.tlbGone := rfl
@[simp] theorem reown_walks (s : State) (n : Nat) (o : Own) : (reown s n o).walks = s.walks := rfl
@[simp] theorem reown_prq (s : State) (n : Nat) (o : Own) : (reown s n o).prq = s.prq := rfl
@[simp] theorem reown_basalt (s : State) (n : Nat) (o : Own) : (reown s n o).basalt = { s.basalt with own := msetD s.basalt.own n o freeOwn } := rfl
@[simp] theorem reown_badLines (s : State) (n : Nat) (o : Own) : (reown s n o).badLines = s.badLines.filter (fun x => x.2 || decide (x.1 / 1024 ≠ n)) := rfl
@[simp] theorem reown_stale (s : State) (n : Nat) (o : Own) : (reown s n o).stale = if (mget s.stale n).isSome then s.stale else mput s.stale n (slotKey s (ownOf s n), (ownOf s n).version) := rfl
@[simp] theorem reown_rom (s : State) (n : Nat) (o : Own) : (reown s n o).rom = s.rom := rfl
@[simp] theorem reown_ways (s : State) (n : Nat) (o : Own) : (reown s n o).ways = s.ways := rfl
@[simp] theorem reown_quanta (s : State) (n : Nat) (o : Own) : (reown s n o).quanta = s.quanta := rfl
@[simp] theorem reown_work (s : State) (n : Nat) (o : Own) : (reown s n o).work = s.work := rfl
@[simp] theorem reown_late (s : State) (n : Nat) (o : Own) : (reown s n o).late = s.late := rfl
@[simp] theorem reown_fwd (s : State) (n : Nat) (o : Own) : (reown s n o).fwd = s.fwd := rfl
@[simp] theorem reown_shale (s : State) (n : Nat) (o : Own) : (reown s n o).shale = s.shale := rfl
@[simp] theorem reown_dbox (s : State) (n : Nat) (o : Own) : (reown s n o).dbox = s.dbox := rfl
@[simp] theorem reown_spdm (s : State) (n : Nat) (o : Own) : (reown s n o).spdm = s.spdm := rfl
@[simp] theorem reown_roots (s : State) (n : Nat) (o : Own) : (reown s n o).roots = s.roots := rfl
@[simp] theorem reown_ue (s : State) (n : Nat) (o : Own) : (reown s n o).ue = s.ue := rfl
@[simp] theorem reown_bells (s : State) (n : Nat) (o : Own) : (reown s n o).bells = s.bells := rfl
@[simp] theorem reown_far (s : State) (n : Nat) (o : Own) : (reown s n o).far = s.far := rfl
@[simp] theorem reown_unreachable (s : State) (n : Nat) (o : Own) : (reown s n o).unreachable = s.unreachable := rfl
@[simp] theorem reown_remoteReply (s : State) (n : Nat) (o : Own) : (reown s n o).remoteReply = s.remoteReply := rfl
@[simp] theorem reown_remoteWait (s : State) (n : Nat) (o : Own) : (reown s n o).remoteWait = s.remoteWait := rfl
@[simp] theorem reown_thermal (s : State) (n : Nat) (o : Own) : (reown s n o).thermal = s.thermal := rfl
@[simp] theorem reown_time (s : State) (n : Nat) (o : Own) : (reown s n o).time = s.time := rfl
@[simp] theorem reown_fresh (s : State) (n : Nat) (o : Own) : (reown s n o).fresh = s.fresh := rfl
@[simp] theorem reown_script (s : State) (n : Nat) (o : Own) : (reown s n o).script = s.script := rfl
@[simp] theorem reown_mover (s : State) (n : Nat) (o : Own) : (reown s n o).mover = s.mover := rfl
@[simp] theorem reown_last (s : State) (n : Nat) (o : Own) : (reown s n o).last = s.last := rfl

/-! ### freshFrame -/

@[simp] theorem freshFrame_agent (s : State) (n : Nat) : (freshFrame s n).agent = s.agent := rfl
@[simp] theorem freshFrame_groups (s : State) (n : Nat) : (freshFrame s n).groups = s.groups := rfl
@[simp] theorem freshFrame_teams (s : State) (n : Nat) : (freshFrame s n).teams = s.teams := rfl
@[simp] theorem freshFrame_cores (s : State) (n : Nat) : (freshFrame s n).cores = s.cores := rfl
@[simp] theorem freshFrame_dies (s : State) (n : Nat) : (freshFrame s n).dies = s.dies := rfl
@[simp] theorem freshFrame_hbm (s : State) (n : Nat) : (freshFrame s n).hbm = s.hbm := rfl
@[simp] theorem freshFrame_quartz (s : State) (n : Nat) : (freshFrame s n).quartz = s.quartz := rfl
@[simp] theorem freshFrame_fes (s : State) (n : Nat) : (freshFrame s n).fes = s.fes := rfl
@[simp] theorem freshFrame_launches (s : State) (n : Nat) : (freshFrame s n).launches = s.launches := rfl
@[simp] theorem freshFrame_saved (s : State) (n : Nat) : (freshFrame s n).saved = s.saved := rfl
@[simp] theorem freshFrame_tlb (s : State) (n : Nat) : (freshFrame s n).tlb = s.tlb := rfl
@[simp] theorem freshFrame_tlbGone (s : State) (n : Nat) : (freshFrame s n).tlbGone = s.tlbGone := rfl
@[simp] theorem freshFrame_walks (s : State) (n : Nat) : (freshFrame s n).walks = s.walks := rfl
@[simp] theorem freshFrame_prq (s : State) (n : Nat) : (freshFrame s n).prq = s.prq := rfl
@[simp] theorem freshFrame_basalt (s : State) (n : Nat) : (freshFrame s n).basalt = s.basalt := rfl
@[simp] theorem freshFrame_badLines (s : State) (n : Nat) : (freshFrame s n).badLines = s.badLines.filter (fun b => decide (b.1 / 1024 ≠ n)) := rfl
@[simp] theorem freshFrame_stale (s : State) (n : Nat) : (freshFrame s n).stale = mdel s.stale n := rfl
@[simp] theorem freshFrame_rom (s : State) (n : Nat) : (freshFrame s n).rom = s.rom := rfl
@[simp] theorem freshFrame_ways (s : State) (n : Nat) : (freshFrame s n).ways = s.ways := rfl
@[simp] theorem freshFrame_quanta (s : State) (n : Nat) : (freshFrame s n).quanta = s.quanta := rfl
@[simp] theorem freshFrame_work (s : State) (n : Nat) : (freshFrame s n).work = s.work := rfl
@[simp] theorem freshFrame_late (s : State) (n : Nat) : (freshFrame s n).late = s.late := rfl
@[simp] theorem freshFrame_fwd (s : State) (n : Nat) : (freshFrame s n).fwd = s.fwd := rfl
@[simp] theorem freshFrame_shale (s : State) (n : Nat) : (freshFrame s n).shale = s.shale := rfl
@[simp] theorem freshFrame_dbox (s : State) (n : Nat) : (freshFrame s n).dbox = s.dbox := rfl
@[simp] theorem freshFrame_spdm (s : State) (n : Nat) : (freshFrame s n).spdm = s.spdm := rfl
@[simp] theorem freshFrame_roots (s : State) (n : Nat) : (freshFrame s n).roots = s.roots := rfl
@[simp] theorem freshFrame_ue (s : State) (n : Nat) : (freshFrame s n).ue = s.ue := rfl
@[simp] theorem freshFrame_bells (s : State) (n : Nat) : (freshFrame s n).bells = s.bells := rfl
@[simp] theorem freshFrame_far (s : State) (n : Nat) : (freshFrame s n).far = s.far := rfl
@[simp] theorem freshFrame_unreachable (s : State) (n : Nat) : (freshFrame s n).unreachable = s.unreachable := rfl
@[simp] theorem freshFrame_remoteReply (s : State) (n : Nat) : (freshFrame s n).remoteReply = s.remoteReply := rfl
@[simp] theorem freshFrame_remoteWait (s : State) (n : Nat) : (freshFrame s n).remoteWait = s.remoteWait := rfl
@[simp] theorem freshFrame_thermal (s : State) (n : Nat) : (freshFrame s n).thermal = s.thermal := rfl
@[simp] theorem freshFrame_time (s : State) (n : Nat) : (freshFrame s n).time = s.time := rfl
@[simp] theorem freshFrame_fresh (s : State) (n : Nat) : (freshFrame s n).fresh = s.fresh := rfl
@[simp] theorem freshFrame_script (s : State) (n : Nat) : (freshFrame s n).script = s.script := rfl
@[simp] theorem freshFrame_mover (s : State) (n : Nat) : (freshFrame s n).mover = s.mover := rfl
@[simp] theorem freshFrame_last (s : State) (n : Nat) : (freshFrame s n).last = s.last := rfl

/-! ### updQueue -/

@[simp] theorem updQueue_agent (s : State) (fe q : Nat) (f : Queue → Queue) : (updQueue s fe q f).agent = s.agent := rfl
@[simp] theorem updQueue_groups (s : State) (fe q : Nat) (f : Queue → Queue) : (updQueue s fe q f).groups = s.groups := rfl
@[simp] theorem updQueue_teams (s : State) (fe q : Nat) (f : Queue → Queue) : (updQueue s fe q f).teams = s.teams := rfl
@[simp] theorem updQueue_cores (s : State) (fe q : Nat) (f : Queue → Queue) : (updQueue s fe q f).cores = s.cores := rfl
@[simp] theorem updQueue_dies (s : State) (fe q : Nat) (f : Queue → Queue) : (updQueue s fe q f).dies = s.dies := rfl
@[simp] theorem updQueue_hbm (s : State) (fe q : Nat) (f : Queue → Queue) : (updQueue s fe q f).hbm = s.hbm := rfl
@[simp] theorem updQueue_quartz (s : State) (fe q : Nat) (f : Queue → Queue) : (updQueue s fe q f).quartz = s.quartz := rfl
@[simp] theorem updQueue_fes (s : State) (fe q : Nat) (f : Queue → Queue) : (updQueue s fe q f).fes = mupd s.fes fe (fun e => { e with queues := mupd e.queues q f }) := rfl
@[simp] theorem updQueue_launches (s : State) (fe q : Nat) (f : Queue → Queue) : (updQueue s fe q f).launches = s.launches := rfl
@[simp] theorem updQueue_saved (s : State) (fe q : Nat) (f : Queue → Queue) : (updQueue s fe q f).saved = s.saved := rfl
@[simp] theorem updQueue_tlb (s : State) (fe q : Nat) (f : Queue → Queue) : (updQueue s fe q f).tlb = s.tlb := rfl
@[simp] theorem updQueue_tlbGone (s : State) (fe q : Nat) (f : Queue → Queue) : (updQueue s fe q f).tlbGone = s.tlbGone := rfl
@[simp] theorem updQueue_walks (s : State) (fe q : Nat) (f : Queue → Queue) : (updQueue s fe q f).walks = s.walks := rfl
@[simp] theorem updQueue_prq (s : State) (fe q : Nat) (f : Queue → Queue) : (updQueue s fe q f).prq = s.prq := rfl
@[simp] theorem updQueue_basalt (s : State) (fe q : Nat) (f : Queue → Queue) : (updQueue s fe q f).basalt = s.basalt := rfl
@[simp] theorem updQueue_badLines (s : State) (fe q : Nat) (f : Queue → Queue) : (updQueue s fe q f).badLines = s.badLines := rfl
@[simp] theorem updQueue_stale (s : State) (fe q : Nat) (f : Queue → Queue) : (updQueue s fe q f).stale = s.stale := rfl
@[simp] theorem updQueue_rom (s : State) (fe q : Nat) (f : Queue → Queue) : (updQueue s fe q f).rom = s.rom := rfl
@[simp] theorem updQueue_ways (s : State) (fe q : Nat) (f : Queue → Queue) : (updQueue s fe q f).ways = s.ways := rfl
@[simp] theorem updQueue_quanta (s : State) (fe q : Nat) (f : Queue → Queue) : (updQueue s fe q f).quanta = s.quanta := rfl
@[simp] theorem updQueue_work (s : State) (fe q : Nat) (f : Queue → Queue) : (updQueue s fe q f).work = s.work := rfl
@[simp] theorem updQueue_late (s : State) (fe q : Nat) (f : Queue → Queue) : (updQueue s fe q f).late = s.late := rfl
@[simp] theorem updQueue_fwd (s : State) (fe q : Nat) (f : Queue → Queue) : (updQueue s fe q f).fwd = s.fwd := rfl
@[simp] theorem updQueue_shale (s : State) (fe q : Nat) (f : Queue → Queue) : (updQueue s fe q f).shale = s.shale := rfl
@[simp] theorem updQueue_dbox (s : State) (fe q : Nat) (f : Queue → Queue) : (updQueue s fe q f).dbox = s.dbox := rfl
@[simp] theorem updQueue_spdm (s : State) (fe q : Nat) (f : Queue → Queue) : (updQueue s fe q f).spdm = s.spdm := rfl
@[simp] theorem updQueue_roots (s : State) (fe q : Nat) (f : Queue → Queue) : (updQueue s fe q f).roots = s.roots := rfl
@[simp] theorem updQueue_ue (s : State) (fe q : Nat) (f : Queue → Queue) : (updQueue s fe q f).ue = s.ue := rfl
@[simp] theorem updQueue_bells (s : State) (fe q : Nat) (f : Queue → Queue) : (updQueue s fe q f).bells = s.bells := rfl
@[simp] theorem updQueue_far (s : State) (fe q : Nat) (f : Queue → Queue) : (updQueue s fe q f).far = s.far := rfl
@[simp] theorem updQueue_unreachable (s : State) (fe q : Nat) (f : Queue → Queue) : (updQueue s fe q f).unreachable = s.unreachable := rfl
@[simp] theorem updQueue_remoteReply (s : State) (fe q : Nat) (f : Queue → Queue) : (updQueue s fe q f).remoteReply = s.remoteReply := rfl
@[simp] theorem updQueue_remoteWait (s : State) (fe q : Nat) (f : Queue → Queue) : (updQueue s fe q f).remoteWait = s.remoteWait := rfl
@[simp] theorem updQueue_thermal (s : State) (fe q : Nat) (f : Queue → Queue) : (updQueue s fe q f).thermal = s.thermal := rfl
@[simp] theorem updQueue_time (s : State) (fe q : Nat) (f : Queue → Queue) : (updQueue s fe q f).time = s.time := rfl
@[simp] theorem updQueue_fresh (s : State) (fe q : Nat) (f : Queue → Queue) : (updQueue s fe q f).fresh = s.fresh := rfl
@[simp] theorem updQueue_script (s : State) (fe q : Nat) (f : Queue → Queue) : (updQueue s fe q f).script = s.script := rfl
@[simp] theorem updQueue_mover (s : State) (fe q : Nat) (f : Queue → Queue) : (updQueue s fe q f).mover = s.mover := rfl
@[simp] theorem updQueue_last (s : State) (fe q : Nat) (f : Queue → Queue) : (updQueue s fe q f).last = s.last := rfl

/-! ### Slots and registers of a group -/

@[simp] theorem setSlot_team (g : Group) (sl : Bool) (p : Slot) : (setSlot g sl p).team = g.team := by cases sl <;> rfl
@[simp] theorem setSlot_launch (g : Group) (sl : Bool) (p : Slot) : (setSlot g sl p).launch = g.launch := by cases sl <;> rfl
@[simp] theorem setSlot_num (g : Group) (sl : Bool) (p : Slot) : (setSlot g sl p).num = g.num := by cases sl <;> rfl
@[simp] theorem setSlot_width (g : Group) (sl : Bool) (p : Slot) : (setSlot g sl p).width = g.width := by cases sl <;> rfl
@[simp] theorem setSlot_s (g : Group) (sl : Bool) (p : Slot) : (setSlot g sl p).s = g.s := by cases sl <;> rfl
@[simp] theorem setSlot_k (g : Group) (sl : Bool) (p : Slot) : (setSlot g sl p).k = g.k := by cases sl <;> rfl
@[simp] theorem setSlot_v (g : Group) (sl : Bool) (p : Slot) : (setSlot g sl p).v = g.v := by cases sl <;> rfl
@[simp] theorem setSlot_h (g : Group) (sl : Bool) (p : Slot) : (setSlot g sl p).h = g.h := by cases sl <;> rfl
@[simp] theorem setSlot_allot (g : Group) (sl : Bool) (p : Slot) : (setSlot g sl p).allot = g.allot := by cases sl <;> rfl
@[simp] theorem setSlot_keep (g : Group) (sl : Bool) (p : Slot) : (setSlot g sl p).keep = g.keep := by cases sl <;> rfl
@[simp] theorem setSlot_stack (g : Group) (sl : Bool) (p : Slot) : (setSlot g sl p).stack = g.stack := by cases sl <;> rfl
@[simp] theorem setSlot_stackNewer (g : Group) (sl : Bool) (p : Slot) : (setSlot g sl p).stackNewer = g.stackNewer := by cases sl <;> rfl
@[simp] theorem setSlot_exited (g : Group) (sl : Bool) (p : Slot) : (setSlot g sl p).exited = g.exited := by cases sl <;> rfl
@[simp] theorem setSlot_flags (g : Group) (sl : Bool) (p : Slot) : (setSlot g sl p).flags = g.flags := by cases sl <;> rfl
@[simp] theorem setSlot_flagsen (g : Group) (sl : Bool) (p : Slot) : (setSlot g sl p).flagsen = g.flagsen := by cases sl <;> rfl
@[simp] theorem setSlot_cause (g : Group) (sl : Bool) (p : Slot) : (setSlot g sl p).cause = g.cause := by cases sl <;> rfl
@[simp] theorem setSlot_caddr (g : Group) (sl : Bool) (p : Slot) : (setSlot g sl p).caddr = g.caddr := by cases sl <;> rfl
@[simp] theorem setSlot_causeN (g : Group) (sl : Bool) (p : Slot) : (setSlot g sl p).causeN = g.causeN := by cases sl <;> rfl
@[simp] theorem setSlot_preq (g : Group) (sl : Bool) (p : Slot) : (setSlot g sl p).preq = g.preq := by cases sl <;> rfl
@[simp] theorem setSlot_pdlAt (g : Group) (sl : Bool) (p : Slot) : (setSlot g sl p).pdlAt = g.pdlAt := by cases sl <;> rfl
@[simp] theorem setSlot_yielding (g : Group) (sl : Bool) (p : Slot) : (setSlot g sl p).yielding = g.yielding := by cases sl <;> rfl
@[simp] theorem setSlot_shape (g : Group) (sl : Bool) (p : Slot) : (setSlot g sl p).shape = g.shape := by cases sl <;> rfl
@[simp] theorem setSlot_region (g : Group) (sl : Bool) (p : Slot) : (setSlot g sl p).region = g.region := by cases sl <;> rfl
@[simp] theorem setSlot_pend (g : Group) (sl : Bool) (p : Slot) : (setSlot g sl p).pend = g.pend := by cases sl <;> rfl
@[simp] theorem setSlot_queue (g : Group) (sl : Bool) (p : Slot) : (setSlot g sl p).queue = g.queue := by cases sl <;> rfl
@[simp] theorem setSlot_chan (g : Group) (sl : Bool) (p : Slot) : (setSlot g sl p).chan = g.chan := by cases sl <;> rfl
@[simp] theorem setSlot_base (g : Group) (sl : Bool) (p : Slot) : (setSlot g sl p).base = g.base := by cases sl <;> rfl
@[simp] theorem setSlot_eff (g : Group) (sl : Bool) (p : Slot) : (setSlot g sl p).eff = g.eff := by cases sl <;> rfl
@[simp] theorem setSlot_active (g : Group) (sl : Bool) (p : Slot) : (setSlot g sl p).active = g.active := by cases sl <;> rfl
@[simp] theorem setSlot_enteredAt (g : Group) (sl : Bool) (p : Slot) : (setSlot g sl p).enteredAt = g.enteredAt := by cases sl <;> rfl
@[simp] theorem setSlot_parkedAt (g : Group) (sl : Bool) (p : Slot) : (setSlot g sl p).parkedAt = g.parkedAt := by cases sl <;> rfl
@[simp] theorem setSlot_readyAt (g : Group) (sl : Bool) (p : Slot) : (setSlot g sl p).readyAt = g.readyAt := by cases sl <;> rfl
@[simp] theorem setSlot_issuedAt (g : Group) (sl : Bool) (p : Slot) : (setSlot g sl p).issuedAt = g.issuedAt := by cases sl <;> rfl
@[simp] theorem setSlot_agedAt (g : Group) (sl : Bool) (p : Slot) : (setSlot g sl p).agedAt = g.agedAt := by cases sl <;> rfl
@[simp] theorem setSlot_lastSlot (g : Group) (sl : Bool) (p : Slot) : (setSlot g sl p).lastSlot = g.lastSlot := by cases sl <;> rfl
@[simp] theorem setSlot_settle (g : Group) (sl : Bool) (p : Slot) : (setSlot g sl p).settle = g.settle := by cases sl <;> rfl
@[simp] theorem setSlot_hazards (g : Group) (sl : Bool) (p : Slot) : (setSlot g sl p).hazards = g.hazards := by cases sl <;> rfl
@[simp] theorem setSlot_handler (g : Group) (sl : Bool) (p : Slot) : (setSlot g sl p).handler = g.handler := by cases sl <;> rfl
@[simp] theorem setSlot_stop (g : Group) (sl : Bool) (p : Slot) : (setSlot g sl p).stop = g.stop := by cases sl <;> rfl
@[simp] theorem setSlot_stopSlot (g : Group) (sl : Bool) (p : Slot) : (setSlot g sl p).stopSlot = g.stopSlot := by cases sl <;> rfl
@[simp] theorem setSlot_donors (g : Group) (sl : Bool) (p : Slot) : (setSlot g sl p).donors = g.donors := by cases sl <;> rfl
@[simp] theorem setSlot_replay (g : Group) (sl : Bool) (p : Slot) : (setSlot g sl p).replay = g.replay := by cases sl <;> rfl
@[simp] theorem setSlot_spill (g : Group) (sl : Bool) (p : Slot) : (setSlot g sl p).spill = g.spill := by cases sl <;> rfl
@[simp] theorem setSlot_coll (g : Group) (sl : Bool) (p : Slot) : (setSlot g sl p).coll = g.coll := by cases sl <;> rfl
@[simp] theorem setSlot_armed (g : Group) (sl : Bool) (p : Slot) : (setSlot g sl p).armed = g.armed := by cases sl <;> rfl
@[simp] theorem setSlot_stepping (g : Group) (sl : Bool) (p : Slot) : (setSlot g sl p).stepping = g.stepping := by cases sl <;> rfl
@[simp] theorem setSlot_pass (g : Group) (sl : Bool) (p : Slot) : (setSlot g sl p).pass = g.pass := by cases sl <;> rfl
@[simp] theorem getSlot_setSlot (g : Group) (sl : Bool) (p : Slot) : getSlot (setSlot g sl p) sl = p := by cases sl <;> rfl
@[simp] theorem getSlot_setSlot_other (g : Group) (sl : Bool) (p : Slot) : getSlot (setSlot g sl p) (!sl) = getSlot g (!sl) := by
  cases sl <;> rfl
@[simp] theorem setSlot_getSlot (g : Group) (sl : Bool) : setSlot g sl (getSlot g sl) = g := by cases sl <;> rfl
@[simp] theorem setSlot_setSlot (g : Group) (sl : Bool) (p q : Slot) : setSlot (setSlot g sl p) sl q = setSlot g sl q := by
  cases sl <;> rfl

@[simp] theorem gWrite_team (g : Group) (a : Sel) (v : W64) : (gWrite g a v).team = g.team := by
  unfold gWrite; split <;> (try split) <;> rfl
@[simp] theorem gWrite_launch (g : Group) (a : Sel) (v : W64) : (gWrite g a v).launch = g.launch := by
  unfold gWrite; split <;> (try split) <;> rfl
@[simp] theorem gWrite_num (g : Group) (a : Sel) (v : W64) : (gWrite g a v).num = g.num := by
  unfold gWrite; split <;> (try split) <;> rfl
@[simp] theorem gWrite_width (g : Group) (a : Sel) (v : W64) : (gWrite g a v).width = g.width := by
  unfold gWrite; split <;> (try split) <;> rfl
@[simp] theorem gWrite_v (g : Group) (a : Sel) (v : W64) : (gWrite g a v).v = g.v := by
  unfold gWrite; split <;> (try split) <;> rfl
@[simp] theorem gWrite_h (g : Group) (a : Sel) (v : W64) : (gWrite g a v).h = g.h := by
  unfold gWrite; split <;> (try split) <;> rfl
@[simp] theorem gWrite_allot (g : Group) (a : Sel) (v : W64) : (gWrite g a v).allot = g.allot := by
  unfold gWrite; split <;> (try split) <;> rfl
@[simp] theorem gWrite_keep (g : Group) (a : Sel) (v : W64) : (gWrite g a v).keep = g.keep := by
  unfold gWrite; split <;> (try split) <;> rfl
@[simp] theorem gWrite_stack (g : Group) (a : Sel) (v : W64) : (gWrite g a v).stack = g.stack := by
  unfold gWrite; split <;> (try split) <;> rfl
@[simp] theorem gWrite_stackNewer (g : Group) (a : Sel) (v : W64) : (gWrite g a v).stackNewer = g.stackNewer := by
  unfold gWrite; split <;> (try split) <;> rfl
@[simp] theorem gWrite_exited (g : Group) (a : Sel) (v : W64) : (gWrite g a v).exited = g.exited := by
  unfold gWrite; split <;> (try split) <;> rfl
@[simp] theorem gWrite_flags (g : Group) (a : Sel) (v : W64) : (gWrite g a v).flags = g.flags := by
  unfold gWrite; split <;> (try split) <;> rfl
@[simp] theorem gWrite_flagsen (g : Group) (a : Sel) (v : W64) : (gWrite g a v).flagsen = g.flagsen := by
  unfold gWrite; split <;> (try split) <;> rfl
@[simp] theorem gWrite_cause (g : Group) (a : Sel) (v : W64) : (gWrite g a v).cause = g.cause := by
  unfold gWrite; split <;> (try split) <;> rfl
@[simp] theorem gWrite_caddr (g : Group) (a : Sel) (v : W64) : (gWrite g a v).caddr = g.caddr := by
  unfold gWrite; split <;> (try split) <;> rfl
@[simp] theorem gWrite_causeN (g : Group) (a : Sel) (v : W64) : (gWrite g a v).causeN = g.causeN := by
  unfold gWrite; split <;> (try split) <;> rfl
@[simp] theorem gWrite_preq (g : Group) (a : Sel) (v : W64) : (gWrite g a v).preq = g.preq := by
  unfold gWrite; split <;> (try split) <;> rfl
@[simp] theorem gWrite_pdlAt (g : Group) (a : Sel) (v : W64) : (gWrite g a v).pdlAt = g.pdlAt := by
  unfold gWrite; split <;> (try split) <;> rfl
@[simp] theorem gWrite_yielding (g : Group) (a : Sel) (v : W64) : (gWrite g a v).yielding = g.yielding := by
  unfold gWrite; split <;> (try split) <;> rfl
@[simp] theorem gWrite_shape (g : Group) (a : Sel) (v : W64) : (gWrite g a v).shape = g.shape := by
  unfold gWrite; split <;> (try split) <;> rfl
@[simp] theorem gWrite_region (g : Group) (a : Sel) (v : W64) : (gWrite g a v).region = g.region := by
  unfold gWrite; split <;> (try split) <;> rfl
@[simp] theorem gWrite_pend (g : Group) (a : Sel) (v : W64) : (gWrite g a v).pend = g.pend := by
  unfold gWrite; split <;> (try split) <;> rfl
@[simp] theorem gWrite_queue (g : Group) (a : Sel) (v : W64) : (gWrite g a v).queue = g.queue := by
  unfold gWrite; split <;> (try split) <;> rfl
@[simp] theorem gWrite_chan (g : Group) (a : Sel) (v : W64) : (gWrite g a v).chan = g.chan := by
  unfold gWrite; split <;> (try split) <;> rfl
@[simp] theorem gWrite_base (g : Group) (a : Sel) (v : W64) : (gWrite g a v).base = g.base := by
  unfold gWrite; split <;> (try split) <;> rfl
@[simp] theorem gWrite_eff (g : Group) (a : Sel) (v : W64) : (gWrite g a v).eff = g.eff := by
  unfold gWrite; split <;> (try split) <;> rfl
@[simp] theorem gWrite_active (g : Group) (a : Sel) (v : W64) : (gWrite g a v).active = g.active := by
  unfold gWrite; split <;> (try split) <;> rfl
@[simp] theorem gWrite_enteredAt (g : Group) (a : Sel) (v : W64) : (gWrite g a v).enteredAt = g.enteredAt := by
  unfold gWrite; split <;> (try split) <;> rfl
@[simp] theorem gWrite_parkedAt (g : Group) (a : Sel) (v : W64) : (gWrite g a v).parkedAt = g.parkedAt := by
  unfold gWrite; split <;> (try split) <;> rfl
@[simp] theorem gWrite_readyAt (g : Group) (a : Sel) (v : W64) : (gWrite g a v).readyAt = g.readyAt := by
  unfold gWrite; split <;> (try split) <;> rfl
@[simp] theorem gWrite_issuedAt (g : Group) (a : Sel) (v : W64) : (gWrite g a v).issuedAt = g.issuedAt := by
  unfold gWrite; split <;> (try split) <;> rfl
@[simp] theorem gWrite_agedAt (g : Group) (a : Sel) (v : W64) : (gWrite g a v).agedAt = g.agedAt := by
  unfold gWrite; split <;> (try split) <;> rfl
@[simp] theorem gWrite_lastSlot (g : Group) (a : Sel) (v : W64) : (gWrite g a v).lastSlot = g.lastSlot := by
  unfold gWrite; split <;> (try split) <;> rfl
@[simp] theorem gWrite_settle (g : Group) (a : Sel) (v : W64) : (gWrite g a v).settle = g.settle := by
  unfold gWrite; split <;> (try split) <;> rfl
@[simp] theorem gWrite_hazards (g : Group) (a : Sel) (v : W64) : (gWrite g a v).hazards = g.hazards := by
  unfold gWrite; split <;> (try split) <;> rfl
@[simp] theorem gWrite_handler (g : Group) (a : Sel) (v : W64) : (gWrite g a v).handler = g.handler := by
  unfold gWrite; split <;> (try split) <;> rfl
@[simp] theorem gWrite_stop (g : Group) (a : Sel) (v : W64) : (gWrite g a v).stop = g.stop := by
  unfold gWrite; split <;> (try split) <;> rfl
@[simp] theorem gWrite_stopSlot (g : Group) (a : Sel) (v : W64) : (gWrite g a v).stopSlot = g.stopSlot := by
  unfold gWrite; split <;> (try split) <;> rfl
@[simp] theorem gWrite_donors (g : Group) (a : Sel) (v : W64) : (gWrite g a v).donors = g.donors := by
  unfold gWrite; split <;> (try split) <;> rfl
@[simp] theorem gWrite_replay (g : Group) (a : Sel) (v : W64) : (gWrite g a v).replay = g.replay := by
  unfold gWrite; split <;> (try split) <;> rfl
@[simp] theorem gWrite_spill (g : Group) (a : Sel) (v : W64) : (gWrite g a v).spill = g.spill := by
  unfold gWrite; split <;> (try split) <;> rfl
@[simp] theorem gWrite_coll (g : Group) (a : Sel) (v : W64) : (gWrite g a v).coll = g.coll := by
  unfold gWrite; split <;> (try split) <;> rfl
@[simp] theorem gWrite_armed (g : Group) (a : Sel) (v : W64) : (gWrite g a v).armed = g.armed := by
  unfold gWrite; split <;> (try split) <;> rfl
@[simp] theorem gWrite_stepping (g : Group) (a : Sel) (v : W64) : (gWrite g a v).stepping = g.stepping := by
  unfold gWrite; split <;> (try split) <;> rfl
@[simp] theorem gWrite_pass (g : Group) (a : Sel) (v : W64) : (gWrite g a v).pass = g.pass := by
  unfold gWrite; split <;> (try split) <;> rfl
@[simp] theorem gWrite_getSlot (g : Group) (a : Sel) (v : W64) (sl : Bool) : getSlot (gWrite g a v) sl = getSlot g sl := by
  unfold gWrite; split <;> (try split) <;> cases sl <;> rfl

end Sys2Proof.Machine
end

