-- ==== Sys2Proof/Laws/Word.lean ====
section
/-! SUPPORT. What issuing a word can do, said once: the cases of word and of its checks, and that completion touches nothing but
what plain leaves out. A proof about an instruction cites these and never unfolds word. -/

namespace Sys2Proof

open Machine

/-! ### The cases of a word -/

/-- A word of a group answers a next state: what finishGroup makes of its result. -/
theorem word_group {i : Instr} {s : State} {body : State → Res} {loc : Nat} {sl : Bool} {g : Group}
    (ha : s.agent = .group loc sl) (hg : mget s.groups loc = some g) :
    word i s body = .next (finishGroup i s loc sl (issue i s body)) := by
  simp [word, ha, hg]

/-- A word of a Quartz core answers a next state: what finishQuartz makes of its result. -/
theorem word_quartz {i : Instr} {s : State} {body : State → Res} {n : Nat} {q : Quartz}
    (ha : s.agent = .quartz n) (hq : mget s.quartz n = some q) :
    word i s body = .next (finishQuartz n s (issue i s body)) := by
  simp [word, ha, hq]

/-- A word of a prologue engine answers a next state: what finishPrologue makes of its result. -/
theorem word_prologue {i : Instr} {s : State} {body : State → Res} {n : Nat} {f : FrontEnd}
    (ha : s.agent = .prologue n) (hf : mget s.fes n = some f) :
    word i s body = .next (finishPrologue n (issue i s body)) := by
  simp [word, ha, hf]

/-- A word answers a next state wherever its unit exists: no word faults or refuses. -/
theorem word_next {i : Instr} {s : State} (body : State → Res) (h : unitThere s = true) : ∃ t, word i s body = .next t := by
  cases ha : s.agent with
  | group loc sl =>
    simp only [unitThere, ha, Option.isSome_iff_exists] at h
    obtain ⟨g, hg⟩ := h
    exact ⟨_, word_group ha hg⟩
  | quartz n =>
    simp only [unitThere, ha, Option.isSome_iff_exists] at h
    obtain ⟨q, hq⟩ := h
    exact ⟨_, word_quartz ha hq⟩
  | prologue n =>
    simp only [unitThere, ha, Option.isSome_iff_exists] at h
    obtain ⟨f, hf⟩ := h
    exact ⟨_, word_prologue ha hf⟩

/-! ### The checks -/

theorem ready_unit {i : Instr} {s : State} (h : ready i s = true) : unitThere s = true := by
  simp only [ready, Bool.and_eq_true] at h; exact h.1.1.1.1.1

theorem ready_notStepping {i : Instr} {s : State} (h : ready i s = true) : notStepping s = true := by
  simp only [ready, Bool.and_eq_true] at h; exact h.1.2

/-- A word that is ready has its own effect. -/
theorem issue_ready {i : Instr} {s : State} (body : State → Res) (h : ready i s = true) : issue i s body = body s := by
  simp only [ready, Bool.and_eq_true, beq_iff_eq, Bool.not_eq_true'] at h
  obtain ⟨⟨⟨⟨⟨-, hp⟩, hh⟩, hf⟩, -⟩, -⟩ := h
  simp only [Bool.and_eq_false_iff] at hf
  simp only [issue, hp, hh, Bool.and_eq_true]
  rcases hf with hf | hf <;> simp [hf]

/-- A word whose checks find a code raises that cause. -/
theorem issue_bad {i : Instr} {s : State} (body : State → Res) {c : Nat} (h : precheck s i = .bad c) :
    issue i s body = raise s c := by simp [issue, h]

/-- A vector word of a path without a live lane does nothing (R181). -/
theorem issue_void {i : Instr} {s : State} (body : State → Res) (h : precheck s i = .void) : issue i s body = .done s := by
  simp [issue, h]

/-! ### What completion touches -/

/-- A table in which one entry is replaced by one that maps alike maps as before. -/
theorem map_mput_same {α β : Type} {l : KMap α} {k : Nat} {v w : α} {f : Nat × α → β} (hl : mrising none l = true)
    (hg : mget l k = some v) (hf : f (k, w) = f (k, v)) : (mput l k w).map f = l.map f := by
  induction l with
  | nil => simp [mget] at hg
  | cons e t ih =>
    obtain ⟨j, x⟩ := e
    simp only [mrising] at hl
    simp only [mget] at hg
    split at hg
    · next hj =>
      subst hj
      cases hg
      simp [mput, hf]
    · next hj =>
      have hlt : j < k := by
        rcases Nat.lt_or_ge j k with h | h
        · exact h
        · rw [mget_below hl h] at hg; cases hg
      simp only [mput]
      rw [if_neg (by omega), if_neg (by omega)]
      simp only [List.map_cons, List.cons.injEq, true_and]
      exact ih (mrising_none hl) hg

/-- A change of a group that its plain form does not show leaves the plain form of the state. -/
theorem plain_updGroup {s : State} {loc : Nat} {f : Group → Group} (hs : mrising none s.groups = true)
    (hf : ∀ g, plainGroup (f g) = plainGroup g) : plain (updGroup s loc f) = plain s := by
  have : (mupd s.groups loc f).map (fun e => (e.1, plainGroup e.2)) = s.groups.map (fun e => (e.1, plainGroup e.2)) := by
    unfold mupd
    cases hg : mget s.groups loc with
    | none => rfl
    | some g => exact map_mput_same hs hg (by simp [hf])
  simp [plain, updGroup, this]

theorem plain_last (s : State) (x : Last) : plain { s with last := x } = plain s := rfl

theorem plainSlot_idem (p : Slot) : plainSlot (plainSlot p) = plainSlot p := by
  unfold plainSlot; by_cases h : p.st = .demoted <;> simp [h]

theorem plainGroup_noteChange (g : Group) (sl : Bool) : plainGroup (noteChange g sl) = plainGroup g := by
  cases sl <;> simp only [noteChange, plainGroup, setSlot, getSlot, plainSlot] <;>
    (by_cases h0 : g.slot0.st = .demoted <;> by_cases h1 : g.slot1.st = .demoted <;> simp [h0, h1])

theorem plain_noteIssued {s : State} (loc : Nat) (sl : Bool) (hs : mrising none s.groups = true) :
    plain (noteIssued s loc sl) = plain s := by
  apply plain_updGroup hs
  intro g
  cases sl <;> simp [plainGroup, setSlot, getSlot, plainSlot]

/-- Completing a word that is not a taken branch, of a group that is not being stepped, changes nothing that plain shows. -/
theorem plain_complete {i : Instr} {s0 s : State} {loc : Nat} {sl : Bool} (hs : mrising none s.groups = true)
    (hst : ∀ g, mget s.groups loc = some g → g.stepping = false) : plain (complete i s0 loc sl false s) = plain s := by
  have h1 : mrising none (noteIssued s loc sl).groups = true := mrising_mupd hs
  let F : Group → Group := fun g => if false = true then noteBranch g sl (match mget s0.groups loc with
    | some g => (getSlot g sl).pc | none => 0) else g
  have h2 : mrising none (updGroup (noteIssued s loc sl) loc F).groups = true := mrising_mupd h1
  have hb : ∀ b : Bool, plain (updGroup (updGroup (noteIssued s loc sl) loc F) loc (fun g => if b then noteChange g sl else g))
      = plain s := by
    intro b
    rw [plain_updGroup h2 (by intro g; cases b <;> simp [plainGroup_noteChange]), plain_updGroup h1 (by intro g; simp [F]),
      plain_noteIssued loc sl hs]
  have hstep : ∀ (b : Bool) g, mget (updGroup (updGroup (noteIssued s loc sl) loc F) loc
      (fun g => if b then noteChange g sl else g)).groups loc = some g → g.stepping = false := by
    intro b g hg
    simp only [noteIssued, updGroup_groups, mget_mupd_self, Option.map_map, Option.map_eq_some_iff] at hg
    obtain ⟨g0, hg0, rfl⟩ := hg
    cases b <;> cases sl <;> simp [F, noteChange, setSlot, getSlot, hst g0 hg0]
  unfold complete
  simp only
  split
  · next g hg =>
    have := hstep _ g hg
    simp only [this, Bool.false_eq_true, if_false]
    exact hb _
  · exact hb _

/-! ### The effect of a word that is ready -/

/-- The state in which a word's own effect stands: the same unit, which exists, is not being stepped and is within its limit, in tables
of rising keys. -/
def keepsUnit (s w : State) : Prop :=
  w.agent = s.agent ∧ unitThere w = true ∧ notStepping w = true ∧ wordsLeft w = true ∧ mrising none w.groups = true ∧ mrising none w.fes = true

theorem readPc_writePc {w : State} (pc : W64) (h : unitThere w = true) : readPc (writePc w pc) = pc := by
  unfold readPc writePc
  cases ha : w.agent with
  | group loc sl =>
    simp only [unitThere, ha, Option.isSome_iff_exists] at h
    obtain ⟨g, hg⟩ := h
    simp [ha, hg]
  | quartz n =>
    simp only [unitThere, ha, Option.isSome_iff_exists] at h
    obtain ⟨q, hq⟩ := h
    simp [ha, hq]
  | prologue n =>
    simp only [unitThere, ha, Option.isSome_iff_exists] at h
    obtain ⟨f, hf⟩ := h
    simp [ha, hf]

theorem plain_fe {s : State} {n : Nat} (hs : mrising none s.fes = true) :
    plain (updPro s n (fun p => { p with words := p.words + 1 })) = plain s := by
  have : (mupd s.fes n (fun e => { e with pro := { e.pro with words := e.pro.words + 1 } })).map (fun e => (e.1, plainFe e.2))
      = s.fes.map (fun e => (e.1, plainFe e.2)) := by
    unfold mupd
    cases hg : mget s.fes n with
    | none => rfl
    | some g => exact map_mput_same hs hg (by simp [plainFe])
  simp [plain, updPro, updFe, this]

/-- A ready word whose effect completes answers a next state that is that effect at PC + 8, but for what completion touches. -/
theorem word_done {i : Instr} {s w : State} {body : State → Res} (hr : ready i s = true) (hb : body s = .done w)
    (hw : keepsUnit s w) : ∃ t, word i s body = .next t ∧ plain t = plain (advance w) := by
  obtain ⟨ha, hu, hst, hwl, hgs, hfs⟩ := hw
  have hi := issue_ready body hr
  have hs := ready_unit hr
  cases hag : s.agent with
  | group loc sl =>
    simp only [unitThere, hag, Option.isSome_iff_exists] at hs
    obtain ⟨g, hg⟩ := hs
    refine ⟨_, word_group hag hg, ?_⟩
    rw [hi, hb]
    have hagw : w.agent = .group loc sl := ha.trans hag
    apply plain_complete
    · simp only [writePc, hagw]; exact mrising_mupd hgs
    · intro g' hg'
      simp only [writePc, hagw, updGroup_groups, mget_mupd_self, Option.map_eq_some_iff] at hg'
      obtain ⟨g0, hg0, rfl⟩ := hg'
      simpa [notStepping, curGroup, hagw, hg0] using hst
  | quartz n =>
    simp only [unitThere, hag, Option.isSome_iff_exists] at hs
    obtain ⟨q, hq⟩ := hs
    refine ⟨_, word_quartz hag hq, ?_⟩
    rw [hi, hb]; rfl
  | prologue n =>
    simp only [unitThere, hag, Option.isSome_iff_exists] at hs
    obtain ⟨f, hf⟩ := hs
    refine ⟨_, word_prologue hag hf, ?_⟩
    rw [hi, hb]
    have hagw : w.agent = .prologue n := ha.trans hag
    have : mrising none (writePc w (readPc w + 8)).fes = true := by
      simp only [writePc, hagw, updPro_fes]; exact mrising_mupd hfs
    have hc : countWord (writePc w (readPc w + 8)) n
        = updPro (writePc w (readPc w + 8)) n (fun p => { p with words := p.words + 1 }) := by
      unfold countWord
      simp only
      split
      · next f hf =>
        simp only [updPro_fes, writePc, hagw] at hf
        rw [mget_mupd_self] at hf
        simp only [wordsLeft, hagw] at hwl
        cases hg : mget w.fes n with
        | none => simp [hg] at hf
        | some f0 =>
          simp only [hg, decide_eq_true_eq] at hwl
          rw [mget_mupd_self, hg] at hf
          simp only [Option.map_some, Option.some.injEq] at hf
          subst hf
          rw [if_neg (by simp only; omega)]
      · rfl
    have hp := plain_fe (n := n) this
    rw [← hc] at hp
    exact hp

end Sys2Proof
end

