-- ==== Sys2Proof/Laws/Memory.lean ====
section
/-! SUPPORT. Laws of memory locations: a byte written is read back, every other byte reads as before, and every operation on memory
keeps its canonical form. -/

namespace Sys2Proof

open Machine

/-- The memories of a state are canonical and the tables that hold them have rising keys. -/
def memoryFine (s : State) : Prop := canonMemory s = true ∧ mrising none s.teams = true ∧ mrising none s.dies = true

theorem memoryFine_of_canon {s : State} (h : canon s = true) : memoryFine s := by
  simp only [canon, canonKeys, Bool.and_eq_true] at h
  exact ⟨h.1.2, h.1.1.1.1.1.1.1.1.2, h.1.1.1.1.1.1.2⟩

theorem mem_of_mget {α : Type} {l : KMap α} {k : Nat} {v : α} (h : mget l k = some v) : (k, v) ∈ l := by
  induction l with
  | nil => simp [mget] at h
  | cons e t ih =>
    obtain ⟨j, w⟩ := e
    simp only [mget] at h
    split at h
    · next hj => cases h; subst hj; exact List.mem_cons_self
    · exact List.mem_cons_of_mem _ (ih h)

/-- A place that a location can name: its team or die exists. -/
def placed (s : State) : MLoc → Bool
  | .shared tid _ => (mget s.teams tid).isSome
  | .array d _ => (mget s.dies d).isSome
  | .hbm _ => true
  | .counted _ _ _ => false

/-- Writing one byte keeps every memory canonical. -/
theorem memoryFine_writeLoc {s : State} (l : MLoc) (b : Byte) (h : memoryFine s) : memoryFine (writeLoc s l b) := by
  obtain ⟨hm, ht, hd⟩ := h
  simp only [canonMemory, Bool.and_eq_true, List.all_eq_true] at hm
  obtain ⟨⟨⟨⟨⟨hh, hts⟩, hds⟩, hfs⟩, hr⟩, hfl⟩ := hm
  cases l with
  | counted d e a => exact ⟨by simp only [canonMemory, writeLoc, Bool.and_eq_true, List.all_eq_true]; exact ⟨⟨⟨⟨⟨hh, hts⟩, hds⟩, hfs⟩, hr⟩, hfl⟩, ht, hd⟩
  | hbm pa =>
    refine ⟨?_, ht, hd⟩
    simp only [canonMemory, writeLoc, Bool.and_eq_true, List.all_eq_true]
    exact ⟨⟨⟨⟨⟨memWf_writeByte pa b hh, hts⟩, hds⟩, hfs⟩, hr⟩, hfl⟩
  | shared tid off =>
    refine ⟨?_, mrising_mupd ht, hd⟩
    simp only [canonMemory, writeLoc, updTeam_hbm, updTeam_teams, updTeam_dies, updTeam_far, Bool.and_eq_true, List.all_eq_true]
    refine ⟨⟨⟨⟨⟨hh, ?_⟩, hds⟩, hfs⟩, hr⟩, hfl⟩
    intro e he
    unfold mupd at he
    cases hg : mget s.teams tid with
    | none => rw [hg] at he; exact hts e he
    | some t =>
      rw [hg] at he
      rcases mem_mput he with rfl | he
      · exact memWf_writeByte off b (hts _ (mem_of_mget hg))
      · exact hts e he
  | array d a =>
    refine ⟨?_, ht, mrising_mupd hd⟩
    simp only [canonMemory, writeLoc, updDie_hbm, updDie_teams, updDie_dies, updDie_far, Bool.and_eq_true, List.all_eq_true]
    refine ⟨⟨⟨⟨⟨hh, hts⟩, ?_⟩, hfs⟩, hr⟩, hfl⟩
    intro e he
    unfold mupd at he
    cases hg : mget s.dies d with
    | none => rw [hg] at he; exact hds e he
    | some t =>
      rw [hg] at he
      rcases mem_mput he with rfl | he
      · exact memWf_writeByte a b (hds _ (mem_of_mget hg))
      · exact hds e he

/-- Writing bytes keeps every memory canonical. -/
theorem memoryFine_writeLocs {s : State} (l : List (MLoc × Byte)) (h : memoryFine s) : memoryFine (writeLocs s l) := by
  induction l generalizing s with
  | nil => exact h
  | cons e t ih => exact ih (memoryFine_writeLoc e.1 e.2 h)

/-- A byte written is read back. -/
theorem readLoc_writeLoc_self {s : State} {l : MLoc} (b : Byte) (h : memoryFine s) (hl : placed s l = true) :
    readLoc (writeLoc s l b) l = b := by
  obtain ⟨hm, -, -⟩ := h
  simp only [canonMemory, Bool.and_eq_true, List.all_eq_true] at hm
  obtain ⟨⟨⟨⟨⟨hh, hts⟩, hds⟩, -⟩, -⟩, -⟩ := hm
  cases l with
  | counted _ _ _ => simp [placed] at hl
  | hbm pa => exact readByte_writeByte_self pa b hh
  | shared tid off =>
    simp only [placed, Option.isSome_iff_exists] at hl
    obtain ⟨t, ht⟩ := hl
    simp [writeLoc, readLoc, ht, readByte_writeByte_self off b (hts _ (mem_of_mget ht))]
  | array d a =>
    simp only [placed, Option.isSome_iff_exists] at hl
    obtain ⟨t, ht⟩ := hl
    simp [writeLoc, readLoc, ht, readByte_writeByte_self a b (hds _ (mem_of_mget ht))]

/-- Every other byte reads as before. -/
theorem readLoc_writeLoc_other (s : State) {l m : MLoc} (b : Byte) (h : m ≠ l) : readLoc (writeLoc s l b) m = readLoc s m := by
  cases l with
  | counted _ _ _ => rfl
  | hbm pa =>
    cases m with
    | counted _ _ _ => rfl
    | hbm pa' => exact readByte_writeByte_other _ b (by intro he; exact h (by rw [he]))
    | shared _ _ => rfl
    | array _ _ => rfl
  | shared tid off =>
    cases m with
    | counted _ _ _ => rfl
    | hbm _ => rfl
    | array _ _ => rfl
    | shared tid' off' =>
      simp only [writeLoc, readLoc, updTeam_teams]
      by_cases ht : tid' = tid
      · subst ht
        cases hg : mget s.teams tid' with
        | none => simp [hg]
        | some t =>
          simp only [mget_mupd_self, hg, Option.map_some]
          exact readByte_writeByte_other _ b (by intro he; exact h (by rw [he]))
      · rw [mget_mupd_other _ _ ht]
  | array d a =>
    cases m with
    | counted _ _ _ => rfl
    | hbm _ => rfl
    | shared _ _ => rfl
    | array d' a' =>
      simp only [writeLoc, readLoc, updDie_dies]
      by_cases ht : d' = d
      · subst ht
        cases hg : mget s.dies d' with
        | none => simp [hg]
        | some t =>
          simp only [mget_mupd_self, hg, Option.map_some]
          exact readByte_writeByte_other _ b (by intro he; exact h (by rw [he]))
      · rw [mget_mupd_other _ _ ht]

theorem readLoc_writeLocs_other (s : State) {m : MLoc} (l : List (MLoc × Byte)) (h : m ∉ l.map (·.1)) :
    readLoc (writeLocs s l) m = readLoc s m := by
  induction l generalizing s with
  | nil => rfl
  | cons e t ih =>
    simp only [List.map_cons, List.mem_cons, not_or] at h
    rw [writeLocs, ih _ h.2, readLoc_writeLoc_other _ _ h.1]

/-- The memory of the state after reset is canonical. -/
theorem memoryFine_reset : memoryFine State.reset := by
  refine ⟨?_, ?_, ?_⟩ <;> decide

end Sys2Proof
end

