-- ==== Sys2Proof/Laws/PerInstr.lean ====
section
/-! SUPPORT. A statement about every instruction as syntax, one lemma per constructor: the opcode of a word fits the eight bits of its
field, and none is 0 (R164); a dual word, which has none, stands as 256 (R174). -/

namespace Sys2Proof.Laws.Opcode

open Sys2Proof Sys2Proof.Machine

/-- The opcode of an instruction word lies from 1 to 255, that of a dual word stands as 256; an event has none. -/
def Statement (i : Instr) : Prop := ∀ op, opcodeOf i = some op → 1 ≤ op ∧ op ≤ 2 ^ 8

theorem sadd (x0 x1 x2 x3) : Statement (.sadd x0 x1 x2 x3) := by intro _ h; cases h; decide
theorem ssub (x0 x1 x2 x3) : Statement (.ssub x0 x1 x2 x3) := by intro _ h; cases h; decide
theorem smul (x0 x1 x2 x3) : Statement (.smul x0 x1 x2 x3) := by intro _ h; cases h; decide
theorem smulh (x0 x1 x2 x3) : Statement (.smulh x0 x1 x2 x3) := by intro _ h; cases h; decide
theorem sdiv (x0 x1 x2 x3) : Statement (.sdiv x0 x1 x2 x3) := by intro _ h; cases h; decide
theorem srem (x0 x1 x2 x3) : Statement (.srem x0 x1 x2 x3) := by intro _ h; cases h; decide
theorem sand (x0 x1 x2 x3) : Statement (.sand x0 x1 x2 x3) := by intro _ h; cases h; decide
theorem sor (x0 x1 x2 x3) : Statement (.sor x0 x1 x2 x3) := by intro _ h; cases h; decide
theorem sxor (x0 x1 x2 x3) : Statement (.sxor x0 x1 x2 x3) := by intro _ h; cases h; decide
theorem sandn (x0 x1 x2 x3) : Statement (.sandn x0 x1 x2 x3) := by intro _ h; cases h; decide
theorem sshl (x0 x1 x2 x3) : Statement (.sshl x0 x1 x2 x3) := by intro _ h; cases h; decide
theorem sshr (x0 x1 x2 x3) : Statement (.sshr x0 x1 x2 x3) := by intro _ h; cases h; decide
theorem ssra (x0 x1 x2 x3) : Statement (.ssra x0 x1 x2 x3) := by intro _ h; cases h; decide
theorem srot (x0 x1 x2 x3) : Statement (.srot x0 x1 x2 x3) := by intro _ h; cases h; decide
theorem smin (x0 x1 x2 x3) : Statement (.smin x0 x1 x2 x3) := by intro _ h; cases h; decide
theorem smax (x0 x1 x2 x3) : Statement (.smax x0 x1 x2 x3) := by intro _ h; cases h; decide
theorem sabs (x0 x1 x2) : Statement (.sabs x0 x1 x2) := by intro _ h; cases h; decide
theorem sclz (x0 x1 x2) : Statement (.sclz x0 x1 x2) := by intro _ h; cases h; decide
theorem sctz (x0 x1 x2) : Statement (.sctz x0 x1 x2) := by intro _ h; cases h; decide
theorem spop (x0 x1 x2) : Statement (.spop x0 x1 x2) := by intro _ h; cases h; decide
theorem sbfx (x0 x1 x2 x3) : Statement (.sbfx x0 x1 x2 x3) := by intro _ h; cases h; decide
theorem sbfi (x0 x1 x2 x3) : Statement (.sbfi x0 x1 x2 x3) := by intro _ h; cases h; decide
theorem sbrev (x0 x1 x2) : Statement (.sbrev x0 x1 x2) := by intro _ h; cases h; decide
theorem scmp (x0 x1 x2 x3) : Statement (.scmp x0 x1 x2 x3) := by intro _ h; cases h; decide
theorem ssel (x0 x1 x2 x3 x4) : Statement (.ssel x0 x1 x2 x3 x4) := by intro _ h; cases h; decide
theorem smov (x0 x1 x2) : Statement (.smov x0 x1 x2) := by intro _ h; cases h; decide
theorem sli (x0 x1 x2) : Statement (.sli x0 x1 x2) := by intro _ h; cases h; decide
theorem slih (x0 x1) : Statement (.slih x0 x1) := by intro _ h; cases h; decide
theorem slea (x0 x1 x2 x3 x4) : Statement (.slea x0 x1 x2 x3 x4) := by intro _ h; cases h; decide
theorem br (x0 x1) : Statement (.br x0 x1) := by intro _ h; cases h; decide
theorem bc (x0 x1 x2 x3) : Statement (.bc x0 x1 x2 x3) := by intro _ h; cases h; decide
theorem bv (x0 x1 x2) : Statement (.bv x0 x1 x2) := by intro _ h; cases h; decide
theorem bx (x0 x1 x2) : Statement (.bx x0 x1 x2) := by intro _ h; cases h; decide
theorem call (x0 x1) : Statement (.call x0 x1) := by intro _ h; cases h; decide
theorem ret (x0) : Statement (.ret x0) := by intro _ h; cases h; decide
theorem join : Statement .join := by intro _ h; cases h; decide
theorem loop (x0 x1 x2) : Statement (.loop x0 x1 x2) := by intro _ h; cases h; decide
theorem exit (x0) : Statement (.exit x0) := by intro _ h; cases h; decide
theorem ipf (x0 x1) : Statement (.ipf x0 x1) := by intro _ h; cases h; decide
theorem nop : Statement .nop := by intro _ h; cases h; decide
theorem setfmt (x0 x1 x2) : Statement (.setfmt x0 x1 x2) := by intro _ h; cases h; decide
theorem mfs (x0 x1) : Statement (.mfs x0 x1) := by intro _ h; cases h; decide
theorem mts (x0 x1) : Statement (.mts x0 x1) := by intro _ h; cases h; decide
theorem sid (x0 x1) : Statement (.sid x0 x1) := by intro _ h; cases h; decide
theorem clk (x0 x1) : Statement (.clk x0 x1) := by intro _ h; cases h; decide
theorem vadd (x0) : Statement (.vadd x0) := by intro _ h; cases h; decide
theorem vsub (x0) : Statement (.vsub x0) := by intro _ h; cases h; decide
theorem vmul (x0) : Statement (.vmul x0) := by intro _ h; cases h; decide
theorem vmulh (x0) : Statement (.vmulh x0) := by intro _ h; cases h; decide
theorem vmad (x0) : Statement (.vmad x0) := by intro _ h; cases h; decide
theorem vdiv (x0) : Statement (.vdiv x0) := by intro _ h; cases h; decide
theorem vrem (x0) : Statement (.vrem x0) := by intro _ h; cases h; decide
theorem vand (x0) : Statement (.vand x0) := by intro _ h; cases h; decide
theorem vor (x0) : Statement (.vor x0) := by intro _ h; cases h; decide
theorem vxor (x0) : Statement (.vxor x0) := by intro _ h; cases h; decide
theorem vandn (x0) : Statement (.vandn x0) := by intro _ h; cases h; decide
theorem vnot (x0) : Statement (.vnot x0) := by intro _ h; cases h; decide
theorem vshl (x0) : Statement (.vshl x0) := by intro _ h; cases h; decide
theorem vshr (x0) : Statement (.vshr x0) := by intro _ h; cases h; decide
theorem vsra (x0) : Statement (.vsra x0) := by intro _ h; cases h; decide
theorem vmin (x0) : Statement (.vmin x0) := by intro _ h; cases h; decide
theorem vmax (x0) : Statement (.vmax x0) := by intro _ h; cases h; decide
theorem vabs (x0) : Statement (.vabs x0) := by intro _ h; cases h; decide
theorem vneg (x0) : Statement (.vneg x0) := by intro _ h; cases h; decide
theorem vclz (x0) : Statement (.vclz x0) := by intro _ h; cases h; decide
theorem vpop (x0) : Statement (.vpop x0) := by intro _ h; cases h; decide
theorem vbfx (x0) : Statement (.vbfx x0) := by intro _ h; cases h; decide
theorem vbfi (x0) : Statement (.vbfi x0) := by intro _ h; cases h; decide
theorem vcmp (x0 x1) : Statement (.vcmp x0 x1) := by intro _ h; cases h; decide
theorem vsel (x0) : Statement (.vsel x0) := by intro _ h; cases h; decide
theorem vmov (x0) : Statement (.vmov x0) := by intro _ h; cases h; decide
theorem vli (x0 x1 x2) : Statement (.vli x0 x1 x2) := by intro _ h; cases h; decide
theorem vmovs (x0) : Statement (.vmovs x0) := by intro _ h; cases h; decide
theorem vdot4 (x0) : Statement (.vdot4 x0) := by intro _ h; cases h; decide
theorem vdot2 (x0) : Statement (.vdot2 x0) := by intro _ h; cases h; decide
theorem fadd (x0) : Statement (.fadd x0) := by intro _ h; cases h; decide
theorem fsub (x0) : Statement (.fsub x0) := by intro _ h; cases h; decide
theorem fmul (x0) : Statement (.fmul x0) := by intro _ h; cases h; decide
theorem ffma (x0) : Statement (.ffma x0) := by intro _ h; cases h; decide
theorem fmin (x0) : Statement (.fmin x0) := by intro _ h; cases h; decide
theorem fmax (x0) : Statement (.fmax x0) := by intro _ h; cases h; decide
theorem fabs (x0) : Statement (.fabs x0) := by intro _ h; cases h; decide
theorem fneg (x0) : Statement (.fneg x0) := by intro _ h; cases h; decide
theorem fcmp (x0 x1) : Statement (.fcmp x0 x1) := by intro _ h; cases h; decide
theorem fclass (x0) : Statement (.fclass x0) := by intro _ h; cases h; decide
theorem fdiv (x0) : Statement (.fdiv x0) := by intro _ h; cases h; decide
theorem frcp (x0) : Statement (.frcp x0) := by intro _ h; cases h; decide
theorem frsq (x0) : Statement (.frsq x0) := by intro _ h; cases h; decide
theorem fsqrt (x0) : Statement (.fsqrt x0) := by intro _ h; cases h; decide
theorem fexp2 (x0) : Statement (.fexp2 x0) := by intro _ h; cases h; decide
theorem flog2 (x0) : Statement (.flog2 x0) := by intro _ h; cases h; decide
theorem fsin (x0) : Statement (.fsin x0) := by intro _ h; cases h; decide
theorem fcos (x0) : Statement (.fcos x0) := by intro _ h; cases h; decide
theorem fround (x0) : Statement (.fround x0) := by intro _ h; cases h; decide
theorem cvt (x0) : Statement (.cvt x0) := by intro _ h; cases h; decide
theorem pack (x0) : Statement (.pack x0) := by intro _ h; cases h; decide
theorem unpk (x0) : Statement (.unpk x0) := by intro _ h; cases h; decide
theorem shfl (x0) : Statement (.shfl x0) := by intro _ h; cases h; decide
theorem shflx (x0) : Statement (.shflx x0) := by intro _ h; cases h; decide
theorem shfld (x0) : Statement (.shfld x0) := by intro _ h; cases h; decide
theorem vote (x0) : Statement (.vote x0) := by intro _ h; cases h; decide
theorem ballot (x0) : Statement (.ballot x0) := by intro _ h; cases h; decide
theorem matchLanes (x0) : Statement (.matchLanes x0) := by intro _ h; cases h; decide
theorem redi (x0) : Statement (.redi x0) := by intro _ h; cases h; decide
theorem redf (x0) : Statement (.redf x0) := by intro _ h; cases h; decide
theorem scan (x0) : Statement (.scan x0) := by intro _ h; cases h; decide
theorem bcast (x0) : Statement (.bcast x0) := by intro _ h; cases h; decide
theorem firstl (x0) : Statement (.firstl x0) := by intro _ h; cases h; decide
theorem lanes (x0) : Statement (.lanes x0) := by intro _ h; cases h; decide
theorem halfNop (x0) : Statement (.halfNop x0) := by intro _ h; cases h; decide
theorem halfVadd (x0 x1 x2) : Statement (.halfVadd x0 x1 x2) := by intro _ h; cases h; decide
theorem halfVsub (x0 x1 x2) : Statement (.halfVsub x0 x1 x2) := by intro _ h; cases h; decide
theorem halfVmul (x0 x1 x2) : Statement (.halfVmul x0 x1 x2) := by intro _ h; cases h; decide
theorem halfVand (x0 x1 x2) : Statement (.halfVand x0 x1 x2) := by intro _ h; cases h; decide
theorem halfVor (x0 x1 x2) : Statement (.halfVor x0 x1 x2) := by intro _ h; cases h; decide
theorem halfVxor (x0 x1 x2) : Statement (.halfVxor x0 x1 x2) := by intro _ h; cases h; decide
theorem halfVandn (x0 x1 x2) : Statement (.halfVandn x0 x1 x2) := by intro _ h; cases h; decide
theorem halfVshl (x0 x1 x2) : Statement (.halfVshl x0 x1 x2) := by intro _ h; cases h; decide
theorem halfVshr (x0 x1 x2) : Statement (.halfVshr x0 x1 x2) := by intro _ h; cases h; decide
theorem halfVsra (x0 x1 x2) : Statement (.halfVsra x0 x1 x2) := by intro _ h; cases h; decide
theorem halfVmin (x0 x1 x2 x3) : Statement (.halfVmin x0 x1 x2 x3) := by intro _ h; cases h; decide
theorem halfVmax (x0 x1 x2 x3) : Statement (.halfVmax x0 x1 x2 x3) := by intro _ h; cases h; decide
theorem halfVmov (x0 x1 x2) : Statement (.halfVmov x0 x1 x2) := by intro _ h; cases h; decide
theorem halfVabs (x0 x1 x2) : Statement (.halfVabs x0 x1 x2) := by intro _ h; cases h; decide
theorem halfVneg (x0 x1 x2) : Statement (.halfVneg x0 x1 x2) := by intro _ h; cases h; decide
theorem halfFadd (x0 x1 x2) : Statement (.halfFadd x0 x1 x2) := by intro _ h; cases h; decide
theorem halfFsub (x0 x1 x2) : Statement (.halfFsub x0 x1 x2) := by intro _ h; cases h; decide
theorem halfFmul (x0 x1 x2) : Statement (.halfFmul x0 x1 x2) := by intro _ h; cases h; decide
theorem halfFmin (x0 x1 x2) : Statement (.halfFmin x0 x1 x2) := by intro _ h; cases h; decide
theorem halfFmax (x0 x1 x2) : Statement (.halfFmax x0 x1 x2) := by intro _ h; cases h; decide
theorem halfFabs (x0 x1 x2) : Statement (.halfFabs x0 x1 x2) := by intro _ h; cases h; decide
theorem halfFneg (x0 x1 x2) : Statement (.halfFneg x0 x1 x2) := by intro _ h; cases h; decide
theorem halfFfma (x0 x1 x2 x3) : Statement (.halfFfma x0 x1 x2 x3) := by intro _ h; cases h; decide
theorem halfVli (x0 x1 x2) : Statement (.halfVli x0 x1 x2) := by intro _ h; cases h; decide
theorem halfCvt (x0 x1 x2 x3) : Statement (.halfCvt x0 x1 x2 x3) := by intro _ h; cases h; decide
theorem halfShflx (x0 x1 x2 x3) : Statement (.halfShflx x0 x1 x2 x3) := by intro _ h; cases h; decide
theorem ldp (x0) : Statement (.ldp x0) := by intro _ h; cases h; decide
theorem stp (x0) : Statement (.stp x0) := by intro _ h; cases h; decide
theorem lds (x0) : Statement (.lds x0) := by intro _ h; cases h; decide
theorem sts (x0) : Statement (.sts x0) := by intro _ h; cases h; decide
theorem ldx (x0) : Statement (.ldx x0) := by intro _ h; cases h; decide
theorem stx (x0) : Statement (.stx x0) := by intro _ h; cases h; decide
theorem ldt (x0) : Statement (.ldt x0) := by intro _ h; cases h; decide
theorem mfrag (x0) : Statement (.mfrag x0) := by intro _ h; cases h; decide
theorem prefx (x0) : Statement (.prefx x0) := by intro _ h; cases h; decide
theorem atom (x0) : Statement (.atom x0) := by intro _ h; cases h; decide
theorem cas (x0) : Statement (.cas x0) := by intro _ h; cases h; decide
theorem fence (x0 x1 x2) : Statement (.fence x0 x1 x2) := by intro _ h; cases h; decide
theorem hdef (x0 x1 x2) : Statement (.hdef x0 x1 x2) := by intro _ h; cases h; decide
theorem hdefAlias (x0 x1 x2 x3) : Statement (.hdefAlias x0 x1 x2 x3) := by intro _ h; cases h; decide
theorem waitc (x0 x1 x2) : Statement (.waitc x0 x1 x2) := by intro _ h; cases h; decide
theorem scrsz (x0 x1 x2) : Statement (.scrsz x0 x1 x2) := by intro _ h; cases h; decide
theorem scrszComplete (x0) : Statement (.scrszComplete x0) := by intro _ h; cases h
theorem cpy (x0 x1 x2 x3) : Statement (.cpy x0 x1 x2 x3) := by intro _ h; cases h; decide
theorem copyCompletion (x0) : Statement (.copyCompletion x0) := by intro _ h; cases h
theorem countedFillComplete (x0 x1) : Statement (.countedFillComplete x0 x1) := by intro _ h; cases h
theorem pub (x0 x1) : Statement (.pub x0 x1) := by intro _ h; cases h; decide
theorem pubSwap (x0) : Statement (.pubSwap x0) := by intro _ h; cases h
theorem shape (x0 x1 x2 x3 x4 x5 x6) : Statement (.shape x0 x1 x2 x3 x4 x5 x6) := by intro _ h; cases h; decide
theorem mzero (x0) : Statement (.mzero x0) := by intro _ h; cases h; decide
theorem mloop (x0 x1 x2 x3 x4 x5 x6) : Statement (.mloop x0 x1 x2 x3 x4 x5 x6) := by intro _ h; cases h; decide
theorem mloopKStep (x0 x1) : Statement (.mloopKStep x0 x1) := by intro _ h; cases h
theorem mdrain (x0 x1 x2 x3 x4) : Statement (.mdrain x0 x1 x2 x3 x4) := by intro _ h; cases h; decide
theorem mdrainRowPush (x0 x1) : Statement (.mdrainRowPush x0 x1) := by intro _ h; cases h
theorem mvn (x0 x1 x2 x3 x4 x5 x6 x7) : Statement (.mvn x0 x1 x2 x3 x4 x5 x6 x7) := by intro _ h; cases h; decide
theorem mvnCompletion (x0) : Statement (.mvnCompletion x0) := by intro _ h; cases h
theorem gath (x0 x1) : Statement (.gath x0 x1) := by intro _ h; cases h; decide
theorem gatherCompletion (x0) : Statement (.gatherCompletion x0) := by intro _ h; cases h
theorem coll (x0 x1 x2 x3) : Statement (.coll x0 x1 x2 x3) := by intro _ h; cases h; decide
theorem collectiveCompletion (x0) : Statement (.collectiveCompletion x0) := by intro _ h; cases h
theorem rcrel (x0) : Statement (.rcrel x0) := by intro _ h; cases h; decide
theorem qstat (x0 x1) : Statement (.qstat x0 x1) := by intro _ h; cases h; decide
theorem bar (x0 x1) : Statement (.bar x0 x1) := by intro _ h; cases h; decide
theorem arrive (x0 x1 x2) : Statement (.arrive x0 x1 x2) := by intro _ h; cases h; decide
theorem await (x0 x1) : Statement (.await x0 x1) := by intro _ h; cases h; decide
theorem yield (x0 x1) : Statement (.yield x0 x1) := by intro _ h; cases h; decide
theorem mwait (x0 x1 x2 x3 x4 x5 x6) : Statement (.mwait x0 x1 x2 x3 x4 x5 x6) := by intro _ h; cases h; decide
theorem mwaitTimeout (x0 x1) : Statement (.mwaitTimeout x0 x1) := by intro _ h; cases h
theorem role (x0 x1) : Statement (.role x0 x1) := by intro _ h; cases h; decide
theorem regclm (x0) : Statement (.regclm x0) := by intro _ h; cases h; decide
theorem regrel (x0) : Statement (.regrel x0) := by intro _ h; cases h; decide
theorem claimGrant (x0) : Statement (.claimGrant x0) := by intro _ h; cases h
theorem regroup (x0) : Statement (.regroup x0) := by intro _ h; cases h; decide
theorem tfence : Statement .tfence := by intro _ h; cases h; decide
theorem trap (x0) : Statement (.trap x0) := by intro _ h; cases h; decide
theorem trapRet : Statement .trapRet := by intro _ h; cases h; decide
theorem brk (x0) : Statement (.brk x0) := by intro _ h; cases h; decide
theorem handlerEntry (x0) : Statement (.handlerEntry x0) := by intro _ h; cases h
theorem sysc (x0 x1 x2 x3 x4) : Statement (.sysc x0 x1 x2 x3 x4) := by intro _ h; cases h; decide
theorem alloc (x0 x1 x2) : Statement (.alloc x0 x1 x2) := by intro _ h; cases h
theorem free (x0 x1 x2) : Statement (.free x0 x1 x2) := by intro _ h; cases h
theorem syscDeadlineExpiry (x0 x1) : Statement (.syscDeadlineExpiry x0 x1) := by intro _ h; cases h
theorem deferredResultReturn (x0 x1) : Statement (.deferredResultReturn x0 x1) := by intro _ h; cases h
theorem teamPlacement (x0) : Statement (.teamPlacement x0) := by intro _ h; cases h
theorem groupRetirement (x0) : Statement (.groupRetirement x0) := by intro _ h; cases h
theorem pendingPromotion (x0 x1) : Statement (.pendingPromotion x0 x1) := by intro _ h; cases h
theorem priorityAging (x0 x1) : Statement (.priorityAging x0 x1) := by intro _ h; cases h
theorem icacheLineArrival (x0 x1) : Statement (.icacheLineArrival x0 x1) := by intro _ h; cases h
theorem machineCheck (x0) : Statement (.machineCheck x0) := by intro _ h; cases h
theorem ldm (x0) : Statement (.ldm x0) := by intro _ h; cases h; decide
theorem stm (x0) : Statement (.stm x0) := by intro _ h; cases h; decide
theorem atomm (x0) : Statement (.atomm x0) := by intro _ h; cases h; decide
theorem mfp (x0 x1 x2) : Statement (.mfp x0 x1 x2) := by intro _ h; cases h; decide
theorem mtp (x0 x1 x2) : Statement (.mtp x0 x1 x2) := by intro _ h; cases h; decide
theorem eret : Statement .eret := by intro _ h; cases h; decide
theorem wfi : Statement .wfi := by intro _ h; cases h; decide
theorem wfiWake (x0) : Statement (.wfiWake x0) := by intro _ h; cases h
theorem halt : Statement .halt := by intro _ h; cases h; decide
theorem tlbinvAsid (x0 x1) : Statement (.tlbinvAsid x0 x1) := by intro _ h; cases h; decide
theorem tlbinvVa (x0 x1) : Statement (.tlbinvVa x0 x1) := by intro _ h; cases h; decide
theorem tlbinvVmid (x0 x1) : Statement (.tlbinvVmid x0 x1) := by intro _ h; cases h; decide
theorem tlbinvIpa (x0 x1) : Statement (.tlbinvIpa x0 x1) := by intro _ h; cases h; decide
theorem tlbinvAll (x0 x1) : Statement (.tlbinvAll x0 x1) := by intro _ h; cases h; decide
theorem encmk (x0 x1) : Statement (.encmk x0 x1) := by intro _ h; cases h; decide
theorem enckill (x0 x1) : Statement (.enckill x0 x1) := by intro _ h; cases h; decide
theorem assign (x0 x1) : Statement (.assign x0 x1) := by intro _ h; cases h; decide
theorem reclaim (x0 x1) : Statement (.reclaim x0 x1) := by intro _ h; cases h; decide
theorem evict (x0 x1) : Statement (.evict x0 x1) := by intro _ h; cases h; decide
theorem restoreFrames (x0 x1) : Statement (.restoreFrames x0 x1) := by intro _ h; cases h; decide
theorem dbgrd (x0 x1) : Statement (.dbgrd x0 x1) := by intro _ h; cases h; decide
theorem quartzTrapEntry (x0 x1 x2 x3) : Statement (.quartzTrapEntry x0 x1 x2 x3) := by intro _ h; cases h
theorem interruptEntry (x0) : Statement (.interruptEntry x0) := by intro _ h; cases h
theorem timerExpiry (x0) : Statement (.timerExpiry x0) := by intro _ h; cases h
theorem kick (x0 x1) : Statement (.kick x0 x1) := by intro _ h; cases h
theorem tcmpWrite (x0 x1) : Statement (.tcmpWrite x0 x1) := by intro _ h; cases h
theorem doorbellRing (x0) : Statement (.doorbellRing x0) := by intro _ h; cases h
theorem doorbellClear (x0) : Statement (.doorbellClear x0) := by intro _ h; cases h
theorem bmrepRead (x0) : Statement (.bmrepRead x0) := by intro _ h; cases h
theorem translationWalk (x0 x1 x2) : Statement (.translationWalk x0 x1 x2) := by intro _ h; cases h
theorem pageRequestEntry (x0) : Statement (.pageRequestEntry x0) := by intro _ h; cases h
theorem prqheadWrite (x0) : Statement (.prqheadWrite x0) := by intro _ h; cases h
theorem prqdone (x0) : Statement (.prqdone x0) := by intro _ h; cases h
theorem preempt (x0 x1 x2 x3 x4) : Statement (.preempt x0 x1 x2 x3 x4) := by intro _ h; cases h
theorem forcedSave (x0) : Statement (.forcedSave x0) := by intro _ h; cases h
theorem imageTaken (x0) : Statement (.imageTaken x0) := by intro _ h; cases h
theorem lateResultArrival (x0) : Statement (.lateResultArrival x0) := by intro _ h; cases h
theorem restore (x0 x1 x2 x3 x4) : Statement (.restore x0 x1 x2 x3 x4) := by intro _ h; cases h
theorem restorePlacement (x0) : Statement (.restorePlacement x0) := by intro _ h; cases h
theorem feResume (x0 x1 x2 x3) : Statement (.feResume x0 x1 x2 x3) := by intro _ h; cases h
theorem stopRecordWrite (x0) : Statement (.stopRecordWrite x0) := by intro _ h; cases h
theorem festrdWrite (x0 x1) : Statement (.festrdWrite x0 x1) := by intro _ h; cases h
theorem feirqAck (x0 x1) : Statement (.feirqAck x0 x1) := by intro _ h; cases h
theorem queueEnable (x0 x1) : Statement (.queueEnable x0 x1) := by intro _ h; cases h
theorem queueDisable (x0 x1) : Statement (.queueDisable x0 x1) := by intro _ h; cases h
theorem queueFreeze (x0 x1) : Statement (.queueFreeze x0 x1) := by intro _ h; cases h
theorem queueUnfreeze (x0 x1) : Statement (.queueUnfreeze x0 x1) := by intro _ h; cases h
theorem queueResume (x0 x1) : Statement (.queueResume x0 x1) := by intro _ h; cases h
theorem queueDoorbell (x0 x1 x2) : Statement (.queueDoorbell x0 x1 x2) := by intro _ h; cases h
theorem launchPacket (x0 x1) : Statement (.launchPacket x0 x1) := by intro _ h; cases h
theorem prologuePacket (x0 x1) : Statement (.prologuePacket x0 x1) := by intro _ h; cases h
theorem prologueExit (x0) : Statement (.prologueExit x0) := by intro _ h; cases h
theorem prologueRunLimit (x0) : Statement (.prologueRunLimit x0) := by intro _ h; cases h
theorem barrierPacket (x0 x1) : Statement (.barrierPacket x0 x1) := by intro _ h; cases h
theorem barrierEvaluation (x0 x1) : Statement (.barrierEvaluation x0 x1) := by intro _ h; cases h
theorem signalPacket (x0 x1) : Statement (.signalPacket x0 x1) := by intro _ h; cases h
theorem copyPacket (x0 x1) : Statement (.copyPacket x0 x1) := by intro _ h; cases h
theorem predPacket (x0 x1) : Statement (.predPacket x0 x1) := by intro _ h; cases h
theorem callPacket (x0 x1) : Statement (.callPacket x0 x1) := by intro _ h; cases h
theorem joinPacket (x0 x1) : Statement (.joinPacket x0 x1) := by intro _ h; cases h
theorem graphPacket (x0 x1) : Statement (.graphPacket x0 x1) := by intro _ h; cases h
theorem abortPacket (x0 x1) : Statement (.abortPacket x0 x1) := by intro _ h; cases h
theorem gridCompletion (x0) : Statement (.gridCompletion x0) := by intro _ h; cases h
theorem residencyGate (x0 x1) : Statement (.residencyGate x0 x1) := by intro _ h; cases h
theorem kernelNode (x0 x1) : Statement (.kernelNode x0 x1) := by intro _ h; cases h
theorem copyNode (x0 x1) : Statement (.copyNode x0 x1) := by intro _ h; cases h
theorem condNode (x0 x1) : Statement (.condNode x0 x1) := by intro _ h; cases h
theorem whileNode (x0 x1) : Statement (.whileNode x0 x1) := by intro _ h; cases h
theorem graphJoinNode (x0 x1) : Statement (.graphJoinNode x0 x1) := by intro _ h; cases h
theorem endNode (x0 x1) : Statement (.endNode x0 x1) := by intro _ h; cases h
theorem fepartWrite (x0 x1) : Statement (.fepartWrite x0 x1) := by intro _ h; cases h
theorem colsetWrite (x0 x1 x2) : Statement (.colsetWrite x0 x1 x2) := by intro _ h; cases h
theorem partitionReset (x0) : Statement (.partitionReset x0) := by intro _ h; cases h
theorem shaleRecord : Statement .shaleRecord := by intro _ h; cases h
theorem shaleStop : Statement .shaleStop := by intro _ h; cases h
theorem move : Statement .move := by intro _ h; cases h
theorem getVersion (x0) : Statement (.getVersion x0) := by intro _ h; cases h
theorem getCapabilities (x0) : Statement (.getCapabilities x0) := by intro _ h; cases h
theorem negotiateAlgorithms (x0 x1) : Statement (.negotiateAlgorithms x0 x1) := by intro _ h; cases h
theorem getDigests (x0) : Statement (.getDigests x0) := by intro _ h; cases h
theorem getCertificate (x0 x1) : Statement (.getCertificate x0 x1) := by intro _ h; cases h
theorem challenge (x0) : Statement (.challenge x0) := by intro _ h; cases h
theorem getMeasurements (x0 x1) : Statement (.getMeasurements x0 x1) := by intro _ h; cases h
theorem keyExchange (x0 x1) : Statement (.keyExchange x0 x1) := by intro _ h; cases h
theorem finish (x0) : Statement (.finish x0) := by intro _ h; cases h
theorem endSession (x0) : Statement (.endSession x0) := by intro _ h; cases h
theorem bindRequest (x0 x1 x2 x3) : Statement (.bindRequest x0 x1 x2 x3) := by intro _ h; cases h
theorem bindFree (x0 x1) : Statement (.bindFree x0 x1) := by intro _ h; cases h
theorem tdispStop (x0 x1) : Statement (.tdispStop x0 x1) := by intro _ h; cases h
theorem deviceRequest (x0 x1 x2 x3 x4 x5 x6) : Statement (.deviceRequest x0 x1 x2 x3 x4 x5 x6) := by intro _ h; cases h
theorem inboundWrite (x0 x1 x2) : Statement (.inboundWrite x0 x1 x2) := by intro _ h; cases h
theorem streamRequest (x0 x1 x2 x3 x4 x5 x6) : Statement (.streamRequest x0 x1 x2 x3 x4 x5 x6) := by intro _ h; cases h
theorem streamMessage (x0 x1 x2 x3 x4) : Statement (.streamMessage x0 x1 x2 x3 x4) := by intro _ h; cases h
theorem streamRekey (x0 x1) : Statement (.streamRekey x0 x1) := by intro _ h; cases h
theorem oldKeyExpiry (x0 x1) : Statement (.oldKeyExpiry x0 x1) := by intro _ h; cases h
theorem migrationRequest (x0 x1 x2 x3) : Statement (.migrationRequest x0 x1 x2 x3) := by intro _ h; cases h
theorem remoteAtomic (x0 x1 x2 x3 x4) : Statement (.remoteAtomic x0 x1 x2 x3 x4) := by intro _ h; cases h
theorem dbgArm (x0 x1) : Statement (.dbgArm x0 x1) := by intro _ h; cases h
theorem dbgPatch (x0 x1) : Statement (.dbgPatch x0 x1) := by intro _ h; cases h
theorem dbgWatch (x0 x1) : Statement (.dbgWatch x0 x1) := by intro _ h; cases h
theorem dbgResume (x0 x1) : Statement (.dbgResume x0 x1) := by intro _ h; cases h
theorem debugEventWrite : Statement .debugEventWrite := by intro _ h; cases h
theorem dbgEventConsume (x0) : Statement (.dbgEventConsume x0) := by intro _ h; cases h
theorem boot : Statement .boot := by intro _ h; cases h
theorem watchdogExpiry (x0) : Statement (.watchdogExpiry x0) := by intro _ h; cases h
theorem liveUpdate : Statement .liveUpdate := by intro _ h; cases h
theorem recovery (x0 x1) : Statement (.recovery x0 x1) := by intro _ h; cases h
theorem coreRetire (x0 x1) : Statement (.coreRetire x0 x1) := by intro _ h; cases h
theorem phyRecalibration (x0) : Statement (.phyRecalibration x0) := by intro _ h; cases h
theorem freezePin : Statement .freezePin := by intro _ h; cases h
theorem freezeRequest : Statement .freezeRequest := by intro _ h; cases h
theorem thermalLimit (x0) : Statement (.thermalLimit x0) := by intro _ h; cases h
theorem platformRegisterWrite (x0 x1 x2 x3) : Statement (.platformRegisterWrite x0 x1 x2 x3) := by intro _ h; cases h
theorem accessReturn (x0 x1) : Statement (.accessReturn x0 x1) := by intro _ h; cases h
theorem frameScrubComplete (x0) : Statement (.frameScrubComplete x0) := by intro _ h; cases h
theorem fetcherStaleTimeout : Statement .fetcherStaleTimeout := by intro _ h; cases h
theorem peerUnreachable (x0 x1) : Statement (.peerUnreachable x0 x1) := by intro _ h; cases h
theorem powerLoss : Statement .powerLoss := by intro _ h; cases h
theorem illegalOpcode (x0) : Statement (.illegalOpcode x0) := by intro _ h; cases h
theorem migrationRestoreReport (x0) : Statement (.migrationRestoreReport x0) := by intro _ h; cases h
theorem migrationKeyImport (x0 x1 x2 x3) : Statement (.migrationKeyImport x0 x1 x2 x3) := by intro _ h; cases h
theorem debugPortAck : Statement .debugPortAck := by intro _ h; cases h
theorem scanReadOut : Statement .scanReadOut := by intro _ h; cases h

end Sys2Proof.Laws.Opcode
end

