-- ==== Sys2Proof/Laws/Seal.lean ====
section
/-! SUPPORT. Laws of sealed pages: what a module has sealed opens again, from its image and from a far memory that holds the image. -/

namespace Sys2Proof

open Machine

@[simp] theorem leBytes_length (n x : Nat) : (leBytes n x).length = n := by
  induction n generalizing x with
  | zero => rfl
  | succ n ih => simp [leBytes, ih]

@[simp] theorem sealImage_length (key eid version va : Nat) (plain : List Byte) :
    (sealImage key eid version va plain).length = 65600 := by
  simp [sealImage, sealHeader]

/-- The header of an image, its tag apart, says which page of which enclave it is, and its last 32 bytes are 0 (R386). -/
theorem sealImage_header (key eid version va : Nat) (plain : List Byte) :
    ((sealImage key eid version va plain).drop 65536).take 16 = (sealHeader eid version va 0).take 16 ∧
    (sealImage key eid version va plain).drop 65568 = List.replicate 32 0 := by
  constructor
  · rw [sealImage, List.drop_append_of_le_length (by simp), List.drop_eq_nil_of_le (by simp), List.nil_append]
    simp [sealHeader, List.take_append]
  · rw [sealImage, List.drop_append, List.drop_eq_nil_of_le (by simp), List.nil_append]
    simp only [sealHeader, List.length_map, List.length_range]
    rw [List.drop_append, List.drop_eq_nil_of_le (by simp)]
    simp

/-- An image opens to the page that its seal stands for, when that is the only seal of its key, version and page (R387). -/
theorem openImage_sealImage (s : State) (eid va : Nat) (x : Seal) (hs : s.basalt.seals = [x]) (hv : x.vpage = va / 65536) :
    openImage s x.key eid x.version va (sealImage x.key eid x.version va (sealPlain x)) = some (sealPlain x) := by
  have h := sealImage_header x.key eid x.version va (sealPlain x)
  simp [openImage, h.1, h.2, hs, hv]

/-- An image that a far memory holds reads back whole. -/
theorem readBytes_farImage (key eid version va loc : Nat) (plain : List Byte) :
    readBytes (writeBytes [] loc (sealImage key eid version va plain)) loc 65600 = sealImage key eid version va plain := by
  have h := readBytes_writeBytes loc (sealImage key eid version va plain) memWf_nil
  rwa [sealImage_length] at h

end Sys2Proof
end

