-- ==== Sys2Proof/Tests/Slice0.lean ====
section
/-! SUPPORT. Tests: words written out from the encoding tables of the manual, ill-formed terms that WellFormed refuses, and for
every claim a state and operands that meet its hypotheses, with what the manual says comes of them. -/

namespace Sys2Proof.Tests

set_option Elab.async false

open Sys2Proof Sys2Proof.Machine

/-! ### Words by their fields (R164, R165): the widths are the columns of the table -/

def fV (op : BitVec 8) (d a b c : Sel) (ty : BitVec 6) (md k : BitVec 4) (fn : BitVec 8) : W64 :=
  0#2 ++ op ++ d ++ a ++ b ++ c ++ ty ++ md ++ k ++ fn
def fI (op : BitVec 8) (d a : Sel) (imm : W32) (fn : BitVec 6) : W64 := 0#2 ++ op ++ d ++ a ++ imm ++ fn
def fM (op : BitVec 8) (d base index : Sel) (off : BitVec 20) (wt : BitVec 4) (sv : BitVec 2) (k : BitVec 4) : W64 :=
  0#2 ++ op ++ d ++ base ++ index ++ off ++ wt ++ sv ++ k
def fA (op : BitVec 8) (d base index data : Sel) (o : BitVec 4) (order scope use : BitVec 3) (wd : BitVec 2) (sp : BitVec 1)
    (k : BitVec 4) (uni : BitVec 1) : W64 :=
  0#2 ++ op ++ d ++ base ++ index ++ data ++ o ++ order ++ scope ++ use ++ wd ++ sp ++ k ++ uni ++ 0#1
def fB (op : BitVec 8) (creg : Sel) (cc : BitVec 4) (hint : BitVec 2) (off : W32) (aux : BitVec 8) : W64 :=
  0#2 ++ op ++ creg ++ cc ++ hint ++ off ++ aux
def fE (op : BitVec 8) (d e1 e2 e3 e4 e5 : Sel) (fn : BitVec 6) : W64 := 0#2 ++ op ++ d ++ e1 ++ e2 ++ e3 ++ e4 ++ e5 ++ fn
def hf (hop : BitVec 5) (d a : Sel) (sub : BitVec 10) : BitVec 31 := hop ++ d ++ a ++ sub
def fD (a b : BitVec 31) : W64 := 1#2 ++ a ++ b

/-- What a word decodes to. -/
def got (w : W64) : Option Decoded := match decode w with | .ok d => some d | .error _ => none

/-- Every word of a list decodes to its instruction, and is what the encoder gives for it. -/
def reads (l : List (W64 × Instr)) : Bool :=
  l.all (fun p => got p.1 == some { settle := false, instr := p.2 } && encode p.2 == p.1)

/-- Every word of a list is refused: with none as an unassigned code, with some op for a reserved field of opcode op. -/
def refuses (l : List W64) (op : Option Nat) : Bool :=
  l.all (fun w => match decode w, op with
    | .error .illegal, none => true
    | .error (.reserved o), some p => o == p
    | _, _ => false)

/-! ### Decoding: one written-out word at least for every constructor that is a word (R163 to R177) -/

/-- The words that the manual prints with their assembly (chapters 6 to 16). -/
def printedWords : List (W64 × Instr) :=
  [(0x0041404000000420, .sadd .i64 5 1 (.imm 16)),
   (0x2101008000010100, .ldx { data := 4, base := 2, index := 0, off := 0x40, wt := .b32, sv := .s0, k := 0 }),
   (0x06C2000000000020, .sli .i64 8 0), (0x06C2800000000060, .sli .i64 10 1), (0x0A00000000000000, .exit 0),
   (0x1840C04080538000, .pack { d := 3, a := 1, b := 2, c := 1, bs := false, ty := .e4m3, sat := true, rm := none, k := 0 }),
   (0x1E00C08000100400, .scan { d := 3, a := 2, b := 0, c := 0, bs := false, ty := .f32, sat := false, rm := none, k := 4 }),
   (0x280200C082402244,
     .atom { d := 8, base := 3, index := 2, data := 9, op := .add, order := .rlx, scope := .die, use := .unpaired,
             w64 := false, scr := true, k := 1, uni := false }),
   (0x3441400000000080, .arrive 5 2 0), (0x3480014000000080, .await 5 2), (0x3400000000000080, .bar 2 0),
   (0x2C85004080D54000, .shape 0x14 1 2 3 .fp4 .fp4 false), (0x2D000006C705C740, .mloop 0 0 0x1B 0x1C 0x17 0x1D false),
   (0x2D400056C0058000, .mdrain 1 0x5B 0 .dl8 false), (0x2D40001656848000, .mdrain 0 0x59 0x5A .bf16 false),
   (0x3540018000000000, .role 6 0), (0x3442000000000000, .arrive 8 0 0), (0x3580000000000040, .regclm 1),
   (0x2240032000438340, .hdefAlias 1 0x0C 0x0D 0x0E), (0x2C05004042C00000, .cpy 0x14 1 1 0x0B),
   (0x2880000001011000, .fence .rel .team 4), (0x2C4016C000000001, .pub .team 0x5B)]

/-- Form V operands with d = 6, a = 4, b = 8, c = 12, k = 3. -/
def vo (ty : VTy) : VOp := { d := 6, a := 4, b := 8, c := 0, bs := false, ty := ty, sat := false, rm := none, k := 3 }
def vu (ty : VTy) : VOp := { vo ty with b := 0 }

def scalarWords : List (W64 × Instr) :=
  [(fI 0x01 9 3 0x07 0x00, .sadd .i64 9 3 (.reg 7)), (fI 0x02 9 3 0x07 0x01, .ssub .n64 9 3 (.reg 7)),
   (fI 0x03 9 3 0xFFFFFFFF 0x22, .smul .i32 9 3 (.imm 0xFFFFFFFF)), (fI 0x04 9 3 0x07 0x03, .smulh .n32 9 3 (.reg 7)),
   (fI 0x05 9 3 0x07 0x00, .sdiv .i64 9 3 (.reg 7)), (fI 0x06 9 3 0x07 0x01, .srem .n64 9 3 (.reg 7)),
   (fI 0x07 0x42 3 0x43 0x04, .sand .b64 0x42 3 (.reg 0x43)), (fI 0x08 9 3 0x07 0x04, .sor .b64 9 3 (.reg 7)),
   (fI 0x09 9 3 0x07 0x24, .sxor .b64 9 3 (.imm 7)), (fI 0x0A 9 3 0x07 0x04, .sandn .b64 9 3 (.reg 7)),
   (fI 0x0B 9 3 0xFF 0x20, .sshl .i64 9 3 (.imm 255)), (fI 0x0C 9 3 0x07 0x01, .sshr .n64 9 3 (.reg 7)),
   (fI 0x0D 9 3 0x07 0x02, .ssra .i32 9 3 (.reg 7)), (fI 0x0E 9 3 0x07 0x03, .srot .n32 9 3 (.reg 7)),
   (fI 0x0F 9 3 0x07 0x00, .smin .i64 9 3 (.reg 7)), (fI 0x10 9 3 0x07 0x01, .smax .n64 9 3 (.reg 7)),
   (fI 0x11 9 3 0 0x02, .sabs .i32 9 3), (fI 0x12 9 3 0 0x00, .sclz .i64 9 3), (fI 0x13 9 3 0 0x01, .sctz .n64 9 3),
   (fI 0x14 9 3 0 0x04, .spop .b64 9 3), (fI 0x15 9 3 0x7F3F 0x20, .sbfx .i64 9 3 (.imm 0x7F3F)),
   (fI 0x16 9 3 0x07 0x03, .sbfi .n32 9 3 (.reg 7)), (fI 0x17 9 3 0 0x04, .sbrev .b64 9 3),
   (fI 0x18 9 3 0x07 0x00, .scmp .i64 9 3 (.reg 7)), (fI 0x19 9 3 0x0B07 0x04, .ssel .b64 9 3 7 0x0B),
   (fI 0x1A 9 0x50 0 0x04, .smov .b64 9 0x50), (fI 0x1B 9 0 0x80000000 0x21, .sli .n64 9 0x80000000),
   (fI 0x1C 9 0 5 0x24, .slih 9 5), (fI 0x1D 9 3 0x003F0007 0x04, .slea .b64 9 3 7 63)]

def controlWords : List (W64 × Instr) :=
  [(fB 0x20 0 0 1 0xFFFFFFFF 0, .br .likely 0xFFFFFFFF), (fB 0x21 0x43 10 2 5 0, .bc .none 0x43 .unlikely 5),
   (fB 0x22 0x43 0xF 3 5 0xFF, .bv 0x43 5 0x3FFF), (fI 0x23 5 6 0xFFFFFFF8 0, .bx 5 6 0xFFFFFFF8),
   (fB 0x24 0 0 0 7 0, .call .none 7), (fI 0x25 0 0x3F 0 0, .ret 0x3F), (fI 0x26 0 0 0 0, .join),
   (fB 0x27 7 0 2 0xFFFFFFFE 0, .loop 7 .unlikely 0xFFFFFFFE), (fI 0x28 0 0 2 0, .exit 2), (fI 0x29 16 0 4 0, .ipf 16 4),
   (fI 0x2A 0 0 0 0, .nop), (fI 0x2B 5 6 0x1F 0, .setfmt 5 6 0x1F), (fI 0x2C 5 0 0x07 0, .mfs 5 7),
   (fI 0x2D 0 5 0x03 0, .mts 3 5), (fI 0x2E 5 0 0x09 0, .sid 5 9), (fI 0x2F 5 0 0x02 0, .clk 5 2)]

def vectorWords : List (W64 × Instr) :=
  [(fV 0x30 6 4 8 0 0x04 8 3 0, .vadd { vo .i32 with sat := true }), (fV 0x31 6 4 8 0 0x08 0 3 0, .vsub (vo .n32)),
   (fV 0x32 6 4 8 0 0x00 0 3 0, .vmul (vo .b32)), (fV 0x33 6 4 8 0 0x09 0 3 0, .vmulh (vo .n64)),
   (fV 0x34 6 4 8 12 0x05 0 3 0, .vmad { vo .i64 with c := 12 }), (fV 0x35 6 4 8 0 0x04 0 3 0x80, .vdiv { vo .i32 with bs := true }),
   (fV 0x36 6 4 8 0 0x08 0 3 0, .vrem (vo .n32)), (fV 0x37 6 4 8 0 0x00 0 3 0, .vand (vo .b32)),
   (fV 0x37 6 4 8 0 0x01 0 3 1, .vor (vo .b64)), (fV 0x37 6 4 8 0 0x00 0 3 2, .vxor (vo .b32)),
   (fV 0x37 6 4 8 0 0x00 0 3 3, .vandn (vo .b32)), (fV 0x37 6 4 0 0 0x00 0 3 4, .vnot (vu .b32)),
   (fV 0x38 6 4 8 0 0x00 0 3 0, .vshl (vo .b32)), (fV 0x39 6 4 8 0 0x00 0 3 0, .vshr (vo .b32)),
   (fV 0x3A 6 4 8 0 0x04 0 3 0, .vsra (vo .i32)), (fV 0x3B 6 4 8 0 0x04 0 3 0, .vmin (vo .i32)),
   (fV 0x3C 6 4 8 0 0x08 0 3 0, .vmax (vo .n32)), (fV 0x3D 6 4 0 0 0x04 8 3 0, .vabs { vu .i32 with sat := true }),
   (fV 0x3E 6 4 0 0 0x05 0 3 0, .vneg (vu .i64)), (fV 0x3F 6 4 0 0 0x00 0 3 0, .vclz (vu .b32)),
   (fV 0x3F 6 4 0 0 0x00 0 3 1, .vpop (vu .b32)), (fV 0x40 6 4 8 0 0x04 0 3 0, .vbfx (vo .i32)),
   (fV 0x41 6 4 8 0 0x00 0 3 0, .vbfi (vo .b32)), (fV 0x42 0x45 4 8 0 0x04 0 3 5, .vcmp .ge { vo .i32 with d := 0x45 }),
   (fV 0x43 6 4 8 0x42 0x00 0 3 0, .vsel { vo .b32 with c := 0x42 }), (fV 0x44 6 0 8 0 0x01 0 3 0x80, .vmov { vo .b64 with a := 0, bs := true }),
   (fI 0x45 6 0x43 0x80000000 0, .vli 6 0x43 0x80000000),
   (fV 0x46 6 4 8 0 0x04 0 0 0x80, .vmovs { vo .i32 with bs := true, k := 0 }),
   (fV 0x47 6 4 8 12 0x02 8 3 0, .vdot4 { vo .i8 with c := 12, sat := true }),
   (fV 0x47 6 4 8 12 0x07 0 3 1, .vdot2 { vo .n16 with c := 12 })]

def floatWords : List (W64 × Instr) :=
  [(fV 0x48 6 4 8 0 0x10 0 3 0, .fadd (vo .f32)), (fV 0x49 6 4 8 0 0x11 1 3 0, .fsub { vo .f16 with rm := some .rne }),
   (fV 0x4A 6 4 8 0 0x12 4 3 0, .fmul { vo .bf16 with rm := some .rdn }),
   (fV 0x4B 6 4 8 12 0x10 11 3 0, .ffma { vo .f32 with c := 12, sat := true, rm := some .rup }),
   (fV 0x4C 6 4 8 0 0x10 0 3 0, .fmin (vo .f32)), (fV 0x4D 6 4 8 0 0x10 0 3 0, .fmax (vo .f32)),
   (fV 0x4E 6 4 0 0 0x10 0 3 0, .fabs (vu .f32)), (fV 0x4F 6 4 0 0 0x10 0 3 0, .fneg (vu .f32)),
   (fV 0x50 0x45 4 8 0 0x10 0 3 6, .fcmp .uo { vo .f32 with d := 0x45 }), (fV 0x51 6 4 0 0 0x11 0 3 0, .fclass (vu .f16)),
   (fV 0x52 6 4 8 0 0x10 2 3 0, .fdiv { vo .f32 with rm := some .rtz }), (fV 0x53 6 4 0 0 0x10 0 3 0, .frcp (vu .f32)),
   (fV 0x53 6 4 0 0 0x10 0 3 1, .frsq (vu .f32)), (fV 0x53 6 4 0 0 0x10 0 3 2, .fsqrt (vu .f32)),
   (fV 0x53 6 4 0 0 0x10 0 3 3, .fexp2 (vu .f32)), (fV 0x53 6 4 0 0 0x10 0 3 4, .flog2 (vu .f32)),
   (fV 0x53 6 4 0 0 0x10 0 3 5, .fsin (vu .f32)), (fV 0x53 6 4 0 0 0x10 0 3 6, .fcos (vu .f32)),
   (fV 0x54 6 4 0 0 0x10 3 3 0, .fround { vu .f32 with rm := some .rup }), (fV 0x60 6 4 0 0x10 0x12 0 3 0, .cvt { vu .bf16 with c := 0x10 }),
   (fV 0x61 6 4 8 3 0x15 0 3 0, .pack { vo .fp4 with c := 3 }), (fV 0x62 6 4 0 7 0x15 0 3 0, .unpk { vu .fp4 with c := 7 })]

def laneWords : List (W64 × Instr) :=
  [(fV 0x70 6 4 8 0 0 0 3 0x80, .shfl { vo .b32 with bs := true }), (fV 0x71 6 4 0 63 0 0 3 0, .shflx { vu .b32 with c := 63 }),
   (fV 0x72 6 4 0 0x81 1 0 3 0, .shfld { vu .b64 with c := 0x81 }), (fV 0x73 6 4 0 2 0 0 3 0, .vote { vu .b32 with c := 2 }),
   (fV 0x74 0x45 4 0 0 0 0 3 0, .ballot { vu .b32 with d := 0x45 }), (fV 0x75 6 4 0 0 0 0 3 0, .matchLanes (vu .b32)),
   (fV 0x76 6 4 0 0x80 0x04 8 3 0, .redi { vu .i32 with c := 0x80, sat := true }), (fV 0x77 6 4 0 1 0x10 0 3 0, .redf { vu .f32 with c := 1 }),
   (fV 0x78 6 4 0 0x42 0x04 0 3 0, .scan { vu .i32 with c := 0x42 }), (fV 0x79 6 4 8 0 0 0 3 0x80, .bcast { vo .b32 with bs := true }),
   (fV 0x7A 6 0x44 0 0 0 0 3 0, .firstl { vu .b32 with a := 0x44 }), (fV 0x7B 6 0x44 0 0x80 0 0 3 0, .lanes { vu .b32 with a := 0x44, c := 0x80 })]

/-- Dual words: half A of each hop of R174, half B `vli v5, -3`. -/
def dualWords : List (W64 × Instr) :=
  let b : BitVec 31 := hf 0x18 5 0 0xFD
  let B : Half := .vli 5 0xFD
  [(fD (hf 0 0 0 0) b, .halfNop B), (fD (hf 1 8 10 0) b, .halfVadd 8 10 B), (fD (hf 2 8 10 0) b, .halfVsub 8 10 B),
   (fD (hf 3 8 10 0) b, .halfVmul 8 10 B), (fD (hf 4 8 10 0) b, .halfVand 8 10 B), (fD (hf 5 8 10 0) b, .halfVor 8 10 B),
   (fD (hf 6 8 10 0) b, .halfVxor 8 10 B), (fD (hf 7 8 10 0) b, .halfVandn 8 10 B), (fD (hf 8 8 10 0) b, .halfVshl 8 10 B),
   (fD (hf 9 8 10 0) b, .halfVshr 8 10 B), (fD (hf 0xA 8 10 0) b, .halfVsra 8 10 B), (fD (hf 0xB 8 10 0) b, .halfVmin false 8 10 B),
   (fD (hf 0xC 8 10 1) b, .halfVmax true 8 10 B), (fD (hf 0xD 8 10 0) b, .halfVmov 8 10 B), (fD (hf 0xE 8 10 0) b, .halfVabs 8 10 B),
   (fD (hf 0xF 8 10 0) b, .halfVneg 8 10 B), (fD (hf 0x10 8 10 0) b, .halfFadd 8 10 B), (fD (hf 0x11 8 10 0) b, .halfFsub 8 10 B),
   (fD (hf 0x12 8 10 0) b, .halfFmul 8 10 B), (fD (hf 0x13 8 10 0) b, .halfFmin 8 10 B), (fD (hf 0x14 8 10 0) b, .halfFmax 8 10 B),
   (fD (hf 0x15 8 10 0) b, .halfFabs 8 10 B), (fD (hf 0x16 8 10 0) b, .halfFneg 8 10 B), (fD (hf 0x17 8 10 11) b, .halfFfma 8 10 11 B),
   (fD (hf 0x18 8 0 0x80) b, .halfVli 8 0x80 B), (fD (hf 0x19 8 10 5) b, .halfCvt .f16bf16 8 10 B),
   (fD (hf 0x1A 8 10 63) b, .halfShflx 63 8 10 B)]

def mo (wt : MWidth) (sv : SV) : MOp := { data := 8, base := 3, index := 2, off := 0xFFFF0, wt := wt, sv := sv, k := 3 }
def ao (op : AtomOp) (order : Order) : AOp :=
  { d := 8, base := 3, index := 2, data := 9, op := op, order := order, scope := .dev, use := .none, w64 := false, scr := false,
    k := 3, uni := false }

def memoryWords : List (W64 × Instr) :=
  [(fM 0x80 8 3 2 0xFFFF0 4 0 3, .ldp (mo .b32 .s0)), (fM 0x81 8 3 2 0xFFFF0 5 1 3, .stp (mo .b64 .s1)),
   (fM 0x82 8 3 2 0xFFFF0 1 0 3, .lds (mo .i8 .s0)), (fM 0x83 8 3 2 0xFFFF0 2 1 3, .sts (mo .n16 .s1)),
   (fM 0x84 8 3 2 0xFFFF0 5 2 3, .ldx (mo .b64 .s2)), (fM 0x85 8 3 2 0xFFFF0 0 0 3, .stx (mo .n8 .s0)),
   (fM 0x86 8 0x59 2 0xFFFF0 6 0 3, .ldt { mo .b128 .s0 with base := 0x59 }), (fM 0x87 8 3 2 0xFFFF0 8 1 3, .mfrag (mo .fragShared .s1)),
   (fM 0x8B 0 3 2 0xFFFF0 6 1 3, .prefx { mo .b128 .s1 with data := 0 }), (fM 0x8C 8 3 2 0xFFFF0 3 2 0, .ldm { mo .i16 .s2 with k := 0 }),
   (fM 0x8D 8 3 2 0xFFFF0 5 2 0, .stm { mo .b64 .s2 with k := 0 }), (fI 0x88 0 5 3 0, .waitc .copy 5 0),
   (fI 0x88 0 0 0xFE05 0, .waitc .syscall 0 0xFE), (fI 0x89 0x5F 5 6 0, .hdef 0x5F 5 6), (fI 0x89 0 5 0x800F0706 0, .hdefAlias 15 5 6 7),
   (fI 0x8A 9 0 31 0, .scrsz 9 0 31), (fA 0xA0 8 3 2 9 8 1 3 0 0 0 3 0, .atom (ao .xchg .acq)),
   (fA 0xA1 8 3 2 9 0 3 3 0 1 1 3 1, .cas { ao .add .acqrel with w64 := true, scr := true, uni := true }),
   (fA 0xA2 0 0 0 0xF0 0 4 4 0 0 0 0 0, .fence .seq .sys 0xF0),
   (fA 0xA3 8 3 2 9 7 2 3 0 0 0 0 1, .atomm { ao .maxN .rel with k := 0, uni := true })]

def engineWords : List (W64 × Instr) :=
  [(fE 0xB0 9 15 255 3 0 0 0, .cpy 9 15 255 3), (fE 0xB1 0 0x5A 0 0 0 0 4, .pub .sys 0x5A),
   (fE 0xB2 9 1 2 3 0x42 0 1, .shape 9 1 2 3 .e4m3 .dl8 true), (fE 0xB3 0 31 0 0 0 0 0, .mzero 31),
   (fE 0xB4 0x5A 3 1 2 4 5 1, .mloop 0x5A 3 1 2 4 5 true), (fE 0xB5 0 3 0x58 0x59 0x13 0 1, .mdrain 3 0x58 0x59 .e4m3 true),
   (fE 0xB6 9 0x58 0x59 0x5A 4 5 0x14, .mvn 9 0x58 0x59 0x5A 4 5 .dl8 true), (fE 0xB7 0 0x58 7 0 0 0 0, .gath 0x58 7),
   (fE 0xB8 0 7 9 0 0x05 0 2, .coll .max .i64 7 9), (fE 0xB9 0 0x58 0 0 0 0 0, .rcrel 0x58), (fE 0xBA 9 15 0 0 0 0 0, .qstat 9 15)]

def syncWords : List (W64 × Instr) :=
  [(fI 0xD0 0 0 0x200F 0, .bar 15 32), (fI 0xD1 9 0 0x0103 0, .arrive 9 3 1), (fI 0xD2 0 9 3 0, .await 9 3),
   (fI 0xD3 0 0 0x100 0, .yield 0 256), (fI 0xD4 9 0x58 0xFFFFFF07 0, .mwait 9 0x58 7 true true 0x3FF 0xFFF),
   (fI 0xD5 0 0 15 0, .role 0 15), (fI 0xD6 0 0 32 0, .regclm 32), (fI 0xD7 0 0 1 0, .regrel 1), (fI 0xD8 0 0 0xFFFFFFFF 0, .regroup 0xFFFFFFFF),
   (fI 0xE0 0 0 0 0, .tfence), (fI 0xE1 0 0 0xFFFF 0, .trap 0xFFFF), (fI 0xE1 0 0 0x80000000 0, .trapRet),
   (fI 0xE2 0 0 7 0, .brk 7), (fI 0xE3 8 10 0x000501FF 0, .sysc 8 10 0xFF true 5)]

def privilegedWords : List (W64 × Instr) :=
  [(fI 0xE4 9 3 0 0, .dbgrd 9 3), (fI 0xF0 9 0 0x11000008 0, .mfp 9 0x11 8), (fI 0xF1 0 3 0x10FFFFF8 0, .mtp 0x10 0xFFFFF8 3),
   (fI 0xF2 0 0 0 0, .eret), (fI 0xF3 0 0 0 0, .wfi), (fI 0xF3 0 0 0 1, .halt), (fI 0xF4 0 5 0x006 0, .tlbinvAsid 5 6),
   (fI 0xF4 0 5 0x106 0, .tlbinvVa 5 6), (fI 0xF4 0 5 0x206 0, .tlbinvVmid 5 6), (fI 0xF4 0 5 0x406 0, .tlbinvAll 5 6),
   (fI 0xF5 9 3 0 0, .encmk 9 3), (fI 0xF6 9 3 0 0, .enckill 9 3), (fI 0xF7 9 3 0 0, .assign 9 3)]

theorem test_printedWords : reads (printedWords ++ [sampleDual] ++ sampleWords) = true := by decide +kernel
theorem test_scalarWords : reads scalarWords = true := by decide +kernel
theorem test_controlWords : reads controlWords = true := by decide +kernel
theorem test_vectorWords : reads vectorWords = true := by decide +kernel
theorem test_floatWords : reads floatWords = true := by decide +kernel
theorem test_laneWords : reads laneWords = true := by decide +kernel
theorem test_dualWords : reads dualWords = true := by decide +kernel
theorem test_memoryWords : reads memoryWords = true := by decide +kernel
theorem test_engineWords : reads engineWords = true := by decide +kernel
theorem test_syncWords : reads syncWords = true := by decide +kernel
theorem test_privilegedWords : reads privilegedWords = true := by decide +kernel

/-- Bit 63 is the settle bit: the manual's `vadd.i32 v6, v4, v5 !`. -/
theorem test_settleBit : got 0x8C01810140040000 =
    some { settle := true, instr := .vadd { d := 6, a := 4, b := 5, c := 0, bs := false, ty := .i32, sat := false, rm := none, k := 0 } } := by
  decide +kernel

/-- Words with unassigned opcodes, function codes or hops (R174, R176, R177). -/
theorem test_illegalWords : refuses
    [0, fI 0x1E 0 0 0 0, fI 0x55 0 0 0 0, fI 0x90 0 0 0 0, fI 0xF8 0 0 0 0, fI 0xFF 0 0 0 0, fV 0x37 6 4 8 0 0 0 0 5, fI 0xF3 0 0 0 2,
     fD (hf 0x1B 0 0 0) (hf 0 0 0 0), fD (hf 0 0 0 0) (hf 0x1F 0 0 0), fI 0x2A 0 0 0 1] none = true := by decide +kernel

/-- Words with a reserved bit or code (R166 to R173, R359, R362). -/
theorem test_reservedWords : (refuses [fI 0x2A 1 0 0 0, fI 0x2A 0 0 1 0] (some 0x2A) && refuses [fI 0x01 9 3 7 0x05, fI 0x01 9 3 7 0x08] (some 1) &&
    refuses [fB 0x20 1 0 0 0 0, fB 0x20 0 0 3 0 0, fB 0x20 0 0 0 0 1] (some 0x20) && refuses [fB 0x22 0x43 0 0 5 0] (some 0x22) &&
    refuses [fV 0x30 6 4 8 0 0x0A 0 3 0, fV 0x30 6 4 8 0 0x04 5 3 0, fV 0x30 6 4 8 1 0x04 0 3 0] (some 0x30) &&
    refuses [fM 0x84 8 3 2 0 7 0 0, fM 0x84 8 3 2 0 4 3 0, fM 0x84 8 3 2 0 8 0 0] (some 0x84) &&
    refuses [fA 0xA0 8 3 2 9 9 1 3 0 0 0 3 0, fA 0xA0 8 3 2 9 0 0 3 0 0 0 3 0, fA 0xA0 8 3 2 9 0 1 5 0 0 0 3 0] (some 0xA0) &&
    refuses [fE 0xB2 9 1 2 3 0x21 0 0, fE 0xB2 9 1 2 3 0x55 0 1] (some 0xB2) && refuses [fI 0xF4 0 5 0x506 0] (some 0xF4) &&
    refuses [fD (hf 1 8 10 1) (hf 0 0 0 0), fD (hf 0x19 8 10 6) (hf 0 0 0 0), fD (hf 0 1 0 0) (hf 0 0 0 0)] (some 0x100)) = true := by
  decide +kernel

/-! ### Ill-formed terms, one for each check, beside a well-formed one -/

theorem test_wellFormed : [Instr.sadd .i64 9 3 (.reg 7), .vadd (vo .i64), .shape 9 1 2 3 .e4m3 .dl8 true,
    .halfFadd 8 9 (.two .vadd 11 10), .ldt { mo .b128 .s0 with base := 0x59 }, .fence .rel .die 0x0F].all wellFormed = true := by
  decide +kernel

/-- Reserved fields and codes (R166 to R173, R188 to R195, R218 to R233, R240, R251 to R274, R295, R359). -/
def illReserved : List Instr :=
  [.sabs .n64 9 3, .smulh .b64 9 3 (.reg 7), .sshl .i64 9 3 (.imm 256), .sbfx .i64 9 3 (.imm 0x40),
    .smov .i64 9 0x50, .slea .i64 9 3 7 1, .bv 0x43 5 0, .ipf 0 4, .ipf 17 4, .vadd (vo .f32), .vadd { vo .b32 with sat := true },
    .vmulh (vo .b32), .vmul { vo .i32 with rm := some .rtz }, .vnot (vo .b32), .vcmp .eq (vo .b32), .vsel (vo .i32),
    .vmov { vo .b32 with a := 4, bs := true }, .vmovs { vo .b32 with k := 0 }, .vmovs { vo .b32 with bs := true },
    .vdot4 (vo .i16), .vdot2 (vo .i8), .fadd (vo .i32), .fmin { vo .f32 with sat := true }, .fround { vu .f32 with sat := true },
    .cvt { vu .f32 with c := 0x10 }, .cvt { vu .f32 with c := 0x40 }, .cvt { vu .i32 with c := 0x10, sat := true },
    .pack { vo .f16 with c := 1 }, .pack { vo .i8 with rm := some .rne }, .unpk { vu .fp4 with c := 8 }, .shfl (vo .i32),
    .shflx { vu .b32 with c := 64 }, .shfld { vu .b32 with c := 0 }, .shfld { vu .b32 with c := 0x41 }, .vote { vu .b32 with c := 3 },
    .ballot { vu .b32 with c := 1 }, .redi { vu .b32 with c := 1 }, .redi { vu .i32 with c := 6 }, .redi { vu .i32 with c := 1, sat := true },
    .redf { vu .f32 with c := 3 }, .scan { vu .i32 with c := 0x80 }, .bcast (vo .b32), .firstl { vu .b64 with a := 0x44 },
    .lanes { vu .b32 with a := 0x44, c := 1 }, .ldp (mo .b32 .s2), .stp (mo .i8 .s0), .lds (mo .b128 .s2), .stx (mo .i16 .s0),
    .ldx (mo .fragShared .s0), .mfrag (mo .b32 .s0), .prefx { mo .i8 .s0 with data := 0 }, .prefx (mo .b32 .s0),
    .atom { ao .add .rlx with use := .none }, .atom { ao .add .seq with use := .quantum }, .atom { ao .xchg .rlx with use := .commutative },
    .cas (ao .and .seq), .fence .rlx .die 0, .fence .rel .die 0x1F, .waitc .copy 5 1, .scrsz 9 1 1, .shape 9 1 2 3 .bf16 .e4m3 false,
    .shape 9 1 2 3 .fp4 .fp4 true, .mloop 0x5A 3 1 2 4 5 false, .mdrain 3 0 0 .i32 false, .mvn 9 0x58 0x59 0x5A 4 5 .fp16 false,
    .coll .and .f32 7 9, .coll .add .b32 7 9, .bar 0 33, .arrive 9 0 33, .yield 1 1, .yield 0 257, .role 1 1, .regclm 0, .regclm 33,
    .regrel 0, .sysc 8 10 1 true 0, .sysc 8 10 1 false 1, .ldm (mo .b32 .s0), .stm { mo .i8 .s2 with k := 0 },
    .atomm (ao .add .seq), .atomm { ao .add .seq with k := 0, uni := true, scr := true }, .mfp 9 0 4, .mtp 0 12 9]

theorem test_illFormedReserved : illReserved.all (fun i => isWord i && !reservedOk i && !wellFormed i) = true := by
  decide +kernel

/-- Register classes and alignment (R55, R56, R58, R166, R170, R199, R208, R310). -/
def illRegisters : List Instr :=
  [.sadd .i64 0x58 3 (.reg 7), .sadd .i64 9 0x60 (.reg 7), .sadd .i64 9 3 (.reg 0x54), .bc .eqz 0x41 .none 1,
    .bc .any 1 .none 1, .bv 1 5 1, .bx 0x41 6 0, .ret 0x41, .loop 0 .none 1, .setfmt 0x41 6 0, .mfs 0x58 0, .mts 0 0x58, .sid 0x41 0,
    .vadd { vo .i64 with d := 7 }, .vadd { vo .i64 with a := 5 }, .vadd { vo .i32 with b := 0x60, bs := true }, .vcmp .eq (vo .i32),
    .vsel { vo .b32 with c := 5 }, .vli 6 5 1, .vmovs { vo .i32 with d := 0x45, bs := true, k := 0 }, .vote { vu .b32 with d := 0x45 },
    .ballot (vu .b32), .matchLanes { vu .b32 with d := 7 }, .redi { vu .i32 with c := 0x80, d := 0x45 }, .bcast { vo .b32 with b := 0x60, bs := true },
    .firstl (vu .b32), .lanes (vu .b32), .ldx { mo .b64 .s0 with data := 7 }, .ldx { mo .b128 .s0 with data := 10 },
    .ldx { mo .b32 .s0 with base := 0x40 }, .ldx { mo .b32 .s2 with data := 0x40 }, .ldt (mo .b32 .s0), .mfrag { mo .fragShared .s0 with data := 10 },
    .atom { ao .add .seq with w64 := true, d := 7 }, .hdef 5 5 6, .hdef 0x58 0x40 6, .cpy 0x40 1 1 1, .cpy 9 16 1 1, .pub .die 5,
    .mzero 32, .mloop 5 3 1 2 4 5 true, .mdrain 3 5 0 .bf16 false, .mvn 9 5 0x59 0x5A 4 5 .bf16 false, .gath 5 7, .coll .add .i64 7 9,
    .rcrel 5, .qstat 9 16, .arrive 0x40 0 0, .await 0x40 0, .mwait 9 0x40 7 false false 0 0, .sysc 7 10 1 false 0, .dbgrd 0x40 3,
    .mfp 0x40 0 0, .tlbinvAsid 0 0x40, .encmk 9 0x40]

theorem test_illFormedRegisters : illRegisters.all
    (fun i => isWord i && reservedOk i && !(regsOf 64 i).all (RUse.ok 256) && !wellFormed i) = true := by decide +kernel

/-- The banks of a dual word (R175), and terms that are no words at all. -/
theorem test_illFormedOther :
    (([.halfFadd 8 12 (.two .vadd 11 10), .halfVmov 8 9 (.one .vmov 12 10), .halfVadd 8 12 .nop] : List Instr).all
      (fun i => reservedOk i && (regsOf 64 i).all (RUse.ok 256) && !pairOk i && !wellFormed i) &&
     !wellFormed .powerLoss && !wellFormed (.doorbellRing 1) && !wellFormed (.illegalOpcode 0)) = true := by decide +kernel

/-! ### Small states: one core, one Quartz core, one front end, a group of 16 lanes alone on core 0 -/

def sm : State :=
  { State.reset with cores := [(0, resetCore)], dies := [(0, resetDie)], fes := [(0, resetFrontEnd)], roots := [], ue := [],
                     quartz := [(0, { resetQuartz 0 with halted := false, pc := 0x1000000 })],
                     basalt := { State.reset.basalt with blocks := State.reset.basalt.blocks.map (fun e => (e.1, { e.2 with released := true })) } }

def lau : Launch := { placeLaunch with width := 16, vregs := 64 }

/-- s3 = 40, s5 = 7, s7 = 6, s8 = -1, s9 = 1; k3 = 0x0F; v4 = lane + 1 in lanes 0 to 4, and v6 = 3,
v8 = 2 × lane, v12 = 5 in lanes 0 to 3. -/
def gr : Group :=
  { newGroup lau 0 0 0 0 with
      active := true, s := [(3, 40), (5, 7), (7, 6), (8, 0xFFFFFFFFFFFFFFFF), (9, 1)], k := [(3, 0x0F)],
      v := [(256, 1), (257, 2), (258, 3), (259, 4), (260, 5), (384, 3), (385, 3), (386, 3), (387, 3), (513, 2), (514, 4), (515, 6),
            (768, 5), (769, 5), (770, 5), (771, 5)] }

/-- The state in which a group executes on core 0. -/
def on (g : Group) : State :=
  { sm with groups := [(0, g)], teams := [(0, { newTeam lau 0 0 0 with groups := [0] })], launches := [(0, lau)],
            basalt := { sm.basalt with enclaves := [(0, placeEnclave)] }, agent := .group 0 false }

def gs : State := on gr

/-- Quartz core 0 at L2 about to execute. -/
def qs : State := { sm with agent := .quartz 0, quartz := [(0, { resetQuartz 0 with halted := false, pc := 0x1000000, s := gr.s })] }

/-! What the claims' relations say, as a test can decide it. -/

def answer (i : Instr) (s : State) : Option State :=
  if canon s then (match exec i s with | .next t => some t | _ => none) else none
def doesB (i : Instr) (s w : State) : Bool :=
  match exec i s with
  | .next t => canon s && plain t == plain (advance w) && readPc t == readPc s + 8
  | _ => false
def jumpsB (i : Instr) (s w : State) (pc : W64) : Bool :=
  match exec i s with
  | .next t => canon s && plain t == plain (writePc w pc)
  | _ => false
def faultsB (i : Instr) (s : State) (cause caddr : W64) : Bool :=
  match exec i s with
  | .next t => canon s && t.last == .faulted && (mget t.groups 0).any (fun g => g.cause == cause && g.caddr == caddr && g.s == gr.s && g.v == gr.v)
  | _ => false

/-! ### Encoding, step, reset -/

/-- DecodeOfEncode and EncodeOfDecode: an encodable instruction, and a word that decodes. -/
theorem witness_Encoding : (isWord (.evict 9 3) = true ∧ reservedOk (.evict 9 3) = true) ∧ got (encode (.evict 9 3)) = some { settle := false, instr := .assign 9 3 } ∧
    got 0x8C01810140040000 ≠ none := by decide +kernel

/-- StepRunsDecoded, a group: the word nop placed where the sequencer fetches. -/
def stepState : State := placeWord sm 0x0A80000000000000
theorem witness_StepRunsGroup :
    let c := updSeq stepState 0 0 (fun x => { x with cycle := x.cycle + 1 })
    stepState.script = [] ∧ stepState.mover = .seq 0 0 ∧ (seqOf stepState 0 0).frozen = none ∧ chooseBut c 0 0 [] = some 0 ∧
    (match mget c.groups 0 with
     | some g => (match fetchWord { c with agent := .group 0 (chooseSlot c g) } with
       | .word w s1 => w == 0x0A80000000000000 && (answer .nop s1).any (fun t => t.last != .stalled)
       | _ => false)
     | none => false) = true := by decide +kernel

/-- StepRunsDecoded, a Quartz core, and the bytes of a fetch. -/
def stepQuartz : State := placeWord sm 0x3CC0000000000001
theorem witness_StepRunsQuartz :
    (mget stepQuartz.quartz 0).any (fun q => !q.halted && !q.parked && (deliverable stepQuartz 0 q).isNone && !q.settle) = true ∧
    (match fetchWord { stepQuartz with agent := .quartz 0 } with | .word w _ => some w | _ => none) = some 0x3CC0000000000001 ∧
    (match step stepQuartz with | .next t => (mget t.quartz 0).any (·.halted) | _ => false) = true := by decide +kernel

/-- ResetCanon, ResetValues, StepKeepsCanon. -/
theorem witness_Canon : canon gs = true ∧ canon stepState = true ∧ (match step stepState with | .next t => canon t | _ => false) = true := by
  decide +kernel
theorem witness_ResetValues : (State.reset.quartz.all (fun e => srGet e.2 0 0x8A == BitVec.allOnes 64 && e.2.halted == decide (e.1 ≠ 36)) &&
    State.reset.basalt.blocks.all (fun e => !e.2.released && !e.2.held)) = true := by decide +kernel
theorem test_resetCanon : canon State.reset = true := by decide +kernel

/-! ### Scalar words -/

/-- RegisterWriteRead: s0, s9, k0, k3 as d and another register as e. -/
theorem witness_RegisterWriteRead : unitThere gs = true ∧ ([0, 9, 0x40, 0x43] : List Sel).all (fun d =>
    readReg (writeReg gs d 77) d == (if d = 0 then 0 else if d = 0x40 then BitVec.allOnes 64 else 77) &&
    readReg (writeReg gs d 77) 3 == 40) = true := by decide +kernel

/-- ScalarBinary: every operation is ready under a type it accepts and does what the claim says. -/
theorem witness_ScalarBinary : (scalarBinary.all (fun p =>
    let i := p.1 .i64 9 8 (.reg 7)
    ready i gs && doesB i gs (writeReg gs 9 (scalarBits p.2 .i64 0xFFFFFFFFFFFFFFFF 6))) &&
    scalarDivide.all (fun p =>
      let i := p.1 .n32 9 8 (.imm 0)
      ready i gs && doesB i gs (orFlags (writeReg gs 9 (scalarBits p.2 .n32 0xFFFFFFFFFFFFFFFF 0)) 2))) = true := by decide +kernel

theorem witness_ScalarUnary : (scalarUnaryOps.all (fun p =>
    ready (p.1 .i32 9 8) gs && doesB (p.1 .i32 9 8) gs (writeReg gs 9 (scalarUnary p.2 .i32 0xFFFFFFFFFFFFFFFF)))) = true := by decide +kernel

/-- ScalarOthers: scmp of -1 and 6, ssel with c = 0, slea, sli at the sign bit, slih, sbfx and sbfi of 4 bits from bit 1, smov. -/
theorem witness_ScalarOthers :
    ([(.scmp .i64 9 8 (.reg 7), 0xFFFFFFFFFFFFFFFF), (.ssel .b64 9 3 7 10, 6), (.slea .b64 9 3 7 4, 136), (.sli .i64 9 0x80000000, 0xFFFFFFFF80000000),
      (.sli .n64 9 0x80000000, 0x80000000), (.slih 9 5, 0x500000001), (.sbfx .i64 9 3 (.imm 0x0401), 4), (.sbfi .b64 9 3 (.imm 0x0401), 0x11),
      (.smov .n32 9 8, 0xFFFFFFFF)] : List (Instr × W64)).all
      (fun p => ready p.1 gs && doesB p.1 gs (writeReg gs 9 p.2)) = true := by decide +kernel

/-! ### Control -/

theorem witness_Branches : spinLow gs = true ∧
    ([(.br .none 2, gs, branchTo gs 2), (.bc .ltz 8 .none 3, gs, branchTo gs 3), (.bc .none 0x41 .none 0xFFFFFFFF, gs, branchTo gs 0xFFFFFFFF),
      (.call .none 4, writeReg gs 63 (readPc gs + 8), branchTo gs 4), (.loop 7 .none 2, writeReg gs 7 5, branchTo gs 2),
      (.bx 5 3 8, writeReg gs 5 (readPc gs + 8), 48), (.ret 3, gs, 40)] : List (Instr × State × W64)).all
      (fun p => ready p.1 gs && jumpsB p.1 gs p.2.1 p.2.2) = true ∧
    ([(.bc .gez 8 .none 3, gs), (.loop 9 .none 2, writeReg gs 9 0), (.nop, gs), (.ipf 16 1, gs)] : List (Instr × State)).all
      (fun p => ready p.1 gs && doesB p.1 gs p.2) = true ∧ branchIf .ltz (readReg gs 8) (liveSet gs) ∧
    ¬ branchIf .gez (readReg gs 8) (liveSet gs) := by
  refine ⟨?_, ?_, ?_, ?_, ?_⟩ <;> first | decide +kernel | (unfold branchIf; decide +kernel)

/-- MisalignedTarget: bx to 41, ret to 7. -/
theorem witness_MisalignedTarget : (ready (.bx 5 3 1) gs && faultsB (.bx 5 3 1) gs 0x25 0x0280000000000029 &&
    ready (.ret 5) gs && faultsB (.ret 5) gs 0x25 0x0280000000000007) = true := by decide +kernel

/-! ### Divergence: k3 holds lanes 0 to 3; the path of slot 0 starts at 0x1000000 -/

/-- The page of the groups' spill memory, held by core 0; its bytes are in frame 7. -/
def stackPage : Tlb :=
  { unit := .core 0, part := 0, tag := 0xF000, page := 0, frame := 7, kind := 0, w := true, x := false, u := true, d := true,
    frames := [7], ipas := [] }

/-- The state in which a group executes on core 0 with its stack in its spill memory. -/
def onS (g : Group) : State :=
  { on g with tlb := [stackPage], hbm := writeBytes [] (7 * 65536) (g.stack.reverse.flatMap stackEntry) }

/-- StackThere of group 0. -/
def stackThereB (s : State) : Bool :=
  match mget s.groups 0 with
  | none => false
  | some g => !g.stackNewer && viewed s 0 == s && (List.range (g.stack.length + 3)).all (fun n => (List.range n).all (fun i =>
      (match stackPlace s 0 g i n .read with | (.ok l, t) => t == s && runsOk s l | _ => false) &&
      (match stackPlace s 0 g i n .write with | (.ok l, t) => t == s && mergeOk s l | _ => false)))

def slotsOf (i : Instr) (s : State) : Option (Slot × Slot × List SEntry) :=
  match exec i s with | .next t => (mget t.groups 0).map (fun g => (g.slot0, g.slot1, g.stack)) | _ => none

/-- BvSplits with the sibling free: lanes 0 to 3 in the sibling at the target, the others here. -/
theorem witness_BvFree : ready (.bv 0x43 4 9) (onS gr) = true ∧ stackThereB (onS gr) = true ∧ live gr false &&& gRead gr 0x43 = 0xF ∧
    (slotsOf (.bv 0x43 4 9) (onS gr)).any (fun p =>
      p.2.1.st == .running && p.2.1.pc == 0x1000020 && p.2.1.exec == 0xF && p.2.1.rpc == some 0x1000048 && p.1.pc == 0x1000008 &&
      p.1.pm == 0xFFF0 && p.2.2.map (fun e => (e.pc, e.tag, e.frame, e.mask)) == [(0x1000048, 2, true, 0xFFFF)]) = true := by decide +kernel

/-- The sibling holds lanes 12 to 15, this path the others. -/
def busy : Group :=
  { gr with slot0 := { gr.slot0 with pm := 0xFFF, exec := 0xFFF }, slot1 := { gr.slot0 with pc := 0x2000, pm := 0xF000, exec := 0xF000 },
            k := [(3, 0x0F), (4, 0xFF)] }

/-- BvSplits with the sibling busy: the smaller part waits on the stack, the taken one on a tie or when it is smaller. -/
theorem witness_BvBusy : busy.slot1.st ≠ .free ∧ stackThereB (onS busy) = true ∧ ready (.bv 0x43 4 9) (onS busy) = true ∧
    (slotsOf (.bv 0x43 4 9) (onS busy)).any (fun p => p.1.pc == 0x1000008 && p.1.pm == 0xFF0 &&
      p.2.2.map (fun e => (e.pc, e.tag, e.frame, e.mask)) == [(0x1000020, 0, false, 0xF), (0x1000048, 0, true, 0xFFF)]) = true ∧
    ready (.bv 0x44 4 9) (onS busy) = true ∧
    (slotsOf (.bv 0x44 4 9) (onS busy)).any (fun p => p.1.pc == 0x1000020 && p.1.pm == 0xFF &&
      p.2.2.map (fun e => (e.pc, e.tag, e.frame, e.mask)) == [(0x1000008, 0, false, 0xF00), (0x1000048, 0, true, 0xFFF)]) = true := by
  decide +kernel

/-- JoinResumes: suspended lanes come back; the last path of a split resumes the frame. -/
def suspended : Group := { gr with slot0 := { gr.slot0 with exec := 0xF } }
def lastPath : Group :=
  { gr with slot0 := { gr.slot0 with pc := 0x1000048, pm := 0xF, exec := 0xF, rpc := some 0x1000048 },
            stack := [{ pc := 0x1000048, tag := 2, frame := true, mask := 0xFFFF, rpc := none, fmt := 0, lent := [] }] }
theorem witness_JoinResumes : stackThereB (onS suspended) = true ∧ stackThereB (onS lastPath) = true ∧ ready .join (onS suspended) = true ∧ suspended.donors = [] ∧ suspended.slot0.rpc ≠ some suspended.slot0.pc ∧
    (slotsOf .join (onS suspended)).any (fun p => p.1.exec == 0xFFFF && p.1.pc == 0x1000008) = true ∧ ready .join (onS lastPath) = true ∧
    (slotsOf .join (onS lastPath)).any (fun p => p.1.st == .running && p.1.pc == 0x1000050 && p.1.exec == 0xFFFF && p.1.rpc == none &&
      p.2.2.isEmpty && p.2.1.st == .free) = true := by decide +kernel

/-- JoinResumes: a path that ends while its sibling runs waits as Joined; its own suspended path goes on in its place. -/
def waits : Group := { lastPath with slot1 := { gr.slot0 with pm := 0xF0, exec := 0xF0 } }
def ownPath : Group := { lastPath with stack := [{ pc := 0x2000, tag := 0, frame := false, mask := 0xF0, rpc := some 0x1000048, fmt := 3, lent := [] }] }
theorem witness_JoinWaits : stackThereB (onS waits) = true ∧ stackThereB (onS ownPath) = true ∧ ready .join (onS waits) = true ∧
    ready .join (onS ownPath) = true ∧
    (slotsOf .join (onS waits)).any (fun p => p.1.st == .joined && p.1.pc == 0x1000048 && p.1.pm == 0xF && p.2.2 == waits.stack) = true ∧
    (slotsOf .join (onS ownPath)).any (fun p => p.1.st == .running && p.1.pc == 0x2000 && p.1.pm == 0xF0 && p.1.exec == 0xF0 && p.1.fmt == 3 &&
      p.1.rpc == some 0x1000048 && p.2.2.isEmpty) = true := by decide +kernel

/-- ExitRetiresLanes: a stack whose oldest entry holds lanes that end, which is written. -/
def framed : Group := { busy with stack := [{ pc := 0x1000048, tag := 2, frame := true, mask := 0xFFFF, rpc := none, fmt := 0, lent := [] }] }
theorem witness_ExitInFrame : stackThereB (onS framed) = true ∧ ready (.exit 0) (onS framed) = true ∧
    (answer (.exit 0) (onS framed)).any (fun t => (mget t.groups 0).any (fun g => g.stack.map (·.mask) == [0xF000]) &&
      readLe t.hbm (7 * 65536 + 8) 8 == 0xF000 && readLe t.hbm (7 * 65536) 8 == 0x100004D) = true ∧
    ready (.exit 0) (onS { gr with slot0 := { gr.slot0 with exec := 0 } }) = true ∧
    doesB (.exit 0) (onS { gr with slot0 := { gr.slot0 with exec := 0 } }) (onS { gr with slot0 := { gr.slot0 with exec := 0 } }) = true := by
  decide +kernel

/-- ExitRetiresLanes: the path of lanes 0 to 11 ends, that of lanes 12 to 15 goes on. -/
theorem witness_ExitRetiresLanes : ready (.exit 0) (onS busy) = true ∧ noneLent busy = true ∧ live busy false ≠ 0 ∧ busy.slot1.st ≠ .regrouping ∧
    (onS busy).groups.all (fun x => x.2.donors.isEmpty) = true ∧
    (answer (.exit 0) (onS busy)).any (fun t => (mget t.groups 0).any (fun g => g.exited == 0xFFF && g.slot1.pm == 0xF000 && g.s == gr.s)) = true := by
  decide +kernel

/-! ### Checks, causes, special registers -/

def idle : State := on { gr with slot0 := { gr.slot0 with exec := 0 } }

/-- CheckOrder: out of profile, privileged with a bad register too, reserved before register before pairing, and an empty EXEC. -/
theorem witness_CheckOrder :
    (faultsB (.ldm { mo .i8 .s2 with k := 0 }) gs 0x40 0x0280000001000000 && faultsB (.dbgrd 0x40 3) gs 0x44 0x0280000001000000 &&
     faultsB (.mtp 0 12 0x40) gs 0x44 0x0280000001000000 && faultsB (.sabs .n64 0x58 3) gs 0x43 0x0280000001000000 &&
     faultsB (.sabs .i64 0x58 3) gs 0x41 0x0280000001000000 && faultsB (.halfFadd 8 64 .nop) gs 0x41 0x0280000001000000 &&
     faultsB (.halfFadd 8 12 .nop) gs 0x42 0x0280000001000000 && faultsB (.sid 9 13) gs 0x43 0x0280000001000000 &&
     live (mget idle.groups 0 |>.getD gr) false == 0 && notStepping idle && doesB (.vadd (vo .f32)) idle idle &&
     doesB (.halfFadd 8 12 .nop) idle idle && doesB (.ldx (mo .b64 .s0)) idle idle &&
     [Instr.ldm (mo .b32 .s2), .dbgrd 9 3, .sabs .i64 9 3, .halfNop .nop].all isMeantWord) = true := by decide +kernel

/-- ScoreboardStalls: s9 waits for a deferred result. -/
def pendOn (d : Dst) : Pend :=
  { id := 1, slot := false, path := some .engine, kind := .s, order := .rlx, cov := 0x100, dst := d, lanes := 0xFFFF, act := .wait, flags := 0,
    returned := false, aliased := [], src := 0, homes := [], comb := none, quantum := none }
def pended : State := on { gr with pend := [pendOn (.scalar 9)] }
theorem witness_ScoreboardStalls : precheck pended (.sabs .i64 9 3) = .ok ∧ hazard pended (regsOf (widthOf pended) (.sabs .i64 9 3)) = true ∧
    (answer (.sabs .i64 9 3) pended).any (fun t => t.last == .stalled && (mget t.groups 0).any (fun g => g.hazards == 1)) = true := by
  decide +kernel

/-- HandlerForbids: each of the nine words in handler mode. -/
def handling : State := on { gr with handler := true }
theorem witness_HandlerForbids : ([.bv 0x43 4 9, .join, .regroup 1, .role 0 1, .bar 1 0, .arrive 9 1 0, .await 9 1, .yield 0 0, .tfence] : List Instr).all
    (fun i => precheck handling i == .ok && !hazard handling (regsOf (widthOf handling) i) && faultsB i handling 0x81 0x0280000001000000) = true := by
  decide +kernel

/-- CauseRouting: no handler, a handler, a handler already running; a stop ring to record in. -/
def ringed : State := { gs with fes := [(0, { resetFrontEnd with festop := 0x20000010000 })] }
def withHandler (g : Group) : State := { on g with launches := [(0, { lau with handler := 0x2000 })] }
def routed (s : State) : State := takeCause s 0 false { code := 0x41, lane := none, space := 5, addr := 0x1000000, n := 0 } none
def stopOf (s : State) : Option Stop := (mget s.groups 0).map (·.stop)
theorem witness_CauseRouting : stopOf (routed gs) = some .system ∧ stopOf (routed (withHandler gr)) = some .handler ∧
    stopOf (routed (withHandler { gr with handler := true })) = some .system ∧
    (mget (routed ringed).fes 0).map (fun f => f.stops.map (fun r => (r.loc, r.code, r.num, r.pc))) = some [(0, 0x41, 0, 0x1000000)] := by
  decide +kernel

/-- GroupSpecialReads, GroupSpecialWrites, setfmt, and the numbers that fault. -/
theorem witness_GroupSpecialReads : (groupSpecials.all (fun p => let i := Instr.mfs 9 (BitVec.ofNat 8 p.1)
    ready i gs && doesB i gs (writeReg gs 9 (p.2 gs gr false))) &&
    [(0x0C : BitVec 8), 0x7F].all (fun n => ready (.mfs 9 n) gs && faultsB (.mfs 9 n) gs 0x41 0x0280000001000000)) = true := by decide +kernel

def setG (f : Group → Group) : State := setGroup gs 0 (f gr)
theorem witness_GroupSpecialWrites :
    ([(.mts 0 7, setG (fun g => setSlot g false { g.slot0 with exec := 6 })), (.mts 3 7, gs), (.mts 4 8, setG (fun g => { g with flags := 0x3F })),
      (.mts 5 8, setG (fun g => { g with flagsen := 0x3F })), (.mts 6 3, setG (fun g => { g with cause := 40 })),
      (.mts 7 8, setG (fun g => { g with caddr := 0x3FFFFFFFFFFFFFF })), (.setfmt 9 9 0x1F54, setG (fun g => setSlot { g with s := mdel g.s 9 } false { g.slot0 with fmt := 0x1F55 }))]
        : List (Instr × State)).all (fun p => ready p.1 gs && (p.1 == .mts 3 7 || doesB p.1 gs p.2)) = true ∧
    ([.mts 1 3, .mts 2 3, .mts 8 3, .mts 0x7F 3] : List Instr).all (fun i => ready i gs && faultsB i gs 0x41 0x0280000001000000) = true ∧
    ready (.mts 3 7) gs = true ∧ faultsB (.mts 3 7) gs 0x43 0x0280000001000000 = true ∧ doesB (.mts 3 5) (on { gr with s := [(5, 0x1F45)] })
      (on (setSlot { gr with s := [(5, 0x1F45)] } false { gr.slot0 with fmt := 0x1F45 })) = true ∧
    faultsB (.setfmt 9 8 0) gs 0x43 0x0280000001000000 = true ∧ fmtImageOk 0x1F55 ∧ ¬ fmtImageOk 6 := by
  refine ⟨?_, ?_, ?_, ?_, ?_, ?_, ?_, ?_⟩ <;> first | decide +kernel | (unfold fmtImageOk; decide +kernel)

/-- IdentityAndTime: on a group, on a Quartz core, on a prologue engine; a hot cluster runs at 1,200 MHz. -/
def prs : State := { sm with agent := .prologue 0 }
theorem witness_IdentityAndTime : ((groupIdentity 0 gr lau (mget gs.teams 0 |>.getD (newTeam lau 0 0 0))).all (fun p => let i := Instr.sid 9 (BitVec.ofNat 8 p.1)
    ready i gs && doesB i gs (writeReg gs 9 (BitVec.ofNat 64 p.2))) &&
    (coreIdentity 0 (mget qs.quartz 0 |>.getD (resetQuartz 0))).all (fun p => let i := Instr.sid 9 (BitVec.ofNat 8 p.1)
      ready i qs && doesB i qs (writeReg qs 9 (BitVec.ofNat 64 p.2))) &&
    (prologueIdentity 0 resetPrologue).all (fun p => let i := Instr.sid 9 (BitVec.ofNat 8 p.1)
      ready i prs && (answer i prs).any (fun t => readPc t == readPc prs + 8 && readReg t 9 == BitVec.ofNat 64 p.2)) &&
    [(.clk 9 0, 0), (.clk 9 1, 0), (.clk 9 2, 1400)].all (fun (p : Instr × W64) => ready p.1 gs && doesB p.1 gs (writeReg gs 9 p.2)) &&
    doesB (.clk 9 2) { gs with thermal := true } (writeReg { gs with thermal := true } 9 1200) &&
    [(.clk 9 0, 0), (.clk 9 1, 0), (.clk 9 2, 3200)].all (fun (p : Instr × W64) => ready p.1 qs && doesB p.1 qs (writeReg qs 9 p.2))) = true := by
  decide +kernel

/-- QuartzSpecials: every listed read and the writes. -/
def qx (f : Quartz → Quartz) : State := { qs with quartz := qs.quartz.map (fun e => (e.1, f e.2)) }
theorem witness_QuartzSpecials :
    (([(0x04, 0), (0x10, 0), (0x80, 2), (0x88, 0), (0x81, 0), (0x82, 0), (0x87, 0), (0x89, 0), (0x8A, 0xFFFFFFFFFFFFFFFF), (0x8F, 0), (0x91, 0), (0x97, 0)]
        : List (BitVec 8 × W64)).all (fun p => ready (.mfs 9 p.1) qs && doesB (.mfs 9 p.1) qs (writeReg qs 9 p.2)) &&
     ([(.mts 0x04 8, qx (fun q => { q with divzero := true })), (.mts 0x81 3, qx (fun q => srSet q 2 0x81 40)), (.mts 0x87 8, qx (fun q => srSet q 2 0x87 1)),
       (.mts 0x8A 3, qx (fun q => srSet q 0 0x8A 40))] : List (Instr × State)).all (fun p => ready p.1 qs && doesB p.1 qs p.2)) = true := by
  decide +kernel

/-! ### Vector words -/

/-- LaneDoes on the one group of a test, decided: every lane of the list, every other lane, the rest of the state. -/
def laneB (i : Instr) (s : State) (g : Group) (l : List Nat) (wide : Bool) (d : Sel) (f : Nat → Nat × Nat) : Bool :=
  match exec i s with
  | .next t =>
    match mget t.groups 0 with
    | some h =>
      l.all (fun j => vVal t 0 h false wide d j == (f j).1) &&
      (let kept (e : Nat × W32) : Bool :=
         !(l.contains (e.1 % 64) && decide (d.toNat ≤ e.1 / 64 ∧ e.1 / 64 < d.toNat + (if wide then 2 else 1)))
       h.v.filter kept == g.v.filter kept) &&
      plain (noVectors t) == plain (noVectors (advance (orFlags s (lanesFlags l f))))
    | none => false
  | _ => false

/-- LaneUnit, decided. -/
def unitB (i : Instr) (s : State) : Bool :=
  canon s && ready i s && (match s.agent, mget s.groups 0 with | .group 0 false, some g => g.slot0.lent.isEmpty | _, _ => false)

theorem test_homeAlone : (List.range 64).all (fun j => (mget gs.groups (homeLoc gs 0 gr false j)).isSome) = true := by decide +kernel

def av (o : VOp) (j : Nat) : Nat := vVal gs 0 gr false (VTy.wide o.ty) o.a j
def bv' (o : VOp) (j : Nat) : Nat := bVal gs 0 gr false o (VTy.wide o.ty) j
def l3 : List Nat := [0, 1, 2, 3]

/-- VectorInteger: every operation in lanes 0 to 3, saturating where that is accepted. -/
theorem witness_VectorBinary : laneBinary.all (fun p =>
    let o := vo (if p.2 == .and || p.2 == .shl then .b32 else .i32)
    unitB (p.1 o) gs && laneB (p.1 o) gs gr l3 false 6 (fun j => (laneBits p.2 o (av o j) (bv' o j),
      if (p.2 == .div || p.2 == .rem) && bv' o j == 0 then 2 else 0))) = true := by decide +kernel

theorem witness_VectorSaturates : (let o := { vo .n64 with sat := true }
    unitB (.vsub o) gs && laneB (.vsub o) gs gr l3 true 6 (fun j => (laneBits .sub o (av o j) (bv' o j), 0)) &&
    laneBits .sub o 1 2 == 0) = true := by decide +kernel

theorem witness_VectorUnary : (laneUnary.all (fun p => let o := vu .i64
    unitB (p.1 o) gs && laneB (p.1 o) gs gr l3 true 6 (fun j => (laneHeld o (laneUnaryExact p.2 o (av o j)), 0)))) = true := by decide +kernel

theorem witness_VectorThree : (let o := { vo .i32 with c := 12 }
    let x (j : Nat) : Nat := vVal gs 0 gr false false 4 j
    let y (j : Nat) : Nat := vVal gs 0 gr false false 8 j
    unitB (.vmad o) gs && laneB (.vmad o) gs gr l3 false 6 (fun j => (x j * y j + 5, 0)) &&
    unitB (.vbfx (vo .i32)) gs && laneB (.vbfx (vo .i32)) gs gr l3 false 6 (fun j => ((BitVec.ofInt 32 (fieldOut 32 true (x j) (y j))).toNat, 0)) &&
    unitB (.vbfi (vo .b32)) gs && laneB (.vbfi (vo .b32)) gs gr l3 false 6 (fun j => (fieldIn 32 3 (x j) (y j), 0)) &&
    unitB (.vdot4 { o with ty := .i8 }) gs && laneB (.vdot4 { o with ty := .i8 }) gs gr l3 false 6 (fun j => (x j * y j + 5, 0)) &&
    unitB (.vdot2 { o with ty := .n16, sat := true }) gs &&
    laneB (.vdot2 { o with ty := .n16, sat := true }) gs gr l3 false 6 (fun j => (x j * y j + 5, 0))) = true := by decide +kernel

/-- VectorCompareAndMove: v4 = j + 1 against v8 = 2 j. -/
theorem witness_VectorCompare : ([(.eq, 0x2), (.ne, 0xD), (.lt, 0xC), (.le, 0xE), (.gt, 0x1), (.ge, 0x3)] : List (ICond × W64)).all (fun p =>
    let i := Instr.vcmp p.1 { vo .i32 with d := 0x45 }
    unitB i gs && doesB i gs (writeReg gs 0x45 p.2)) = true ∧
    (let i := Instr.fcmp .gt { vo .f32 with d := 0x45 }
     unitB i gs && doesB i gs (writeReg gs 0x45 1)) = true ∧
    (let o := { vo .b32 with c := 0x43 }
     unitB (.vsel o) gs && laneB (.vsel o) gs gr l3 false 6 (fun j => (av o j, 0))) = true ∧
    (unitB (.vmov { vo .b64 with a := 0, b := 8, bs := true }) gs &&
     laneB (.vmov { vo .b64 with a := 0, b := 8, bs := true }) gs gr l3 true 6 (fun _ => (0xFFFFFFFFFFFFFFFF, 0)) &&
     unitB (.vli 6 0x43 9) gs && laneB (.vli 6 0x43 9) gs gr l3 false 6 (fun _ => (9, 0)) &&
     unitB (.vmovs { vo .i32 with d := 9, b := 9, bs := true, k := 0 }) gs &&
     doesB (.vmovs { vo .i32 with d := 9, b := 9, bs := true, k := 0 }) gs (writeReg gs 9 2)) = true := by decide +kernel

/-- VectorFloat: v4 = 1.5 and v8 = 3.0 as FP32; the manual's ffma rounds toward zero (R98). -/
def fr : Group := { gr with v := l3.map (fun j => (256 + j, 0x3FC00000)) ++ l3.map (fun j => (512 + j, 0x40400000)) }
theorem witness_FloatBinary : ([(.fadd (vo .f32), 0x40900000), (.fsub (vo .f32), 0xBFC00000), (.fmul (vo .f32), 0x40900000), (.fdiv (vo .f32), 0x3F000000),
    (.fmin (vo .f32), 0x3FC00000), (.fmax (vo .f32), 0x40400000), (.ffma { vo .f32 with c := 8, rm := some .rtz }, 0x40F00000), (.fabs (vu .f32), 0x3FC00000),
    (.fneg (vu .f32), 0xBFC00000), (.fround (vu .f32), 0x40000000)] : List (Instr × Nat)).all (fun p =>
    unitB p.1 (on fr) && laneB p.1 (on fr) fr l3 false 6 (fun _ => (p.2, 0))) = true := by decide +kernel

theorem witness_FloatUnary : floatUnary.all (fun p => unitB (p.1 (vu .f32)) (on fr) &&
    laneB (p.1 (vu .f32)) (on fr) fr l3 false 6 (fun _ => p.2 { m := .rne, sat := false, fzi := false, fzo := false } .f32 0x3FC00000)) = true := by
  decide +kernel

/-- VectorConvert: 1.5 to BF16, 3.0 and 1.5 packed as FP8, element 1 of a BF16 pair widened. -/
theorem witness_VectorConvert :
    (unitB (.cvt { vu .bf16 with c := 0x10 }) (on fr) && laneB (.cvt { vu .bf16 with c := 0x10 }) (on fr) fr l3 false 6 (fun _ => (0x3FC0, 0)) &&
     unitB (.cvt { vu .i64 with c := 0x10 }) (on fr) && laneB (.cvt { vu .i64 with c := 0x10 }) (on fr) fr l3 true 6 (fun _ => (2, 0x10)) &&
     unitB (.pack { vo .e4m3 with c := 1 }) (on fr) && laneB (.pack { vo .e4m3 with c := 1 }) (on fr) fr l3 false 6 (fun _ => (0x443C0000, 0)) &&
     unitB (.pack (vo .i16)) (on fr) && laneB (.pack (vo .i16)) (on fr) fr l3 false 6 (fun _ => (0, 0)) &&
     unitB (.unpk { vu .bf16 with c := 1 }) (on fr) && laneB (.unpk { vu .bf16 with c := 1 }) (on fr) fr l3 false 6 (fun _ => (0x3FC00000, 0)) &&
     unitB (.unpk { vu .n8 with c := 3 }) (on fr) && laneB (.unpk { vu .n8 with c := 3 }) (on fr) fr l3 false 6 (fun _ => (0x3F, 0))) = true := by
  decide +kernel

/-! ### Lane exchange: lanes 0 to 3 of v4 hold 1 to 4 -/

theorem witness_LaneExchange :
    (unitB (.shfl (vo .b32)) gs && laneB (.shfl (vo .b32)) gs gr l3 false 6 (fun j => ([1, 3, 3, 4].getD j 0, 0)) &&
     unitB (.shflx { vu .b32 with c := 15 }) gs && laneB (.shflx { vu .b32 with c := 15 }) gs gr l3 false 6 (fun j => (j + 1, 0)) &&
     unitB (.shfld { vu .b32 with c := 1 }) gs && laneB (.shfld { vu .b32 with c := 1 }) gs gr l3 false 6 (fun j => ([1, 1, 2, 3].getD j 0, 0)) &&
     unitB (.shfld { vu .b32 with c := 0x81 }) gs && laneB (.shfld { vu .b32 with c := 0x81 }) gs gr l3 false 6 (fun j => ([2, 3, 4, 4].getD j 0, 0)) &&
     unitB (.bcast { vo .b32 with b := 9, bs := true }) gs && laneB (.bcast { vo .b32 with b := 9, bs := true }) gs gr l3 false 6 (fun _ => (2, 0)) &&
     [(0, 1), (1, 1), (2, 0)].all (fun (p : Sel × W64) => let i := Instr.vote { vu .b32 with d := 9, c := p.1 }
       unitB i gs && doesB i gs (writeReg gs 9 p.2)) &&
     unitB (.ballot { vu .b32 with d := 0x45 }) gs && doesB (.ballot { vu .b32 with d := 0x45 }) gs (writeReg gs 0x45 0xF) &&
     unitB (.matchLanes (vu .b32)) gs && laneB (.matchLanes (vu .b32)) gs gr l3 true 6 (fun j => (2 ^ j, 0)) &&
     unitB (.firstl { vu .b32 with d := 9, a := 0x41 }) gs && doesB (.firstl { vu .b32 with d := 9, a := 0x41 }) gs (writeReg gs 9 64) &&
     unitB (.lanes { vu .b32 with d := 9, a := 0x43, c := 0x80 }) gs && doesB (.lanes { vu .b32 with d := 9, a := 0x43, c := 0x80 }) gs (writeReg gs 9 4) &&
     unitB (.lanes { vu .b32 with a := 0x43 }) gs && laneB (.lanes { vu .b32 with a := 0x43 }) gs gr l3 false 6 (fun j => (j, 0))) = true := by
  decide +kernel

/-- LaneReduction: sums, the maximum, an exclusive prefix, FP32 sums of 1.5 in both destinations. -/
theorem witness_LaneReduction : redOpOf 0 = some .add ∧ gr.width = 2 ^ 4 ∧
    (unitB (.redi { vu .i32 with d := 9, c := 0x80 }) gs && doesB (.redi { vu .i32 with d := 9, c := 0x80 }) gs (writeReg gs 9 10) &&
     unitB (.redi { vu .n32 with c := 2 }) gs && laneB (.redi { vu .n32 with c := 2 }) gs gr l3 false 6 (fun _ => (4, 0)) &&
     unitB (.redf { vu .f32 with d := 9, c := 0x80 }) (on fr) && doesB (.redf { vu .f32 with d := 9, c := 0x80 }) (on fr) (writeReg (on fr) 9 0x40C00000) &&
     unitB (.redf (vu .f32)) (on fr) && laneB (.redf (vu .f32)) (on fr) fr l3 false 6 (fun _ => (0x40C00000, 0)) &&
     unitB (.scan { vu .i32 with c := 0x40 }) gs && laneB (.scan { vu .i32 with c := 0x40 }) gs gr l3 false 6 (fun j => ([0, 1, 3, 6].getD j 0, 0)) &&
     unitB (.scan (vu .f32)) (on fr) && laneB (.scan (vu .f32)) (on fr) fr l3 false 6
       (fun j => ([0x3FC00000, 0x40400000, 0x40900000, 0x40C00000].getD j 0, 0))) = true := by decide +kernel

/-- The manual's worked `redf` (chapter 9): 2^24 and three ones give 2^24 + 2, where a serial sum would lose the ones; inexact. -/
theorem test_redfTree : floatTree .add false (fun j => ([0x4B800000, 0x3F800000, 0x3F800000, 0x3F800000] : List Nat)[j]?) 2 0 =
    (some 0x4B800001, 0x10) := by decide +kernel

/-- DualWords: every half A beside `vli v5, -3`, on live lanes 0 and 2 (R174). -/
def fewG : Group := { gr with slot0 := { gr.slot0 with exec := 5 }, v := [(512, 0x3FC00000), (513, 9), (514, 7), (640, 0x40400000), (642, 2), (704, 3)] }
def few : State := on fewG
theorem witness_DualWords : dualWords.all (fun p => match halves p.2 with
    | some (x, y) =>
      let p2 := match p.2 with | .halfShflx _ d a b => Instr.halfShflx 5 d a b | i => i
      let x := match x with | .shflx _ d a => Half.shflx 5 d a | h => h
      unitB p2 few && (match exec p2 few with
        | .next t => (mget t.groups 0).any (fun g =>
            [x, y].all (fun h => [0, 2].all (fun j => (halfDest h).all (fun d => vVal t 0 g false false d j == (halfGives few 0 fewG false h j).1))) &&
            vAt t 0 8 1 == vAt few 0 8 1 && vAt t 0 10 2 == vAt few 0 10 2 && g.s == gr.s)
        | _ => false)
    | none => false) = true := by decide +kernel


/-- VectorFloat, the special results of R85, R95 and R99: NaNs, infinities, zeros of FP32, and exact operands. -/
theorem witness_FloatSpecials :
    let c : RCtl := { m := .rne, sat := false, fzi := false, fzo := false }
    srcVal c .f32 0x7FC00001 = .nan ∧ srcVal c .f32 0x7F800000 = .inf false ∧ srcVal c .f32 0xFF800000 = .inf true ∧
    (match srcVal c .f32 0, srcVal c .f32 0xBF800000 with | .fin false 0 _, .fin true n d => n == d && n != 0 | _, _ => false) = true ∧
    fAddE c .f32 0x7FC00001 0x3F800000 = (0x7FC00000, 0) ∧ fMulE c .f32 0x7F800001 0x3F800000 = (0x7FC00000, 1) ∧
    fAddE c .f32 0x7F800000 0xFF800000 = (0x7FC00000, 1) ∧ fMulE c .f32 0x7F800000 0 = (0x7FC00000, 1) ∧
    fDivE c .f32 0x3F800000 0x80000000 = (0xFF800000, 2) ∧ fDivE c .f32 0 0 = (0x7FC00000, 1) ∧ fSqrtE c .f32 0xBF800000 = (0x7FC00000, 1) ∧
    fRcpE c .f32 0x80000000 = (0xFF800000, 2) ∧ fFmaE c .f32 0 0x7F800000 0x3F800000 = (0x7FC00000, 1) ∧
    fFmaE c .f32 0 0x7F800000 0x7FC00001 = (0x7FC00000, 0) ∧
    fAddE c .f32 0x3F800000 0xBF800000 = (0, 0) ∧ fAddE { c with m := .rdn } .f32 0x3F800000 0xBF800000 = (0x80000000, 0) ∧
    fSubE c .f32 0x3F800000 0xBF800000 = (0x40000000, 0) ∧ fAddE c .f32 0x80000000 0x80000000 = (0x80000000, 0) := by decide +kernel
/-! ### Memory: 4 KiB of shared memory, two scratch ways, a spill area of 64 bytes a lane at VA 0x20000 -/

def lauM : Launch := { lau with shared := 4096, spill := 64 }
def spillPage : Tlb :=
  { stackPage with page := 2, frame := 3, frames := [3] }

/-- s3 = 40 bytes into each space, s4 = 0x7F000000, s5 = 8, k3 = lanes 0 and 1; h1 covers device bytes as a counted range. -/
def gm : Group :=
  { gr with spill := 0x20000, s := [(3, 40), (4, 0x7F000000), (5, 8), (7, 6), (8, 0x10000 * 0x80), (9, 1), (10, 0x1000)], k := [(3, 3)],
            v := [(256, 1), (257, 2), (514, 16), (515, 16), (576, 9), (577, 9)],
            h := [(1, { base := 0x1000, desc := BitVec.ofNat 64 (64 + 5 * 2 ^ 40 + 3 * 2 ^ 48) })] }
def onM (g : Group) : State :=
  { on g with launches := [(0, lauM)], ways := [(0, 2)], tlb := [spillPage],
              dies := [(0, { resetDie with colset := [(0, 0x10000)] })],
              teams := [(0, { newTeam lauM 0 0 0 with groups := [0], shared := [(40, 0x81), (41, 0x12)] })] }
def ms : State := onM gm

def becomesB (i : Instr) (s w : State) : Bool := match exec i s with | .next t => plain t == plain (advance w) | _ => false

/-- A load of the claim: its hypotheses, and what it adds. -/
def loadB (i : Instr) (o : MOp) (space : Nat) (path : Path) (s : State) (g : Group) : Bool :=
  let uni : Bool := o.sv = .s2
  let n := MWidth.bytes o.wt
  match target_ s g o.base [space] with
  | some (t, b) =>
    let r := checkLanes s 0 g false t true false n ((accessLanes g false o.k uni).map (fun j => (j, laneAddress o space s 0 g false b j)))
    unitB i s && live g false &&& kRead g.k o.k.toNat != 0 && checksPass r.2 0 g t true false (space == 3) n r.1 &&
    !counterFull r.2 path r.1.length &&
    becomesB i s (withWork r.2 0 (numbered r.2.fresh ((granted r.1).map (fun c id =>
      { accessEntry r.2 g false path t id n c.2.2.1 c.2.2.2
          (if uni then .scalar o.data else .vec o.data (if o.wt = .b128 then 4 else if o.wt = .b64 then 2 else 1))
          (BitVec.ofNat 64 (2 ^ c.1)) (.load o.wt [{ lane := c.1, locs := c.2.1 }]) with comb := some r.2.fresh }))))
  | none => false

def mq (wt : MWidth) (sv : SV) : MOp := { data := 8, base := 3, index := 0, off := 0, wt := wt, sv := sv, k := 3 }

theorem witness_LoadsIssue : (loadB (.lds (mq .i16 .s0)) (mq .i16 .s0) 2 .shared ms gm && loadB (.lds (mq .b64 .s2)) (mq .b64 .s2) 2 .shared ms gm &&
    loadB (.ldx { mq .n8 .s1 with index := 4 }) { mq .n8 .s1 with index := 4 } 3 .scratch ms gm &&
    loadB (.ldp (mq .b64 .s0)) (mq .b64 .s0) 1 .spill ms gm) = true := by decide +kernel

def fragOp : MOp := { data := 16, base := 0, index := 0, off := 0, wt := .fragScratch, sv := .s1, k := 3 }
theorem witness_FragmentIssues : unitB (.mfrag fragOp) ms = true ∧ (match target_ ms gm 0 [3] with
    | some (t, b) =>
      let r := checkLanes ms 0 gm false t true false 1024 [(0, (b : Int))]
      checksPass r.2 0 gm t true false true 1024 r.1 && !counterFull r.2 .scratch 64 && (match r.1 with
        | [(0, .ok locs _ a)] => becomesB (.mfrag fragOp) ms (withWork r.2 0
            (numbered r.2.fresh ((List.range 64).map (fun n id => accessEntry r.2 gm false .scratch t id 16 (spaceKind r.2 gm t.space (a + 16 * n) 16)
              (a + 16 * n) (.vec 16 16) 3 (.frag .s1 n ((locs.drop (16 * n)).take 16))))))
        | _ => false)
    | none => false) = true := by decide +kernel

/-- A store of the claim. -/
def storeB (i : Instr) (o : MOp) (space : Nat) (path : Path) (s : State) (g : Group) : Bool :=
  let uni : Bool := o.sv = .s2
  let n := MWidth.bytes o.wt
  match target_ s g o.base [space] with
  | some (t, b) =>
    let r := checkLanes s 0 g false t false true n ((accessLanes g false o.k uni).map (fun j => (j, laneAddress o space s 0 g false b j)))
    let stores := granted r.1
    let copies : List (Nat × Nat) := r.1.filterMap (fun c => match c.2 with | .aperture ch => some (c.1, ch) | _ => none)
    let data (j : Nat) : Nat := leNat (storedBytes o r.2 0 g false j)
    let s2 := copies.foldl (fun u c => startCopy u 0 false c.2 (data c.1 % 65536) (data c.1 / 65536) .none) r.2
    unitB i s && live g false &&& kRead g.k o.k.toNat != 0 && checksPass r.2 0 g t false true (space == 3) n r.1 &&
    !counterFull r.2 path stores.length && !counterFull r.2 .copy copies.length && decide (copiesOn r.2 0 + copies.length ≤ 64) &&
    copies.all (fun c => argReady r.2 0 g (data c.1 / 65536)) && (copies.isEmpty == (o.base != 4)) &&
    becomesB i s (withWork s2 0 (numbered s2.fresh (stores.map (fun c id =>
      accessEntry r.2 g false path t id n c.2.2.1 c.2.2.2 .none (BitVec.ofNat 64 (2 ^ c.1)) (.store (c.2.1.zip (storedBytes o r.2 0 g false c.1)))))))
  | none => false

theorem witness_StoresIssue : (storeB (.sts (mq .n16 .s0)) (mq .n16 .s0) 2 .shared ms gm && storeB (.stx (mq .b64 .s2)) (mq .b64 .s2) 3 .scratch ms gm &&
    storeB (.stp (mq .b32 .s0)) (mq .b32 .s0) 1 .spill ms gm) = true := by decide +kernel

/-- A uniform doubleword stored to the aperture of channel 0 starts a copy from template 0 with its argument block at 0x80. -/
theorem witness_ApertureStore : storeB (.stx { mq .b64 .s2 with base := 4 }) { mq .b64 .s2 with base := 4 } 3 .scratch ms gm = true := by decide +kernel

def aq (op : AtomOp) : AOp :=
  { d := 8, base := 3, index := 4, data := 9, op := op, order := .rlx, scope := .die, use := .speculative, w64 := false, scr := true, k := 3, uni := false }

theorem witness_AtomicsIssue : ([(.atom { aq .add with uni := true, index := 5 }, { aq .add with uni := true, index := 5 }, false),
    (.cas { aq .add with order := .seq, use := .none, uni := true, scr := false, index := 5 },
      { aq .add with order := .seq, use := .none, uni := true, scr := false, index := 5 }, true)] : List (Instr × AOp × Bool)).all (fun p =>
    let o := p.2.1
    match target_ ms gm o.base [if o.scr then 3 else 2] with
    | some (t, b) =>
      let r := checkLanes ms 0 gm false t true true 4 ((accessLanes gm false o.k o.uni).map (fun j => (j, atomAddress o ms 0 gm false b j)))
      unitB p.1 ms && checksPass r.2 0 gm t true true o.scr 4 r.1 && !counterFull r.2 .scratch 1 &&
      becomesB p.1 ms (withWork r.2 0 (numbered r.2.fresh ((granted r.1).map (fun c id =>
        { accessEntry r.2 gm false (if o.scr then .scratch else .shared) t id 4 c.2.2.1 c.2.2.2 (.scalar 8) (BitVec.ofNat 64 (2 ^ c.1))
            (.atomic o.op false p.2.2 [({ lane := c.1, locs := c.2.1 }, 1, BitVec.ofNat 64 ((gRead gm 8).toNat % 2 ^ 32))]) with
          order := o.order }))))
    | none => false) = true := by decide +kernel

/-- A speculative atomic with a replay record gives what the record keeps. -/
def replays : State := onM { gm with replay := [{ pc := 0x1000000, slot := false, vals := [], sval := 77 }] }
theorem witness_Replay : unitB (.atom { aq .add with uni := true, index := 5 }) replays = true ∧
    (answer (.atom { aq .add with uni := true, index := 5 }) replays).any (fun t => (mget t.groups 0).any (fun g =>
      g.replay.isEmpty && g.pend.map (fun p => (p.path, p.act)) == [(none, .value [] 77)])) = true := by decide +kernel

/-- CountedLoadAndPrefetch: a line with a count of 1 goes, the value is its first four bytes. -/
def countedLine : CLine :=
  { part := 0, eid := 0, line := 64, launch := 0, team := 0, tmpl := 0, copy := 0, st := .counted, count := 1, way := 3,
    data := [1, 2, 3, 4] ++ List.replicate 60 0 }
def counted : State := { ms with dies := [(0, { resetDie with lines := [countedLine, { countedLine with line := 65, count := 2 }] })] }
theorem witness_CountedLoad : (let o := { mq .b32 .s2 with base := 0x59 }
    unitB (.ldt o) counted && !counterFull counted .scratch 1 && (match target_ counted gm 0x59 [5] with
      | some (t, b) => checkAccess counted 0 gm t true false (laneAddress o 4 counted 0 gm false b 0) 4 == none
      | none => false) &&
    (answer (.ldt o) counted).any (fun t => (mget t.dies 0).any (fun d => d.lines.map (fun l => (l.line, l.count)) == [(65, 2)]) &&
      (mget t.groups 0).any (fun g => g.pend.map (fun p => (p.dst, p.act)) == [(.scalar 8, .value [] 0x04030201)])) &&
    unitB (.prefx { mq .b32 .s0 with data := 0 }) ms &&
    (answer (.prefx { mq .b32 .s0 with data := 0 }) ms).any (fun t => (mget t.groups 0).any (fun g => g.pend.map (·.act) == [.nothing, .nothing]))) = true := by
  decide +kernel

def faultsM (i : Instr) (s : State) (cause caddr : W64) : Bool :=
  unitB i s && (answer i s).any (fun t => t.last == .faulted && (mget t.groups 0).any (fun g => g.cause == cause && g.caddr == caddr && g.v == gm.v))
def setRegion (s : State) (r : Nat) : State := { s with launches := [(0, { lauM with region := [(0, r)] })] }

/-- MemoryFaults: no lane; a handle of another space; bounds in lane 1 only; permission; alignment; the aperture. -/
theorem witness_MemoryFaults :
    (doesB (.lds { mq .b32 .s0 with k := 4 }) (onM { gm with k := [(4, 0x10000)] }) (onM { gm with k := [(4, 0x10000)] }) &&
     faultsM (.ldx { mq .b32 .s2 with base := 0x59 }) ms 0x27 0x0280000001000000 &&
     faultsM (.lds { mq .b32 .s0 with base := 0, off := 4092 }) ms 0x4124 0x0100000000001000 &&
     faultsM (.stx (mq .b64 .s2)) (setRegion ms 4) 0x21 0x0180000000000028 &&
     faultsM (.lds { mq .b32 .s2 with off := 1 }) ms 0x25 0x0100000000000029 &&
     faultsM (.ldx { mq .b32 .s2 with base := 4 }) ms 0x28 0x018000007F000000) = true := by decide +kernel
/-! ### Returns: one entry in flight, on bytes 40 to 43 of shared memory, which hold 0x00001281 -/

def sh (n : Nat) : List MLoc := (List.range n).map (fun j => .shared 0 (40 + j))
def entry (d : Dst) (a : Act) : Pend := { pendOn d with path := some .shared, act := a, flags := 0x10 }
def flying (p : Pend) : State := onM { gm with pend := [p] }
def returnsB (p : Pend) : Bool := canon (flying p) && canReturn (flying p) (.group 0 false) p && !allExited gm
def after (i : Instr) (s : State) (f : State → Group → Bool) : Bool := (answer i s).any (fun t => (mget t.groups 0).any (f t))
def result : Instr := .deferredResultReturn (.group 0 false) 1

theorem witness_StoreReturns : (returnsB (entry .none (.store ((sh 2).zip [7, 8]))) && (sh 2).all (locThere ms) && returnsB (entry .none .nothing) &&
    after (.accessReturn (.group 0 false) 1) (flying (entry .none (.store ((sh 2).zip [7, 8])))) (fun t g =>
      g.pend.isEmpty && readLoc t (.shared 0 40) == 7 && readLoc t (.shared 0 41) == 8 && readLoc t (.shared 0 42) == 0 && g.s == gm.s) &&
    after (.accessReturn (.group 0 false) 1) (flying (entry .none .nothing)) (fun t g => g.pend.isEmpty && readLoc t (.shared 0 40) == 0x81)) = true := by
  decide +kernel

theorem witness_LoadReturns :
    ([(entry (.scalar 9) (.load .i8 [{ lane := 0, locs := sh 1 }]), (9, 0xFFFFFFFFFFFFFF81)), (entry (.scalar 9) (.load .b64 [{ lane := 0, locs := sh 8 }]), (9, 0x1281)),
      (entry (.scalar 9) (.value [] 77), (9, 77))] : List (Pend × Sel × W64)).all (fun p => returnsB p.1 &&
        after result (flying p.1) (fun _ g => gRead g p.2.1 == p.2.2 && g.pend.isEmpty && g.flags == 0x10 && g.v == gm.v)) = true ∧
    ([(entry (.vec 9 1) (.load .n16 [{ lane := 1, locs := sh 2 }]), 0x1281, 0), (entry (.vec 9 2) (.load .b64 [{ lane := 1, locs := sh 8 }]), 0x1281, 0),
      (entry (.vec 9 2) (.value [(1, [5, 6])] 0), 5, 6)] : List (Pend × W32 × W32)).all (fun p => returnsB p.1 &&
        after result (flying p.1) (fun t g => vAt t 0 9 1 == p.2.1 && vAt t 0 10 1 == p.2.2 && vAt t 0 9 0 == 9 && g.s == gm.s)) = true := by decide +kernel

/-- Sector 2 of a fragment of 1 KiB from shared address 0 on: byte 40 of the block is byte 0 of register 10 of lane 0; registers of other
sectors stay. -/
def fragP : Pend := { entry (.vec 16 16) (.frag .s0 2 ((List.range 16).map (fun j => .shared 0 (32 + j)))) with lanes := 1 }
theorem witness_FragmentReturns : (returnsB fragP && decide (gm.width ∣ 256) && fragP.homes.isEmpty &&
    after result (flying fragP) (fun t _ => vAt t 0 26 0 == 0x1281 && vAt t 0 24 0 == 0 && vAt t 0 16 0 == 0 && vAt t 0 16 1 == 0)) = true := by decide +kernel

/-- Two lanes of one load read the same bytes: the second takes what the first found (R144). -/
def laneP (n j : Nat) : Pend := { entry (.vec 9 1) (.load .n16 [{ lane := j, locs := sh 2 }]) with id := n, comb := some 1 }
theorem witness_SameBytes : (let s := onM { gm with pend := [laneP 1 0, laneP 2 1] }
    canon s && canReturn s (.group 0 false) (laneP 1 0) && s.quanta.isEmpty &&
    after result s (fun t g => vAt t 0 9 0 == 0x1281 && g.pend.map (fun p => (p.id, p.act)) == [(2, .value [(1, [0x1281])] 0x1281)])) = true := by
  decide +kernel

/-- A quantum addition: memory takes it; the value that lands is one that the group may see, the old one or, at no boundary, an earlier one. -/
theorem witness_QuantumReturns : (let p := { entry (.scalar 9) (.atomic .add false false [({ lane := 0, locs := sh 4 }, 2, 0)]) with quantum := some (2, 40) }
    returnsB p && after result (flying p) (fun t g => leNat ((sh 4).map (readLoc t)) == 0x1283 && g.pend.isEmpty && t.quanta.length == 1)) = true := by
  decide +kernel

theorem witness_AtomicReturns : ([(.add, false, 0x1283), (.xchg, false, 2), (.maxS, false, 0x1281), (.add, true, 0x1281)] : List (AtomOp × Bool × Nat)).all (fun x =>
    let p := entry (.scalar 9) (.atomic x.1 false x.2.1 [({ lane := 0, locs := sh 4 }, 2, 3)])
    returnsB p && (sh 4).all (locThere ms) && atomStores x.1 x.2.1 32 0x1281 2 3 == x.2.2 &&
    after result (flying p) (fun t g => leNat ((sh 4).map (readLoc t)) == x.2.2 && gRead g 9 == 0x1281)) = true := by decide +kernel

/-! ### Fences, handles, counters and the way count -/

def covering : State := onM { gm with pend := [{ entry .none .nothing with cov := 0x102 }] }

theorem witness_FencesAndCounters : (ready (.fence .seq .sys 0) ms && doesB (.fence .seq .sys 0) ms ms && ready (.fence .rel .die 1) covering &&
    doesB (.fence .rel .die 1) covering covering && ready (.fence .rel .die 2) covering && after (.fence .rel .die 2) covering (fun t g => t.last == .parked && g.slot0.wait == .fence 2) &&
    after (.fence .acq .team 0) covering (fun _ g => g.slot0.wait == .fence 0x1FF) && ready (.waitc .shared 0 0) covering &&
    after (.waitc .shared 0 0) covering (fun _ g => g.slot0.wait == .count .shared 0) && doesB (.waitc .shared 9 0) covering covering &&
    doesB (.waitc .shared 0 255) covering covering && doesB (.fence .rel .sys 0) qs qs && ready (.fence .rel .sys 0) qs) = true := by decide +kernel

/-- s11 to s15 hold handle images: a range of scratch, space 7, an alias with a bad base, an alias control word. -/
def gh : Group := { gm with s := [(3, 40), (11, 0x0000030000000040), (12, 0x0000070000000040), (13, 0x0000060000000040), (14, 0x0000010000000000), (15, 0x0000130000001000)] }
def hs : State := { onM gh with dies := [(0, { resetDie with colset := [(0, 0x10000)], lines := [countedLine] })] }
def hsFly : State := { hs with groups := [(0, { gh with pend := [{ entry .none .nothing with cov := 2, aliased := [3] }] })] }
def onHs (f : Group → Group) : State := { hs with groups := [(0, f gh)] }
def faultsH (i : Instr) (s : State) (cause : W64) : Bool := ready i s && after i s (fun t g => t.last == .faulted && g.cause == cause && g.h == gh.h)
theorem witness_HandleDefinition :
    (ready (.hdef 0x5A 3 11) hs && doesB (.hdef 0x5A 3 11) hs (onHs (fun g => { g with h := mput g.h 2 { base := 40, desc := 0x0000030000000040 } })) &&
     faultsH (.hdef 0x5A 3 12) hs 0x27 && faultsH (.hdef 0x5A 14 13) hs 0x27 && after (.hdef 0x59 3 11) hsFly (fun t g => t.last == .stalled && g.h == gh.h) &&
     after (.hdef 0x59 3 0) hs (fun t g => g.flags == 0x20 && g.h.isEmpty && (mget t.dies 0).any (fun d => d.lines.isEmpty)) &&
     ready (.hdefAlias 3 3 0 15) hs && after (.hdefAlias 3 3 0 15) hs (fun t _ => aliasOf t 0 3 == { bufa := 40, bufb := 0, ctl := 0x0000130000001000 }) &&
     after (.hdefAlias 3 3 0 15) hsFly (fun t _ => t.last == .stalled) && faultsH (.hdefAlias 3 3 0 12) { hs with groups := [(0, { gh with s := [(12, 0x400000000000)] })] } 0x27) = true := by
  decide +kernel

/-- WayCount: code 2 above 16, code 0 for the count in force, a change that begins and ends, its result. -/
def growing : State := { ms with work := [(5, .scrsz 0 0 3 false none 9)] }
def shrinking : State := { ms with work := [(5, .scrsz 0 0 1 false none 9)] }
def grown : State := { ms with work := [(5, .scrsz 0 0 3 false (some 0x30200) 9)] }
def pinned : State := { growing with dies := [(0, { resetDie with colset := [(0, 0x10000)], lines := [{ countedLine with way := 2 }] })] }
def held : State := { shrinking with groups := [(0, { gm with pend := [{ entry .none .nothing with act := .store [(scratchLoc ms 0 0 98304, 0)], path := some .scratch }] })] }
theorem witness_WayCount : (ready (.scrsz 9 0 17) ms && doesB (.scrsz 9 0 17) ms (writeReg ms 9 0x20202) && doesB (.scrsz 9 0 2) ms (writeReg ms 9 0x20200) &&
    after (.scrsz 9 0 3) ms (fun t _ => t.last == .stalled && t.work == [(0, .scrsz 0 0 3 false none 9)]) && doesB (.scrsz 9 0 3) grown (writeReg { grown with work := [] } 9 0x30200) &&
    (answer (.scrszComplete 0) growing).any (fun t => waysOf t 0 == 3 && t.work == [(5, .scrsz 0 0 3 false (some 0x30200) 9)]) &&
    (answer (.scrszComplete 0) pinned).any (fun t => waysOf t 0 == 2 && t.work == [(5, .scrsz 0 0 3 false (some 0x20201) 9)]) &&
    !scratchBusy shrinking 0 0 1 && (answer (.scrszComplete 0) shrinking).any (fun t => waysOf t 0 == 1) &&
    scratchBusy held 0 0 1 && answer (.scrszComplete 0) held == some held) = true := by decide +kernel
/-! ### Engine words: s10 = 0x1000 is an argument block; template 0 copies 16 bytes from scratch to shared memory -/

/-- A template of one row of n elements of a byte, source kind sk to destination kind dk, r readers (R286). -/
def template_ (sk dk n r : Nat) : List Byte :=
  leBytes 8 (sk * 2 ^ 0 + dk * 2 ^ 4 + r * 2 ^ 24) ++ leBytes 8 n ++ List.replicate 80 0

theorem test_templateFields : (let t := template_ 2 3 16 0
    tSrck t == 2 && tDstk t == 3 && tCount t 0 == 16 && tEsz t == 0 && tReaders t == 0 && tConv t == 0 && tNdim t == 0 && !tSignal t &&
    tReaders (template_ 1 1 64 5) == 5) = true := by decide +kernel

def h6 : Handle := { base := 0x1000000000000000, desc := BitVec.ofNat 64 (64 + 6 * 2 ^ 40 + 3 * 2 ^ 48) }
def h4 : Handle := { base := 0x40000, desc := BitVec.ofNat 64 (4096 + 4 * 2 ^ 40 + 3 * 2 ^ 48) }
def ge : Group :=
  { gm with h := [(1, { base := 0x1000, desc := BitVec.ofNat 64 (64 + 5 * 2 ^ 40 + 3 * 2 ^ 48) }), (2, h6), (3, h4),
                  (4, { base := 0, desc := BitVec.ofNat 64 (4096 + 2 * 2 ^ 40 + 3 * 2 ^ 48) }), (5, { base := 0, desc := BitVec.ofNat 64 (4096 + 3 * 2 ^ 40 + 3 * 2 ^ 48) })],
            s := [(3, 40), (5, 8), (7, 6), (9, 1), (10, 0x80), (11, 2), (12, 32), (13, 0x0301)], chan := [(2, 0x77)] }
def es : State :=
  { onM ge with launches := [(0, { lauM with tmpl := [(0, template_ 2 3 16 0), (1, leBytes 8 0x02000401 ++ leBytes 8 4 ++ List.replicate 80 0)] })],
                teams := [(0, { newTeam lauM 0 0 0 with groups := [0], aliased := [(1, { bufa := 0, bufb := 64, ctl := 0x0000330000000040 })] })] }

def faultsE (i : Instr) (cause : W64) : Bool := ready i es && after i es (fun t g => t.last == .faulted && g.cause == cause)
theorem witness_EngineWords :
    (ready (.cpy 8 0 0 10) es && argReady es 0 ge 0x80 && (groupCopy es 0 ge 0 0 0x80).err == 0 && after (.cpy 8 0 0 10) es (fun t g =>
       (t.work.map (·.1) == [0]) && g.pend.map (fun p => (p.path, p.dst)) == [(some .copy, .scalar 8)] && g.s == ge.s) &&
     ready (.cpy 8 1 1 10) es && after (.cpy 8 1 1 10) es (fun t _ => (linesOf t 0).map (fun l => (l.line, l.st, l.count)) == [(0, .filling, 2)]) &&
     ready (.pub .die 0x5A) es && hSpace (getH ge 2) == 6 && after (.pub .die 0x5A) es (fun t g => t.work.map (·.2) == [.pub 0 0 1] && g.pend.length == 1) &&
     faultsE (.pub .die 0x59) 0x27 && ready (.rcrel 0x59) es && after (.rcrel 0x59) es (fun _ g => g.pend.map (fun p => (p.path, p.act)) == [(some .engine, .nothing)]) && faultsE (.rcrel 0x5A) 0x27 &&
     ready (.qstat 8 2) es && doesB (.qstat 8 2) es (writeReg es 8 0x77) && doesB (.qstat 8 3) es (writeReg es 8 0) &&
     ready (.gath 0x5B 9) es && after (.gath 0x5B 9) es (fun _ g => (mgetD g.queue 2 []).map (fun e => e.lanes.map (·.1)) == [List.range 16]) &&
     ready (.coll .add .i32 9 13) es && after (.coll .add .i32 9 13) es (fun t g => g.coll == [(3, 1)] && t.work.length == 1 && (mgetD g.queue 3 []).length == 1) &&
     ready (.mvn 8 0x5B 0x5C 0x5D 11 12 .bf16 true) es && mvnFault es 0 ge (getH ge 3) (getH ge 4) (getH ge 5) 2 32 .bf16 true == none &&
     after (.mvn 8 0x5B 0x5C 0x5D 11 12 .bf16 true) es (fun t g => t.work.length == 1 && g.pend.map (·.dst) == [.scalar 8]) &&
     after (.mvn 0 0x5B 0x5C 0x5D 11 12 .bf16 true) es (fun _ g => (mgetD g.queue 1 []).length == 1)) = true := by decide +kernel

/-- QueuePop: an element ready in q1, one not ready, none. -/
def elem (r : Bool) : QElem := { work := 1, ready := r, last := false, header := 0x55, lanes := [], regs := 0, flags := 4 }
theorem witness_QueuePop : ([true, false].all (fun r => let s := onM { gm with queue := [(1, [elem r])] }
    ready (.smov .b64 9 0x51) s && landOk gm 1 9 (some (elem r)) && !counterFull s .engine 1 &&
    after (.smov .b64 9 0x51) s (fun t g => if r then g.queue.isEmpty && g.pend.map (fun p => (p.dst, p.act, p.flags)) == [(.pop 9 0, .value [] 0x55, 4)]
      else t.last == .parked && g.slot0.wait == .pop 1)) &&
    after (.smov .b64 9 0x50) ms (fun _ g => g.slot0.wait == .pop 0)) = true := by decide +kernel

/-! ### The matrix engine: SHAPE grants a 2 × 2 region of BF16, K = 3; A at shared 0, B at shared 64, so that A's row 1 is B's column 0 -/

def shapeV : W64 := 0x8000002000000200
def gx : Group := { ge with shape := shapeV, region := (2, 2, 3), s := [(3, 40), (6, 64), (7, 1), (8, 2), (9, 3)] }
def one : List (Nat × Byte) := [(0, 0x80), (1, 0x3F), (3, 0x40), (64, 0x80), (65, 0x3F), (66, 0x80), (67, 0x3F)]
def xs : State := { onM gx with teams := [(0, { newTeam lauM 0 0 0 with groups := [0], shared := one })] }

theorem witness_Shape : (ready (.shape 4 8 8 9 .bf16 .bf16 false) xs && !counterFull xs .engine 1 &&
    after (.shape 4 8 8 9 .bf16 .bf16 false) xs (fun _ g => g.shape == shapeV && g.region == (2, 2, 3) && g.pend.map (fun p => (p.dst, p.act)) == [(.scalar 4, .value [] shapeV)]) &&
    after (.shape 4 10 8 9 .bf16 .bf16 false) xs (fun _ g => g.shape == 0 && g.pend.map (·.act) == [.value [] 1]) &&
    after (.shape 4 8 3 10 .bf16 .bf16 false) xs (fun _ g => g.pend.map (·.act) == [.value [] 3])) = true := by decide +kernel

theorem witness_TileWords : (!shapeLeft gx && gx.shape.getLsbD 63 &&
    ready (.mzero 3) { xs with cores := [(0, { resetCore with tiles := [(12288, 5)] })] } &&
    after (.mzero 3) { xs with cores := [(0, { resetCore with tiles := [(12288, 5)] })] } (fun t g => g.pend.isEmpty && (mget t.cores 0).any (fun c => c.tiles.isEmpty && c.mat.isEmpty)) &&
    ready (.mloop 0 3 5 6 7 5 false) xs && rangeFault xs 0 gx 64 (opRanges 2 0 0 128 1 ++ opRanges 2 64 0 128 1) == none &&
    after (.mloop 0 3 5 6 7 5 false) xs (fun t g => g.pend.length == 1 && (mget t.cores 0).any (fun c => c.mat.map (·.op) == [.loop 3 0 64 0 0 0 1 none false])) &&
    ready (.mdrain 3 0 0 .f32 false) xs &&
    after (.mdrain 3 0 0 .f32 false) xs (fun t _ => (mget t.cores 0).any (fun c => c.mat.map (·.op) == [.drain 3 none none none .f32 false 0]))) = true := by decide +kernel

/-- MatrixSteps: 1 × 1 + 2 × 1 + 0 × 0 = 3 in position (0, 0), 1 + 1 in (1, 0), and a row pushed in four pieces. -/
def tileState (op : MatOp) : State :=
  { xs with groups := [(0, { gx with pend := [{ pendOn .none with id := 5 }] })], fresh := 6,
            cores := [(0, { resetCore with tiles := [(12289, 0x40000000)], mat := [{ id := 5, loc := 0, shape := shapeV, region := (2, 2, 3), op := op }] })] }
theorem witness_MatrixSteps :
    (after (.mloopKStep 0 5) (tileState (.loop 3 0 64 0 0 0 1 none false)) (fun t g => g.pend.isEmpty && g.flags == 0 &&
       (mget t.cores 0).any (fun c => c.mat.isEmpty && c.tiles == [(12288, 0x40400000), (12289, 0x40000000), (12352, 0x40000000)])) &&
     sourceReady (mget (tileState (.loop 3 0 64 0 0 0 1 none false)).groups 0 |>.getD gr) 5 &&
     after (.mdrainRowPush 0 5) (tileState (.drain 3 none none none .f32 false 15)) (fun t g => g.pend.isEmpty && (mget t.cores 0).any (fun c => c.mat.isEmpty) &&
       (mgetD g.queue 0 []).map (fun e => (e.header, e.last)) == [(0x10030F, false), (0x10034F, false), (0x10038F, false), (0x1023CF, true)]) &&
     after (.mdrainRowPush 0 5) (tileState (.drain 3 none none none .bf16 false 0)) (fun t g => g.pend.length == 1 &&
       ((mgetD g.queue 0 []).head?.map (fun e => e.lanes.take 3)) == some [(0, [0]), (1, [0x4000]), (2, [0])] &&
       (mget t.cores 0).any (fun c => c.mat.map (·.op) == [.drain 3 none none (some ([], [])) .bf16 false 1]))) = true := by decide +kernel

/-! ### Completions: a copy of two bytes from scratch 0 to shared 40, a counted fill, a swap, a product, a gather, a collective -/

def copyOf (t : List Byte) (err : Nat) : Copy :=
  { owner := .group 0, core := 0, launch := 0, team := 0, eid := 0, part := 0, chan := 3, slot := 0, tmpl := t,
    arg := [BitVec.ofNat 64 (if tSrck t = 1 then 0x1000 else 0), 40], buf := none, err := err, badsec := 0, lines := [], page := none,
    pageFail := none, waitAt := 0, begun := false, moved := [], held := [], scales := [], wrote := 0, bad := [], merge := false, old := [], fin := none,
    dead := false, sent := none, filled := 0 }
def flight (w : Work) (path : Path) (q : KMap (List QElem)) : State :=
  { onM { gm with pend := [{ pendOn (match w with | .copy _ => .scalar 9 | .mvn _ => .scalar 9 | _ => .none) with path := some path }], queue := q } with
      work := [(1, w)], fresh := 2, hbm := writeLe [] 0x50000 8 0x1122334455667788,
      dies := [(0, { resetDie with colset := [(0, 0x10000)], array := [(0, 7), (1, 9)] })],
      tlb := [.core 0, .copies 0, .other].flatMap (fun u => [{ spillPage with unit := u }, { spillPage with unit := u, page := 0, frame := 5, frames := [5] }]) }
def ownsB (s : State) : Bool :=
  pendLoc s 1 == some 0 && (mget s.groups 0).any (fun g => !allExited g && (g.pend.find? (fun x => x.id == 1)).isSome) &&
  s.fwd.all (fun f => !f.ids.contains 1)

theorem witness_CopiesComplete :
    (let s := flight (.copy (copyOf (template_ 2 3 2 0) 0)) .copy []
     let e := flight (.copy (copyOf (template_ 2 3 2 0) 2)) .copy []
     ownsB s && copyMoves s 1 (copyOf (template_ 2 3 2 0) 0) && decide (2 ≤ copyBound s (copyOf (template_ 2 3 2 0) 0) 2) &&
     (List.range 2).all (fun j => locThere s (.shared 0 (40 + j))) &&
     after (.copyCompletion 1) s (fun t g => g.pend.isEmpty && t.work.isEmpty && gRead g 9 == 0x02000031 && mgetD g.chan 3 0 == 0x02000031 &&
       readLoc t (.shared 0 40) == 7 && readLoc t (.shared 0 41) == 9) &&
     after (.copyCompletion 1) e (fun t g => gRead g 9 == 0x231 && readLoc t (.shared 0 40) == 0x81)) = true := by decide +kernel

def fills (bad : KMap Bool) : State :=
  let l : CLine := { countedLine with line := 64, st := .filling, count := 2, copy := 1, way := 16, data := [] }
  let s := flight (.copy (copyOf (leBytes 8 0x02000401 ++ leBytes 8 4 ++ List.replicate 80 0) 0)) .copy []
  { s with dies := [(0, { resetDie with colset := [(0, 0x10000)], lines := [l] })], hbm := writeLe [] 0x51000 8 0x8877, badLines := bad }
theorem witness_CountedFill : ((fillingOf (fills []) 0 1).length == 1 && (freeWay (fills []) 0 0 64).isSome &&
    (answer (.countedFillComplete 0 1) (fills [])).any (fun t => (linesOf t 0).map (fun l => (l.st, l.data.take 3)) == [(.counted, [0x77, 0x88, 0])]) &&
    (answer (.countedFillComplete 0 1) (fills [(0x51000 / 64, true)])).any (fun t => (linesOf t 0).map (·.st) == [.poisoned])) = true := by decide +kernel

def waiting_ : QElem := { work := 1, ready := false, last := false, header := 0, lanes := [], regs := 0, flags := 0 }
theorem witness_PubSwap : (let s := flight (.pub 0 0 1) .copy []
    let s := { s with teams := [(0, { newTeam lauM 0 0 0 with groups := [0], aliased := [(1, { bufa := 0, bufb := 64, ctl := 0x0000330000000040 })] })] }
    ownsB s && !writesLeft s 0 gm (aliasOf s 0 1) 1 && after (.pubSwap 1) s (fun t g => g.pend.isEmpty && alFront (aliasOf t 0 1) && (aliasOf t 0 1).bufb == 64)) = true := by
  decide +kernel

/-- One row of 32 products of BF16 zeros and x: y holds +0 and the status says 4 bytes. -/
def mvnOf : Mvn :=
  { loc := 0, team := 0, part := 0, eid := 0, core := 0, rows := 1, cols := 32, bf := .bf16, x8 := false, b := 0, x := 0, xs := 2, y := 64, toQ := false,
    page := none, pageFail := none, waitAt := 0 }
theorem witness_MvnCompletes : (let s := flight (.mvn mvnOf) .engine []
    ownsB s && sourceReady (mget s.groups 0 |>.getD gr) 1 && after (.mvnCompletion 1) s (fun t g => g.pend.isEmpty && t.work.isEmpty && gRead g 9 == 0x04000003)) = true := by
  decide +kernel

theorem witness_GatherCompletes : (let s := flight (.gath 0 0 0 [(2, 0)] none 0) .engine [(2, [waiting_])]
    ownsB s && after (.gatherCompletion 1) s (fun _ g => g.pend.isEmpty && (mgetD g.queue 2 []).map (fun e => (e.ready, e.header, e.lanes))
      == [(true, 0, [(2, [0x55667788, 0x11223344, 0, 0])])])) = true := by decide +kernel

def contrib (bad : Bool) : Contrib :=
  { dead := false, fzi := false, fzo := false, loc := 0, pend := 1, team := 0, index := 0, die := 0, num := 0, op := .add, ty := .i32, extent := 1, bad := bad, vals := [(0, 5), (1, 6)], time := 0 }
def collS (bad : Bool) : State := { flight (.coll 0 3 0 [contrib bad]) .engine [(3, [waiting_])] with work := [(4, .coll 0 3 0 [contrib bad])] }
theorem witness_CollectiveCompletes : (ownsB (collS false) && teamIn (collS false) 0 lauM [contrib false] 0 && decide (lauM.gx * lauM.gy * lauM.gz = 1) &&
    after (.collectiveCompletion 4) (collS false) (fun t g => t.work.isEmpty && (mgetD g.queue 3 []).map (fun e => (e.ready, e.header, e.lanes))
      == [(true, 0, [(0, [5]), (1, [6])])]) &&
    after (.collectiveCompletion 4) (collS true) (fun _ g => (mgetD g.queue 3 []).map (fun e => (e.ready, e.header)) == [(true, 0x200)])) = true := by decide +kernel

/-- The states of the witnesses above are canonical: divergence, checks and causes, then matrix steps and completions. -/
theorem witness_CanonIssue : [gs, on busy, on suspended, on lastPath, idle, pended, handling, ringed, withHandler gr].all canon = true := by
  decide +kernel
theorem witness_CanonEngines :
    ([tileState (.loop 3 0 64 0 0 0 1 none false), tileState (.drain 3 none none none .f32 false 15),
      tileState (.drain 3 none none none .bf16 false 0), flight (.copy (copyOf (template_ 2 3 2 0) 0)) .copy [], fills [],
      flight (.pub 0 0 1) .copy [], flight (.mvn mvnOf) .engine [], flight (.gath 0 0 0 [(2, 0)] none 0) .engine [(2, [waiting_])],
      collS false].all canon) = true := by decide +kernel

/-! ### Barriers, waits, pool, regroup: team of one group; `two` has a second group at position 1 -/

theorem witness_Barriers : (ready (.bar 1 0) gs && (barAfter gs gr 1 0).2 && !accessesLeft gr && decide (0 ≤ teamSize gs gr.team) &&
    doesB (.bar 1 0) gs (withBar gs 0 1 (barAfter gs gr 1 0).1) && !(barAfter gs gr 1 2).2 &&
    ready (.arrive 9 1 1) gs && after (.arrive 9 1 1) gs (fun t g => gRead g 9 == 0x100000000 && (teamBar t 0 1).phase == 1) &&
    after (.bar 1 2) gs (fun t g => t.last == .faulted && g.cause == 0x81) && ready (.bar 1 0) (flying (entry .none (.store ((sh 1).zip [7])))) &&
    after (.bar 1 0) (flying (entry .none (.store ((sh 1).zip [7])))) (fun t _ => t.last == .stalled) &&
    after (.bar 1 0) (on busy) (fun t g => t.last == .parked && g.slot0.wait == .pair 1 0 none) &&
    (let s := on { gr with s := [(9, 0x100000000), (10, 0x1FFFFFFFF)] }
     ready (.await 9 1) s && after (.await 9 1) s (fun _ g => g.slot0.wait == .barrier 1 0 none) && doesB (.await 10 1) s s &&
     after (.await 9 2) s (fun t g => t.last == .faulted && g.cause == 0x81))) = true := by decide +kernel

def two (h g : Group) : State :=
  { on h with groups := [(0, h), (8192, { g with num := 1 })], agent := .group 8192 false, launches := [(0, { lau with size := 2 })],
              teams := [(0, { newTeam lau 0 0 0 with groups := [0, 8192] })] }
theorem witness_BarrierWaits : (let s := two gr gr
    ready (.bar 1 0) s && !(barAfter s { gr with num := 1 } 1 0).2 && (answer (.bar 1 0) s).any (fun t => (mget t.groups 8192).any (fun g => g.slot0.wait == .barrier 1 0 (some 0)) &&
      (teamBar t 0 1).arrived == 2)) = true ∧
    (let g := { gr with slot0 := { gr.slot0 with wait := .barrier 1 5 (some 0) } }
     ready (.bar 1 0) (on g) && doesB (.bar 1 0) (on g) (on g)) = true := by decide +kernel

theorem witness_Mwait : (ready (.mwait 9 3 5 false false 0 1) ms && after (.mwait 9 3 5 false false 0 1) ms (fun _ g => gRead g 9 == 0x1281) &&
    (let s := onM { gm with s := [(3, 40), (5, 0x1281)] }
     ready (.mwait 9 3 5 false false 0 1) s && after (.mwait 9 3 5 false false 0 1) s (fun t g => t.last == .parked && g.slot0.wait == .mwait (sh 4) 0x1281 (some 1024) false) &&
     (let w (dl : Nat) (x : Bool) : State := onM { gm with s := [(3, 40), (5, 0x1281)], slot0 := { gm.slot0 with wait := .mwait (sh 4) 0x1281 (some dl) x } }
      after (.mwaitTimeout 0 false) (w 0 false) (fun _ g => g.slot0.wait == .mwait (sh 4) 0x1281 (some 0) true) && answer (.mwaitTimeout 0 false) (w 9 false) == some (w 9 false) &&
      after (.mwait 9 3 5 false false 0 1) (w 0 true) (fun t g => t.last == .issued && gRead g 9 == 0x1281)))) = true := by decide +kernel

theorem witness_Yield : (ready (.yield 0 9) gs && doesB (.yield 0 9) gs gs && (let s := on { gr with preq := true }
    ready (.yield 0 9) s && doesB (.yield 0 9) s (on { gr with yielding := true, preq := false, settle := true, keep := 16, stop := .saving }))) = true := by decide +kernel

/-- A core with 8 free blocks; gr has 64 registers of 16 lanes. -/
def pool (g : Group) (c : Core → Core) : State :=
  { on g with cores := [(0, c { resetCore with free := 8 })], launches := [(0, { lau with roles := [(0x3000, 56, 2), (0x4000, 72, 3), (0x5000, 256, 0)] })] }
def freeOf (s : State) : Nat := (mget s.cores 0).elim 0 (·.free)
theorem witness_RegisterPool : (let s := pool gr id
    ready (.regclm 8) s && after (.regclm 8) s (fun t g => g.allot == 128 && freeOf t == 0) && after (.regclm 9) s (fun t g => g.slot0.wait == .claim &&
      (mget t.cores 0).any (fun c => c.claims == [{ loc := 0, slot := false, role := none, dest := 136 }])) &&
    after (.regclm 25) s (fun t g => t.last == .faulted && g.cause == 0x41) && after (.regrel 9) s (fun t g => t.last == .faulted && g.cause == 0x41) &&
    ready (.regrel 7) s && after (.regrel 7) s (fun t g => g.allot == 8 && freeOf t == 15 && g.v.length == 9) &&
    after (.regrel 7) (pool { gr with pend := [{ pendOn (.vec 12 1) with id := 1 }] } id) (fun t _ => t.last == .stalled) &&
    ready (.role 0 0) s && after (.role 0 0) s (fun t g => g.slot0.pc == 0x3000 && g.base == 2 && g.allot == 56 && freeOf t == 9) &&
    after (.role 0 1) s (fun t g => g.slot0.pc == 0x4000 && g.allot == 72 && freeOf t == 7) && after (.role 0 2) s (fun _ g => g.slot0.wait == .claim) &&
    after (.role 0 3) s (fun t g => t.last == .faulted && g.cause == 0x81) && lendsOrHolds (mget s.groups 0 |>.getD gr) == false) = true := by decide +kernel

theorem witness_ClaimGrant : (let s (k : Claim) := pool { gr with slot0 := { gr.slot0 with wait := .claim } } (fun c => { c with claims := [k] })
    after (.claimGrant 0) (s { loc := 0, slot := false, role := none, dest := 128 }) (fun t g => g.allot == 128 && g.slot0.pc == 0x1000008 && freeOf t == 0) &&
    after (.claimGrant 0) (s { loc := 0, slot := false, role := some 1, dest := 72 }) (fun _ g => g.allot == 72 && g.slot0.pc == 0x4000 && g.base == 3) &&
    answer (.claimGrant 0) (s { loc := 0, slot := false, role := none, dest := 136 }) == some (s { loc := 0, slot := false, role := none, dest := 136 })) = true := by
  decide +kernel

/-- regroup: alone; the last of two; the first of two. The paths are lanes 0 to 3 and lanes 8 to 11. -/
def low : Group := { gr with slot0 := { gr.slot0 with st := .regrouping, target := 0x1000028, pm := 0xF, exec := 0xF } }
def high : Group := { gr with slot0 := { gr.slot0 with pm := 0xF00, exec := 0xF00 } }
theorem witness_RegroupMerges : (ready (.regroup 5) gs && jumpsB (.regroup 5) gs (on (setSlot gr false { gr.slot0 with target := 0x1000028 })) 0x1000028 &&
    ready (.regroup 5) (two low high) && (answer (.regroup 5) (two low high)).any (fun t => (mget t.groups 0).any (fun h => h.slot0.pc == 0x1000028 &&
      h.slot0.exec == 0xF0F && h.slot0.lent == [(1, 0xF00)]) && (mget t.groups 8192).any (fun g => g.slot0.st == .lent)) &&
    ready (.regroup 5) (two gr high) && (answer (.regroup 5) (two gr high)).any (fun t => (mget t.groups 8192).any (fun g => g.slot0.st == .regrouping &&
      g.slot0.target == 0x1000028) && mget t.groups 0 == some gr)) = true := by decide +kernel

/-! ### Traps -/

theorem witness_TrapWords : ([(.trap 7, 0xA3, 7), (.brk 9, 0xA0, 9)] : List (Instr × W64 × Nat)).all (fun p => ready p.1 gs &&
    after p.1 gs (fun t g => t.last == .faulted && g.cause == p.2.1 && g.causeN == p.2.2 && g.slot0.pc == 0x1000008 && g.s == gr.s)) = true ∧
    (ready .tfence gs && doesB .tfence gs gs && (let s := on { gr with flags := 0x3E, flagsen := 0x3C }
      after .tfence s (fun _ g => g.cause == 0x62 && g.flags == 0x3E)) && faultsB (.illegalOpcode 0) gs 0x40 0x0280000001000000) = true ∧ got 0 = none := by
  decide +kernel

/-- HandlerEntryAndReturn: a group of one lane, its frame at VA 0x20000 + 0x840. -/
def trapping : State :=
  let s := withHandler { gr with width := 1, stop := .handler, spill := 0x20000, cause := 0x41, caddr := 0x0280000001000000 }
  { s with tlb := [{ spillPage with frame := 6, frames := [6] }], launches := [(0, { lau with handler := 0x2000, spill := 64 })] }
def trapped : Option State := answer (.handlerEntry 0) trapping
theorem witness_HandlerEntry : trapped.any (fun t => (mget t.groups 0).any (fun g => g.handler && g.stop == .none && g.slot0.pc == 0x2000 && gRead g 1 == 0x41 &&
    gRead g 3 == 0x840 && gRead g 4 == 0x1000000 && gRead g 8 == 0xFFFFFFFFFFFFFFFF &&
    ready .trapRet { t with agent := .group 0 false } && after .trapRet { t with agent := .group 0 false } (fun _ h => !h.handler && h.slot0.pc == 0x1000000 && h.s == gr.s && h.k == gr.k))) = true ∧
    after .trapRet gs (fun t g => t.last == .faulted && g.cause == 0x40) = true ∧ (trapFrame gr).length = 1024 := by decide +kernel

/-- SequencerSteps: a pending group ready since cycle 0 at cycle 4,096, an active one not issued for 256 cycles. -/
def late_ : State :=
  { on gr with groups := [(0, gr), (8192, { gr with active := false, num := 1 })],
               cores := [(0, { resetCore with sq := [(0, { pos := 0, cycle := 4096, frozen := some 0x40, slips := 0, entered := 9 })] })] }
theorem witness_SequencerSteps : ((answer (.pendingPromotion 0 0) late_).any (fun t => (mget t.groups 8192).any (·.active) && (mget t.groups 0).any (fun g => !g.active && g.enteredAt == 9)) &&
    answer (.pendingPromotion 0 0) gs == some gs && (answer (.priorityAging 0 0) late_).any (fun t => (mget t.groups 0).any (fun g => g.eff == 1 && g.agedAt == 4096)) &&
    (answer (.icacheLineArrival 0 0) late_).any (fun t => (seqOf t 0 0).frozen == none)) = true := by decide +kernel

/-! ### Front end 0: queue 0 of enclave 0, its ring at VA 0x30000 held as frame 7; q is what the test sets in the queue -/

def pageAt (page frame : Nat) : Tlb := { spillPage with page := page, frame := frame, frames := [frame] }
def dwordsAt (a : Nat) (l : List Nat) (m : Bytes) : Bytes :=
  ((List.range l.length).zip l).foldl (fun m x => if x.2 = 0 then m else writeLe m (a + 8 * x.1) 8 x.2) m
def ring0 : Queue := { resetQueue with base := 0x30000, enc := true, state := .running, qwr := 1 }
def fe0 (u : Queue) : FrontEnd := { resetFrontEnd with fepart := 47 * 256, queues := mput resetFrontEnd.queues 0 u }
def feS (p : List Nat) (u : Queue) (more : Bytes → Bytes) : State :=
  { gs with fes := [(0, fe0 u)], tlb := [pageAt 3 7, pageAt 4 8, pageAt 5 9].map (fun t => { t with unit := .fetcher 0 }), hbm := more (dwordsAt 0x70000 p []), fresh := 9 }
/-- A packet alone in the ring, with doublewords at 0x80000, which is VA 0x40000. -/
def packet (p : List Nat) (data : List Nat) : State := feS p ring0 (dwordsAt 0x80000 data)
def queueIs (i : Instr) (s : State) (f : State → Queue → Bool) : Bool :=
  (answer i s).any (fun t => f t (queueOf t 0 0))
def headB (s : State) (k : Nat) : Bool :=
  canTake (queueOf s 0 0) && match nextPacket (queueOf s 0 0) with
  | some (c, va) => (match packetRead s 0 0 0 (nextRef (queueOf s 0 0)) va (.packet c) with | (.ok p, t) => decide ((dword p 0).toNat % 16 = k) && t == s | _ => false)
  | none => false

theorem witness_QueueControl :
    (let s := packet [] []
     let u := queueOf s 0 0
     let on_ (x : Queue) : State := feS [] x id
     canon s && feValid (feOf s 0) && queueIs (.queueEnable 0 0) (on_ { u with state := .idle }) (fun _ x => x.state == .running) &&
     queueIs (.queueEnable 0 0) (on_ { u with state := .idle, freeze := true }) (fun _ x => x.state == .frozen) &&
     answer (.queueEnable 0 0) s == some s && queueIs (.queueDisable 0 0) s (fun _ x => x.state == .idle) &&
     answer (.queueDisable 0 0) (on_ { u with enc := false }) == some (on_ { u with enc := false }) &&
     queueIs (.queueFreeze 0 0) s (fun _ x => x.freeze && x.state == .frozen) &&
     queueIs (.queueUnfreeze 0 0) (on_ { u with state := .frozen, freeze := true }) (fun _ x => !x.freeze && x.state == .running) &&
     queueIs (.queueResume 0 0) (on_ { u with state := .error, err := 3 }) (fun _ x => x.state == .running && x.err == 3) &&
     answer (.queueResume 0 0) s == some s && queueIs (.queueDoorbell 0 0 7) s (fun _ x => x.qwr == 7)) = true := by decide +kernel

/-- Thread 0 of enclave 0 on Quartz core 0, granted queue 0. -/
def kicking (l : List Nat) : State :=
  let s := packet [] []
  let e : Enclave := { placeEnclave with queues := 1 }
  { s with fes := [(0, fe0 { ring0 with kicks := l })], basalt := { s.basalt with enclaves := [(0, e)] },
           quartz := [(0, { resetQuartz 0 with halted := false, level := 0, sr := [(0x12, 0x100000000000)] })] }
theorem witness_Kick : (let s := kicking []
    let done (v : W64) (s : State) (f : State → Quartz → Bool) : Bool := (answer (.kick 0 v) s).any (fun t => (mget t.quartz 0).any (f t))
    (mget s.quartz 0).any (fun c => qInside c && storesDone c.pend) && done 0x30040 s (fun t c => srGet c 0 0x11 == 0 && (queueOf t 0 0).kicks == [0x30040]) &&
    done 0x30041 s (fun _ c => srGet c 0 0x11 == 2) && done 0x1000000000030040 s (fun _ c => srGet c 0 0x11 == 1) &&
    (let out := { s with quartz := [(0, { resetQuartz 0 with halted := false })] }
     done 0x30040 out (fun _ c => srGet c 0 0x11 == 3)) && answer (.kick 0 0x30040) (kicking (List.replicate 16 64)) == some (kicking (List.replicate 16 64))) = true := by
  decide +kernel

theorem witness_SignalPackets :
    (let add := packet [0x44, 0x40008, 3] [0, 0xFFFFFFFFFFFFFFFF]
     let set := packet [0x04, 0x40008, 3] [0, 9]
     headB add 4 && headB set 4 && queueIs (.signalPacket 0 0) add (fun t x => readLe t.hbm 0x80008 8 == 2 && x.state == .running && x.qrd == 1 && x.sigDue) &&
     queueIs (.signalPacket 0 0) set (fun t _ => readLe t.hbm 0x80008 8 == 3) &&
     queueIs (.signalPacket 0 0) (packet [0x84, 0x40008, 3] [0, 9]) (fun t x => readLe t.hbm 0x80008 8 == 9 && x.state == .error && x.err == 1 && x.qrd == 1) &&
     queueIs (.joinPacket 0 0) (packet [8] []) (fun _ x => x.state == .running && x.qrd == 1) &&
     queueIs (.joinPacket 0 0) (packet [0x48] []) (fun _ x => x.err == 1)) = true := by decide +kernel

theorem witness_BarrierPackets :
    (let zero := packet [3, 0x40008, 0x40010] [0, 0, 0]
     let pos := packet [3, 0x40008, 0x40010] [0, 0, 5]
     let neg := packet [3, 0x40008, 0x40010] [0, 0, 0xFFFFFFFFFFFFFFFF]
     let waits : State := feS [3, 0x40008] { ring0 with state := .waiting, wait := .barrier } id
     headB zero 3 && queueIs (.barrierPacket 0 0) zero (fun _ x => x.state == .running && x.qrd == 1) &&
     queueIs (.barrierPacket 0 0) pos (fun _ x => x.state == .waiting && x.wait == .barrier && x.qrd == 0) &&
     queueIs (.barrierPacket 0 0) neg (fun _ x => x.state == .error && x.err == 2 && x.qrd == 0 && x.cancelled == [.ring 0]) &&
     queueIs (.barrierPacket 0 0) (packet [3] []) (fun _ x => x.err == 1) &&
     headB waits 3 && queueIs (.barrierEvaluation 0 0) waits (fun _ x => x.state == .running && x.qrd == 1) &&
     answer (.barrierEvaluation 0 0) zero == some zero) = true := by decide +kernel

/-- A COPY whose queue has launched nothing names no template; PRED with arms of 1 and 1; CALL of two packets; ABORT of queue 1. -/
theorem witness_CopyPackets : (let s := packet [5, 0x40000, 0, 0] []
    headB s 5 && (match nextPacket (queueOf s 0 0) with | some (_, va) => (match feRead s 0 0 va 64 (.packet .ring) with
      | (.ok p, _) => (match packetCopy s 0 0 p none 0 (.packet .ring) with | (.ok c, t) => c.err != 0 && t == s | _ => false) | _ => false) | none => false) &&
    queueIs (.copyPacket 0 0) s (fun t x => x.qrd == 1 && x.out == [{ idx := 0, work := 9 }] && (mget t.work 9).isSome && t.fresh == 10)) = true := by decide +kernel
theorem witness_PredPackets : (let p (c : Nat) (x : Nat) : State := packet [6 + 64 * c + 0x10000 + 0x2000000, 0x40008, 5] [0, x]
    headB (p 0 5) 6 && queueIs (.predPacket 0 0) (p 0 5) (fun _ x => x.qrd == 1 && x.ringArms == [(1, 2)]) &&
    queueIs (.predPacket 0 0) (p 0 4) (fun _ x => x.qrd == 2 && x.ringArms == []) &&
    queueIs (.predPacket 0 0) (packet [0x2000006, 0x40008, 5] [0, 5]) (fun _ x => x.qrd == 3 && x.ringArms == []) &&
    queueIs (.predPacket 0 0) (p 2 0xFFFFFFFFFFFFFFFF) (fun _ x => x.ringArms == [(1, 2)]) &&
    queueIs (.predPacket 0 0) (p 4 5) (fun _ x => x.err == 1)) = true := by decide +kernel
theorem witness_CallPackets : (let s := packet [7, 0x40000, 2] []
    let deep := feS [7, 0x40000, 2] { ring0 with calls := List.replicate 8 { next := 0x30000, left := 1, arms := [], path := none } } id
    headB s 7 && queueIs (.callPacket 0 0) s (fun _ x => x.calls == [{ next := 0x40000, left := 2, arms := [], path := aheadKey (queueOf s 0 0) (.ring 0) }] && nextPacket x == some (.call, 0x40000)) &&
    queueIs (.callPacket 0 0) (packet [7, 0x40000, 0] []) (fun _ x => x.err == 1) && headB deep 7 &&
    queueIs (.callPacket 0 0) deep (fun _ x => x.err == 8)) = true := by decide +kernel
theorem witness_AbortPackets : (let f (u : Queue) : State := let s := packet [10, 1] []
      { s with fes := [(0, { feOf s 0 with queues := mput (feOf s 0).queues 1 u })] }
    let s := f { ring0 with qwr := 0 }
    headB s 10 && laterPackets (queueOf s 0 1) == [] && queueIs (.abortPacket 0 0) s (fun t x => x.qrd == 1 && (queueOf t 0 1).state == .error && (queueOf t 0 1).err == 2) &&
    queueIs (.abortPacket 0 0) (f { ring0 with eid := 1 }) (fun _ x => x.err == 1)) = true := by decide +kernel

/-! ### Prologue routines and graphs -/

def proPacket : List Nat := [2, 0x1000, 11, 12, 13, 14, 15, 16]
def proLaunch : List Nat := [1, 0x50000, 0x1000100000001, 0, 0, 0, 0, 77]
theorem witness_PrologueStart : (let s := feS (proPacket ++ proLaunch) { ring0 with qwr := 2 } id
    headB s 2 && queueIs (.prologuePacket 0 0) s (fun t x => x.state == .waiting && (match x.pair with | some p => p.iter == 0 | none => false) &&
      (let r := (feOf t 0).pro
       r.queue == some 0 && r.pc == 0x1000 && sRead r.s 1 == 0 && sRead r.s 2 == 11 && sRead r.s 7 == 16 && sRead r.s 8 == 1 && sRead r.s 15 == 77))) = true := by
  decide +kernel

/-- The routine of a pair that has ended with a code, s8 to s15 being the image of a launch. -/
def ended (code : Option Nat) (words : Nat) (img : List Nat) (data : Bytes → Bytes) : State :=
  let s := feS [] { ring0 with qwr := 2, qrd := 2, state := .waiting, pair := some { idx := 0, entry := 0x1000, args := [], img := List.replicate 64 0, iter := 0, again := false } } data
  { s with fes := [(0, { feOf s 0 with pro := { resetPrologue with queue := some 0, code := code, words := words, s := ((List.range 8).zip img).foldl (fun m x => msetD m (8 + x.1) (BitVec.ofNat 64 x.2) 0) [] } })] }
theorem witness_PrologueEnds : (queueIs (.prologueExit 0) (ended (some 0) 9 [] id) (fun t x => x.pair == none && x.out == [] && (feOf t 0).pro.queue == none) &&
    queueIs (.prologueRunLimit 0) (ended none (2 ^ 20 + 1) [] id) (fun _ x => x.state == .error && x.err == 6 && x.pair == none) &&
    answer (.prologueRunLimit 0) (ended none (2 ^ 20) [] id) == some (ended none (2 ^ 20) [] id)) = true := by decide +kernel

/-- A graph of three nodes at VA 0x40000 of which node 0 is ready; the value it reads is at 0x40100. -/
def graphS (node : List Nat) (x : Nat) (joins iters : KMap Nat) : State :=
  let s := feS [] ring0 (fun m => dwordsAt 0x80100 [x] (dwordsAt 0x80000 node m))
  let g : Graph := { id := 5, queue := 0, idx := 0, base := 0x40000, count := 3, running := [], ready := [0], joins := joins, iters := iters, ending := false }
  { s with fes := [(0, { feOf s 0 with graph := some g, queues := mput (feOf s 0).queues 0 { ring0 with out := [{ idx := 0, work := 5 }] } })] }
def graphIs (i : Instr) (s : State) (f : Graph → Bool) : Bool := (answer i s).any (fun t => ((feOf t 0).graph).any f)
theorem witness_GraphStart : (let s := packet [9, 0x40000, 0x10003] []
    headB s 9 && queueIs (.graphPacket 0 0) s (fun t x => x.out == [{ idx := 0, work := 9 }] && x.qrd == 1 &&
      ((feOf t 0).graph).any (fun g => g.ready == [1] && g.count == 3 && g.base == 0x40000))) = true := by decide +kernel
theorem witness_GraphNodes : (let cond (x : Nat) := graphS [3, 0x20001, 0x40100, 7, 0] x [] []
    let whl (x n : Nat) (it : KMap Nat) := graphS [4, 0x20001, 0x40100, 7, 1 + n * 2 ^ 32] x [] it
    graphIs (.condNode 0 0) (cond 7) (fun g => g.ready == [1]) && graphIs (.condNode 0 0) (cond 8) (fun g => g.ready == [2]) &&
    graphIs (.whileNode 0 0) (whl 8 2 []) (fun g => g.ready == [1] && g.iters == [(0, 1)]) && graphIs (.whileNode 0 0) (whl 7 2 [(0, 1)]) (fun g => g.ready == [2] && g.iters == []) &&
    queueIs (.whileNode 0 0) (whl 8 2 [(0, 2)]) (fun t x => x.state == .error && x.err == 7 && (feOf t 0).graph == none) &&
    (let join (j : KMap Nat) := graphS [0x205, 0xFFFF0001] 0 j []
     graphIs (.graphJoinNode 0 0) (join []) (fun g => g.ready == [] && g.joins == [(0, 1)]) && graphIs (.graphJoinNode 0 0) (join [(0, 1)]) (fun g => g.ready == [1] && g.joins == [])) &&
    queueIs (.endNode 0 0) (graphS [6, 0xFFFFFFFF] 0 [] []) (fun t x => x.out == [] && (feOf t 0).graph == none)) = true := by decide +kernel

/-- A copy node: its COPY packet is at VA 0x50000 and names a slot that no launch has described. -/
theorem witness_CopyNode : (let s0 := graphS [2, 0xFFFF0001, 0x50000] 0 [] []
    let s := { s0 with hbm := dwordsAt 0x90000 [5, 0x40000, 0, 0] s0.hbm }
    graphIs (.copyNode 0 0) s (fun g => g.ready == [] && g.running == [{ i := 0, work := 9, next0 := 1, next1 := 0xFFFF }])) = true := by decide +kernel

/-! ### System calls: front end 0 has a ring of one entry at 0xA0000; lanes 0 to 15 of gr ask for v4 -/

def ringS (svc : Bool) : State :=
  { gs with fes := [(0, { fe0 ring0 with fering := 0xA0000, seq := 3 })], basalt := { gs.basalt with svctl := if svc then 1 else 0 } }
theorem witness_SystemCalls : (let i : Instr := .sysc 16 4 0 true 2
    ready i (ringS true) && live gr false != 0 && !counterFull (ringS true) .syscall 1 && served (ringS true) 0 && !served (ringS false) 0 &&
    (List.range 64).all (fun j => (mget (ringS true).groups (homeLoc (ringS true) 0 gr false j)).isSome) &&
    after i (ringS true) (fun t g => g.pend.map (·.dst) == [.vec 16 2] && (feOf t 0).sysc.map (fun x => (x.seq, x.svc, x.wait, x.todo.take 2)) == [(3, 0, true, [(0, 1), (1, 2)])] &&
      (feOf t 0).seq == 4 && readLe t.hbm 0xA0000 8 == 0x300000100 && readLe t.hbm 0xA0020 8 == 1 && readLe t.hbm 0xA0040 16 == 1 + 2 * 2 ^ 64) &&
    after i (ringS false) (fun t g => (lanesOf (live g false) g.width).all (fun j => vRead64 t 0 g false 16 j == 0x0300000000000000) && (feOf t 0).sysc == [] &&
      readLe t.hbm 0xA0020 8 == 2)) = true := by decide +kernel

/-- An entry of the ring with lane 1 unanswered; the group awaits it. -/
def asked (svc : Nat) (v : W64) (wait : Bool) (heap : KMap Nat) : State :=
  let e : SysEntry := { seq := 3, loc := 0, id := 1, eid := 0, svc := svc, wait := wait, deadline := 0, todo := [(1, v)], replies := [] }
  let s := on { gr with pend := [{ pendOn (.vec 16 2) with path := some .syscall, lanes := 2 }] }
  { s with fes := [(0, { fe0 ring0 with fering := 0xA0000, seq := 4, sysc := [e] })], basalt := { s.basalt with enclaves := [(0, { placeEnclave with heap := heap })] } }
def answered (i : Instr) (s : State) (v : Nat) (heap : KMap Nat) : Bool :=
  after i s (fun t g => g.pend.isEmpty && vRead64 t 0 g false 16 1 == BitVec.ofNat 64 v && readLe t.hbm 0xA0048 8 == v && readLe t.hbm 0xA0020 8 == 2 &&
    (feOf t 0).sysc == [] && (feOf t 0).irqSys && (mget t.basalt.enclaves 0).any (fun e => e.heap == heap))
theorem witness_SystemReplies : (canon (asked 0 0 false []) && answered (.alloc 0 3 1) (asked 0 0 false []) (2 * 2 ^ 56) [] &&
    answered (.alloc 0 3 1) (asked 0 (BitVec.ofNat 64 (2 ^ 40 + 1)) false []) (2 * 2 ^ 56) [] && answered (.free 0 3 1) (asked 1 0 false [(4096, 256)]) 0 [(4096, 256)] &&
    answered (.free 0 3 1) (asked 1 4097 false [(4096, 256)]) (2 * 2 ^ 56) [(4096, 256)] && answered (.free 0 3 1) (asked 1 4096 false [(4096, 256)]) 0 [] &&
    answered (.syscDeadlineExpiry 0 3) (asked 0 0 true []) (2 * 2 ^ 56) [] && answered (.syscDeadlineExpiry 0 3) (asked 1 4096 true [(4096, 256)]) 0 [] && answer (.syscDeadlineExpiry 0 3) (asked 0 9 false []) == some (asked 0 9 false [])) = true := by
  decide +kernel

/-! ### Launches: a kernel of 16 lanes, 64 registers, one group a team, its descriptor at VA 0x40000, spill pool at VA 0x50000 -/

def launchPacket (flags thr gx : Nat) : List Nat := [1 + 31 * 256 + flags, 0x40000 + thr * 2 ^ 56, gx + 2 ^ 32 + 2 ^ 48, 0, 11, 12, 13, 14]
def kernel : List Nat := [0x50000, 64 * 256, 0]
def empty_ (p : List Nat) (u : Queue) (d : List Nat) : State :=
  { feS p u (dwordsAt 0x80000 d) with
      groups := [], teams := [], launches := [], cores := [(0, resetCore)],
      dies := [(0, { resetDie with colset := [(0, 0x10000)] })] }
def spilled : Queue := { ring0 with spill := 0x50000, spillLen := 1 }
theorem witness_Launches : (let s := empty_ (launchPacket 0 0 2) spilled kernel
    headB s 1 && queueIs (.launchPacket 0 0) s (fun t x => x.state == .waiting && x.placing == some 0 && x.out == [{ idx := 0, work := 0 }] && x.qrd == 1 &&
      x.launches == 1 && (mget t.launches 0).any (fun l => l.gx == 2 && l.gy == 1 && l.args == [11, 12, 13, 14] && l.code == 0x50000 && l.width == 16 &&
        l.vregs == 64 && l.size == 1 && l.next == 0 && !l.done)) &&
    queueIs (.launchPacket 0 0) (empty_ (launchPacket 0 0 0) spilled kernel) (fun _ x => x.err == 1) &&
    queueIs (.launchPacket 0 0) (empty_ (launchPacket 0 0 2) spilled [0x50004]) (fun _ x => x.err == 1) &&
    queueIs (.launchPacket 0 0) (empty_ (launchPacket 0 0 2) ring0 kernel) (fun _ x => x.err == 1)) = true := by decide +kernel
/-- A co-resident grid of two groups of 16 lanes fits no pool for one group. -/
theorem witness_Residency : (queueIs (.launchPacket 0 0) (empty_ (launchPacket 64 0 2) spilled kernel) (fun _ x => x.state == .error && x.err == 4) &&
    queueIs (.launchPacket 0 0) (empty_ (launchPacket 64 0 1) spilled kernel) (fun _ x => x.placing == some 0) &&
    (let few (u : Queue) (r : Nat) : State := let s := empty_ (launchPacket 0 128 2) u kernel; { s with shale := { s.shale with wset := [(0, (100, r, 0))] } }
     queueIs (.launchPacket 0 0) (few spilled 50) (fun _ x => x.state == .waiting && x.wait == .residency && x.qrd == 0) &&
     (let w : Queue := { spilled with state := .waiting, wait := .residency }
      queueIs (.residencyGate 0 0) (few w 50) (fun _ x => x.wait == .residency) && queueIs (.residencyGate 0 0) (few w 51) (fun _ x => x.placing == some 0)) &&
     answer (.residencyGate 0 0) (few spilled 51) == some (few spilled 51))) = true := by decide +kernel

/-- Launch 0 with no team placed, in a queue with room for one group. -/
def lau2 : Launch := { lau with gx := 2, next := 0, lastCore := none, args := [11, 12, 13, 14], code := 0x50000, vregs := 64, used := [] }
def placing : State := { empty_ [] { spilled with state := .waiting, placing := some 0, qrd := 1 } [] with launches := [(0, lau2)] }
theorem witness_TeamPlacement : ((findCore placing lau2).isSome && answer (.teamPlacement 0) { placing with cores := [] } == some { placing with cores := [], launches := [(0, { lau2 with waiting := true })] } &&
    answer (.teamPlacement 0) { placing with launches := [(0, { lau2 with waiting := true })] } == some { placing with launches := [(0, { lau2 with waiting := true })] } &&
    (answer (.teamPlacement 0) placing).any (fun t => (mget t.teams 9).any (fun x => x.groups == [0] && x.core == 0 && x.index == 0) &&
      (mget t.launches 0).any (fun l => l.next == 1 && l.lastCore == some 0) && (mget t.cores 0).any (fun c => c.free == 1528) &&
      (mget t.groups 0).any (fun g => g.allot == 64 && g.slot0.pc == 0x50000 && g.slot0.exec == 0xFFFF && g.slot1.st == .free && gRead g 1 == 11 && gRead g 4 == 14 &&
        g.spill == 0x50000) && (queueOf t 0 0).spillUsed == [(0x50000, 49152)] && answer (.teamPlacement 0) t == some { t with launches := mupd t.launches 0 (fun l => { l with waiting := true }) })) = true := by decide +kernel

/-- The last of one group, all lanes exited; and the same with a store in flight. -/
def gone (g : Group) : State := on { g with slot0 := { g.slot0 with st := .free, pm := 0, exec := 0 }, exited := 0xFFFF }
theorem witness_GroupRetirement : (let s := gone gr
    canon s && (mget s.groups 0).any allExited && !allExited gr && answer (.groupRetirement 0) gs == some gs &&
    (answer (.groupRetirement 0) s).any (fun t => t.groups.isEmpty && t.teams.isEmpty && (mget t.launches 0).any (fun l => l.retired == lau.retired + 1) &&
      freeOf t == freeOf s + gr.allot / 8 * 16 / 16) &&
    (let b := gone { gr with pend := [entry .none (.store ((sh 1).zip [7]))] }
     answer (.groupRetirement 0) b == some b) &&
    (let e (g : Group) : Group := { g with slot0 := { g.slot0 with st := .free, pm := 0, exec := 0 }, exited := 0xFFFF }
     (answer (.groupRetirement 0) (two (e gr) gr)).any (fun t => (mget t.teams 0).any (fun x => x.retired == 1) && (mget t.launches 0).any (fun l => l.retired == lau.retired)))) = true := by
  decide +kernel

/-- Launch 0, its one team retired; packet 0 of the queue is in progress, the completion signal at VA 0x40008 holds 5. -/
def over_ (l : Launch) (u : Queue) (f : FrontEnd → FrontEnd) : State :=
  let s := empty_ [] { u with out := [{ idx := 0, work := 0 }], ien := true } [0, 5]
  { s with fes := s.fes.map (fun x => (x.1, f x.2)), launches := [(0, { l with retired := 1, gx := 1, next := 1 })] }
theorem witness_GridCompletion : (
    queueIs (.gridCompletion 0) (over_ lau2 ring0 id) (fun t x => x.out == [] && x.state == .running && (mget t.launches 0).any (·.done) && (feOf t 0).irqQ == 1) &&
    queueIs (.gridCompletion 0) (over_ { lau2 with sig := 0x40008 } ring0 id) (fun t x => x.out == [] && readLe t.hbm 0x80008 8 == 4) &&
    answer (.gridCompletion 0) placing == some placing &&
    queueIs (.gridCompletion 0) (over_ { lau2 with prologue := true } { ring0 with pair := some { idx := 0, entry := 0, args := [], img := [], iter := 0, again := false } } id)
      (fun _ x => x.out == [] && (match x.pair with | some p => p.again && p.iter == 1 | none => false)) &&
    queueIs (.gridCompletion 0) (over_ { lau2 with node := some 0 } ring0 (fun f => { f with graph := some { id := 5, queue := 0, idx := 0, base := 0, count := 3, running := [{ i := 0, work := 0, next0 := 2, next1 := 0xFFFF }], ready := [1], joins := [], iters := [], ending := false } }))
      (fun t _ => ((feOf t 0).graph).any (fun g => g.ready == [1, 2] && g.running == []))) = true := by decide +kernel

/-- A kernel node, its LAUNCH packet at VA 0x30000; the pair of a routine that has ended with code 1. -/
theorem witness_KernelNode : (let s0 := graphS [1, 0xFFFF0001, 0x30000] 0 [] []
    let s : State := { s0 with
        hbm := dwordsAt 0x80200 kernel (dwordsAt 0x70000 [1 + 31 * 256, 0x40200, 1 + 2 ^ 32 + 2 ^ 48] s0.hbm),
        fes := s0.fes.map (fun x => (x.1, { x.2 with queues := mput x.2.queues 0 spilled })), dies := [(0, { resetDie with colset := [(0, 0x10000)] })] }
    graphIs (.kernelNode 0 0) s (fun g => g.ready == [] && g.running == [{ i := 0, work := 0, next0 := 1, next1 := 0xFFFF }])) = true := by decide +kernel
theorem witness_PrologueLaunch : (let s0 := ended (some 1) 9 (launchPacket 0 0 1) (dwordsAt 0x80000 kernel)
    let s : State := { s0 with
        fes := s0.fes.map (fun x => (x.1, { x.2 with queues := mupd x.2.queues 0 (fun u => { u with spill := 0x50000, spillLen := 1 }) })), launches := [],
        dies := [(0, { resetDie with colset := [(0, 0x10000)] })] }
    queueIs (.prologueExit 0) s (fun t x => x.pair == none && x.placing == some 0 && (feOf t 0).pro.queue == none && (mget t.launches 0).any (fun l => l.code == 0x50000))) = true := by
  decide +kernel

/-! ### Quartz core 0 at L2, untranslated: s3 = 0x70000, where device memory holds a doubleword -/

def q0 : Quartz := { resetQuartz 0 with halted := false, pc := 0x1000000, s := [(3, 0x70000), (4, 4), (5, 7), (6, 0x71000)], k := [(2, 9)] }
def qOf (q : Quartz) (tl : List Tlb) : State :=
  { gs with agent := .quartz 0, groups := [], quartz := [(0, q)], hbm := dwordsAt 0x70000 [0x1122334455667788, 5] [], tlb := tl, fresh := 9,
            basalt := { gs.basalt with own := [(7, { freeOwn with cls := 1 })] } }
def qm : State := qOf q0 []
def qAfter (i : Instr) (s : State) (f : State → Quartz → Bool) : Bool := (answer i s).any (fun t => (mget t.quartz 0).any (f t))
def qmo (wt : MWidth) (off : BitVec 20) : MOp := { data := 8, base := 3, index := 0, off := off, wt := wt, sv := .s2, k := 0 }
def qao (op : AtomOp) : AOp :=
  { d := 9, base := 3, index := 0, data := 5, op := op, order := .rlx, scope := .dev, use := .unpaired, w64 := true, scr := false, k := 0, uni := true }

/-- A store, a load and an atomic go in flight; with an S access in flight a second one waits; a misaligned address traps. -/
theorem witness_QuartzIssue : ([Instr.ldm (qmo .b64 8), .stm (qmo .b32 4), .atomm (qao .add)].all (fun i => ready i qm && !(qAfter i qm (fun t _ => t.last == .stalled)) &&
      qAfter i qm (fun _ q => q.pend.map (fun p => (p.id, p.kind)) == [(9, .s)]) &&
      (let busy := qOf { q0 with pend := [coreEntry 8 .s .rlx .none .nothing] } []
       qAfter i busy (fun t q => t.last == .stalled && q.pend.length == 1))) &&
    (let far := qOf { q0 with s := [(3, 2 ^ 64 - 8), (4, 16)] } []
     [Instr.ldm { qmo .b64 0 with index := 4 }, .stm { qmo .b64 0 with index := 4 }].all (fun i => ready i far &&
       qAfter i far (fun t q => t.last == .faulted && srGet q 2 0x82 % 256 == 0x20 && srGet q 2 0x83 == 8))) &&
    [Instr.ldm (qmo .b64 4), .stm (qmo .b32 1)].all (fun i => ready i qm && qAfter i qm (fun t q => t.last == .faulted && srGet q 2 0x82 % 256 == 0x25 &&
      srGet q 2 0x83 == (if i = .ldm (qmo .b64 4) then 0x70004 else 0x70001)))) = true := by decide +kernel

theorem witness_QuartzLands : (
    qAfter (.deferredResultReturn (.quartz 0) 1) (qOf { q0 with pend := [coreEntry 1 .s .rlx (.scalar 8) (.load .i8 [{ lane := 0, locs := [.hbm 0x70000] }])] } [])
      (fun _ q => q.pend.isEmpty && sRead q.s 8 == 0xFFFFFFFFFFFFFF88) &&
    qAfter (.deferredResultReturn (.quartz 0) 1) (qOf { q0 with pend := [coreEntry 1 .priv .rlx (.scalar 8) (.value [] 77)] } []) (fun _ q => sRead q.s 8 == 77) &&
    qAfter (.deferredResultReturn (.quartz 0) 1)
      (qOf { q0 with pend := [coreEntry 1 .s .rlx (.scalar 8) (.atomic .add true false [({ lane := 0, locs := (List.range 8).map (fun j => .hbm (0x70008 + j)) }, 7, 0)])] } [])
      (fun t q => sRead q.s 8 == 5 && readLe t.hbm 0x70008 8 == 12)) = true := by decide +kernel

/-! A cause from L0: to L1 with TVEC 0x5000 there; n of trap; L2 without a vector halts. -/

theorem witness_QuartzCauses : (let s := qOf { q0 with level := 0, sr := [(0x181, 0x5000)] } []
    qAfter (.quartzTrapEntry 0 0xA3 7 0) s (fun _ q => q.level == 1 && q.pc == 0x5000 && srGet q 1 0x82 == 0x700A3 && srGet q 1 0x84 == 0x1000008 && !q.halted) &&
    qAfter (.quartzTrapEntry 0 0x23 0 0x70000) s (fun _ q => q.level == 2 && q.halted && srGet q 2 0x83 == 0x70000 && srGet q 2 0x84 == 0x1000000 && srGet q 2 0x85 == 0) &&
    ready (.trap 7) s && qAfter (.trap 7) s (fun t q => t.last == .faulted && q.level == 1 && q.pc == 0x5000 && q.s == q0.s) &&
    ready (.brk 5) s && qAfter (.brk 5) s (fun _ q => q.level == 1 && q.pc == 0x5000) &&
    [Instr.eret, .wfi, .halt, .encmk 9 3, .enckill 9 3, .dbgrd 9 3, .mfp 9 3 0, .mtp 3 0 9, .tlbinvAsid 3 4].all (fun i =>
      qAfter i s (fun t q => t.last == .faulted && q.level == 1 && q.pc == 0x5000))) = true := by decide +kernel

/-- Thread 1 of enclave 2, its save areas at VA 0x20000, page 2 held as frame 3. -/
def inside : State :=
  let s := qOf { q0 with level := 0, sr := [(0x12, 0x100200010000)] } [{ spillPage with tag := 0xF002, unit := .other }]
  { s with basalt := { s.basalt with own := [], enclaves := [(2, { placeEnclave with threads := 2, tsa := 0x20000, th := [(1, { expected := 5, soft := false })] })] } }
theorem witness_EnclaveEntry : ((mget inside.quartz 0).any (fun q => qInside q && qEid q == 2 && qThread q == 1) &&
    qAfter (.quartzTrapEntry 0 0xA3 7 0) inside (fun t q => q.level == 1 && srGet q 1 0x82 == 0x2000704A3 && srGet q 0 0x8B == 0x8000000000010002 && sRead q.s 3 == 0x70000 &&
      q.k == [] && readLe t.hbm 0x30400 8 == 0x1000008 && readLe t.hbm 0x306B0 8 == 6 && readLe t.hbm 0x30450 8 == 0x70000 &&
      (mget t.basalt.enclaves 2).any (fun e => mgetD e.th 1 { expected := 0, soft := false } == { expected := 6, soft := true })) &&
    qAfter (.quartzTrapEntry 0 0x40 0 0) inside (fun _ q => q.s == [])) = true := by decide +kernel

/-- From L2: eret to L0 at TPC; with ETHR naming thread 1 of enclave 2; with a wrong save count; with no such enclave; to a level above its own. -/
def returning (ethr cnt : Nat) (level tstat : Nat) : State :=
  let s := qOf { q0 with level := level, sr := ([(0x8B, BitVec.ofNat 64 ethr), (0x184, 0x7000), (0x185, BitVec.ofNat 64 tstat), (0x284, 0x7000), (0x285, BitVec.ofNat 64 tstat)] : KMap W64).filter (fun x => x.2 != 0) } [{ spillPage with tag := 0xF002, unit := .other }]
  { s with basalt := inside.basalt, hbm := dwordsAt 0x30400 [0x9000, 0, 1, 0, 0, 0, 0, 0, 111] (dwordsAt 0x306B0 [cnt] []) }
theorem witness_QuartzReturns : (
    ready .eret (returning 0 5 2 4) && qAfter .eret (returning 0 5 2 4) (fun _ q => q.level == 0 && q.pc == 0x7000 && srGet q 2 0x87 == 1 && q.s == q0.s) &&
    qAfter .eret (returning 0x8000000000010002 5 2 4) (fun _ q => q.level == 0 && q.pc == 0x9000 && qInside q && qEid q == 2 && qThread q == 1 && q.divzero && sRead q.s 1 == 111 && srGet q 0 0x8B == 0) &&
    qAfter .eret (returning 0x8000000000010002 4 2 4) (fun _ q => q.level == 2 && srGet q 2 0x82 == 0x202 && srGet q 2 0x83 == 0x20400) &&
    qAfter .eret (returning 0x8000000000010003 5 2 4) (fun _ q => q.level == 2 && srGet q 2 0x82 == 0x223) &&
    qAfter .eret (returning 0 5 1 2) (fun t q => t.last == .faulted && q.level == 1 && q.halted) &&
    ready .halt qm && qAfter .halt qm (fun _ q => q.halted && q.pc == 0x1000008) && ready .wfi qm && ipend qm 0 == 0 && qAfter .wfi qm (fun _ q => q.parked) &&
    (let p := { qm with bells := 1 }
     ready .wfi p && ipend p 0 == 0x20 && qAfter .wfi p (fun _ q => !q.parked && q.pc == 0x1000008))) = true := by decide +kernel

/-- Timer and doorbell pend; IROUTE sends the doorbell to L2 and the timer to L1, where IEN is 1. -/
theorem witness_Interrupts : (let q : Quartz := { q0 with level := 1, sr := [(0x89, 0x20), (0x8A, 100), (0x181, 0x5000), (0x187, 1), (0x281, 0x6000), (0x287, 1)] }
    let s (t : Nat) : State := { qOf q [] with time := t, bells := 1 }
    ipend (s 100) 0 == 0x21 && ipend (s 99) 0 == 0x20 && qAfter (.interruptEntry 0) (s 100) (fun _ x => x.level == 1 && x.pc == 0x5000) &&
    qAfter (.interruptEntry 0) (s 99) (fun _ x => x.level == 2 && x.pc == 0x6000) && answer (.interruptEntry 0) qm == some qm &&
    qAfter (.tcmpWrite 0 5) qm (fun _ x => srGet x 0 0x8A == 5) && qAfter (.timerExpiry 0) (s 7) (fun t _ => t.time == 100) &&
    qAfter (.wfiWake 0) { qm with quartz := [(0, { q0 with parked := true })], bells := 1 } (fun _ x => !x.parked) && answer (.wfiWake 0) qm == some qm &&
    (answer (.doorbellRing 3) qm).any (fun t => t.bells == 8) && (answer (.doorbellClear 0) { qm with bells := 9 }).any (fun t => t.bells == 8) &&
    answer (.bmrepRead 0) qm == some qm && (answer (.bmrepRead 0) { qm with basalt := { qm.basalt with reports := [4, 6] } }).any (fun t => t.basalt.reports == [6])) = true := by
  decide +kernel

/-! ### Translation: core 0 at L1, its tables in frames 1, 2 and 3, VA page 4 at frame 8 -/

def walking (leaf : Nat) (tl : List Tlb) : State :=
  let s := qOf { q0 with level := 1, sr := [(0x8C, 0x10001)] } tl
  let own (n : Nat) : Nat × Own := (n, { freeOwn with cls := 2 })
  { s with hbm := dwordsAt 0x10000 [0x20003] (dwordsAt 0x20000 [0x30003] (dwordsAt 0x30020 [leaf] [])), basalt := { s.basalt with own := [own 1, own 2, own 3, own 8] } }
theorem witness_TranslationWalks : (let s := walking 0x80011 []
    let w (acc : Acc) : Option State := answer (.translationWalk (.quartz 0) 0x40008 acc) s
    canon s && (w .read).any (fun t => readLe t.hbm 0x30020 8 == 0x80051 && t.tlb.map (fun e => (e.page, e.frame, e.w, e.x, e.u, e.d, e.frames, e.ipas))
      == [(4, 8, true, false, false, false, [8, 3, 2, 1], [])]) && (w .write).any (fun t => readLe t.hbm 0x30020 8 == 0x800D1) &&
    (w .write).any (fun t => (match (translate t (agentCtx t (.quartz 0)) 0x40008 .write false).1 with | .ok pa _ => pa == 0x80008 | _ => false) &&
      answer (.translationWalk (.quartz 0) 0x40008 .read) t == some t) &&
    answer (.translationWalk (.quartz 0) 0x40008 .read) (walking 0x80010 []) == some (walking 0x80010 []) &&
    (agentCtx ms (.group 0 false)).unit == .core 0 && ms.tlb.length == 1 &&
    answer (.translationWalk (.group 0 false) 0x20008 .read) ms == some ms) = true := by decide +kernel

/-- tlbinv: translations of VMID 0 and 1; s5 = 7 (ASID 7, VMID 7), s4 = 0x40000 (page 4). -/
def asidPage (part tag page : Nat) : Tlb := { pageAt page 8 with part := part, tag := tag, ipas := [page] }
def invTlb : List Tlb := [asidPage 0 7 4, asidPage 0 7 5, asidPage 0 8 4, asidPage 7 7 4]
def inv (q : Quartz) : State := qOf { q with s := [(4, 0x40000), (5, 7)] } invTlb
def left_ (i : Instr) (s : State) : List (Nat × Nat × Nat) := match answer i s with | some t => t.tlb.map (fun e => (e.part, e.tag, e.page)) | none => []
def stale_ : QAccess := { who := .packet .ring, page := some 4, torn := some 6 }
theorem witness_Invalidation : (ready (.tlbinvAsid 4 5) (inv q0) && left_ (.tlbinvAsid 4 5) (inv q0) == [(0, 8, 4)] && left_ (.tlbinvVa 4 5) (inv q0) == [(0, 7, 5), (0, 8, 4)] &&
    ready (.tlbinvVmid 4 5) (inv q0) && left_ (.tlbinvVmid 4 5) (inv q0) == [(0, 7, 4), (0, 7, 5), (0, 8, 4)] && ready (.tlbinvIpa 4 5) (inv q0) &&
    left_ (.tlbinvIpa 4 5) (inv q0) == [(0, 7, 4), (0, 7, 5), (0, 8, 4)] && ready (.tlbinvAll 4 5) (inv q0) && left_ (.tlbinvAll 4 5) (inv q0) == [] &&
    (let busy (n : Nat) : State := { inv q0 with walks := [{ (newWalk (coreCtx (inv q0)) 0x40000 .read false n) with level := 2, frames := [8] }] }
     (answer (.tlbinvAll 4 5) (busy 8)).any (fun t => t.tlb == [] && t.walks.map (fun w => (w.n, w.level)) == [(9, 1)]) &&
     (answer (.tlbinvAll 4 5) (busy 9)).any (fun t => t.last == .stalled && t.tlb == invTlb)) &&
    (answer (.tlbinvAll 4 5) (inv { q0 with pend := [coreEntry 1 .r .rlx .none (.store [])] })).any (fun t => t.last == .stalled && t.tlb == invTlb) &&
    (let f (t : Nat) : State := { feS [] { ring0 with waits := [stale_] } id with time := t }
     queueIs .fetcherStaleTimeout (f 64006) (fun _ x => x.waits == []) && queueIs .fetcherStaleTimeout (f 64005) (fun _ x => x.waits == [stale_]))) = true := by
  decide +kernel

/-- A page-request queue with one unresolved entry, seq 6, which the head has passed or not; the group waits on it. -/
def asking (head : Nat) (stop : Stop) (h : W64) : State :=
  let s := on { gr with stop := stop }
  let e : PageReq := { seq := 6, idx := 2, enc := true, eid := 0, part := 0, asid := 0, stage := 2, acc := 0, code := 0x20, page := 4, passed := decide (head = 3) }
  { s with prq := { base := 0xB0000, head := head, tail := 3, seq := 7, entries := [e] }, launches := [(0, { lau with handler := h })] }
theorem witness_PageRequests : (
    (let w := on { gr with slot0 := { gr.slot0 with wait := .position } }
     after (.pageRequestEntry 0) w (fun _ g => g.slot0.wait == .none)) &&
    (answer (.prqheadWrite 3) (asking 2 (.page 6) 0)).any (fun t => t.prq.head == 3 && t.prq.entries.map (·.passed) == [true]) && answer (.prqheadWrite 4) (asking 2 (.page 6) 0) == some (asking 2 (.page 6) 0) &&
    canon (asking 3 (.page 6) 0) && after (.prqdone 6) (asking 3 (.page 6) 0) (fun t g => g.stop == .none && t.prq.entries.isEmpty) &&
    after (.prqdone 0x100000006) (asking 3 (.page 6) 0x9000) (fun _ g => g.stop == .handler) && after (.prqdone 6) (asking 3 (.frame 6) 0) (fun _ g => g.stop == .handler) &&
    (let w : State := { asking 3 .none 0 with fes := (feS [] { ring0 with waits := [{ who := .packet .ring, page := some 6, torn := none }] } id).fes }
     queueIs (.prqdone 6) w (fun _ x => x.waits == [] && x.state == .running) &&
     queueIs (.prqdone 0x100000006) w (fun _ x => x.state == .error && x.err == 3 && x.qrd == 1)) &&
    answer (.prqdone 5) (asking 3 (.page 6) 0) == some (asking 3 (.page 6) 0)) = true := by decide +kernel

/-! ### Platform registers: core 0 at L2; s5 = 7 -/

def plat : State := let s := packet [] []; { qOf q0 [] with fes := s.fes, roots := State.reset.roots.take 1 }
def platReads : List (Nat × Nat × W64) :=
  [(0, 0, 47 * 256), (0, 8, 0), (0, 0x10, 0), (0, 0x20, 0), (0, 0x38, 0), (0, 0x40, 0), (0, 0x48, 0), (0, 0x100, 0x30000), (0, 0x110, 0), (0, 0x118, 1), (0, 0x120, 0), (0, 0x128, 1),
   (0x10, 0, 0), (0x10, 8, 0), (0x10, 0x10, 0), (0x11, 0, 0), (0x12, 0, 0), (0x13, 0x108, 0), (0x50, 0x20, 0)]
theorem witness_PlatformReads : (platReads.all (fun r => let i : Instr := .mfp 9 (BitVec.ofNat 8 r.1) (BitVec.ofNat 24 r.2.1)
    ready i plat && answer i plat == some (advance (later plat 9 r.2.2) |> fun t => { t with last := .issued }))) = true := by decide +kernel
def wrote (i : Instr) (v : W64) (s : State) (f : State → Bool) : Bool :=
  let s' := { s with quartz := [(0, { q0 with s := msetD q0.s 5 v 0 })] }
  ready i s' && (answer i s').any f
def wrote1 (i : Instr) (s : State) (f : State → Bool) : Bool := (answer i s).any f
theorem witness_PlatformWrites : (let m : W64 := 0xFFFFFFFFFFFFFFFF
    let both (b : BitVec 8) (o : BitVec 24) (v : W64) (s : State) (f : State → Bool) : Bool := wrote (.mtp b o 5) v s f && wrote1 (.platformRegisterWrite 0 b o v) s f
    both 0 0x8 m plat (fun t => (feOf t 0).fes2 == 0x3FFFFFFF0000) && both 0 0x10 m plat (fun t => (feOf t 0).fering == 0x3FFFFFFF000F) &&
    both 0 0x38 m plat (fun t => (feOf t 0).festop == 0x3FFFFFFF000F) && both 0 0x100 m plat (fun t => (queueOf t 0 0).base == 0x7FFFFFFFFFFFC0) &&
    both 0 0x110 m plat (fun t => (queueOf t 0 0).sig == 2 ^ 55 - 1) && both 0 0x118 5 plat (fun t => (queueOf t 0 0).qwr == 5) &&
    both 0 0x130 m plat (fun t => (queueOf t 0 0).spill == 0x7FFFFFFFFF0000) && both 0 0x138 m plat (fun t => (queueOf t 0 0).spillLen == 0xFFFFFF) &&
    both 0x10 0 m plat (fun t => t.prq.base == 0x3FFFFFFF0000) && both 0x12 0 m plat (fun t => t.basalt.svctl == 0xFFFF) && both 0x13 0xF8 1 plat (fun t => t.bells == 0x80000000) &&
    both 0x13 0x100 1 { plat with bells := 3 } (fun t => t.bells == 2) && both 0x40 0 0x13 plat (fun t => (mget t.roots 0).any (fun p => p.rppart == 0x13))) = true := by
  decide +kernel
/-- A hole of the map, a read-only register, a level too low, an S access in flight. -/
theorem witness_PlatformRefused : (platMap 0x60 0 = none ∧ platMap 0 0x120 = some (1, .ro)) ∧ ([Instr.mfp 9 0x60 0, .mtp 0x60 0 5, .mtp 0 0x120 5].all (fun i =>
      ready i plat && qAfter i plat (fun t q => t.last == .faulted && q.level == 2 && q.halted)) &&
    (let low := { plat with quartz := [(0, { q0 with level := 1 })] }
     qAfter (.mfp 9 0 0) low (fun t q => t.last == .faulted && q.level == 1)) &&
    (let busy := { plat with quartz := [(0, { q0 with pend := [coreEntry 8 .s .rlx .none .nothing] })] }
     qAfter (.mfp 9 0 0) busy (fun t _ => t.last == .stalled))) = true := by decide +kernel

def stops_ (l : List StopRec) (wr : Nat) : State :=
  let s := packet [] []
  { s with fes := [(0, { feOf s 0 with festop := 0xA0001, stops := l, stwr := wr, strd := 4 })], hbm := [] }
def aStop : StopRec := { code := 0x41, eid := 2, dbg := true, launch := 5, team := 6, num := 7, loc := 8, caddr := 9, pc := 10, time := 11 }
theorem witness_StopRing : ((answer (.stopRecordWrite 0) (stops_ [aStop] 5)).any (fun t => (feOf t 0).stwr == 6 && (feOf t 0).stops == [] &&
      readLe t.hbm 0xA0040 8 == 0x100241 && readLe t.hbm 0xA0060 8 == 9 && readLe t.hbm 0xA0078 8 == 5) &&
    answer (.stopRecordWrite 0) (stops_ [aStop] 6) == some (stops_ [aStop] 6) && answer (.stopRecordWrite 0) (stops_ [] 5) == some (stops_ [] 5) &&
    (answer (.festrdWrite 0 5) (stops_ [] 5)).any (fun t => (feOf t 0).strd == 5) && answer (.festrdWrite 0 6) (stops_ [] 5) == some (stops_ [] 5) &&
    (answer (.feirqAck 0 0x2030001) { stops_ [] 5 with fes := [(0, { fe0 ring0 with irqQ := 3, irqSys := true })] }).any (fun t => (feOf t 0).irqQ == 2 &&
      !(feOf t 0).irqSys && (feOf t 0).irqCore == 3)) = true := by decide +kernel

/-! ### Requests to Basalt: a core at level lv, s3 = 0x70000, where the request structure is; frame 7 of the class the level may read -/

def request (lv : Nat) (b : List Nat) (own : KMap Own) (e : KMap Enclave) : State :=
  let s := qOf { q0 with level := lv } []
  { s with hbm := dwordsAt 0x70000 b [], fes := [(0, fe0 { resetQueue with base := 0 })],
           basalt := { s.basalt with enclaves := e, own := mput own 7 { freeOwn with cls := if lv = 2 then 1 else 2 } } }
/-- The word answers a code and an enclave, and leaves what a test says. -/
def serves (i : Instr) (s : State) (code eid : Nat) (f : State → Bool) : Bool :=
  ready i s && qAfter i s (fun t q => f t && (match q.pend with
    | [p] => p.dst == .scalar 9 && p.act == .value [] (BitVec.ofNat 64 (code + 256 * eid)) && q.pc == 0x1000008
    | _ => false))

/-- Stage two of partition 0 takes IPA page 4 to frame 4, 5 to 5, 6 to 6 and 9 to 9; enclave 0's tables are in frames 4, 5 and 6, and
take VA page 4 to frame 9, which holds a byte. -/
def tables2 (m : Bytes) : Bytes := dwordsAt 0x10000 [0x20003] (dwordsAt 0x20000 [0x30003] (dwordsAt 0x30020 [0x40011, 0x50011, 0x60011, 0, 0, 0x90011] m))
def tables1 (m : Bytes) : Bytes := dwordsAt 0x40000 [0x50003] (dwordsAt 0x50000 [0x60003] (dwordsAt 0x60020 [0x90411] (dwordsAt 0x90000 [0x99] m)))
def hyp : Own := { freeOwn with cls := 1 }
def encl : Own := { cls := 3, part := 0, eid := 0, version := 4, zeroed := false, rst := false }
def owns : KMap Own := [(1, hyp), (2, hyp), (3, hyp), (4, encl), (5, encl), (6, encl), (9, encl)]
def rooted (s : State) : State := { s with fes := s.fes.map (fun f => (f.1, { f.2 with fes2 := 0x10000 })), hbm := tables1 (tables2 s.hbm) }
def live0 : Enclave := { placeEnclave with root := 0x40000 }

/-- A creation descriptor: one thread, queue 0, debug, the list at 0x70100, one frame: 9; the root at VA 0x90000. -/
def creation (n : Nat) : List Nat := [0x100010101, 0x70100, n, 0x90000, 0, 0x40000, 0, 0] ++ List.replicate 24 0 ++ [0x90000]
theorem witness_Encmk : (let s (b : List Nat) (own : KMap Own) : State := let s := request 2 b own []; { s with fes := s.fes.map (fun f => (f.1, { f.2 with fes2 := 0x10000 })), hbm := tables2 s.hbm }
    let free := owns.filter (fun x => decide (x.1 < 4))
    let r0 := s (creation 1) free
    serves (.encmk 9 3) r0 0 0 (fun t => t.basalt.keys == State.reset.basalt.keys + 4 && mget t.basalt.baseKeys (4096 * 15) == some (nextKeys r0) && (mget t.basalt.enclaves 0).any (fun e => e.debug && e.threads == 1 && e.root == 0x90000 && e.queues == 1) &&
      ownOf t 9 == { cls := 3, part := 0, eid := 0, version := 1, zeroed := false, rst := false } && (queueOf t 0 0).enc) &&
    serves (.encmk 9 3) (s (creation 0) free) 2 0 (fun t => t.basalt.enclaves.isEmpty) && serves (.encmk 9 3) (s (creation 1) owns) 3 0 (fun t => t.basalt.enclaves.isEmpty) &&
    serves (.encmk 9 3) (s (creation 1) []) 2 0 (fun t => t.basalt.enclaves.isEmpty) &&
    (let r := s (creation 1) free
     qAfter (.encmk 9 3) { r with fes := r.fes.map (fun f => (f.1, { f.2 with ferst := 1 })) } (fun t _ => t.last == .stalled))) = true := by decide +kernel

/-- The end of enclave 0, which holds frame 9, a group, a queue and a thread on core 1; s3 names it. -/
def ending : State :=
  let s := request 1 [] owns [(0, live0)]
  { s with fes := [(0, fe0 ring0)], groups := [(0, gr)], teams := gs.teams, tlb := [spillPage], quartz := [(0, { q0 with level := 1, s := [] }), (1, { q0 with level := 0, s := [(4, 9)], sr := [(0x12, 0x100000000000)] })] }
theorem witness_Enckill : (serves (.enckill 9 3) ending 0 0 (fun t => (mget t.basalt.enclaves 0).any (·.ending) && t.groups.isEmpty && t.launches.isEmpty && t.tlb.isEmpty &&
      (ownOf t 9).cls == 0 && t.shale.scrub.contains (9, some 0) && (queueOf t 0 0).state == .error && (queueOf t 0 0).err == 9 && !(queueOf t 0 0).enc &&
      (mget t.quartz 1).any (fun q => q.level == 2 && q.s == [])) &&
    serves (.enckill 9 5) ending 4 0 (fun t => t.groups.length == 1) == false && serves (.enckill 9 3) (request 1 [] owns []) 4 0 (fun _ => true)) = true := by decide +kernel

/-- dbgrd of a halted group at location 0: s3 = item 0x43 (s3), 5 (CAUSE), a lane of v4, an item that does not exist. -/
def halted_ (x : Nat) (dbg : Bool) : State :=
  let s := request 2 [] [] [(0, { placeEnclave with debug := dbg })]
  { s with groups := [(0, { gr with stop := .halted false, cause := 0x41 })], quartz := [(0, { q0 with s := [(3, BitVec.ofNat 64 x)] })] }
theorem witness_Dbgrd : ([(0x43 * 2 ^ 18, 40), (5 * 2 ^ 18, 0x41), (1 * 2 ^ 18, 0x1000000), (3 * 2 ^ 18, 0xFFFF), (0x83 * 2 ^ 18, 0xF), (0xC0 * 2 ^ 18 + 4 * 2 ^ 26 + 2 * 2 ^ 34, 3)] : List (Nat × Nat)).all (fun p =>
      serves (.dbgrd 9 3) (halted_ p.1 true) p.2 0 (fun _ => true)) = true ∧
    [(7 * 2 ^ 18, true), (0x43 * 2 ^ 18, false), (0x43 * 2 ^ 18 + 1, true), (2 ^ 40, true)].all (fun p => qAfter (.dbgrd 9 3) (halted_ p.1 p.2) (fun t q => t.last == .faulted && srGet q 2 0x82 == 0x221)) = true := by
  decide +kernel

/-- potreq of one frame at L1 and at L2. -/
def pot (op eid frame page loc : Nat) : List Nat := [op + 256 * eid + 2 ^ 32, 65536 * frame, 0, page, loc, 0, 0, 0]
def potS (lv : Nat) (b : List Nat) (own : KMap Own) : State := rooted (request lv b own [(0, live0)])
theorem witness_PageOwnership : (let zero : Own := { freeOwn with version := 6 }
    serves (.assign 9 3) (potS 1 (pot 0 0 8 0 0) (mput owns 8 zero)) 0 0 (fun t => ownOf t 8 == { encl with version := 7 }) &&
    serves (.assign 9 3) (potS 1 (pot 0 0 9 0 0) owns) 3 0 (fun t => ownOf t 9 == encl) && serves (.assign 9 3) (potS 1 (pot 0 1 8 0 0) owns) 4 1 (fun _ => true) &&
    serves (.assign 9 3) (potS 1 (pot 0 0 1 0 0) owns) 5 0 (fun t => ownOf t 1 == hyp) &&
    serves (.reclaim 9 3) (potS 1 (pot 1 0 9 0 0) owns) 0 0 (fun t => ownOf t 9 == { freeOwn with version := 4, zeroed := false } && t.shale.scrub == [(9, none)] && readByte t.hbm 0x90000 == 0x99) &&
    serves (.reclaim 9 3) (potS 1 (pot 1 0 8 0 0) owns) 3 0 (fun _ => true) && serves (.restoreFrames 9 3) (potS 1 (pot 3 0 9 0x40000 0) owns) 3 0 (fun _ => true) &&
    serves (.assign 9 3) (potS 2 (pot 0 3 8 0 0) (mput owns 8 zero)) 0 3 (fun t => ownOf t 8 == { freeOwn with cls := 2, part := 3, version := 7, zeroed := false }) &&
    serves (.assign 9 3) (potS 2 (pot 0 16 8 0 0) owns) 2 16 (fun _ => true) && serves (.reclaim 9 3) (potS 2 (pot 1 0 9 0 0) owns) 3 0 (fun _ => true)) = true := by decide +kernel
/-- An eviction of VA page 4: the leaf takes tier 2 and version 5. (A page that comes back must open under the module's own key, which no
test can compute: the cipher is a free value.) -/
theorem witness_Evict : serves (.evict 9 3) (potS 1 (pot 2 0 9 0x40000 0) owns) 0 0 (fun t => ownOf t 9 == { freeOwn with version := 5, zeroed := false } &&
    readLe t.hbm 0x60020 8 == 0x50611 && t.shale.scrub == [(9, none)] && t.basalt.seals.map (fun x => (x.version, x.vpage)) == [(5, 4)]) = true := by decide +kernel

/-- Frame 8 awaits version 5 of VA page 4 of enclave 0, whose leaf has a tier; the far memory holds the image that this module sealed. -/
def sealed5 : Seal := { key := 0, version := 5, vpage := 4, plain := [] }
def awaiting (tier : Nat) (img : List Byte) : State :=
  let s := potS 1 [] (mput owns 8 (heldOwn 0 0 5 true))
  { s with hbm := writeLe s.hbm 0x60020 8 (0x50411 + 256 * tier), basalt := { s.basalt with seals := [sealed5] },
           far := [(farKey 0 0, writeBytes [] 0 img)], work := [(7, .restore 0 3 0 0 5 0 0 [(8, 0x40000, 0, 4)])],
           quartz := [(0, { q0 with level := 1, pend := [{ coreEntry 3 .priv .rlx (.scalar 9) .wait with cov := 0 }] })] }
theorem witness_ImageOpens (tier : Nat) : let img := sealImage 0 0 5 0x40000 (sealPlain sealed5)
    let s := awaiting tier img
    openImage s 0 0 5 0x40000 (readBytes (mgetD s.far (farKey 0 0) []) 0 65600) = some (sealPlain sealed5) ∧ (sealPlain sealed5).length = 65536 := by
  refine ⟨?_, readBytes_length ..⟩
  have h (img : List Byte) : mgetD (awaiting tier img).far (farKey 0 0) [] = writeBytes [] 0 img := rfl
  rw [h, readBytes_farImage]
  exact openImage_sealImage _ 0 0x40000 sealed5 rfl rfl
/-- The leaf of the page, which a restore and a MOVE want at tier 2 and 1; an image that is not right is reported, and its frame reclaimed. -/
theorem witness_Loads : [1, 2].all (fun tier => let s := awaiting tier []
    canon s && leafOf s 0 0x40000 == some 0x60020 && pteTier (readLe s.hbm 0x60020 8) == tier && readLe s.hbm 0x60020 8 / 2 ^ 16 % 2 ^ 30 == 5 &&
    ownOf s 8 == heldOwn 0 0 5 true && ownOf (loadStep s 7) 8 == { freedOwn 4 0 with zeroed := true } && (mget (loadStep s 7).quartz 0).any (fun c => c.pend.map (·.act) == [.value [] 3])) = true ∧
    (let s := potS 1 (pot 3 0 8 0x40000 0) owns
     ready (.restoreFrames 9 3) s && mayReown s [8] && qAfter (.restoreFrames 9 3) s (fun t q => ownOf t 8 == heldOwn 0 0 0 true &&
       q.pend.map (fun p => (p.dst, p.act)) == [(.scalar 9, .wait)] && q.pend.flatMap (fun p => [Work.restore 0 p.id 0 0 0 0 0 [(8, 0x40000, 0, 0)]]) == t.work.map (·.2))) = true := by
  decide +kernel

def scrubbing (l : List (Nat × Option Nat)) : State := let s := potS 2 [] (mput owns 9 { encl with cls := 0 }); { s with shale := { s.shale with scrub := l } }
theorem witness_Scrub : ((answer (.frameScrubComplete 9) (scrubbing [(9, some 0)])).any (fun t => readByte t.hbm 0x90000 == 0 && (ownOf t 9).zeroed && t.shale.scrub == [] && t.basalt.enclaves.isEmpty) &&
    (answer (.frameScrubComplete 9) (scrubbing [(9, some 0), (8, some 0)])).any (fun t => t.basalt.enclaves.length == 1) &&
    answer (.frameScrubComplete 8) (scrubbing [(9, some 0)]) == some (scrubbing [(9, some 0)])) = true := by decide +kernel

/-! Shale: the descriptor at PA 0xC0000, the MOVE entry at PA 0xC0100: frame 9 of enclave 0, VA page 4 -/
def cmdAt (mid : Bool) (op : Nat) (next ndown : Nat) : ShCmd := { id := 3, op := op, eid := 0, desc := 0xC0000, part := 0, level := 1, recs := [8], list := [0xC0100], ndown := ndown, next := next, mid := mid, freed := [] }
def cmd := cmdAt false
def shale (c : ShCmd) (e : KMap Enclave) (ent : List Nat) (own : KMap Own) : State :=
  let s := rooted (request 1 [] own e)
  { s with shale := { s.shale with cmds := [c], recording := [(0, [5])] }, hbm := dwordsAt 0xC0100 ent (dwordsAt 0x80000 [7] s.hbm), tlb := [{ spillPage with tag := 0xF000 }] }
def moveEntry (frame : Nat) : List Nat := [frame * 65536, 0, 0, 0x40000]
theorem witness_ShaleCommands : (let did (i : Instr) (s : State) (code : Nat) (f : State → Bool) : Bool := (answer i s).any (fun t => t.shale.cmds.isEmpty && readLe t.hbm 0xC0038 8 == code + 256 && f t)
    did .shaleRecord (shale (cmd 1 0 0) [(0, live0)] [] owns) 0 (fun t => mget t.shale.recording 0 == some [8] && readByte t.hbm 0x80000 == 0 && t.tlb.isEmpty) &&
    did .shaleRecord (shale (cmd 1 0 0) [] [] owns) 3 (fun _ => true) && did .shaleStop (shale (cmd 2 0 0) [(0, live0)] [] owns) 0 (fun t => t.shale.recording == []) &&
    did .shaleStop (shale (cmd 2 0 0) [] [] owns) 3 (fun _ => true) && answer .shaleStop (shale (cmd 1 0 0) [] [] owns) == some (shale (cmd 1 0 0) [] [] owns) &&
    did .move (shale (cmd 3 1 1) [(0, live0)] [] owns) 0 (fun _ => true)) = true := by decide +kernel

/-- A MOVE of frame 9 down: the leaf of its page takes tier 1, then the page is sealed, and its frame scrubbed at the end of the down
entries; refused moves; a page of tier 2 begins to move up, one with no leaf is refused with code 3. -/
def upState (leaf : Nat) : State := let s := shale (cmd 3 0 0) [(0, live0)] (moveEntry 8) owns; { s with hbm := writeLe s.hbm 0x60020 8 leaf }
theorem witness_Moves : (let stat (s : State) (code : Nat) (f : State → Bool) : Bool := (answer .move s).any (fun t => t.shale.cmds.map (fun c => (c.next, c.mid)) == [(1, false)] && readLe t.hbm 0xC0100 8 / 256 % 256 == code && f t)
     let s := shale (cmd 3 0 1) [(0, live0)] (moveEntry 9) owns
     mayReown s [9] && !mayReown { s with groups := [(0, { gr with pend := [{ pendOn .none with id := 1, act := .store [(.hbm 0x90000, 1)] }] })] } [9] &&
     mayInvalidate s (pageCovers (readBytes s.hbm 0xC0100 32)) &&
     (answer .move s).any (fun u => u.shale.cmds == [cmdAt true 3 0 1] && readLe u.hbm 0x60020 8 == 0x90511 && ownOf u 9 == encl && u.tlb.all (fun x => x.page != 4) &&
       stat u 1 (fun t => ownOf t 9 == { freeOwn with version := 5, zeroed := false } && readLe t.hbm 0x60020 8 == 0x50611 && readByte t.hbm 0x90000 == 0x99 &&
         readLe t.hbm 0xC0110 8 == 5 * 2 ^ 32 && t.shale.cmds.map (·.freed) == [[9]] && t.shale.scrub == [(9, none)] &&
         (match exec .move t with | .next v => v.shale.cmds.map (·.freed) == [[]] && (ownOf v 9).zeroed && readByte v.hbm 0x90000 == 0 && v.shale.scrub == [] | _ => false) &&
         (match exec (.frameScrubComplete 9) t with | .next v => v.shale == t.shale | _ => false))) &&
     stat (shale (cmd 3 0 1) [(0, live0)] (moveEntry 8) owns) 2 (fun t => ownOf t 8 == freeOwn) && stat (shale (cmd 3 0 0) [(0, live0)] (moveEntry 9) owns) 2 (fun t => ownOf t 9 == encl) &&
     (answer .move (upState 0x50611)).any (fun u => u.shale.cmds == [cmdAt true 3 0 0] && ownOf u 8 == heldOwn 0 0 0 true && pteTier (readLe u.hbm 0x60020 8) == 1) &&
     stat (upState 0x50511) 3 (fun t => ownOf t 8 == { freeOwn with zeroed := false }) &&
     stat (shale (cmd 3 0 0) [(0, placeEnclave)] (moveEntry 8) owns) 3 (fun t => ownOf t 8 == { freeOwn with zeroed := false })) = true := by decide +kernel

/-! ### Saves: team 0 of launch 0 is one group of 16 lanes; VA pages 4 and 5 (save area, spill) are held -/

def teamS (g : Group) (t : Team → Team) : State :=
  { on { g with spill := 0x50000 } with
      tlb := [.core 0, .other].flatMap (fun u => [{ pageAt 4 8 with unit := u }, { pageAt 5 9 with unit := u }]), launches := [(0, { lau with mx := false, spill := 64 })],
      teams := [(0, t { newTeam lau 0 0 0 with groups := [0] })], fresh := 9 }
def feCode (i : Instr) (s : State) (code : Nat) (f : State → Bool) : Bool :=
  (answer i s).any (fun t => (feOf t 0).fecst == code && (feOf t 0).cmd.isNone && f t)
def same_ (s t : State) : Bool := t.teams == s.teams && t.groups == s.groups && t.saved == s.saved
theorem witness_Preemption : (let s := teamS gr id
    canon s && (pagesReady (encCtx s 0) .write (areaPages 0x40000 0 (layoutOf 1 { lau with mx := false }).shdEnd) s).1 &&
    feCode (.preempt 0 0 0 7 0x40000) s 0 (fun t => (mget t.teams 0).any (fun x => x.preempt == some (7, 0x40000)) &&
      (mget t.groups 0).any (fun g => g.preq && g.pdlAt == 7 && g.stop == .none)) &&
    (let bare := { s with tlb := [] }
     feCode (.preempt 0 0 0 7 0x40000) bare 3 (same_ bare)) && feCode (.preempt 0 0 0 7 0x40008) s 3 (same_ s) && feCode (.preempt 0 0 1 7 0x40000) s 4 (same_ s) &&
    (let twice := teamS gr (fun t => { t with preempt := some (9, 0x40000) })
     feCode (.preempt 0 0 0 7 0x40000) twice 5 (same_ twice) && answer (.forcedSave 0) twice == some twice) &&
    (let due := teamS { gr with slot0 := { gr.slot0 with wait := .pop 0 } } (fun t => { t with preempt := some (0, 0x40000) })
     after (.forcedSave 0) due (fun _ g => g.stop == .saving && g.slot0.wait == .none)) &&
    feCode (.feResume 0 0 0 0) (teamS { gr with stop := .system } id) 0 (fun t => (mget t.groups 0).any (fun g => g.stop == .none)) &&
    feCode (.feResume 0 0 0 0) s 4 (same_ s) && feCode (.feResume 0 0 1 0) s 4 (same_ s)) = true := by decide +kernel

/-- The image of a team whose group has reached its save; its bytes under the tag are a free value. -/
theorem witness_ImageTaken : (let s := teamS { gr with stop := .saving } (fun t => { t with preempt := some (0, 0x40000), seq := 3 })
    (answer (.imageTaken 0) s).any (fun t => t.teams.isEmpty && t.groups.isEmpty && t.saved.map (fun v => (v.tid, v.launch, v.index, v.seq, v.consumed)) == [(0, 0, 0, 4, false)]) &&
    (let moving := teamS gr (fun t => { t with preempt := some (0, 0x40000) })
     answer (.imageTaken 0) moving == some moving)) = true := by decide +kernel

/-- A late result: for a group that is held, with 15 or 16 results stored; for one that is placed; for none. -/
def lateOf (n : Nat) (place : Option Nat) : State :=
  let r : Late := { id := 1, chan := none, status := 77, lanes := [], flags := 4, queue := none }
  let f : Fwd := { core := 0, eid := 0, launch := 0, team := 0, group := 0, place := place, ids := [1], pend := [], stored := List.replicate n { r with id := 2 }, rest := [] }
  { on { gr with pend := [{ pendOn (.scalar 9) with path := some .copy }] } with late := [r], fwd := [f] }
theorem witness_LateResults : ((answer (.lateResultArrival 1) (lateOf 15 none)).any (fun t => t.late == [] && t.fwd.map (fun f => f.stored.length) == [16]) &&
    answer (.lateResultArrival 1) (lateOf 16 none) == some (lateOf 16 none) &&
    after (.lateResultArrival 1) (lateOf 0 (some 0)) (fun t g => gRead g 9 == 77 && g.flags == 4 && g.pend.isEmpty && t.fwd == []) &&
    (answer (.lateResultArrival 1) { lateOf 0 none with fwd := [] }).any (fun t => t.late == []) && answer (.lateResultArrival 5) (lateOf 0 none) == some (lateOf 0 none)) = true := by
  decide +kernel

/-- RESTORE of a team with no entry; of a consumed one; of an image that is not one. -/
def savedS (l : List Saved) : State :=
  { teamS gr id with
      saved := l, groups := [], teams := [], cores := [(0, resetCore)], dies := [(0, { resetDie with colset := [(0, 0x10000)] })], fes := [(0, fe0 resetQueue)] }
def entry_ (c : Bool) : Saved := { tid := 5, fe := 0, launch := 0, index := 0, eid := 0, seq := 4, consumed := c, rest := [] }
theorem witness_RestoreRefused : (feCode (.restore 0 0 0 0x40000 0) (savedS []) 4 (fun t => t.saved.isEmpty) &&
    feCode (.restore 0 0 0 0x40000 0) (savedS [entry_ false]) 1 (fun t => t.saved == [entry_ false]) && feCode (.restore 0 0 0 0x40000 0) (savedS [entry_ true]) 1 (fun t => t.saved == [entry_ true])) = true := by
  decide +kernel

/-- A checked image of one group of 16 lanes: slot 0 running at 0x9000 with lanes 0 to 3, s1 = 111, k1 = 5, 8 registers of which none is kept, flags 4. -/
def image1 : List Byte :=
  let m := dwordsAt 0 [0x9000, 0xFFFF, 0xF] (dwordsAt 0x20 [2 ^ 39] (dwordsAt 0x60 [8, 4, 0, 0x41] (dwordsAt 0x98 [0x50000] (dwordsAt 0x100 [111] (dwordsAt 0x2F8 [5] [])))))
  List.replicate 0x800 0 ++ readBytes m 0 0x300
def restoring (free : Nat) : State :=
  let r : Restore := { id := 3, fe := 0, launch := 0, index := 0, area := 0x40000, core := 0, image := image1, stks := [] }
  let s := savedS [entry_ true]
  { s with fes := [(0, { fe0 resetQueue with restores := [r] })], cores := [(0, { resetCore with free := free })] }
theorem witness_RestorePlacement : ((answer (.restorePlacement 3) (restoring 0)).any (fun t => (feOf t 0).restores.length == 1 && t.groups.isEmpty) && (answer (.restorePlacement 3) (restoring 1)).any (fun t => (feOf t 0).restores == [] &&
    (mget t.teams 5).any (fun x => x.seq == 4 && x.groups == [0] && x.preempt.isNone) && (mget t.groups 0).any (fun g => g.slot0.st == .running && g.slot0.pc == 0x9000 && g.slot0.pm == 0xFFFF &&
      g.slot0.exec == 0xF && gRead g 1 == 111 && kRead g.k 1 == 5 && g.allot == 8 && g.flags == 4 && g.cause == 0x41 && g.spill == 0x50000))) = true := by decide +kernel

/-! ### Partitions: front ends 0 (clusters 0 to 47 in the tests above) and 1, nothing running unless a test says so -/

def part2 (a b : W64) (u : Queue) : State :=
  { gs with groups := [], teams := [], launches := [], fes := [(0, { fe0 u with fepart := a }), (1, { fe0 resetQueue with fepart := b })] }
def still (i : Instr) (s : State) : Bool := answer i s == some s
theorem witness_FepartWrites : ((answer (.fepartWrite 0 0xFFF0503) (part2 1 0x0906 resetQueue)).any (fun t => (feOf t 0).fepart == 0xF0503) && still (.fepartWrite 0 0x0603) (part2 1 0x0906 resetQueue) &&
    still (.fepartWrite 0 0x0503) (part2 1 0x0906 ring0) && still (.fepartWrite 0 0x0503) { part2 1 1 resetQueue with teams := gs.teams, launches := [(0, lau)] }) = true := by decide +kernel

/-- Die 0: partition 0 holds colour 0, partition 1 colours 8 to 11; the array holds a byte of colour 0 and one of colour 1. -/
def coloured (t : KMap Team) (l : List CLine) : State :=
  { part2 1 1 resetQueue with
      teams := t, launches := [(0, lau)], dies := [(0, { resetDie with colset := [(0, 0x10000), (1, 0x10208)], colst := 3, lines := l, array := [(5, 7), (1572865, 9)] })] }
def colAfter (i : Instr) (s : State) (f : Die → Bool) : Bool := (answer i s).any (fun t => (mget t.dies 0).any f)
theorem witness_Colset : (let s := coloured [] []
    colAfter (.colsetWrite 0 0 0x10002) s (fun d => d.colst == 0 && mgetD d.colset 0 0 == 0x10002 && d.array == [(1572865, 9)]) && colAfter (.colsetWrite 0 0 0x10100) s (fun d => d.colst == 0 && d.array == [(5, 7)]) &&
    colAfter (.colsetWrite 0 0 0x10101) s (fun d => d.colst == 1 && mgetD d.colset 0 0 == 0x10000) && colAfter (.colsetWrite 0 0 0x1010A) s (fun d => d.colst == 2) && colAfter (.colsetWrite 0 0 0x10300) s (fun d => d.colst == 0) &&
    colAfter (.colsetWrite 0 0 0x10400) s (fun d => d.colst == 2) && colAfter (.colsetWrite 0 0 0x10002) (coloured gs.teams []) (fun d => d.colst == 3) && colAfter (.colsetWrite 0 0 0) (coloured [] [countedLine]) (fun d => d.colst == 3)) = true := by
  decide +kernel

/-- The steps of a reset of partition 0, which holds enclave 0 with a group, a running queue, a colour and a held translation. -/
def resetting (n : Nat) : State :=
  { gs with fes := [(0, { fe0 ring0 with ferst := n, fes2 := 0x10000 })], tlb := [spillPage, { spillPage with part := 1 }], launches := [(0, lau)],
            basalt := { gs.basalt with enclaves := [(0, placeEnclave), (1, { placeEnclave with part := 1 })] },
            dies := [(0, { resetDie with colset := [(0, 0x10000)], array := [(5, 7), (1572865, 9)], lines := [countedLine] })], cores := [(0, { resetCore with free := 8 })] }
theorem witness_PartitionReset : (let st (n m : Nat) (f : State → Bool) : Bool := (answer (.partitionReset 0) (resetting n)).any (fun t => (feOf t 0).ferst == m && (feOf t 0).fepart == 47 * 256 && (feOf t 0).fes2 == 0x10000 && f t)
    canon (resetting 0) && st 0 2 (fun t => (queueOf t 0 0).state == .error && (queueOf t 0 0).err == 9 && (queueOf t 0 0).qwr == 1 && t.groups.length == 1) &&
    st 2 3 (fun t => (mget t.basalt.enclaves 0).all (·.ending) && mget t.basalt.enclaves 1 == some { placeEnclave with part := 1 }) &&
    st 3 4 (fun t => t.groups.isEmpty && t.launches.isEmpty) &&
    st 4 5 (fun t => (mget t.cores 0).any (fun c => c.free == 1536) && t.tlb.map (·.part) == [1] && (mget t.dies 0).any (fun d => d.array == [(1572865, 9)] && d.lines == [] && d.colset == [(0, 0x10000)])) &&
    (let s := { resetting 5 with dies := [(0, { resetDie with colset := [(0, 0x10000)], clpwr := [(0, 3)] })] }
     (answer (.partitionReset 0) s).any (fun t => (feOf t 0).ferst == 0 && t.groups.length == 1 && (mget t.dies 0).any (fun d => mgetD d.clpwr 0 1 == 1)))) = true := by
  decide +kernel

/-- While a power cycle is in progress CLPWR[1] is 1, whatever CLPWR[0] reads. -/
theorem test_cyclePower (s : State) : (cyclePower s).getLsbD 1 = true := by unfold cyclePower; split <;> decide

/-! ### The SPDM responder: endpoint 3; session 8 -/

def spdmS (c : KMap Conn) (l : List Sess) : State := { gs with spdm := { conns := c, sess := l, next := 9, signed := 4, reply := none }, basalt := { gs.basalt with enclaves := [(2, { placeEnclave with meas := 55, debug := true })] } }
def msg (se : Option Nat) (form : Bool) : SpdmMsg := { ep := 3, session := se, bytes := [1], sign := true, versionOk := true, formOk := form, decryptOk := true }
def conn (st : ConnSt) : KMap Conn := [(3, { st := st, a := [7], m1 := [8], l1 := [9] })]
def sess8 (est : Bool) (b : Option (Nat × BitVec 384 × Bool)) : List Sess := [{ id := 8, ep := 3, established := est, bound := b, th := [], l1 := [5], key := 1, exported := 0, seq := 6 }]
/-- The answer's code and error, and what a test says of the state. -/
def replies (i : Instr) (s : State) (code err : Nat) (f : State → SpdmReply → Bool) : Bool :=
  (answer i s).any (fun t => t.spdm.reply.any (fun r => r.code == code && r.error == err && f t r))
def stageOf (t : State) (c : ConnSt) : Bool := (mget t.spdm.conns 3).any (fun x => x.st == c)
theorem witness_Connections : (
    replies (.getVersion (msg none true)) (spdmS [] []) 0x04 0 (fun t r => stageOf t .versioned && r.versions == [0x13] && r.version == 0x13) &&
    replies (.getVersion (msg (some 8) true)) (spdmS (conn .negotiated) (sess8 true none)) 0x7F 0x04 (fun _ _ => true) && replies (.getVersion (msg none false)) (spdmS [] []) 0x7F 0x01 (fun _ _ => true) &&
    (match turnGo (spdmS [] []) (.spdm (msg none true)) with | .next t => t.spdm.reply.any (fun r => r.error == 0x07) | _ => false) && replies (.getVersion { msg none true with ep := 99 }) (spdmS ((List.range 64).map (fun n => (n, { st := .versioned, a := [], m1 := [], l1 := [] }))) []) 0x7F 0x03 (fun _ _ => true) &&
    replies (.getCapabilities (msg none true)) (spdmS (conn .versioned) []) 0x61 0 (fun t r => stageOf t .capable && r.caps.length == 7 && r.sig.isNone) && replies (.negotiateAlgorithms (msg none true) true) (spdmS (conn .capable) []) 0x63 0 (fun t r => stageOf t .negotiated && r.algs.length == 6) &&
    [(Instr.getDigests (msg none true), 0x01), (.getCertificate (msg none true) 0, 0x02), (.challenge (msg none true), 0x03), (.getMeasurements (msg none true) 0, 0x60),
      (.getMeasurements (msg none true) 32, 0x60), (.getMeasurements (msg none true) 0xFF, 0x60)].all (fun p => replies p.1 (spdmS (conn .negotiated) []) p.2 0 (fun t r => stageOf t .negotiated &&
        r.sig.isSome == decide (p.2 = 0x03 ∨ p.2 = 0x60) && t.spdm.signed == (if r.sig.isSome then 5 else 4) &&
        (mget t.spdm.conns 3).any (fun c => c.a == [7] && (decide (p.2 ≠ 0x03) || c.m1 == [])) && r.blocks.length == (if p.1 = .getMeasurements (msg none true) 0xFF then 32 else if p.1 = .getMeasurements (msg none true) 32 then 1 else 0))) &&
    replies (.getDigests (msg none true)) (spdmS [] []) 0x7F 0x04 (fun _ _ => true) && replies (.getDigests (msg none true)) (spdmS (conn .capable) []) 0x7F 0x04 (fun _ _ => true) &&
    replies (.getDigests (msg none false)) (spdmS (conn .negotiated) []) 0x7F 0x01 (fun _ _ => true) && replies (.getDigests { msg none true with versionOk := false }) (spdmS (conn .negotiated) []) 0x7F 0x41 (fun _ _ => true) &&
    replies (.getDigests { msg (some 8) true with decryptOk := false }) (spdmS (conn .negotiated) (sess8 true none)) 0x7F 0x06 (fun t _ => t.spdm.sess.isEmpty) &&
    replies (.negotiateAlgorithms (msg none true) false) (spdmS (conn .capable) []) 0x7F 0x01 (fun _ _ => true) && replies (.getMeasurements (msg none true) 0x80) (spdmS (conn .negotiated) []) 0x7F 0x01 (fun _ _ => true) &&
    replies (.getCertificate (msg none true) 1) (spdmS (conn .negotiated) []) 0x7F 0x01 (fun _ _ => true)) = true := by decide +kernel
theorem witness_Sessions : (
    replies (.finish (msg (some 8) true)) (spdmS (conn .negotiated) (sess8 false none)) 0x65 0 (fun t _ => t.spdm.sess.all (fun x => x.established && x.seq == 7)) &&
    replies (.endSession (msg (some 8) true)) (spdmS (conn .negotiated) ((sess8 true none).map (fun x => { x with seq := 2 ^ 64 - 1 }))) 0x6C 0 (fun t _ => t.spdm.sess.isEmpty) &&
    replies (.getMeasurements (msg (some 8) true) 0) (spdmS (conn .negotiated) ((sess8 true none).map (fun x => { x with seq := 2 ^ 64 - 1 }))) 0x60 0 (fun t r => t.spdm.sess.isEmpty && r.count == 32) &&
    replies (.endSession (msg (some 8) true)) (spdmS (conn .negotiated) (sess8 true none)) 0x6C 0 (fun t _ => t.spdm.sess.isEmpty) &&
    replies (.getMeasurements (msg (some 8) true) 0x80) (spdmS (conn .negotiated) (sess8 true (some (2, 55, true)))) 0x60 0 (fun _ r => r.blocks == [55] && r.debug) &&
    replies (.getMeasurements (msg (some 8) true) 0x80) (spdmS (conn .negotiated) (sess8 true none)) 0x7F 0x01 (fun _ _ => true) &&
    replies (.keyExchange (msg none true) none) (spdmS (conn .negotiated) []) 0x64 0 (fun t _ => t.spdm.sess.map (fun x => (x.id, x.ep, x.established, x.bound)) == [(9, 3, false, none)] && t.spdm.next == 10) &&
    replies (.keyExchange (msg none true) (some 2)) (spdmS (conn .negotiated) []) 0x64 0 (fun t _ => t.spdm.sess.map (·.bound) == [some (2, 55, true)]) &&
    replies (.keyExchange (msg none true) none) (spdmS (conn .negotiated) (List.replicate 32 { id := 1, ep := 3, established := true, bound := none, th := [], l1 := [], key := 1, exported := 0, seq := 0 })) 0x7F 0x0A (fun _ _ => true)) = true := by
  decide +kernel

/-! ### Bindings: root port 0 of partition 0, binding 0 of requester 0x1234 and enclave 0, its acceptance record at VA 0x20000 -/

def bindS (st : Nat) (fails : Nat) (e : KMap Enclave) : State :=
  { gs with roots := [(0, { rppart := 0x10, binds := [(0, { lo := BitVec.ofNat 64 (0x1234 + st * 2 ^ 28), hi := 0x20000, fails := fails, key := none })], reply := none })],
            basalt := { gs.basalt with enclaves := e }, tlb := [{ pageAt 4 8 with unit := .other }], hbm := [] }
def unbound : State := { bindS 0 0 [(0, placeEnclave)] with roots := [(0, { rppart := 0x10, binds := [], reply := none })] }
def bound_ (i : Instr) (s : State) (st fails : Nat) : Bool := (answer i s).any (fun t => bindSt (bindOf t 0 0) == st && (bindOf t 0 0).fails == fails)
theorem witness_Bindings : (let e : KMap Enclave := [(0, placeEnclave)]
    !accepted unbound 0 { noBind with lo := 0x20001234, hi := 0x20000 } && bound_ (.bindRequest 0 0 0x10001234 0x20000) unbound 2 0 &&
    bound_ (.bindRequest 0 0 0x10001234 0x20000) { unbound with basalt := { gs.basalt with enclaves := [] } } 4 0 && bound_ (.bindRequest 0 0 0 0) (bindS 4 0 e) 0 0 &&
    bound_ (.bindRequest 0 0 0x10001234 0x20000) (bindS 3 0 e) 3 0 && bound_ (.bindFree 0 0) (bindS 4 0 e) 0 0 && still (.bindFree 0 0) (bindS 3 0 e) && bound_ (.tdispStop 0 0) (bindS 3 2 e) 4 2 &&
    still (.tdispStop 0 0) (bindS 4 0 e)) = true := by decide +kernel
def devReply (i : Instr) (s : State) (a : Option DevReply) : Bool := (answer i s).any (fun t => (mget t.roots 0).any (fun x => x.reply == a) && t.hbm == s.hbm)
theorem witness_DeviceRequests : (let e : KMap Enclave := [(0, placeEnclave)]
    let i (on ok : Bool) : Instr := .deviceRequest 0 0x1234 on ok true 0x40008 [7, 8]
    (answer (i true true) (bindS 3 0 e)).any (fun t => readLe t.hbm 0x80008 2 == 0x807) && devReply (i true true) (bindS 2 0 e) (some .unsupported) && devReply (i false true) (bindS 3 0 e) (some .unsupported) &&
    (let held := { bindS 3 0 e with hbm := writeLe [] 0x80008 2 0x807 }
     devReply (.deviceRequest 0 0x1234 true true false 0x40008 [0, 0]) held (some (.data [7, 8])) && devReply (i true false) (bindS 3 14 e) (some .unsupported)) &&
    bound_ (i true false) (bindS 3 14 e) 3 15 && bound_ (i true false) (bindS 3 15 e) 4 16 && devReply (.deviceRequest 0 0x1235 true true true 0x40008 [7, 8]) (bindS 3 0 e) (some .unsupported) &&
    (answer (.inboundWrite 0 0x40008 [7, 8]) (bindS 0 0 e)).any (fun t => readLe t.hbm 0x80008 2 == 0x807) && still (.inboundWrite 0 0x40008 [7, 8]) (bindS 0 0 [])) = true := by decide +kernel

/-! Streams: port 0, entry 0 of enclave 0 to peer 5 -/

def streamS (x : Stream) (e : KMap Enclave) : State :=
  { packet [] [] with ue := [(0, { table := (if x = noStream then [] else [(0, x)]), up := true, migreq := 0, migst := 0, migrating := none })], basalt := { gs.basalt with enclaves := e }, time := 50,
                      tlb := [{ pageAt 4 8 with unit := .other }], hbm := writeLe [] 0x80008 4 0xFFFFFFFF }
def keyed : Stream := { noStream with lo := 0x52000, link := some { own := 1, peer := 2 }, gen := 1, high := some 2000, seen := [2000, 1500] }
def streamIs (i : Instr) (x : Stream) (f : Stream → Bool) : Bool := (answer i (streamS x [(0, placeEnclave)])).any (fun t => f (streamOf t 0 0))
theorem witness_Streams : (
    streamIs (.streamRequest 0 0 0x51000 7 true true true) noStream (fun y => streamSt y == 2 && y.hi == 7 && y.gen == 1 && y.link.isSome) &&
    streamIs (.streamRequest 0 0 0x61000 9 true true true) keyed (fun y => y.lo == 0x62000 && y.hi == keyed.hi && y.gen == 1 && y.count == 0 && y.high.isNone) && streamIs (.streamRequest 0 0 0x51000 7 true false true) noStream (fun y => streamSt y == 3) &&
    (answer (.streamRequest 0 0 0x51000 7 true true true) (streamS noStream [])).any (fun t => streamSt (streamOf t 0 0) == 3) &&
    [976, 1999, 2001].all (fun n => streamIs (.streamMessage 0 0 n false true) keyed (fun y => y.drops == 0 && y.high == some (max n 2000) && y.seen.contains n && y.count == 1 && y.gen == 1)) &&
    [975, 1500].all (fun n => streamIs (.streamMessage 0 0 n false true) keyed (fun y => y.drops == 1 && y.high == some 2000)) &&
    streamIs (.streamMessage 0 0 2001 true true) keyed (fun y => y.drops == 1) && streamIs (.streamMessage 0 0 2001 true true) { keyed with oldUntil := some 51 } (fun y => y.drops == 0 && y.count == 0) &&
    streamIs (.streamMessage 0 0 2001 false true) { keyed with count := 2 ^ 32 - 2 } (fun y => y.gen == 2 && y.count == 0 && y.oldUntil == some 1000050) &&
    streamIs (.streamMessage 0 0 2001 false true) { keyed with count := 2 ^ 32 - 3 } (fun y => y.gen == 1 && y.count == 2 ^ 32 - 2 && y.oldUntil.isNone) &&
    streamIs (.streamMessage 0 0 2001 false false) { keyed with drops := 15 } (fun y => streamSt y == 3) && still (.streamMessage 0 0 5 false true) (streamS noStream []) && still (.streamRekey 0 0) (streamS noStream [])) = true := by decide +kernel
theorem witness_StreamKeys : (streamIs (.streamRekey 0 0) keyed (fun y => y.gen == 2 && y.count == 0 && y.oldUntil == some 1000050) && streamIs (.oldKeyExpiry 0 0) { keyed with oldUntil := some 50 } (fun y => y.oldUntil.isNone) &&
    streamIs (.oldKeyExpiry 0 0) { keyed with oldUntil := some 51 } (fun y => y.oldUntil == some 51) && streamIs (.oldKeyExpiry 0 0) keyed (fun y => y.oldUntil.isNone && y.gen == 1) &&
    streamIs (.peerUnreachable 0 5) keyed (fun y => streamSt y == 3) && streamIs (.peerUnreachable 1 5) keyed (fun y => streamSt y == 2)) = true := by decide +kernel
theorem witness_Migration : (let port (s : State) (f : UePort → Bool) (i : Instr) : Bool := (answer i s).any (fun t => (mget t.ue 0).any f)
    let s := streamS noStream [(0, placeEnclave)]
    port s (fun u => u.migst == 3 && u.migrating.isNone) (.migrationRequest 0 0x70000 false false) && port s (fun u => u.migst == 2) (.migrationRequest 0 0x70000 true true) &&
    port s (fun u => u.migst == 1 && u.migrating.isNone) (.migrationRequest 0 0x70000 false true) && !migrateReady s 0 &&
    (let r : State := { s with groups := [], teams := [], launches := [], fes := [(0, fe0 { ring0 with freeze := true, state := .frozen })] }
     migrateReady r 0 && port r (fun u => u.migst == 1 && u.migrating == some 0) (.migrationRequest 0 0x70000 false true) &&
     (answer (.migrationRequest 0 0x70000 false true) r).any (fun t => t.basalt.moved == [(0, 7)])) &&
    still (.migrationRestoreReport 0) s && (let m := { s with ue := [(0, { table := [], up := true, migreq := 0, migst := 1, migrating := some 0 })] }
      port m (fun u => u.migst == 0 && u.migrating.isNone) (.migrationRestoreReport 0) && (answer (.migrationRestoreReport 0) m).any (fun t => (mget t.basalt.enclaves 0).all (·.ending))) &&
    (mget s.basalt.enclaves 4).isNone && still (.migrationKeyImport 0 0 true 9) s &&
    (answer (.remoteAtomic 0 0x40008 false .add 2) s).any (fun t => t.remoteReply == some (.value 0xFFFFFFFF) && readLe t.hbm 0x80008 8 == 1) &&
    (let gone := { s with basalt := { s.basalt with enclaves := [], moved := [(0, 7)] } }
     (answer (.remoteAtomic 0 0x40008 false .add 2) gone).any (fun t => t.remoteReply == some (.moved 7))) &&
    (let frozen (m : List (Nat × Nat)) : State := { awaiting 1 [] with basalt := { (awaiting 1 []).basalt with moved := m } }
     (answer (.remoteAtomic 0 0x40008 false .add 2) (frozen [(0, 7)])).any (fun t => t.remoteReply == some (.moved 7) && t.remoteWait == []) &&
     (answer (.remoteAtomic 0 0x40008 false .add 2) (frozen [])).any (fun t => t.remoteReply.isNone && t.remoteWait.length == 1)) &&
    (let far := awaiting 2 []
     (answer (.remoteAtomic 0 0x40008 false .add 2) far).any (fun t => t.remoteReply.isNone && t.remoteWait.length == 1))) = true := by decide +kernel

/-! ### The debug mailbox: a command at 0x70000 of core 0 at L1, about enclave 0 and the group alone on core 0 -/

def dbg (b : List Nat) (debug : Bool) (g : Group) : State :=
  let s := request 1 b [] [(0, { placeEnclave with debug := debug })]
  { s with groups := [(0, g)], teams := gs.teams, tlb := [{ pageAt 4 8 with x := true, unit := .other }], hbm := writeLe s.hbm 0x80008 8 0x77 }
def dbgCode (i : Instr) (s : State) (code : Nat) (f : State → Bool) : Bool :=
  (answer i s).any (fun t => t.dbox.code == code && t.dbox.cmd.isNone && readLe t.hbm 0x70038 8 == code + 256 && f t)
theorem witness_DebugCommands : (
    dbgCode (.dbgArm 0 0x70000) (dbg [1, 0, 1 * 2 ^ 32, 1] true gr) 0 (fun t => (mget t.groups 0).any (·.armed) && armedMask t 0 0 0 == 1) &&
    dbgCode (.dbgArm 0 0x70000) (dbg [1, 0, 1 * 2 ^ 32, 1] false gr) 2 (fun t => mget t.groups 0 == some gr) && dbgCode (.dbgArm 0 0x70000) (dbg [1, 0, 0, 2] true gr) 1 (fun _ => true) &&
    dbgCode (.dbgArm 0 0x70000) (dbg [0] true gr) 1 (fun _ => true) && dbgCode (.dbgArm 0 0x70000) (dbg [0x100001] true gr) 1 (fun _ => true) &&
    dbgCode (.dbgArm 0 0x70000) (dbg [1, 0, 1 * 2 ^ 32, 1, 0, 0, 1] true gr) 1 (fun _ => true) &&
    dbgCode (.dbgPatch 0 0x70000) (dbg [2, 0x40008, 0x99] true gr) 0 (fun t => readLe t.hbm 0x80008 8 == 0x99 && readLe t.hbm 0x70030 8 == 0x77) &&
    dbgCode (.dbgPatch 0 0x70000) (dbg [2, 0x4000C, 0x99] true gr) 1 (fun _ => true) && dbgCode (.dbgPatch 0 0x70000) { dbg [2, 0x40008, 0x99] true gr with tlb := [] } 4 (fun _ => true) &&
    dbgCode (.dbgPatch 0 0x70000) (dbg [2, 2 ^ 55, 0x99] true gr) 4 (fun _ => true) &&
    dbgCode (.dbgWatch 0 0x70000) (dbg [3, 0, 0, 1 + 2 * 4 + 8 * 16, 0x30038] true gr) 0 (fun t => t.dbox.watches.map (fun w => (w.n, w.w)) == [(1, { lo := 0x30038, hi := 0x30040, rd := false, wr := true })]) &&
    dbgCode (.dbgWatch 0 0x70000) (dbg [3, 0, 0, 1 + 2 * 4 + 8 * 16, 0x30039] true gr) 1 (fun _ => true) && dbgCode (.dbgWatch 0 0x70000) (dbg [3, 0, 0, 1 + 8 * 16, 0x30038] true gr) 0 (fun t => t.dbox.watches == []) &&
    dbgCode (.dbgResume 0 0x70000) (dbg [4, 0, 5, 0x2000] true { gr with stop := .halted false }) 0 (fun t => (mget t.groups 0).any (fun g => g.stop == .none && g.stepping && g.pass == some false && g.slot0.pc == 0x2000 && g.s == gr.s)) &&
    (let rec_ (sl : Bool) : Replay := { pc := 0x1000000, slot := sl, vals := [], sval := 1 }
     let g : Group := { gr with stop := .halted false, replay := [rec_ false, rec_ true] }
     [(0, 2), (0x2000, 1), (0x1000000, 2)].all (fun p => dbgCode (.dbgResume 0 0x70000) (dbg [4, 0, 4, p.1] true g) 0 (fun t => (mget t.groups 0).any (fun g => g.replay.length == p.2)))) &&
    dbgCode (.dbgResume 0 0x70000) (dbg [4, 0, 5, 0x2000] true gr) 3 (fun _ => true)) = true := by decide +kernel

def events (n wr : Nat) : State :=
  { gs with dbox := { gs.dbox with ring := 0x40001, wr := wr, rd := 2, queue := List.replicate n [1, 2, 3, 4, 5, 6, 7, 8], root := encCtx gs 0 }, tlb := [{ pageAt 4 8 with unit := .other }] }
theorem witness_DebugEvents : ((answer .debugEventWrite (events 1 65)).any (fun t => t.dbox.wr == 66 && t.dbox.queue == [] && readLe t.hbm 0x80040 8 == 1 && readLe t.hbm 0x80078 8 == 8) &&
    still .debugEventWrite (events 1 66) && still .debugEventWrite (events 0 3) && (answer (.dbgEventConsume 5) (events 0 5)).any (fun t => t.dbox.rd == 5) && still (.dbgEventConsume 6) (events 0 5) &&
    (answer .debugPortAck (events 0 5)).any (fun t => t.dbox.rd == 5 && t.dbox.wr == 5)) = true := by decide +kernel

/-! ### Bring-up and service: blocks 2 and 3, 2 released or not -/

def blk (r : Bool) (svn : Nat) (f : List Nat) : Block := { released := r, held := false, svn := svn, fails := f, quiet := false }
/-- An image for a block, its body 8 bytes; m is its magic number. -/
def img (m n svn : Nat) : List Byte :=
  leBytes 8 (m + n * 2 ^ 32 + svn * 2 ^ 48) ++ leBytes 8 8 ++ List.replicate 112 0 ++ List.replicate 96 7 ++ List.replicate 32 0 ++ List.replicate 8 3
def magic : Nat := 0x56424D49
/-- A flash whose directory names images for blocks 2 and 3. -/
def flashOf (a b : List Byte) : Bytes :=
  writeBytes (writeBytes (writeLe (writeLe [] 0 9 (2 + 2 ^ 8 * 256 + 2 ^ 40 * 264)) 16 9 (3 + 2 ^ 8 * 520 + 2 ^ 40 * 264)) 256 a) 520 b
def blocks (two : Block) (recov : Option RecReq) (x2 : List Byte) : State :=
  { gs with basalt := { gs.basalt with mr := [(0, 1), (3, 1)], blocks := [(2, two), (3, blk false 0 [])], flash := flashOf x2 (img magic 3 4), recover := recov },
            ue := [(0, { table := [], up := false, migreq := 0, migst := 0, migrating := none }), (4, { table := [], up := true, migreq := 0, migst := 0, migrating := none })],
            quartz := [(0, resetQuartz 0), (32, resetQuartz 32)], time := 10 ^ 11 }
def asked2 (p : Option Nat) (svn : Nat) : RecReq := { block := 2, port := p, svn := svn }
def blkIs (i : Instr) (s : State) (n : Nat) (f : State → Block → Bool) : Bool := (answer i s).any (fun t => (mget t.basalt.blocks n).any (f t))

/-- An image that is accepted, if its signature is; what loading it does. -/
theorem witness_BlockLoads (h : Config.signatureOk (img magic 2 7) = true) :
    let s := blocks (blk false 5 []) none (img magic 2 7)
    FlashHas s.basalt.flash 2 (img magic 2 7) ∧ Accepted s 2 (img magic 2 7) ∧ memWf s.basalt.flash = true ∧ s.basalt.mr ≠ [] ∧
    flashPlace s.basalt.flash 2 264 = some (0, 256) ∧ flashPlace s.basalt.flash 4 264 = some (2, 784) ∧ imageSvn (img magic 2 7) = 7 ∧
    (let t := loadBlock s 2 (imageOf (img magic 2 7))
     (mget t.basalt.blocks 2).any (fun b => b.released && b.svn == 7) && (mget t.quartz 32).any (fun q => !q.halted) && (mget t.quartz 0).any (·.halted) &&
       t.basalt.svctl == 0xFFFF) = true := by
  refine ⟨⟨0, by decide, ?_, by decide, ?_⟩, ⟨⟨?_, ?_, ?_, ?_, ?_, ?_, ?_, ?_⟩, ?_, ?_⟩, ?_, ?_, ?_, ?_, ?_, ?_⟩
  case refine_10 =>
    have e : (img magic 2 7).take (256 + dwFld (img magic 2 7) 1 0 32) = img magic 2 7 := by decide +kernel
    rw [e]; exact h
  all_goals decide +kernel

/-- An image of another block, and one of a version below the fused counter, are not accepted. -/
theorem witness_NotAccepted : let s := blocks (blk false 5 []) none []
    ¬ Accepted s 2 (img magic 3 7) ∧ ¬ Accepted s 2 (img magic 2 4) := by
  refine ⟨fun h => absurd h.2.1 (by decide +kernel), fun h => absurd (h.2.2 (blk false 5 []) rfl) (by decide +kernel)⟩

theorem witness_Blocks : (
    [img 0 2 7, []].all (fun x => blkIs .boot (blocks (blk false 5 []) none x) 2 (fun t b => !b.released && t.basalt.recover == some (asked2 (some 4) 5))) &&
    blkIs .boot (let s := blocks (blk false 8 []) none []; { s with ue := [] }) 2 (fun t _ => t.basalt.recover == some (asked2 none 8)) &&
    still .boot (blocks (blk false 0 []) (some (asked2 none 0)) []) && still .boot (blocks (blk true 0 []) (some (asked2 none 0)) []) &&
    [img 0 2 9, []].all (fun x => still (.recovery 2 x) (blocks (blk false 5 []) (some (asked2 (some 4) 5)) [])) &&
    still (.recovery 3 (img magic 3 9)) (blocks (blk false 0 []) (some (asked2 (some 4) 0)) []) && still (.recovery 2 (img magic 2 9)) (blocks (blk false 0 []) (some (asked2 none 0)) []) &&
    still (.recovery 2 (img magic 2 9)) (blocks (blk false 0 []) none []) && still (.watchdogExpiry 2) (blocks (blk false 0 []) none []) &&
    blkIs (.watchdogExpiry 2) (blocks (blk true 0 [9 * 10 ^ 10 + 1, 10 ^ 11 - 5]) none []) 2 (fun t b => !b.released && b.held && b.fails.length == 3 && t.basalt.written == 1) &&
    blkIs (.watchdogExpiry 2) (blocks (blk true 0 [9 * 10 ^ 10, 10 ^ 11 - 5]) none []) 2 (fun t b => !b.released && !b.held && b.fails.length == 2 && t.basalt.recover == some (asked2 (some 4) 0))) = true := by decide +kernel

/-- No sequencer turns while block 10 is in reset, no prologue engine while block 5 is. -/
theorem witness_BlockInReset : [(10, Mover.seq 0 0), (5, .prologue 0), (2, .quartz 33), (9, .quartz 0)].all (fun p =>
    let s : State := { stepState with basalt := { stepState.basalt with blocks := [(p.1, blk false 0 [])] } }
    (match turnGo s (.unit p.2) with | .next t => t == { s with mover := p.2 } | _ => false)) = true := by decide +kernel

/-- UPDREQ names PA 0x70000 in a hypervisor frame, where an image is or not; an update on its way. -/
def updating (busy : Bool) (u : Option Upd) (x : List Byte) : State :=
  { gs with hbm := writeBytes [] 0x70000 x,
            basalt := { gs.basalt with updBusy := busy, updPa := 0x70000, update := u, own := [(7, { freeOwn with cls := 1 })] } }
theorem witness_LiveUpdate : (let ends (s : State) (k : Nat) : Bool := (answer .liveUpdate s).any (fun t => t.basalt.updCode == k && !t.basalt.updBusy && t.basalt.update.isNone)
    still .liveUpdate (updating false none []) && ends (updating true none (img 0 2 7)) 1 &&
    (let bare := { updating true none [] with basalt := { (updating true none []).basalt with own := [] } }
     (stagedImage bare).isNone && ends bare 1) &&
    (stagedImage (updating true none (img magic 11 7))) == some (img magic 11 7) &&
    (let busy : State := { updating true (some (.quiesce 5 (img magic 5 7) 0)) [] with fes := [(0, fe0 { ring0 with placing := some 0 })] }
     still .liveUpdate busy) &&
    (let c (k : Nat) : State := { updating true (some (.quiesce 10 (img magic 10 7) k)) [] with cores := [(0, { resetCore with tiles := [(1, 1)], ticks := 5 })] }
     still .liveUpdate (c 0) &&
     (answer .liveUpdate { c 0 with groups := [], teams := [] }).any (fun t => t.basalt.update == some (.quiesce 10 (img magic 10 7) 1) &&
       (mget t.cores 0) == some { resetCore with ticks := 5 }))) = true := by decide +kernel
/-- The rest of an update's check, if the signature verifies; a write of the flash that succeeds, or power that fails in it. -/
theorem witness_LiveUpdateStages :
    (Config.signatureOk (img magic 5 7) = true → ImageForm (img magic 5 7) ∧ imageId (img magic 5 7) = 5 ∧ stagedImage (updating true none (img magic 5 7)) = some (img magic 5 7)) ∧
    (let s := updating true (some (.flash 5 (img magic 5 7))) []
     flashPlace s.basalt.flash 5 264 = some (0, 256) ∧ (mget s.basalt.blocks 5).any (·.released) = true ∧ memWf s.basalt.flash = true ∧
     (flashWrite s.basalt.flash 5 (img magic 5 7)).any (fun m => readLe m 0 9 == 5 + 2 ^ 8 * 256 + 2 ^ 40 * 264 && readBytes m 256 264 == img magic 5 7) = true ∧
     (answer .powerLoss s).any (fun t => readLe t.basalt.flash 0 1 == 5 && readLe t.basalt.flash 256 8 == 5 * 2 ^ 32 + 7 * 2 ^ 48) = true) := by
  refine ⟨fun h => ⟨⟨?_, ?_, ?_, ?_, ?_, ?_, ?_, ?_⟩, ?_, ?_⟩, ?_, ?_, ?_, ?_, ?_⟩
  case refine_8 =>
    have e : (img magic 5 7).take (256 + dwFld (img magic 5 7) 1 0 32) = img magic 5 7 := by decide +kernel
    rw [e]; exact h
  all_goals decide +kernel

theorem witness_CoreRetire : (let s (sp : Nat) : State := { gs with cores := [(0, { resetCore with free := 8, ticks := 5 }), (1, resetCore)], dies := [(0, { resetDie with spares := sp })] }
    let dieIs (i : Instr) (t : State) (f : State → Die → Bool) : Bool := (answer i t).any (fun w => (mget w.dies 0).any (f w))
    dieIs (.coreRetire 0 0) (s 4) (fun t d => d.spares == 3 && d.coresp == 0 && (mget t.cores 0).any (fun c => c.retired && c.spare && c.free == 8) && t.basalt.written == 1) &&
    dieIs (.coreRetire 0 1) (s 4) (fun t d => d.spares == 3 && mget t.cores 1 == some resetCore) && dieIs (.coreRetire 0 0) (s 0) (fun _ d => d.coresp == 1) &&
    dieIs (.coreRetire 0 48) (s 4) (fun _ d => d.coresp == 2) && still (.phyRecalibration 3) (s 4)) = true := by decide +kernel
/-- The third MACHINE_CHECK of a core within an hour, and one after the hour; one on a Quartz core. -/
theorem witness_MachineChecks : (let s (first : Nat) : State := { gs with cores := [(0, { resetCore with checks := [first, 3600 * 10 ^ 9 + 4] })], time := 3600 * 10 ^ 9 + 5 }
    after (.machineCheck (.group 0 false)) (s 6) (fun t g => g.stop == .system && g.cause == 1 && g.s == gr.s && g.slot0 == gr.slot0 && (mget t.cores 0).any (fun c => c.retired && c.checks.length == 3)) &&
    after (.machineCheck (.group 0 false)) (s 5) (fun t _ => (mget t.cores 0).any (fun c => !c.retired && c.checks.length == 2)) &&
    still (.machineCheck (.quartz 0)) (qOf { q0 with halted := true } []) &&
    qAfter (.machineCheck (.quartz 0)) qm (fun _ q => q.level == 2 && q.halted && q.s == q0.s)) = true := by decide +kernel

def freezing (d : Bool) (f : Debug → Debug) : State :=
  let s := onM gm
  { s with dbox := f s.dbox, basalt := { s.basalt with enclaves := [(0, { placeEnclave with debug := d })] } }
theorem witness_Freezes : ([(Instr.freezePin, fun (x : Debug) => x), (Instr.freezeRequest, fun (x : Debug) => { x with frzreq := true })].all (fun p =>
      (answer p.1 (freezing false p.2)).any (fun t => t.dbox.frozen && !t.dbox.frzst && mget t.groups 0 == some gm) &&
      (let again (d : Bool) : State := freezing d (fun x => { p.2 x with frozen := true })
       (answer p.1 (again false)).any (fun t => t.dbox.frzst && (mget t.groups 0).any (fun g => g.s == [] && g.k == [] && g.v == [] && g.h == []) && readLoc t (.shared 0 40) == 0) &&
       (answer p.1 (again true)).any (fun t => t.dbox.frzst && mget t.groups 0 == some gm && readLoc t (.shared 0 40) == 0x81)) &&
      still p.1 (freezing false (fun x => { p.2 x with frozen := true, frzst := true }))) &&
    still .freezeRequest (freezing false id) && (answer .scanReadOut gs).any (fun t => t.dbox.scan == some false) && (answer (.thermalLimit 105) gs).any (fun t => t.thermal && !t.dbox.frozen) &&
    (answer (.thermalLimit 104) { gs with thermal := true }).any (fun t => !t.thermal) && (answer (.thermalLimit 115) gs).any (fun t => t.thermal && t.dbox.frozen) &&
    (answer .powerLoss (blocks (blk true 7 [5]) none (img magic 2 7))).any (fun t => t.groups.isEmpty && t.hbm.isEmpty && t.basalt.enclaves.isEmpty && t.quartz == State.reset.quartz &&
      (mget t.basalt.blocks 2).any (fun b => b.svn == 7 && !b.released) && t.basalt.flash == flashOf (img magic 2 7) (img magic 3 4))) = true := by decide +kernel


/-! ### Corners of the claims above: every clause that a boundary of its own has -/

/-- BvSplits: no lane taken, every live lane taken, and a stack without room for what is pushed, the sibling free or busy. -/
def deepStack (n : Nat) : List SEntry := List.replicate n { pc := 0x1000048, tag := 0, frame := false, mask := 0xFFFF, rpc := none, fmt := 0, lent := [] }
theorem witness_BvEdges : (ready (.bv 0x45 4 9) gs && doesB (.bv 0x45 4 9) gs gs && ready (.bv 0x40 4 9) gs && jumpsB (.bv 0x40 4 9) gs gs 0x1000020 &&
    [on { gr with stack := deepStack 64 }, on { busy with stack := deepStack 63 }].all (fun s => ready (.bv 0x43 4 9) s && faultsB (.bv 0x43 4 9) s 0x82 0x0280000001000000)) = true := by
  decide +kernel

/-- CauseRouting: a machine check goes to system software though the launch names a handler. -/
theorem witness_CheckRouting : (let s := withHandler gr
    stopOf (takeCause s 0 false { code := 0x01, lane := none, space := 5, addr := 0, n := 0 } none) == some .system && !isHalted gr && gr.stop != .saving && gr.stop != .system &&
    canon s && (mget s.fes lau.fe).isSome) = true := by decide +kernel

/-- GroupSpecials: POOL, codes from 0xC0 on, and the numbers of other profiles. -/
theorem witness_GroupSpecialEdges : (let p := { gs with cores := [(0, { resetCore with free := 8 })] }
    ready (.mfs 9 0x0A) p && doesB (.mfs 9 0x0A) p (writeReg p 9 (8 + 64 * 65536)) &&
    (let c (v : W64) : State := on { gr with s := [(5, v)] }
     [(0xBF, 0xBF), (0xC0, 0xFF), (0x80C3, 0xFF), (0x41C3, 0x41FF)].all (fun (x : W64 × W64) => ready (.mts 6 5) (c x.1) &&
       doesB (.mts 6 5) (c x.1) (setGroup (c x.1) 0 { gr with s := [(5, x.1)], cause := x.2 }))) &&
    [(0x80 : BitVec 8), 0xFF].all (fun n => faultsB (.mts n 3) gs 0x44 0x0280000001000000 && faultsB (.mfs 9 n) gs 0x44 0x0280000001000000)) = true := by decide +kernel

/-- QuartzSpecials: every listed register is written, at its own level's copy, and read back; the writes that fault. -/
def sx (v : W64) (lv : Nat) : State := { qs with quartz := [(0, { resetQuartz 0 with halted := false, level := lv, pc := 0x1000000, s := if v = 0 then [] else [(5, v)] })] }
theorem witness_QuartzWrites : (quartzWritable.all (fun p => [2, 3].all (fun lv =>
      let v : W64 := if p.1 = 0x8D then 0xEFFF else 0x0F0F0F0F0F0F0F08
      let n := BitVec.ofNat 8 p.1
      let s := sx v lv
      ready (.mts n 5) s && (answer (.mts n 5) s).any (fun t => (mget t.quartz 0).any (fun q => srGet q (quartzBank q p.1) p.1 == v &&& p.2) &&
        ready (.mfs 9 n) t && doesB (.mfs 9 n) t (writeReg t 9 (v &&& p.2))))) &&
    ([(0x80, 0), (0x88, 0), (0x81, 4), (0x91, 1), (0x8D, 0xF000)] : List (BitVec 8 × W64)).all (fun p =>
      ready (.mts p.1 5) (sx p.2 2) && (mget (sx p.2 2).quartz 0).any (fun q => !entryWaits (sx p.2 2) q) &&
      (answer (.mts p.1 5) (sx p.2 2)).any (fun t => t.last == .faulted && (mget t.quartz 0).any (fun q => q.level == 2 && q.halted && q.s == (if p.2 = 0 then [] else [(5, p.2)]))))) = true := by decide +kernel

/-- StepRunsDecoded: the units' blocks are out of reset; Basalt's core fetches from its ROM. -/
theorem witness_StepHolds : (allUp stepState (unitNeeds (.seq 0 0)) && allUp stepQuartz (unitNeeds (.quartz 0)) && !stepState.dbox.frozen && stepQuartz.script.isEmpty &&
    (let s : State := { gs with agent := .quartz 36, quartz := [(36, resetQuartz 36)], rom := writeLe [] 0 8 0x0A80000000000000 }
     (match fetchWord s with | .word w t => w == 0x0A80000000000000 && t == s | _ => false))) = true := by decide +kernel

/-- VectorCompareAndMove, VectorConvert: values of R228 and R97 at NaNs, infinities, both zeros, the ends of a range. -/
theorem witness_CompareAndConvert : (
    [(FCond.lt, 0x7FC00000, 0x3F800000, (false, 1)), (.eq, 0x7FC00000, 0x3F800000, (false, 0)), (.ne, 0x7FC00000, 0x7FC00000, (true, 0)), (.eq, 0x7F800001, 0, (false, 1)),
      (.eq, 0x80000000, 0, (true, 0)), (.lt, 0x80000000, 0, (false, 0)), (.lt, 0xFF800000, 0x7F800000, (true, 0)), (.ge, 0x7F800000, 0x7F7FFFFF, (true, 0)),
      (.uo, 0x7FC00000, 0, (true, 0)), (.ord, 0, 0x7FC00000, (false, 0))].all (fun (p : FCond × Nat × Nat × (Bool × Nat)) => compared p.1 false .f32 p.2.1 p.2.2.1 == p.2.2.2 && fCompare p.1 false .f32 p.2.1 p.2.2.1 == p.2.2.2) &&
    compared .eq true .f32 1 0 == (true, 0) && compared .eq false .f32 1 0 == (false, 0) &&
    [(VTy.f32, VTy.i32, RMode.rne, 0x3FC00000, 2, 16), (.f32, .i32, .rtz, 0xBFC00000, 0xFFFFFFFF, 16), (.f32, .i32, .rne, 0x4F000000, 0x7FFFFFFF, 1), (.f32, .n32, .rne, 0xBF800000, 0, 1),
      (.f32, .i32, .rne, 0x7FC00000, 0, 1), (.f32, .i64, .rup, 0xFF800000, 2 ^ 63, 1), (.i32, .f32, .rne, 0x01000001, 0x4B800000, 16), (.f32, .bf16, .rne, 0x3F808000, 0x3F80, 16),
      (.f32, .bf16, .rup, 0x3F808000, 0x3F81, 16), (.f32, .e4m3, .rne, 0x7FC00000, 0x7F, 0), (.f32, .fp4, .rne, 0x7FC00000, 0, 1)].all
      (fun (p : VTy × VTy × RMode × Nat × Nat × Nat) => cvtVal p.1 p.2.1 p.2.2.1 false false false p.2.2.2.1 == p.2.2.2.2)) = true := by decide +kernel
theorem test_roundsTo : roundsTo .rne 3 2 2 ∧ roundsTo .rne 5 2 2 ∧ roundsTo .rtz (-3) 2 (-1) ∧ roundsTo .rdn (-3) 2 (-2) ∧ roundsTo .rup 3 2 2 := by
  refine ⟨?_, ?_, ?_, ?_, ?_⟩ <;> simp [roundsTo]

/-- MemoryFaults: the walk, the bounds and the order of a spill access; ldt on a line Absent or Poisoned and at a line's end; mfrag. -/
def lineOf (st : LineSt) : State := { counted with dies := [(0, { resetDie with lines := [{ countedLine with st := st }] })] }
theorem witness_MemoryFaultEdges : ([(.ldp (mq .b64 .s0), onM { gm with spill := 0x40000 }, 0x4023, 0x0080000000000028),
      (.stp (mq .b64 .s0), onM { gm with spill := 0x40000 }, 0x4023, 0x0080000000000028),
      (.ldp { mq .b64 .s0 with off := 64 }, ms, 0x4024, 0x0080000000000068), (.stp { mq .b64 .s0 with off := 17 }, ms, 0x4024, 0x0080000000000039),
      (.stp { mq .b64 .s0 with off := 9 }, ms, 0x4025, 0x0080000000000031),
      (.ldt { mq .b32 .s2 with base := 0x59 }, ms, 0x26, 0x0200000000001000),
      (.ldt { mq .b32 .s2 with base := 0x59 }, lineOf .poisoned, 0x02, 0x0200000000001000),
      (.ldt { mq .b64 .s2 with base := 0x59, off := 60 }, lineOf .counted, 0x24, 0x020000000000103C),
      (.ldt { mq .b64 .s2 with base := 0x59, off := 4 }, lineOf .counted, 0x25, 0x0200000000001004),
      (.mfrag { fragOp with off := 8 }, ms, 0x25, 0x0180000000000008), (.mfrag { fragOp with index := 4 }, ms, 0x28, 0x018000007F000000),
      (.mfrag { fragOp with wt := .fragShared, off := 3088 }, ms, 0x24, 0x0100000000000C10)] : List (Instr × State × W64 × W64)).all
    (fun p => faultsM p.1 p.2.1 p.2.2.1 p.2.2.2) = true := by decide +kernel

/-- EnginesComplete: two groups of one team contribute to one collective, at each extent; contributions that differ, in operation, type or extent;
a stream that failed; a set whose ranks are not distinct; a group that has retired is the identity. -/
def pairC (f : Contrib → Contrib) : List Contrib := [contrib false, f { contrib false with loc := 8192, pend := 2, num := 1, vals := [(0, 10), (1, 0xFFFFFFFF)] }]
def pairS (cs : List Contrib) : State :=
  let g (n : Nat) : Group := { gm with num := n, pend := [{ pendOn .none with id := n + 1, path := some .engine }], queue := [(3, [{ waiting_ with work := n + 1 }])] }
  { onM gm with groups := [(0, g 0), (8192, g 1)], launches := [(0, { lauM with size := 2 })], work := [(4, .coll 0 3 0 cs)], fresh := 5,
                teams := [(0, { newTeam lauM 0 0 0 with groups := [0, 8192] })] }
def getsB (s : State) (head : W64) (vals : List W32) : Bool :=
  canon s && (answer (.collectiveCompletion 4) s).any (fun t => t.groups.length == 2 && t.groups.all (fun g =>
    (mgetD g.2.queue 3 []).map (fun e => (e.header, e.lanes.map (·.2))) == [(head, vals.map (fun v => [v]))]))
def atExtent (e : Nat) (l : List Contrib) : List Contrib := l.map (fun c => { c with extent := e })
theorem witness_Collectives : ([0, 1].all (fun e => getsB (pairS (atExtent e (pairC id))) 0 [15, 5]) &&
    getsB (pairS (pairC (fun c => { c with op := .min }))) 0x200 [0, 0] && getsB (pairS (pairC (fun c => { c with ty := .n32 }))) 0x200 [0, 0] &&
    getsB (pairS (pairC (fun c => { c with extent := 2 }))) 0x200 [0, 0] &&
    getsB (pairS (atExtent 2 (pairC (fun c => { c with dead := true })))) 0x700 [0, 0] &&
    (let s := pairS (atExtent 2 (pairC id))
     let x : Stream := { lo := 0x2000, hi := 0, high := none, seen := [], drops := 0, link := none, gen := 0, tx := 0, rx := 0, oldRx := 0, count := 0, oldUntil := none }
     getsB { s with ue := [(0, { table := [(0, x)], up := true, migreq := 0, migst := 0, migrating := none })] } 0x200 [0, 0]) &&
    (let s := pairS [contrib false]
     let s := { s with teams := s.teams.map (fun t => (t.1, { t.2 with retired := 2 })), groups := s.groups.take 1 }
     canon s && (answer (.collectiveCompletion 4) s).any (fun t => t.work.isEmpty && t.groups.all (fun g =>
       (mgetD g.2.queue 3 []).map (fun e => (e.header, e.lanes)) == [(0, [(0, [5]), (1, [6])])])))) = true := by decide +kernel

/-- CopiesComplete: two rows with strides from device memory to scratch; a conversion to BF16; the signal of a copy that has moved its
elements; the end of a counted copy with a poisoned line. -/
def copyT (w0 n0 n1 s1 d1 : Nat) : List Byte :=
  leBytes 8 w0 ++ leBytes 8 (n0 + n1 * 2 ^ 32) ++ leBytes 8 0 ++ leBytes 8 s1 ++ leBytes 8 (d1 * 2 ^ 32) ++ List.replicate 24 0
def copyS (c : Copy) : State := { flight (.copy c) .copy [] with dies := [(0, { resetDie with colset := [(0, 0x10000)], array := [(0, 7), (1, 9), (2, 0xC0), (3, 0x3F)] })] }
def endsB (c : Copy) (status : W64) (ok : State → Bool) : Bool :=
  ownsB (copyS c) && canon (copyS c) && copyMoves (copyS c) 1 c && after (.copyCompletion 1) (copyS c) (fun t g =>
    g.pend.isEmpty && t.work.isEmpty && gRead g 9 == status && mgetD g.chan 3 0 == status && ok t)
theorem witness_CopyEdges :
    (endsB { copyOf (copyT 0x1021 2 2 4 8) 0 with arg := [0, 40] } 0x04000031 (fun t => [40, 41, 48, 49, 42, 47].map (fun n => readLoc t (scratchLoc t 0 0 n)) == [0x88, 0x77, 0x44, 0x33, 0, 0]) &&
     endsB (copyOf (copyT 0x10032 1 0 0 0) 0) 0x02000031 (fun t => [40, 41].map (fun n => readLoc t (.shared 0 n)) == [0xC0, 0x3F]) &&
     endsB { copyOf (copyT (0x32 + 2 ^ 33) 2 0 0 0) 0 with fin := some (2, 1, 6), arg := [0, 40, 0, 0, 0, 0x78] } 0x02010631 (fun t =>
       readLe t.hbm 0x50000 8 == 0x1122334455667800 && readLoc t (.shared 0 40) == 0x81) &&
     endsB { copyOf (copyT 0x02000401 4 0 0 0) 0 with badsec := 4, filled := 1 } 0x40040631 (fun _ => true)) = true := by decide +kernel

/-- Graphs: a kernel node whose working set is not resident holds its queue, and so does a launch of a node whose teams are not placed. -/
def nodeS (thr : Nat) : State :=
  let s0 := graphS [1, 0xFFFF0001, 0x30000] 0 [] []
  { s0 with hbm := dwordsAt 0x80200 kernel (dwordsAt 0x70000 [1 + 31 * 256, 0x40200 + thr * 2 ^ 56, 1 + 2 ^ 32 + 2 ^ 48] s0.hbm), shale := { s0.shale with wset := [(0, (100, 50, 0))] },
            fes := s0.fes.map (fun x => (x.1, { x.2 with queues := mput x.2.queues 0 spilled })), dies := [(0, { resetDie with colset := [(0, 0x10000)] })] }
theorem witness_NodeHolds : (queueIs (.kernelNode 0 0) (nodeS 128) (fun t x => x.holds == [(false, 0)] && x.state == .waiting && ((feOf t 0).graph).any (fun g => g.ready == [0] && g.running == [])) &&
    queueIs (.kernelNode 0 0) (nodeS 0) (fun _ x => x.holds == [(true, 0)] && x.state == .waiting)) = true := by decide +kernel

/-- TranslationWalks: a walk that another holder shares, which gets its result; a request of a core whose cluster has 64 walks. -/
theorem witness_WalksShared : (let s0 := walking 0x80011 []
    let s : State := { s0 with walks := [{ newWalk (agentCtx s0 (.quartz 0)) 0x40008 .read false 1 with units := [.core 3] }] }
    canon s && (answer (.translationWalk (.quartz 0) 0x40010 .read) s).any (fun t => t.walks == [] && t.tlb.map (fun e => (e.unit, e.page, e.frame)) == [(.quartz 0, 4, 8), (.core 3, 4, 8)]) &&
    (let c := agentCtx ms (.group 0 false)
     let full : State := { ms with walks := (List.range 64).map (fun n => newWalk { c with unit := .core (n % 16) } ((16 + n) * 65536) .read false 1) }
     tlbFind full c 4 == none && answer (.translationWalk (.group 0 false) 0x40000 .read) full == some { full with walks := full.walks ++ [newWalk c 0x40000 .read false 1] })) = true := by
  decide +kernel

/-- PageRequests: an entry of a partition in reset; a group in handler mode with PREQ; a failure in handler mode. StopRing: a ring at PA 0. -/
theorem witness_PageAndStopEdges : (
    (let s := { asking 3 (.page 6) 0x9000 with fes := [(0, { resetFrontEnd with ferst := 1 })] }
     canon s && answer (.prqdone 6) s == some { s with prq := { s.prq with entries := [] } }) &&
    (let h (g : Group) : State := { asking 3 .none 0x9000 with groups := [(0, { g with stop := .page 6, handler := true })] }
     after (.prqdone 6) (h { gr with preq := true }) (fun _ g => g.stop == .saving) && after (.prqdone 6) (h gr) (fun _ g => g.stop == .none) &&
     after (.prqdone 0x100000006) (h { gr with stepping := true }) (fun _ g => g.stop == .system && !g.stepping)) &&
    (let s (n : Nat) : State := { stops_ [aStop] 5 with fes := [(0, { resetFrontEnd with festop := n, stops := [aStop], stwr := 5, strd := 4 })] }
     (answer (.stopRecordWrite 0) (s 1)).any (fun t => (feOf t 0).stwr == 6 && readLe t.hbm 0x40 8 == 0x100241) && answer (.stopRecordWrite 0) (s 0) == some (s 0))) = true := by decide +kernel

/-- HandlerEntryAndReturn: trap.ret waits for a pending scalar register. RegroupMerges: a group of 31 records goes on alone. -/
theorem witness_ReturnsWait : (let s := on { gr with handler := true, pend := [pendOn (.scalar 9)] }
     ready .trapRet s && (markedKeys s).any (fun k => k < 0x50) && after .trapRet s (fun t g => t.last == .stalled && g.handler)) = true ∧
    (let d : Donor := { g := 1, slot := false, mask := 1, rpc := none, homes := [(1, 1)] }
     let s := on { gr with donors := List.replicate 31 d }
     ready (.regroup 5) s && jumpsB (.regroup 5) s s 0x1000028) = true := by decide +kernel

/-- Preemption: PREEMPT ends a wait in mwait and lets a group in handler mode go to its save as it stands, from a page request too; a
second one is accepted after an image that failed; the deadline forces a group that waits for a page. -/
theorem witness_PreemptEdges : (let w := teamS { gr with slot0 := { gr.slot0 with wait := .mwait (sh 4) 0x1281 none false } } id
    feCode (.preempt 0 0 0 7 0x40000) w 0 (fun t => (mget t.groups 0).any (fun g => g.slot0.wait == .mwait (sh 4) 0x1281 none true)) &&
    [Stop.none, .page 6].all (fun st => feCode (.preempt 0 0 0 7 0x40000) (teamS { gr with handler := true, stop := st } id) 0 (fun t => (mget t.groups 0).any (fun g => g.stop == .saving))) &&
    feCode (.preempt 0 0 0 7 0x40000) (teamS gr (fun t => { t with preempt := some (9, 0x40000), imgFail := true })) 0 (fun t => (mget t.teams 0).any (fun x => x.preempt == some (7, 0x40000) && !x.imgFail)) &&
    after (.forcedSave 0) (teamS { gr with stop := .page 6 } (fun t => { t with preempt := some (0, 0x40000) })) (fun _ g => g.stop == .saving) &&
    after (.forcedSave 0) (teamS { gr with stop := .system } (fun t => { t with preempt := some (0, 0x40000) })) (fun _ g => g.stop == .system)) = true := by decide +kernel

/-- The tables of Basalt and Shale have rising keys in the states above. -/
theorem witness_BasaltKeys : [gs, qm, kicking [], inside, asked 0 0 false [], fills []].all (fun s =>
    mrising none s.basalt.own && mrising none s.basalt.enclaves && mrising none s.shale.recording && mrising none s.shale.wset &&
    mrising none s.basalt.baseKeys && mrising none s.basalt.ctlKeys && mrising none s.stale) = true := by decide +kernel
end Sys2Proof.Tests
end

/-! SUPPORT. The opcode field of a word is the opcode of the instruction that it decodes to (R165 to R177), a word is told by its
fields, and a ready word whose effect is a state goes on at PC + 8 with every byte of memory of that state. PROOF. O3. -/

namespace Sys2Proof

open Machine

/-! ### The opcode of a decoded body -/

/-- A decoded body holds no instruction of another major opcode. -/
def OpcodeIs (op : Nat) (b : DBody) : Prop := ∀ i, b = some i → opcodeOf i = some op

section

variable {op : Nat} {w : W64}

theorem opcodeIs_none : OpcodeIs op none := by
  intro _ h
  cases h

theorem opcodeIs_some {i : Instr} (h : opcodeOf i = some op) : OpcodeIs op (some i) := by
  rintro _ ⟨⟩
  exact h

theorem opcodeIs_ite {c : Prop} [Decidable c] {x y : DBody} (hx : OpcodeIs op x) (hy : OpcodeIs op y) :
    OpcodeIs op (if c then x else y) := by
  split <;> assumption

theorem opcodeIs_only {c : Bool} {i : Instr} (h : opcodeOf i = some op) : OpcodeIs op (only c i) :=
  opcodeIs_ite (opcodeIs_some h) opcodeIs_none

theorem opcodeIs_bind {α : Type} {o : Option α} {f : α → DBody} (h : ∀ x, OpcodeIs op (f x)) : OpcodeIs op (o.bind f) := by
  cases o with
  | none => exact opcodeIs_none
  | some x => exact h x

theorem opcodeIs_map {α : Type} {o : Option α} {f : α → Instr} (h : ∀ x, opcodeOf (f x) = some op) : OpcodeIs op (o.map f) := by
  cases o with
  | none => exact opcodeIs_none
  | some x => exact opcodeIs_some (h x)

theorem opcodeIs_sBin {f : SType → Sel → Sel → SSrc → Instr} (h : ∀ t d a b, opcodeOf (f t d a b) = some op) :
    OpcodeIs op (sBin w f) := by
  unfold sBin
  split
  · exact opcodeIs_some (h _ _ _ _)
  · exact opcodeIs_none

theorem opcodeIs_sUn {f : SType → Sel → Sel → Instr} (h : ∀ t d a, opcodeOf (f t d a) = some op) : OpcodeIs op (sUn w f) := by
  unfold sUn
  split
  · exact opcodeIs_ite (opcodeIs_some (h _ _ _)) opcodeIs_none
  · exact opcodeIs_none

/-! ### Each form's bodies -/

theorem range_of_scalar (h : formOf op = .scalar) : 1 ≤ op ∧ op ≤ 0x1D := by
  constructor <;> grind [formOf]

theorem range_of_formB (h : formOf op = .formB) : op = 0x20 ∨ op = 0x21 ∨ op = 0x22 ∨ op = 0x24 ∨ op = 0x27 := by grind [formOf]

theorem range_of_formV (h : formOf op = .formV) : 0x30 ≤ op ∧ op ≤ 0x7B := by grind [formOf]

theorem range_of_formA (h : formOf op = .formA) : 0xA0 ≤ op ∧ op ≤ 0xA3 := by grind [formOf]

theorem opcodeIs_sDec (h : formOf op = .scalar) : OpcodeIs op (sDec op w) := by
  have hr := range_of_scalar h
  unfold sDec
  split
  any_goals exact opcodeIs_sBin fun _ _ _ _ => rfl
  any_goals exact opcodeIs_sUn fun _ _ _ => rfl
  case h_25 =>
    split
    · exact opcodeIs_ite (opcodeIs_some rfl) opcodeIs_none
    · exact opcodeIs_none
  case h_27 =>
    split
    · exact opcodeIs_only rfl
    · exact opcodeIs_none
  case h_28 => exact opcodeIs_only rfl
  case h_29 =>
    have hop : op = 0x1D := by grind
    subst hop
    split
    · exact opcodeIs_ite (opcodeIs_some rfl) opcodeIs_none
    · exact opcodeIs_none

theorem opcodeIs_bDec (h : formOf op = .formB) : OpcodeIs op (bDec op w) := by
  have hr := range_of_formB h
  unfold bDec
  dsimp only
  split
  any_goals exact opcodeIs_bind fun _ => opcodeIs_only rfl
  · exact opcodeIs_some rfl
  · split
    · exact opcodeIs_only rfl
    · exact opcodeIs_none
  · have hop : op = 0x27 := by grind
    subst hop
    exact opcodeIs_bind fun _ => opcodeIs_only rfl

theorem opcodeIs_aDec (h : formOf op = .formA) : OpcodeIs op (aDec op w) := by
  have hr := range_of_formA h
  unfold aDec
  split
  any_goals exact opcodeIs_map fun _ => rfl
  have hop : op = 0xA2 := by grind
  subst hop
  refine opcodeIs_ite ?_ opcodeIs_none
  split
  · exact opcodeIs_some rfl
  · exact opcodeIs_none

theorem opcodeIs_iDec {fn : Nat} {b : DBody} (h : iDec op fn w = some b) : OpcodeIs op b := by
  unfold iDec at h
  dsimp only at h
  split at h <;> cases h
  any_goals exact opcodeIs_only rfl
  any_goals exact opcodeIs_some rfl
  any_goals exact opcodeIs_ite (opcodeIs_only rfl) (opcodeIs_only rfl)
  · exact opcodeIs_ite (opcodeIs_map fun _ => rfl) opcodeIs_none
  · refine opcodeIs_ite ?_ opcodeIs_none
    split
    any_goals exact opcodeIs_some rfl
    exact opcodeIs_none

theorem opcodeIs_eDec {b : DBody} (h : eDec op w = some b) : OpcodeIs op b := by
  unfold eDec at h
  dsimp only at h
  split at h <;> cases h
  any_goals exact opcodeIs_only rfl
  any_goals exact opcodeIs_ite (opcodeIs_map fun _ => rfl) opcodeIs_none
  all_goals
    refine opcodeIs_ite ?_ opcodeIs_none
    split
    · exact opcodeIs_some rfl
    · exact opcodeIs_none

/-- The table of form V, by each of its 76 opcodes from 0x30 on: the function codes lie below 8. -/
theorem opcodeOf_vDec {fn : Nat} {f : VOp → Instr} (o : VOp) (hop : formOf op = .formV) (h : vDec op fn = some f) :
    opcodeOf (f o) = some op := by
  obtain ⟨hlo, hhi⟩ := range_of_formV hop
  clear hop
  iterate 76
    obtain rfl | hlo := Nat.eq_or_lt_of_le hlo
    next =>
      rcases fn with _ | _ | _ | _ | _ | _ | _ | _ | fn <;> cases h
      all_goals rfl
  omega

theorem opcodeOf_mDec {f : MOp → Instr} (o : MOp) (h : mDec op = some f) : opcodeOf (f o) = some op := by
  unfold mDec at h
  split at h <;> cases h <;> rfl

/-! ### The opcode of a decoded word -/

theorem opcodeIs_fullDec {b : DBody} (h : fullDec op w = some b) : OpcodeIs op b := by
  unfold fullDec at h
  split at h
  case h_1 hf => cases h; exact opcodeIs_sDec hf
  case h_2 hf => cases h; exact opcodeIs_bDec hf
  case h_3 => exact opcodeIs_iDec h
  case h_4 hf =>
    split at h
    · cases h; exact opcodeIs_none
    · obtain ⟨f, hv, rfl⟩ := Option.map_eq_some_iff.1 h
      exact opcodeIs_map fun o => opcodeOf_vDec o hf hv
  case h_5 =>
    obtain ⟨f, hm, rfl⟩ := Option.map_eq_some_iff.1 h
    exact opcodeIs_map fun o => opcodeOf_mDec o hm
  case h_6 hf => cases h; exact opcodeIs_aDec hf
  case h_7 => exact opcodeIs_eDec h
  case h_8 => cases h

theorem opcodeOf_dualOf (x y : Half) : opcodeOf (dualOf x y) = some 0x100 := by
  cases x with
  | two op d a => cases op <;> rfl
  | one op d a => cases op <;> rfl
  | _ => rfl

/-- A word that decodes with D = 1 is a dual word (R174). -/
theorem decode_dual {d : Decoded} (hw : bit w 62 = true) (h : decode w = .ok d) :
    d.settle = bit w 63 ∧ ∃ x y, d.instr = dualOf x y := by
  simp only [decode, hw, if_true] at h
  split at h <;> cases h
  exact ⟨rfl, _, _, rfl⟩

/-- A word that decodes with D = 0 holds the body of its opcode (R165). -/
theorem decode_full {d : Decoded} (hw : bit w 62 = false) (h : decode w = .ok d) :
    d.settle = bit w 63 ∧ fullDec (fld w 54 8).toNat w = some (some d.instr) := by
  simp only [decode, hw, Bool.false_eq_true, if_false] at h
  split at h
  · cases h
  · cases h
  next i hi =>
    split at h <;> cases h
    exact ⟨rfl, hi⟩

/-- The instruction of a word that decodes has the opcode of the word's field, that of a dual word stands as 256. -/
theorem opcodeOf_decode {d : Decoded} (h : decode w = .ok d) :
    opcodeOf d.instr = some (if bit w 62 then 0x100 else (fld w 54 8).toNat) := by
  cases hw : bit w 62 with
  | false =>
    obtain ⟨-, hb⟩ := decode_full hw h
    exact opcodeIs_fullDec hb _ rfl
  | true =>
    obtain ⟨-, x, y, hd⟩ := decode_dual hw h
    rw [hd]
    exact opcodeOf_dualOf x y

/-! ### The word of nop -/

/-- Equal fields hold equal bits. -/
theorem getLsbD_of_fld_eq {v : W64} {lo n k : Nat} (h : fld v lo n = fld w lo n) (hlo : lo ≤ k) (hhi : k < lo + n) :
    v.getLsbD k = w.getLsbD k := by
  have hk := congrArg (·.getLsbD (k - lo)) h
  simpa [fld, show k - lo < n by omega, Nat.add_sub_cancel' hlo] using hk

/-- A word of form I is told by its fields (R164, R165). -/
theorem word_ext {v : W64} (hS : bit v 63 = bit w 63) (hD : bit v 62 = bit w 62) (hop : fld v 54 8 = fld w 54 8)
    (hd : fD v = fD w) (ha : fA v = fA w) (hm : fImm v = fImm w) (hf : fld v 0 6 = fld w 0 6) : v = w := by
  apply BitVec.eq_of_getLsbD_eq
  intro k hk
  have hcase : k < 6 ∨ (6 ≤ k ∧ k < 38) ∨ (38 ≤ k ∧ k < 46) ∨ (46 ≤ k ∧ k < 54) ∨ (54 ≤ k ∧ k < 62) ∨ k = 62 ∨ k = 63 := by
    omega
  rcases hcase with h | ⟨h, h'⟩ | ⟨h, h'⟩ | ⟨h, h'⟩ | ⟨h, h'⟩ | rfl | rfl
  · exact getLsbD_of_fld_eq hf (Nat.zero_le k) h
  · exact getLsbD_of_fld_eq hm h h'
  · exact getLsbD_of_fld_eq ha h h'
  · exact getLsbD_of_fld_eq hd h h'
  · exact getLsbD_of_fld_eq hop h h'
  · exact hD
  · exact hS

/-- Under opcode 0x2A nop has function code 0 and every operand field zero (R206). -/
theorem iDec_eq_nop {fn : Nat} (h : iDec 0x2A fn w = some (some .nop)) : fn = 0 ∧ fD w = 0 ∧ fA w = 0 ∧ fImm w = 0 := by
  cases fn with
  | succ n => cases h
  | zero =>
    have hb : only (fD w == 0 && fA w == 0 && fImm w == 0) .nop = some .nop := Option.some.inj h
    simpa [only, and_assoc] using hb

theorem fields_of_decode_nop {b : Bool} (h : decode w = .ok { settle := b, instr := .nop }) :
    bit w 63 = b ∧ bit w 62 = false ∧ fld w 54 8 = 0x2A ∧ fD w = 0 ∧ fA w = 0 ∧ fImm w = 0 ∧ fld w 0 6 = 0 := by
  have hop : 0x2A = if bit w 62 then 0x100 else (fld w 54 8).toNat := Option.some.inj (opcodeOf_decode h)
  cases hw : bit w 62 with
  | true => simp [hw] at hop
  | false =>
    rw [hw] at hop
    obtain ⟨hb, hfull⟩ := decode_full hw h
    rw [← show 0x2A = (fld w 54 8).toNat from hop] at hfull
    obtain ⟨hfn, hd, ha, hm⟩ := iDec_eq_nop hfull
    exact ⟨hb.symm, rfl, BitVec.eq_of_toNat_eq hop.symm, hd, ha, hm, BitVec.eq_of_toNat_eq hfn⟩

/-- nop has one word for each value of its settle bit (R206). -/
theorem decode_eq_nop_iff (w : W64) (b : Bool) :
    decode w = .ok { settle := b, instr := .nop } ↔ w = if b then 0x8A80000000000000#64 else 0x0A80000000000000#64 := by
  constructor
  · intro h
    obtain ⟨hS, hD, hop, hd, ha, hm, hf⟩ := fields_of_decode_nop h
    cases b <;> exact word_ext hS hD hop hd ha hm hf
  · rintro rfl
    cases b <;> rfl

end

/-! ### The completion of a ready word -/

@[simp] theorem readPc_plain (s : State) : readPc (plain s) = readPc s := by
  cases ha : s.agent with
  | group loc sl =>
    simp only [readPc, plain, ha, mget_map s.groups (fun _ => plainGroup)]
    cases mget s.groups loc <;> cases sl <;> rfl
  | quartz n => simp [readPc, plain, ha]
  | prologue n =>
    simp only [readPc, plain, ha, mget_map s.fes (fun _ => plainFe)]
    cases mget s.fes n <;> rfl

@[simp] theorem readLoc_plain (s : State) (l : MLoc) : readLoc (plain s) l = readLoc s l := by cases l <;> rfl

@[simp] theorem readLoc_writePc (s : State) (pc : W64) (l : MLoc) : readLoc (writePc s pc) l = readLoc s l := by
  unfold writePc
  split <;> cases l <;> rfl

/-- A ready word in a canonical state stands on its own unit. -/
theorem keepsUnit_self {i : Instr} {s : State} (hc : canon s = true) (hr : ready i s = true) : keepsUnit s s := by
  have hst := ready_notStepping hr
  have hu := ready_unit hr
  simp only [ready, Bool.and_eq_true] at hr
  simp only [canon, canonKeys, Bool.and_eq_true] at hc
  obtain ⟨-, hwl⟩ := hr
  obtain ⟨⟨⟨⟨⟨⟨⟨⟨⟨hg, -⟩, -⟩, -⟩, -⟩, hf⟩, -⟩, -⟩, -⟩, -⟩ := hc
  exact ⟨rfl, hu, hst, hwl, hg, hf⟩

/-- A ready word whose effect is a state of the same PC and memory does that effect. -/
theorem does_of_done {i : Instr} {s w : State} {body : State → Res} (hr : ready i s = true) (he : exec i s = word i s body)
    (hb : body s = .done w) (hw : keepsUnit s w) (hpc : readPc w = readPc s) (hm : ∀ l, readLoc w l = readLoc s l) :
    Does i s w := by
  obtain ⟨t, ht, hp⟩ := word_done hr hb hw
  obtain ⟨-, hu, -⟩ := hw
  refine ⟨t, he.trans ht, hp, ?_, fun l => ?_⟩
  · calc readPc t = readPc (plain (advance w)) := by rw [← hp, readPc_plain]
      _ = readPc s + 8 := by rw [readPc_plain, advance, readPc_writePc _ hu, hpc]
  · calc readLoc t l = readLoc (plain (advance w)) l := by rw [← hp, readLoc_plain]
      _ = readLoc s l := by rw [readLoc_plain, advance, readLoc_writePc, hm]

/-- nop has no effect (R206). -/
theorem does_nop {s : State} (hc : canon s = true) (hr : ready .nop s = true) : Does .nop s s :=
  does_of_done (body := fun s => .done s) hr rfl rfl (keepsUnit_self hc hr) rfl fun _ => rfl

/-! ### O3 -/

/-- Settles O3: the sample words by evaluation of the decoder over their list, the word of nop by the opcode that every decoded word has, its lack of
effect by the completion of a word that is done. -/
theorem decodeWords : Obligations.DecodeWords := by
  unfold Obligations.DecodeWords
  exact ⟨List.map_inj_left.1 rfl, decode_eq_nop_iff, fun s hc hr => does_nop hc hr⟩

end Sys2Proof

/-! SUPPORT. Lane masks by their bits and the counts of bits; what a read of a vector lane gives after vector writes; the one
rule for a word that writes the lanes of active(k) (R212, R215) and the one for a group's word that writes a scalar or a mask
(R237). PROOF. O23. -/

namespace Sys2Proof

open Machine

/-! ### Bits of numbers and lane masks -/

theorem fldN_zero (x n : Nat) : fldN x 0 n = x % 2 ^ n := by simp [fldN]

theorem bitN_eq_testBit (x i : Nat) : bitN x i = x.testBit i := by
  simp [bitN, fldN, Nat.testBit_eq_decide_div_mod_eq, Nat.shiftRight_eq_div_pow, Bool.beq_eq_decide_eq]

theorem bitN_toNat {n : Nat} (x : BitVec n) (i : Nat) : bitN x.toNat i = x.getLsbD i := by
  rw [bitN_eq_testBit, BitVec.testBit_toNat]

theorem foldl_pow_lt (p : Nat → Bool) (n : Nat) : (List.range n).foldl (fun m i => if p i then m + 2 ^ i else m) 0 < 2 ^ n := by
  induction n with
  | zero => simp
  | succ n ih =>
    rw [List.range_succ, List.foldl_append, List.foldl_cons, List.foldl_nil, Nat.pow_succ]
    split <;> omega

theorem testBit_foldl_pow (p : Nat → Bool) (n i : Nat) :
    ((List.range n).foldl (fun m i => if p i then m + 2 ^ i else m) 0).testBit i = (decide (i < n) && p i) := by
  induction n with
  | zero => simp
  | succ n ih =>
    have hlt := foldl_pow_lt p n
    rw [List.range_succ, List.foldl_append, List.foldl_cons, List.foldl_nil]
    rcases Nat.lt_trichotomy i n with h | rfl | h
    · have : i < n + 1 := by omega
      split
      · rw [Nat.add_comm, Nat.testBit_two_pow_add_gt h, ih]; simp [h, this]
      · rw [ih]; simp [h, this]
    · have hself := Nat.testBit_lt_two_pow hlt
      split
      next hp => rw [Nat.add_comm, Nat.testBit_two_pow_add_eq, hself]; simp [hp]
      next hp => rw [hself]; simp [hp]
    · have hle : 2 ^ (n + 1) ≤ 2 ^ i := Nat.pow_le_pow_right (by omega) h
      have hi : ¬ i < n + 1 := by omega
      rw [Nat.testBit_lt_two_pow (by rw [Nat.pow_succ] at hle; split <;> omega)]
      simp [hi]

@[simp] theorem getLsbD_maskWhere (p : Nat → Bool) (i : Nat) : (maskWhere p).getLsbD i = (decide (i < 64) && p i) := by
  rw [maskWhere, BitVec.getLsbD_ofNat, testBit_foldl_pow]
  cases decide (i < 64) <;> rfl

theorem getLsbD_foldl_or (l : List Nat) (m : W64) (i : Nat) :
    (l.foldl (fun m j => m ||| w64 (2 ^ j)) m).getLsbD i = (m.getLsbD i || (decide (i < 64) && l.contains i)) := by
  induction l generalizing m with
  | nil => simp
  | cons j t ih =>
    rw [List.foldl_cons, ih, BitVec.getLsbD_or, w64, BitVec.getLsbD_ofNat, Nat.testBit_two_pow, List.contains_cons,
      Bool.beq_eq_decide_eq]
    by_cases h : j = i
    · cases m.getLsbD i <;> cases decide (i < 64) <;> simp [h]
    · simp [h, Ne.symm h]

@[simp] theorem getLsbD_maskOf (l : List Nat) (i : Nat) : (maskOf l).getLsbD i = (decide (i < 64) && l.contains i) := by
  rw [maskOf, getLsbD_foldl_or]
  simp

theorem mem_lanesOf {m : W64} {n j : Nat} : j ∈ lanesOf m n ↔ j < n ∧ m.getLsbD j = true := by simp [lanesOf, bit]

theorem nodup_lanesOf (m : W64) (n : Nat) : (lanesOf m n).Nodup := List.nodup_range.filter _

theorem lt_of_mem_lanesOf {m : W64} {n j : Nat} (h : j ∈ lanesOf m n) : j < 64 := BitVec.lt_of_getLsbD (mem_lanesOf.1 h).2

/-- The mask of the listed lanes with a property. -/
theorem maskOf_filter (l : List Nat) (p : Nat → Bool) : maskOf (l.filter p) = maskWhere (fun j => l.contains j && p j) := by
  apply BitVec.eq_of_getLsbD_eq
  intro j _
  have hmem : (l.filter p).contains j = (l.contains j && p j) := by
    rw [Bool.eq_iff_iff, Bool.and_eq_true, List.contains_iff_mem, List.contains_iff_mem, List.mem_filter]
  rw [getLsbD_maskOf, getLsbD_maskWhere, hmem]

/-! ### Counts of bits -/

theorem trailingZeros_succ (n x : Nat) : trailingZeros (n + 1) x = if x % 2 = 1 then 0 else trailingZeros n (x / 2) + 1 := by
  unfold trailingZeros
  rw [List.range_succ_eq_map, List.find?_cons, Nat.testBit_zero, List.find?_map]
  by_cases h : x % 2 = 1
  · simp [h]
  · have hfun : ((fun i => x.testBit i) ∘ Nat.succ) = fun i => (x / 2).testBit i := funext fun i => Nat.testBit_succ x i
    rw [hfun]
    cases (List.range n).find? (fun i => (x / 2).testBit i) <;> simp [h]

theorem ctzN_eq_trailingZeros (n x : Nat) : ctzN n x = trailingZeros n x := by
  induction n generalizing x with
  | zero => rfl
  | succ n ih => rw [trailingZeros_succ, ctzN, ih]

theorem onesOf_succ (n x : Nat) : onesOf (n + 1) x = x % 2 + onesOf n (x / 2) := by
  unfold onesOf
  have hfun : ((fun i => x.testBit i) ∘ Nat.succ) = fun i => (x / 2).testBit i := funext fun i => Nat.testBit_succ x i
  rw [List.range_succ_eq_map, List.filter_cons, Nat.testBit_zero, List.filter_map, hfun]
  by_cases h : x % 2 = 1
  · simp [h]; omega
  · simp [h]; omega

theorem popN_eq_onesOf (n x : Nat) : popN n x = onesOf n x := by
  induction n generalizing x with
  | zero => rfl
  | succ n ih => rw [onesOf_succ, popN, ih]

theorem onesOf_le (n x : Nat) : onesOf n x ≤ n := by
  simpa [onesOf] using List.length_filter_le (fun i => x.testBit i) (List.range n)

/-! ### An updated group -/

/-- What an update does not change of an entry reads as before at every key. -/
theorem map_mget_mupd {α β : Type} (l : KMap α) (j k : Nat) {f : α → α} {φ : α → β} (h : ∀ v, φ (f v) = φ v) :
    (mget (mupd l k f) j).map φ = (mget l j).map φ := by
  by_cases hj : j = k
  · subst hj; rw [mget_mupd_self, Option.map_map]; congr 1; funext v; exact h v
  · rw [mget_mupd_other l f hj]

theorem isSome_mget_mupd {α : Type} (l : KMap α) (j k : Nat) (f : α → α) : (mget (mupd l k f) j).isSome = (mget l j).isSome := by
  simpa using congrArg Option.isSome (map_mget_mupd l j k (f := f) (φ := fun _ => ()) fun _ => rfl)

theorem map_mput {α β : Type} (l : KMap α) (k : Nat) (v : α) (φ : α → β) :
    (mput l k v).map (fun e => (e.1, φ e.2)) = mput (l.map (fun e => (e.1, φ e.2))) k (φ v) := by
  induction l with
  | nil => rfl
  | cons e t ih =>
    simp only [mput, List.map_cons]
    split
    · rfl
    · split
      · rfl
      · rw [List.map_cons, ih]

/-- An update may be made before or after a change of every entry that it commutes with. -/
theorem map_mupd {α : Type} (l : KMap α) (k : Nat) {f φ : α → α} (h : ∀ v, φ (f v) = f (φ v)) :
    (mupd l k f).map (fun e => (e.1, φ e.2)) = mupd (l.map (fun e => (e.1, φ e.2))) k f := by
  unfold mupd
  rw [mget_map l (fun _ => φ)]
  cases mget l k with
  | none => rfl
  | some v => simp [map_mput, h]

@[simp] theorem readLoc_updGroup (s : State) (k : Nat) (f : Group → Group) (m : MLoc) :
    readLoc (updGroup s k f) m = readLoc s m := by cases m <;> rfl

/-- A group changed, but for whether it is being stepped, leaves the unit that issues in place. -/
theorem keepsUnit_updGroup {s w : State} (k : Nat) {f : Group → Group} (hf : ∀ g, (f g).stepping = g.stepping)
    (h : keepsUnit s w) : keepsUnit s (updGroup w k f) := by
  obtain ⟨ha, hu, hst, hwl, hgs, hfs⟩ := h
  refine ⟨ha, ?_, ?_, hwl, mrising_mupd hgs, hfs⟩
  · unfold unitThere at hu ⊢
    simpa only [updGroup_agent, updGroup_groups, updGroup_quartz, updGroup_fes, isSome_mget_mupd] using hu
  · unfold notStepping curGroup at hst ⊢
    simp only [updGroup_agent, updGroup_groups]
    cases hag : w.agent with
    | group loc sl =>
      simp only [hag] at hst ⊢
      have hmap := map_mget_mupd w.groups loc k (φ := Group.stepping) hf
      cases hg : mget w.groups loc <;> cases hg' : mget (mupd w.groups k f) loc <;> simp_all
    | quartz n => rfl
    | prologue n => rfl

theorem writePc_group {s : State} {loc : Nat} {sl : Bool} (ha : s.agent = .group loc sl) (pc : W64) :
    writePc s pc = updGroup s loc (fun g => setSlot g sl { getSlot g sl with pc := pc }) := by simp only [writePc, ha]

theorem orFlags_group {s : State} {loc : Nat} {sl : Bool} (ha : s.agent = .group loc sl) (fl : Nat) :
    orFlags s fl = updGroup s loc (fun g => { g with flags := g.flags ||| w64 fl }) := by simp only [orFlags, ha]

theorem writeReg_group {s : State} {loc : Nat} {sl : Bool} (ha : s.agent = .group loc sl) (d : Sel) (v : W64) :
    writeReg s d v = updGroup s loc (fun g => gWrite g d v) := by simp only [writeReg, ha]

/-! ### Reads of vector lanes after writes (R9, R44) -/

/-- The vector registers of every group are a table of rising keys. -/
def vFine (s : State) : Prop := ∀ m g, mget s.groups m = some g → mrising none g.v = true

theorem vFine_of_canon {s : State} (h : canon s = true) : vFine s := by
  intro m g hg
  simp only [canon, canonRegisters, Bool.and_eq_true, List.all_eq_true] at h
  obtain ⟨-, ⟨hgs, -⟩, -⟩ := h
  have hv := hgs _ (mem_of_mget hg)
  simp only [canonGroup, Bool.and_eq_true] at hv
  exact mwf_rising hv.2

theorem vAt_updGroup (s : State) (k m r i : Nat) {f : Group → Group} (hf : ∀ g, (f g).v = g.v) :
    vAt (updGroup s k f) m r i = vAt s m r i := by
  have hmap := map_mget_mupd s.groups m k (φ := Group.v) hf
  unfold vAt
  rw [updGroup_groups]
  cases hg : mget s.groups m <;> cases hg' : mget (mupd s.groups k f) m <;> simp_all

theorem vAt_plain (s : State) (m r i : Nat) : vAt (plain s) m r i = vAt s m r i := by
  unfold vAt plain
  rw [mget_map s.groups (fun _ => plainGroup)]
  cases mget s.groups m <;> rfl

theorem vPut_eq_updGroup (s : State) (m r i : Nat) (x : W32) :
    vPut s m r i x = updGroup s m (fun g => { g with v := msetD g.v (64 * r + i) x 0 }) := rfl

theorem vFine_vPut {s : State} (m r i : Nat) (x : W32) (h : vFine s) : vFine (vPut s m r i x) := by
  intro n g hg
  rw [vPut_eq_updGroup, updGroup_groups] at hg
  by_cases hn : n = m
  · subst hn
    rw [mget_mupd_self, Option.map_eq_some_iff] at hg
    obtain ⟨g0, hg0, rfl⟩ := hg
    unfold msetD
    split
    · exact mrising_mdel (h n g0 hg0)
    · exact mrising_mput (h n g0 hg0)
  · rw [mget_mupd_other _ _ hn] at hg
    exact h n g hg

theorem vAt_vPut_self {s : State} {m : Nat} (r i : Nat) (x : W32) (h : vFine s) (hm : (mget s.groups m).isSome = true) :
    vAt (vPut s m r i x) m r i = x := by
  obtain ⟨g, hg⟩ := Option.isSome_iff_exists.1 hm
  simp only [vAt, vPut, mget_mupd_self, hg, Option.map_some]
  exact mgetD_msetD_self _ _ (h m g hg)

theorem vAt_vPut_other (s : State) {m r i m' r' j : Nat} (x : W32) (hi : i < 64) (hj : j < 64)
    (h : ¬ (m' = m ∧ j = i ∧ r' = r)) : vAt (vPut s m r i x) m' r' j = vAt s m' r' j := by
  by_cases hm : m' = m
  · subst hm
    have hk : 64 * r' + j ≠ 64 * r + i := by omega
    simp only [vAt, vPut, mget_mupd_self]
    cases mget s.groups m' with
    | none => rfl
    | some g => exact mgetD_msetD_other g.v x hk
  · simp only [vAt, vPut, mget_mupd_other _ _ hm]

/-- What every write of one lane keeps, a run of registers keeps. -/
theorem vPutRun_induction {P : State → Prop} (hput : ∀ s m r i x, P s → P (vPut s m r i x)) {s : State} (m r i : Nat)
    (xs : List W32) (h : P s) : P (vPutRun s m r i xs) := by
  induction xs generalizing s r with
  | nil => exact h
  | cons x t ih => exact ih (r + 1) (hput s m r i x h)

/-- What every write of one lane keeps, a write of many lanes keeps. -/
theorem vWriteLanes_induction {P : State → Prop} (hput : ∀ s m r i x, P s → P (vPut s m r i x)) {s : State} (loc : Nat)
    (g : Group) (sl : Bool) (r : Sel) (l : List (Nat × List W32)) (h : P s) : P (vWriteLanes s loc g sl r l) := by
  induction l generalizing s with
  | nil => exact h
  | cons e t ih => exact ih (vPutRun_induction hput _ _ _ _ h)

theorem vAt_vPutRun_other (s : State) {m r i m' r' j : Nat} (xs : List W32) (hi : i < 64) (hj : j < 64)
    (h : ¬ (m' = m ∧ j = i ∧ r ≤ r' ∧ r' < r + xs.length)) : vAt (vPutRun s m r i xs) m' r' j = vAt s m' r' j := by
  induction xs generalizing s r with
  | nil => rfl
  | cons x t ih =>
    rw [List.length_cons] at h
    rw [vPutRun, ih _ (by omega), vAt_vPut_other s x hi hj (by omega)]

theorem vAt_vPutRun_self {s : State} {m r i k : Nat} {xs : List W32} (hf : vFine s) (hm : (mget s.groups m).isSome = true)
    (hi : i < 64) (hk : k < xs.length) : vAt (vPutRun s m r i xs) m (r + k) i = xs[k] := by
  induction xs generalizing s r k with
  | nil => simp at hk
  | cons x t ih =>
    rw [vPutRun]
    cases k with
    | zero => rw [vAt_vPutRun_other _ t hi hi (by omega)]; exact vAt_vPut_self r i x hf hm
    | succ n =>
      have hm' : (mget (vPut s m r i x).groups m).isSome = true := by
        rw [vPut_eq_updGroup, updGroup_groups, isSome_mget_mupd]; exact hm
      rw [show r + (n + 1) = r + 1 + n by omega, List.getElem_cons_succ]
      exact ih (vFine_vPut m r i x hf) hm' (by simpa using hk)

/-- Where a lane's registers are depends on the teams and on the lanes lent to the path only (R44). -/
theorem homeLoc_congr {s t : State} {g g' : Group} {sl : Bool} (ht : t.teams = s.teams) (hg : g'.team = g.team)
    (hl : (getSlot g' sl).lent = (getSlot g sl).lent) (loc i : Nat) : homeLoc t loc g' sl i = homeLoc s loc g sl i := by
  simp only [homeLoc, lentHome, ht, hg, hl]

theorem homeLoc_vPutRun (s : State) (m r i : Nat) (xs : List W32) (loc : Nat) (g : Group) (sl : Bool) (j : Nat) :
    homeLoc (vPutRun s m r i xs) loc g sl j = homeLoc s loc g sl j :=
  homeLoc_congr (vPutRun_induction (P := fun t => t.teams = s.teams) (fun _ _ _ _ _ h => h) m r i xs rfl) rfl rfl loc j

section

variable {s : State} {loc : Nat} {g : Group} {sl : Bool} {d : Sel} {l : List (Nat × List W32)}

/-- A lane that is not among those written keeps its value. -/
theorem vAt_vWriteLanes_other {m r j : Nat} (hj : j < 64) (hl : ∀ e ∈ l, e.1 < 64)
    (h : ∀ e ∈ l, ¬ (m = homeLoc s loc g sl e.1 ∧ j = e.1 ∧ d.toNat ≤ r ∧ r < d.toNat + e.2.length)) :
    vAt (vWriteLanes s loc g sl d l) m r j = vAt s m r j := by
  induction l generalizing s with
  | nil => rfl
  | cons e t ih =>
    rw [List.forall_mem_cons] at hl h
    rw [vWriteLanes, ih hl.2 (by simpa only [homeLoc_vPutRun] using h.2), vAt_vPutRun_other s _ hl.1 hj h.1]

/-- A lane written reads as what was written, in its home group. -/
theorem vAt_vWriteLanes_self {e : Nat × List W32} {k : Nat} (hf : vFine s)
    (hm : ∀ e ∈ l, (mget s.groups (homeLoc s loc g sl e.1)).isSome = true) (hl : ∀ e ∈ l, e.1 < 64)
    (hn : (l.map (·.1)).Nodup) (he : e ∈ l) (hk : k < e.2.length) :
    vAt (vWriteLanes s loc g sl d l) (homeLoc s loc g sl e.1) (d.toNat + k) e.1 = e.2[k] := by
  induction l generalizing s with
  | nil => simp at he
  | cons c t ih =>
    rw [List.forall_mem_cons] at hl hm
    rw [List.map_cons, List.nodup_cons] at hn
    rw [vWriteLanes]
    rcases List.mem_cons.1 he with rfl | he
    · rw [vAt_vWriteLanes_other hl.1 hl.2 fun x hx hc => hn.1 (hc.2.1 ▸ List.mem_map_of_mem hx)]
      exact vAt_vPutRun_self hf hm.1 hl.1 hk
    · have hm' : ∀ x ∈ t, (mget (vPutRun s (homeLoc s loc g sl c.1) d.toNat c.1 c.2).groups
          (homeLoc (vPutRun s (homeLoc s loc g sl c.1) d.toNat c.1 c.2) loc g sl x.1)).isSome = true := by
        intro x hx
        rw [homeLoc_vPutRun]
        refine vPutRun_induction (P := fun t => (mget t.groups _).isSome = true) (fun _ _ _ _ _ h => ?_) _ _ _ _ (hm.2 x hx)
        rwa [vPut_eq_updGroup, updGroup_groups, isSome_mget_mupd]
      simpa only [homeLoc_vPutRun] using ih (vPutRun_induction (fun _ => vFine_vPut) _ _ _ _ hf) hm' hl.2 hn.2 he

end

/-! ### Values of lanes -/

theorem vVal_lt (s : State) (loc : Nat) (g : Group) (sl wide : Bool) (r : Sel) (i : Nat) :
    vVal s loc g sl wide r i < 2 ^ (if wide then 64 else 32) := by
  cases wide
  · exact (vRead s loc g sl r i).isLt
  · exact (vRead64 s loc g sl r i).isLt

theorem length_splitVal (wide : Bool) (x : Nat) : (splitVal wide x).length = if wide then 2 else 1 := by cases wide <;> rfl

theorem toNat_append_w32 (x : Nat) : (w32 (x / 2 ^ 32) ++ w32 x).toNat = x % 2 ^ 64 := by
  have hlo : (w32 x).toNat = x % 2 ^ 32 := BitVec.toNat_ofNat ..
  have hhi : (w32 (x / 2 ^ 32)).toNat = x / 2 ^ 32 % 2 ^ 32 := BitVec.toNat_ofNat ..
  rw [BitVec.toNat_append, hlo, hhi, ← Nat.shiftLeft_add_eq_or_of_lt (Nat.mod_lt _ (by decide)), Nat.shiftLeft_eq]
  omega

/-- A lane whose registers hold the parts of a number has that value. -/
theorem vVal_of_splitVal {t : State} {loc : Nat} {g : Group} {sl wide : Bool} {d : Sel} {j x : Nat}
    (hx : x < 2 ^ (if wide then 64 else 32)) (hd : wide = true → d.toNat + 1 < 256)
    (h : ∀ k (hk : k < (splitVal wide x).length), vAt t (homeLoc t loc g sl j) (d.toNat + k) j = (splitVal wide x)[k]) :
    vVal t loc g sl wide d j = x := by
  cases wide with
  | false =>
    have h0 : vRead t loc g sl d j = w32 x := h 0 (by rw [length_splitVal]; decide)
    simp only [vVal, h0, Bool.false_eq_true, if_false]
    exact Nat.mod_eq_of_lt hx
  | true =>
    have hs : (d + 1).toNat = d.toNat + 1 := by
      rw [BitVec.toNat_add]; exact Nat.mod_eq_of_lt (hd rfl)
    have h0 : vRead t loc g sl d j = w32 x := h 0 (by rw [length_splitVal]; decide)
    have h1 : vRead t loc g sl (d + 1) j = w32 (x / 2 ^ 32) := by
      rw [vRead, hs]; exact h 1 (by rw [length_splitVal]; decide)
    simp only [vVal, vRead64, h0, h1, if_true, toNat_append_w32]
    exact Nat.mod_eq_of_lt hx

/-! ### A state without its vector registers -/

theorem noVectors_updGroup (s : State) (k : Nat) {f : Group → Group} (hf : ∀ g, { f g with v := [] } = f { g with v := [] }) :
    noVectors (updGroup s k f) = updGroup (noVectors s) k f := by
  simp only [noVectors, updGroup, map_mupd s.groups k (φ := fun g => { g with v := [] }) hf]

theorem plain_noVectors (s : State) : plain (noVectors s) = noVectors (plain s) := by
  simp only [plain, noVectors, List.map_map]
  rfl

theorem noVectors_vPut {s : State} (hs : mrising none s.groups = true) (m r i : Nat) (x : W32) :
    noVectors (vPut s m r i x) = noVectors s := by
  have : (mupd s.groups m (fun g => { g with v := msetD g.v (64 * r + i) x 0 })).map (fun e => (e.1, { e.2 with v := [] }))
      = s.groups.map (fun e => (e.1, { e.2 with v := [] })) := by
    unfold mupd
    cases hg : mget s.groups m with
    | none => rfl
    | some g => exact map_mput_same hs hg rfl
  simp only [noVectors, vPut, this]

theorem noVectors_vWriteLanes {s : State} (hs : mrising none s.groups = true) (loc : Nat) (g : Group) (sl : Bool) (d : Sel)
    (l : List (Nat × List W32)) : noVectors (vWriteLanes s loc g sl d l) = noVectors s := by
  have h := vWriteLanes_induction (P := fun t => mrising none t.groups = true ∧ noVectors t = noVectors s)
    (fun t m r i x ⟨ht, hv⟩ => ⟨mrising_mupd ht, (noVectors_vPut ht m r i x).trans hv⟩) loc g sl d l ⟨hs, rfl⟩
  exact h.2

theorem noVectors_orFlags {s : State} {loc : Nat} {sl : Bool} (ha : s.agent = .group loc sl) (fl : Nat) :
    noVectors (orFlags s fl) = orFlags (noVectors s) fl := by
  rw [orFlags_group ha, orFlags_group (s := noVectors s) ha]
  exact noVectors_updGroup s loc fun _ => rfl

theorem readPc_noVectors {s : State} {loc : Nat} {sl : Bool} (ha : s.agent = .group loc sl) : readPc (noVectors s) = readPc s := by
  simp only [readPc, noVectors, ha, mget_map s.groups (fun _ g => ({ g with v := [] } : Group))]
  cases mget s.groups loc <;> cases sl <;> rfl

theorem noVectors_advance {s : State} {loc : Nat} {sl : Bool} (ha : s.agent = .group loc sl) :
    noVectors (advance s) = advance (noVectors s) := by
  rw [advance, advance, readPc_noVectors ha, writePc_group ha, writePc_group (s := noVectors s) ha]
  exact noVectors_updGroup s loc fun _ => by cases sl <;> rfl

/-! ### A group's word that completes -/

/-- A group's word that is ready and whose effect completes answers that effect at PC + 8, but for what completion touches. -/
theorem groupWord_done {i : Instr} {s w : State} {loc : Nat} {sl : Bool} {g : Group} {b : State → Nat → Group → Bool → Res}
    (hr : ready i s = true) (hi : Issues s loc sl g) (hb : b s loc g sl = .done w) (hw : keepsUnit s w) :
    ∃ t, groupWord i s b = .next t ∧ plain t = plain (advance w) := by
  obtain ⟨ha, hg⟩ := hi
  exact word_done hr (by simp only [ha, hg, hb]) hw

theorem readLoc_of_plain_advance {t w : State} (h : plain t = plain (advance w)) (m : MLoc) : readLoc t m = readLoc w m := by
  rw [← readLoc_plain, h, readLoc_plain, advance, readLoc_writePc]

/-- A group's word whose effect writes one register of scalar class does that (R58, R237). -/
theorem does_writeReg {i : Instr} {s : State} {loc : Nat} {sl : Bool} {g : Group} {b : State → Nat → Group → Bool → Res}
    {d : Sel} {v : W64} (hu : LaneUnit i s loc sl g) (he : exec i s = groupWord i s b)
    (hb : b s loc g sl = .done (writeReg s d v)) : Does i s (writeReg s d v) := by
  obtain ⟨hc, hr, ⟨ha, hg⟩, -⟩ := hu
  have hw : keepsUnit s (writeReg s d v) := by
    rw [writeReg_group ha]
    exact keepsUnit_updGroup loc (fun g => gWrite_stepping g d v) (keepsUnit_self hc hr)
  have hpc : readPc (writeReg s d v) = readPc s := by
    rw [writeReg_group ha]
    simp only [readPc, updGroup_agent, ha, updGroup_groups, mget_mupd_self, hg, Option.map_some, gWrite_getSlot]
  refine does_of_done hr he (by simp only [ha, hg, hb]) hw hpc fun m => ?_
  rw [writeReg_group ha, readLoc_updGroup]

/-! ### A word that writes lanes -/

theorem keepsUnit_vWriteLanes {s w : State} (loc : Nat) (g : Group) (sl : Bool) (d : Sel) (l : List (Nat × List W32))
    (h : keepsUnit s w) : keepsUnit s (vWriteLanes w loc g sl d l) :=
  vWriteLanes_induction (P := keepsUnit s) (fun _ m _ _ _ h => keepsUnit_updGroup m (fun _ => rfl) h) loc g sl d l h

theorem readLoc_vWriteLanes (s : State) (loc : Nat) (g : Group) (sl : Bool) (d : Sel) (l : List (Nat × List W32)) (m : MLoc) :
    readLoc (vWriteLanes s loc g sl d l) m = readLoc s m :=
  vWriteLanes_induction (P := fun t => readLoc t m = readLoc s m)
    (fun t n r i x h => by rw [vPut_eq_updGroup, readLoc_updGroup, h]) loc g sl d l rfl

theorem flagsOf_map (l : List Nat) (f : Nat → Nat × Nat) : flagsOf (l.map (fun j => (j, f j))) = lanesFlags l f := by
  simp only [flagsOf, lanesFlags, List.foldl_map]

theorem orFlags_agent_group {s : State} {loc : Nat} {sl : Bool} (ha : s.agent = .group loc sl) (fl : Nat) :
    (orFlags s fl).agent = .group loc sl := by rw [orFlags_group ha]; exact ha

theorem keepsUnit_orFlags {s w : State} {loc : Nat} {sl : Bool} (ha : w.agent = .group loc sl) (fl : Nat) (h : keepsUnit s w) :
    keepsUnit s (orFlags w fl) := by
  rw [orFlags_group ha]
  exact keepsUnit_updGroup loc (fun _ => rfl) h

/-- What says where the lanes of a path are at home: the teams, the team of the group at a location, the lanes lent to it (R44). -/
def pathAt (s : State) (loc : Nat) (sl : Bool) : KMap Team × Option (Nat × List (Nat × W64)) :=
  (s.teams, (mget s.groups loc).map (fun g => (g.team, (getSlot g sl).lent)))

theorem pathAt_plain (s : State) (loc : Nat) (sl : Bool) : pathAt (plain s) loc sl = pathAt s loc sl := by
  simp only [pathAt, plain, mget_map s.groups (fun _ => plainGroup), Option.map_map]
  cases sl <;> rfl

theorem pathAt_updGroup (s : State) (k loc : Nat) (sl : Bool) {f : Group → Group} (ht : ∀ g, (f g).team = g.team)
    (hl : ∀ g, (getSlot (f g) sl).lent = (getSlot g sl).lent) : pathAt (updGroup s k f) loc sl = pathAt s loc sl :=
  congrArg (Prod.mk s.teams) (map_mget_mupd s.groups loc k fun g => by rw [ht, hl])

theorem pathAt_vWriteLanes (s : State) (loc : Nat) (g : Group) (sl : Bool) (d : Sel) (runs : List (Nat × List W32)) :
    pathAt (vWriteLanes s loc g sl d runs) loc sl = pathAt s loc sl :=
  vWriteLanes_induction (P := fun t => pathAt t loc sl = pathAt s loc sl)
    (fun t m _ _ _ h => by rw [← h]; exact pathAt_updGroup t m loc sl (fun _ => rfl) (fun _ => by cases sl <;> rfl)) loc g sl d runs rfl

theorem homeLoc_of_pathAt {s t : State} {loc : Nat} {sl : Bool} {g : Group} (hg : mget s.groups loc = some g)
    (h : pathAt t loc sl = pathAt s loc sl) :
    ∃ g', mget t.groups loc = some g' ∧ ∀ j, homeLoc t loc g' sl j = homeLoc s loc g sl j := by
  simp only [pathAt, hg, Option.map_some, Prod.mk.injEq, Option.map_eq_some_iff] at h
  obtain ⟨hteams, g', hg', hteam, hlent⟩ := h
  exact ⟨g', hg', homeLoc_congr hteams hteam hlent loc⟩

section

variable {t w : State} {loc : Nat} {sl : Bool} (ha : w.agent = .group loc sl)
include ha

theorem vAt_advance (m r j : Nat) : vAt (advance w) m r j = vAt w m r j := by
  rw [advance, writePc_group ha]
  exact vAt_updGroup w loc m r j fun _ => setSlot_v _ _ _

theorem vAt_orFlags (fl m r j : Nat) : vAt (orFlags w fl) m r j = vAt w m r j := by
  rw [orFlags_group ha]
  exact vAt_updGroup w loc m r j fun _ => rfl

theorem pathAt_advance : pathAt (advance w) loc sl = pathAt w loc sl := by
  rw [advance, writePc_group ha]
  exact pathAt_updGroup w loc loc sl (fun _ => setSlot_team _ _ _) (fun _ => by rw [getSlot_setSlot])

theorem pathAt_orFlags (fl : Nat) : pathAt (orFlags w fl) loc sl = pathAt w loc sl := by
  rw [orFlags_group ha]
  exact pathAt_updGroup w loc loc sl (fun _ => rfl) (fun _ => by cases sl <;> rfl)

/-- A word that has completed with flags holds the vector registers of its effect. -/
theorem vAt_of_plain_advance {fl : Nat} (h : plain t = plain (advance (orFlags w fl))) (m r j : Nat) :
    vAt t m r j = vAt w m r j := by
  rw [← vAt_plain, h, vAt_plain, vAt_advance (orFlags_agent_group ha fl), vAt_orFlags ha]

/-- A word that has completed with flags leaves the path as its effect does. -/
theorem pathAt_of_plain_advance {fl : Nat} (h : plain t = plain (advance (orFlags w fl))) :
    pathAt t loc sl = pathAt w loc sl := by
  rw [← pathAt_plain, h, pathAt_plain, pathAt_advance (orFlags_agent_group ha fl), pathAt_orFlags ha]

end

/-- The lanes and registers of a list of lane values, each a register or a pair. -/
def laneRuns (wide : Bool) (l : List Nat) (f : Nat → Nat × Nat) : List (Nat × List W32) :=
  l.map (fun j => (j, splitVal wide (f j).1))

theorem putLanes_map (s : State) (loc : Nat) (g : Group) (sl wide : Bool) (d : Sel) (l : List Nat) (f : Nat → Nat × Nat) :
    putLanes s loc g sl wide d (l.map (fun j => (j, f j))) =
      orFlags (vWriteLanes s loc g sl d (laneRuns wide l f)) (lanesFlags l f) := by
  rw [putLanes, flagsOf_map, List.map_map]
  rfl

section

variable {i : Instr} {s : State} {loc : Nat} {sl : Bool} {g : Group} {l : List Nat} {wide : Bool} {d : Sel}
  {f : Nat → Nat × Nat}

/-- The lanes that a word writes read back as what it wrote. -/
theorem vAt_laneRuns_self {j k : Nat} (hf : vFine s) (hh : lanesHome s loc g sl) (hn : l.Nodup) (hl : ∀ j ∈ l, j < 64) (hj : j ∈ l)
    (hk : k < (splitVal wide (f j).1).length) :
    vAt (vWriteLanes s loc g sl d (laneRuns wide l f)) (homeLoc s loc g sl j) (d.toNat + k) j = (splitVal wide (f j).1)[k] := by
  have hl' : ∀ e ∈ laneRuns wide l f, e.1 < 64 := by simpa [laneRuns] using hl
  have he : (j, splitVal wide (f j).1) ∈ laneRuns wide l f := List.mem_map_of_mem hj
  refine vAt_vWriteLanes_self (e := (j, splitVal wide (f j).1)) hf (fun e he => hh e.1 (hl' e he)) hl' ?_ he hk
  simpa [laneRuns, Function.comp_def] using hn

/-- A lane that a word does not write keeps its value. -/
theorem vAt_laneRuns_other {m r j : Nat} (hl : ∀ j ∈ l, j < 64) (hj : j < 64)
    (h : ¬ (j ∈ l ∧ m = homeLoc s loc g sl j ∧ d.toNat ≤ r ∧ r < d.toNat + (if wide then 2 else 1))) :
    vAt (vWriteLanes s loc g sl d (laneRuns wide l f)) m r j = vAt s m r j := by
  refine vAt_vWriteLanes_other hj (by simpa [laneRuns] using hl) fun e he hc => h ?_
  obtain ⟨n, hn, rfl⟩ := List.mem_map.1 he
  obtain ⟨hm, rfl, hd⟩ := hc
  exact ⟨hn, hm, by simpa only [length_splitVal] using hd⟩

/-- A word that has written lanes and flags and has completed leaves what the flags alone would, but for vector registers. -/
theorem plain_noVectors_of_lanes {t : State} {fl : Nat} {runs : List (Nat × List W32)} (ha : s.agent = .group loc sl)
    (hs : mrising none s.groups = true) (hv : (vWriteLanes s loc g sl d runs).agent = s.agent)
    (h : plain t = plain (advance (orFlags (vWriteLanes s loc g sl d runs) fl))) :
    plain (noVectors t) = plain (noVectors (advance (orFlags s fl))) := by
  have hav := hv.trans ha
  rw [plain_noVectors, h, ← plain_noVectors, noVectors_advance (orFlags_agent_group hav fl), noVectors_orFlags hav,
    noVectors_vWriteLanes hs, ← noVectors_orFlags ha, ← noVectors_advance (orFlags_agent_group ha fl)]

/-- The one rule of the vector words: a ready word whose effect writes one value for each of some lanes does so (R212, R215). -/
theorem laneDoes_of_putLanes {b : State → Nat → Group → Bool → Res} (hu : LaneUnit i s loc sl g)
    (he : exec i s = groupWord i s b) (hb : b s loc g sl = .done (putLanes s loc g sl wide d (l.map (fun j => (j, f j)))))
    (hn : l.Nodup) (hl : ∀ j ∈ l, j < 64) (hf : ∀ j ∈ l, (f j).1 < 2 ^ (if wide then 64 else 32))
    (hd : wide = true → d.toNat + 1 < 256) : LaneDoes i s loc sl g l wide d f := by
  obtain ⟨hc, hr, ⟨ha, hg⟩, hh⟩ := hu
  rw [putLanes_map] at hb
  have hself := keepsUnit_self hc hr
  have hkv := keepsUnit_vWriteLanes loc g sl d (laneRuns wide l f) hself
  have hav := hkv.1.trans ha
  obtain ⟨t, ht, hp⟩ := groupWord_done hr ⟨ha, hg⟩ hb (keepsUnit_orFlags hav _ hkv)
  obtain ⟨g', hg', hhome⟩ :=
    homeLoc_of_pathAt hg ((pathAt_of_plain_advance hav hp).trans (pathAt_vWriteLanes s loc g sl d _))
  obtain ⟨-, -, -, -, hrising, -⟩ := hself
  refine ⟨t, g', he.trans ht, hg', fun j hj => ?_, fun m r j hj hm => ?_, plain_noVectors_of_lanes ha hrising hkv.1 hp, fun m => ?_⟩
  · refine vVal_of_splitVal (hf j hj) hd fun k hk => ?_
    rw [hhome, vAt_of_plain_advance hav hp]
    exact vAt_laneRuns_self (vFine_of_canon hc) hh hn hl hj hk
  · rw [vAt_of_plain_advance hav hp]
    exact vAt_laneRuns_other hl hj hm
  · rw [readLoc_of_plain_advance hp, orFlags_group hav, readLoc_updGroup]
    exact readLoc_vWriteLanes s loc g sl d _ m

end

/-! ### Registers of a ready word -/

/-- A check that would answer otherwise has found nothing, and the checks after it decide. -/
theorem ite_eq_of_ne {α : Type} {c : Prop} [Decidable c] {x y z : α} (h : (if c then x else y) = z) (hx : x ≠ z) : ¬ c ∧ y = z := by
  by_cases hc : c
  · exact absurd ((if_pos hc).symm.trans h) hx
  · exact ⟨hc, (if_neg hc).symm.trans h⟩

/-- A ready word passes steps 3 and 4 of R180: the reserved checks of the word alone, and every register it names may be named. -/
theorem checks_of_ready {i : Instr} {s : State} (h : ready i s = true) :
    reservedOk i = true ∧ ∀ u ∈ regsOf (widthOf s) i, useOkFor s u = true := by
  simp only [ready, Bool.and_eq_true, beq_iff_eq] at h
  obtain ⟨⟨⟨⟨⟨-, hp⟩, -⟩, -⟩, -⟩, -⟩ := h
  obtain ⟨-, hp⟩ := ite_eq_of_ne hp nofun
  obtain ⟨-, hp⟩ := ite_eq_of_ne hp nofun
  obtain ⟨-, hp⟩ := ite_eq_of_ne hp nofun
  obtain ⟨-, hp⟩ := ite_eq_of_ne hp nofun
  obtain ⟨hres, hp⟩ := ite_eq_of_ne hp nofun
  obtain ⟨hreg, -⟩ := ite_eq_of_ne hp nofun
  simp only [Bool.or_eq_true, Bool.not_eq_true', not_or, Bool.not_eq_false] at hres hreg
  exact ⟨hres.1, List.all_eq_true.1 hreg⟩

/-- A pair that a group's ready word names has a second register (R56). -/
theorem pair_of_ready {i : Instr} {s : State} {loc : Nat} {sl : Bool} {g : Group} {d : Sel} (hu : LaneUnit i s loc sl g)
    (h : RUse.vec d 2 2 ∈ regsOf (widthOf s) i) : d.toNat + 1 < 256 := by
  obtain ⟨-, hr, ⟨ha, -⟩, -⟩ := hu
  have hok := (checks_of_ready hr).2 _ h
  simp only [useOkFor, ha, engineOf, RUse.ok, Bool.and_eq_true, beq_iff_eq] at hok
  have hlt : d.toNat < 256 := d.isLt
  omega

/-! ### Lane exchange (R235 to R245, R250) -/

section

variable {s : State} {o : VOp} {loc : Nat} {sl : Bool} {g : Group}

theorem presentVals_eq : presentVals s loc g sl o =
    (computed g sl o.k).map (fun j => (j, vVal s loc g sl (VTy.wide o.ty) o.a j)) := rfl

theorem contains_computed (k : BitVec 4) (n : Nat) :
    (computed g sl k).contains n = (decide (n < g.width) && bit (activeOf g sl k) n) := by
  rw [Bool.eq_iff_iff, List.contains_iff_mem, computed, mem_lanesOf, Bool.and_eq_true, decide_eq_true_eq]
  rfl

/-- A live lane lies below the width (R10). -/
theorem lt_width_of_active {k : BitVec 4} {j : Nat} (h : (activeOf g sl k).getLsbD j = true) : j < g.width := by
  simp only [activeOf, live, fullMask, w64, BitVec.getLsbD_and, BitVec.getLsbD_ofNat, Nat.testBit_two_pow_sub_one,
    Bool.and_eq_true, decide_eq_true_eq] at h
  exact h.1.2.2

/-- The lanes of active(k) whose bit of a mask is 1 are the bits of both masks (R250). -/
theorem maskWhere_computed (k : BitVec 4) (m : W64) :
    maskWhere (fun j => (computed g sl k).contains j && m.getLsbD j) = activeOf g sl k &&& m := by
  apply BitVec.eq_of_getLsbD_eq
  intro j hj
  rw [getLsbD_maskWhere, contains_computed, BitVec.getLsbD_and, bit]
  cases hb : (activeOf g sl k).getLsbD j
  · simp
  · simp [hj, lt_width_of_active hb]

theorem laneFrom_lt {w : Bool} {k : BitVec 4} {a : Sel} (j : Nat) (n : Option Nat) :
    laneFrom (computed g sl k) (vVal s loc g sl w a) j n < 2 ^ (if w then 64 else 32) := by
  unfold laneFrom
  split
  · split <;> exact vVal_lt ..
  · exact vVal_lt ..

/-- The lanes of active(k), to which the one rule of the vector words applies. -/
theorem laneDoes_computed {i : Instr} {wide : Bool} {d : Sel} {f : Nat → Nat × Nat} {b : State → Nat → Group → Bool → Res}
    (hu : LaneUnit i s loc sl g) (he : exec i s = groupWord i s b)
    (hb : b s loc g sl = .done (putLanes s loc g sl wide d ((computed g sl o.k).map (fun j => (j, f j)))))
    (hf : ∀ j < 64, (f j).1 < 2 ^ (if wide then 64 else 32)) (hd : wide = true → RUse.vec d 2 2 ∈ regsOf (widthOf s) i) :
    LaneDoes i s loc sl g (computed g sl o.k) wide d f :=
  laneDoes_of_putLanes hu he hb (nodup_lanesOf _ _) (fun _ => lt_of_mem_lanesOf) (fun j hj => hf j (lt_of_mem_lanesOf hj))
    fun hw => pair_of_ready hu (hd hw)

/-- A shuffle puts into each lane the value of its source lane, its own when that lane is absent (R238, R242). -/
theorem laneDoes_shuffleWord {i : Instr} {src : State → Nat → Group → Bool → Nat → Option Nat} {n : Nat → Option Nat}
    (hu : LaneUnit i s loc sl g) (he : exec i s = shuffleWord i o src s) (hn : ∀ j, src s loc g sl j = n j)
    (hd : RUse.vec o.d (VTy.regs o.ty) (VTy.regs o.ty) ∈ regsOf (widthOf s) i) :
    LaneDoes i s loc sl g (computed g sl o.k) (VTy.wide o.ty) o.d (fun j =>
      (laneFrom (computed g sl o.k) (vVal s loc g sl (VTy.wide o.ty) o.a) j (n j), 0)) := by
  refine laneDoes_computed hu he ?_ (fun j _ => laneFrom_lt j _) (fun hw => by simpa only [VTy.regs, hw, if_true] using hd)
  refine congrArg (fun l => Res.done (putLanes s loc g sl _ o.d l)) (List.map_congr_left fun j _ => ?_)
  rw [hn]
  cases n j with
  | none => rfl
  | some n =>
    simp only [laneFrom, contains_computed]
    split <;> rfl

theorem exec_shfl (o : VOp) (s : State) : exec (.shfl o) s = execShfl o s := rfl
theorem exec_shflx (o : VOp) (s : State) : exec (.shflx o) s = execShflx o s := rfl
theorem exec_shfld (o : VOp) (s : State) : exec (.shfld o) s = execShfld o s := rfl
theorem exec_bcast (o : VOp) (s : State) : exec (.bcast o) s = execBcast o s := rfl
theorem exec_vote (o : VOp) (s : State) : exec (.vote o) s = execVote o s := rfl
theorem exec_ballot (o : VOp) (s : State) : exec (.ballot o) s = execBallot o s := rfl
theorem exec_matchLanes (o : VOp) (s : State) : exec (.matchLanes o) s = execMatchLanes o s := rfl
theorem exec_firstl (o : VOp) (s : State) : exec (.firstl o) s = execFirstl o s := rfl
theorem exec_lanes (o : VOp) (s : State) : exec (.lanes o) s = execLanes o s := rfl

theorem laneDoes_shfl (hu : LaneUnit (.shfl o) s loc sl g) :
    LaneDoes (.shfl o) s loc sl g (computed g sl o.k) (VTy.wide o.ty) o.d (fun j =>
      (laneFrom (computed g sl o.k) (vVal s loc g sl (VTy.wide o.ty) o.a) j (some (bVal s loc g sl o false j % g.width)), 0)) :=
  laneDoes_shuffleWord hu (exec_shfl o s) (fun _ => rfl) (List.mem_cons_of_mem _ List.mem_cons_self)

/-- The lane distance of a ready shflx lies below 64 (R240). -/
theorem shflx_lt (hu : LaneUnit (.shflx o) s loc sl g) : o.c.toNat < 64 := by
  obtain ⟨-, hr, -⟩ := hu
  have hok : (VSpec.ok (vsLane .none .imm) o && decide (o.c.toNat < 64)) = true := (checks_of_ready hr).1
  exact of_decide_eq_true (Bool.and_eq_true_iff.1 hok).2

theorem laneDoes_shflx (hu : LaneUnit (.shflx o) s loc sl g) :
    LaneDoes (.shflx o) s loc sl g (computed g sl o.k) (VTy.wide o.ty) o.d (fun j =>
      (laneFrom (computed g sl o.k) (vVal s loc g sl (VTy.wide o.ty) o.a) j (some (j ^^^ o.c.toNat)), 0)) :=
  laneDoes_shuffleWord hu (exec_shflx o s) (fun j => by simp only [fldN_zero, Nat.reducePow, Nat.mod_eq_of_lt (shflx_lt hu)])
    (List.mem_cons_of_mem _ List.mem_cons_self)

/-- The source lane of a shfld: below or above by the distance, none below lane 0 (R242). -/
theorem laneDoes_shfld (hu : LaneUnit (.shfld o) s loc sl g) :
    LaneDoes (.shfld o) s loc sl g (computed g sl o.k) (VTy.wide o.ty) o.d (fun j =>
      (laneFrom (computed g sl o.k) (vVal s loc g sl (VTy.wide o.ty) o.a) j
        (if o.c.toNat.testBit 7 then some (j + o.c.toNat % 64)
          else if o.c.toNat % 64 ≤ j then some (j - o.c.toNat % 64) else none), 0)) := by
  refine laneDoes_shuffleWord hu (exec_shfld o s) (fun j => ?_) (List.mem_cons_of_mem _ List.mem_cons_self)
  simp only [bitN_eq_testBit, fldN_zero, Nat.reducePow]
  split
  · rfl
  · rcases Nat.lt_or_ge j (o.c.toNat % 64) with h | h
    · rw [if_pos h, if_neg (by omega)]
    · rw [if_neg (by omega), if_pos h]

theorem laneDoes_bcast (hu : LaneUnit (.bcast o) s loc sl g) :
    LaneDoes (.bcast o) s loc sl g (computed g sl o.k) (VTy.wide o.ty) o.d (fun j =>
      (laneFrom (computed g sl o.k) (vVal s loc g sl (VTy.wide o.ty) o.a) j (some ((gRead g o.b).toNat % g.width)), 0)) :=
  laneDoes_shuffleWord hu (exec_bcast o s) (fun _ => rfl) (List.mem_cons_of_mem _ List.mem_cons_self)

/-! ### Votes, ballot and match (R243 to R245) -/

theorem allSame_iff (l : List (Nat × Nat)) : allSame l = true ↔ ∀ x ∈ l, ∀ y ∈ l, x.2 = y.2 := by
  cases l with
  | nil => simp [allSame]
  | cons x t =>
    simp only [allSame, List.all_eq_true, beq_iff_eq]
    have hx (h : ∀ y ∈ t, y.2 = x.2) (y) (hy : y ∈ x :: t) : y.2 = x.2 := by
      rcases List.mem_cons.1 hy with rfl | hy
      · rfl
      · exact h y hy
    exact ⟨fun h y hy z hz => (hx h y hy).trans (hx h z hz).symm,
      fun h y hy => h y (List.mem_cons_of_mem _ hy) x List.mem_cons_self⟩

/-- Whether a vote of a condition code holds of the values of the present lanes (R243). -/
def voteBit (n : Nat) (l : List (Nat × Nat)) : Bool :=
  match n with
  | 0 => l.any (fun x => x.2 != 0)
  | 1 => l.all (fun x => x.2 != 0)
  | _ => allSame l

theorem voteBit_any : voteBit 0 (presentVals s loc g sl o) = true ↔
    ∃ j ∈ computed g sl o.k, vVal s loc g sl (VTy.wide o.ty) o.a j ≠ 0 := by simp [voteBit, presentVals_eq]

theorem voteBit_all : voteBit 1 (presentVals s loc g sl o) = true ↔
    ∀ j ∈ computed g sl o.k, vVal s loc g sl (VTy.wide o.ty) o.a j ≠ 0 := by simp [voteBit, presentVals_eq]

theorem voteBit_uni (n : Nat) : voteBit (n + 2) (presentVals s loc g sl o) = true ↔
    ∀ i ∈ computed g sl o.k, ∀ j ∈ computed g sl o.k,
      vVal s loc g sl (VTy.wide o.ty) o.a i = vVal s loc g sl (VTy.wide o.ty) o.a j := by
  simp [voteBit, allSame_iff, presentVals_eq]

/-- A vote writes 1 when it holds and 0 otherwise. -/
theorem does_vote {r : Prop} (hu : LaneUnit (.vote o) s loc sl g)
    (hr : voteBit (o.c.toNat % 4) (presentVals s loc g sl o) = true ↔ r) :
    (r → Does (.vote o) s (writeReg s o.d 1)) ∧ (¬ r → Does (.vote o) s (writeReg s o.d 0)) := by
  have h : Does (.vote o) s (writeReg s o.d (if voteBit (o.c.toNat % 4) (presentVals s loc g sl o) then 1 else 0)) := by
    rw [show o.c.toNat % 4 = fldN o.c.toNat 0 2 from (fldN_zero _ 2).symm]
    exact does_writeReg hu (exec_vote o s) rfl
  exact ⟨fun hv => by rwa [if_pos (hr.2 hv)] at h, fun hv => by rwa [if_neg (mt hr.1 hv)] at h⟩

/-- The mask of the present lanes whose value has a property. -/
theorem maskOf_presentVals (q : Nat → Bool) :
    maskOf (((presentVals s loc g sl o).filter (fun x => q x.2)).map (·.1)) =
      maskWhere (fun j => (computed g sl o.k).contains j && q (vVal s loc g sl (VTy.wide o.ty) o.a j)) := by
  rw [← maskOf_filter, presentVals_eq, List.filter_map, List.map_map]
  exact congrArg maskOf (List.map_id _)

theorem does_ballot (hu : LaneUnit (.ballot o) s loc sl g) :
    Does (.ballot o) s (writeReg s o.d (maskWhere (fun j =>
      (computed g sl o.k).contains j && vVal s loc g sl (VTy.wide o.ty) o.a j != 0))) :=
  does_writeReg hu (exec_ballot o s)
    (congrArg (fun m => Res.done (writeReg s o.d m)) (maskOf_presentVals fun x => x != 0))

theorem laneDoes_matchLanes (hu : LaneUnit (.matchLanes o) s loc sl g) :
    LaneDoes (.matchLanes o) s loc sl g (computed g sl o.k) true o.d (fun j =>
      ((maskWhere (fun i => (computed g sl o.k).contains i &&
        vVal s loc g sl (VTy.wide o.ty) o.a i == vVal s loc g sl (VTy.wide o.ty) o.a j)).toNat, 0)) := by
  refine laneDoes_computed hu (exec_matchLanes o s) ?_ (fun _ _ => BitVec.isLt _)
    (fun _ => List.mem_cons_of_mem _ List.mem_cons_self)
  refine congrArg (fun l => Res.done (putLanes s loc g sl true o.d l)) ?_
  rw [presentVals_eq, List.map_map, ← presentVals_eq]
  refine List.map_congr_left fun j _ => ?_
  rw [Function.comp_apply, maskOf_presentVals fun x => x == vVal s loc g sl (VTy.wide o.ty) o.a j]

/-! ### Lane counting (R250) -/

theorem does_firstl (hu : LaneUnit (.firstl o) s loc sl g) :
    Does (.firstl o) s (writeReg s o.d (BitVec.ofNat 64 (((List.range 64).find? (fun i =>
      (maskWhere (fun i => (computed g sl o.k).contains i && (gRead g o.a).getLsbD i)).getLsbD i)).getD 64))) := by
  rw [maskWhere_computed]
  exact does_writeReg hu (exec_firstl o s)
    (congrArg (fun n => Res.done (writeReg s o.d (w64 n))) (ctzN_eq_trailingZeros 64 _))

theorem does_lanes (hu : LaneUnit (.lanes o) s loc sl g) (hc : o.c.getLsbD 7 = true) :
    Does (.lanes o) s (writeReg s o.d (BitVec.ofNat 64 (onesOf 64
      (maskWhere (fun i => (computed g sl o.k).contains i && (gRead g o.a).getLsbD i)).toNat))) := by
  rw [maskWhere_computed]
  refine does_writeReg hu (exec_lanes o s) ?_
  simp only [bitN_toNat, hc, if_true, pop64, popN_eq_onesOf, w64]

theorem laneDoes_lanes (hu : LaneUnit (.lanes o) s loc sl g) (hc : o.c.getLsbD 7 = false) :
    LaneDoes (.lanes o) s loc sl g (computed g sl o.k) false o.d (fun j =>
      (onesOf j (maskWhere (fun i => (computed g sl o.k).contains i && (gRead g o.a).getLsbD i)).toNat, 0)) := by
  rw [maskWhere_computed]
  have hlt (j : Nat) (hj : j < 64) (x : Nat) : onesOf j x < 2 ^ 32 :=
    Nat.lt_of_le_of_lt (onesOf_le j x) (Nat.lt_trans hj (by decide))
  refine laneDoes_computed hu (exec_lanes o s) ?_ (fun j hj => hlt j hj _) nofun
  simp only [bitN_toNat, hc, Bool.false_eq_true, if_false, popN_eq_onesOf]
  rfl

end

/-- Settles O23, by one lemma for each word: the shuffles by the rule of the words that write lanes, the masks and counts by their bits. -/
theorem laneExchange : Obligations.LaneExchange := by
  unfold Obligations.LaneExchange
  intro s o loc sl g
  refine ⟨laneDoes_shfl, laneDoes_shflx, laneDoes_shfld, laneDoes_bcast, fun hu => does_vote hu ?_, does_ballot,
    laneDoes_matchLanes, does_firstl, does_lanes, laneDoes_lanes⟩
  rcases o.c.toNat % 4 with _ | _ | n
  · exact voteBit_any
  · exact voteBit_all
  · exact voteBit_uni n

end Sys2Proof
